-- ==== Sys2Proof/Word.lean ====
section
/-! DEFINITION. The word types of the Tlasum 48 (R9, R47, R48, R135) and the shape of the sparse maps. -/

namespace Sys2Proof

/-- A byte of memory, of a galley or of a tile. -/
abbrev Byte := BitVec 8

/-- A vector register holds 32 bits per lane (R48); an instruction word is 32 bits (R135). -/
abbrev W32 := BitVec 32

/-- A uniform register holds 64 bits (R42, R48). -/
abbrev W64 := BitVec 64

/-- A set of lanes: bit l stands for lane l. -/
abbrev Mask := BitVec 64

/-- A map from numbers to values in ONE canonical form: keys strictly rising, and no entry
equal to the default, which is what an unlisted key reads as. -/
abbrev Sparse (α : Type) := List (Nat × α)

end Sys2Proof
end

