-- ==== Sys2Proof/Machine/Bits.lean ====
section
/-! DEFINITION. Helpers on numbers, bytes, lane masks and sparse maps. -/

namespace Sys2Proof.Machine

/-- Sign extension of the low w bits of a number to an integer. -/
def sextInt (w n : Nat) : Int :=
  let m := n % 2 ^ w
  if m < 2 ^ (w - 1) then m else (m : Int) - 2 ^ w

/-- An integer modulo 2^w. -/
def wrap (w : Nat) (i : Int) : Nat := (i % (2 ^ w : Int)).toNat

/-- Bits lo to lo + w − 1 of a number. -/
def bits (n lo w : Nat) : Nat := n / 2 ^ lo % 2 ^ w

/-- Bit i of a number. -/
def bit (n i : Nat) : Bool := n / 2 ^ i % 2 == 1

/-- A Boolean as 0 or 1. -/
def b2n (b : Bool) : Nat := if b then 1 else 0

/-- Number of bits needed to write n, 0 for 0. -/
def bitLen (n : Nat) : Nat := if n = 0 then 0 else Nat.log2 n + 1

/-- Number of one bits among the low w bits. -/
def popcount (w n : Nat) : Nat := ((List.range w).filter (bit n)).length

/-- ⌈a / b⌉ for b > 0. -/
def ceilDiv (a b : Nat) : Nat := (a + b - 1) / b

/-- a rounded up to a multiple of b > 0. -/
def roundUpTo (a b : Nat) : Nat := ceilDiv a b * b

/-- Little-endian bytes of a number (R9). -/
def leBytes : Nat → Nat → List Byte
  | 0, _ => []
  | k + 1, n => BitVec.ofNat 8 n :: leBytes k (n / 256)

/-- The number that little-endian bytes hold (R9). -/
def leNat : List Byte → Nat
  | [] => 0
  | b :: bs => b.toNat + 256 * leNat bs

/-- A lane mask holding lane l alone. -/
def laneBit (l : Nat) : Mask := BitVec.ofNat 64 (2 ^ l)

/-- The mask of lanes 0 to w − 1. -/
def maskBelow (w : Nat) : Mask := BitVec.ofNat 64 (2 ^ w - 1)

/-- The lanes of a mask in ascending order. -/
def lanesOf (m : Mask) : List Nat := (List.range 64).filter (fun l => m.getLsbD l)

/-- The mask of a predicate on lanes. -/
def maskOf (p : Nat → Bool) : Mask :=
  (List.range 64).foldl (fun m l => if p l then m ||| laneBit l else m) 0

/-- Number of lanes in a mask. -/
def lanesIn (m : Mask) : Nat := (lanesOf m).length

/-- What a sparse map holds at a key; d is what an unlisted key reads as. -/
def Sparse.get {α : Type} (m : Sparse α) (d : α) (k : Nat) : α :=
  match m with
  | [] => d
  | (k', v) :: r => if k' = k then v else Sparse.get r d k

/-- An entry put before the first one of a greater key. -/
def Sparse.insert {α : Type} (m : Sparse α) (k : Nat) (v : α) : Sparse α :=
  match m with
  | [] => [(k, v)]
  | (k', v') :: r => if k < k' then (k, v) :: (k', v') :: r else (k', v') :: Sparse.insert r k v

/-- A sparse map with key k set; an entry equal to the default is removed. -/
def Sparse.set {α : Type} [DecidableEq α] (m : Sparse α) (d : α) (k : Nat) (v : α) : Sparse α :=
  let r := m.filter (fun e => e.1 != k)
  if v = d then r else Sparse.insert r k v

/-- A sparse map without the keys that p holds of. -/
def Sparse.drop {α : Type} (m : Sparse α) (p : Nat → Bool) : Sparse α :=
  m.filter (fun e => !p e.1)

/-- Consecutive bytes of a sparse byte map. -/
def Sparse.read (m : Sparse Byte) (k : Nat) : Nat → List Byte
  | 0 => []
  | n + 1 => Sparse.get m 0 k :: Sparse.read m (k + 1) n

/-- Bytes written at consecutive keys of a sparse byte map. -/
def Sparse.write (m : Sparse Byte) (k : Nat) : List Byte → Sparse Byte
  | [] => m
  | b :: bs => Sparse.write (Sparse.set m 0 k b) (k + 1) bs

/-- An entry of a keyed list. -/
def lookup {α : Type} (l : List (Nat × α)) (k : Nat) : Option α :=
  (l.find? (fun e => e.1 == k)).map (·.2)

/-- A keyed list with the entry of key k replaced, or added at the end. -/
def put {α : Type} (l : List (Nat × α)) (k : Nat) (v : α) : List (Nat × α) :=
  if l.any (fun e => e.1 == k) then l.map (fun e => if e.1 == k then (k, v) else e) else l ++ [(k, v)]

/-- The element of a list at an index, changed. -/
def modifyAt {α : Type} (l : List α) (i : Nat) (f : α → α) : List α :=
  match l, i with
  | [], _ => []
  | x :: xs, 0 => f x :: xs
  | x :: xs, i + 1 => x :: modifyAt xs i f

/-- The least number of a list, d for an empty one. -/
def minOf (d : Nat) : List Nat → Nat
  | [] => d
  | x :: xs => xs.foldl Nat.min x

/-- The greatest number of a list, 0 for an empty one. -/
def maxOf (l : List Nat) : Nat := l.foldl Nat.max 0

/-- Insertion into a list ordered by a key. -/
def insertBy {α : Type} (f : α → Nat) (x : α) : List α → List α
  | [] => [x]
  | y :: ys => if f x ≤ f y then x :: y :: ys else y :: insertBy f x ys

/-- A list ordered by a key, equal keys in their order. -/
def sortBy {α : Type} (f : α → Nat) (l : List α) : List α := l.foldr (insertBy f) []

/-- A list without repeats, first occurrences kept. -/
def dedup {α : Type} [BEq α] : List α → List α
  | [] => []
  | x :: xs => x :: (dedup xs).filter (fun y => y != x)

/-- The first numbers below n for which p holds. -/
def firstBelow (n : Nat) (p : Nat → Bool) : Option Nat := (List.range n).find? p

/-- f applied n times. -/
def iter {α : Type} (f : α → α) : Nat → α → α
  | 0, a => a
  | n + 1, a => iter f n (f a)

end Sys2Proof.Machine
end

