-- ==== Sys2Proof/Machine/Float.lean ====
section
/-! DEFINITION. Floating-point formats, exact arithmetic and rounding (R49 to R60, R231 to R240).
A finite value is a sign, a magnitude m and an exponent e that stand for ±m × 2^e; every operation
is computed exactly on these and rounded once. -/

namespace Sys2Proof.Machine

/-- A format of R49 by its code of R241: significand bits, exponent bits, bias; the position of
bit 0 of the pattern in its container (13 for .tf32, R50). -/
structure Fmt where
  mb : Nat
  eb : Nat
  bias : Nat
  shift : Nat
  deriving DecidableEq, Repr

/-- Formats by code (R49, R241): .f16 .bf16 .tf32 .f32 .f64 .e4m3 .e5m2 .e3m2 .e2m3 .e2m1. -/
def fmtOf : Nat → Fmt
  | 0 => ⟨10, 5, 15, 0⟩
  | 1 => ⟨7, 8, 127, 0⟩
  | 2 => ⟨10, 8, 127, 13⟩
  | 3 => ⟨23, 8, 127, 0⟩
  | 4 => ⟨52, 11, 1023, 0⟩
  | 5 => ⟨3, 4, 7, 0⟩
  | 6 => ⟨2, 5, 15, 0⟩
  | 7 => ⟨2, 3, 3, 0⟩
  | 8 => ⟨3, 2, 1, 0⟩
  | _ => ⟨1, 2, 1, 0⟩

/-- Format code of a type selector t of OPs 0x80 to 0x9D (R158). -/
def fmtOfT : Nat → Nat
  | 0 => 0 | 1 => 1 | 2 => 3 | _ => 4

/-- Width in bits of a format's pattern in its container. -/
def fmtBits (c : Nat) : Nat := let f := fmtOf c; 1 + f.eb + f.mb + f.shift

/-- Formats with infinities and NaNs in the IEEE manner (R49). -/
def fmtIeee (c : Nat) : Bool := c ≤ 4 || c == 6

/-- A decoded value. A NaN keeps its sign, whether it is signalling, and its fraction aligned to
52 bits (R53). -/
inductive Val where
  | nan (s : Bool) (sig : Bool) (frac : Nat)
  | inf (s : Bool)
  | fin (s : Bool) (m : Nat) (e : Int)
  deriving DecidableEq, Repr

def Val.isNan : Val → Bool
  | .nan .. => true
  | _ => false

def Val.isSig : Val → Bool
  | .nan _ sig _ => sig
  | _ => false

def Val.isInf : Val → Bool
  | .inf _ => true
  | _ => false

def Val.sign : Val → Bool
  | .nan s _ _ => s
  | .inf s => s
  | .fin s _ _ => s

def Val.isZero : Val → Bool
  | .fin _ m _ => m == 0
  | _ => false

def Val.negate : Val → Val
  | .nan s q f => .nan s q f
  | .inf s => .inf (!s)
  | .fin s m e => .fin (!s) m e

/-- Sticky flags (R59): NX, UF, OF, DZ, NV in bits 0 to 4. -/
abbrev Flags := BitVec 5

def flNX : Flags := 1
def flUF : Flags := 2
def flOF : Flags := 4
def flDZ : Flags := 8
def flNV : Flags := 16

/-- The value of a pattern (R49). -/
def decodeFp (c pat : Nat) : Val :=
  let f := fmtOf c
  let p := pat / 2 ^ f.shift
  let m := p % 2 ^ f.mb
  let e := p / 2 ^ f.mb % 2 ^ f.eb
  let s := bit p (f.mb + f.eb)
  if fmtIeee c && e == 2 ^ f.eb - 1 then
    if m == 0 then .inf s else .nan s (!bit m (f.mb - 1)) (m * 2 ^ (52 - f.mb))
  else if c == 5 && e == 15 && m == 7 then .nan s false (m * 2 ^ (52 - f.mb))
  else if e == 0 then .fin s m (1 - (f.bias : Int) - f.mb)
  else .fin s (2 ^ f.mb + m) ((e : Int) - f.bias - f.mb)

/-- Sign bit of a format in its container. -/
def signBit (c : Nat) (s : Bool) : Nat :=
  let f := fmtOf c
  if s then 2 ^ (f.mb + f.eb + f.shift) else 0

/-- Canonical NaN (R53); 0 in formats that have none. -/
def canonNan (c : Nat) : Nat :=
  let f := fmtOf c
  if fmtIeee c then ((2 ^ f.eb - 1) * 2 ^ f.mb + 2 ^ (f.mb - 1)) * 2 ^ f.shift
  else if c == 5 then 0x7F else 0

def infPat (c : Nat) (s : Bool) : Nat :=
  let f := fmtOf c
  signBit c s + (2 ^ f.eb - 1) * 2 ^ f.mb * 2 ^ f.shift

/-- Largest finite value of a format (R49). -/
def maxPat (c : Nat) (s : Bool) : Nat :=
  let f := fmtOf c
  signBit c s +
    (if fmtIeee c then (2 ^ f.eb - 1) * 2 ^ f.mb - 1
     else if c == 5 then 0x7E else 2 ^ (f.eb + f.mb) - 1) * 2 ^ f.shift

/-- A NaN operand, quieted, in a format (R53); flags: NV where the format has no NaN. -/
def nanPat (c : Nat) (s : Bool) (frac : Nat) : Nat × Flags :=
  let f := fmtOf c
  if fmtIeee c then
    let top := frac / 2 ^ (52 - f.mb) % 2 ^ f.mb
    let q := if bit top (f.mb - 1) then top else top + 2 ^ (f.mb - 1)
    (signBit c s + ((2 ^ f.eb - 1) * 2 ^ f.mb + q) * 2 ^ f.shift, 0)
  else if c == 5 then (signBit c s + 0x7F, 0)
  else (0, flNV)

/-- Rounding codes of R54 after DYN is resolved. -/
inductive Rm where
  | rne | rtz | rup | rdn | rna
  /-- Stochastic, with its random word (R60). -/
  | sr (w : Nat)
  deriving DecidableEq, Repr

/-- Whether the magnitude goes up: quotient n, remainder r of 2^k, an inexact tail below. -/
def roundsUp (rm : Rm) (s : Bool) (n r k : Nat) (sticky : Bool) : Bool :=
  match rm with
  | .rne =>
    let h := 2 ^ (k - 1)
    k != 0 && (h < r || (r == h && (sticky || n % 2 == 1)))
  | .rna => k != 0 && 2 ^ (k - 1) ≤ r
  | .rtz => false
  | .rup => !s && (r != 0 || sticky)
  | .rdn => s && (r != 0 || sticky)
  | .sr w =>
    let t := if 32 ≤ k then r / 2 ^ (k - 32) else r * 2 ^ (32 - k)
    2 ^ 32 ≤ t + w

/-- A magnitude rounded to a multiple of 2^q: the multiple and whether it is exact. The magnitude
is m × 2^e, and a little more where sticky says so (sticky only with q > e). -/
def roundAt (rm : Rm) (s : Bool) (m : Nat) (e q : Int) (sticky : Bool) : Nat × Bool :=
  if q ≤ e then (m * 2 ^ (e - q).toNat, !sticky)
  else
    let k := (q - e).toNat
    let n := m / 2 ^ k
    let r := m % 2 ^ k
    (if roundsUp rm s n r k sticky then n + 1 else n, r == 0 && !sticky)

/-- What a format does with a finite value beyond its range (R57). -/
inductive Over where
  /-- Arithmetic and conversions without .sat. -/
  | plain
  /-- The .sat modifier. -/
  | sat
  deriving DecidableEq, Repr

/-- Result of a finite overflow (R57). -/
def overflowPat (c : Nat) (rm : Rm) (ov : Over) (s : Bool) : Nat :=
  if ov == .sat then maxPat c s
  else if fmtIeee c then
    match rm with
    | .rtz => maxPat c s
    | .rup => if s then maxPat c s else infPat c s
    | .rdn => if s then infPat c s else maxPat c s
    | _ => infPat c s
  else if c == 5 then signBit c s + 0x7F
  else maxPat c s

/-- A non-zero finite value rounded once to a format: pattern and flags (R54, R57, R60). flush is
the format's flush bit (R56). -/
def roundFin (c : Nat) (rm : Rm) (ov : Over) (flush : Bool) (s : Bool) (m : Nat) (e : Int)
    (sticky : Bool) : Nat × Flags :=
  let f := fmtOf c
  if m == 0 && !sticky then (signBit c s, 0)
  else
    let lead : Int := e + (bitLen m : Int) - 1
    let emin : Int := 1 - (f.bias : Int)
    let q := max (lead - f.mb) (emin - f.mb)
    let (n, exact) := roundAt rm s m e q sticky
    -- R57: tininess after rounding, with the exponent range unbounded, or under SR as R60 gives it
    let tiny : Bool := match rm with
      | .sr _ => decide (n < 2 ^ f.mb) && q == emin - f.mb
      | _ =>
        if emin ≤ lead then false
        else
          let (u, _) := roundAt rm s m e (lead - f.mb) sticky
          decide ((bitLen u : Int) + (lead - f.mb) - 1 < emin)
    let inex := !exact
    let mx : Nat := maxPat c false / 2 ^ f.shift
    let mxM := if mx / 2 ^ f.mb == 0 then mx % 2 ^ f.mb else 2 ^ f.mb + mx % 2 ^ f.mb
    let mxE : Int := (mx / 2 ^ f.mb : Nat) - (f.bias : Int) - f.mb
    let tooLarge : Bool := decide (mxE < q) && n != 0 || (q == mxE && decide (mxM < n))
    if tooLarge then (overflowPat c rm ov s, flOF ||| flNX)
    else
      -- n may have reached 2^(mb+1): the pattern arithmetic carries into the exponent
      let ex : Nat := (q + f.mb + f.bias).toNat
      let pat := if n < 2 ^ f.mb then n else ex * 2 ^ f.mb + (n - 2 ^ f.mb)
      if flush && n != 0 && decide (n < 2 ^ f.mb) then (signBit c s, flUF ||| flNX)
      else
        (signBit c s + pat * 2 ^ f.shift,
          (if inex then flNX else 0) ||| (if tiny && inex then flUF else 0))

/-- The flush bit of a format in MATHCTL (R55, R56). -/
def flushBit (ctl : W32) (c : Nat) : Bool :=
  match c with
  | 0 => ctl.getLsbD 6
  | 1 => ctl.getLsbD 7
  | 2 | 3 => ctl.getLsbD 5
  | 4 => ctl.getLsbD 4
  | _ => false

/-- A source operand, flushed where its format's bit says so (R56). -/
def source (ctl : W32) (c pat : Nat) : Val :=
  let v := decodeFp c pat
  match v with
  | .fin s m e =>
    if flushBit ctl c && decide (m < 2 ^ (fmtOf c).mb) then .fin s 0 e else v
  | _ => v

/-- How an operation rounds: mode, format, flush, saturation. -/
structure Dest where
  c : Nat
  rm : Rm
  flush : Bool
  ov : Over
  deriving DecidableEq, Repr

/-- NV for each signalling NaN among the operands (R53). -/
def sigFlags (vs : List Val) : Flags := if vs.any Val.isSig then flNV else 0

/-- The first NaN of the operands, quieted into the format (R53). -/
def firstNan (c : Nat) : List Val → Option (Nat × Flags)
  | [] => none
  | .nan s _ f :: _ => some (nanPat c s f)
  | _ :: vs => firstNan c vs

/-- An exact finite value given as a signed integer times 2^e, rounded; zs is the sign of an exact
zero. -/
def roundInt (d : Dest) (zs : Bool) (m : Int) (e : Int) : Nat × Flags :=
  if m == 0 then (signBit d.c zs, 0)
  else roundFin d.c d.rm d.ov d.flush (decide (m < 0)) m.natAbs e false

/-- The canonical NaN with NV: an invalid operation with no NaN operand (R53). -/
def invalid (c : Nat) : Nat × Flags := (canonNan c, flNV)

/-- Sign of an exact zero sum (R232). -/
def zeroSum (rm : Rm) : Bool := match rm with | .rdn => true | _ => false

def signed (s : Bool) (m : Nat) : Int := if s then -(m : Int) else m

/-- Two aligned finite terms added exactly. -/
def addExact (s1 : Bool) (m1 : Nat) (e1 : Int) (s2 : Bool) (m2 : Nat) (e2 : Int) : Int × Int :=
  let e := min e1 e2
  (signed s1 m1 * 2 ^ (e1 - e).toNat + signed s2 m2 * 2 ^ (e2 - e).toNat, e)

/-- The product of two values that are no NaN: none for ∞ × 0. -/
def mulVal : Val → Val → Option Val
  | .fin s m e, .fin s' m' e' => some (.fin (s != s') (m * m') (e + e'))
  | .inf s, .fin s' m' _ => if m' == 0 then none else some (.inf (s != s'))
  | .fin s m _, .inf s' => if m == 0 then none else some (.inf (s != s'))
  | .inf s, .inf s' => some (.inf (s != s'))
  | _, _ => none

/-- The rounded sum of two values that are no NaN. -/
def addVal (d : Dest) : Val → Val → Nat × Flags
  | .fin s m e, .fin s' m' e' =>
    if m == 0 && m' == 0 then (signBit d.c ((s && s') || zeroSum d.rm), 0)
    else
      let (t, x) := addExact s m e s' m' e'
      roundInt d (zeroSum d.rm) t x
  | .inf s, .fin .. => (infPat d.c s, 0)
  | .fin .., .inf s => (infPat d.c s, 0)
  | .inf s, .inf s' => if s == s' then (infPat d.c s, 0) else invalid d.c
  | _, _ => invalid d.c

/-- a + b (R232). -/
def fpAdd (d : Dest) (a b : Val) : Nat × Flags :=
  match firstNan d.c [a, b] with
  | some (p, fl) => (p, fl ||| sigFlags [a, b])
  | none => addVal d a b

/-- a × b (R232). -/
def fpMul (d : Dest) (a b : Val) : Nat × Flags :=
  match firstNan d.c [a, b] with
  | some (p, fl) => (p, fl ||| sigFlags [a, b])
  | none =>
    match mulVal a b with
    | none => invalid d.c
    | some (.inf s) => (infPat d.c s, 0)
    | some (.fin s m e) => roundFin d.c d.rm d.ov d.flush s m e false
    | some (.nan ..) => invalid d.c

/-- ±(a × b) ± c with one rounding (R232, R233): np negates the product, nc negates c. -/
def fpFma (d : Dest) (np nc : Bool) (a b c : Val) : Nat × Flags :=
  let inv := !a.isNan && !b.isNan && (mulVal a b).isNone
  match firstNan d.c [a, b, c] with
  | some (p, fl) => (p, fl ||| sigFlags [a, b, c] ||| (if inv then flNV else 0))
  | none =>
    match mulVal a b with
    | none => invalid d.c
    | some p => addVal d (if np then p.negate else p) (if nc then c.negate else c)

/-- a ÷ b (R232, R233). -/
def fpDiv (d : Dest) (a b : Val) : Nat × Flags :=
  match firstNan d.c [a, b] with
  | some (p, fl) => (p, fl ||| sigFlags [a, b])
  | none =>
    let s := a.sign != b.sign
    match a, b with
    | .inf _, .inf _ => invalid d.c
    | .inf _, _ => (infPat d.c s, 0)
    | _, .inf _ => (signBit d.c s, 0)
    | .fin _ m e, .fin _ m' e' =>
      if m' == 0 then (if m == 0 then invalid d.c else (infPat d.c s, flDZ))
      else if m == 0 then (signBit d.c s, 0)
      else
        let k := 70 + bitLen m'
        let n := m * 2 ^ k
        roundFin d.c d.rm d.ov d.flush s (n / m') (e - e' - k) (n % m' != 0)
    | _, _ => invalid d.c

/-- ⌊√n⌋, decided bit by bit from bit k down. -/
def isqrtGo (n : Nat) : Nat → Nat → Nat
  | 0, r => r
  | k + 1, r =>
    let t := r + 2 ^ k
    isqrtGo n k (if t * t ≤ n then t else r)

/-- ⌊√n⌋. -/
def isqrt (n : Nat) : Nat := isqrtGo n (bitLen n / 2 + 1) 0

/-- √a (R233). -/
def fpSqrt (d : Dest) (a : Val) : Nat × Flags :=
  match a with
  | .nan s sig f => let (p, fl) := nanPat d.c s f; (p, fl ||| (if sig then flNV else 0))
  | .inf s => if s then invalid d.c else (infPat d.c false, 0)
  | .fin s m e =>
    if m == 0 then (signBit d.c s, 0)
    else if s then invalid d.c
    else
      let odd := e % 2 != 0
      let m' := (if odd then 2 * m else m) * 2 ^ 140
      let e' := (if odd then e - 1 else e) - 140
      let r := isqrt m'
      roundFin d.c d.rm d.ov d.flush false r (e' / 2) (r * r != m')

/-- 1 ÷ √a (R233). -/
def fpRsq (d : Dest) (a : Val) : Nat × Flags :=
  match a with
  | .nan s sig f => let (p, fl) := nanPat d.c s f; (p, fl ||| (if sig then flNV else 0))
  | .inf s => if s then invalid d.c else (signBit d.c false, 0)
  | .fin s m e =>
    if m == 0 then (infPat d.c s, flDZ)
    else if s then invalid d.c
    else
      let odd := e % 2 != 0
      let m' := if odd then 2 * m else m
      let e' := if odd then e - 1 else e
      let k := bitLen m' + 140
      let r := isqrt (2 ^ (2 * k) / m')
      roundFin d.c d.rm d.ov d.flush false r (-(k : Int) - e' / 2) (r * r * m' != 2 ^ (2 * k))

/-- 1 ÷ a (R233). -/
def fpRcp (d : Dest) (a : Val) : Nat × Flags :=
  match a with
  | .inf s => (signBit d.c s, 0)
  | .fin s m e => if m == 0 then (infPat d.c s, flDZ) else fpDiv d (.fin false 1 0) (.fin s m e)
  | v => fpDiv d (.fin false 1 0) v

/-- Order of two values that are no NaN, with −0 below +0 (R234). -/
def valLt (a b : Val) : Bool :=
  match a, b with
  | .inf s, .inf s' => s && !s'
  | .inf s, _ => s
  | _, .inf s => !s
  | .fin s m e, .fin s' m' e' =>
    if m == 0 && m' == 0 then s && !s'
    else decide ((addExact s m e (!s') m' e').1 < 0)
  | _, _ => false

/-- a < b as numbers, −0 equal to +0 (R235). -/
def numLt (a b : Val) : Bool :=
  match a, b with
  | .fin s m e, .fin s' m' e' => decide ((addExact s m e (!s') m' e').1 < 0)
  | _, _ => valLt a b

/-- a = b as numbers (R235). -/
def numEq (a b : Val) : Bool :=
  match a, b with
  | .inf s, .inf s' => s == s'
  | .fin s m e, .fin s' m' e' => (addExact s m e (!s') m' e').1 == 0
  | _, _ => false

/-- A value put back into its own format: exact, but flushed where the format flushes (R56). -/
def fpSame (d : Dest) (v : Val) : Nat × Flags :=
  match v with
  | .nan s sig f => let (p, fl) := nanPat d.c s f; (p, fl ||| (if sig then flNV else 0))
  | .inf s => (infPat d.c s, 0)
  | .fin s m e => roundFin d.c d.rm d.ov d.flush s m e false

/-- FMIN, FMAX, FMINNUM, FMAXNUM (R234): max says which, num that one NaN gives way. -/
def fpMinMax (d : Dest) (mx num : Bool) (a b : Val) : Nat × Flags :=
  let fl := sigFlags [a, b]
  let pick (v : Val) : Nat × Flags := let (p, f) := fpSame d v; (p, f ||| fl)
  if a.isNan || b.isNan then
    if num && !(a.isNan && b.isNan) then pick (if a.isNan then b else a)
    else match firstNan d.c [a, b] with
      | some (p, f) => (p, f ||| fl)
      | none => invalid d.c
  else pick (if mx then (if valLt a b then b else a) else (if valLt b a then b else a))

/-- a × 2^n (R232); an n beyond 8,192 either way is far outside every format's range. -/
def fpScale (d : Dest) (a : Val) (n : Int) : Nat × Flags :=
  match a with
  | .fin s m e => roundFin d.c d.rm d.ov d.flush s m (e + max (-8192) (min 8192 n)) false
  | v => fpSame d v

/-- a rounded to an integral value in its own format; NX is never set (R232). -/
def fpRint (d : Dest) (a : Val) : Nat × Flags :=
  match a with
  | .fin s m e =>
    if m == 0 || 0 ≤ e then fpSame d a
    else
      let (n, _) := roundAt d.rm s m e 0 false
      (roundFin d.c .rne d.ov false s n 0 false)
  | v => fpSame d v

/-- Conversion of a value into a format (R57, R243): infinities and NaNs by R53 and R57. -/
def fpConvert (d : Dest) (v : Val) : Nat × Flags :=
  match v with
  | .nan s sig f => let (p, fl) := nanPat d.c s f; (p, fl ||| (if sig then flNV else 0))
  | .inf s =>
    if fmtIeee d.c then (infPat d.c s, 0)
    else if d.c == 5 && d.ov == .plain then (signBit d.c s + 0x7F, flNV)
    else (maxPat d.c s, flNV)
  | .fin s m e => roundFin d.c d.rm d.ov d.flush s m e false

/-- Class mask of a pattern (R236). -/
def fpClass (c pat : Nat) : Nat :=
  match decodeFp c pat with
  | .nan _ sig _ => if sig then 0x100 else 0x200
  | .inf s => if s then 0x1 else 0x80
  | .fin s m _ =>
    if m == 0 then (if s then 0x8 else 0x10)
    else if m < 2 ^ (fmtOf c).mb then (if s then 0x4 else 0x20)
    else if s then 0x2 else 0x40

/-- A sum of terms that are no NaN: finite exact sum, or infinity, or none when infinities of both
signs meet. The finite sum is a signed integer times 2^e; neg says that every term is −0. -/
structure Sum where
  m : Int
  e : Int
  pinf : Bool
  ninf : Bool
  allNeg : Bool
  deriving DecidableEq, Repr

def Sum.zero : Sum := ⟨0, 0, false, false, true⟩

def Sum.add (x : Sum) : Val → Sum
  | .fin s m e =>
    if m == 0 then { x with allNeg := x.allNeg && s }
    else
      let lo := if x.m == 0 then e else min x.e e
      { x with m := x.m * 2 ^ (x.e - lo).toNat + signed s m * 2 ^ (e - lo).toNat, e := lo
               allNeg := false }
  | .inf s => if s then { x with ninf := true, allNeg := false }
              else { x with pinf := true, allNeg := false }
  | .nan .. => x

/-- An exact sum of values that are no NaN, rounded once: the sign of an exact zero follows
R232. -/
def Sum.round (d : Dest) (x : Sum) : Nat × Flags :=
  if x.pinf && x.ninf then invalid d.c
  else if x.pinf then (infPat d.c false, 0)
  else if x.ninf then (infPat d.c true, 0)
  else roundInt d (x.allNeg || zeroSum d.rm) x.m x.e

end Sys2Proof.Machine
end

