-- ==== Sys2Proof/Machine/Block.lean ====
section
/-! DEFINITION. Stochastic words (R61), conversions that involve integers (R58), the MX and sorted
E2M1 block formats (R51, R52, R63 to R68) and the packings of memory (R69 to R71). -/

namespace Sys2Proof.Machine

/-- One round of Philox4x32 (R61). -/
def philoxRound (c : Nat × Nat × Nat × Nat) (k0 k1 : Nat) : Nat × Nat × Nat × Nat :=
  let p0 := 0xD2511F53 * c.1
  let p1 := 0xCD9E8D57 * c.2.2.1
  ((p1 / 2 ^ 32) ^^^ c.2.1 ^^^ k0, p1 % 2 ^ 32, (p0 / 2 ^ 32) ^^^ c.2.2.2 ^^^ k1, p0 % 2 ^ 32)

/-- Philox4x32-10 (R61), n rounds left. -/
def philoxGo : Nat → Nat × Nat × Nat × Nat → Nat → Nat → Nat × Nat × Nat × Nat
  | 0, c, _, _ => c
  | n + 1, c, k0, k1 =>
    philoxGo n (philoxRound c k0 k1) ((k0 + 0x9E3779B9) % 2 ^ 32) ((k1 + 0xBB67AE85) % 2 ^ 32)

/-- The random word number e mod 4 of a counter and a 64-bit key (R61). -/
def philoxWord (key : W64) (c0 c1 c2 c3 e : Nat) : Nat :=
  let k := key.toNat
  let r := philoxGo 10 (c0 % 2 ^ 32, c1 % 2 ^ 32, c2 % 2 ^ 32, c3 % 2 ^ 32) (k % 2 ^ 32) (k / 2 ^ 32)
  match e % 4 with
  | 0 => r.1 | 1 => r.2.1 | 2 => r.2.2.1 | _ => r.2.2.2

/-- Width and signedness of an integer code (R242). -/
def intWidth (c : Nat) : Nat := 8 * 2 ^ (c % 4)

def intSigned (c : Nat) : Bool := c < 4

/-- The integer that the low bits of a source hold. -/
def intValue (c pat : Nat) : Int :=
  if intSigned c then sextInt (intWidth c) pat else (pat % 2 ^ intWidth c : Nat)

/-- An integer result in its register: sign or zero extension to 32 or 64 bits (R48, R244). -/
def intResult (c : Nat) (i : Int) : Nat := wrap (if intWidth c == 64 then 64 else 32) i

/-- The nearest limit of a range (R58). -/
def clampInt (c : Nat) (i : Int) : Int :=
  let w := intWidth c
  let lo : Int := if intSigned c then -(2 ^ (w - 1)) else 0
  let hi : Int := if intSigned c then 2 ^ (w - 1) - 1 else 2 ^ w - 1
  max lo (min hi i)

/-- Floating point to integer (R58). -/
def fpToInt (c : Nat) (rm : Rm) (v : Val) : Int × Flags :=
  match v with
  | .nan .. => (0, flNV)
  | .inf s => (clampInt c (if s then -(2 ^ 70) else 2 ^ 70), flNV)
  | .fin s m e =>
    let (n, exact) := roundAt rm s m e 0 false
    let i := signed s n
    if clampInt c i == i then (i, if exact then 0 else flNX) else (clampInt c i, flNV)

/-- Largest exponent of an MX element (R63); code 10 is MXINT8. -/
def mxEmax (elem : Nat) : Int :=
  match elem with
  | 5 => 8 | 6 => 15 | 7 => 4 | 8 => 2 | 9 => 2 | _ => 0

/-- The value of an element code (R52, R49). -/
def elemValue (elem code : Nat) : Val :=
  if elem == 10 then
    let i := sextInt 8 code
    .fin (decide (i < 0)) i.natAbs (-6)
  else decodeFp elem (code % 2 ^ fmtBits elem)

/-- The NaN that a block of scale 0xFF decodes to (R53). -/
def quietNan : Val := .nan false false (2 ^ 51)

/-- A value times 2^k. -/
def scaleVal (v : Val) (k : Int) : Val :=
  match v with
  | .fin s m e => .fin s m (e + k)
  | v => v

/-- Element of an MX block with its scale (R64). -/
def mxValue (elem code scale : Nat) : Val :=
  if scale == 0xFF then quietNan else scaleVal (elemValue elem code) ((scale : Int) - 127)

/-- Element of a sorted E2M1 block (R66). -/
def sortedValue (code scale sort : Nat) : Val :=
  if scale == 0xFF then quietNan
  else if code % 16 == 8 then scaleVal (decodeFp 5 sort) ((scale : Int) - 127)
  else scaleVal (decodeFp 9 (code % 16)) ((scale : Int) - 127)

/-- ⌊log2⌋ of a non-zero magnitude. -/
def leadOf : Val → Int
  | .fin _ m e => e + (bitLen m : Int) - 1
  | _ => 0

/-- Magnitude order of finite values. -/
def magLt (a b : Val) : Bool :=
  match a, b with
  | .fin _ m e, .fin _ m' e' => numLt (.fin false m e) (.fin false m' e')
  | _, _ => false

/-- The largest magnitude of a list of finite values. -/
def largest (vs : List Val) : Val :=
  vs.foldl (fun x v => if magLt x v then v else x) (.fin false 0 0)

def clampExp (e : Int) : Int := max (-127) (min 127 e)

/-- An element rounded and saturated: code and flags NX and OF (R65, R246). -/
def quantElem (elem : Nat) (rm : Rm) (v : Val) : Nat × Flags :=
  match v with
  | .fin s m e =>
    if elem == 10 then
      let (n, exact) := roundAt rm s m e (-6) false
      if 127 < n then (if s then 0x81 else 0x7F, flNX ||| flOF)
      else (wrap 8 (signed s n), if exact then 0 else flNX)
    else
      let (p, f) := roundFin elem rm .sat false s m e false
      (p, f &&& (flNX ||| flOF))
  | _ => (0, 0)

/-- Flags of a source in a block that decodes to NaN (R246). -/
def nanBlockFlags (v : Val) : Flags :=
  (if v.isNan then 0 else flNX) ||| (if v.isSig then flNV else 0)

/-- Quantisation of an MX block: scale byte, and code and flags of each element (R65, R246). -/
def mxQuantise (elem : Nat) (rm : Nat → Rm) (xs : List Val) : Nat × List (Nat × Flags) :=
  if xs.any (fun v => v.isNan || v.isInf) then (0xFF, xs.map (fun v => (0, nanBlockFlags v)))
  else
    let m := largest xs
    let e := clampExp (if m.isZero then -127 else leadOf m - mxEmax elem)
    ((e + 127).toNat,
      xs.mapIdx (fun i v => quantElem elem (rm i) (scaleVal v (-e))))

/-- Index of the first of the largest magnitudes (R67, step 2). -/
def outlier (xs : List Val) : Nat :=
  let m := largest xs
  (xs.findIdx? (fun v => !magLt v m)).getD 0

/-- Quantisation of a sorted E2M1 block: scale byte, sort byte, and code and flags of each element
(R67, R246). -/
def sortQuantise (rm : Nat → Rm) (xs : List Val) : Nat × Nat × List (Nat × Flags) :=
  if xs.any (fun v => v.isNan || v.isInf) then (0xFF, 0x7F, xs.map (fun v => (0, nanBlockFlags v)))
  else
    let j := outlier xs
    let xj := xs.getD j (.fin false 0 0)
    let m := largest (xs.eraseIdx j)
    let e := clampExp (if !m.isZero then leadOf m - 2 else if !xj.isZero then leadOf xj - 8 else -127)
    let (sort, fs) := quantElem 5 .rne (scaleVal xj (-e))
    ((e + 127).toNat, sort,
      xs.mapIdx (fun i v =>
        if i == j then (8, fs)
        else
          let (c, f) := quantElem 9 (rm i) (scaleVal v (-e))
          (if c == 8 then 0 else c, f)))

/-- Size of an element in bits in memory, by code 0x00 to 0x14 of R307 with the formats of R265. -/
def elemBits (ef : Nat) : Nat :=
  match ef with
  | 0 | 2 | 3 => 4
  | 1 | 6 | 7 | 8 => 8
  | 4 | 5 => 6
  | 9 | 10 => 16
  | 11 | 12 => 32
  | 13 => 64
  | 14 => 128
  | _ => 8 * 2 ^ (ef - 16)

/-- Bytes that n elements take in memory, 6-bit elements in a tight stream (R69, R70). -/
def packedBytes (ef n : Nat) : Nat := ceilDiv (elemBits ef * n) 8

/-- Element i of a run of packed bytes in memory (R69, R70). -/
def packedElem (ef : Nat) (bs : List Byte) (i : Nat) : Nat :=
  let b := elemBits ef
  let lo := b * i
  bits (leNat ((bs.drop (lo / 8)).take (ceilDiv (lo % 8 + b) 8))) (lo % 8) b

end Sys2Proof.Machine
end

