-- ==== Sys2Proof/Config.lean ====
section
/-! DEFINITION. What the manual leaves open: free values. None has a body, so no proof can see a
value of it; each is named in the assumption log (entry 6). -/

namespace Sys2Proof.Config

/-- A fresh value with no rule of its own, taken with the state's counter `fresh`. -/
opaque freeWord : Nat → W64

/-- The compositor's estimate beyond the issue time plus 1 ns of a promise (R319). -/
opaque promiseDelay : Nat → Nat

/-- The key the security block draws from its random source (R75). -/
opaque randomKey : Nat → BitVec 256

/-- The device secret fused at manufacture (R292). -/
opaque deviceSecret : BitVec 256

/-- SHA3-512 of the identity public key (R16). -/
opaque identityDigest : BitVec 512

/-- Byte i of the ML-DSA-87 signature that the security block makes over a quote (R16). -/
opaque quoteSignature : List Byte → Nat → Byte

/-- Whether an ML-DSA-87 signature verifies over a SHA3-512 digest against the fused key (R13, R21). -/
opaque signatureValid : BitVec 512 → List Byte → Bool

/-- The byte offset of the first bad field in the header of the image in a slot of the flash, none where magic and
layout are valid (R13). The manual gives no layout of an image. -/
opaque imageHeader : List (Nat × BitVec 8) → Nat → Option Nat

/-- Header and body of the image in a slot of the flash (R13). -/
opaque imageBody : List (Nat × BitVec 8) → Nat → List (BitVec 8)

/-- The signature of the image in a slot of the flash (R13). -/
opaque imageSignature : List (Nat × BitVec 8) → Nat → List (BitVec 8)

/-- The security version of the image in a slot of the flash (R13). -/
opaque imageVersion : List (Nat × BitVec 8) → Nat → W32

/-- The digest of the ROM's revision and of the fuses, under a fused minimum, that MEAS0 is extended with (R14). -/
opaque romDigest : W32 → BitVec 512

/-- Whether a request to raise the fused minimum to a version, with its bytes, is rightly signed (R13). -/
opaque raiseSigned : W32 → List (BitVec 8) → Bool

/-- The 64-bit context seed that keys stochastic rounding (R61). -/
opaque contextSeed : W32 → W64

/-- The 64 KiB-aligned place in the user half at which a launch's groups see its argument copy (R44). -/
opaque argCopyPlace : W64 → Nat

/-- The physical address, a multiple of 4,096 in the die's memory, of pool storage the device
chooses for copy replay entries that a record names (R361, kind 0x07). -/
opaque journalFrame : Nat → Nat

/-- The value of an elementary function where no bound on the working precision decides the
rounding: arguments are the opcode, the format number and the pattern. -/
opaque elementary : Nat → Nat → Nat → Nat

/-- Bytes populated behind a die's CXL root port (R117). -/
opaque expanderBytes : Nat → Nat

/-- Which of a die's four walkers serves a walk (R126), by the state's counter `fresh`. -/
opaque walkerChoice : Nat → Nat

/-- Whether that walker takes the entry of a level from its cache where it keeps one (R126). -/
opaque walkerHit : Nat → Nat → Bool

/-- What a copy writes in a row's last byte beyond the row's last element, where that is half a byte or less than
a byte (R308 does not say); by destination address and row. -/
opaque rowTail : Nat → Nat → Nat

/-- The set of a cache that a line belongs to (R289 speaks of sets and gives no index); a cache is an L1 by its core
number, 48 + die a remote line cache, 52 + die an L2. -/
opaque cacheSet : Nat → Nat → Nat

/-- Ways of the sets of a cache (R289). -/
opaque cacheWays : Nat → Nat

/-- The set of a die's directory that a region belongs to (R287). -/
opaque directorySet : Nat → Nat

/-- Nanoseconds until the last acknowledgement of the probes that a write sends (R335), by the state's counter
`fresh`. -/
opaque probeDelay : Nat → Nat

end Sys2Proof.Config
end

