-- ==== Sys2Proof/Machine/Elementary.lean ====
section
/-! DEFINITION. The elementary functions FEXP2, FLOG2, FSIN, FCOS and FTANH (R232, R233), correctly
rounded: the exact value is enclosed between two fixed-point numbers of p fraction bits, and taken
when both ends round alike; else p grows. Where the last p does not decide, the result is the free
value Config.elementary (log entry 10). -/

namespace Sys2Proof.Machine

/-- Σ (±1)^i 2^p / ((2i + 1) k^(2i + 1)): 2^p × atan(1/k), or atanh(1/k) without alternation. -/
def arcSeries (alt : Bool) (k2 : Nat) : Nat → Nat → Nat → Bool → Int → Int
  | 0, _, _, _, acc => acc
  | fuel + 1, term, n, neg, acc =>
    if term == 0 then acc
    else arcSeries alt k2 fuel (term / k2) (n + 2) (if alt then !neg else neg)
      (acc + signed neg (term / n))

/-- 2^p × atan(1/k) or atanh(1/k), within p units. -/
def arcInv (p : Nat) (alt : Bool) (k : Nat) : Int := arcSeries alt (k * k) p (2 ^ p / k) 1 false 0

/-- 2^p × ln 2, within 2p units. -/
def ln2Fix (p : Nat) : Int := 2 * arcInv p false 3

/-- 2^p × π, within 20p units. -/
def piFix (p : Nat) : Int := 16 * arcInv p true 5 - 4 * arcInv p true 239

/-- Σ y^i / i! at scale 2^p. -/
def expSeries (p : Nat) (y : Int) : Nat → Int → Nat → Int → Int
  | 0, _, _, acc => acc
  | fuel + 1, term, i, acc =>
    if term == 0 then acc
    else expSeries p y fuel (term * y / 2 ^ p / i) (i + 1) (acc + term)

/-- e^y at scale 2^p for 0 ≤ y < 1. -/
def expFix (p : Nat) (y : Int) : Int := expSeries p y p (2 ^ p) 1 0

/-- Σ (−1)^i z^(2i + k) / (2i + k)! at scale 2^p: sin for k = 1, cos for k = 0. -/
def trigSeries (p : Nat) (z2 : Int) : Nat → Int → Nat → Int → Int
  | 0, _, _, acc => acc
  | fuel + 1, term, i, acc =>
    if term == 0 then acc
    else trigSeries p z2 fuel (-(term * z2 / 2 ^ p / ((i + 1) * (i + 2) : Nat))) (i + 2) (acc + term)

/-- Σ z^(2i + 1) / (2i + 1) at scale 2^p. -/
def atanhSeries (p : Nat) (z2 : Int) : Nat → Int → Nat → Int → Int
  | 0, _, _, acc => acc
  | fuel + 1, term, n, acc =>
    if term == 0 then acc
    else atanhSeries p z2 fuel (term * z2 / 2 ^ p) (n + 2) (acc + term / n)

/-- A value strictly between lo and hi, both times 2^e: its rounding, when both ends round alike. -/
def between (d : Dest) (s : Bool) (lo hi : Int) (e : Int) : Option (Nat × Flags) :=
  if lo ≤ 0 || hi ≤ lo then none
  else
    let a := roundFin d.c d.rm d.ov d.flush s lo.toNat e true
    let b := roundFin d.c d.rm d.ov d.flush s (hi - 1).toNat e true
    if a == b then some a else none

/-- m × 2^e at scale 2^p, rounded down. -/
def toFix (p : Nat) (m : Nat) (e : Int) : Nat :=
  let k := e + p
  if 0 ≤ k then m * 2 ^ k.toNat else m / 2 ^ (-k).toNat

/-- Error allowed to each series below, in units of 2^−p. -/
def slack (p : Nat) : Int := 64 * p

/-- 2^x for x = ±m × 2^e, no integer and of magnitude 2^−60 to 2^13. -/
def exp2Mid (d : Dest) (p : Nat) (s : Bool) (m : Nat) (e : Int) : Option (Nat × Flags) :=
  let x : Int := signed s (toFix p m e)
  let n := x / 2 ^ p
  let f := x - n * 2 ^ p
  let v := expFix p (f * ln2Fix p / 2 ^ p)
  between d false (v - slack p) (v + slack p) (n - p)

/-- log2 of m × 2^e, no power of two. -/
def log2Mid (d : Dest) (p : Nat) (m : Nat) (e : Int) : Option (Nat × Flags) :=
  let l := bitLen m - 1
  let y : Int := toFix p m (-(l : Int))
  let z := (y - 2 ^ p) * 2 ^ p / (y + 2 ^ p)
  let ln := 2 * atanhSeries p (z * z / 2 ^ p) p z 1 0
  let v := (e + l) * 2 ^ p + ln * 2 ^ p / ln2Fix p
  if 0 < v then between d false (v - slack p) (v + slack p) (-(p : Int))
  else between d true (-v - slack p) (-v + slack p) (-(p : Int))

/-- sin or cos of ±m × 2^e of magnitude 2^−40 or more: reduced by multiples of π/2 with as many
more bits of π as the magnitude needs. -/
def trigMid (d : Dest) (p : Nat) (cosine : Bool) (s : Bool) (m : Nat) (e : Int) :
    Option (Nat × Flags) :=
  let w := p + (e + (bitLen m : Int)).toNat + 16
  let x : Int := toFix w m e
  let half := piFix w / 2
  let k := x / half
  let r := (x - k * half) / 2 ^ (w - p)
  let q := (k + (if cosine then 1 else 0)) % 4
  let z2 := r * r / 2 ^ p
  let v := if q % 2 == 0 then trigSeries p z2 p r 1 0 else trigSeries p z2 p (2 ^ p) 0 0
  -- the sine of the quadrant q is sin r, cos r, −sin r, −cos r
  let neg := (q == 2 || q == 3) != (!cosine && s)
  between d neg (v - slack p) (v + slack p) (-(p : Int))

/-- tanh of a magnitude m × 2^e from 2^−40 to 64. -/
def tanhMid (d : Dest) (p : Nat) (s : Bool) (m : Nat) (e : Int) : Option (Nat × Flags) :=
  -- t = e^(−2x) = 2^(−2x / ln 2)
  let y : Int := -(2 * (toFix p m e : Int)) * 2 ^ p / ln2Fix p
  let n := y / 2 ^ p
  let f := y - n * 2 ^ p
  let t := expFix p (f * ln2Fix p / 2 ^ p) / 2 ^ (-n).toNat
  let v := (2 ^ p - t) * 2 ^ p / (2 ^ p + t)
  between d s (v - slack p) (v + slack p) (-(p : Int))

/-- The first precision that decides. -/
def firstDecided (f : Nat → Option (Nat × Flags)) : List Nat → Option (Nat × Flags)
  | [] => none
  | p :: ps => match f p with | some r => some r | none => firstDecided f ps

/-- Precisions tried. -/
def precisions : List Nat := [192, 320, 640, 1280]

/-- The value decided, or else a free pattern, inexact. -/
def decided (op c pat : Nat) (r : Option (Nat × Flags)) : Nat × Flags :=
  match r with
  | some x => x
  | none => (Config.elementary op c pat % 2 ^ fmtBits c, flNX)

/-- ±m × 2^e made a little smaller: x × (1 − δ) with 0 < δ < 2^−79. -/
def justBelow (d : Dest) (s : Bool) (m : Nat) (e : Int) : Option (Nat × Flags) :=
  between d s ((m : Int) * 2 ^ 200 - m * 2 ^ 121) ((m : Int) * 2 ^ 200) (e - 200)

/-- 1 made a little larger or smaller, by less than 2^−59. -/
def aroundOne (d : Dest) (s up : Bool) : Option (Nat × Flags) :=
  if up then between d s (2 ^ 200) (2 ^ 200 + 2 ^ 141) (-200)
  else between d s (2 ^ 200 - 2 ^ 141) (2 ^ 200) (-200)

/-- FEXP2, FLOG2, FSIN, FCOS and FTANH, OPs 0x96 to 0x9A, on a source value (R232, R233). -/
def fpElementary (d : Dest) (op pat : Nat) (a : Val) : Nat × Flags :=
  let one (s : Bool) : Nat × Flags := roundFin d.c .rne .plain false s 1 0 false
  match a with
  | .nan s sig f => let (p, fl) := nanPat d.c s f; (p, fl ||| (if sig then flNV else 0))
  | .inf s =>
    match op with
    | 0x96 => if s then (signBit d.c false, 0) else (infPat d.c false, 0)
    | 0x97 => if s then invalid d.c else (infPat d.c false, 0)
    | 0x9A => one s
    | _ => invalid d.c
  | .fin s m e =>
    if m == 0 then
      match op with
      | 0x96 | 0x99 => one false
      | 0x97 => (infPat d.c true, flDZ)
      | _ => (signBit d.c s, 0)
    else
      let lead : Int := e + (bitLen m : Int) - 1
      match op with
      | 0x96 =>
        if 13 ≤ lead then
          roundFin d.c d.rm d.ov d.flush false 1 (if s then -8192 else 8192) false
        else if 0 ≤ e || m % 2 ^ (-e).toNat == 0 then
          roundFin d.c d.rm d.ov d.flush false 1 (signed s (toFix 0 m e)) false
        else if lead < -60 then decided op d.c pat (aroundOne d false (!s))
        else decided op d.c pat (firstDecided (fun p => exp2Mid d p s m e) precisions)
      | 0x97 =>
        if s then invalid d.c
        else if m == 2 ^ (bitLen m - 1) then roundInt d false lead 0
        else decided op d.c pat (firstDecided (fun p => log2Mid d p m e) precisions)
      | 0x98 =>
        if lead < -40 then decided op d.c pat (justBelow d s m e)
        else decided op d.c pat (firstDecided (fun p => trigMid d p false s m e) precisions)
      | 0x99 =>
        if lead < -40 then decided op d.c pat (aroundOne d false false)
        else decided op d.c pat (firstDecided (fun p => trigMid d p true s m e) precisions)
      | _ =>
        if lead < -40 then decided op d.c pat (justBelow d s m e)
        else if 6 ≤ lead then decided op d.c pat (aroundOne d s false)
        else decided op d.c pat (firstDecided (fun p => tanhMid d p s m e) precisions)

end Sys2Proof.Machine
end

