-- ==== Sys2Proof/Syntax.lean ====
section
/-! DEFINITION. The instructions of the opcode map (R157) and the steps of the device that
have no encoding, one constructor for each row of the opcode table, and the prefixes and
extensions an instruction carries (R151, R153 to R156). -/

namespace Sys2Proof

/-- The memory modifier prefix (R151). -/
structure Mmod where
  /-- ORD: 0 relaxed, 1 acquire, 2 release, 3 acquire-release; 4 to 7 reserved. -/
  ord : BitVec 3
  /-- SCOPE: 0 .grp, 1 .team, 2 .clus, 3 .die, 4 .dev, 5 .sys; 6 and 7 reserved. -/
  scope : BitVec 3
  /-- SPACE: 0 virtual, 1 galley, 2 physical; 3 reserved (R114). -/
  space : BitVec 2
  /-- CACHE: 0 normal, 1 streaming, 2 no L1, 3 no allocation, 4 retain; 5 to 7 reserved. -/
  cache : BitVec 3
  /-- DET: reductions in program order at the home. -/
  det : Bool
  deriving DecidableEq, Repr

/-- The lane prefix (R153). -/
structure Lmod where
  /-- NEG: the guard predicate is inverted. -/
  neg : Bool
  /-- TAIL: 0 no limit, 1 to 64: lanes from TAIL upward are inactive; 65 to 127 reserved. -/
  tail : BitVec 7
  deriving DecidableEq, Repr

/-- The extension word after the main word (R154 to R156). -/
inductive Ext where
  /-- No extension word. -/
  | none
  /-- IMMX: bits 31:8 of the immediate. -/
  | immx (hi : BitVec 24)
  /-- MEMX: NOIDX, SC1, SX, W16 and the signed byte offset. -/
  | memx (noidx sc1 sx w16 : Bool) (off : BitVec 20)
  /-- REGX: X in bits 19:13, Y in bits 12:6, RND, SAT. -/
  | regx (x y : BitVec 7) (rnd : BitVec 3) (sat : Bool)
  deriving DecidableEq, Repr

/-- What every instruction carries beside its own fields: the chain bit and the guard of the
main word (R135), its prefixes and its extension (R136). -/
structure Hdr where
  /-- C: this instruction issues together with the next one (R142). -/
  c : Bool
  /-- G: 0 to 6 select p0 to p6, 7 means always. -/
  g : BitVec 3
  lmod : Option Lmod
  mmod : Option Mmod
  x : Ext
  deriving DecidableEq, Repr

/-- Who stores to a register of the device (R23, R28, R29, R77). -/
inductive Writer where
  /-- Supervisor code on the proctor lane of a core. -/
  | proctor (core : Nat)
  /-- A supervisor group on a core. -/
  | sup (core : Nat)
  /-- A group in user mode. -/
  | user
  /-- A host, through the management window. -/
  | host
  /-- The first stage, before the proctor lanes start (R11). -/
  | firstStage
  deriving DecidableEq, Repr

/-- A packet of lane operations that a peer sends to this device (R298). -/
structure PeerPacket where
  /-- Peer number and sequence number: a packet that arrives twice is executed once. -/
  peer : Nat
  seq : Nat
  /-- 0 load, 1 store, 2 ATOM, 3 CAS, 4 RED. -/
  kind : BitVec 3
  /-- Operation code of R302 for ATOM and RED. -/
  op : BitVec 4
  size : Nat
  /-- For each lane in ascending order: physical address, data, new value of a CAS. -/
  lanes : List (Nat × Nat × Nat)
  deriving DecidableEq, Repr

/-- Where a soft error arises (R374). -/
inductive SoftError where
  /-- Register stack store word: thread, store key. -/
  | store (thread key : Nat)
  /-- Galley byte offset within a core's galley; the line holding it is poisoned. -/
  | galley (core off : Nat)
  /-- A dirty L2 line. -/
  | l2 (line : Nat)
  /-- An HBM, second tier or expander line. -/
  | mem (line : Nat)
  /-- A forme tile of a core. -/
  | forme (core tile : Nat)
  /-- A spill area line, met on the fill of a RET by this thread. -/
  | spill (thread : Nat)
  /-- A record of a hand-in queue: core, place. -/
  | record (core place : Nat)
  /-- The press datapath of a core while it runs the operation (R278, class 1). -/
  | press (core op : Nat)
  /-- A clean line of an L1 (core number), of a remote line cache (48 + die) or of an L2 (52 + die): dropped and
  filled again. -/
  | clean (place line : Nat)
  /-- A directory or filter entry of the 512-byte region of a line: rebuilt, nothing else visible. -/
  | directory (line : Nat)
  /-- A horizon entry of a line: rebuilt, nothing else visible. -/
  | horizon (line : Nat)
  /-- A single-bit error in a die, which the code corrects and counts. -/
  | corrected (die : Nat)
  deriving DecidableEq, Repr

/-- The operands of a step of the device that has no encoding: each such constructor of Instr
names the fields it reads. They stand in the state beside the step (log entry 5). -/
structure EvArg where
  w : Writer
  a : Nat
  b : Nat
  c : Nat
  v : W64
  flag : Bool
  flag2 : Bool
  bytes : List Byte
  readings : List (BitVec 12 × Nat)
  pkt : PeerPacket
  err : SoftError
  deriving DecidableEq, Repr

/-- No operand. -/
def EvArg.zero : EvArg :=
  { w := .firstStage, a := 0, b := 0, c := 0, v := 0, flag := false, flag2 := false, bytes := []
    readings := [], pkt := ⟨0, 0, 0, 0, 0, []⟩, err := .horizon 0 }

/-- Instructions and steps of the Tlasum 48. Field names follow the opcode table. -/
inductive Instr where
  /-- R144. Does nothing and costs no cycle. -/
  | nop
  /-- R201. Branches the whole path to the target when p[G] holds in any lane of the path. -/
  | bra (h : Hdr) (o : BitVec 15) (s : BitVec 2)
  /-- R202. Divides the path by p[G] and pushes one reconvergence entry. -/
  | brd (h : Hdr) (o : BitVec 15) (s : BitVec 2)
  /-- R203. Closes the innermost division, reconverging or switching to the other path. -/
  | join (h : Hdr)
  /-- R207. Slides the register window by n, writes the link and branches. -/
  | call (h : Hdr) (x : BitVec 3) (o : BitVec 15) (s : BitVec 2)
  /-- R208. Restores the window from the link and returns, or exits at WP 0. -/
  | ret (h : Hdr)
  /-- R204. Ends every active lane and unwinds the reconvergence stack. -/
  | exit (h : Hdr)
  /-- R210. Resets the group's residency time for issue order. -/
  | yield (h : Hdr)
  /-- R211. Parks the group for a duration in ns. -/
  | sleep (h : Hdr) (a : BitVec 7)
  /-- R211. Parks the group until an absolute time, or until a named token goes idle. -/
  | sleepUntil (h : Hdr) (a : BitVec 7) (b : BitVec 6)
  /-- R209. Jumps through a register, always or on a uniform condition. -/
  | brx (h : Hdr) (d : BitVec 7) (a : BitVec 7) (b : BitVec 6)
  /-- R207. Calls through a register with a window slide. -/
  | callx (h : Hdr) (a : BitVec 7) (b : BitVec 6)
  /-- R212. Raises the breakpoint trap with a code. -/
  | brk (h : Hdr) (b : BitVec 6)
  /-- R368. Releases at .sys scope and posts one system-call record per active lane, then parks. -/
  | sysc (h : Hdr)
  /-- R377. Returns from a proctor trap to EPC and sets IE. -/
  | tret (h : Hdr)
  /-- R391. Writes the group's own folio at an address and suspends it. -/
  | suspend (h : Hdr) (d : BitVec 7) (a : BitVec 7)
  /-- R393. Resumes a LIVE folio on its target core, trapping on failure conditions. -/
  | resume (h : Hdr) (d : BitVec 7) (a : BitVec 7)
  /-- R393. Resumes a folio, reporting every outcome as a status code. -/
  | resumeTry (h : Hdr) (d : BitVec 7) (a : BitVec 7)
  /-- R397. Copies a LIVE folio to a new address with a new serial in the same lineage. -/
  | fcopy (h : Hdr) (d : BitVec 7) (a : BitVec 7) (b : BitVec 6)
  /-- R398. Moves a LIVE folio to DROPPED and frees its kept records and journal. -/
  | fdrop (h : Hdr) (d : BitVec 7) (a : BitVec 7)
  /-- R214. Reads a special register into a uniform register. -/
  | getsr (h : Hdr) (d : BitVec 7) (b : BitVec 6)
  /-- R214. Writes a special register under its write rule. -/
  | setsr (h : Hdr) (a : BitVec 7) (b : BitVec 6)
  /-- R380. Starts a service group from a four-register descriptor. -/
  | svcstart (h : Hdr) (d : BitVec 7) (a : BitVec 7)
  /-- R380. Parks, unparks or stops a service group of the same core. -/
  | svcpark (h : Hdr) (d : BitVec 7) (a : BitVec 7) (b : BitVec 6)
  /-- R85. Releases at .dev scope and submits a launch record from memory, writing a status word. -/
  | launch (h : Hdr) (d : BitVec 7) (a : BitVec 7)
  /-- R86. Submits a child launch one depth below the issuing launch. -/
  | spawn (h : Hdr) (d : BitVec 7) (a : BitVec 7)
  /-- R90. Sends a message to a device-to-host ring or an inbox. -/
  | mbsend (h : Hdr) (d : BitVec 7) (a : BitVec 7) (b : BitVec 6)
  /-- R91. Receives the oldest inbox message, or reports that the inbox is empty. -/
  | mbrecv (h : Hdr) (d : BitVec 7) (a : BitVec 7)
  /-- R91. Receives the oldest inbox message, parking until one arrives. -/
  | mbrecvW (h : Hdr) (d : BitVec 7) (a : BitVec 7)
  /-- R108. Places a launch's next gang at a supervisor-chosen base core. -/
  | place (h : Hdr) (d : BitVec 7) (a : BitVec 7) (b : BitVec 6)
  /-- R363. Takes posted hand-in records of chosen kinds, one per active lane. -/
  | hqtake (h : Hdr) (d : BitVec 6) (a : BitVec 7) (b : BitVec 6)
  /-- R363. Takes hand-in records, waiting until a matching record is posted. -/
  | hqtakeW (h : Hdr) (d : BitVec 6) (a : BitVec 7) (b : BitVec 6)
  /-- R364. Releases at .sys scope and ends taken records with answers, one per active lane. -/
  | hqdone (h : Hdr) (d : BitVec 7) (a : BitVec 7)
  /-- R217. Uniform add. -/
  | uadd (h : Hdr) (d : BitVec 7) (a : BitVec 7) (b : BitVec 6)
  /-- R217. Uniform subtract. -/
  | usub (h : Hdr) (d : BitVec 7) (a : BitVec 7) (b : BitVec 6)
  /-- R217. Uniform multiply, low 64 bits. -/
  | umul (h : Hdr) (d : BitVec 7) (a : BitVec 7) (b : BitVec 6)
  /-- R217. Uniform signed multiply, high 64 bits. -/
  | umulhs (h : Hdr) (d : BitVec 7) (a : BitVec 7) (b : BitVec 6)
  /-- R217. Uniform unsigned multiply, high 64 bits. -/
  | umulhn (h : Hdr) (d : BitVec 7) (a : BitVec 7) (b : BitVec 6)
  /-- R217. Uniform bitwise and. -/
  | uand (h : Hdr) (d : BitVec 7) (a : BitVec 7) (b : BitVec 6)
  /-- R217. Uniform bitwise or. -/
  | uor (h : Hdr) (d : BitVec 7) (a : BitVec 7) (b : BitVec 6)
  /-- R217. Uniform bitwise exclusive or. -/
  | uxor (h : Hdr) (d : BitVec 7) (a : BitVec 7) (b : BitVec 6)
  /-- R217. Uniform shift left. -/
  | ushl (h : Hdr) (d : BitVec 7) (a : BitVec 7) (b : BitVec 6)
  /-- R217. Uniform logical shift right. -/
  | ushr (h : Hdr) (d : BitVec 7) (a : BitVec 7) (b : BitVec 6)
  /-- R217. Uniform arithmetic shift right. -/
  | usar (h : Hdr) (d : BitVec 7) (a : BitVec 7) (b : BitVec 6)
  /-- R217. Uniform signed minimum. -/
  | umins (h : Hdr) (d : BitVec 7) (a : BitVec 7) (b : BitVec 6)
  /-- R217. Uniform unsigned minimum. -/
  | uminn (h : Hdr) (d : BitVec 7) (a : BitVec 7) (b : BitVec 6)
  /-- R217. Uniform signed maximum. -/
  | umaxs (h : Hdr) (d : BitVec 7) (a : BitVec 7) (b : BitVec 6)
  /-- R217. Uniform unsigned maximum. -/
  | umaxn (h : Hdr) (d : BitVec 7) (a : BitVec 7) (b : BitVec 6)
  /-- R217. Uniform select on the old destination value. -/
  | usel (h : Hdr) (d : BitVec 7) (a : BitVec 7) (b : BitVec 6)
  /-- R217. Uniform add of a signed 6-bit immediate. -/
  | uaddi (h : Hdr) (d : BitVec 7) (a : BitVec 7) (i : BitVec 6)
  /-- R217. Uniform and with an immediate. -/
  | uandi (h : Hdr) (d : BitVec 7) (a : BitVec 7) (i : BitVec 6)
  /-- R217. Uniform or with an immediate. -/
  | uori (h : Hdr) (d : BitVec 7) (a : BitVec 7) (i : BitVec 6)
  /-- R217. Uniform exclusive or with an immediate. -/
  | uxori (h : Hdr) (d : BitVec 7) (a : BitVec 7) (i : BitVec 6)
  /-- R217. Uniform shift left by an immediate. -/
  | ushli (h : Hdr) (d : BitVec 7) (a : BitVec 7) (i : BitVec 6)
  /-- R217. Uniform logical shift right by an immediate. -/
  | ushri (h : Hdr) (d : BitVec 7) (a : BitVec 7) (i : BitVec 6)
  /-- R217. Uniform arithmetic shift right by an immediate. -/
  | usari (h : Hdr) (d : BitVec 7) (a : BitVec 7) (i : BitVec 6)
  /-- R217. Uniform set on equal. -/
  | useq (h : Hdr) (d : BitVec 7) (a : BitVec 7) (b : BitVec 6)
  /-- R217. Uniform set on not equal. -/
  | usne (h : Hdr) (d : BitVec 7) (a : BitVec 7) (b : BitVec 6)
  /-- R217. Uniform set on signed less than. -/
  | uslts (h : Hdr) (d : BitVec 7) (a : BitVec 7) (b : BitVec 6)
  /-- R217. Uniform set on unsigned less than. -/
  | usltn (h : Hdr) (d : BitVec 7) (a : BitVec 7) (b : BitVec 6)
  /-- R217. Uniform bit-field extract. -/
  | ubfx (h : Hdr) (d : BitVec 7) (a : BitVec 7) (b : BitVec 6)
  /-- R218. Writes a sign-extended immediate to a uniform register. -/
  | umovi (h : Hdr) (d : BitVec 6) (i : BitVec 8)
  /-- R217. Reads one lane of a vector register into a uniform register. -/
  | urdlane (h : Hdr) (d : BitVec 7) (a : BitVec 7) (b : BitVec 6)
  /-- R217. Uniform population count. -/
  | upopc (h : Hdr) (d : BitVec 7) (a : BitVec 7)
  /-- R217. Uniform count of leading zeros. -/
  | uclz (h : Hdr) (d : BitVec 7) (a : BitVec 7)
  /-- R220. Vector integer add. -/
  | iadd (h : Hdr) (d : BitVec 6) (a : BitVec 6) (b : BitVec 6) (t : BitVec 2)
  /-- R220. Vector integer subtract. -/
  | isub (h : Hdr) (d : BitVec 6) (a : BitVec 6) (b : BitVec 6) (t : BitVec 2)
  /-- R220. Vector integer multiply, low bits. -/
  | imul (h : Hdr) (d : BitVec 6) (a : BitVec 6) (b : BitVec 6) (t : BitVec 2)
  /-- R220. Vector signed multiply, high bits. -/
  | imulhs (h : Hdr) (d : BitVec 6) (a : BitVec 6) (b : BitVec 6) (t : BitVec 2)
  /-- R220. Vector unsigned multiply, high bits. -/
  | imulhn (h : Hdr) (d : BitVec 6) (a : BitVec 6) (b : BitVec 6) (t : BitVec 2)
  /-- R220. Vector integer multiply-add into the destination. -/
  | imad (h : Hdr) (d : BitVec 6) (a : BitVec 6) (b : BitVec 6) (t : BitVec 2)
  /-- R220. Vector signed saturating add. -/
  | iaddss (h : Hdr) (d : BitVec 6) (a : BitVec 6) (b : BitVec 6) (t : BitVec 2)
  /-- R220. Vector unsigned saturating add. -/
  | iaddsn (h : Hdr) (d : BitVec 6) (a : BitVec 6) (b : BitVec 6) (t : BitVec 2)
  /-- R220. Vector signed saturating subtract. -/
  | isubss (h : Hdr) (d : BitVec 6) (a : BitVec 6) (b : BitVec 6) (t : BitVec 2)
  /-- R220. Vector unsigned saturating subtract. -/
  | isubsn (h : Hdr) (d : BitVec 6) (a : BitVec 6) (b : BitVec 6) (t : BitVec 2)
  /-- R220. Vector signed minimum. -/
  | imins (h : Hdr) (d : BitVec 6) (a : BitVec 6) (b : BitVec 6) (t : BitVec 2)
  /-- R220. Vector unsigned minimum. -/
  | iminn (h : Hdr) (d : BitVec 6) (a : BitVec 6) (b : BitVec 6) (t : BitVec 2)
  /-- R220. Vector signed maximum. -/
  | imaxs (h : Hdr) (d : BitVec 6) (a : BitVec 6) (b : BitVec 6) (t : BitVec 2)
  /-- R220. Vector unsigned maximum. -/
  | imaxn (h : Hdr) (d : BitVec 6) (a : BitVec 6) (b : BitVec 6) (t : BitVec 2)
  /-- R220. Vector signed absolute value. -/
  | iabs (h : Hdr) (d : BitVec 6) (a : BitVec 6) (t : BitVec 2)
  /-- R220. Vector integer negate. -/
  | ineg (h : Hdr) (d : BitVec 6) (a : BitVec 6) (t : BitVec 2)
  /-- R221. Vector bitwise and. -/
  | andV (h : Hdr) (d : BitVec 6) (a : BitVec 6) (b : BitVec 6) (t : BitVec 2)
  /-- R221. Vector bitwise or. -/
  | orV (h : Hdr) (d : BitVec 6) (a : BitVec 6) (b : BitVec 6) (t : BitVec 2)
  /-- R221. Vector bitwise exclusive or. -/
  | xorV (h : Hdr) (d : BitVec 6) (a : BitVec 6) (b : BitVec 6) (t : BitVec 2)
  /-- R221. Vector and with the complement of b. -/
  | andn (h : Hdr) (d : BitVec 6) (a : BitVec 6) (b : BitVec 6) (t : BitVec 2)
  /-- R221. Vector bitwise not. -/
  | notV (h : Hdr) (d : BitVec 6) (a : BitVec 6) (t : BitVec 2)
  /-- R222. Applies a selected Boolean function of three inputs bit by bit. -/
  | bfn (h : Hdr) (d : BitVec 6) (a : BitVec 6) (b : BitVec 6) (t : BitVec 2)
  /-- R221. Vector shift left. -/
  | shlV (h : Hdr) (d : BitVec 6) (a : BitVec 6) (b : BitVec 6) (t : BitVec 2)
  /-- R221. Vector logical shift right. -/
  | shrV (h : Hdr) (d : BitVec 6) (a : BitVec 6) (b : BitVec 6) (t : BitVec 2)
  /-- R221. Vector arithmetic shift right. -/
  | sarV (h : Hdr) (d : BitVec 6) (a : BitVec 6) (b : BitVec 6) (t : BitVec 2)
  /-- R221. Vector rotate left. -/
  | rotl (h : Hdr) (d : BitVec 6) (a : BitVec 6) (b : BitVec 6) (t : BitVec 2)
  /-- R221. Vector bit-field extract. -/
  | bfx (h : Hdr) (d : BitVec 6) (a : BitVec 6) (b : BitVec 6) (t : BitVec 2)
  /-- R221. Vector bit-field insert. -/
  | bfi (h : Hdr) (d : BitVec 6) (a : BitVec 6) (b : BitVec 6) (t : BitVec 2)
  /-- R221. Vector population count. -/
  | popc (h : Hdr) (d : BitVec 6) (a : BitVec 6) (t : BitVec 2)
  /-- R221. Vector count of leading zeros. -/
  | clz (h : Hdr) (d : BitVec 6) (a : BitVec 6) (t : BitVec 2)
  /-- R221. Vector bit reverse. -/
  | brev (h : Hdr) (d : BitVec 6) (a : BitVec 6) (t : BitVec 2)
  /-- R221. Vector element permute within an operand. -/
  | bperm (h : Hdr) (d : BitVec 6) (a : BitVec 6) (b : BitVec 6) (t : BitVec 2)
  /-- R223. Sets a predicate on integer equal. -/
  | iseteq (h : Hdr) (d : BitVec 6) (a : BitVec 6) (b : BitVec 6) (t : BitVec 2)
  /-- R223. Sets a predicate on integer not equal. -/
  | isetne (h : Hdr) (d : BitVec 6) (a : BitVec 6) (b : BitVec 6) (t : BitVec 2)
  /-- R223. Sets a predicate on signed less than. -/
  | isetlts (h : Hdr) (d : BitVec 6) (a : BitVec 6) (b : BitVec 6) (t : BitVec 2)
  /-- R223. Sets a predicate on unsigned less than. -/
  | isetltn (h : Hdr) (d : BitVec 6) (a : BitVec 6) (b : BitVec 6) (t : BitVec 2)
  /-- R223. Sets a predicate on signed less than or equal. -/
  | isetles (h : Hdr) (d : BitVec 6) (a : BitVec 6) (b : BitVec 6) (t : BitVec 2)
  /-- R223. Sets a predicate on unsigned less than or equal. -/
  | isetlen (h : Hdr) (d : BitVec 6) (a : BitVec 6) (b : BitVec 6) (t : BitVec 2)
  /-- R222. Selects a or b per lane by a predicate. -/
  | selV (h : Hdr) (d : BitVec 6) (a : BitVec 6) (b : BitVec 6) (t : BitVec 2)
  /-- R221. Vector register move. -/
  | movV (h : Hdr) (d : BitVec 6) (a : BitVec 6) (t : BitVec 2)
  /-- R224. Adds a uniform operand to each lane. -/
  | iaddu (h : Hdr) (d : BitVec 6) (a : BitVec 6) (b : BitVec 7)
  /-- R224. Subtracts a uniform operand from each lane. -/
  | isubu (h : Hdr) (d : BitVec 6) (a : BitVec 6) (b : BitVec 7)
  /-- R224. Multiplies each lane by a uniform operand. -/
  | imulu (h : Hdr) (d : BitVec 6) (a : BitVec 6) (b : BitVec 7)
  /-- R224. Shifts each lane left by a uniform amount. -/
  | shlu (h : Hdr) (d : BitVec 6) (a : BitVec 6) (b : BitVec 7)
  /-- R224. Shifts each lane right by a uniform amount. -/
  | shru (h : Hdr) (d : BitVec 6) (a : BitVec 6) (b : BitVec 7)
  /-- R224. Ands each lane with a uniform operand. -/
  | andu (h : Hdr) (d : BitVec 6) (a : BitVec 6) (b : BitVec 7)
  /-- R224. Ors each lane with a uniform operand. -/
  | oru (h : Hdr) (d : BitVec 6) (a : BitVec 6) (b : BitVec 7)
  /-- R224. Exclusive-ors each lane with a uniform operand. -/
  | xoru (h : Hdr) (d : BitVec 6) (a : BitVec 6) (b : BitVec 7)
  /-- R225. Predicate and. -/
  | pand (h : Hdr) (d : BitVec 6) (a : BitVec 6) (b : BitVec 6)
  /-- R225. Predicate or. -/
  | por (h : Hdr) (d : BitVec 6) (a : BitVec 6) (b : BitVec 6)
  /-- R225. Predicate exclusive or. -/
  | pxor (h : Hdr) (d : BitVec 6) (a : BitVec 6) (b : BitVec 6)
  /-- R225. Predicate not. -/
  | pnot (h : Hdr) (d : BitVec 6) (a : BitVec 6)
  /-- R225. Sets a predicate from a predicate and a uniform lane mask. -/
  | pmov (h : Hdr) (d : BitVec 6) (a : BitVec 6) (b : BitVec 6)
  /-- R226. Computes a 64-bit address from a base pair and a shifted index. -/
  | lea (h : Hdr) (d : BitVec 6) (a : BitVec 6) (b : BitVec 6)
  /-- R227. Writes an immediate to each lane. -/
  | imovi (h : Hdr) (d : BitVec 6) (i : BitVec 8)
  /-- R227. Adds an immediate to each lane. -/
  | iaddi (h : Hdr) (d : BitVec 6) (a : BitVec 6) (i : BitVec 8)
  /-- R227. Ands each lane with an immediate. -/
  | andi (h : Hdr) (d : BitVec 6) (a : BitVec 6) (i : BitVec 8)
  /-- R227. Ors each lane with an immediate. -/
  | ori (h : Hdr) (d : BitVec 6) (a : BitVec 6) (i : BitVec 8)
  /-- R227. Shifts each lane left by an immediate. -/
  | shli (h : Hdr) (d : BitVec 6) (a : BitVec 6) (i : BitVec 8)
  /-- R227. Shifts each lane right logically by an immediate. -/
  | shri (h : Hdr) (d : BitVec 6) (a : BitVec 6) (i : BitVec 8)
  /-- R227. Shifts each lane right arithmetically by an immediate. -/
  | sari (h : Hdr) (d : BitVec 6) (a : BitVec 6) (i : BitVec 8)
  /-- R227. Sets a predicate on equality with an immediate. -/
  | iseteqi (h : Hdr) (d : BitVec 6) (a : BitVec 6) (i : BitVec 8)
  /-- R227. Sets a predicate on signed less than an immediate. -/
  | isetlti (h : Hdr) (d : BitVec 6) (a : BitVec 6) (i : BitVec 8)
  /-- R232. Floating-point add. -/
  | fadd (h : Hdr) (d : BitVec 6) (a : BitVec 6) (b : BitVec 6) (t : BitVec 2)
  /-- R232. Floating-point subtract. -/
  | fsub (h : Hdr) (d : BitVec 6) (a : BitVec 6) (b : BitVec 6) (t : BitVec 2)
  /-- R232. Floating-point multiply. -/
  | fmul (h : Hdr) (d : BitVec 6) (a : BitVec 6) (b : BitVec 6) (t : BitVec 2)
  /-- R233. Fused multiply-add with one rounding. -/
  | fma (h : Hdr) (d : BitVec 6) (a : BitVec 6) (b : BitVec 6) (t : BitVec 2)
  /-- R233. Fused multiply-subtract. -/
  | fms (h : Hdr) (d : BitVec 6) (a : BitVec 6) (b : BitVec 6) (t : BitVec 2)
  /-- R233. Negated fused multiply-add. -/
  | fnma (h : Hdr) (d : BitVec 6) (a : BitVec 6) (b : BitVec 6) (t : BitVec 2)
  /-- R232. Floating-point divide. -/
  | fdiv (h : Hdr) (d : BitVec 6) (a : BitVec 6) (b : BitVec 6) (t : BitVec 2)
  /-- R233. Square root. -/
  | fsqrt (h : Hdr) (d : BitVec 6) (a : BitVec 6) (t : BitVec 2)
  /-- R233. Reciprocal square root, correctly rounded. -/
  | frsq (h : Hdr) (d : BitVec 6) (a : BitVec 6) (t : BitVec 2)
  /-- R233. Reciprocal. -/
  | frcp (h : Hdr) (d : BitVec 6) (a : BitVec 6) (t : BitVec 2)
  /-- R234. IEEE minimum. -/
  | fmin (h : Hdr) (d : BitVec 6) (a : BitVec 6) (b : BitVec 6) (t : BitVec 2)
  /-- R234. IEEE maximum. -/
  | fmax (h : Hdr) (d : BitVec 6) (a : BitVec 6) (b : BitVec 6) (t : BitVec 2)
  /-- R234. IEEE minimumNumber. -/
  | fminnum (h : Hdr) (d : BitVec 6) (a : BitVec 6) (b : BitVec 6) (t : BitVec 2)
  /-- R234. IEEE maximumNumber. -/
  | fmaxnum (h : Hdr) (d : BitVec 6) (a : BitVec 6) (b : BitVec 6) (t : BitVec 2)
  /-- R232. Clears the sign bit. -/
  | fabs (h : Hdr) (d : BitVec 6) (a : BitVec 6) (t : BitVec 2)
  /-- R232. Inverts the sign bit. -/
  | fneg (h : Hdr) (d : BitVec 6) (a : BitVec 6) (t : BitVec 2)
  /-- R235. Sets a predicate on floating equal. -/
  | fseteq (h : Hdr) (d : BitVec 6) (a : BitVec 6) (b : BitVec 6) (t : BitVec 2)
  /-- R235. Sets a predicate on not equal or unordered. -/
  | fsetne (h : Hdr) (d : BitVec 6) (a : BitVec 6) (b : BitVec 6) (t : BitVec 2)
  /-- R235. Sets a predicate on less than. -/
  | fsetlt (h : Hdr) (d : BitVec 6) (a : BitVec 6) (b : BitVec 6) (t : BitVec 2)
  /-- R235. Sets a predicate on less than or equal. -/
  | fsetle (h : Hdr) (d : BitVec 6) (a : BitVec 6) (b : BitVec 6) (t : BitVec 2)
  /-- R235. Sets a predicate when either operand is NaN. -/
  | fsetun (h : Hdr) (d : BitVec 6) (a : BitVec 6) (b : BitVec 6) (t : BitVec 2)
  /-- R236. Writes the class mask of each operand. -/
  | fclass (h : Hdr) (d : BitVec 6) (a : BitVec 6) (t : BitVec 2)
  /-- R236. Copies each lane's fx into a vector register. -/
  | fclassGetfx (h : Hdr) (d : BitVec 6)
  /-- R236. Sets each lane's fx from a vector register, the only way to clear flags. -/
  | fclassSetfx (h : Hdr) (a : BitVec 6)
  /-- R233. Base-2 exponential. -/
  | fexp2 (h : Hdr) (d : BitVec 6) (a : BitVec 6) (t : BitVec 2)
  /-- R233. Base-2 logarithm. -/
  | flog2 (h : Hdr) (d : BitVec 6) (a : BitVec 6) (t : BitVec 2)
  /-- R233. Sine. -/
  | fsin (h : Hdr) (d : BitVec 6) (a : BitVec 6) (t : BitVec 2)
  /-- R233. Cosine. -/
  | fcos (h : Hdr) (d : BitVec 6) (a : BitVec 6) (t : BitVec 2)
  /-- R233. Hyperbolic tangent. -/
  | ftanh (h : Hdr) (d : BitVec 6) (a : BitVec 6) (t : BitVec 2)
  /-- R232. Multiplies by 2 to an integer power. -/
  | fscale (h : Hdr) (d : BitVec 6) (a : BitVec 6) (b : BitVec 6) (t : BitVec 2)
  /-- R232. Rounds to an integral value. -/
  | frint (h : Hdr) (d : BitVec 6) (a : BitVec 6) (t : BitVec 2)
  /-- R232. Takes a's magnitude with b's sign. -/
  | fcopysign (h : Hdr) (d : BitVec 6) (a : BitVec 6) (b : BitVec 6) (t : BitVec 2)
  /-- R237. Adds a uniform .f32 operand. -/
  | faddu (h : Hdr) (d : BitVec 6) (a : BitVec 6) (b : BitVec 7)
  /-- R237. Multiplies by a uniform .f32 operand. -/
  | fmulu (h : Hdr) (d : BitVec 6) (a : BitVec 6) (b : BitVec 7)
  /-- R240. Complex add. -/
  | cadd (h : Hdr) (d : BitVec 6) (a : BitVec 6) (b : BitVec 6)
  /-- R240. Complex subtract. -/
  | csub (h : Hdr) (d : BitVec 6) (a : BitVec 6) (b : BitVec 6)
  /-- R240. Complex multiply. -/
  | cmul (h : Hdr) (d : BitVec 6) (a : BitVec 6) (b : BitVec 6)
  /-- R240. Complex fused multiply-add. -/
  | cfma (h : Hdr) (d : BitVec 6) (a : BitVec 6) (b : BitVec 6)
  /-- R240. Complex conjugate. -/
  | cconj (h : Hdr) (d : BitVec 6) (a : BitVec 6)
  /-- R240. Squared complex magnitude into an .f64 pair. -/
  | cnorm (h : Hdr) (d : BitVec 6) (a : BitVec 6)
  /-- R238. Packed 16-bit add. -/
  | hadd2 (h : Hdr) (d : BitVec 6) (a : BitVec 6) (b : BitVec 6) (t : BitVec 2)
  /-- R238. Packed 16-bit multiply. -/
  | hmul2 (h : Hdr) (d : BitVec 6) (a : BitVec 6) (b : BitVec 6) (t : BitVec 2)
  /-- R238. Packed 16-bit fused multiply-add. -/
  | hfma2 (h : Hdr) (d : BitVec 6) (a : BitVec 6) (b : BitVec 6) (t : BitVec 2)
  /-- R238. Packed 16-bit minimum. -/
  | hmin2 (h : Hdr) (d : BitVec 6) (a : BitVec 6) (b : BitVec 6) (t : BitVec 2)
  /-- R238. Packed 16-bit maximum. -/
  | hmax2 (h : Hdr) (d : BitVec 6) (a : BitVec 6) (b : BitVec 6) (t : BitVec 2)
  /-- R239. Two-element 16-bit dot product accumulated into .f32. -/
  | fdot2 (h : Hdr) (d : BitVec 6) (a : BitVec 6) (b : BitVec 6) (t : BitVec 2)
  /-- R239. Four-element 8-bit dot product accumulated into .f32. -/
  | fdot4 (h : Hdr) (d : BitVec 6) (a : BitVec 6) (b : BitVec 6) (t : BitVec 2)
  /-- R237. Multiplies by a uniform operand and adds the destination, with one rounding. -/
  | fmau (h : Hdr) (d : BitVec 6) (a : BitVec 6) (b : BitVec 7)
  /-- R237. Writes a 32-bit immediate from IMMX to each lane. -/
  | fmovi (h : Hdr) (d : BitVec 6) (i : BitVec 8)
  /-- R243. Converts between floating-point formats. -/
  | cvt (h : Hdr) (d : BitVec 6) (a : BitVec 6) (n : BitVec 4) (m : BitVec 4)
  /-- R244. Converts floating point to integer. -/
  | cvtf2i (h : Hdr) (d : BitVec 6) (a : BitVec 6) (n : BitVec 4) (m : BitVec 4)
  /-- R244. Converts integer to floating point. -/
  | cvti2f (h : Hdr) (d : BitVec 6) (a : BitVec 6) (n : BitVec 4) (m : BitVec 4)
  /-- R244. Converts between integer types, optionally saturating. -/
  | cvti2i (h : Hdr) (d : BitVec 6) (a : BitVec 6) (n : BitVec 4) (m : BitVec 4)
  /-- R245. Packs n converted .f32 values into sub-elements of one register. -/
  | cvtpack (h : Hdr) (d : BitVec 6) (a : BitVec 6) (n : BitVec 4) (m : BitVec 4)
  /-- R245. Unpacks the sub-elements of one register into .f32 registers. -/
  | cvtunpack (h : Hdr) (d : BitVec 6) (a : BitVec 6) (n : BitVec 4) (m : BitVec 4)
  /-- R246. Quantises one MX block per span of 32 lanes. -/
  | cvtmx (h : Hdr) (d : BitVec 6) (a : BitVec 6) (n : BitVec 4) (m : BitVec 4)
  /-- R247. Quantises 24 values of one lane into a sorted E2M1 block. -/
  | cvtsort (h : Hdr) (d : BitVec 6) (a : BitVec 6) (n : BitVec 4) (m : BitVec 4)
  /-- R248. Decodes one block-scaled element per lane. -/
  | cvtdq (h : Hdr) (d : BitVec 6) (a : BitVec 6) (n : BitVec 4) (m : BitVec 4)
  /-- R250. Gives each lane the value from an indexed lane. -/
  | xli (h : Hdr) (d : BitVec 6) (a : BitVec 6) (b : BitVec 6) (t : BitVec 2)
  /-- R250. Rotates values across lanes. -/
  | xlr (h : Hdr) (d : BitVec 6) (a : BitVec 6) (t : BitVec 2)
  /-- R250. Exchanges values between lanes by exclusive-or distance. -/
  | xlf (h : Hdr) (d : BitVec 6) (a : BitVec 6) (t : BitVec 2)
  /-- R250. Broadcasts one lane's value. -/
  | xlb (h : Hdr) (d : BitVec 6) (a : BitVec 6) (t : BitVec 2)
  /-- R251. Counts lanes whose source is true and sets a quorum predicate. -/
  | pcnt (h : Hdr) (d : BitVec 6) (a : BitVec 6) (b : BitVec 6)
  /-- R251. Writes the mask of lanes whose source is true. -/
  | pmask (h : Hdr) (a : BitVec 6)
  /-- R251. Finds the lowest lane whose source is true. -/
  | pfirst (h : Hdr) (d : BitVec 6) (a : BitVec 6)
  /-- R252. Tree sum over the active lanes. -/
  | redadd (h : Hdr) (d : BitVec 6) (a : BitVec 6) (t : BitVec 2)
  /-- R252. Tree minimum over the active lanes. -/
  | redmin (h : Hdr) (d : BitVec 6) (a : BitVec 6) (t : BitVec 2)
  /-- R252. Tree maximum over the active lanes. -/
  | redmax (h : Hdr) (d : BitVec 6) (a : BitVec 6) (t : BitVec 2)
  /-- R252. Inclusive ascending scan sum. -/
  | scanadd (h : Hdr) (d : BitVec 6) (a : BitVec 6) (t : BitVec 2)
  /-- R254. Divides the active lanes into classes of equal value. -/
  | xleq (h : Hdr) (d : BitVec 6) (a : BitVec 6) (t : BitVec 2)
  /-- R191. Divides a group or child into two or four children. -/
  | split (h : Hdr) (d : BitVec 7) (k : BitVec 6)
  /-- R194. Joins sibling children if this child arrives last. -/
  | fuse (h : Hdr) (d : BitVec 7)
  /-- R194. Joins sibling children, parking with a time bound until they arrive. -/
  | fuseWait (h : Hdr) (d : BitVec 7) (a : BitVec 7)
  /-- R189. Parks until the outstanding-operation counters are at or below their bounds. -/
  | wait (h : Hdr) (l : BitVec 5) (s : BitVec 5) (m : BitVec 5) (a : BitVec 5)
  /-- R350. Releases, arrives at a team barrier, waits for the named groups and acquires. -/
  | tbar (h : Hdr) (a : BitVec 7) (n : BitVec 3)
  /-- R300. Vector load. -/
  | ld (h : Hdr) (d : BitVec 6) (b : BitVec 6) (x : BitVec 6) (z : BitVec 2)
  /-- R301. Vector store. -/
  | st (h : Hdr) (d : BitVec 6) (b : BitVec 6) (x : BitVec 6) (z : BitVec 2)
  /-- R300. Uniform load. -/
  | ldu (h : Hdr) (d : BitVec 6) (b : BitVec 6) (z : BitVec 2)
  /-- R301. Uniform store. -/
  | stu (h : Hdr) (d : BitVec 6) (b : BitVec 6) (z : BitVec 2)
  /-- R302. Atomic read-modify-write returning old values. -/
  | atom (h : Hdr) (d : BitVec 6) (b : BitVec 6) (x : BitVec 6) (z : BitVec 2)
  /-- R302. Atomic reduction without return, buffered or sent to the home. -/
  | red (h : Hdr) (d : BitVec 6) (b : BitVec 6) (x : BitVec 6) (z : BitVec 2)
  /-- R303. Compare and swap. -/
  | cas (h : Hdr) (d : BitVec 6) (b : BitVec 6) (x : BitVec 6) (z : BitVec 1)
  /-- R304. Prefetches lines under a cache policy. -/
  | pfetch (h : Hdr) (b : BitVec 6) (x : BitVec 6) (z : BitVec 2)
  /-- R349. Release fence at a scope. -/
  | fenceRel (h : Hdr)
  /-- R349. Acquire fence at a scope. -/
  | fenceAcq (h : Hdr)
  /-- R305. Merges reductions and writes dirty lines of a range back to memory. -/
  | cflush (h : Hdr) (d : BitVec 7) (a : BitVec 7) (b : BitVec 6)
  /-- R266. Issues a press matrix product into a forme tile. -/
  | mma (h : Hdr) (d : BitVec 7) (a : BitVec 7) (s : BitVec 1) (z : BitVec 1) (j : BitVec 1) (k : BitVec 1)
  /-- R275. Issues a press product spread over the members of a gang. -/
  | mmaGang (h : Hdr) (d : BitVec 7) (a : BitVec 7) (s : BitVec 1) (z : BitVec 1) (j : BitVec 1) (k : BitVec 1)
  /-- R284. Clears a forme tile. -/
  | mtileZero (h : Hdr) (d : BitVec 7)
  /-- R284. Stores a forme tile to the galley, converting. -/
  | mtileSt (h : Hdr) (d : BitVec 7) (a : BitVec 7) (s : BitVec 1) (f : BitVec 3)
  /-- R284. Loads a forme tile from the galley. -/
  | mtileLd (h : Hdr) (d : BitVec 7) (a : BitVec 7) (f : BitVec 3)
  /-- R282. Reads the press status register after earlier press operations end. -/
  | mstat (h : Hdr) (d : BitVec 7)
  /-- R282. Reads and clears the press status register. -/
  | mstatClr (h : Hdr) (d : BitVec 7)
  /-- R311. Starts a compositor copy on a token. -/
  | cpy (h : Hdr) (a : BitVec 7) (k : BitVec 3)
  /-- R311. Starts a compositor copy and writes its completion promise. -/
  | cpyPromise (h : Hdr) (d : BitVec 7) (a : BitVec 7) (k : BitVec 3)
  /-- R315. Parks until the named tokens are idle or failed, and reports failures. -/
  | waitk (h : Hdr) (m : BitVec 8)
  /-- R318. Sets a sector barrier's expected count, optionally resetting it. -/
  | barx (h : Hdr) (x : BitVec 7) (a : BitVec 7) (r : BitVec 1)
  /-- R318. Parks until a sector barrier completes or aborts. -/
  | barw (h : Hdr) (d : BitVec 7) (a : BitVec 7)
  /-- R323. Registers a proof from a declaration. -/
  | preg (h : Hdr) (d : BitVec 7) (a : BitVec 7)
  /-- R331. Drops a proof and returns its region to ordinary memory. -/
  | pdrop (h : Hdr) (d : BitVec 7) (a : BitVec 7)
  /-- R331. Reads the stamp of the proof block holding an address. -/
  | pstamp (h : Hdr) (d : BitVec 7) (a : BitVec 7)
  /-- R17. A reset or power-up enters the mask ROM, which updates the failed-start counter and either enters minimal mode or begins stage 0 of the start sequence. -/
  | deviceReset
  /-- R11. A start stage that has not finished within its time limit fails with reason 0x0020 and never hands control to the next stage. -/
  | stageLimitExceeded
  /-- R18. A store of a 64-byte record to BOOTREP makes the security block write the record into the boot report ring, unless the store is ignored. Operands: w the writer, bytes the record. -/
  | bootrepStore
  /-- R28. A store of 1 to STARTOK clears the failed-start counter, locks MEAS0 to MEAS5 and ends host FMODE and stand-in writes, all in one step. Operands: w the writer, v the value. -/
  | startokWrite
  /-- R29. A store to MEASCMD extends the named measurement register with MEASDIG, or refuses, and then sets MEASSTAT. Operands: w the writer, v the command. -/
  | measurementExtend
  /-- R29. A store to QCMD asks the security block for a signed quote over QNONCE, or is refused if the address is misaligned. Operands: w the writer, v the address. -/
  | quoteRequest
  /-- R16. The security block writes the 5,419-byte signed quote and sets its status to done. -/
  | quoteComplete
  /-- R30. A host store of 1 to the quote command of the management window requests a quote into the staging area. Operands: v the value. -/
  | hostQuoteRequest
  /-- R30. A host store of 1 to the stand-in claim takes the stand-in role for functions in supervisor mode (R25). -/
  | standInClaim
  /-- R30. A host store of 0 to the stand-in claim gives up the stand-in role. -/
  | standInRelease
  /-- R30. Maintenance code 0x01 copies bytes from the staging area into a flash image slot, or is refused with status 0x03. -/
  | maintWriteFlash
  /-- R30. Maintenance code 0x02 sets the failed-start counter to 0 and resets the device. -/
  | maintResetCounter
  /-- R24. A write to FMODE by supervisor code, or by a host before STARTOK, begins a change of function modes on a die. Operands: w the writer, a the die, v the value. -/
  | fmodeWrite
  /-- R24. The FMODE write completes once every request accepted under the old mode has finished, and placement request records are posted when PLACE goes from 0 to 1. Operands: a the die. -/
  | fmodeWriteComplete
  /-- R27. On loss of input power the arithmetic clock halts at once, and the hold-up supply lets issued copies and CFLUSH operations on the checkpoint path finish. -/
  | powerLoss
  /-- R26. Measured input power above PWRCAP makes the module lower the arithmetic clock within 10 µs. Operands: a the power in W. -/
  | powerCapExceeded
  /-- R31. A supervisor write of PWRCAP from 1,200 to 2,600 W sets a new power cap, applied within 10 µs. Operands: w the writer, v the value. -/
  | pwrcapWrite
  /-- R32. A die whose junction reaches 115 °C stops placing work, drops to 275 MHz and has every gang with a member on it pre-empted into folios. Operands: a the die, v the temperature. -/
  | dieStop
  /-- R32. After the pre-emptions end, the die's arithmetic clock halts and the die-stopped record is posted. Operands: a the die. -/
  | dieStopHalt
  /-- R32. A supervisor store of 0x100 to DIESTOP while COOL is 1 restarts a stopped die, with cores that hold no group. Operands: w the writer, a the die, v the value. -/
  | dieRestart
  /-- R99. The 10 µs update refreshes each core's temperature and droop fields and evaluates AVOID. Operands: a the die, readings a reading for each core of the die. -/
  | plcstatUpdate
  /-- R33. A precision time protocol exchange updates PTPSKEW and, when the skew exceeds the bound, raises the time-sync fault. Operands: v the skew in ns. -/
  | ptpSyncExchange
  /-- R33. A supervisor write of PTPBOUND sets the cross-device skew bound, applied to later reports. Operands: w the writer, v the value. -/
  | ptpboundWrite
  /-- R10. A write to a device register that has no row of its own updates its writable fields, and reserved fields are ignored. Operands: w the writer, a the die, b the offset in the control block, or in the management window for the host, bytes the bytes. -/
  | registerWrite
  /-- R77. CTXCTL command 0x01 creates a context in a key slot, generates or unseals its key, and binds its pages and inbox. Operands: w the writer, bytes the record. -/
  | ctxCreate
  /-- R77. CTXCTL command 0x02 sets the MEMDEF of a live context. Operands: w the writer, bytes the record. -/
  | ctxSetMemdef
  /-- R292. KEYSEAL command 0x01 wraps a live context's key and epoch into a blob under the measured sealing key. Operands: w the writer, bytes the record. -/
  | keySeal
  /-- R292. KEYSEAL command 0x02 installs slot 0's key from a blob, but only before the proctor lanes start. Operands: w the writer, bytes the record. -/
  | keyUnseal
  /-- R78. A host's 128-byte deferrable write to a submission slot is accepted as a live launch, or is answered with retry, Unsupported Request or Completer Abort. Operands: a the page, b the offset in the control block, bytes the record. -/
  | launchSubmit
  /-- R83. Within 2 µs of acceptance the front end checks the launch in order, then rejects it or makes it Waiting or Ready. Operands: v the launch. -/
  | launchChecks
  /-- R89. A host's 64-byte deferrable write to a mailbox page enters a message in the inbox or refuses it, and writes the send-status word. Operands: a the page, b the offset in the control block, bytes the message. -/
  | mailboxSend
  /-- R88. A host's 8-byte write at offset 0x040 of a mailbox page updates the count of device-to-host messages it has consumed. Operands: a the page, v the count. -/
  | mailboxConsumed
  /-- R104. At least every 200 ns and on each grant release, a die's front end places every gang that has a usable candidate. Operands: a the die. -/
  | placementStep
  /-- R103. A gang that has waited 500 µs without placement reserves the cluster with the smallest shortfall. Operands: v the launch, a the gang index. -/
  | clusterReserve
  /-- R110. A 192-byte fetch block, or a prefetched next block, is filled into the partition's block buffer. Operands: a the core, b the partition, v the context, flag supervisor mode, c the block number, flag2 whether it is a prefetch. -/
  | fetchBlockFill
  /-- R122. A hardware walk ends by installing a translation, setting A or D, or raising a page fault. Operands: a the walk. -/
  | pageWalkEnd
  /-- R127. A service group's 16-byte store to WALKANS installs a leaf or reports a fault for the tagged walk request, or is discarded. Operands: w the writer, a the die, bytes the record. -/
  | walkansWrite
  /-- R131. A supervisor store to ACQUERY looks up one access counter entry, whose result is then read at 0x0290. Operands: w the writer, a the die, bytes the record. -/
  | acqueryStore
  /-- R132. A 32-byte store to SHOOTREQ, after a release at .dev scope, is accepted into the die's queue or refused. Operands: w the writer, a the die, bytes the record. -/
  | shootdownRequest
  /-- R133. A shootdown completes when every core and walker has invalidated its entries and the old accesses have been performed, and SHOOTDONE is set. Operands: a the die. -/
  | shootdownComplete
  /-- R372. In hardware HOTPG mode the die checks the hot region's leaves, takes a frame from MIGLIST, sets WBLK and shoots the region down. Operands: a the die. -/
  | migrationStart
  /-- R372. After the blocking shootdown completes, the die copies the 64 KiB region to the new frame. Operands: a the die. -/
  | migrationCopy
  /-- R372. After the copy, the die rereads the leaves, rewrites them to the new frame or abandons the move, and shoots the region down again. Operands: a the die. -/
  | migrationRemap
  /-- R372. After the final shootdown the die posts a migration report. Operands: a the die. -/
  | migrationReport
  /-- R373. A supervisor write of MIGLIST replaces the frame array and count, and waits while a migration is in its step 2. Operands: w the writer, a the die, bytes the record. -/
  | miglistWrite
  /-- R181. A supervisor write of RBASE in a stack control entry moves a trapped child's resident range, or is ignored. Operands: w the writer, a the die, b the entry, v the value. -/
  | rbaseWrite
  /-- R178. The spill engine finishes moving stack positions for a CALL or RET, which then completes. Operands: a the thread. -/
  | spillFillDone
  /-- R359. A supervisor write of HQBASE starts a core's hand-in queue empty and posts the records waiting in the overflow. Operands: w the writer, a the core, v the value. -/
  | hqbaseWrite
  /-- R322. A service group's store to CPYANS ends a copy replay record, idling or failing the token. Operands: w the writer, a the die, bytes the record. -/
  | cpyansWrite
  /-- R330. A 32-byte store to PINSTALL installs one proof block computed by a service group. Operands: w the writer, a the die, bytes the record. -/
  | pinstallWrite
  /-- R330. A store of a request's tag to PDONE ends a recompute request and advances the proof's frontier. Operands: w the writer, a the die, v the tag. -/
  | pdoneWrite
  /-- R188. An outstanding load writes its destination positions and retires, lowering ld. Operands: a the operation, bytes the values of lanes in a peer window or in the host window in lane order. -/
  | loadReturn
  /-- R341. A store's acknowledgement reports its visible times, raises the LCT values and lowers st. Operands: a the operation. -/
  | storeAck
  /-- R302. An ATOM or CAS reply writes the old values, reports the write's times and lowers at. Operands: a the operation, bytes the old values of lanes in a peer window or in the host window in lane order, b the visible time that a peer reports. -/
  | atomReply
  /-- R337. A write arriving at its home slice probes the clusters that hold the line and is held as pending until it becomes visible. Operands: a the write; of one to a peer window b the visible time that the peer reports; of a reduction in the host window bytes the old value. -/
  | writeArriveHome
  /-- R336. A pending write becomes visible when device time reaches its visible time, and waiting fills and reads proceed. Operands: a the line. -/
  | writeVisible
  /-- R288. A fill from another die is answered with data and a lease end, and the line's horizon and lease length are updated. Operands: a the operation that asks for it, b the line, bytes the data of a line of the host window or of a peer window, c the lease end that a peer grants. -/
  | lineFill
  /-- R340. A leased copy stops serving at its lease end less the guard and is dropped. Operands: a the cache (an L1's core number, 48 + die a remote line cache), b the line. -/
  | leaseExpiry
  /-- R296. A buffered reduction line is merged slot by slot into its home. Operands: a the core, b the line. -/
  | redMerge
  /-- R298. An operation packet from a peer is executed once at the home slice and answered. Operands: pkt the packet, whose lanes name offsets in the export window; flag whether a load takes a lease. -/
  | peerPacketExecute
  /-- R298. A peer packet without a reply within 12 µs gives its lanes the peer timeout fault. Operands: a the operation or copy, b the packet's line. -/
  | peerTimeout
  /-- R342. A host write to device memory is made visible in the order it was received from its requester. Operands: a the physical address, bytes the bytes. -/
  | hostWrite
  /-- R342. A host read of device memory is served at the home as a read from another die. Operands: a the physical address, b the length; flag whether a is an offset in the management window instead, flag2 whether it comes over the port path; c = 1: an offset in the launch window instead. -/
  | hostRead
  /-- R418. An NVMe storage completion arrives, sets PIPEND bit 3, or is discarded and counted in STDISC for a dead context. Operands: a the core, v the context. -/
  | storageCompletion
  /-- R312. A compositor copy translates, reads and writes one destination line, pausing on a page fault or failing its token. Operands: a the copy, bytes the lines that come from the host window or a peer window, b the visible time that a peer reports. -/
  | copyLineTransfer
  /-- R313. A copy completes once every destination byte is written, idles its token and enters the issuer's LCT values. Operands: a the copy. -/
  | copyComplete
  /-- R268. An MMA commits its tile and barrier increment in one step and records its flags, lowering mx. Operands: a the operation. -/
  | pressOperationCommit
  /-- R276. A part of an MMA.GANG has read its operands and finished its shadow result, and the gang commits when every part is ready. Operands: a the operation, b the member. -/
  | gangPartReady
  /-- R277. The gang bound passes before every part is ready, and the operation aborts with class 4 on every member. Operands: a the operation. -/
  | gangBoundExpiry
  /-- R284. An MTILE finishes clearing, storing or loading its tile and releases its entry, lock and reservation. Operands: a the operation. -/
  | mtileEnd
  /-- R326. The proof engine gathers, quantises and installs a triggered block and advances the frontier. Operands: a the proof. -/
  | proofRecompute
  /-- R345. A parked release completes when device time reaches its LCT, and the group continues. Operands: a the thread. -/
  | releaseComplete
  /-- R211. A sleeping group wakes at its wake time, or raises promise-missed if its named token is still busy. Operands: a the thread. -/
  | sleepWake
  /-- R194. A child parked at FUSE.WAIT is released at its deadline with a fresh check code. Operands: a the thread. -/
  | fuseWaitDeadline
  /-- R206. A group with no live lane retires once its counters are zero, its tokens are idle and LCT.sys is reached, releasing its grants. Operands: a the thread. -/
  | groupRetire
  /-- R415. A completion record waiting for a slot on the device-to-host ring is sent as a message once a slot frees. Operands: v the launch. -/
  | completionRingSend
  /-- R387. After the drain, press and journal steps of a suspension end, the folio is written LIVE and the group's grants are released. Operands: a the thread. -/
  | folioWrite
  /-- R418. A store to TEARDOWN marks a context dead, drops its launches, groups and folios, closes its mailboxes and begins quiescing storage. Operands: w the writer, v the value. -/
  | teardown
  /-- R418. After every controller acknowledges the queue deletion, the context's key slot is erased. -/
  | teardownKeyErase
  /-- R374. An uncorrectable soft error poisons its structure, takes the effect its structure gives and posts a soft error report. Operands: err where it arises. -/
  | softError
  /-- R371. The bell restarts a stuck service group, returning or interrupting its taken records and starting a successor. Operands: a the thread. -/
  | bellRestart
  /-- R198. The proctor timer sets PIPEND bit 0 at each PTICK, or increments PTMISS if the bit is already set. Operands: a the core. -/
  | proctorTimerTick
  /-- R376. The proctor lane takes its highest pending enabled input between instructions, saves EPC, clears IE and enters its vector. Operands: a the core. -/
  | proctorInterrupt
  /-- R375. Writing 1 to RUN restarts a stopped proctor lane at EPC. Operands: w the writer, a the core, v the value. -/
  | proctorRunWrite
  /-- R197. As the last act of stage 1, the first stage starts the proctor lanes with IE = 0 at the entry the operating system image names, and stage 2 begins. Operands: v the entry. -/
  | proctorLanesStart
  /-- R13. A signed request from a running operating system raises the fused minimum security version. Operands: v the version. -/
  | fusedMinimumRaise
  /-- R305. A parked CFLUSH completes and writes s[d] once every write-back it caused has been accepted by its memory controller, or completed by the host agent. Operands: a the thread. -/
  | cflushComplete
  /-- R30. A maintenance flash write ends and the maintenance status moves from busy (0x01) to done (0x02). -/
  | maintenanceRequestDone
  deriving DecidableEq, Repr

end Sys2Proof
end

