-- ==== Sys2Proof/Decode.lean ====
section
/-! DEFINITION. The decoder of instruction words (R135 to R159), the checks of R138 that it makes,
and after it the encoder, both written from the format tables. Total on any words and any bytes:
what is no instruction is rejected with the cause of R138. -/

namespace Sys2Proof

/-- The causes of the illegal-instruction trap (R138). -/
inductive Cause where
  /-- 0x01: OP unassigned, a reserved prefix, or OP 0xFF. -/
  | unassigned
  /-- 0x02: a reserved field or value. -/
  | reserved
  /-- 0x03: a register field out of range, or misaligned for its type. -/
  | register
  /-- 0x04: a misplaced or refused prefix, or no main word in the packet. -/
  | prefixed
  /-- 0x05: a misplaced, refused or missing extension. -/
  | extension
  /-- 0x06: a forbidden combination of fields. -/
  | combination
  /-- 0x07: G is not 111b in an instruction that executes once per group. -/
  | guarded
  deriving DecidableEq, Repr

/-- The cause byte (R138). -/
def Cause.code : Cause → Nat
  | .unassigned => 1 | .reserved => 2 | .register => 3 | .prefixed => 4
  | .extension => 5 | .combination => 6 | .guarded => 7

/-- Field of a word: w bits from bit lo, as a number. -/
def field (m : W32) (lo w : Nat) : Nat := (m.extractLsb' lo w).toNat

/-- Major opcode (R135). -/
def opOf (m : W32) : Nat := field m 20 8

/-- Guard of a main word (R135). -/
def guardOf (m : W32) : Nat := field m 28 3

/-- OP codes assigned to a main word (R157). -/
def assigned (op : Nat) : Bool :=
  op ≤ 0x0E || (0x10 ≤ op && op ≤ 0x1E) || (0x20 ≤ op && op ≤ 0x7E) || (0x80 ≤ op && op ≤ 0xAE)
    || (0xC0 ≤ op && op ≤ 0xC8) || (0xD0 ≤ op && op ≤ 0xE9) || (0xF0 ≤ op && op ≤ 0xF7)

/-- OPs that accept the lane prefix (R153). -/
def acceptsLmod (op : Nat) : Bool :=
  (0x40 ≤ op && op ≤ 0xCF) || op == 0xE0 || op == 0xE1 || (0xE4 ≤ op && op ≤ 0xE6)

/-- OPs that accept the memory modifier prefix (R151, R299, R305, R349). -/
def acceptsMmod (op : Nat) : Bool := 0xE0 ≤ op && op ≤ 0xE9

/-- OPs that accept the immediate extension: format I (R154, R157). -/
def acceptsImmx (op : Nat) : Bool := op == 0x3C || (0x76 ≤ op && op ≤ 0x7E) || op == 0xAE

/-- OPs that accept the memory extension: format M, but for ATOM and RED (R155, R299). -/
def acceptsMemx (op : Nat) : Bool := (0xE0 ≤ op && op ≤ 0xE3) || op == 0xE6 || op == 0xE7

/-- OPs that require the register extension (R222, R230, R299). -/
def requiresRegx (op : Nat) : Bool :=
  op == 0x55 || op == 0x66 || op == 0xC6 || (0xD0 ≤ op && op ≤ 0xDA) || op == 0xDF
    || op == 0xE4 || op == 0xE5

/-- OPs of R230 with optional REGX that use RND alone. -/
def regxRound (op : Nat) : Bool :=
  (0x80 ≤ op && op ≤ 0x82) || (0x86 ≤ op && op ≤ 0x89) || (0x96 ≤ op && op ≤ 0x9C)
    || op == 0x9E || op == 0x9F || (0xA0 ≤ op && op ≤ 0xA2) || (0xA5 ≤ op && op ≤ 0xA7)
    || op == 0xAD

/-- OPs of R230 whose optional REGX names the third source c. -/
def regxThird (op : Nat) : Bool :=
  (0x83 ≤ op && op ≤ 0x85) || op == 0xA3 || op == 0xA8 || op == 0xAB || op == 0xAC

/-- Uniform OPs whose b is a register (R217). -/
def uniformB (op : Nat) : Bool :=
  (0x20 ≤ op && op ≤ 0x2F) || (0x37 ≤ op && op ≤ 0x3B) || op == 0x3D

/-- OPs that accept the register extension (R156, R217, R222, R226, R230, R299). -/
def acceptsRegx (op : Nat) : Bool :=
  uniformB op || op == 0x75 || regxRound op || regxThird op || (0xC0 ≤ op && op ≤ 0xC4)
    || op == 0xC7 || op == 0xC8 || requiresRegx op

/-- OPs that execute once per group, so that G must be 111b (R140, R200). -/
def oncePerGroup (op : Nat) : Bool :=
  op == 0x00 || op == 0x03 || op == 0x05 || (0x07 ≤ op && op ≤ 0x0C) || op == 0x0E
    || (0x10 ≤ op && op ≤ 0x3F) || (0xDB ≤ op && op ≤ 0xDE) || op == 0xE2 || op == 0xE3
    || op == 0xE8 || op == 0xE9 || (0xF0 ≤ op && op ≤ 0xF7)

/-- Privileged OPs (R159). -/
def privileged (op : Nat) : Bool :=
  op == 0x0E || op == 0x16 || op == 0x17 || op == 0x1C || op == 0x1D || op == 0x1E

/-- Access size in bytes of a format M word with its extension (R150, R155). -/
def accessSize (m : W32) (x : Ext) : Nat :=
  match x with
  | .memx _ _ _ true _ => 16
  | _ => 2 ^ field m 0 2

/-- Number of .f32 registers on the unpacked side of a packed format (R245). -/
def packCount (fmt : Nat) : Nat := if fmt ≤ 1 then 2 else if fmt == 9 then 8 else 4

/-- A list of checks: each says whether its condition is violated, and the cause. -/
abbrev Checks := List (Bool × Cause)

/-- The lowest cause among the violated checks of one word (R138). -/
def worst : Checks → Option Cause
  | [] => none
  | (false, _) :: cs => worst cs
  | (true, c) :: cs =>
    match worst cs with
    | none => some c
    | some c' => if c'.code < c.code then some c' else some c

/-- Reserved special register numbers (R215). -/
def srReserved (n : Nat) : Bool := (0x14 ≤ n && n ≤ 0x1F) || 0x25 ≤ n

/-- Special registers that SETSR may write (R215). -/
def srWritable (n : Nat) : Bool := n == 5 || n == 9 || (0x20 ≤ n && n ≤ 0x24)

/-- A reserved value in an MMOD (R151). -/
def mmodReserved (p : Mmod) : Bool :=
  4 ≤ p.ord.toNat || 6 ≤ p.scope.toNat || p.space == 3 || 5 ≤ p.cache.toNat

/-- A reserved value in an LMOD (R153). -/
def lmodReserved (p : Lmod) : Bool := 65 ≤ p.tail.toNat

/-- MMOD on an OP (R151, R304, R305, R349). -/
def checkMmod (op : Nat) (p : Mmod) : Checks :=
  let reads := op == 0xE0 || op == 0xE2 || op == 0xE4 || op == 0xE6
  let writes := op == 0xE1 || op == 0xE3 || op == 0xE4 || op == 0xE5 || op == 0xE6
  let access := op ≤ 0xE7
  [ (mmodReserved p, .reserved),
    (access && p.ord == 1 && !reads, .combination),
    (access && p.ord == 2 && !writes, .combination),
    (p.ord == 3 && !(op == 0xE4 || op == 0xE6), .combination),
    (p.det && op != 0xE5, .combination),
    (access && p.space == 1 && (p.ord != 0 || 1 < p.scope.toNat || p.cache != 0), .combination),
    (op == 0xE7 && p.cache == 3, .combination),
    (op == 0xE8 && (p.ord == 0 || p.space != 0 || p.cache != 0), .combination),
    (op == 0xE9 && (p.ord != 0 || p.space == 1 || p.cache != 0), .combination) ]

/-- LMOD (R153). -/
def checkLmod (g : Nat) (p : Lmod) : Checks :=
  [ (lmodReserved p, .reserved), (p.neg && g == 7, .combination) ]

/-- Conversion codes of a main word of OPs 0xC0 to 0xC8 (R241, R242). -/
def checkConvert (op : Nat) (m : W32) : Checks :=
  let dst := field m 4 4
  let src := field m 0 4
  let d := field m 14 6
  let a := field m 8 6
  let fl (c : Nat) : Bool := c ≤ 9
  let packed (c : Nat) : Bool := c ≤ 1 || (5 ≤ c && c ≤ 9)
  let resF (c : Nat) : Bool := 12 ≤ c
  let resI (c : Nat) : Bool := 8 ≤ c
  match op with
  | 0xC0 => [ (resF dst || resF src, .reserved), (!fl dst || !fl src, .combination),
      ((dst == 4 && d % 2 != 0) || (src == 4 && a % 2 != 0), .register) ]
  | 0xC1 => [ (resI dst || resF src, .reserved), (!fl src, .combination),
      ((dst % 4 == 3 && d % 2 != 0) || (src == 4 && a % 2 != 0), .register) ]
  | 0xC2 => [ (resF dst || resI src, .reserved), (!fl dst, .combination),
      ((dst == 4 && d % 2 != 0) || (src % 4 == 3 && a % 2 != 0), .register) ]
  | 0xC3 => [ (resI dst || resI src, .reserved),
      ((dst % 4 == 3 && d % 2 != 0) || (src % 4 == 3 && a % 2 != 0), .register) ]
  | 0xC4 => [ (resF dst || resF src, .reserved), (src != 3 || !packed dst, .combination),
      (packed dst && a % packCount dst != 0, .register) ]
  | 0xC5 => [ (resF dst || resF src, .reserved), (dst != 3 || !packed src, .combination),
      (packed src && d % packCount src != 0, .register) ]
  | 0xC6 => [ (resF dst || resF src, .reserved),
      (!(src ≤ 1 || src == 3) || !(5 ≤ dst && dst ≤ 10), .combination) ]
  | 0xC7 => [ (resF dst || resF src, .reserved), (dst != 11 || 1 < src, .combination),
      (a % 4 != 0 || d % 4 != 0 || 52 < a, .register) ]
  | _ => [ (resF dst || resF src, .reserved),
      (!(5 ≤ src && src ≤ 11) || !(dst ≤ 1 || dst == 3), .combination) ]

/-- Single-source OPs of 0x80 to 0x9D with the ordinary type selector (R232). -/
def floatOne (op : Nat) : Bool :=
  (0x87 ≤ op && op ≤ 0x89) || op == 0x8E || op == 0x8F || (0x96 ≤ op && op ≤ 0x9A) || op == 0x9C

/-- The main word in formats S, B and I (R146 to R149, R200, R217). -/
def checkMainS (op : Nat) (m : W32) (x : Ext) : Checks :=
  let d := field m 13 7
  let a := field m 6 7
  let b := field m 0 6
  let low := field m 0 20
  match op with
  | 0x00 => [ (low != 0 || m.getLsbD 31, .reserved) ]
  | 0x01 | 0x02 => [ (field m 0 2 == 3, .reserved), (field m 17 3 != 0, .combination) ]
  | 0x04 => [ (field m 0 2 == 3, .reserved), (field m 17 3 == 0, .combination) ]
  | 0x03 | 0x05 | 0x06 | 0x07 | 0x0D | 0x0E | 0xE8 => [ (low != 0, .reserved) ]
  | 0x08 => [ (d != 0 || b != 0, .reserved), (95 < a, .register) ]
  | 0x09 => [ (d != 0 || (1 ≤ b && b ≤ 7) || 15 < b, .reserved), (95 < a, .register) ]
  | 0x0A => [ (2 < d || (d == 0 && b != 0), .reserved), (95 < a, .register) ]
  | 0x0B => [ (d != 0 || b == 0 || b % 8 != 0, .reserved), (95 < a, .register) ]
  | 0x0C => [ (d != 0 || a != 0, .reserved) ]
  | 0x10 => [ (b != 0, .reserved), (95 < d || 95 < a, .register) ]
  | 0x11 => [ (field m 1 5 != 0, .reserved), (95 < d || 94 < a || a % 2 != 0, .register) ]
  | 0x12 => [ (95 < d || 94 < a || a % 2 != 0, .register) ]
  | 0x13 => [ (b != 0, .reserved), (95 < d || 94 < a || a % 2 != 0, .register) ]
  | 0x14 => [ (a != 0 || srReserved b, .reserved), (95 < d, .register) ]
  | 0x15 => [ (d != 0 || srReserved b || !srWritable b, .reserved), (95 < a, .register) ]
  | 0x16 => [ (b != 0, .reserved), (95 < d || 92 < a || a % 4 != 0, .register) ]
  | 0x18 | 0x19 => [ (b != 0, .reserved), (95 < d || 95 < a, .register) ]
  | 0x17 | 0x1C | 0xE9 => [ (95 < d || 95 < a, .register) ]
  | 0x1A => [ (95 < d || 88 < a || a % 8 != 0, .register) ]
  | 0x1B => [ (field m 1 5 != 0, .reserved),
      (88 < d || d % 8 != 0 || 95 < a || (d ≤ a && a ≤ d + 7), .register) ]
  | 0x1D => [ (field m 14 6 % 16 != 0 || 95 < a, .register) ]
  | 0x1E => [ (b != 0, .reserved), (95 < d || 60 < a || a % 4 != 0, .register) ]
  | 0x3C => [ (field m 8 6 != 0, .reserved) ]
  | 0x3D => [ (x != .none && b != 0, .reserved), (95 < d || 63 < a, .register) ]
  | 0x3E | 0x3F => [ (b != 0, .reserved), (95 < d || 95 < a, .register) ]
  | 0xDB => [ (a != 0 || !(b == 2 || b == 4), .reserved), (95 < d, .register) ]
  | 0xDC => [ (field m 1 5 != 0 || (!m.getLsbD 0 && a != 0), .reserved),
      (95 < d || 95 < a, .register) ]
  | 0xDE => [ (d != 0 || field m 3 3 != 0, .reserved), (95 < a, .register) ]
  | 0xF0 | 0xF1 => [ (field m 0 2 != 0, .reserved), (31 < d || 88 < a || a % 8 != 0, .register) ]
  | 0xF2 =>
    let k := field m 3 2
    let f := field m 0 3
    let sat := m.getLsbD 5
    [ (k == 3 || 6 ≤ f || (k == 0 && (f != 0 || sat || a != 0)), .reserved),
      (31 < d || 95 < a, .register),
      (k == 1 && sat && !(f == 1 || f == 2), .combination),
      (k == 2 && (f == 1 || f == 2 || sat), .combination) ]
  | 0xF3 => [ (a != 0 || field m 1 5 != 0, .reserved), (95 < d, .register) ]
  | 0xF4 => [ (field m 3 2 != 0 || (!m.getLsbD 5 && d != 0), .reserved),
      (95 < d || 88 < a || a % 8 != 0, .register) ]
  | 0xF5 => [ (field m 8 12 != 0, .reserved) ]
  | 0xF6 => [ (field m 2 4 != 0 || (m.getLsbD 0 && m.getLsbD 1), .reserved),
      (95 < d || 95 < a, .register) ]
  | 0xF7 => [ (field m 2 4 != 0 || field m 0 2 == 3, .reserved), (95 < d || 95 < a, .register) ]
  | 0xDD => []
  | _ => [ (x != .none && b != 0, .reserved), (95 < d || 95 < a, .register) ]

/-- The main word in formats V, VS and I of the vector pipes (R158, R219 to R254). -/
def checkMainV (op : Nat) (m : W32) : Checks :=
  let d := field m 14 6
  let a := field m 8 6
  let b := field m 2 6
  let t := field m 0 2
  let odd (w : Bool) (r : Nat) : Bool := w && r % 2 != 0
  if 0xC0 ≤ op && op ≤ 0xC8 then checkConvert op m
  else if op == 0x54 || (0x5C ≤ op && op ≤ 0x5E) || op == 0x67 then
    [ (1 < t || b != 0, .reserved), (odd (t == 1) d || odd (t == 1) a, .register) ]
  else if op == 0x4E || op == 0x4F then
    [ (b != 0, .reserved), (odd (t == 3) d || odd (t == 3) a, .register) ]
  else if 0x60 ≤ op && op ≤ 0x65 then
    [ (6 < d || odd (t == 3) a || odd (t == 3) b, .register) ]
  else if op ≤ 0x66 then
    [ (odd (t == 3) d || odd (t == 3) a || odd (t == 3) b, .register) ]
  else if op ≤ 0x6F || op == 0x9E || op == 0x9F || op == 0xAD then
    [ (m.getLsbD 7, .reserved), (95 < field m 0 7, .register) ]
  else if op ≤ 0x72 then [ (t != 0, .reserved), (6 < d || 7 < a || 7 < b, .register) ]
  else if op == 0x73 then [ (t != 0 || b != 0, .reserved), (6 < d || 7 < a, .register) ]
  else if op == 0x74 then [ (t != 0, .reserved), (6 < d || 7 < a, .register) ]
  else if op == 0x75 then [ (t != 0, .reserved), (d % 2 != 0 || b % 2 != 0, .register) ]
  else if op == 0x76 || op == 0xAE then [ (a != 0, .reserved) ]
  else if op ≤ 0x7C then []
  else if op ≤ 0x7E then [ (6 < d, .register) ]
  else if 0x90 ≤ op && op ≤ 0x94 then
    [ (6 < d || odd (t == 3) a || odd (t == 3) b, .register) ]
  else if op == 0x95 then
    [ (2 < b || (b == 1 && (a != 0 || t != 2)) || (b == 2 && (d != 0 || t != 2)), .reserved),
      (b == 0 && odd (t == 3) a, .register) ]
  else if op == 0x9B then [ (odd (t == 3) d || odd (t == 3) a, .register) ]
  else if floatOne op then
    [ (b != 0, .reserved), (odd (t == 3) d || odd (t == 3) a, .register) ]
  else if op ≤ 0x9D then
    [ (odd (t == 3) d || odd (t == 3) a || odd (t == 3) b, .register) ]
  else if op ≤ 0xA3 then
    [ (t != 0, .reserved), (d % 4 != 0 || a % 4 != 0 || b % 4 != 0, .register) ]
  else if op == 0xA4 then [ (t != 0 || b != 0, .reserved), (d % 4 != 0 || a % 4 != 0, .register) ]
  else if op == 0xA5 then [ (t != 0 || b != 0, .reserved), (d % 2 != 0 || a % 4 != 0, .register) ]
  else if op ≤ 0xAC then [ (1 < t, .reserved) ]
  else if op == 0xD0 then [ (1 < t, .reserved), (odd (t == 1) d || odd (t == 1) a, .register) ]
  else if op ≤ 0xD3 then
    [ (1 < t || b != 0, .reserved), (odd (t == 1) d || odd (t == 1) a, .register) ]
  else if op == 0xD4 then [ (t != 0, .reserved), (6 < d || 12 < a, .register) ]
  else if op == 0xD5 then [ (t != 0 || d != 0 || b != 0, .reserved), (12 < a, .register) ]
  else if op == 0xD6 then [ (t != 0 || b != 0, .reserved), (6 < d || 12 < a, .register) ]
  else if op ≤ 0xDA then [ (b != 0, .reserved), (odd (t == 3) d || odd (t == 3) a, .register) ]
  else [ (1 < t || b != 0, .reserved), (d % 4 != 0 || odd (t == 1) a, .register) ]

/-- The main word in format M (R299 to R304). -/
def checkMainM (op : Nat) (m : W32) (x : Ext) : Checks :=
  let d := field m 14 6
  let idx := field m 2 6
  let size := accessSize m x
  let small := size ≤ 2
  match op with
  | 0xE0 | 0xE1 => [ (d % (max 1 (size / 4)) != 0, .register) ]
  | 0xE2 | 0xE3 => [ (idx != 0, .reserved), (size == 16 && d % 2 != 0, .register) ]
  | 0xE4 | 0xE5 => [ (size == 8 && d % 2 != 0, .register), (small, .combination) ]
  | 0xE6 => [ (!small && d % (size / 2) != 0, .register), (small, .combination) ]
  | _ => [ (d != 0, .reserved) ]

/-- The rounding code of REGX: which codes an instruction allows (R54, R229). -/
def checkRound (rnd : Nat) (ok : Nat → Bool) : Checks :=
  [ (rnd == 7, .reserved), (rnd != 7 && !ok rnd, .combination) ]

/-- Codes of arithmetic instructions (R229). -/
def roundArith (r : Nat) : Bool := r ≤ 3 || r == 6

/-- Codes of a conversion into a format of 16 bits or fewer, or wider (R229). -/
def roundConv (narrow : Bool) (r : Nat) : Bool := r ≤ 4 || r == 6 || (narrow && r == 5)

/-- Float formats of 16 bits or fewer (R241). -/
def narrowFmt (c : Nat) : Bool := c ≤ 1 || 5 ≤ c

/-- The extension word; xres says that a reserved bit of a REGX word is set (R155, R156, R230). -/
def checkExt (op : Nat) (m : W32) (x : Ext) (xres : Bool) : Checks :=
  let t := field m 0 2
  match x with
  | .none => []
  | .immx _ => []
  | .memx noidx sc1 sx w16 _ =>
    let size := accessSize m x
    [ (w16 && t != 3, .combination), (sc1 && noidx, .combination),
      (sx && !((op == 0xE0 && size ≤ 2) || (op == 0xE2 && size ≤ 4)), .combination),
      ((op == 0xE2 || op == 0xE3) && (noidx || sc1), .combination) ]
  | .regx xx yy rnd sat =>
    let X := xx.toNat
    let Y := yy.toNat
    let R := rnd.toNat
    (xres, .reserved) ::
    (if uniformB op then [ (Y != 0 || R != 0 || sat, .reserved), (95 < X, .register) ]
     else if op == 0x55 then
       [ (64 ≤ X || R != 0 || sat, .reserved), (95 < Y || (t == 3 && X % 2 != 0), .register) ]
     else if op == 0x66 then [ (8 ≤ X || Y != 0 || R != 0 || sat, .reserved) ]
     else if op == 0x75 then [ (4 ≤ X || Y != 0 || R != 0 || sat, .reserved) ]
     else if regxRound op then
       (X != 0 || Y != 0 || sat, .reserved) :: checkRound R roundArith
     else if regxThird op then
       [ (64 ≤ X || Y != 0 || sat, .reserved),
         ((op ≤ 0x85 && t == 3 && X % 2 != 0) || (op == 0xA3 && X % 4 != 0), .register) ]
         ++ checkRound R roundArith
     else if op == 0xC0 || op == 0xC2 || op == 0xC4 || op == 0xC8 then
       (X != 0 || Y != 0, .reserved) :: checkRound R (roundConv (narrowFmt (field m 4 4)))
     else if op == 0xC1 then (X != 0 || Y != 0, .reserved) :: checkRound R (roundConv false)
     else if op == 0xC3 then [ (X != 0 || Y != 0 || R != 0, .reserved) ]
     else if op == 0xC6 then
       [ (X != 0 || sat, .reserved), (95 < Y, .register) ]
         ++ checkRound R (fun r => r == 0 || r == 5)
     else if op == 0xC7 then
       (X != 0 || Y != 0 || sat, .reserved) :: checkRound R (fun r => r == 0 || r == 5)
     else if op == 0xD0 || op == 0xDF then
       [ (X != 0 || R != 0 || sat, .reserved), (95 < Y, .register) ]
     else if op ≤ 0xD3 || op == 0xD5 || op == 0xD6 then
       [ (R != 0 || sat, .reserved), (95 < X || 95 < Y, .register) ]
     else if op == 0xD4 then
       [ (R != 0 || sat, .reserved), ((95 < X && X != 0x7F) || 95 < Y, .register) ]
     else if op == 0xD7 || op == 0xDA then
       [ (X != 0 || sat || (t < 2 && R != 0), .reserved), (95 < Y, .register) ]
         ++ (if t < 2 then [] else checkRound R roundArith)
     else if op ≤ 0xDA then [ (X != 0 || R != 0 || sat, .reserved), (95 < Y, .register) ]
     else if op == 0xE4 then
       [ (64 ≤ X || R != 0 || sat, .reserved), (95 < Y || (t == 3 && X % 2 != 0), .register) ]
     else [ (X != 0 || R != 0 || sat, .reserved), (95 < Y, .register) ])

/-- check_fields of R137: the violated condition in the lowest word slot, and of these the lowest
cause (R138). -/
def checkFields (h : Hdr) (m : W32) (xres : Bool) : Option Cause :=
  let op := opOf m
  let main : Checks :=
    (if oncePerGroup op then [(guardOf m != 7, Cause.guarded)] else [])
      ++ (if op == 0xE8 && h.mmod.isNone then [(true, Cause.combination)] else [])
      ++ (if op < 0x40 || (0xDB ≤ op && op ≤ 0xDE) || 0xE8 ≤ op then checkMainS op m h.x
          else if 0xE0 ≤ op then checkMainM op m h.x
          else checkMainV op m)
  (match h.mmod with | some p => worst (checkMmod op p) | none => none).or
    ((match h.lmod with | some p => worst (checkLmod (guardOf m) p) | none => none).or
      ((worst main).or (worst (checkExt op m h.x xres))))

/-- The extension a word holds (R154 to R156), its OP being 0xFC to 0xFE. -/
def extOf (w : W32) : Ext :=
  if opOf w == 0xFC then .immx (w.extractLsb' 28 4 ++ w.extractLsb' 0 20)
  else if opOf w == 0xFD then
    .memx (w.getLsbD 31) (w.getLsbD 30) (w.getLsbD 29) (w.getLsbD 28) (w.extractLsb' 0 20)
  else .regx (w.extractLsb' 13 7) (w.extractLsb' 6 7) (w.extractLsb' 3 3) (w.getLsbD 2)

/-- Reserved bits of an extension word. -/
def extReserved (w : W32) : Bool :=
  opOf w == 0xFE && (field w 28 4 != 0 || field w 0 2 != 0)

/-- Whether an OP accepts the extension kind of OP 0xFC to 0xFE. -/
def acceptsExt (op kind : Nat) : Bool :=
  if kind == 0xFC then acceptsImmx op else if kind == 0xFD then acceptsMemx op else acceptsRegx op

def mmodOf (w : W32) : Mmod :=
  { ord := w.extractLsb' 17 3, scope := w.extractLsb' 14 3, space := w.extractLsb' 12 2
    cache := w.extractLsb' 9 3, det := w.getLsbD 8 }

def lmodOf (w : W32) : Lmod := { neg := w.getLsbD 19, tail := w.extractLsb' 0 7 }

/-- OPs 0x00 to 0x0F (R157). -/
def build0 (lo : Nat) (h : Hdr) (m : W32) : Option Instr :=
  match lo with
  | 0 => some .nop
  | 1 => some (.bra h (m.extractLsb' 2 15) (m.extractLsb' 0 2))
  | 2 => some (.brd h (m.extractLsb' 2 15) (m.extractLsb' 0 2))
  | 3 => some (.join h)
  | 4 => some (.call h (m.extractLsb' 17 3) (m.extractLsb' 2 15) (m.extractLsb' 0 2))
  | 5 => some (.ret h)
  | 6 => some (.exit h)
  | 7 => some (.yield h)
  | 8 => some (.sleep h (m.extractLsb' 6 7))
  | 9 => some (.sleepUntil h (m.extractLsb' 6 7) (m.extractLsb' 0 6))
  | 10 => some (.brx h (m.extractLsb' 13 7) (m.extractLsb' 6 7) (m.extractLsb' 0 6))
  | 11 => some (.callx h (m.extractLsb' 6 7) (m.extractLsb' 0 6))
  | 12 => some (.brk h (m.extractLsb' 0 6))
  | 13 => some (.sysc h)
  | 14 => some (.tret h)
  | _ => none

/-- OPs 0x10 to 0x1F (R157). -/
def build1 (lo : Nat) (h : Hdr) (m : W32) : Option Instr :=
  match lo with
  | 0 => some (.suspend h (m.extractLsb' 13 7) (m.extractLsb' 6 7))
  | 1 => if m.getLsbD 0 then some (.resumeTry h (m.extractLsb' 13 7) (m.extractLsb' 6 7))
      else some (.resume h (m.extractLsb' 13 7) (m.extractLsb' 6 7))
  | 2 => some (.fcopy h (m.extractLsb' 13 7) (m.extractLsb' 6 7) (m.extractLsb' 0 6))
  | 3 => some (.fdrop h (m.extractLsb' 13 7) (m.extractLsb' 6 7))
  | 4 => some (.getsr h (m.extractLsb' 13 7) (m.extractLsb' 0 6))
  | 5 => some (.setsr h (m.extractLsb' 6 7) (m.extractLsb' 0 6))
  | 6 => some (.svcstart h (m.extractLsb' 13 7) (m.extractLsb' 6 7))
  | 7 => some (.svcpark h (m.extractLsb' 13 7) (m.extractLsb' 6 7) (m.extractLsb' 0 6))
  | 8 => some (.launch h (m.extractLsb' 13 7) (m.extractLsb' 6 7))
  | 9 => some (.spawn h (m.extractLsb' 13 7) (m.extractLsb' 6 7))
  | 10 => some (.mbsend h (m.extractLsb' 13 7) (m.extractLsb' 6 7) (m.extractLsb' 0 6))
  | 11 => if m.getLsbD 0 then some (.mbrecvW h (m.extractLsb' 13 7) (m.extractLsb' 6 7))
      else some (.mbrecv h (m.extractLsb' 13 7) (m.extractLsb' 6 7))
  | 12 => some (.place h (m.extractLsb' 13 7) (m.extractLsb' 6 7) (m.extractLsb' 0 6))
  | 13 => if m.getLsbD 13 then some (.hqtakeW h (m.extractLsb' 14 6) (m.extractLsb' 6 7) (m.extractLsb' 0 6))
      else some (.hqtake h (m.extractLsb' 14 6) (m.extractLsb' 6 7) (m.extractLsb' 0 6))
  | 14 => some (.hqdone h (m.extractLsb' 13 7) (m.extractLsb' 6 7))
  | _ => none

/-- OPs 0x20 to 0x2F (R157). -/
def build2 (lo : Nat) (h : Hdr) (m : W32) : Option Instr :=
  match lo with
  | 0 => some (.uadd h (m.extractLsb' 13 7) (m.extractLsb' 6 7) (m.extractLsb' 0 6))
  | 1 => some (.usub h (m.extractLsb' 13 7) (m.extractLsb' 6 7) (m.extractLsb' 0 6))
  | 2 => some (.umul h (m.extractLsb' 13 7) (m.extractLsb' 6 7) (m.extractLsb' 0 6))
  | 3 => some (.umulhs h (m.extractLsb' 13 7) (m.extractLsb' 6 7) (m.extractLsb' 0 6))
  | 4 => some (.umulhn h (m.extractLsb' 13 7) (m.extractLsb' 6 7) (m.extractLsb' 0 6))
  | 5 => some (.uand h (m.extractLsb' 13 7) (m.extractLsb' 6 7) (m.extractLsb' 0 6))
  | 6 => some (.uor h (m.extractLsb' 13 7) (m.extractLsb' 6 7) (m.extractLsb' 0 6))
  | 7 => some (.uxor h (m.extractLsb' 13 7) (m.extractLsb' 6 7) (m.extractLsb' 0 6))
  | 8 => some (.ushl h (m.extractLsb' 13 7) (m.extractLsb' 6 7) (m.extractLsb' 0 6))
  | 9 => some (.ushr h (m.extractLsb' 13 7) (m.extractLsb' 6 7) (m.extractLsb' 0 6))
  | 10 => some (.usar h (m.extractLsb' 13 7) (m.extractLsb' 6 7) (m.extractLsb' 0 6))
  | 11 => some (.umins h (m.extractLsb' 13 7) (m.extractLsb' 6 7) (m.extractLsb' 0 6))
  | 12 => some (.uminn h (m.extractLsb' 13 7) (m.extractLsb' 6 7) (m.extractLsb' 0 6))
  | 13 => some (.umaxs h (m.extractLsb' 13 7) (m.extractLsb' 6 7) (m.extractLsb' 0 6))
  | 14 => some (.umaxn h (m.extractLsb' 13 7) (m.extractLsb' 6 7) (m.extractLsb' 0 6))
  | 15 => some (.usel h (m.extractLsb' 13 7) (m.extractLsb' 6 7) (m.extractLsb' 0 6))
  | _ => none

/-- OPs 0x30 to 0x3F (R157). -/
def build3 (lo : Nat) (h : Hdr) (m : W32) : Option Instr :=
  match lo with
  | 0 => some (.uaddi h (m.extractLsb' 13 7) (m.extractLsb' 6 7) (m.extractLsb' 0 6))
  | 1 => some (.uandi h (m.extractLsb' 13 7) (m.extractLsb' 6 7) (m.extractLsb' 0 6))
  | 2 => some (.uori h (m.extractLsb' 13 7) (m.extractLsb' 6 7) (m.extractLsb' 0 6))
  | 3 => some (.uxori h (m.extractLsb' 13 7) (m.extractLsb' 6 7) (m.extractLsb' 0 6))
  | 4 => some (.ushli h (m.extractLsb' 13 7) (m.extractLsb' 6 7) (m.extractLsb' 0 6))
  | 5 => some (.ushri h (m.extractLsb' 13 7) (m.extractLsb' 6 7) (m.extractLsb' 0 6))
  | 6 => some (.usari h (m.extractLsb' 13 7) (m.extractLsb' 6 7) (m.extractLsb' 0 6))
  | 7 => some (.useq h (m.extractLsb' 13 7) (m.extractLsb' 6 7) (m.extractLsb' 0 6))
  | 8 => some (.usne h (m.extractLsb' 13 7) (m.extractLsb' 6 7) (m.extractLsb' 0 6))
  | 9 => some (.uslts h (m.extractLsb' 13 7) (m.extractLsb' 6 7) (m.extractLsb' 0 6))
  | 10 => some (.usltn h (m.extractLsb' 13 7) (m.extractLsb' 6 7) (m.extractLsb' 0 6))
  | 11 => some (.ubfx h (m.extractLsb' 13 7) (m.extractLsb' 6 7) (m.extractLsb' 0 6))
  | 12 => some (.umovi h (m.extractLsb' 14 6) (m.extractLsb' 0 8))
  | 13 => some (.urdlane h (m.extractLsb' 13 7) (m.extractLsb' 6 7) (m.extractLsb' 0 6))
  | 14 => some (.upopc h (m.extractLsb' 13 7) (m.extractLsb' 6 7))
  | 15 => some (.uclz h (m.extractLsb' 13 7) (m.extractLsb' 6 7))
  | _ => none

/-- OPs 0x40 to 0x4F (R157). -/
def build4 (lo : Nat) (h : Hdr) (m : W32) : Option Instr :=
  match lo with
  | 0 => some (.iadd h (m.extractLsb' 14 6) (m.extractLsb' 8 6) (m.extractLsb' 2 6) (m.extractLsb' 0 2))
  | 1 => some (.isub h (m.extractLsb' 14 6) (m.extractLsb' 8 6) (m.extractLsb' 2 6) (m.extractLsb' 0 2))
  | 2 => some (.imul h (m.extractLsb' 14 6) (m.extractLsb' 8 6) (m.extractLsb' 2 6) (m.extractLsb' 0 2))
  | 3 => some (.imulhs h (m.extractLsb' 14 6) (m.extractLsb' 8 6) (m.extractLsb' 2 6) (m.extractLsb' 0 2))
  | 4 => some (.imulhn h (m.extractLsb' 14 6) (m.extractLsb' 8 6) (m.extractLsb' 2 6) (m.extractLsb' 0 2))
  | 5 => some (.imad h (m.extractLsb' 14 6) (m.extractLsb' 8 6) (m.extractLsb' 2 6) (m.extractLsb' 0 2))
  | 6 => some (.iaddss h (m.extractLsb' 14 6) (m.extractLsb' 8 6) (m.extractLsb' 2 6) (m.extractLsb' 0 2))
  | 7 => some (.iaddsn h (m.extractLsb' 14 6) (m.extractLsb' 8 6) (m.extractLsb' 2 6) (m.extractLsb' 0 2))
  | 8 => some (.isubss h (m.extractLsb' 14 6) (m.extractLsb' 8 6) (m.extractLsb' 2 6) (m.extractLsb' 0 2))
  | 9 => some (.isubsn h (m.extractLsb' 14 6) (m.extractLsb' 8 6) (m.extractLsb' 2 6) (m.extractLsb' 0 2))
  | 10 => some (.imins h (m.extractLsb' 14 6) (m.extractLsb' 8 6) (m.extractLsb' 2 6) (m.extractLsb' 0 2))
  | 11 => some (.iminn h (m.extractLsb' 14 6) (m.extractLsb' 8 6) (m.extractLsb' 2 6) (m.extractLsb' 0 2))
  | 12 => some (.imaxs h (m.extractLsb' 14 6) (m.extractLsb' 8 6) (m.extractLsb' 2 6) (m.extractLsb' 0 2))
  | 13 => some (.imaxn h (m.extractLsb' 14 6) (m.extractLsb' 8 6) (m.extractLsb' 2 6) (m.extractLsb' 0 2))
  | 14 => some (.iabs h (m.extractLsb' 14 6) (m.extractLsb' 8 6) (m.extractLsb' 0 2))
  | 15 => some (.ineg h (m.extractLsb' 14 6) (m.extractLsb' 8 6) (m.extractLsb' 0 2))
  | _ => none

/-- OPs 0x50 to 0x5F (R157). -/
def build5 (lo : Nat) (h : Hdr) (m : W32) : Option Instr :=
  match lo with
  | 0 => some (.andV h (m.extractLsb' 14 6) (m.extractLsb' 8 6) (m.extractLsb' 2 6) (m.extractLsb' 0 2))
  | 1 => some (.orV h (m.extractLsb' 14 6) (m.extractLsb' 8 6) (m.extractLsb' 2 6) (m.extractLsb' 0 2))
  | 2 => some (.xorV h (m.extractLsb' 14 6) (m.extractLsb' 8 6) (m.extractLsb' 2 6) (m.extractLsb' 0 2))
  | 3 => some (.andn h (m.extractLsb' 14 6) (m.extractLsb' 8 6) (m.extractLsb' 2 6) (m.extractLsb' 0 2))
  | 4 => some (.notV h (m.extractLsb' 14 6) (m.extractLsb' 8 6) (m.extractLsb' 0 2))
  | 5 => some (.bfn h (m.extractLsb' 14 6) (m.extractLsb' 8 6) (m.extractLsb' 2 6) (m.extractLsb' 0 2))
  | 6 => some (.shlV h (m.extractLsb' 14 6) (m.extractLsb' 8 6) (m.extractLsb' 2 6) (m.extractLsb' 0 2))
  | 7 => some (.shrV h (m.extractLsb' 14 6) (m.extractLsb' 8 6) (m.extractLsb' 2 6) (m.extractLsb' 0 2))
  | 8 => some (.sarV h (m.extractLsb' 14 6) (m.extractLsb' 8 6) (m.extractLsb' 2 6) (m.extractLsb' 0 2))
  | 9 => some (.rotl h (m.extractLsb' 14 6) (m.extractLsb' 8 6) (m.extractLsb' 2 6) (m.extractLsb' 0 2))
  | 10 => some (.bfx h (m.extractLsb' 14 6) (m.extractLsb' 8 6) (m.extractLsb' 2 6) (m.extractLsb' 0 2))
  | 11 => some (.bfi h (m.extractLsb' 14 6) (m.extractLsb' 8 6) (m.extractLsb' 2 6) (m.extractLsb' 0 2))
  | 12 => some (.popc h (m.extractLsb' 14 6) (m.extractLsb' 8 6) (m.extractLsb' 0 2))
  | 13 => some (.clz h (m.extractLsb' 14 6) (m.extractLsb' 8 6) (m.extractLsb' 0 2))
  | 14 => some (.brev h (m.extractLsb' 14 6) (m.extractLsb' 8 6) (m.extractLsb' 0 2))
  | 15 => some (.bperm h (m.extractLsb' 14 6) (m.extractLsb' 8 6) (m.extractLsb' 2 6) (m.extractLsb' 0 2))
  | _ => none

/-- OPs 0x60 to 0x6F (R157). -/
def build6 (lo : Nat) (h : Hdr) (m : W32) : Option Instr :=
  match lo with
  | 0 => some (.iseteq h (m.extractLsb' 14 6) (m.extractLsb' 8 6) (m.extractLsb' 2 6) (m.extractLsb' 0 2))
  | 1 => some (.isetne h (m.extractLsb' 14 6) (m.extractLsb' 8 6) (m.extractLsb' 2 6) (m.extractLsb' 0 2))
  | 2 => some (.isetlts h (m.extractLsb' 14 6) (m.extractLsb' 8 6) (m.extractLsb' 2 6) (m.extractLsb' 0 2))
  | 3 => some (.isetltn h (m.extractLsb' 14 6) (m.extractLsb' 8 6) (m.extractLsb' 2 6) (m.extractLsb' 0 2))
  | 4 => some (.isetles h (m.extractLsb' 14 6) (m.extractLsb' 8 6) (m.extractLsb' 2 6) (m.extractLsb' 0 2))
  | 5 => some (.isetlen h (m.extractLsb' 14 6) (m.extractLsb' 8 6) (m.extractLsb' 2 6) (m.extractLsb' 0 2))
  | 6 => some (.selV h (m.extractLsb' 14 6) (m.extractLsb' 8 6) (m.extractLsb' 2 6) (m.extractLsb' 0 2))
  | 7 => some (.movV h (m.extractLsb' 14 6) (m.extractLsb' 8 6) (m.extractLsb' 0 2))
  | 8 => some (.iaddu h (m.extractLsb' 14 6) (m.extractLsb' 8 6) (m.extractLsb' 0 7))
  | 9 => some (.isubu h (m.extractLsb' 14 6) (m.extractLsb' 8 6) (m.extractLsb' 0 7))
  | 10 => some (.imulu h (m.extractLsb' 14 6) (m.extractLsb' 8 6) (m.extractLsb' 0 7))
  | 11 => some (.shlu h (m.extractLsb' 14 6) (m.extractLsb' 8 6) (m.extractLsb' 0 7))
  | 12 => some (.shru h (m.extractLsb' 14 6) (m.extractLsb' 8 6) (m.extractLsb' 0 7))
  | 13 => some (.andu h (m.extractLsb' 14 6) (m.extractLsb' 8 6) (m.extractLsb' 0 7))
  | 14 => some (.oru h (m.extractLsb' 14 6) (m.extractLsb' 8 6) (m.extractLsb' 0 7))
  | 15 => some (.xoru h (m.extractLsb' 14 6) (m.extractLsb' 8 6) (m.extractLsb' 0 7))
  | _ => none

/-- OPs 0x70 to 0x7F (R157). -/
def build7 (lo : Nat) (h : Hdr) (m : W32) : Option Instr :=
  match lo with
  | 0 => some (.pand h (m.extractLsb' 14 6) (m.extractLsb' 8 6) (m.extractLsb' 2 6))
  | 1 => some (.por h (m.extractLsb' 14 6) (m.extractLsb' 8 6) (m.extractLsb' 2 6))
  | 2 => some (.pxor h (m.extractLsb' 14 6) (m.extractLsb' 8 6) (m.extractLsb' 2 6))
  | 3 => some (.pnot h (m.extractLsb' 14 6) (m.extractLsb' 8 6))
  | 4 => some (.pmov h (m.extractLsb' 14 6) (m.extractLsb' 8 6) (m.extractLsb' 2 6))
  | 5 => some (.lea h (m.extractLsb' 14 6) (m.extractLsb' 8 6) (m.extractLsb' 2 6))
  | 6 => some (.imovi h (m.extractLsb' 14 6) (m.extractLsb' 0 8))
  | 7 => some (.iaddi h (m.extractLsb' 14 6) (m.extractLsb' 8 6) (m.extractLsb' 0 8))
  | 8 => some (.andi h (m.extractLsb' 14 6) (m.extractLsb' 8 6) (m.extractLsb' 0 8))
  | 9 => some (.ori h (m.extractLsb' 14 6) (m.extractLsb' 8 6) (m.extractLsb' 0 8))
  | 10 => some (.shli h (m.extractLsb' 14 6) (m.extractLsb' 8 6) (m.extractLsb' 0 8))
  | 11 => some (.shri h (m.extractLsb' 14 6) (m.extractLsb' 8 6) (m.extractLsb' 0 8))
  | 12 => some (.sari h (m.extractLsb' 14 6) (m.extractLsb' 8 6) (m.extractLsb' 0 8))
  | 13 => some (.iseteqi h (m.extractLsb' 14 6) (m.extractLsb' 8 6) (m.extractLsb' 0 8))
  | 14 => some (.isetlti h (m.extractLsb' 14 6) (m.extractLsb' 8 6) (m.extractLsb' 0 8))
  | _ => none

/-- OPs 0x80 to 0x8F (R157). -/
def build8 (lo : Nat) (h : Hdr) (m : W32) : Option Instr :=
  match lo with
  | 0 => some (.fadd h (m.extractLsb' 14 6) (m.extractLsb' 8 6) (m.extractLsb' 2 6) (m.extractLsb' 0 2))
  | 1 => some (.fsub h (m.extractLsb' 14 6) (m.extractLsb' 8 6) (m.extractLsb' 2 6) (m.extractLsb' 0 2))
  | 2 => some (.fmul h (m.extractLsb' 14 6) (m.extractLsb' 8 6) (m.extractLsb' 2 6) (m.extractLsb' 0 2))
  | 3 => some (.fma h (m.extractLsb' 14 6) (m.extractLsb' 8 6) (m.extractLsb' 2 6) (m.extractLsb' 0 2))
  | 4 => some (.fms h (m.extractLsb' 14 6) (m.extractLsb' 8 6) (m.extractLsb' 2 6) (m.extractLsb' 0 2))
  | 5 => some (.fnma h (m.extractLsb' 14 6) (m.extractLsb' 8 6) (m.extractLsb' 2 6) (m.extractLsb' 0 2))
  | 6 => some (.fdiv h (m.extractLsb' 14 6) (m.extractLsb' 8 6) (m.extractLsb' 2 6) (m.extractLsb' 0 2))
  | 7 => some (.fsqrt h (m.extractLsb' 14 6) (m.extractLsb' 8 6) (m.extractLsb' 0 2))
  | 8 => some (.frsq h (m.extractLsb' 14 6) (m.extractLsb' 8 6) (m.extractLsb' 0 2))
  | 9 => some (.frcp h (m.extractLsb' 14 6) (m.extractLsb' 8 6) (m.extractLsb' 0 2))
  | 10 => some (.fmin h (m.extractLsb' 14 6) (m.extractLsb' 8 6) (m.extractLsb' 2 6) (m.extractLsb' 0 2))
  | 11 => some (.fmax h (m.extractLsb' 14 6) (m.extractLsb' 8 6) (m.extractLsb' 2 6) (m.extractLsb' 0 2))
  | 12 => some (.fminnum h (m.extractLsb' 14 6) (m.extractLsb' 8 6) (m.extractLsb' 2 6) (m.extractLsb' 0 2))
  | 13 => some (.fmaxnum h (m.extractLsb' 14 6) (m.extractLsb' 8 6) (m.extractLsb' 2 6) (m.extractLsb' 0 2))
  | 14 => some (.fabs h (m.extractLsb' 14 6) (m.extractLsb' 8 6) (m.extractLsb' 0 2))
  | 15 => some (.fneg h (m.extractLsb' 14 6) (m.extractLsb' 8 6) (m.extractLsb' 0 2))
  | _ => none

/-- OPs 0x90 to 0x9F (R157). -/
def build9 (lo : Nat) (h : Hdr) (m : W32) : Option Instr :=
  match lo with
  | 0 => some (.fseteq h (m.extractLsb' 14 6) (m.extractLsb' 8 6) (m.extractLsb' 2 6) (m.extractLsb' 0 2))
  | 1 => some (.fsetne h (m.extractLsb' 14 6) (m.extractLsb' 8 6) (m.extractLsb' 2 6) (m.extractLsb' 0 2))
  | 2 => some (.fsetlt h (m.extractLsb' 14 6) (m.extractLsb' 8 6) (m.extractLsb' 2 6) (m.extractLsb' 0 2))
  | 3 => some (.fsetle h (m.extractLsb' 14 6) (m.extractLsb' 8 6) (m.extractLsb' 2 6) (m.extractLsb' 0 2))
  | 4 => some (.fsetun h (m.extractLsb' 14 6) (m.extractLsb' 8 6) (m.extractLsb' 2 6) (m.extractLsb' 0 2))
  | 5 => if field m 2 6 == 1 then some (.fclassGetfx h (m.extractLsb' 14 6))
      else if field m 2 6 == 2 then some (.fclassSetfx h (m.extractLsb' 8 6))
      else some (.fclass h (m.extractLsb' 14 6) (m.extractLsb' 8 6) (m.extractLsb' 0 2))
  | 6 => some (.fexp2 h (m.extractLsb' 14 6) (m.extractLsb' 8 6) (m.extractLsb' 0 2))
  | 7 => some (.flog2 h (m.extractLsb' 14 6) (m.extractLsb' 8 6) (m.extractLsb' 0 2))
  | 8 => some (.fsin h (m.extractLsb' 14 6) (m.extractLsb' 8 6) (m.extractLsb' 0 2))
  | 9 => some (.fcos h (m.extractLsb' 14 6) (m.extractLsb' 8 6) (m.extractLsb' 0 2))
  | 10 => some (.ftanh h (m.extractLsb' 14 6) (m.extractLsb' 8 6) (m.extractLsb' 0 2))
  | 11 => some (.fscale h (m.extractLsb' 14 6) (m.extractLsb' 8 6) (m.extractLsb' 2 6) (m.extractLsb' 0 2))
  | 12 => some (.frint h (m.extractLsb' 14 6) (m.extractLsb' 8 6) (m.extractLsb' 0 2))
  | 13 => some (.fcopysign h (m.extractLsb' 14 6) (m.extractLsb' 8 6) (m.extractLsb' 2 6) (m.extractLsb' 0 2))
  | 14 => some (.faddu h (m.extractLsb' 14 6) (m.extractLsb' 8 6) (m.extractLsb' 0 7))
  | 15 => some (.fmulu h (m.extractLsb' 14 6) (m.extractLsb' 8 6) (m.extractLsb' 0 7))
  | _ => none

/-- OPs 0xA0 to 0xAF (R157). -/
def buildA (lo : Nat) (h : Hdr) (m : W32) : Option Instr :=
  match lo with
  | 0 => some (.cadd h (m.extractLsb' 14 6) (m.extractLsb' 8 6) (m.extractLsb' 2 6))
  | 1 => some (.csub h (m.extractLsb' 14 6) (m.extractLsb' 8 6) (m.extractLsb' 2 6))
  | 2 => some (.cmul h (m.extractLsb' 14 6) (m.extractLsb' 8 6) (m.extractLsb' 2 6))
  | 3 => some (.cfma h (m.extractLsb' 14 6) (m.extractLsb' 8 6) (m.extractLsb' 2 6))
  | 4 => some (.cconj h (m.extractLsb' 14 6) (m.extractLsb' 8 6))
  | 5 => some (.cnorm h (m.extractLsb' 14 6) (m.extractLsb' 8 6))
  | 6 => some (.hadd2 h (m.extractLsb' 14 6) (m.extractLsb' 8 6) (m.extractLsb' 2 6) (m.extractLsb' 0 2))
  | 7 => some (.hmul2 h (m.extractLsb' 14 6) (m.extractLsb' 8 6) (m.extractLsb' 2 6) (m.extractLsb' 0 2))
  | 8 => some (.hfma2 h (m.extractLsb' 14 6) (m.extractLsb' 8 6) (m.extractLsb' 2 6) (m.extractLsb' 0 2))
  | 9 => some (.hmin2 h (m.extractLsb' 14 6) (m.extractLsb' 8 6) (m.extractLsb' 2 6) (m.extractLsb' 0 2))
  | 10 => some (.hmax2 h (m.extractLsb' 14 6) (m.extractLsb' 8 6) (m.extractLsb' 2 6) (m.extractLsb' 0 2))
  | 11 => some (.fdot2 h (m.extractLsb' 14 6) (m.extractLsb' 8 6) (m.extractLsb' 2 6) (m.extractLsb' 0 2))
  | 12 => some (.fdot4 h (m.extractLsb' 14 6) (m.extractLsb' 8 6) (m.extractLsb' 2 6) (m.extractLsb' 0 2))
  | 13 => some (.fmau h (m.extractLsb' 14 6) (m.extractLsb' 8 6) (m.extractLsb' 0 7))
  | 14 => some (.fmovi h (m.extractLsb' 14 6) (m.extractLsb' 0 8))
  | _ => none

/-- OPs 0xC0 to 0xCF (R157). -/
def buildC (lo : Nat) (h : Hdr) (m : W32) : Option Instr :=
  match lo with
  | 0 => some (.cvt h (m.extractLsb' 14 6) (m.extractLsb' 8 6) (m.extractLsb' 4 4) (m.extractLsb' 0 4))
  | 1 => some (.cvtf2i h (m.extractLsb' 14 6) (m.extractLsb' 8 6) (m.extractLsb' 4 4) (m.extractLsb' 0 4))
  | 2 => some (.cvti2f h (m.extractLsb' 14 6) (m.extractLsb' 8 6) (m.extractLsb' 4 4) (m.extractLsb' 0 4))
  | 3 => some (.cvti2i h (m.extractLsb' 14 6) (m.extractLsb' 8 6) (m.extractLsb' 4 4) (m.extractLsb' 0 4))
  | 4 => some (.cvtpack h (m.extractLsb' 14 6) (m.extractLsb' 8 6) (m.extractLsb' 4 4) (m.extractLsb' 0 4))
  | 5 => some (.cvtunpack h (m.extractLsb' 14 6) (m.extractLsb' 8 6) (m.extractLsb' 4 4) (m.extractLsb' 0 4))
  | 6 => some (.cvtmx h (m.extractLsb' 14 6) (m.extractLsb' 8 6) (m.extractLsb' 4 4) (m.extractLsb' 0 4))
  | 7 => some (.cvtsort h (m.extractLsb' 14 6) (m.extractLsb' 8 6) (m.extractLsb' 4 4) (m.extractLsb' 0 4))
  | 8 => some (.cvtdq h (m.extractLsb' 14 6) (m.extractLsb' 8 6) (m.extractLsb' 4 4) (m.extractLsb' 0 4))
  | _ => none

/-- OPs 0xD0 to 0xDF (R157). -/
def buildD (lo : Nat) (h : Hdr) (m : W32) : Option Instr :=
  match lo with
  | 0 => some (.xli h (m.extractLsb' 14 6) (m.extractLsb' 8 6) (m.extractLsb' 2 6) (m.extractLsb' 0 2))
  | 1 => some (.xlr h (m.extractLsb' 14 6) (m.extractLsb' 8 6) (m.extractLsb' 0 2))
  | 2 => some (.xlf h (m.extractLsb' 14 6) (m.extractLsb' 8 6) (m.extractLsb' 0 2))
  | 3 => some (.xlb h (m.extractLsb' 14 6) (m.extractLsb' 8 6) (m.extractLsb' 0 2))
  | 4 => some (.pcnt h (m.extractLsb' 14 6) (m.extractLsb' 8 6) (m.extractLsb' 2 6))
  | 5 => some (.pmask h (m.extractLsb' 8 6))
  | 6 => some (.pfirst h (m.extractLsb' 14 6) (m.extractLsb' 8 6))
  | 7 => some (.redadd h (m.extractLsb' 14 6) (m.extractLsb' 8 6) (m.extractLsb' 0 2))
  | 8 => some (.redmin h (m.extractLsb' 14 6) (m.extractLsb' 8 6) (m.extractLsb' 0 2))
  | 9 => some (.redmax h (m.extractLsb' 14 6) (m.extractLsb' 8 6) (m.extractLsb' 0 2))
  | 10 => some (.scanadd h (m.extractLsb' 14 6) (m.extractLsb' 8 6) (m.extractLsb' 0 2))
  | 11 => some (.split h (m.extractLsb' 13 7) (m.extractLsb' 0 6))
  | 12 => if m.getLsbD 0 then some (.fuseWait h (m.extractLsb' 13 7) (m.extractLsb' 6 7))
      else some (.fuse h (m.extractLsb' 13 7))
  | 13 => some (.wait h (m.extractLsb' 15 5) (m.extractLsb' 10 5) (m.extractLsb' 5 5) (m.extractLsb' 0 5))
  | 14 => some (.tbar h (m.extractLsb' 6 7) (m.extractLsb' 0 3))
  | 15 => some (.xleq h (m.extractLsb' 14 6) (m.extractLsb' 8 6) (m.extractLsb' 0 2))
  | _ => none

/-- OPs 0xE0 to 0xEF (R157). -/
def buildE (lo : Nat) (h : Hdr) (m : W32) : Option Instr :=
  match lo with
  | 0 => some (.ld h (m.extractLsb' 14 6) (m.extractLsb' 8 6) (m.extractLsb' 2 6) (m.extractLsb' 0 2))
  | 1 => some (.st h (m.extractLsb' 14 6) (m.extractLsb' 8 6) (m.extractLsb' 2 6) (m.extractLsb' 0 2))
  | 2 => some (.ldu h (m.extractLsb' 14 6) (m.extractLsb' 8 6) (m.extractLsb' 0 2))
  | 3 => some (.stu h (m.extractLsb' 14 6) (m.extractLsb' 8 6) (m.extractLsb' 0 2))
  | 4 => some (.atom h (m.extractLsb' 14 6) (m.extractLsb' 8 6) (m.extractLsb' 2 6) (m.extractLsb' 0 2))
  | 5 => some (.red h (m.extractLsb' 14 6) (m.extractLsb' 8 6) (m.extractLsb' 2 6) (m.extractLsb' 0 2))
  | 6 => some (.cas h (m.extractLsb' 14 6) (m.extractLsb' 8 6) (m.extractLsb' 2 6) (m.extractLsb' 0 1))
  | 7 => some (.pfetch h (m.extractLsb' 8 6) (m.extractLsb' 2 6) (m.extractLsb' 0 2))
  | 8 => match h.mmod with
      | some p => if p.ord == 1 then some (.fenceAcq h) else some (.fenceRel h)
      | none => none
  | 9 => some (.cflush h (m.extractLsb' 13 7) (m.extractLsb' 6 7) (m.extractLsb' 0 6))
  | _ => none

/-- OPs 0xF0 to 0xFF (R157). -/
def buildF (lo : Nat) (h : Hdr) (m : W32) : Option Instr :=
  match lo with
  | 0 => some (.mma h (m.extractLsb' 13 7) (m.extractLsb' 6 7) (m.extractLsb' 5 1) (m.extractLsb' 4 1) (m.extractLsb' 3 1) (m.extractLsb' 2 1))
  | 1 => some (.mmaGang h (m.extractLsb' 13 7) (m.extractLsb' 6 7) (m.extractLsb' 5 1) (m.extractLsb' 4 1) (m.extractLsb' 3 1) (m.extractLsb' 2 1))
  | 2 => if field m 3 2 == 0 then some (.mtileZero h (m.extractLsb' 13 7))
      else if field m 3 2 == 1 then some (.mtileSt h (m.extractLsb' 13 7) (m.extractLsb' 6 7) (m.extractLsb' 5 1) (m.extractLsb' 0 3))
      else some (.mtileLd h (m.extractLsb' 13 7) (m.extractLsb' 6 7) (m.extractLsb' 0 3))
  | 3 => if m.getLsbD 0 then some (.mstatClr h (m.extractLsb' 13 7))
      else some (.mstat h (m.extractLsb' 13 7))
  | 4 => if m.getLsbD 5 then some (.cpyPromise h (m.extractLsb' 13 7) (m.extractLsb' 6 7) (m.extractLsb' 0 3))
      else some (.cpy h (m.extractLsb' 6 7) (m.extractLsb' 0 3))
  | 5 => some (.waitk h (m.extractLsb' 0 8))
  | 6 => if m.getLsbD 0 then some (.barw h (m.extractLsb' 13 7) (m.extractLsb' 6 7))
      else some (.barx h (m.extractLsb' 13 7) (m.extractLsb' 6 7) (m.extractLsb' 1 1))
  | 7 => if field m 0 2 == 0 then some (.preg h (m.extractLsb' 13 7) (m.extractLsb' 6 7))
      else if field m 0 2 == 1 then some (.pdrop h (m.extractLsb' 13 7) (m.extractLsb' 6 7))
      else some (.pstamp h (m.extractLsb' 13 7) (m.extractLsb' 6 7))
  | _ => none

/-- The instruction of a main word whose checks have passed (R157). -/
def buildInstr (h : Hdr) (m : W32) : Option Instr :=
  match opOf m / 16 with
  | 0 => build0 (opOf m % 16) h m
  | 1 => build1 (opOf m % 16) h m
  | 2 => build2 (opOf m % 16) h m
  | 3 => build3 (opOf m % 16) h m
  | 4 => build4 (opOf m % 16) h m
  | 5 => build5 (opOf m % 16) h m
  | 6 => build6 (opOf m % 16) h m
  | 7 => build7 (opOf m % 16) h m
  | 8 => build8 (opOf m % 16) h m
  | 9 => build9 (opOf m % 16) h m
  | 10 => buildA (opOf m % 16) h m
  | 12 => buildC (opOf m % 16) h m
  | 13 => buildD (opOf m % 16) h m
  | 14 => buildE (opOf m % 16) h m
  | 15 => buildF (opOf m % 16) h m
  | _ => none

/-- A main word with its prefixes and the words after it (R137): the instruction and the number of
words after the prefixes. -/
def decodeMain (m : W32) (rest : List W32) (mm : Option Mmod) (lm : Option Lmod) :
    Except Cause (Instr × Nat) :=
  let op := opOf m
  if 0xFC ≤ op && op ≤ 0xFE then .error .extension
  else if !assigned op then .error .unassigned
  else if (mm.isSome && !acceptsMmod op) || (lm.isSome && !acceptsLmod op) then .error .prefixed
  else
    let xw : Option W32 := match rest with
      | w :: _ => if 0xFC ≤ opOf w && opOf w ≤ 0xFE then some w else none
      | [] => none
    let x : Ext := match xw with | some w => extOf w | none => .none
    let xres : Bool := match xw with | some w => extReserved w | none => false
    let bad : Bool := match xw with | some w => !acceptsExt op (opOf w) | none => false
    if bad then .error .extension
    else if xw.isNone && (requiresRegx op || op == 0xAE) then .error .extension
    else
      let h : Hdr := { c := m.getLsbD 31, g := m.extractLsb' 28 3, lmod := lm, mmod := mm, x := x }
      match checkFields h m xres with
      | some c => .error c
      | none =>
        match buildInstr h m with
        | some i => .ok (i, if xw.isSome then 2 else 1)
        | none => .error .unassigned

/-- The words of a packet from the starting slot on (R137). The words before it are not read. -/
def decodeFrom : List W32 → Option Mmod → Option Lmod → Nat → Except Cause (Instr × Nat)
  | [], _, _, _ => .error .prefixed
  | w :: ws, mm, lm, n =>
    let op := opOf w
    if op == 0xFA || op == 0xFB then .error .unassigned
    else if op == 0xF8 then
      if field w 28 4 != 0 || field w 0 8 != 0 || mmodReserved (mmodOf w) then .error .reserved
      else if mm.isSome || lm.isSome then .error .prefixed
      else decodeFrom ws (some (mmodOf w)) lm (n + 1)
    else if op == 0xF9 then
      if field w 28 4 != 0 || field w 7 12 != 0 || lmodReserved (lmodOf w) then .error .reserved
      else if lm.isSome then .error .prefixed
      else decodeFrom ws mm (some (lmodOf w)) (n + 1)
    else
      match decodeMain w ws mm lm with
      | .ok (i, k) => .ok (i, n + k)
      | .error c => .error c

/-- The instruction that begins with the first of these words, and its length in words. -/
def decodeWords (ws : List W32) : Except Cause (Instr × Nat) := decodeFrom ws none none 0

/-- Four bytes as a little-endian word (R9, R135). -/
def wordOfBytes (a b c d : Byte) : W32 := d ++ c ++ b ++ a

/-- The words in a run of bytes; bytes that do not fill a word are dropped. -/
def wordsOfBytes : List Byte → List W32
  | a :: b :: c :: d :: rest => wordOfBytes a b c d :: wordsOfBytes rest
  | _ => []

/-- The instruction at the start of these bytes of a packet. -/
def decodeBytes (bs : List Byte) : Except Cause (Instr × Nat) := decodeWords (wordsOfBytes bs)

/-- The bytes of a word, lowest address first (R9). -/
def bytesOfWord (w : W32) : List Byte :=
  [w.extractLsb' 0 8, w.extractLsb' 8 8, w.extractLsb' 16 8, w.extractLsb' 24 8]

/-- The words of a packet whose bits are numbered from the first word up. -/
def tableWords (w : Nat) : List W32 :=
  [BitVec.ofNat 32 w, BitVec.ofNat 32 (w / 2 ^ 32), BitVec.ofNat 32 (w / 2 ^ 64)]

/-- The bits of an opcode-table row above its width are zero. -/
def tableBits (nbits w : Nat) : Nat := w % 2 ^ nbits

/-- The instruction the decoder reads from an opcode-table row's bits, laid out in a packet as the
hardware stores them (R135). -/
def decodeTableWord (nbits w : Nat) : Option Instr :=
  match decodeBytes ((tableWords (tableBits nbits w)).flatMap bytesOfWord) with
  | .ok (i, _) => some i
  | .error _ => none

/-! The encoder, from the same tables. -/

/-- A main word from its chain bit, guard, OP and operand fields (R135). -/
def mainOf (h : Hdr) (op : BitVec 8) (low : BitVec 20) : W32 := BitVec.ofBool h.c ++ h.g ++ op ++ low

/-- The main word of an instruction (R135, R145 to R150, R157). -/
def mainWord : Instr → Option W32
  | .deviceReset => none
  | .stageLimitExceeded => none
  | .bootrepStore => none
  | .startokWrite => none
  | .measurementExtend => none
  | .quoteRequest => none
  | .quoteComplete => none
  | .hostQuoteRequest => none
  | .standInClaim => none
  | .standInRelease => none
  | .maintWriteFlash => none
  | .maintResetCounter => none
  | .fmodeWrite => none
  | .fmodeWriteComplete => none
  | .powerLoss => none
  | .powerCapExceeded => none
  | .pwrcapWrite => none
  | .dieStop => none
  | .dieStopHalt => none
  | .dieRestart => none
  | .plcstatUpdate => none
  | .ptpSyncExchange => none
  | .ptpboundWrite => none
  | .registerWrite => none
  | .ctxCreate => none
  | .ctxSetMemdef => none
  | .keySeal => none
  | .keyUnseal => none
  | .launchSubmit => none
  | .launchChecks => none
  | .mailboxSend => none
  | .mailboxConsumed => none
  | .placementStep => none
  | .clusterReserve => none
  | .fetchBlockFill => none
  | .pageWalkEnd => none
  | .walkansWrite => none
  | .acqueryStore => none
  | .shootdownRequest => none
  | .shootdownComplete => none
  | .migrationStart => none
  | .migrationCopy => none
  | .migrationRemap => none
  | .migrationReport => none
  | .miglistWrite => none
  | .rbaseWrite => none
  | .spillFillDone => none
  | .hqbaseWrite => none
  | .cpyansWrite => none
  | .pinstallWrite => none
  | .pdoneWrite => none
  | .loadReturn => none
  | .storeAck => none
  | .atomReply => none
  | .writeArriveHome => none
  | .writeVisible => none
  | .lineFill => none
  | .leaseExpiry => none
  | .redMerge => none
  | .peerPacketExecute => none
  | .peerTimeout => none
  | .hostWrite => none
  | .hostRead => none
  | .storageCompletion => none
  | .copyLineTransfer => none
  | .copyComplete => none
  | .pressOperationCommit => none
  | .gangPartReady => none
  | .gangBoundExpiry => none
  | .mtileEnd => none
  | .proofRecompute => none
  | .releaseComplete => none
  | .sleepWake => none
  | .fuseWaitDeadline => none
  | .groupRetire => none
  | .completionRingSend => none
  | .folioWrite => none
  | .teardown => none
  | .teardownKeyErase => none
  | .softError => none
  | .bellRestart => none
  | .proctorTimerTick => none
  | .proctorInterrupt => none
  | .proctorRunWrite => none
  | .nop => some 0x70000000#32
  | .bra h o s => some (mainOf h 0x01#8 (0#3 ++ o ++ s : BitVec 20))
  | .brd h o s => some (mainOf h 0x02#8 (0#3 ++ o ++ s : BitVec 20))
  | .join h => some (mainOf h 0x03#8 (0#20 : BitVec 20))
  | .call h x o s => some (mainOf h 0x04#8 (x ++ o ++ s : BitVec 20))
  | .ret h => some (mainOf h 0x05#8 (0#20 : BitVec 20))
  | .exit h => some (mainOf h 0x06#8 (0#20 : BitVec 20))
  | .yield h => some (mainOf h 0x07#8 (0#20 : BitVec 20))
  | .sleep h a => some (mainOf h 0x08#8 (0#7 ++ a ++ 0#6 : BitVec 20))
  | .sleepUntil h a b => some (mainOf h 0x09#8 (0#7 ++ a ++ b : BitVec 20))
  | .brx h d a b => some (mainOf h 0x0A#8 (d ++ a ++ b : BitVec 20))
  | .callx h a b => some (mainOf h 0x0B#8 (0#7 ++ a ++ b : BitVec 20))
  | .brk h b => some (mainOf h 0x0C#8 (0#14 ++ b : BitVec 20))
  | .sysc h => some (mainOf h 0x0D#8 (0#20 : BitVec 20))
  | .tret h => some (mainOf h 0x0E#8 (0#20 : BitVec 20))
  | .suspend h d a => some (mainOf h 0x10#8 (d ++ a ++ 0#6 : BitVec 20))
  | .resume h d a => some (mainOf h 0x11#8 (d ++ a ++ 0#6 : BitVec 20))
  | .resumeTry h d a => some (mainOf h 0x11#8 (d ++ a ++ 1#6 : BitVec 20))
  | .fcopy h d a b => some (mainOf h 0x12#8 (d ++ a ++ b : BitVec 20))
  | .fdrop h d a => some (mainOf h 0x13#8 (d ++ a ++ 0#6 : BitVec 20))
  | .getsr h d b => some (mainOf h 0x14#8 (d ++ 0#7 ++ b : BitVec 20))
  | .setsr h a b => some (mainOf h 0x15#8 (0#7 ++ a ++ b : BitVec 20))
  | .svcstart h d a => some (mainOf h 0x16#8 (d ++ a ++ 0#6 : BitVec 20))
  | .svcpark h d a b => some (mainOf h 0x17#8 (d ++ a ++ b : BitVec 20))
  | .launch h d a => some (mainOf h 0x18#8 (d ++ a ++ 0#6 : BitVec 20))
  | .spawn h d a => some (mainOf h 0x19#8 (d ++ a ++ 0#6 : BitVec 20))
  | .mbsend h d a b => some (mainOf h 0x1A#8 (d ++ a ++ b : BitVec 20))
  | .mbrecv h d a => some (mainOf h 0x1B#8 (d ++ a ++ 0#6 : BitVec 20))
  | .mbrecvW h d a => some (mainOf h 0x1B#8 (d ++ a ++ 1#6 : BitVec 20))
  | .place h d a b => some (mainOf h 0x1C#8 (d ++ a ++ b : BitVec 20))
  | .hqtake h d a b => some (mainOf h 0x1D#8 (d ++ 0#1 ++ a ++ b : BitVec 20))
  | .hqtakeW h d a b => some (mainOf h 0x1D#8 (d ++ 1#1 ++ a ++ b : BitVec 20))
  | .hqdone h d a => some (mainOf h 0x1E#8 (d ++ a ++ 0#6 : BitVec 20))
  | .uadd h d a b => some (mainOf h 0x20#8 (d ++ a ++ b : BitVec 20))
  | .usub h d a b => some (mainOf h 0x21#8 (d ++ a ++ b : BitVec 20))
  | .umul h d a b => some (mainOf h 0x22#8 (d ++ a ++ b : BitVec 20))
  | .umulhs h d a b => some (mainOf h 0x23#8 (d ++ a ++ b : BitVec 20))
  | .umulhn h d a b => some (mainOf h 0x24#8 (d ++ a ++ b : BitVec 20))
  | .uand h d a b => some (mainOf h 0x25#8 (d ++ a ++ b : BitVec 20))
  | .uor h d a b => some (mainOf h 0x26#8 (d ++ a ++ b : BitVec 20))
  | .uxor h d a b => some (mainOf h 0x27#8 (d ++ a ++ b : BitVec 20))
  | .ushl h d a b => some (mainOf h 0x28#8 (d ++ a ++ b : BitVec 20))
  | .ushr h d a b => some (mainOf h 0x29#8 (d ++ a ++ b : BitVec 20))
  | .usar h d a b => some (mainOf h 0x2A#8 (d ++ a ++ b : BitVec 20))
  | .umins h d a b => some (mainOf h 0x2B#8 (d ++ a ++ b : BitVec 20))
  | .uminn h d a b => some (mainOf h 0x2C#8 (d ++ a ++ b : BitVec 20))
  | .umaxs h d a b => some (mainOf h 0x2D#8 (d ++ a ++ b : BitVec 20))
  | .umaxn h d a b => some (mainOf h 0x2E#8 (d ++ a ++ b : BitVec 20))
  | .usel h d a b => some (mainOf h 0x2F#8 (d ++ a ++ b : BitVec 20))
  | .uaddi h d a i => some (mainOf h 0x30#8 (d ++ a ++ i : BitVec 20))
  | .uandi h d a i => some (mainOf h 0x31#8 (d ++ a ++ i : BitVec 20))
  | .uori h d a i => some (mainOf h 0x32#8 (d ++ a ++ i : BitVec 20))
  | .uxori h d a i => some (mainOf h 0x33#8 (d ++ a ++ i : BitVec 20))
  | .ushli h d a i => some (mainOf h 0x34#8 (d ++ a ++ i : BitVec 20))
  | .ushri h d a i => some (mainOf h 0x35#8 (d ++ a ++ i : BitVec 20))
  | .usari h d a i => some (mainOf h 0x36#8 (d ++ a ++ i : BitVec 20))
  | .useq h d a b => some (mainOf h 0x37#8 (d ++ a ++ b : BitVec 20))
  | .usne h d a b => some (mainOf h 0x38#8 (d ++ a ++ b : BitVec 20))
  | .uslts h d a b => some (mainOf h 0x39#8 (d ++ a ++ b : BitVec 20))
  | .usltn h d a b => some (mainOf h 0x3A#8 (d ++ a ++ b : BitVec 20))
  | .ubfx h d a b => some (mainOf h 0x3B#8 (d ++ a ++ b : BitVec 20))
  | .umovi h d i => some (mainOf h 0x3C#8 (d ++ 0#6 ++ i : BitVec 20))
  | .urdlane h d a b => some (mainOf h 0x3D#8 (d ++ a ++ b : BitVec 20))
  | .upopc h d a => some (mainOf h 0x3E#8 (d ++ a ++ 0#6 : BitVec 20))
  | .uclz h d a => some (mainOf h 0x3F#8 (d ++ a ++ 0#6 : BitVec 20))
  | .iadd h d a b t => some (mainOf h 0x40#8 (d ++ a ++ b ++ t : BitVec 20))
  | .isub h d a b t => some (mainOf h 0x41#8 (d ++ a ++ b ++ t : BitVec 20))
  | .imul h d a b t => some (mainOf h 0x42#8 (d ++ a ++ b ++ t : BitVec 20))
  | .imulhs h d a b t => some (mainOf h 0x43#8 (d ++ a ++ b ++ t : BitVec 20))
  | .imulhn h d a b t => some (mainOf h 0x44#8 (d ++ a ++ b ++ t : BitVec 20))
  | .imad h d a b t => some (mainOf h 0x45#8 (d ++ a ++ b ++ t : BitVec 20))
  | .iaddss h d a b t => some (mainOf h 0x46#8 (d ++ a ++ b ++ t : BitVec 20))
  | .iaddsn h d a b t => some (mainOf h 0x47#8 (d ++ a ++ b ++ t : BitVec 20))
  | .isubss h d a b t => some (mainOf h 0x48#8 (d ++ a ++ b ++ t : BitVec 20))
  | .isubsn h d a b t => some (mainOf h 0x49#8 (d ++ a ++ b ++ t : BitVec 20))
  | .imins h d a b t => some (mainOf h 0x4A#8 (d ++ a ++ b ++ t : BitVec 20))
  | .iminn h d a b t => some (mainOf h 0x4B#8 (d ++ a ++ b ++ t : BitVec 20))
  | .imaxs h d a b t => some (mainOf h 0x4C#8 (d ++ a ++ b ++ t : BitVec 20))
  | .imaxn h d a b t => some (mainOf h 0x4D#8 (d ++ a ++ b ++ t : BitVec 20))
  | .iabs h d a t => some (mainOf h 0x4E#8 (d ++ a ++ 0#6 ++ t : BitVec 20))
  | .ineg h d a t => some (mainOf h 0x4F#8 (d ++ a ++ 0#6 ++ t : BitVec 20))
  | .andV h d a b t => some (mainOf h 0x50#8 (d ++ a ++ b ++ t : BitVec 20))
  | .orV h d a b t => some (mainOf h 0x51#8 (d ++ a ++ b ++ t : BitVec 20))
  | .xorV h d a b t => some (mainOf h 0x52#8 (d ++ a ++ b ++ t : BitVec 20))
  | .andn h d a b t => some (mainOf h 0x53#8 (d ++ a ++ b ++ t : BitVec 20))
  | .notV h d a t => some (mainOf h 0x54#8 (d ++ a ++ 0#6 ++ t : BitVec 20))
  | .bfn h d a b t => some (mainOf h 0x55#8 (d ++ a ++ b ++ t : BitVec 20))
  | .shlV h d a b t => some (mainOf h 0x56#8 (d ++ a ++ b ++ t : BitVec 20))
  | .shrV h d a b t => some (mainOf h 0x57#8 (d ++ a ++ b ++ t : BitVec 20))
  | .sarV h d a b t => some (mainOf h 0x58#8 (d ++ a ++ b ++ t : BitVec 20))
  | .rotl h d a b t => some (mainOf h 0x59#8 (d ++ a ++ b ++ t : BitVec 20))
  | .bfx h d a b t => some (mainOf h 0x5A#8 (d ++ a ++ b ++ t : BitVec 20))
  | .bfi h d a b t => some (mainOf h 0x5B#8 (d ++ a ++ b ++ t : BitVec 20))
  | .popc h d a t => some (mainOf h 0x5C#8 (d ++ a ++ 0#6 ++ t : BitVec 20))
  | .clz h d a t => some (mainOf h 0x5D#8 (d ++ a ++ 0#6 ++ t : BitVec 20))
  | .brev h d a t => some (mainOf h 0x5E#8 (d ++ a ++ 0#6 ++ t : BitVec 20))
  | .bperm h d a b t => some (mainOf h 0x5F#8 (d ++ a ++ b ++ t : BitVec 20))
  | .iseteq h d a b t => some (mainOf h 0x60#8 (d ++ a ++ b ++ t : BitVec 20))
  | .isetne h d a b t => some (mainOf h 0x61#8 (d ++ a ++ b ++ t : BitVec 20))
  | .isetlts h d a b t => some (mainOf h 0x62#8 (d ++ a ++ b ++ t : BitVec 20))
  | .isetltn h d a b t => some (mainOf h 0x63#8 (d ++ a ++ b ++ t : BitVec 20))
  | .isetles h d a b t => some (mainOf h 0x64#8 (d ++ a ++ b ++ t : BitVec 20))
  | .isetlen h d a b t => some (mainOf h 0x65#8 (d ++ a ++ b ++ t : BitVec 20))
  | .selV h d a b t => some (mainOf h 0x66#8 (d ++ a ++ b ++ t : BitVec 20))
  | .movV h d a t => some (mainOf h 0x67#8 (d ++ a ++ 0#6 ++ t : BitVec 20))
  | .iaddu h d a b => some (mainOf h 0x68#8 (d ++ a ++ 0#1 ++ b : BitVec 20))
  | .isubu h d a b => some (mainOf h 0x69#8 (d ++ a ++ 0#1 ++ b : BitVec 20))
  | .imulu h d a b => some (mainOf h 0x6A#8 (d ++ a ++ 0#1 ++ b : BitVec 20))
  | .shlu h d a b => some (mainOf h 0x6B#8 (d ++ a ++ 0#1 ++ b : BitVec 20))
  | .shru h d a b => some (mainOf h 0x6C#8 (d ++ a ++ 0#1 ++ b : BitVec 20))
  | .andu h d a b => some (mainOf h 0x6D#8 (d ++ a ++ 0#1 ++ b : BitVec 20))
  | .oru h d a b => some (mainOf h 0x6E#8 (d ++ a ++ 0#1 ++ b : BitVec 20))
  | .xoru h d a b => some (mainOf h 0x6F#8 (d ++ a ++ 0#1 ++ b : BitVec 20))
  | .pand h d a b => some (mainOf h 0x70#8 (d ++ a ++ b ++ 0#2 : BitVec 20))
  | .por h d a b => some (mainOf h 0x71#8 (d ++ a ++ b ++ 0#2 : BitVec 20))
  | .pxor h d a b => some (mainOf h 0x72#8 (d ++ a ++ b ++ 0#2 : BitVec 20))
  | .pnot h d a => some (mainOf h 0x73#8 (d ++ a ++ 0#8 : BitVec 20))
  | .pmov h d a b => some (mainOf h 0x74#8 (d ++ a ++ b ++ 0#2 : BitVec 20))
  | .lea h d a b => some (mainOf h 0x75#8 (d ++ a ++ b ++ 0#2 : BitVec 20))
  | .imovi h d i => some (mainOf h 0x76#8 (d ++ 0#6 ++ i : BitVec 20))
  | .iaddi h d a i => some (mainOf h 0x77#8 (d ++ a ++ i : BitVec 20))
  | .andi h d a i => some (mainOf h 0x78#8 (d ++ a ++ i : BitVec 20))
  | .ori h d a i => some (mainOf h 0x79#8 (d ++ a ++ i : BitVec 20))
  | .shli h d a i => some (mainOf h 0x7A#8 (d ++ a ++ i : BitVec 20))
  | .shri h d a i => some (mainOf h 0x7B#8 (d ++ a ++ i : BitVec 20))
  | .sari h d a i => some (mainOf h 0x7C#8 (d ++ a ++ i : BitVec 20))
  | .iseteqi h d a i => some (mainOf h 0x7D#8 (d ++ a ++ i : BitVec 20))
  | .isetlti h d a i => some (mainOf h 0x7E#8 (d ++ a ++ i : BitVec 20))
  | .fadd h d a b t => some (mainOf h 0x80#8 (d ++ a ++ b ++ t : BitVec 20))
  | .fsub h d a b t => some (mainOf h 0x81#8 (d ++ a ++ b ++ t : BitVec 20))
  | .fmul h d a b t => some (mainOf h 0x82#8 (d ++ a ++ b ++ t : BitVec 20))
  | .fma h d a b t => some (mainOf h 0x83#8 (d ++ a ++ b ++ t : BitVec 20))
  | .fms h d a b t => some (mainOf h 0x84#8 (d ++ a ++ b ++ t : BitVec 20))
  | .fnma h d a b t => some (mainOf h 0x85#8 (d ++ a ++ b ++ t : BitVec 20))
  | .fdiv h d a b t => some (mainOf h 0x86#8 (d ++ a ++ b ++ t : BitVec 20))
  | .fsqrt h d a t => some (mainOf h 0x87#8 (d ++ a ++ 0#6 ++ t : BitVec 20))
  | .frsq h d a t => some (mainOf h 0x88#8 (d ++ a ++ 0#6 ++ t : BitVec 20))
  | .frcp h d a t => some (mainOf h 0x89#8 (d ++ a ++ 0#6 ++ t : BitVec 20))
  | .fmin h d a b t => some (mainOf h 0x8A#8 (d ++ a ++ b ++ t : BitVec 20))
  | .fmax h d a b t => some (mainOf h 0x8B#8 (d ++ a ++ b ++ t : BitVec 20))
  | .fminnum h d a b t => some (mainOf h 0x8C#8 (d ++ a ++ b ++ t : BitVec 20))
  | .fmaxnum h d a b t => some (mainOf h 0x8D#8 (d ++ a ++ b ++ t : BitVec 20))
  | .fabs h d a t => some (mainOf h 0x8E#8 (d ++ a ++ 0#6 ++ t : BitVec 20))
  | .fneg h d a t => some (mainOf h 0x8F#8 (d ++ a ++ 0#6 ++ t : BitVec 20))
  | .fseteq h d a b t => some (mainOf h 0x90#8 (d ++ a ++ b ++ t : BitVec 20))
  | .fsetne h d a b t => some (mainOf h 0x91#8 (d ++ a ++ b ++ t : BitVec 20))
  | .fsetlt h d a b t => some (mainOf h 0x92#8 (d ++ a ++ b ++ t : BitVec 20))
  | .fsetle h d a b t => some (mainOf h 0x93#8 (d ++ a ++ b ++ t : BitVec 20))
  | .fsetun h d a b t => some (mainOf h 0x94#8 (d ++ a ++ b ++ t : BitVec 20))
  | .fclass h d a t => some (mainOf h 0x95#8 (d ++ a ++ 0#6 ++ t : BitVec 20))
  | .fclassGetfx h d => some (mainOf h 0x95#8 (d ++ 6#14 : BitVec 20))
  | .fclassSetfx h a => some (mainOf h 0x95#8 (0#6 ++ a ++ 10#8 : BitVec 20))
  | .fexp2 h d a t => some (mainOf h 0x96#8 (d ++ a ++ 0#6 ++ t : BitVec 20))
  | .flog2 h d a t => some (mainOf h 0x97#8 (d ++ a ++ 0#6 ++ t : BitVec 20))
  | .fsin h d a t => some (mainOf h 0x98#8 (d ++ a ++ 0#6 ++ t : BitVec 20))
  | .fcos h d a t => some (mainOf h 0x99#8 (d ++ a ++ 0#6 ++ t : BitVec 20))
  | .ftanh h d a t => some (mainOf h 0x9A#8 (d ++ a ++ 0#6 ++ t : BitVec 20))
  | .fscale h d a b t => some (mainOf h 0x9B#8 (d ++ a ++ b ++ t : BitVec 20))
  | .frint h d a t => some (mainOf h 0x9C#8 (d ++ a ++ 0#6 ++ t : BitVec 20))
  | .fcopysign h d a b t => some (mainOf h 0x9D#8 (d ++ a ++ b ++ t : BitVec 20))
  | .faddu h d a b => some (mainOf h 0x9E#8 (d ++ a ++ 0#1 ++ b : BitVec 20))
  | .fmulu h d a b => some (mainOf h 0x9F#8 (d ++ a ++ 0#1 ++ b : BitVec 20))
  | .cadd h d a b => some (mainOf h 0xA0#8 (d ++ a ++ b ++ 0#2 : BitVec 20))
  | .csub h d a b => some (mainOf h 0xA1#8 (d ++ a ++ b ++ 0#2 : BitVec 20))
  | .cmul h d a b => some (mainOf h 0xA2#8 (d ++ a ++ b ++ 0#2 : BitVec 20))
  | .cfma h d a b => some (mainOf h 0xA3#8 (d ++ a ++ b ++ 0#2 : BitVec 20))
  | .cconj h d a => some (mainOf h 0xA4#8 (d ++ a ++ 0#8 : BitVec 20))
  | .cnorm h d a => some (mainOf h 0xA5#8 (d ++ a ++ 0#8 : BitVec 20))
  | .hadd2 h d a b t => some (mainOf h 0xA6#8 (d ++ a ++ b ++ t : BitVec 20))
  | .hmul2 h d a b t => some (mainOf h 0xA7#8 (d ++ a ++ b ++ t : BitVec 20))
  | .hfma2 h d a b t => some (mainOf h 0xA8#8 (d ++ a ++ b ++ t : BitVec 20))
  | .hmin2 h d a b t => some (mainOf h 0xA9#8 (d ++ a ++ b ++ t : BitVec 20))
  | .hmax2 h d a b t => some (mainOf h 0xAA#8 (d ++ a ++ b ++ t : BitVec 20))
  | .fdot2 h d a b t => some (mainOf h 0xAB#8 (d ++ a ++ b ++ t : BitVec 20))
  | .fdot4 h d a b t => some (mainOf h 0xAC#8 (d ++ a ++ b ++ t : BitVec 20))
  | .fmau h d a b => some (mainOf h 0xAD#8 (d ++ a ++ 0#1 ++ b : BitVec 20))
  | .fmovi h d i => some (mainOf h 0xAE#8 (d ++ 0#6 ++ i : BitVec 20))
  | .cvt h d a n m => some (mainOf h 0xC0#8 (d ++ a ++ n ++ m : BitVec 20))
  | .cvtf2i h d a n m => some (mainOf h 0xC1#8 (d ++ a ++ n ++ m : BitVec 20))
  | .cvti2f h d a n m => some (mainOf h 0xC2#8 (d ++ a ++ n ++ m : BitVec 20))
  | .cvti2i h d a n m => some (mainOf h 0xC3#8 (d ++ a ++ n ++ m : BitVec 20))
  | .cvtpack h d a n m => some (mainOf h 0xC4#8 (d ++ a ++ n ++ m : BitVec 20))
  | .cvtunpack h d a n m => some (mainOf h 0xC5#8 (d ++ a ++ n ++ m : BitVec 20))
  | .cvtmx h d a n m => some (mainOf h 0xC6#8 (d ++ a ++ n ++ m : BitVec 20))
  | .cvtsort h d a n m => some (mainOf h 0xC7#8 (d ++ a ++ n ++ m : BitVec 20))
  | .cvtdq h d a n m => some (mainOf h 0xC8#8 (d ++ a ++ n ++ m : BitVec 20))
  | .xli h d a b t => some (mainOf h 0xD0#8 (d ++ a ++ b ++ t : BitVec 20))
  | .xlr h d a t => some (mainOf h 0xD1#8 (d ++ a ++ 0#6 ++ t : BitVec 20))
  | .xlf h d a t => some (mainOf h 0xD2#8 (d ++ a ++ 0#6 ++ t : BitVec 20))
  | .xlb h d a t => some (mainOf h 0xD3#8 (d ++ a ++ 0#6 ++ t : BitVec 20))
  | .pcnt h d a b => some (mainOf h 0xD4#8 (d ++ a ++ b ++ 0#2 : BitVec 20))
  | .pmask h a => some (mainOf h 0xD5#8 (0#6 ++ a ++ 0#8 : BitVec 20))
  | .pfirst h d a => some (mainOf h 0xD6#8 (d ++ a ++ 0#8 : BitVec 20))
  | .redadd h d a t => some (mainOf h 0xD7#8 (d ++ a ++ 0#6 ++ t : BitVec 20))
  | .redmin h d a t => some (mainOf h 0xD8#8 (d ++ a ++ 0#6 ++ t : BitVec 20))
  | .redmax h d a t => some (mainOf h 0xD9#8 (d ++ a ++ 0#6 ++ t : BitVec 20))
  | .scanadd h d a t => some (mainOf h 0xDA#8 (d ++ a ++ 0#6 ++ t : BitVec 20))
  | .xleq h d a t => some (mainOf h 0xDF#8 (d ++ a ++ 0#6 ++ t : BitVec 20))
  | .split h d k => some (mainOf h 0xDB#8 (d ++ 0#7 ++ k : BitVec 20))
  | .fuse h d => some (mainOf h 0xDC#8 (d ++ 0#13 : BitVec 20))
  | .fuseWait h d a => some (mainOf h 0xDC#8 (d ++ a ++ 1#6 : BitVec 20))
  | .wait h l s m a => some (mainOf h 0xDD#8 (l ++ s ++ m ++ a : BitVec 20))
  | .tbar h a n => some (mainOf h 0xDE#8 (0#7 ++ a ++ 0#3 ++ n : BitVec 20))
  | .ld h d b x z => some (mainOf h 0xE0#8 (d ++ b ++ x ++ z : BitVec 20))
  | .st h d b x z => some (mainOf h 0xE1#8 (d ++ b ++ x ++ z : BitVec 20))
  | .ldu h d b z => some (mainOf h 0xE2#8 (d ++ b ++ 0#6 ++ z : BitVec 20))
  | .stu h d b z => some (mainOf h 0xE3#8 (d ++ b ++ 0#6 ++ z : BitVec 20))
  | .atom h d b x z => some (mainOf h 0xE4#8 (d ++ b ++ x ++ z : BitVec 20))
  | .red h d b x z => some (mainOf h 0xE5#8 (d ++ b ++ x ++ z : BitVec 20))
  | .cas h d b x z => some (mainOf h 0xE6#8 (d ++ b ++ x ++ 1#1 ++ z : BitVec 20))
  | .pfetch h b x z => some (mainOf h 0xE7#8 (0#6 ++ b ++ x ++ z : BitVec 20))
  | .fenceRel h => some (mainOf h 0xE8#8 (0#20 : BitVec 20))
  | .fenceAcq h => some (mainOf h 0xE8#8 (0#20 : BitVec 20))
  | .cflush h d a b => some (mainOf h 0xE9#8 (d ++ a ++ b : BitVec 20))
  | .mma h d a s z j k => some (mainOf h 0xF0#8 (d ++ a ++ s ++ z ++ j ++ k ++ 0#2 : BitVec 20))
  | .mmaGang h d a s z j k => some (mainOf h 0xF1#8 (d ++ a ++ s ++ z ++ j ++ k ++ 0#2 : BitVec 20))
  | .mtileZero h d => some (mainOf h 0xF2#8 (d ++ 0#13 : BitVec 20))
  | .mtileSt h d a s f => some (mainOf h 0xF2#8 (d ++ a ++ s ++ 1#2 ++ f : BitVec 20))
  | .mtileLd h d a f => some (mainOf h 0xF2#8 (d ++ a ++ 2#3 ++ f : BitVec 20))
  | .mstat h d => some (mainOf h 0xF3#8 (d ++ 0#13 : BitVec 20))
  | .mstatClr h d => some (mainOf h 0xF3#8 (d ++ 1#13 : BitVec 20))
  | .cpy h a k => some (mainOf h 0xF4#8 (0#7 ++ a ++ 0#3 ++ k : BitVec 20))
  | .cpyPromise h d a k => some (mainOf h 0xF4#8 (d ++ a ++ 4#3 ++ k : BitVec 20))
  | .waitk h m => some (mainOf h 0xF5#8 (0#12 ++ m : BitVec 20))
  | .barx h x a r => some (mainOf h 0xF6#8 (x ++ a ++ 0#4 ++ r ++ 0#1 : BitVec 20))
  | .barw h d a => some (mainOf h 0xF6#8 (d ++ a ++ 1#6 : BitVec 20))
  | .preg h d a => some (mainOf h 0xF7#8 (d ++ a ++ 0#6 : BitVec 20))
  | .pdrop h d a => some (mainOf h 0xF7#8 (d ++ a ++ 1#6 : BitVec 20))
  | .pstamp h d a => some (mainOf h 0xF7#8 (d ++ a ++ 2#6 : BitVec 20))
  | .proctorLanesStart => none
  | .fusedMinimumRaise => none
  | .cflushComplete => none
  | .maintenanceRequestDone => none

/-- Chain bit, guard, prefixes and extension of an instruction; a NOP has none of these (R144). -/
def hdrOf : Instr → Hdr
  | .deviceReset => ⟨false, 7, none, none, .none⟩
  | .stageLimitExceeded => ⟨false, 7, none, none, .none⟩
  | .bootrepStore => ⟨false, 7, none, none, .none⟩
  | .startokWrite => ⟨false, 7, none, none, .none⟩
  | .measurementExtend => ⟨false, 7, none, none, .none⟩
  | .quoteRequest => ⟨false, 7, none, none, .none⟩
  | .quoteComplete => ⟨false, 7, none, none, .none⟩
  | .hostQuoteRequest => ⟨false, 7, none, none, .none⟩
  | .standInClaim => ⟨false, 7, none, none, .none⟩
  | .standInRelease => ⟨false, 7, none, none, .none⟩
  | .maintWriteFlash => ⟨false, 7, none, none, .none⟩
  | .maintResetCounter => ⟨false, 7, none, none, .none⟩
  | .fmodeWrite => ⟨false, 7, none, none, .none⟩
  | .fmodeWriteComplete => ⟨false, 7, none, none, .none⟩
  | .powerLoss => ⟨false, 7, none, none, .none⟩
  | .powerCapExceeded => ⟨false, 7, none, none, .none⟩
  | .pwrcapWrite => ⟨false, 7, none, none, .none⟩
  | .dieStop => ⟨false, 7, none, none, .none⟩
  | .dieStopHalt => ⟨false, 7, none, none, .none⟩
  | .dieRestart => ⟨false, 7, none, none, .none⟩
  | .plcstatUpdate => ⟨false, 7, none, none, .none⟩
  | .ptpSyncExchange => ⟨false, 7, none, none, .none⟩
  | .ptpboundWrite => ⟨false, 7, none, none, .none⟩
  | .registerWrite => ⟨false, 7, none, none, .none⟩
  | .ctxCreate => ⟨false, 7, none, none, .none⟩
  | .ctxSetMemdef => ⟨false, 7, none, none, .none⟩
  | .keySeal => ⟨false, 7, none, none, .none⟩
  | .keyUnseal => ⟨false, 7, none, none, .none⟩
  | .launchSubmit => ⟨false, 7, none, none, .none⟩
  | .launchChecks => ⟨false, 7, none, none, .none⟩
  | .mailboxSend => ⟨false, 7, none, none, .none⟩
  | .mailboxConsumed => ⟨false, 7, none, none, .none⟩
  | .placementStep => ⟨false, 7, none, none, .none⟩
  | .clusterReserve => ⟨false, 7, none, none, .none⟩
  | .fetchBlockFill => ⟨false, 7, none, none, .none⟩
  | .pageWalkEnd => ⟨false, 7, none, none, .none⟩
  | .walkansWrite => ⟨false, 7, none, none, .none⟩
  | .acqueryStore => ⟨false, 7, none, none, .none⟩
  | .shootdownRequest => ⟨false, 7, none, none, .none⟩
  | .shootdownComplete => ⟨false, 7, none, none, .none⟩
  | .migrationStart => ⟨false, 7, none, none, .none⟩
  | .migrationCopy => ⟨false, 7, none, none, .none⟩
  | .migrationRemap => ⟨false, 7, none, none, .none⟩
  | .migrationReport => ⟨false, 7, none, none, .none⟩
  | .miglistWrite => ⟨false, 7, none, none, .none⟩
  | .rbaseWrite => ⟨false, 7, none, none, .none⟩
  | .spillFillDone => ⟨false, 7, none, none, .none⟩
  | .hqbaseWrite => ⟨false, 7, none, none, .none⟩
  | .cpyansWrite => ⟨false, 7, none, none, .none⟩
  | .pinstallWrite => ⟨false, 7, none, none, .none⟩
  | .pdoneWrite => ⟨false, 7, none, none, .none⟩
  | .loadReturn => ⟨false, 7, none, none, .none⟩
  | .storeAck => ⟨false, 7, none, none, .none⟩
  | .atomReply => ⟨false, 7, none, none, .none⟩
  | .writeArriveHome => ⟨false, 7, none, none, .none⟩
  | .writeVisible => ⟨false, 7, none, none, .none⟩
  | .lineFill => ⟨false, 7, none, none, .none⟩
  | .leaseExpiry => ⟨false, 7, none, none, .none⟩
  | .redMerge => ⟨false, 7, none, none, .none⟩
  | .peerPacketExecute => ⟨false, 7, none, none, .none⟩
  | .peerTimeout => ⟨false, 7, none, none, .none⟩
  | .hostWrite => ⟨false, 7, none, none, .none⟩
  | .hostRead => ⟨false, 7, none, none, .none⟩
  | .storageCompletion => ⟨false, 7, none, none, .none⟩
  | .copyLineTransfer => ⟨false, 7, none, none, .none⟩
  | .copyComplete => ⟨false, 7, none, none, .none⟩
  | .pressOperationCommit => ⟨false, 7, none, none, .none⟩
  | .gangPartReady => ⟨false, 7, none, none, .none⟩
  | .gangBoundExpiry => ⟨false, 7, none, none, .none⟩
  | .mtileEnd => ⟨false, 7, none, none, .none⟩
  | .proofRecompute => ⟨false, 7, none, none, .none⟩
  | .releaseComplete => ⟨false, 7, none, none, .none⟩
  | .sleepWake => ⟨false, 7, none, none, .none⟩
  | .fuseWaitDeadline => ⟨false, 7, none, none, .none⟩
  | .groupRetire => ⟨false, 7, none, none, .none⟩
  | .completionRingSend => ⟨false, 7, none, none, .none⟩
  | .folioWrite => ⟨false, 7, none, none, .none⟩
  | .teardown => ⟨false, 7, none, none, .none⟩
  | .teardownKeyErase => ⟨false, 7, none, none, .none⟩
  | .softError => ⟨false, 7, none, none, .none⟩
  | .bellRestart => ⟨false, 7, none, none, .none⟩
  | .proctorTimerTick => ⟨false, 7, none, none, .none⟩
  | .proctorInterrupt => ⟨false, 7, none, none, .none⟩
  | .proctorRunWrite => ⟨false, 7, none, none, .none⟩
  | .nop => ⟨false, 7, none, none, .none⟩
  | .bra h _ _ => h
  | .brd h _ _ => h
  | .join h => h
  | .call h _ _ _ => h
  | .ret h => h
  | .exit h => h
  | .yield h => h
  | .sleep h _ => h
  | .sleepUntil h _ _ => h
  | .brx h _ _ _ => h
  | .callx h _ _ => h
  | .brk h _ => h
  | .sysc h => h
  | .tret h => h
  | .suspend h _ _ => h
  | .resume h _ _ => h
  | .resumeTry h _ _ => h
  | .fcopy h _ _ _ => h
  | .fdrop h _ _ => h
  | .getsr h _ _ => h
  | .setsr h _ _ => h
  | .svcstart h _ _ => h
  | .svcpark h _ _ _ => h
  | .launch h _ _ => h
  | .spawn h _ _ => h
  | .mbsend h _ _ _ => h
  | .mbrecv h _ _ => h
  | .mbrecvW h _ _ => h
  | .place h _ _ _ => h
  | .hqtake h _ _ _ => h
  | .hqtakeW h _ _ _ => h
  | .hqdone h _ _ => h
  | .uadd h _ _ _ => h
  | .usub h _ _ _ => h
  | .umul h _ _ _ => h
  | .umulhs h _ _ _ => h
  | .umulhn h _ _ _ => h
  | .uand h _ _ _ => h
  | .uor h _ _ _ => h
  | .uxor h _ _ _ => h
  | .ushl h _ _ _ => h
  | .ushr h _ _ _ => h
  | .usar h _ _ _ => h
  | .umins h _ _ _ => h
  | .uminn h _ _ _ => h
  | .umaxs h _ _ _ => h
  | .umaxn h _ _ _ => h
  | .usel h _ _ _ => h
  | .uaddi h _ _ _ => h
  | .uandi h _ _ _ => h
  | .uori h _ _ _ => h
  | .uxori h _ _ _ => h
  | .ushli h _ _ _ => h
  | .ushri h _ _ _ => h
  | .usari h _ _ _ => h
  | .useq h _ _ _ => h
  | .usne h _ _ _ => h
  | .uslts h _ _ _ => h
  | .usltn h _ _ _ => h
  | .ubfx h _ _ _ => h
  | .umovi h _ _ => h
  | .urdlane h _ _ _ => h
  | .upopc h _ _ => h
  | .uclz h _ _ => h
  | .iadd h _ _ _ _ => h
  | .isub h _ _ _ _ => h
  | .imul h _ _ _ _ => h
  | .imulhs h _ _ _ _ => h
  | .imulhn h _ _ _ _ => h
  | .imad h _ _ _ _ => h
  | .iaddss h _ _ _ _ => h
  | .iaddsn h _ _ _ _ => h
  | .isubss h _ _ _ _ => h
  | .isubsn h _ _ _ _ => h
  | .imins h _ _ _ _ => h
  | .iminn h _ _ _ _ => h
  | .imaxs h _ _ _ _ => h
  | .imaxn h _ _ _ _ => h
  | .iabs h _ _ _ => h
  | .ineg h _ _ _ => h
  | .andV h _ _ _ _ => h
  | .orV h _ _ _ _ => h
  | .xorV h _ _ _ _ => h
  | .andn h _ _ _ _ => h
  | .notV h _ _ _ => h
  | .bfn h _ _ _ _ => h
  | .shlV h _ _ _ _ => h
  | .shrV h _ _ _ _ => h
  | .sarV h _ _ _ _ => h
  | .rotl h _ _ _ _ => h
  | .bfx h _ _ _ _ => h
  | .bfi h _ _ _ _ => h
  | .popc h _ _ _ => h
  | .clz h _ _ _ => h
  | .brev h _ _ _ => h
  | .bperm h _ _ _ _ => h
  | .iseteq h _ _ _ _ => h
  | .isetne h _ _ _ _ => h
  | .isetlts h _ _ _ _ => h
  | .isetltn h _ _ _ _ => h
  | .isetles h _ _ _ _ => h
  | .isetlen h _ _ _ _ => h
  | .selV h _ _ _ _ => h
  | .movV h _ _ _ => h
  | .iaddu h _ _ _ => h
  | .isubu h _ _ _ => h
  | .imulu h _ _ _ => h
  | .shlu h _ _ _ => h
  | .shru h _ _ _ => h
  | .andu h _ _ _ => h
  | .oru h _ _ _ => h
  | .xoru h _ _ _ => h
  | .pand h _ _ _ => h
  | .por h _ _ _ => h
  | .pxor h _ _ _ => h
  | .pnot h _ _ => h
  | .pmov h _ _ _ => h
  | .lea h _ _ _ => h
  | .imovi h _ _ => h
  | .iaddi h _ _ _ => h
  | .andi h _ _ _ => h
  | .ori h _ _ _ => h
  | .shli h _ _ _ => h
  | .shri h _ _ _ => h
  | .sari h _ _ _ => h
  | .iseteqi h _ _ _ => h
  | .isetlti h _ _ _ => h
  | .fadd h _ _ _ _ => h
  | .fsub h _ _ _ _ => h
  | .fmul h _ _ _ _ => h
  | .fma h _ _ _ _ => h
  | .fms h _ _ _ _ => h
  | .fnma h _ _ _ _ => h
  | .fdiv h _ _ _ _ => h
  | .fsqrt h _ _ _ => h
  | .frsq h _ _ _ => h
  | .frcp h _ _ _ => h
  | .fmin h _ _ _ _ => h
  | .fmax h _ _ _ _ => h
  | .fminnum h _ _ _ _ => h
  | .fmaxnum h _ _ _ _ => h
  | .fabs h _ _ _ => h
  | .fneg h _ _ _ => h
  | .fseteq h _ _ _ _ => h
  | .fsetne h _ _ _ _ => h
  | .fsetlt h _ _ _ _ => h
  | .fsetle h _ _ _ _ => h
  | .fsetun h _ _ _ _ => h
  | .fclass h _ _ _ => h
  | .fclassGetfx h _ => h
  | .fclassSetfx h _ => h
  | .fexp2 h _ _ _ => h
  | .flog2 h _ _ _ => h
  | .fsin h _ _ _ => h
  | .fcos h _ _ _ => h
  | .ftanh h _ _ _ => h
  | .fscale h _ _ _ _ => h
  | .frint h _ _ _ => h
  | .fcopysign h _ _ _ _ => h
  | .faddu h _ _ _ => h
  | .fmulu h _ _ _ => h
  | .cadd h _ _ _ => h
  | .csub h _ _ _ => h
  | .cmul h _ _ _ => h
  | .cfma h _ _ _ => h
  | .cconj h _ _ => h
  | .cnorm h _ _ => h
  | .hadd2 h _ _ _ _ => h
  | .hmul2 h _ _ _ _ => h
  | .hfma2 h _ _ _ _ => h
  | .hmin2 h _ _ _ _ => h
  | .hmax2 h _ _ _ _ => h
  | .fdot2 h _ _ _ _ => h
  | .fdot4 h _ _ _ _ => h
  | .fmau h _ _ _ => h
  | .fmovi h _ _ => h
  | .cvt h _ _ _ _ => h
  | .cvtf2i h _ _ _ _ => h
  | .cvti2f h _ _ _ _ => h
  | .cvti2i h _ _ _ _ => h
  | .cvtpack h _ _ _ _ => h
  | .cvtunpack h _ _ _ _ => h
  | .cvtmx h _ _ _ _ => h
  | .cvtsort h _ _ _ _ => h
  | .cvtdq h _ _ _ _ => h
  | .xli h _ _ _ _ => h
  | .xlr h _ _ _ => h
  | .xlf h _ _ _ => h
  | .xlb h _ _ _ => h
  | .pcnt h _ _ _ => h
  | .pmask h _ => h
  | .pfirst h _ _ => h
  | .redadd h _ _ _ => h
  | .redmin h _ _ _ => h
  | .redmax h _ _ _ => h
  | .scanadd h _ _ _ => h
  | .xleq h _ _ _ => h
  | .split h _ _ => h
  | .fuse h _ => h
  | .fuseWait h _ _ => h
  | .wait h _ _ _ _ => h
  | .tbar h _ _ => h
  | .ld h _ _ _ _ => h
  | .st h _ _ _ _ => h
  | .ldu h _ _ _ => h
  | .stu h _ _ _ => h
  | .atom h _ _ _ _ => h
  | .red h _ _ _ _ => h
  | .cas h _ _ _ _ => h
  | .pfetch h _ _ _ => h
  | .fenceRel h => h
  | .fenceAcq h => h
  | .cflush h _ _ _ => h
  | .mma h _ _ _ _ _ _ => h
  | .mmaGang h _ _ _ _ _ _ => h
  | .mtileZero h _ => h
  | .mtileSt h _ _ _ _ => h
  | .mtileLd h _ _ _ => h
  | .mstat h _ => h
  | .mstatClr h _ => h
  | .cpy h _ _ => h
  | .cpyPromise h _ _ _ => h
  | .waitk h _ => h
  | .barx h _ _ _ => h
  | .barw h _ _ => h
  | .preg h _ _ => h
  | .pdrop h _ _ => h
  | .pstamp h _ _ => h
  | .proctorLanesStart => ⟨false, 7, none, none, .none⟩
  | .fusedMinimumRaise => ⟨false, 7, none, none, .none⟩
  | .cflushComplete => ⟨false, 7, none, none, .none⟩
  | .maintenanceRequestDone => ⟨false, 7, none, none, .none⟩

/-- An MMOD word (R151). -/
def mmodWord (p : Mmod) : W32 :=
  (0#4 ++ 0xF8#8 ++ p.ord ++ p.scope ++ p.space ++ p.cache ++ BitVec.ofBool p.det ++ 0#8 : BitVec 32)

/-- An LMOD word (R153). -/
def lmodWord (p : Lmod) : W32 := (0#4 ++ 0xF9#8 ++ BitVec.ofBool p.neg ++ 0#12 ++ p.tail : BitVec 32)

/-- The extension word (R154 to R156), none where there is none. -/
def extWords : Ext → List W32
  | .none => []
  | .immx hi => [(hi.extractLsb' 20 4 ++ 0xFC#8 ++ hi.extractLsb' 0 20 : BitVec 32)]
  | .memx noidx sc1 sx w16 off =>
    [(BitVec.ofBool noidx ++ BitVec.ofBool sc1 ++ BitVec.ofBool sx ++ BitVec.ofBool w16 ++ 0xFD#8
      ++ off : BitVec 32)]
  | .regx x y rnd sat =>
    [(0#4 ++ 0xFE#8 ++ x ++ y ++ rnd ++ BitVec.ofBool sat ++ 0#2 : BitVec 32)]

/-- The words before a main word. -/
def prefixWords (h : Hdr) : List W32 :=
  (match h.mmod with | some p => [mmodWord p] | none => [])
    ++ (match h.lmod with | some p => [lmodWord p] | none => [])

/-- The words of an instruction, none for a step that has no encoding. -/
def encode (i : Instr) : List W32 :=
  match mainWord i with
  | some m => prefixWords (hdrOf i) ++ m :: extWords (hdrOf i).x
  | none => []

/-- Whether an instruction's extension and prefixes are ones its OP accepts, in the room a packet
gives (R136, R137). -/
def checkShape (h : Hdr) (m : W32) : Option Cause :=
  let op := opOf m
  let kind := match h.x with
    | .none => 0 | .immx _ => 0xFC | .memx .. => 0xFD | .regx .. => 0xFE
  if (h.mmod.isSome && !acceptsMmod op) || (h.lmod.isSome && !acceptsLmod op) then some .prefixed
  else if kind == 0 && (requiresRegx op || op == 0xAE) then some .extension
  else if kind != 0 && !acceptsExt op kind then some .extension
  else if 3 < (prefixWords h).length + 1 + (extWords h.x).length then some .extension
  else none

/-- The two FENCE rows of the table differ in the ORD of their MMOD alone (R349). -/
def orderAgrees : Instr → Bool
  | .fenceRel h => match h.mmod with | some p => p.ord == 2 | none => false
  | .fenceAcq h => match h.mmod with | some p => p.ord == 1 | none => false
  | _ => true

/-- What is wrong with an instruction, by cause; a step of the device with no encoding is wrong as
an instruction of a packet. -/
def checkInstr (i : Instr) : Option Cause :=
  match mainWord i with
  | none => some .unassigned
  | some m =>
    match checkShape (hdrOf i) m with
    | some c => some c
    | none =>
      match checkFields (hdrOf i) m false with
      | some c => some c
      | none => if orderAgrees i then none else some .combination

end Sys2Proof
end

