-- ==== Sys2Proof/Machine/State.lean ====
section
/-! DEFINITION. The whole state of the device as plain data, the reasons a step can stop, and the
state right after reset. Each field's docstring cites the rule that names it. -/

namespace Sys2Proof.Machine

/-- Why the machine stops with a fault. No instruction of the table ends in one: an instruction
that cannot go on takes its trap, which is a next state. -/
inductive Fault where
  /-- The device has lost input power and its hold-up time has ended (R27): raised by `step`
  alone, safe, nothing can happen any more. -/
  | powerOff
  deriving DecidableEq, Repr

/-- Why the machine refuses to go on. -/
inductive Refusal where
  /-- An arm of `exec` whose meaning is not written yet: safe. -/
  | notModelled (mnemonic : String)
  deriving DecidableEq, Repr

/-- Completion times by scope (R341). -/
structure Lct where
  clus : Nat
  die : Nat
  dev : Nat
  sys : Nat
  deriving DecidableEq, Repr

/-- A token (R315). -/
inductive Tok where
  | idle
  /-- Busy with the copy of this number. -/
  | busy (copy : Nat)
  /-- Failed: vector, cause and address of the trap it will raise (R312), and its journal entry in
  folio form (R320). -/
  | failed (vector cause : Nat) (addr : W64) (entry : List Byte)
  deriving DecidableEq, Repr

/-- What a parked group or child waits for. -/
inductive Park where
  /-- Not parked. -/
  | run
  /-- Its instruction found its condition unmet and issues again after the next change. -/
  | poll
  /-- Until every hand-in record of its instruction is done (R358, R365). -/
  | records
  /-- Blocked lanes and no record: until shootdowns that cover their pages have completed (R124, R128). -/
  | blocked
  /-- SLEEP or SLEEP.UNTIL: wake time, named token (R211). -/
  | sleep (wake : Nat) (tok : Option Nat)
  /-- A release waiting for device time to reach its LCT (R345). -/
  | release (until_ : Nat)
  /-- FUSE.WAIT: status destination, deadline (R194). -/
  | fuse (d : Nat) (deadline : Nat)
  /-- TBAR at a barrier after its arrival (R350). -/
  | tbar (n : Nat)
  /-- MBRECV.W at an empty inbox: destinations, and its place among those that wait (R91). -/
  | inbox (d a order : Nat)
  /-- CFLUSH waiting for its write-backs: destination, count, lines (R305). -/
  | cflush (d : Nat) (n : Nat) (lines : List Nat)
  /-- CALL or RET waiting for the spill engine: WP to take, pc to go to, and the number of positions
  a CALL opens, 0 for a RET (R178). -/
  | spill (wp : Nat) (pc : W64) (opened : Nat)
  /-- An acquiring access has issued: until every load and atomic has taken its value (R346). -/
  | acquire
  /-- A load or atomic to a peer window, and whether it acquires: until the peer's reply (R298). -/
  | peer (op : Nat) (acq : Bool)
  /-- PREG or PDROP waiting for its shootdown (R323, R331): status destination, die and sequence
  number of the request, and the status to write. -/
  | shootdown (d die seq : Nat) (status : W64)
  /-- It has had its effect and gone on; its register write waits for a lock (R184, R387), and an acquire may
  follow the write. -/
  | lock (d : Nat) (v : W64) (acq : Bool)
  deriving DecidableEq, Repr

/-- The descriptor a service group was started from (R379). -/
structure SvcDesc where
  /-- The core that keeps the descriptor (R394). -/
  core : Nat
  entry : W64
  limit : Nat
  depth : Nat
  widthCode : Nat
  galley : Nat
  arg : W64
  deriving DecidableEq, Repr

/-- A suspension under way (R387): where the folio goes, and how. -/
structure Susp where
  /-- 0 SUSPEND, 1 pre-emption. -/
  origin : Nat
  /-- Self address (R391, R389). -/
  addr : W64
  /-- Physical pieces that the folio is written to, and their key slot. -/
  frames : List (Nat × Nat)
  key : Nat
  /-- The resume point of a SUSPEND, and its status register. -/
  pc : W64
  dest : Option Nat
  /-- A pre-emption gives this folio the team section (R389). -/
  holder : Bool
  /-- Steps 4 and 5 are done. -/
  journaled : Bool
  /-- Copies journaled: 80-byte entries of R320. -/
  journal : List (List Byte)
  /-- Hand-in tags kept: tag, core (R365). -/
  tags : List (Nat × Nat)
  /-- Records withdrawn, to post again: kind, lane, lanes concerned, payload. -/
  withdrawn : List (Nat × Nat × Mask × List Byte)
  /-- Serial of the folio once it is written with its claim WRITING, and whether it holds the team section (R383,
  R388); 0 before that. -/
  serial : Nat
  section_ : Bool
  deriving DecidableEq, Repr

/-- A group or child (R34, R190). Lanes of masks count from 0 within it (R7). -/
structure Thread where
  id : Nat
  /-- Core number (R6), partition, group slot on the core 0 to 63. -/
  core : Nat
  part : Nat
  slot : Nat
  /-- First lane in the undivided group, width, width of the undivided group (R190, R177). -/
  f : Nat
  width : Nat
  kwidth : Nat
  /-- The splits it came through, last first: f, width and k of the parent (R193). -/
  splits : List (Nat × Nat × Nat)
  /-- Numbers of the groups and children whose program order it continues (R338). -/
  hists : List Nat
  ctx : W32
  /-- Mode bit (R196). -/
  sup : Bool
  /-- Latched MEMDEF (R152). -/
  memdef : W32
  launch : W64
  /-- Number of its gang and of its team. -/
  gang : Nat
  team : Nat
  /-- Group index in team, team index in gang, gang linear index. -/
  grp : Nat
  teamIdx : Nat
  linear : Nat
  pc : W64
  /-- While it is parked: where execution continues after its instruction. -/
  after : W64
  exec : Mask
  live : Mask
  /-- Reconvergence stack, top first: resume pc and mask (R187). -/
  rstack : List (W64 × Mask)
  sregs : Sparse W64
  /-- p0 to p6 as lane masks. -/
  preds : Sparse Mask
  /-- fx of each lane, by its index in the undivided group. -/
  fx : Sparse (BitVec 5)
  /-- Register stack store: key (q mod D) * 64 + lane in the undivided group (R177). -/
  store : Sparse W32
  /-- Poisoned store words by the same key (R374). -/
  storePoison : Sparse Bool
  wp : Nat
  rbase : Nat
  dres : Nat
  lim : Nat
  stkbase : Nat
  spillbase : Nat
  mathctl : W32
  srcnt : W32
  wlimit : Nat
  maxWidth : Nat
  pstat : W64
  toks : Sparse Tok
  lct : Lct
  /-- Time of the latest acquire, 0 if none (R328). -/
  acq : Nat
  /-- When it became resident (R105, R210), and when it last issued (R106). -/
  resident : Nat
  lastIssue : Nat
  /-- It is not ready before this time: the cycle after its YIELD has passed (R210). -/
  idleTill : Nat
  prio : Nat
  codebase : W64
  tile0 : Nat
  tiles : Nat
  park : Park
  /-- The release of the instruction at pc has completed (R345). -/
  relDone : Bool
  /-- Lanes a replay is confined to (R124, R367). -/
  only : Option Mask
  desc : Option SvcDesc
  lineage : Nat
  claimSeq : Nat
  susp : Option Susp
  /-- Master lines it wrote since its previous trigger (R325). -/
  marked : List Nat
  /-- Parked by SVCPARK (R380). -/
  stopped : Bool
  /-- A peer store timed out and is not yet reported (R343, R387). -/
  peerLate : Bool
  /-- A peer timeout that it takes before its first issue after a resume (R387, R395). -/
  lateNow : Bool
  /-- WP after the CALL or RET that trapped in supervisor spill mode (R180, R181). -/
  wpNext : Nat
  /-- Last HQTAKE or accepted HQDONE, for the bell (R370). -/
  bellT : Nat
  deriving DecidableEq, Repr

/-- Where an access of one lane goes after translation (R114 to R117). -/
inductive Place where
  /-- A byte address of memory, with the key slot of R117 and the page's cacheability:
  0 normal, 1 uncached, 2 device. -/
  | mem (pa : Nat) (key : Nat) (mt : Nat)
  /-- A byte of a core's galley. -/
  | gal (core off : Nat)
  deriving DecidableEq, Repr

/-- One lane's part of an outstanding load or atomic: where, how wide, and the store keys its
words go to, bound at issue (R176, R300). -/
structure LaneAcc where
  lane : Nat
  place : Place
  size : Nat
  dest : List Nat
  /-- Data and new value of an ATOM or CAS. -/
  data : Nat
  data2 : Nat
  /-- The address before translation. -/
  va : Nat
  deriving DecidableEq, Repr

/-- What an outstanding operation is. -/
inductive OutKind where
  /-- LD: sign extension of narrow values; LDU: destination s register. -/
  | load (sx : Bool) (sdest : Option Nat)
  /-- ST, STU and the stores of engines. -/
  | store
  /-- RED with its operation: waits for the merge that carries it (R296). -/
  | red (op : Nat)
  /-- PFETCH of lines whose fills wait (R304); it stands in no counter. -/
  | prefetch
  /-- ATOM with its operation (R302), CAS. -/
  | atom (op : Nat)
  | cas
  deriving DecidableEq, Repr

/-- An operation counted in ld, st or at (R188), until it retires. -/
structure Out where
  id : Nat
  /-- Threads whose counters it stands in (R192). A proctor lane is 1,000,000 + core. -/
  owners : List Nat
  /-- 0 ld, 1 st, 2 at, 3 none of them. -/
  cls : Nat
  kind : OutKind
  /-- The thread or proctor lane that issued it. -/
  issuer : Nat
  /-- The context its addresses were translated in; none for the physical space. -/
  ctx : Option W32
  core : Nat
  scope : Nat
  cache : Nat
  issued : Nat
  lanes : List LaneAcc
  /-- Latest visible times its writes reported, with the guard (R341). -/
  report : Lct
  /-- Lines of peer windows whose packets had no reply in time (R298). -/
  late : List Nat
  /-- An ATOM or CAS performed, whose reply waits for the times of its writes: the values for its destinations. -/
  olds : Option (List (List Nat × Nat))
  deriving DecidableEq, Repr

/-- What a write does at its home. -/
inductive WAct where
  /-- Store these bytes, by offset in the line. -/
  | bytes (bs : List (Nat × Byte))
  /-- An indivisible reduction: operation, offset, size, operand (R294, R296). -/
  | red (op off size : Nat) (v : Nat)
  deriving DecidableEq, Repr

/-- A write on its way to its home (R334). -/
structure Write where
  id : Nat
  out : Nat
  /-- The threads that issued it; the engines' own writes have none. -/
  hists : List Nat
  core : Nat
  scope : Nat
  line : Nat
  key : Nat
  mt : Nat
  /-- A(w): its arrival at the L1 slice of the writer's cluster, where the line is present (R335). -/
  arr : Option Nat
  /-- It has yet to reach that slice: loads or atomics of its group that precede it are outstanding (R339). -/
  queued : Bool
  /-- Writes to its line that arrive before it: earlier ones of its group (R293), and those that its cluster's
  slice already showed (R337). -/
  prior : List Nat
  act : WAct
  deriving DecidableEq, Repr

/-- A write at its home that is not yet visible to all (R335 to R337). -/
structure Pend where
  bytes : List (Nat × Byte)
  /-- The threads that issued it. -/
  hists : List Nat
  core : Nat
  scope : Nat
  chome : Nat
  cfar : Nat
  /-- A(w), and the operations and copies that its times are reported to (R341); 0 is the host. -/
  arr : Option Nat
  outs : List Nat
  /-- Narrow writes under way that its probes wait for: until they have arrived it is visible to no reader by its
  home times (R337). -/
  probes : List Nat
  deriving DecidableEq, Repr

/-- The home's record of a line (R288, R337). -/
structure LineInfo where
  pend : List Pend
  horizon : Nat
  leaseLen : Nat
  lastEnd : Nat
  /-- A write waited for H since the previous fill. -/
  waited : Bool
  /-- Completion time of the latest write to each byte, by offset, while proofs exist (R327). -/
  times : Sparse Nat
  deriving DecidableEq, Repr

/-- A lease (R288): its end, when it was filled, the bytes and the slot tag it was filled with. -/
structure Lease where
  ends : Nat
  filled : Nat
  bytes : List Byte
  tag : Nat × Nat
  deriving DecidableEq, Repr

/-- A copy of a line in a cache: the L1 of a core (place = core number, 0 to 47), a remote line cache (48 + die)
or an L2 (52 + die). A copy on another die than the line's home is leased (R288). -/
structure Copy where
  place : Nat
  line : Nat
  lease : Option Lease
  /-- It entered under the retain policy (R289). -/
  retain : Bool
  deriving DecidableEq, Repr

/-- An entry of a die directory (R287): a 512-byte region homed on the die, and the clusters whose bit is set. -/
structure DirEntry where
  region : Nat
  clusters : List Nat
  deriving DecidableEq, Repr

/-- A line of a reduction buffer (R295). -/
structure RedLine where
  core : Nat
  line : Nat
  key : Nat
  /-- Widest scope of its contributions. -/
  scope : Nat
  /-- Offset, operation, size, partial value. -/
  slots : List (Nat × Nat × Nat × Nat)
  /-- Threads that contributed, and the operations it carries. -/
  threads : List Nat
  outs : List Nat
  deriving DecidableEq, Repr

/-- A TLB entry (R123): size 0 4 KiB, 1 64 KiB, 2 2 MiB. -/
structure TlbEntry where
  core : Nat
  ctx : W32
  size : Nat
  va : Nat
  pa : Nat
  u : Bool
  x : Bool
  w : Bool
  rd : Bool
  d : Bool
  ace : Bool
  wblk : Bool
  mt : Nat
  deriving DecidableEq, Repr

/-- What a walk serves: accesses; a prefetch alone, whose fault is discarded (R110); a mapping check, which
installs nothing (R323). -/
inductive WalkUse where
  | demand | prefetch | check
  deriving DecidableEq, Repr

/-- A page walk (R126, R127). -/
structure Walk where
  id : Nat
  core : Nat
  ctx : W32
  sup : Bool
  va : Nat
  /-- 0 read, 1 write, 2 atomic, 3 fetch, 4 copy read, 5 copy write. -/
  access : Nat
  /-- Other cores of the die that miss the page, merged into the walk (R126). -/
  others : List Nat
  /-- Supervisor walk mode, fixed at the miss (R24). -/
  svmode : Bool
  /-- A shootdown overlapping the page was accepted since the request. -/
  stale : Bool
  /-- The vector (4 or 5) and cause it ended in. -/
  fault : Option (Nat × Nat)
  use : WalkUse
  /-- Leaf and page size that a mapping check found. -/
  found : Option (Nat × Nat)
  deriving DecidableEq, Repr

/-- A blocked write that waits for a shootdown of its page to complete (R128): the thread, proctor lane, copy or
proof that makes it, and the page of a context. -/
structure Held where
  who : Nat
  ctx : W32
  page : Nat
  deriving DecidableEq, Repr

/-- A table entry that a walker keeps (R126): walker 4 * die + i, the walk's context, the entry's level
(4 to 2), the first address it covers, and its value. -/
structure WalkerEntry where
  walker : Nat
  ctx : W32
  level : Nat
  base : Nat
  value : Nat
  deriving DecidableEq, Repr

/-- A block buffer entry: the packets of a fetch block that were fetched (R109 to R111). -/
structure Block where
  core : Nat
  part : Nat
  ctx : W32
  /-- The mode whose fetch permission was checked. -/
  sup : Bool
  /-- Virtual address of the block, a multiple of 192. -/
  va : Nat
  /-- Packet number and its three words. -/
  packets : Sparse (List W32)
  deriving DecidableEq, Repr

/-- An access counter entry (R129). -/
structure Counter where
  ctx : W32
  region : Nat
  count : Nat
  notified : Bool
  deriving DecidableEq, Repr

/-- A shootdown request in a die's queue (R132). -/
structure Shoot where
  seq : Nat
  ctx : W32
  all : Bool
  base : Nat
  pages : Nat
  /-- The operations that still wait to be performed once every core has invalidated its entries
  (R133); none before that step. -/
  ops : Option (List Nat)
  deriving DecidableEq, Repr

/-- A migration under way (R372): step 3 shot down, 4 copied, 6 remapped, 7 to report. -/
structure Mig where
  ctx : W32
  region : Nat
  core : Nat
  step : Nat
  oldPa : Nat
  newPa : Nat
  leaves : List (Nat × Nat)
  seq : Nat
  status : Nat
  deriving DecidableEq, Repr

/-- The registers of a die's control block and its queues. -/
structure Die where
  fmode : W32
  fmodeNew : Option W32
  acThresh : Nat
  acResult : W64
  counters : List Counter
  shootQ : List Shoot
  shootAcc : Nat
  shootDone : Nat
  shootBad : Nat
  spillBase : Nat
  spillSize : Nat
  /-- Base and size written to SPILLPOOL since the last placement step (R179). -/
  spillNew : Option (Nat × Nat)
  gangBnd : Nat
  poolBase : Nat
  poolSize : Nat
  /-- Base and size written to FOLIOPOOL since the last placement step (R390). -/
  poolNew : Option (Nat × Nat)
  keyMiss : Nat
  callIdem : Nat
  bellCtl : Nat
  bellCnt : Nat
  migAddr : Nat
  migCount : Nat
  migCur : Option Mig
  migWait : List (W32 × Nat × Nat)
  seCorr : Nat
  seUnc : Nat
  droopBnd : Nat
  stDisc : Nat
  stopped : Bool
  /-- Stop in progress: 0 no, 1 pre-empting, 2 halted (R32); temperature at the stop. -/
  stopping : Nat
  stopTemp : BitVec 12
  cool : Bool
  coolSince : Nat
  /-- Arithmetic clock of the die in MHz (R20, R26, R32). -/
  clockMHz : Nat
  /-- Device time of the latest 10 µs update of PLCSTAT (R99). -/
  plcAt : Nat
  /-- Floor horizon of each of its 32 slices (R288). -/
  floors : Sparse Nat
  deriving DecidableEq, Repr

/-- A record of a hand-in queue (R360, R361). -/
structure HqRec where
  place : Nat
  /-- 64 bytes: header and payload, as they stand in the ring. -/
  bytes : List Byte
  kind : Nat
  /-- 1 posted, 2 taken, 3 done. -/
  state : Nat
  /-- The service group that took it. -/
  taker : Option Nat
  /-- The poster's thread, or the source of a device record. -/
  poster : Option Nat
  lane : Nat
  /-- Lanes concerned, in the poster's numbering. -/
  mask : Mask
  /-- Action, value, P0, aux once done (R364). -/
  answer : Option (Nat × W32 × Bool × W64)
  /-- Order of acceptance of the answer. -/
  order : Nat
  deriving DecidableEq, Repr

/-- A core's hand-in queue (R359, R362). -/
structure Hq where
  base : Nat
  head : Nat
  tail : Nat
  recs : List HqRec
  /-- Posts made to each place (R360, TAG). -/
  posts : Sparse Nat
  /-- Device records waiting on chip, oldest first. -/
  overflow : List HqRec
  deriving DecidableEq, Repr

/-- The proctor lane of a core (R197, R198, R375). -/
structure Proctor where
  sregs : Sparse W64
  preds : BitVec 7
  fx : BitVec 5
  mathctl : W32
  pc : W64
  started : Bool
  ie : Bool
  pipend : BitVec 6
  pien : BitVec 6
  ptick : Nat
  tickT0 : Nat
  ptmiss : Nat
  pvbase : W64
  epc : W64
  evec : BitVec 16
  ecause : BitVec 16
  eaddr : W64
  run : Bool
  dbl : Bool
  lct : Lct
  /-- Sleeping until a device time (R213). -/
  wake : Option Nat
  park : Park
  relDone : Bool
  deriving DecidableEq, Repr

/-- A core (R2, R3). -/
structure Core where
  temp : BitVec 12
  droop : Nat
  avoid : Bool
  calmSince : Option Nat
  /-- RESV and STOPPED of PLCSTAT, as the latest update left them (R99). -/
  plcResv : Bool
  plcStopped : Bool
  hq : Hq
  galley : Sparse Byte
  /-- Poisoned galley lines, by line number in the core's galley. -/
  galPoison : Sparse Bool
  /-- Forme bytes: tile * 65,536 + byte. -/
  forme : Sparse Byte
  tilePoison : Sparse Bool
  proctor : Proctor
  deriving DecidableEq, Repr

/-- A context (R73 to R91). -/
structure Ctx where
  ident : W32
  dead : Bool
  maxPrio : Nat
  liveLimit : Nat
  ringBase : Nat
  sendStatus : Nat
  vectors : List (Nat × Nat)
  memdef : W32
  inboxFrame : Nat
  subPage : Option Nat
  mbPage : Option Nat
  /-- Inbox: messages waiting oldest first, next expected sequence number. -/
  inbox : List (List Byte)
  nextIn : Nat
  /-- Device-to-host ring: sent and consumed counts. -/
  sent : Nat
  consumed : Nat
  deriving DecidableEq, Repr

/-- A key slot (R73 to R75, R291). -/
structure Key where
  key : BitVec 256
  epoch : Nat
  held : Bool
  incarnation : Nat
  deriving DecidableEq, Repr

/-- A kernel descriptor's fields (R38). -/
structure KDesc where
  /-- Total size of the code object and offset of its code section (R36). -/
  size : Nat
  code : Nat
  entry : Nat
  widthCode : Nat
  maxCode : Nat
  groups : Nat
  pair : Bool
  teams : Nat
  cls : Nat
  depth : Nat
  limit : Nat
  galley : Nat
  tiles : Nat
  argSize : Nat
  deriving DecidableEq, Repr

/-- State of a launch (R95). -/
inductive LState where
  | accepted | waiting | ready | dispensed | retired
  deriving DecidableEq, Repr

/-- A launch (R80 to R95, R412). -/
structure Launch where
  ident : W64
  ctx : W32
  /-- The 128-byte record. -/
  record : List Byte
  sup : Bool
  /-- A host record: submission slot (R84). -/
  hostSlot : Option Nat
  depth : Nat
  parent : Option W64
  state : LState
  kd : KDesc
  codeVa : Nat
  prio : Nat
  cap : Nat
  grid : Nat × Nat × Nat
  cursor : Nat
  deps : List W64
  depFailed : Option W64
  acceptT : Nat
  readyT : Nat
  order : Nat
  /-- Its number was a live launch's at its acceptance (R81). -/
  dup : Bool
  retired : Nat
  dropped : Nat
  children : Nat
  flags : BitVec 8
  /-- The completion or rejection record, once it has retired or been rejected (R84, R412). -/
  outRec : List Byte
  /-- Its record could not be written, and its completion fault record is open (R414). -/
  faulted : Bool
  retireT : Nat
  /-- Its record waits for a slot on the device-to-host ring (R415), or for its page to be
  translated. -/
  ringWait : Bool
  /-- Bytes 8 to 63 of its record are stored at a physical address under a key slot, bytes 0 to 7 not yet (R414). -/
  half : Option (Nat × Nat)
  deriving DecidableEq, Repr

/-- A team barrier instance (R350): mask and the threads parked at it. -/
structure TBar where
  n : Nat
  mask : BitVec 16
  arrived : List Nat
  deriving DecidableEq, Repr

/-- A team (R34, R97): its core or pair, its galley pages, barriers, and its groups' fate. -/
structure Team where
  id : Nat
  gang : Nat
  idx : Nat
  pair : Bool
  cores : List Nat
  galley : Nat
  /-- Galley pages of the lower (or only) core and of the upper core, ascending. -/
  pages : List Nat
  pages2 : List Nat
  bars : List TBar
  groups : Nat
  exited : List Nat
  folded : Bool
  retired : Bool
  deriving DecidableEq, Repr

/-- State of a gang (R95). -/
inductive GState where
  | unplaced | live | suspending | requeued | retired
  deriving DecidableEq, Repr

/-- A gang (R34, R95, R102, R103). -/
structure Gang where
  id : Nat
  launch : W64
  linear : Nat
  prio : Nat
  state : GState
  base : Nat
  teamIds : List Nat
  liveSince : Nat
  waitSince : Nat
  order : Nat
  /-- The gang block of its pool folios: die, address of its index entry, address (R390), and each folio's address
  and length. -/
  block : Option (Nat × Nat × Nat)
  folios : List (Nat × Nat)
  deriving DecidableEq, Repr

/-- A group slot's grants (R97, R179). -/
structure Grant where
  core : Nat
  slot : Nat
  team : Nat
  /-- Byte offset and length in the partition's store. -/
  stk : Nat
  stkLen : Nat
  lanes : Nat
  tile0 : Nat
  tiles : Nat
  spill : Nat
  spillLen : Nat
  deriving DecidableEq, Repr

/-- An entry of the folio directory (R386). -/
structure FolioEnt where
  serial : Nat
  addr : W64
  ctx : W32
  seq : Nat
  lineage : Nat
  team : Nat
  grp : Nat
  /-- First lane and width of the suspended group or child. -/
  f : Nat
  width : Nat
  pool : Bool
  /-- The folio holds the team section. -/
  section_ : Bool
  /-- What the folio's layout has no place for: the group as it was suspended. -/
  shadow : Thread
  /-- Its status register, where it executed SUSPEND (R391). -/
  dest : Option Nat
  /-- Hand-in records withdrawn, to post again (R365). -/
  withdrawn : List (Nat × Nat × Mask × List Byte)
  deriving DecidableEq, Repr

/-- An FCOPY between the writing of its copy and the copy's claim (R397): who issues it, the source's address, serial
and claim sequence, and the copy's address, pieces, key slot, size and serial. -/
structure FolioCopy where
  who : Nat
  src : Nat
  serial : Nat
  seq : Nat
  dst : Nat
  pieces : List (Nat × Nat)
  key : Nat
  total : Nat
  copy : Nat
  deriving DecidableEq, Repr

/-- A copy of the compositor in the issue journal (R320). -/
structure Cpy where
  id : Nat
  /-- Threads whose token it keeps busy. -/
  owners : List Nat
  core : Nat
  slot : Nat
  f : Nat
  tok : Nat
  desc : List W64
  promise : Bool
  /-- Destination units still to be written, by number; sectors delivered. -/
  left : List Nat
  delivered : Nat
  ctx : W32
  sup : Bool
  gang : Nat
  team : Nat
  hist : Nat
  issued : Nat
  /-- When it last made progress: no packet of its next unit is older (R298). -/
  since : Nat
  /-- Parked on a hand-in record, on a blocked page, or stopped. -/
  waiting : Bool
  /-- A supervisor replay is pending, with its request's number (R322). -/
  replay : Option Nat
  report : Lct
  /-- Physical lines of its destination that it owns (R314). -/
  owned : List Nat
  /-- Address of its CPY. -/
  pc : W64
  deriving DecidableEq, Repr

/-- A part of an MMA.GANG, or the one part of an MMA or MTILE (R271, R276). -/
structure Part where
  team : Nat
  thread : Nat
  core : Nat
  tile : Nat
  ready : Bool
  deriving DecidableEq, Repr

/-- What a press operation is (R266, R275, R283): SAT, ZC, CJA, CJB; format. -/
inductive PressKind where
  | mma (sat zc cja cjb : Bool)
  | gang (sat zc cja cjb : Bool)
  | mtileZero
  | mtileSt (sat : Bool) (fmt : BitVec 3)
  | mtileLd (fmt : BitVec 3)
  deriving DecidableEq, Repr

/-- A press operation in flight (R271 to R277). -/
structure PressOp where
  id : Nat
  kind : PressKind
  /-- The issuing thread, and every thread whose mx counts it (R192). -/
  issuer : Nat
  owners : List Nat
  /-- Captured registers. -/
  desc : List W64
  /-- First descriptor register, for the locks (R273). -/
  areg : Nat
  parts : List Part
  issued : Nat
  firstReady : Option Nat
  bound : Nat
  deriving DecidableEq, Repr

/-- A trigger of a proof (R325, R326). -/
structure Trigger where
  time : Nat
  blocks : List Nat
  /-- Tags of recompute requests still open, when the supervisor recomputes (R330). -/
  tags : List Nat
  deriving DecidableEq, Repr

/-- A registered proof (R323 to R330). -/
structure Proof where
  id : Nat
  ctx : W32
  num : Nat
  /-- Home die of the master's first line. -/
  die : Nat
  masterFmt : Nat
  fmt : Nat
  stale : Bool
  sr : Bool
  seed : W64
  master : Nat
  base : Nat
  rows : Nat
  cols : Nat
  regT : Nat
  sup : Bool
  triggers : List Trigger
  /-- Where the engine last found each page of the master: virtual and physical page (log entry 83). -/
  frames : List (Nat × Nat)
  /-- The frontier at which it faulted (R329). -/
  frontier : Nat
  faulted : Option Nat
  /-- Present stamps of installed blocks; another block's is the registration time. -/
  stamps : Sparse Nat
  deriving DecidableEq, Repr

/-- A cluster reservation (R103): cluster number 0 to 11, gang's launch and index, priority. -/
structure Reserve where
  cluster : Nat
  launch : W64
  linear : Nat
  prio : Nat
  deriving DecidableEq, Repr

/-- Something the device sent outside (R78, R84, R88, R416). -/
inductive Sent where
  /-- Completion status of a host write: 0 successful, 1 retry, 2 unsupported, 3 abort. -/
  | status (code : Nat)
  /-- An MSI-X write. -/
  | msix (addr data : Nat)
  /-- Bytes a host read returned. -/
  | readData (bytes : List Byte)
  /-- A reply to a peer packet: values or data, the visible time of its writes (R343), and the lease end of a
  fill (R288). -/
  | peerReply (peer seq : Nat) (vals : List Nat) (time ends : Nat)
  /-- An operation packet to a peer. -/
  | peerPacket (pkt : PeerPacket)
  deriving DecidableEq, Repr

/-- The start sequence (R11 to R21, R28). -/
structure Boot where
  stage : Nat
  stageStart : Nat
  powerGood : Nat
  failed : Bool
  minimal : Bool
  slot : Nat
  startok : Bool
  proctorsStarted : Bool
  failCount : BitVec 16
  ring : List (List Byte)
  ringNext : Nat
  reported : Bool
  startSeq : W64
  fusedMin : W32
  deriving DecidableEq, Repr

/-- The management window (R30). -/
structure MgmtWin where
  nonce : BitVec 512
  quoteStat : Nat
  /-- The nonce of a quote that a host asked for and that is not written yet. -/
  quoteNonce : Option (BitVec 512)
  standIn : Bool
  maintOff : W64
  maintLen : W64
  maintStat : Nat
  staging : Sparse Byte
  deriving DecidableEq, Repr

/-- Which unit issues (the model's own): a partition of a core, or a core's proctor lane. -/
inductive Unit_ where
  | part (core p : Nat)
  | proctor (core : Nat)
  deriving DecidableEq, Repr

/-- Who executes the present instruction (the model's own). -/
inductive Agent where
  | thread (id : Nat)
  | proctor (core : Nat)
  deriving DecidableEq, Repr

/-- The whole device. -/
structure State where
  /-- Device time in ns (R8). -/
  time : Nat
  /-- Steps of the device to take next, with their operands (log entry 1). -/
  agenda : List (Instr × EvArg)
  /-- Operands of the step being taken (log entry 5). -/
  arg : EvArg
  turns : List Unit_
  dts : List Nat
  rr : Nat
  cur : Agent
  nextId : Nat
  fresh : Nat
  boot : Boot
  flash : Sparse Byte
  meas : Sparse (BitVec 512)
  measDig : BitVec 512
  measStat : Nat
  qNonce : BitVec 512
  qStat : Nat
  /-- Pending quote of QCMD: destination and nonce. -/
  qPending : Option (Nat × BitVec 512)
  mw : MgmtWin
  pwrCap : Nat
  pwrIn : Nat
  clockLow : Bool
  powerLost : Option Nat
  ptpBound : Nat
  ptpSkew : Nat
  ptpReported : Nat
  keySealSt : Nat
  keys : List (Nat × Key)
  ctxRoot : Nat
  ctxStat : W64
  tdId : W32
  tdStep : Nat
  tdWait : List W32
  ctxs : List Ctx
  dies : List Die
  cores : List Core
  threads : List Thread
  grants : List Grant
  teams : List Team
  gangs : List Gang
  launches : List Launch
  reserves : List Reserve
  outs : List Out
  flight : List Write
  lines : List (Nat × LineInfo)
  /-- Copies of lines; of one cache, the least recently used first (R288, R289). -/
  caches : List Copy
  /-- The directories of the dies (R287). -/
  dirs : List DirEntry
  redBuf : List RedLine
  mem : List Host.Cell
  /-- Slot and key epoch that each line was last written under (R290); (0, 0) is none. -/
  tags : Sparse (Nat × Nat)
  /-- Cause of each poisoned line: 0x92 or 0x93, or in a folio that of its source (R374, R385). -/
  memPoison : Sparse Nat
  /-- Lines of the second tier and of expanders written since CFLUSH last covered them (R27, R305). -/
  dirty : Sparse Bool
  tlb : List TlbEntry
  walks : List Walk
  held : List Held
  /-- Table entries that the walkers keep (R126). -/
  wcache : List WalkerEntry
  blocks : List Block
  cpys : List Cpy
  pressOps : List PressOp
  proofs : List Proof
  folios : List FolioEnt
  fcopies : List FolioCopy
  nextSerial : Nat
  /-- Packets of peers already executed (R298). -/
  peerSeen : List (Nat × Nat)
  /-- The export table: page of the export window and physical address of its frame (R117; log entry 84). -/
  exports : List (Nat × Nat)
  /-- Sequence number of the next packet to each peer (R298). -/
  peerNext : Sparse Nat
  hostLog : List Sent
  /-- Latest visible time of a host write (R342). -/
  hostTime : Nat
  deriving DecidableEq, Repr

/-- The byte that an unlisted address reads as (log entry 4). -/
abbrev memDefault : Byte := 0

def Lct.zero : Lct := ⟨0, 0, 0, 0⟩

def Boot.reset : Boot :=
  { stage := 0, stageStart := 0, powerGood := 0, failed := false, minimal := false, slot := 0
    startok := false, proctorsStarted := false, failCount := 0, ring := [], ringNext := 0
    reported := false, startSeq := 0, fusedMin := 0 }

def MgmtWin.reset : MgmtWin :=
  { nonce := 0, quoteStat := 0, quoteNonce := none, standIn := false, maintOff := 0, maintLen := 0, maintStat := 0
    staging := [] }

/-- A die at reset: FMODE 0 (R23), ACTHRESH 0x0100 (R130), GANGBND 200,000 (R279), BELLCTL
1,000,000 (R370), DROOPBND 8 (R99), the shootdown counters 0 (R132). -/
def Die.reset : Die :=
  { fmode := 0, fmodeNew := none, acThresh := 0x100, acResult := 0, counters := [], shootQ := []
    shootAcc := 0, shootDone := 0, shootBad := 0, spillBase := 0, spillSize := 0, spillNew := none
    gangBnd := 200000, poolBase := 0, poolSize := 0, poolNew := none, keyMiss := 0, callIdem := 0
    bellCtl := 1000000, bellCnt := 0, migAddr := 0, migCount := 0, migCur := none, migWait := []
    seCorr := 0, seUnc := 0, droopBnd := 8, stDisc := 0, stopped := false, stopping := 0
    stopTemp := 0, cool := false, coolSince := 0, clockMHz := 1100, plcAt := 0, floors := [] }

/-- HQBASE is 0 at reset: no queue (R359). -/
def Hq.reset : Hq := { base := 0, head := 0, tail := 0, recs := [], posts := [], overflow := [] }

/-- PIEN bit 5 reads 1 and PTICK defaults to 1,000 (R198). -/
def Proctor.reset : Proctor :=
  { sregs := [], preds := 0, fx := 0, mathctl := 0, pc := 0, started := false, ie := false
    pipend := 0, pien := 0x20, ptick := 1000, tickT0 := 0, ptmiss := 0, pvbase := 0, epc := 0
    evec := 0, ecause := 0, eaddr := 0, run := false, dbl := false, lct := Lct.zero
    wake := none, park := .run, relDone := false }

def Core.reset : Core :=
  { temp := 0, droop := 0, avoid := false, calmSince := none, plcResv := false, plcStopped := false, hq := Hq.reset, galley := []
    galPoison := [], forme := [], tilePoison := [], proctor := Proctor.reset }

/-- The supervisor's own context of slot 0 (R73). -/
def Ctx.supervisor : Ctx :=
  { ident := 0x1000, dead := false, maxPrio := 7, liveLimit := 65536, ringBase := 0
    sendStatus := 0, vectors := [], memdef := 0x20, inboxFrame := 0, subPage := none
    mbPage := none, inbox := [], nextIn := 1, sent := 0, consumed := 0 }

/-- The device right after reset, before the mask ROM has done anything (R11, R14, R17). -/
def State.reset : State :=
  { time := 0, agenda := [], arg := EvArg.zero, turns := [], dts := [], rr := 0, cur := .proctor 0, nextId := 1
    fresh := 0, boot := Boot.reset, flash := [], meas := [], measDig := 0, measStat := 0
    qNonce := 0, qStat := 0, qPending := none, mw := MgmtWin.reset, pwrCap := 2600, pwrIn := 0
    clockLow := false, powerLost := none, ptpBound := 50, ptpSkew := 0, ptpReported := 0
    keySealSt := 0, keys := [(0, ⟨0, 1, true, 1⟩)], ctxRoot := 0, ctxStat := 0, tdId := 0
    tdStep := 0, tdWait := [], ctxs := [Ctx.supervisor]
    dies := List.replicate 4 Die.reset, cores := List.replicate 48 Core.reset
    threads := [], grants := [], teams := [], gangs := [], launches := [], reserves := []
    outs := [], flight := [], lines := [], caches := [], dirs := [], redBuf := [], mem := [], tags := []
    memPoison := [], dirty := [], tlb := [], walks := [], held := [], wcache := [], blocks := [], cpys := [], pressOps := []
    proofs := [], folios := [], fcopies := [], nextSerial := 1, peerSeen := [], exports := [], peerNext := [], hostLog := [], hostTime := 0 }

end Sys2Proof.Machine
end

