-- ==== Sys2Proof/Machine/Ops.lean ====
section
/-! DEFINITION. The named operations over the state: threads, cores, dies, registers, the bytes of
memory at their home, the hand-in queues (R358 to R362), and taking a trap (R356, R358, R376). -/

namespace Sys2Proof.Machine

/-! ## Parts of the device -/

/-- Die of a core number (R6). -/
def dieOf (core : Nat) : Nat := core / 12

/-- Cluster of a core number, 0 to 11 over the device (R6). -/
def clusterOf (core : Nat) : Nat := core / 4

def State.thread? (s : State) (id : Nat) : Option Thread := s.threads.find? (fun t => t.id == id)

/-- The state with the thread of the same number replaced. -/
def State.setThread (s : State) (t : Thread) : State :=
  { s with threads := s.threads.map (fun u => if u.id == t.id then t else u) }

def State.core (s : State) (c : Nat) : Core := s.cores.getD c Core.reset

def State.setCore (s : State) (c : Nat) (k : Core) : State :=
  { s with cores := modifyAt s.cores c (fun _ => k) }

def State.die (s : State) (d : Nat) : Die := s.dies.getD d Die.reset

def State.setDie (s : State) (d : Nat) (x : Die) : State :=
  { s with dies := modifyAt s.dies d (fun _ => x) }

def State.setProctor (s : State) (c : Nat) (p : Proctor) : State :=
  s.setCore c { s.core c with proctor := p }

def State.setHq (s : State) (c : Nat) (q : Hq) : State := s.setCore c { s.core c with hq := q }

def State.ctx? (s : State) (ident : W32) : Option Ctx := s.ctxs.find? (fun c => c.ident == ident)

def State.setCtx (s : State) (c : Ctx) : State :=
  { s with ctxs := s.ctxs.map (fun x => if x.ident == c.ident then c else x) }

def State.launch? (s : State) (ident : W64) : Option Launch :=
  s.launches.find? (fun l => l.ident == ident)

def State.setLaunch (s : State) (l : Launch) : State :=
  { s with launches := s.launches.map (fun x => if x.ident == l.ident then l else x) }

def State.team? (s : State) (id : Nat) : Option Team := s.teams.find? (fun t => t.id == id)

def State.setTeam (s : State) (t : Team) : State :=
  { s with teams := s.teams.map (fun x => if x.id == t.id then t else x) }

def State.gang? (s : State) (id : Nat) : Option Gang := s.gangs.find? (fun g => g.id == id)

def State.setGang (s : State) (g : Gang) : State :=
  { s with gangs := s.gangs.map (fun x => if x.id == g.id then g else x) }

/-- Key slot of a context identity (R73): bits 11:0. -/
def slotOfCtx (ctx : W32) : Nat := ctx.toNat % 4096

/-- A fresh number, and the state that has given it out. -/
def State.newId (s : State) : Nat × State := (s.nextId, { s with nextId := s.nextId + 1 })

/-- A free value with no rule of its own (log entry 6). -/
def State.freeValue (s : State) : W64 × State :=
  (Config.freeWord s.fresh, { s with fresh := s.fresh + 1 })

/-- A die that is stopped or stopping: its front end places nothing on its cores (R32). -/
def State.halting (s : State) (d : Nat) : Bool := (s.die d).stopped || (s.die d).stopping != 0

/-- A function mode of a die (R22). -/
def State.mode (s : State) (die bitNo : Nat) : Bool := (s.die die).fmode.getLsbD bitNo

/-! ## Memory at its home -/

/-- What a physical address names (R117). -/
inductive Region where
  | hbm (die : Nat)
  | ctl (die off : Nat)
  | tier2 (die : Nat)
  | cxl (die : Nat)
  | host
  | peer (n : Nat)
  | none
  deriving DecidableEq, Repr

/-- The physical map (R117). -/
def regionOf (pa : Nat) : Region :=
  if pa < 0x6000000000 then .hbm (pa / 0x1800000000)
  else if pa < 0xF000000000 then .none
  else if pa < 0xF400000000 then .ctl ((pa - 0xF000000000) / 0x100000000) (pa % 0x100000000)
  else if pa < 0x10000000000 then .none
  else if pa < 0x50000000000 then .tier2 (pa / 0x10000000000 - 1)
  else if pa < 0x100000000000 then .none
  else if pa < 0x200000000000 then
    let d := (pa - 0x100000000000) / 0x40000000000
    if d < 4 && (pa - 0x100000000000) % 0x40000000000 < Config.expanderBytes d then .cxl d else .none
  else if pa < 0x2000000000000 then .none
  else if pa < 0x3000000000000 then .host
  else if pa < 0x8000000000000 then .none
  else if pa < 0x10000000000000 then .peer (pa / 2 ^ 40 % 2048)
  else .none

/-- The die that is a line's home; die 0's host agent for the host window (R285). -/
def homeDie (pa : Nat) : Nat :=
  match regionOf pa with
  | .hbm d => d | .ctl d _ => d | .tier2 d => d | .cxl d => d | _ => 0

/-- Storage that the device encrypts (R290). -/
def encrypted (pa : Nat) : Bool :=
  match regionOf pa with
  | .hbm _ => true | .tier2 _ => true | .cxl _ => true | _ => false

/-- The line of an address (R285). -/
def lineOf (pa : Nat) : Nat := pa / 128 * 128

/-- Key epoch a slot holds (R291); 0 where it holds no key. -/
def State.epochOf (s : State) (slot : Nat) : Nat :=
  match lookup s.keys slot with
  | some k => if k.held then k.epoch else 0
  | none => 0

/-- The tag that a write under a slot leaves (R290). -/
def State.keyTag (s : State) (slot : Nat) : Nat × Nat := (slot, s.epochOf slot)

/-- Whether a line reads as its plaintext under a slot (R290). -/
def State.tagReads (s : State) (line slot : Nat) : Bool :=
  !encrypted line || Sparse.get s.tags (0, 0) line == s.keyTag slot

/-- A byte at its home under a key slot, before pending writes are looked at. -/
def State.homeByte (s : State) (pa slot : Nat) : Byte :=
  if s.tagReads (lineOf pa) slot then Sparse.get s.mem 0 pa else 0

/-- Whether a read meets a line of another tag, so that KEYMISS counts it (R290). -/
def State.keyMisses (s : State) (line slot : Nat) : Bool :=
  encrypted line && Sparse.get s.tags (0, 0) line != (0, 0) && !s.tagReads line slot

/-- The line retagged for a write under a slot: what the write does not supply becomes zero where
the tag changes (R290). -/
def State.retag (s : State) (line slot : Nat) : State :=
  if !encrypted line then s
  else if s.tagReads line slot then s
  else
    { s with
      mem := Sparse.drop s.mem (fun a => line ≤ a && a < line + 128)
      tags := Sparse.set s.tags (0, 0) line (s.keyTag slot) }

/-- Memory that keeps its contents through a device reset, once they have left the L2 (R27, R291). -/
def lasting (pa : Nat) : Bool :=
  match regionOf pa with
  | .tier2 _ => true | .cxl _ => true | _ => false

/-- The L2 of a die among the caches. -/
def l2Of (die : Nat) : Nat := 52 + die

/-- Whether the L2 of its home die holds a line (R285). -/
def State.inL2 (s : State) (line : Nat) : Bool :=
  s.caches.any (fun c => c.place == l2Of (homeDie line) && c.line == line)

/-- One byte stored at its home; a line that only the L2 has is dirty. -/
def State.setByte (s : State) (pa slot : Nat) (b : Byte) : State :=
  let s := s.retag (lineOf pa) slot
  { s with mem := Sparse.set s.mem 0 pa b
           dirty := if lasting pa && s.inL2 (lineOf pa) then Sparse.set s.dirty false (lineOf pa) true else s.dirty }

/-- Bytes of a line by offset stored at their home; a write of all 128 clears its poison (R374). -/
def State.setLine (s : State) (line slot : Nat) (bs : List (Nat × Byte)) : State :=
  let s := bs.foldl (fun s e => s.setByte (line + e.1) slot e.2) s
  if (dedup (bs.map (·.1))).length == 128 then
    { s with memPoison := Sparse.set s.memPoison 0 line 0 }
  else s

/-- A byte that the device itself stores: at its home at once, or last in coherence order where
writes to its line are pending (R334). -/
def State.storeByte (s : State) (pa slot : Nat) (b : Byte) : State :=
  let line := lineOf pa
  match lookup s.lines line with
  | some l =>
    match l.pend.getLast? with
    | some w =>
      let p : Pend := { w with bytes := [(pa - line, b)], hists := [], scope := 5, arr := none, outs := [] }
      { s with lines := put s.lines line { l with pend := l.pend ++ [p] } }
    | none => s.setByte pa slot b
  | none => s.setByte pa slot b

/-- Consecutive bytes as the device itself stores them. -/
def State.store (s : State) (pa slot : Nat) : List Byte → State
  | [] => s
  | b :: bs => State.store (s.storeByte pa slot b) (pa + 1) slot bs

/-- Consecutive bytes as the device itself reads them: the latest of each in coherence order. -/
def State.latest (s : State) (pa slot : Nat) : Byte :=
  let line := lineOf pa
  match lookup s.lines line with
  | some l =>
    match (l.pend.reverse.filterMap (fun w => lookup w.bytes (pa - line))).head? with
    | some b => b
    | none => s.homeByte pa slot
  | none => s.homeByte pa slot

/-- Consecutive bytes as the device itself reads them. -/
def State.load (s : State) (pa slot : Nat) : Nat → List Byte
  | 0 => []
  | n + 1 => s.latest pa slot :: s.load (pa + 1) slot n

/-- A little-endian number the device itself reads. -/
def State.loadNat (s : State) (pa slot n : Nat) : Nat := leNat (s.load pa slot n)

/-! ## Hand-in queues -/

/-- Places in a hand-in ring (R359). -/
def ringSize : Nat := 4096

/-- A record to post: R360 gives the header fields, R361 the payload. -/
structure Post where
  kind : Nat
  key : Nat
  sup : Bool
  slot : Nat
  lane : Nat
  mask : Mask
  poster : Option Nat
  payload : List Byte
  deriving DecidableEq, Repr

/-- Exactly n bytes: cut, or zeros added. -/
def padTo (n : Nat) (bs : List Byte) : List Byte :=
  bs.take n ++ List.replicate (n - bs.length) 0

/-- Header of a record (R360). -/
def recHeader (key tag taker : Nat) (sup : Bool) (slot lane kind state : Nat) : List Byte :=
  leBytes 8 (key % 4096 * 2 ^ 48 + tag % 65536 * 2 ^ 32 + taker % 64 * 2 ^ 21 + b2n sup * 2 ^ 20
    + slot % 64 * 2 ^ 14 + lane % 64 * 2 ^ 8 + kind % 64 * 4 + state % 4)

/-- Tag of the record that the next post to a place makes (R360). -/
def postTag (q : Hq) (place : Nat) : Nat := (Sparse.get q.posts 0 place % 16) * 4096 + place

/-- Free places of a ring: it is full when advancing TAIL would reach HEAD (R359). -/
def Hq.free (q : Hq) : Nat :=
  if q.base == 0 then 0 else ringSize - 1 - (q.tail + ringSize - q.head) % ringSize

/-- The record's bytes in its ring (R359). -/
def State.mirror (s : State) (core : Nat) (r : HqRec) : State :=
  let b := (s.core core).hq.base
  if b == 0 then s else s.store (b + 64 * r.place) 0 r.bytes

/-- One record posted at TAIL (R359, R360). -/
def State.post1 (s : State) (core : Nat) (p : Post) : State :=
  let q := (s.core core).hq
  let tag := postTag q q.tail
  let r : HqRec :=
    { place := q.tail
      bytes := recHeader p.key tag 0 p.sup p.slot p.lane p.kind 1 ++ padTo 56 p.payload
      kind := p.kind, state := 1, taker := none, poster := p.poster, lane := p.lane, mask := p.mask
      answer := none, order := 0 }
  let q' : Hq :=
    { q with tail := (q.tail + 1) % ringSize, recs := q.recs ++ [r]
             posts := Sparse.set q.posts 0 q.tail (Sparse.get q.posts 0 q.tail + 1) }
  (s.setHq core q').mirror core r

/-- A group's records, posted all at once or not at all (R362). -/
def State.postAll (s : State) (core : Nat) (ps : List Post) : Option State :=
  if ps.length ≤ (s.core core).hq.free then some (ps.foldl (fun s p => s.post1 core p) s) else none

/-- Records that the on-chip overflow holds (R362). -/
def overflowSize : Nat := 64

/-- A waiting device record kept on chip, still without a place. -/
def waitingRec (p : Post) : HqRec :=
  { place := 0, bytes := recHeader p.key 0 0 p.sup p.slot p.lane p.kind 0 ++ padTo 56 p.payload
    kind := p.kind, state := 0, taker := none, poster := p.poster, lane := p.lane, mask := p.mask
    answer := none, order := 0 }

/-- A device record: posted, or kept in the overflow in its order of arrival (R362). A record that
finds the overflow full waits with its source, which the model keeps in the same list (log
entry 12). -/
def State.postDevice (s : State) (core : Nat) (p : Post) : State :=
  let q := (s.core core).hq
  if q.overflow.isEmpty && 0 < q.free then s.post1 core p
  else s.setHq core { q with overflow := q.overflow ++ [waitingRec p] }

/-- Whether a record that is dropped when nothing has room could be taken (R362). -/
def State.deviceRoom (s : State) (core : Nat) : Bool :=
  let q := (s.core core).hq
  (q.overflow.isEmpty && 0 < q.free) || q.overflow.length < overflowSize

/-- Number in the header of a record (R360). -/
def HqRec.header (r : HqRec) : Nat := leNat (r.bytes.take 8)

/-- Key slot in the header of a record (R360). -/
def HqRec.key (r : HqRec) : Nat := bits r.header 48 12

/-- The post that makes a record with the same contents: of one that waited on chip, or of one that is posted
again. -/
def HqRec.post (r : HqRec) : Post :=
  { kind := r.kind, key := r.key, sup := bit r.header 20, slot := bits r.header 14 6, lane := bits r.header 8 6
    mask := r.mask, poster := r.poster, payload := r.bytes.drop 8 }

/-- Waiting device records posted in their order while there is room (R359, R362). -/
def State.drainOverflow (s : State) (core : Nat) : Nat → State
  | 0 => s
  | n + 1 =>
    let q := (s.core core).hq
    match q.overflow with
    | [] => s
    | r :: rest =>
      if 0 < q.free then
        ((s.setHq core { q with overflow := rest }).post1 core r.post).drainOverflow core n
      else s

/-- HEAD advanced over places whose records are free (R359): records in the ring are those listed. -/
def advanceHead (q : Hq) : Nat → Hq
  | 0 => q
  | n + 1 =>
    if q.head == q.tail || q.recs.any (fun r => r.place == q.head) then q
    else advanceHead { q with head := (q.head + 1) % ringSize } n

/-- Records freed (R365), HEAD advanced, and waiting records posted. -/
def State.freeRecs (s : State) (core : Nat) (gone : HqRec → Bool) : State :=
  let q := (s.core core).hq
  let out := q.recs.filter gone
  let q' := advanceHead { q with recs := q.recs.filter (fun r => !gone r) } ringSize
  let s := out.foldl (fun s r => s.mirror core
    { r with bytes := padTo 64 ((BitVec.ofNat 8 (r.kind * 4) : Byte) :: r.bytes.drop 1) }) s
  (s.setHq core q').drainOverflow core (overflowSize + out.length)

/-- TAG of a record (R360). -/
def HqRec.tag (r : HqRec) : Nat := leNat ((r.bytes.drop 4).take 2)

/-- Whether a host stands in for the supervisor (R25): it has claimed the role and no supervisor runs, before the
proctor lanes start and in minimal mode. -/
def State.standsIn (s : State) : Bool := s.mw.standIn && (!s.boot.proctorsStarted || s.boot.minimal)

/-- The device's request that an answer on a core names by its tag: a record in the ring; or, for a stand-in
host, one that waits on chip, for which the low 16 bits of its source's number stand (R25; log entry 80). -/
def State.request (s : State) (core kind tag : Nat) : Option HqRec :=
  let q := (s.core core).hq
  match q.recs.find? (fun r => r.kind == kind && r.tag == tag) with
  | some r => some r
  | none =>
    if s.standsIn then q.overflow.find? (fun r => r.kind == kind && r.poster.getD 0 % 65536 == tag) else none

/-- A request that its answer has ended: its record is freed, or leaves the overflow. -/
def State.endRequest (s : State) (core : Nat) (r : HqRec) : State :=
  let q := (s.core core).hq
  if q.recs.any (fun x => x.kind == r.kind && x.tag == r.tag) && r.state != 0 then
    s.freeRecs core (fun x => x.kind == r.kind && x.tag == r.tag)
  else s.setHq core { q with overflow := q.overflow.filter (· != r) }

/-- A record of a device engine (R360). -/
def devicePost (kind key : Nat) (source : Option Nat) (payload : List Byte) : Post :=
  { kind := kind, key := key, sup := false, slot := 0, lane := 0, mask := 0, poster := source
    payload := payload }

/-- A page-fault record of a copy (R312). -/
def HqRec.copyFault (r : HqRec) : Bool := r.kind == 0x02 && decide (4 ≤ (r.bytes.getD 25 0).toNat)

/-- A record that a thread waits for. -/
def HqRec.ofThread (r : HqRec) : Bool :=
  r.kind == 0x01 || r.kind == 0x03 || (r.kind == 0x02 && !r.copyFault)

/-- Records of a thread's instruction, on whichever core they stand, with that core. -/
def State.recsOf (s : State) (id : Nat) : List (Nat × HqRec) :=
  (List.range s.cores.length).flatMap (fun c =>
    ((s.core c).hq.recs.filter (fun r => r.poster == some id && r.ofThread)).map (fun r => (c, r)))

/-- Records of a thread's instruction that a condition names are freed. -/
def State.freeOf (s : State) (id : Nat) (p : HqRec → Bool) : State :=
  (dedup (((s.recsOf id).filter (fun x => p x.2)).map (·.1))).foldl (fun (s : State) c =>
    s.freeRecs c (fun r => r.poster == some id && r.ofThread && p r)) s

/-- Nobody waits for a group's record any more: its poster is neither resident nor in a folio. -/
def State.posterGone (s : State) (r : HqRec) : Bool :=
  match r.poster with
  | some id => r.ofThread && (s.thread? id).isNone && !s.folios.any (fun e => e.shadow.id == id)
  | none => false

/-- Whether a queue holds a posted record: input bit 1 of PIPEND (R198, R359). -/
def Hq.posted (q : Hq) : Bool := q.recs.any (fun r => r.state == 1)

/-! ## Registers of a thread and of a proctor lane -/

/-- Register of a thread: s0 to s95, 64 bits (R183). -/
def Thread.sreg (t : Thread) (n : Nat) : W64 := Sparse.get t.sregs 0 n

def Thread.setSreg (t : Thread) (n : Nat) (v : W64) : Thread :=
  { t with sregs := Sparse.set t.sregs 0 n v }

/-- Store key of register vi of lane l: slot q mod D of the store, and the lane's index in the
undivided group (R175, R177). -/
def Thread.vkey (t : Thread) (i l : Nat) : Nat := (t.wp + i) % t.dres * 64 + (t.f + l)

def Thread.vreg (t : Thread) (i l : Nat) : W32 := Sparse.get t.store 0 (t.vkey i l)

/-- A store word written: its poison ends (R374). -/
def Thread.setStore (t : Thread) (key : Nat) (v : W32) : Thread :=
  { t with store := Sparse.set t.store 0 key v
           storePoison := Sparse.set t.storePoison false key false }

def Thread.setVreg (t : Thread) (i l : Nat) (v : W32) : Thread := t.setStore (t.vkey i l) v

/-- A register pair of a lane: the low half in vi (R48). -/
def Thread.vpair (t : Thread) (i l : Nat) : W64 := t.vreg (i + 1) l ++ t.vreg i l

def Thread.setVpair (t : Thread) (i l : Nat) (v : W64) : Thread :=
  (t.setVreg i l (v.extractLsb' 0 32)).setVreg (i + 1) l (v.extractLsb' 32 32)

/-- p0 to p6 of a lane; p7 reads true (R183). -/
def Thread.pred (t : Thread) (n l : Nat) : Bool :=
  if n == 7 then true else (Sparse.get t.preds 0 n).getLsbD l

def Thread.setPred (t : Thread) (n l : Nat) (v : Bool) : Thread :=
  let m := Sparse.get t.preds 0 n
  { t with preds := Sparse.set t.preds 0 n (if v then m ||| laneBit l else m &&& ~~~(laneBit l)) }

/-- Sticky flags of a lane (R59). -/
def Thread.flags (t : Thread) (l : Nat) : BitVec 5 := Sparse.get t.fx 0 (t.f + l)

def Thread.setFlags (t : Thread) (l : Nat) (v : BitVec 5) : Thread :=
  { t with fx := Sparse.set t.fx 0 (t.f + l) v }

/-- Flags are only ever added (R59). -/
def Thread.addFlags (t : Thread) (l : Nat) (v : BitVec 5) : Thread :=
  if v == 0 then t else t.setFlags l (t.flags l ||| v)

def Thread.tok (t : Thread) (k : Nat) : Tok := Sparse.get t.toks .idle k

def Thread.setTok (t : Thread) (k : Nat) (v : Tok) : Thread :=
  { t with toks := Sparse.set t.toks .idle k v }

/-- Where the numbers of proctor lanes begin: far above every number that `newId` gives out. -/
def laneNumber : Nat := 2 ^ 64

/-- Owner number of a proctor lane's accesses. -/
def proctorOwner (core : Nat) : Nat := laneNumber + core

/-- The present agent's own number. -/
def State.self (s : State) : Nat :=
  match s.cur with
  | .thread id => id
  | .proctor c => proctorOwner c

/-- The core the present agent is on. -/
def State.here (s : State) : Nat :=
  match s.cur with
  | .thread id => match s.thread? id with | some t => t.core | none => 0
  | .proctor c => c

/-- Context identity of the present agent (R73): the supervisor's for a proctor lane. -/
def State.ctxHere (s : State) : W32 :=
  match s.cur with
  | .thread id => match s.thread? id with | some t => t.ctx | none => 0
  | .proctor _ => 0x1000

/-- Whether the present agent is in supervisor mode (R196, R197). -/
def State.supHere (s : State) : Bool :=
  match s.cur with
  | .thread id => match s.thread? id with | some t => t.sup | none => false
  | .proctor _ => true

/-- Uniform register of the present agent. -/
def State.sreg (s : State) (n : Nat) : W64 :=
  match s.cur with
  | .thread id => match s.thread? id with | some t => t.sreg n | none => 0
  | .proctor c => Sparse.get (s.core c).proctor.sregs 0 n

def State.setSreg (s : State) (n : Nat) (v : W64) : State :=
  match s.cur with
  | .thread id => match s.thread? id with | some t => s.setThread (t.setSreg n v) | none => s
  | .proctor c =>
    let p := (s.core c).proctor
    s.setProctor c { p with sregs := Sparse.set p.sregs 0 n v }

/-- Program counter of the present agent (R135). -/
def State.pc (s : State) : W64 :=
  match s.cur with
  | .thread id => match s.thread? id with | some t => t.pc | none => 0
  | .proctor c => (s.core c).proctor.pc

/-- Thread t gone on to an address: it runs, and what the instruction at its pc kept is forgotten. -/
def Thread.wentOn (t : Thread) (pc : W64) : Thread :=
  { t with pc := pc, park := .run, relDone := false, only := none }

/-- The present agent continues at an address, running; what its instruction kept is forgotten. -/
def State.goto (s : State) (pc : W64) : State :=
  match s.cur with
  | .thread id =>
    match s.thread? id with
    | some t => s.setThread (t.wentOn pc)
    | none => s
  | .proctor c =>
    s.setProctor c { (s.core c).proctor with pc := pc, park := .run, relDone := false, wake := none }

/-- The present agent's instruction finds its condition unmet and issues again later. -/
def State.poll (s : State) : State :=
  match s.cur with
  | .thread id => match s.thread? id with | some t => s.setThread { t with park := .poll } | none => s
  | .proctor c => s.setProctor c { (s.core c).proctor with park := .poll }

/-- Words of an instruction (R136). -/
def lenOf (h : Hdr) : Nat :=
  b2n h.mmod.isSome + b2n h.lmod.isSome + 1 + b2n (h.x != .none)

/-- Byte address after an instruction at pc (R136): packets follow one another. -/
def nextPc (pc : W64) (h : Hdr) : W64 := pc + BitVec.ofNat 64 (4 * lenOf h)

/-- The present agent continues at the next instruction. -/
def State.advance (s : State) (h : Hdr) : State := s.goto (nextPc s.pc h)

/-! ## Traps -/

/-- Trap vectors (R357). -/
def vIllegal : Nat := 0x00
def vChain : Nat := 0x01
def vPrivilege : Nat := 0x02
def vMisalign : Nat := 0x03
def vPageFault : Nat := 0x04
def vProtection : Nat := 0x05
def vGalley : Nat := 0x06
def vSpill : Nat := 0x07
def vFill : Nat := 0x08
def vMembership : Nat := 0x09
def vPromise : Nat := 0x0B
def vProof : Nat := 0x0C
def vDoubleResume : Nat := 0x0D
def vDisplaced : Nat := 0x0E
def vFolioAccess : Nat := 0x0F
def vPeerTimeout : Nat := 0x10
def vSoftError : Nat := 0x11
def vBreakpoint : Nat := 0x12
def vTimer : Nat := 0x14
def vInterrupt : Nat := 0x15

/-- A trap of a group: its class, cause, lanes, fault address or new promise, and token (R361). -/
structure TrapInfo where
  vector : Nat
  cause : Nat
  lanes : Mask
  addr : Nat
  tok : Nat
  deriving DecidableEq, Repr

/-- A trap of every lane of the group's path with no address and no token. -/
def plainTrap (vector cause : Nat) (lanes : Mask) : TrapInfo := ⟨vector, cause, lanes, 0, 0⟩

/-- Lowest lane of a mask, 0 for the empty one. -/
def lowLane (m : Mask) : Nat := ((lanesOf m).head?).getD 0

/-- Vectors whose record holds a fault address, or the new promise (R361). -/
def addressed (vector : Nat) : Bool :=
  [vMisalign, vProtection, vGalley, vPromise, vSoftError].contains vector

/-- Payload of a trap record (R361, kind 0x01): bytes 8 to 63. -/
def trapPayload (i : TrapInfo) (pc : W64) : List Byte :=
  [BitVec.ofNat 8 i.vector, BitVec.ofNat 8 i.cause, BitVec.ofNat 8 i.tok, 0, 0, 0, 0, 0]
    ++ leBytes 8 i.lanes.toNat ++ leBytes 8 pc.toNat ++ leBytes 8 (if addressed i.vector then i.addr else 0)

/-- A post by a thread. -/
def threadPost (t : Thread) (kind lane : Nat) (mask : Mask) (payload : List Byte) : Post :=
  { kind := kind, key := slotOfCtx t.ctx, sup := t.sup, slot := t.slot, lane := lane, mask := mask
    poster := some t.id, payload := payload }

/-- A thread parks on its records (R358), with the address where it would continue. -/
def Thread.parkRecords (t : Thread) (after : W64) : Thread :=
  { t with park := .records, after := after }

/-- TAKING A TRAP in a group (R356, R358): the record, with the saved address, goes to the group's
own queue and the group parks, in one step; a group that finds no free place stays unready
(R362). -/
def State.trapThread (s : State) (t : Thread) (i : TrapInfo) (pc after : W64) : State :=
  match s.postAll t.core [threadPost t 0x01 (t.f + lowLane i.lanes) i.lanes (trapPayload i pc)] with
  | some s => s.setThread ({ t with pc := pc }.parkRecords after)
  | none => s.setThread { t with park := .poll }

/-- TAKING A TRAP or an interrupt on a proctor lane (R376): EVEC, ECAUSE and EADDR written, EPC the
saved address, IE cleared, and on to PVBASE + 192 × vector; with IE already clear it is a double
trap, which stops the lane and signals the core that R376 names. -/
def State.trapProctor (s : State) (c vector cause addr : Nat) (epc : W64) (interrupt : Bool) :
    State :=
  let p := (s.core c).proctor
  if !interrupt && !p.ie then
    let d := dieOf c
    let other := if c == 12 * d then 12 * ((d + 1) % 4) else 12 * d
    let s := s.setProctor c { p with run := false, dbl := true, park := .run }
    let q := (s.core other).proctor
    s.setProctor other { q with pipend := q.pipend ||| 0x10 }
  else
    s.setProctor c
      { p with evec := BitVec.ofNat 16 vector, ecause := BitVec.ofNat 16 cause
               eaddr := BitVec.ofNat 64 addr, epc := epc, ie := false
               pc := p.pvbase + BitVec.ofNat 64 (192 * vector), park := .run, relDone := false
               wake := none }

/-- The present agent traps at its instruction (R356). -/
def State.trapAt (s : State) (h : Hdr) (i : TrapInfo) : State :=
  match s.cur with
  | .thread id =>
    match s.thread? id with
    | some t => s.trapThread t i t.pc (nextPc t.pc h)
    | none => s
  | .proctor c => s.trapProctor c i.vector i.cause i.addr (s.core c).proctor.pc false

/-- A trap of the present agent with its execution mask, no address and no token. -/
def State.trap (s : State) (h : Hdr) (vector cause : Nat) : State :=
  let m : Mask := match s.cur with
    | .thread id => match s.thread? id with | some t => t.exec | none => 0
    | .proctor _ => 0
  s.trapAt h (plainTrap vector cause m)

/-- A trap of the present agent at an address. -/
def State.trapAddr (s : State) (h : Hdr) (vector cause addr : Nat) : State :=
  let m : Mask := match s.cur with
    | .thread id => match s.thread? id with | some t => t.exec | none => 0
    | .proctor _ => 0
  s.trapAt h ⟨vector, cause, m, addr, 0⟩

/-- RETURN on a proctor lane (R377): pc := EPC and IE := 1 in one step; an EPC with bits 1:0 not
zero raises the misalignment trap. -/
def State.returnProctor (s : State) (c : Nat) : State :=
  let p := (s.core c).proctor
  if p.epc.toNat % 4 != 0 then s.trapProctor c vMisalign 0x08 p.epc.toNat p.pc false
  else s.setProctor c { p with pc := p.epc, ie := true, park := .run }

/-! ## Ends of waiting -/

/-- Every unit whose instruction found its condition unmet issues again. -/
def State.wakeAll (s : State) : State :=
  { s with
    threads := s.threads.map (fun t => if t.park == .poll then { t with park := .run } else t)
    cores := s.cores.map (fun k =>
      if k.proctor.park == .poll then { k with proctor := { k.proctor with park := .run } } else k) }

end Sys2Proof.Machine
end

