-- ==== Sys2Proof/Machine/Operands.lean ====
section
/-! DEFINITION. Operand forms: immediates, the registers an instruction reads and writes (R142,
R185), active lanes (R139), the pipes (R141), and the gate that every instruction passes before it
has its effect. -/

namespace Sys2Proof.Machine

/-! ## Immediates -/

/-- A 6-bit immediate of format S, signed (R147). -/
def imm6s (i : BitVec 6) : W64 := i.signExtend 64

/-- The 32-bit immediate of format I: sign-extended from 8 bits, or whole with IMMX (R148, R154). -/
def imm32 (h : Hdr) (i : BitVec 8) : W32 :=
  match h.x with
  | .immx hi => hi ++ i
  | _ => i.signExtend 32

/-- The immediate of SHLI, SHRI and SARI: zero-extended from 8 bits (R227). -/
def imm32z (h : Hdr) (i : BitVec 8) : W32 :=
  match h.x with
  | .immx hi => hi ++ i
  | _ => i.zeroExtend 32

/-- Field X of REGX, 0 without it (R156). -/
def regxX (h : Hdr) : Nat := match h.x with | .regx x _ _ _ => x.toNat | _ => 0

/-- Field Y of REGX. -/
def regxY (h : Hdr) : Nat := match h.x with | .regx _ y _ _ => y.toNat | _ => 0

/-- Field RND of REGX, RNE without it (R229). -/
def regxRnd (h : Hdr) : Nat := match h.x with | .regx _ _ r _ => r.toNat | _ => 0

/-- Field SAT of REGX. -/
def regxSat (h : Hdr) : Bool := match h.x with | .regx _ _ _ s => s | _ => false

def hasRegx (h : Hdr) : Bool := match h.x with | .regx .. => true | _ => false

/-- Register that supplies b in format S: the field, or X of REGX (R147, R217). -/
def sourceB (h : Hdr) (b : BitVec 6) : Nat := if hasRegx h then regxX h else b.toNat

/-- Register of the third source c: X of REGX, else the destination (R233). -/
def sourceC (h : Hdr) (d : BitVec 6) : Nat := if hasRegx h then regxX h else d.toNat

/-- MEMX fields (R155): NOIDX, SC1, SX, W16, OFF. -/
def memxOf (h : Hdr) : Bool × Bool × Bool × Bool × Int :=
  match h.x with
  | .memx n c x w o => (n, c, x, w, o.toInt)
  | _ => (false, false, false, false, 0)

/-- Access size of format M (R150, R155). -/
def sizeOf' (h : Hdr) (z : Nat) : Nat := if (memxOf h).2.2.2.1 then 16 else 2 ^ z

/-! ## Registers read and written -/

/-- Vector, uniform and predicate registers, tokens and tiles that an instruction names. -/
structure Use where
  vr : List Nat := []
  vw : List Nat := []
  sr : List Nat := []
  sw : List Nat := []
  pr : List Nat := []
  pw : List Nat := []
  kr : List Nat := []
  kw : List Nat := []
  tr : List Nat := []
  tw : List Nat := []
  deriving DecidableEq, Repr

/-- n registers from r. -/
def regs (r n : Nat) : List Nat := (List.range n).map (r + ·)

/-- Registers of CT-pipe words (R200, and the chapters of each). -/
def useControl (op : Nat) (m : W32) : Use :=
  let d := field m 13 7
  let a := field m 6 7
  let b := field m 0 6
  let n := 8 * field m 17 3
  match op with
  | 0x04 => { vw := [n - 2, n - 1] }
  | 0x08 => { sr := [a] }
  | 0x09 => { sr := [a], kr := if 8 ≤ b then [b - 8] else [] }
  | 0x0A => { sr := a :: (if d == 0 then [] else [b]) }
  | 0x0B => { sr := [a], vw := [b - 2, b - 1] }
  | 0x0D => { vr := 0 :: regs 2 12, vw := [0], pw := [0] }
  | 0x10 => { sr := [a], sw := [d] }
  | 0x11 => { sr := [a, a + 1], sw := [d] }
  | 0x12 => { sr := [a, a + 1, b], sw := [d] }
  | 0x13 => { sr := [a, a + 1], sw := [d] }
  | 0x14 => { sw := [d] }
  | 0x15 => { sr := [a] }
  | 0x16 => { sr := regs a 4, sw := [d] }
  | 0x17 => { sr := [a, b], sw := [d] }
  | 0x18 => { sr := [a], sw := [d] }
  | 0x19 => { sr := [a], sw := [d] }
  | 0x1A => { sr := b :: regs (a + 1) 7, sw := [d] }
  | 0x1B => { sw := a :: regs d 8 }
  | 0x1C => { sr := [a, b], sw := [d] }
  | 0x1D => { vw := regs (field m 14 6) 16, sr := [b], sw := [a] }
  | 0x1E => { vr := regs a 4, sw := [d] }
  | _ => {}

/-- Registers of UN-pipe words (R217, R218). -/
def useUniform (op : Nat) (m : W32) (x : Ext) : Use :=
  let d := field m 13 7
  let a := field m 6 7
  let b := match x with | .regx xx _ _ _ => xx.toNat | _ => field m 0 6
  if op == 0x2F then { sr := [a, b, d], sw := [d] }
  else if op == 0x3C then { sw := [field m 14 6] }
  else if op == 0x3D then { vr := [a], sr := [b], sw := [d] }
  else if uniformB op then { sr := [a, b], sw := [d] }
  else { sr := [a], sw := [d] }

/-- Registers of VI- and VF-pipe words (R219 to R248). -/
def useVector (op : Nat) (m : W32) (x : Ext) : Use :=
  let d := field m 14 6
  let a := field m 8 6
  let b := field m 2 6
  let t := field m 0 2
  let (X, Y, hasX) := match x with
    | .regx xx yy _ _ => (xx.toNat, yy.toNat, true) | _ => (0, 0, false)
  let c := if hasX then X else d
  let n := if t == 3 then 2 else 1
  let n1 := if t == 1 then 2 else 1
  let dst := field m 4 4
  let src := field m 0 4
  let fw (f : Nat) : Nat := if f == 4 then 2 else 1
  let iw (f : Nat) : Nat := if f % 4 == 3 then 2 else 1
  if op == 0x45 || op == 0x5B then { vr := regs a n ++ regs b n ++ regs d n, vw := regs d n }
  else if op == 0x55 then
    { vr := regs a n ++ regs b n ++ regs X n, sr := [Y], vw := regs d n }
  else if op == 0x66 then { vr := regs a n ++ regs b n, pr := [X], vw := regs d n }
  else if op == 0x54 || (0x5C ≤ op && op ≤ 0x5E) || op == 0x67 then
    { vr := regs a n1, vw := regs d n1 }
  else if op == 0x4E || op == 0x4F then { vr := regs a n, vw := regs d n }
  else if 0x60 ≤ op && op ≤ 0x65 then { vr := regs a n ++ regs b n, pw := [d] }
  else if op ≤ 0x5F then { vr := regs a n ++ regs b n, vw := regs d n }
  else if op ≤ 0x6F then { vr := [a], sr := [field m 0 7], vw := [d] }
  else if op ≤ 0x72 then { pr := [a, b], pw := [d] }
  else if op == 0x73 then { pr := [a], pw := [d] }
  else if op == 0x74 then { pr := [a], sr := [b], pw := [d] }
  else if op == 0x75 then { vr := a :: regs b 2, vw := regs d 2 }
  else if op == 0x76 || op == 0xAE then { vw := [d] }
  else if op ≤ 0x7C then { vr := [a], vw := [d] }
  else if op ≤ 0x7E then { vr := [a], pw := [d] }
  else if 0x83 ≤ op && op ≤ 0x85 then
    { vr := regs a n ++ regs b n ++ regs c n, vw := regs d n }
  else if 0x90 ≤ op && op ≤ 0x94 then { vr := regs a n ++ regs b n, pw := [d] }
  else if op == 0x95 then
    if b == 0 then { vr := regs a n, vw := [d] } else if b == 1 then { vw := [d] } else { vr := [a] }
  else if op == 0x9B then { vr := b :: regs a n, vw := regs d n }
  else if floatOne op then { vr := regs a n, vw := regs d n }
  else if op ≤ 0x9D then { vr := regs a n ++ regs b n, vw := regs d n }
  else if op ≤ 0x9F then { vr := [a], sr := [field m 0 7], vw := [d] }
  else if op ≤ 0xA2 then { vr := regs a 4 ++ regs b 4, vw := regs d 4 }
  else if op == 0xA3 then { vr := regs a 4 ++ regs b 4 ++ regs c 4, vw := regs d 4 }
  else if op == 0xA4 then { vr := regs a 4, vw := regs d 4 }
  else if op == 0xA5 then { vr := regs a 4, vw := regs d 2 }
  else if op == 0xA8 || op == 0xAB || op == 0xAC then { vr := [a, b, c], vw := [d] }
  else if op ≤ 0xAC then { vr := [a, b], vw := [d] }
  else if op == 0xAD then { vr := [a, d], sr := [field m 0 7], vw := [d] }
  else if op == 0xC0 then { vr := regs a (fw src), vw := regs d (fw dst) }
  else if op == 0xC1 then { vr := regs a (fw src), vw := regs d (iw dst) }
  else if op == 0xC2 then { vr := regs a (iw src), vw := regs d (fw dst) }
  else if op == 0xC3 then { vr := regs a (iw src), vw := regs d (iw dst) }
  else if op == 0xC4 then { vr := regs a (packCount dst), vw := [d] }
  else if op == 0xC5 then { vr := [a], vw := regs d (packCount src) }
  else if op == 0xC6 then { vr := [a], sr := [Y], vw := [d] }
  else if op == 0xC7 then { vr := regs a 12, vw := regs d 4 }
  else { vr := [a], vw := [d] }

/-- Registers of XL-pipe words (R189 to R194, R250 to R254, R350). -/
def useCross (op : Nat) (m : W32) (x : Ext) : Use :=
  let d := field m 14 6
  let a := field m 8 6
  let b := field m 2 6
  let t := field m 0 2
  let sd := field m 13 7
  let sa := field m 6 7
  let (X, Y) := match x with | .regx xx yy _ _ => (xx.toNat, yy.toNat) | _ => (0, 0)
  let n1 := if t == 1 then 2 else 1
  let n := if t == 3 then 2 else 1
  let p := if a ≤ 7 then [a] else []
  match op with
  | 0xD0 => { vr := b :: regs a n1, sr := [Y], vw := regs d n1 }
  | 0xD1 | 0xD2 | 0xD3 => { vr := regs a n1, sr := [X, Y], vw := regs d n1 }
  | 0xD4 => { pr := p, sr := [Y], pw := [d], sw := if X == 0x7F then [] else [X] }
  | 0xD5 => { pr := p, sr := [Y], sw := [X] }
  | 0xD6 => { pr := p, sr := [Y], pw := [d], sw := [X] }
  | 0xDB => { sw := [sd] }
  | 0xDC => { sr := if m.getLsbD 0 then [sa] else [], sw := [sd] }
  | 0xDD => {}
  | 0xDE => { sr := [sa] }
  | 0xDF => { vr := regs a n1, sr := [Y], vw := regs d 4 }
  | _ => { vr := regs a n, sr := [Y], vw := regs d n }

/-- Registers of MM-pipe words (R299 to R305). -/
def useMemory (op : Nat) (m : W32) (x : Ext) : Use :=
  let d := field m 14 6
  let base := field m 8 6
  let noidx := match x with | .memx n _ _ _ _ => n | _ => false
  let idx := if noidx then [] else [field m 2 6]
  let size := accessSize m x
  let n := max 1 (size / 4)
  let (X, Y) := match x with | .regx xx yy _ _ => (xx.toNat, yy.toNat) | _ => (0, 0)
  match op with
  | 0xE0 => { vr := idx, sr := [base], vw := regs d n }
  | 0xE1 => { vr := idx ++ regs d n, sr := [base] }
  | 0xE2 => { sr := [base], sw := regs d (if size == 16 then 2 else 1) }
  | 0xE3 => { sr := base :: regs d (if size == 16 then 2 else 1) }
  | 0xE4 => { vr := idx ++ regs d n, sr := [base, Y], vw := regs X n }
  | 0xE5 => { vr := idx ++ regs d n, sr := [base, Y] }
  | 0xE6 => { vr := idx ++ regs d (2 * n), sr := [base], vw := regs d n }
  | 0xE7 => { vr := idx, sr := [base] }
  | 0xE9 => { sr := [field m 6 7, field m 0 6], sw := [field m 13 7] }
  | _ => {}

/-- Registers of PR- and CP-pipe words (R266, R282, R283, R310 to R331). -/
def usePress (op : Nat) (m : W32) : Use :=
  let d := field m 13 7
  let a := field m 6 7
  match op with
  | 0xF0 | 0xF1 => { sr := regs a 8, tr := [d], tw := [d] }
  | 0xF2 => { sr := if field m 3 2 == 0 then [] else [a], tr := [d], tw := [d] }
  | 0xF3 => { sw := [d] }
  | 0xF4 => { sr := regs a 8, sw := if m.getLsbD 5 then [d] else [], kw := [field m 0 3] }
  | 0xF5 => { kr := (List.range 8).filter (fun k => m.getLsbD k) }
  | 0xF6 => if m.getLsbD 0 then { sr := [a], sw := [d] } else { sr := [d, a] }
  | _ => { sr := [a], sw := [d] }

/-- The registers that an instruction reads and writes. -/
def useOf (m : W32) (x : Ext) : Use :=
  let op := opOf m
  let u : Use :=
    if op < 0x20 then useControl op m
    else if op < 0x40 then useUniform op m x
    else if op < 0xD0 then useVector op m x
    else if op < 0xE0 then useCross op m x
    else if op < 0xF0 then useMemory op m x
    else usePress op m
  if guardOf m < 7 then { u with pr := guardOf m :: u.pr } else u

/-- Pipe of an OP (R141): 0 none, 1 CT, 2 UN, 3 VI, 4 VF, 5 XL, 6 MM, 7 PR, 8 CP. -/
def pipeOf (op : Nat) : Nat :=
  if op == 0 then 0
  else if op < 0x20 then 1
  else if op < 0x40 then 2
  else if op < 0x80 then 3
  else if op < 0xD0 then 4
  else if op < 0xE0 then 5
  else if op < 0xF0 then 6
  else if op < 0xF4 then 7
  else 8

/-- Serialising OPs (R141). -/
def serialising (op : Nat) : Bool :=
  (0x07 ≤ op && op ≤ 0x09) || (0x0C ≤ op && op ≤ 0x1E) || (0xDB ≤ op && op ≤ 0xDE) || op == 0xE8

/-- Transfer OPs (R141). -/
def transfer (op : Nat) : Bool := (0x01 ≤ op && op ≤ 0x06) || op == 0x0A || op == 0x0B

/-- Whether two lists have a member in common. -/
def meets (a b : List Nat) : Bool := a.any (fun x => b.contains x)

/-- The second instruction touches something the first writes (R142, cause 0x13). -/
def touches (w u : Use) : Bool :=
  meets w.vw (u.vr ++ u.vw) || meets w.sw (u.sr ++ u.sw) || meets w.pw (u.pr ++ u.pw)
    || meets w.kw (u.kr ++ u.kw) || meets w.tw (u.tr ++ u.tw)

/-- The chain conditions on two instructions of one packet, in the table's order; none when the pair
is legal (R142). Cause 0x11 is tested by the fetch, before the second is decoded. -/
def chainCheck (i j : Instr) : Option Nat :=
  match mainWord i, mainWord j with
  | some m, some n =>
    if pipeOf (opOf m) == pipeOf (opOf n) then some 0x10
    else if serialising (opOf m) || serialising (opOf n) || transfer (opOf m) then some 0x12
    else if touches (useOf m (hdrOf i).x) (useOf n (hdrOf j).x) then some 0x13
    else if (hdrOf j).c || opOf n == 0 then some 0x14
    else none
  | _, _ => some 0x10

/-! ## Active lanes -/

/-- The lanes a guard leaves (R139). -/
def guardMask (t : Thread) (h : Hdr) : Mask :=
  let neg := match h.lmod with | some p => p.neg | none => false
  if h.g == 7 then BitVec.allOnes 64
  else
    let p := Sparse.get t.preds 0 h.g.toNat
    if neg then ~~~p else p

/-- The lanes TAIL leaves (R139, R153). -/
def tailMask (h : Hdr) : Mask :=
  match h.lmod with
  | some p => if p.tail == 0 then BitVec.allOnes 64 else maskBelow p.tail.toNat
  | none => BitVec.allOnes 64

/-- Active lanes of an instruction (R139), confined to the lanes of a replay (R367). -/
def active (t : Thread) (h : Hdr) : Mask :=
  t.exec &&& maskBelow t.width &&& tailMask h &&& guardMask t h
    &&& (match t.only with | some m => m | none => BitVec.allOnes 64)

/-! ## The gate -/

/-- Outstanding operations of a class that a thread's counter counts (R188, R192). -/
def State.countOuts (s : State) (id cls : Nat) : Nat :=
  (s.outs.filter (fun o => o.cls == cls && o.owners.contains id)).length

/-- An MMA or MMA.GANG, which mx counts (R188) and a stop of its die aborts (R278). -/
def PressOp.multiplies (p : PressOp) : Bool := match p.kind with | .mma .. | .gang .. => true | _ => false

/-- The mx counter: MMA and MMA.GANG in flight (R188). -/
def State.countMx (s : State) (id : Nat) : Nat :=
  (s.pressOps.filter (fun p => p.owners.contains id && p.multiplies)).length

/-- A uniform register locked by a press operation (R184, R273). -/
def State.locked (s : State) (t : Thread) (r : Nat) : Bool :=
  s.pressOps.any (fun p => p.issuer == t.id && p.areg ≤ r && r < p.areg + 8)

/-- Where a thread stands that no record holds back: blocked lanes of its instruction wait on (R128). -/
def State.freePark (s : State) (id : Nat) : Park :=
  if s.held.any (fun x => x.who == id) then .blocked else .run

/-- The acquire that ends an instruction already performed (R346): when the thread's loads and atomics have taken
their values it has acquired, answered records are freed, and it goes on (R365). -/
def State.acquireBy (s : State) (id : Nat) : State :=
  match s.thread? id with
  | some t =>
    if s.countOuts id 0 + s.countOuts id 2 == 0 then
      (s.setThread { t with park := s.freePark id, acq := s.time }).freeOf id (fun r => r.state == 3)
    else s.setThread { t with park := .acquire }
  | none => s

/-- Register writes that waited for a lock land once it is released (R184). -/
def State.unlock (s : State) : State :=
  s.threads.foldl (fun (s : State) t =>
    match t.park with
    | .lock d v acq =>
      if s.locked t d then s
      else
        let s := s.setThread { t.setSreg d v with park := s.freePark t.id }
        if acq then s.acquireBy t.id else s
    | _ => s) s

/-- An instruction that has had its effect writes its status and goes on; a group whose status register is locked
waits for the lock (R184, R387). -/
def State.finish (s : State) (h : Hdr) (d : Nat) (v : W64) : State :=
  match s.cur with
  | .thread id =>
    match s.thread? id with
    | some t =>
      if s.locked t d then (s.advance h).setThread { t.wentOn (nextPc t.pc h) with park := .lock d v false }
      else (s.setSreg d v).advance h
    | none => s
  | .proctor _ => (s.setSreg d v).advance h

/-- OPs that have their effect before their status waits for a lock (R363, R364, R387): RESUME to FDROP, SVCSTART
to MBSEND, PLACE, HQTAKE, HQDONE and CPY. -/
def lateStatus (op : Nat) : Bool :=
  (0x11 ≤ op && op ≤ 0x13) || (0x16 ≤ op && op ≤ 0x1A) || (0x1C ≤ op && op ≤ 0x1E) || op == 0xF4

/-- The scoreboard: a vector or uniform register is the destination of an outstanding ld or at
instruction (R185). -/
def State.scoreboard (s : State) (t : Thread) (u : Use) : Bool :=
  s.outs.any (fun o => o.owners.contains t.id && o.cls != 1 &&
    (o.lanes.any (fun l => l.dest.any (fun k =>
        t.f ≤ k % 64 && k % 64 < t.f + t.width &&
        (u.vr ++ u.vw).any (fun r => (t.wp + r) % t.dres == k / 64)))
      || (match o.kind with
          | .load _ (some n) =>
            meets (u.sr ++ u.sw) (if o.lanes.any (fun l => l.size == 16) then [n, n + 1] else [n])
          | _ => false)))

/-- A register of a proctor lane is the destination of an LDU still under way. -/
def State.proctorBusy (s : State) (c : Nat) (u : Use) : Bool :=
  s.outs.any (fun o => o.owners.contains (proctorOwner c) &&
    (match o.kind with
     | .load _ (some n) =>
       meets (u.sr ++ u.sw) (if o.lanes.any (fun l => l.size == 16) then [n, n + 1] else [n])
     | _ => false))

/-- An instruction's class counter stands at 63, or above it after a FUSE (R188, R192). -/
def State.counterFull (s : State) (id op : Nat) : Bool :=
  match op with
  | 0xE0 | 0xE2 => 63 ≤ s.countOuts id 0
  | 0xE1 | 0xE3 | 0xE5 => 63 ≤ s.countOuts id 1
  | 0xE4 | 0xE6 => 63 ≤ s.countOuts id 2
  | 0xF0 | 0xF1 => 63 ≤ s.countMx id
  | _ => false

/-- Lanes that would read a poisoned store word (R374, cause 0x90). -/
def poisonedLanes (t : Thread) (m : Mask) (u : Use) : Mask :=
  if t.storePoison.isEmpty then 0
  else maskOf (fun l => m.getLsbD l && u.vr.any (fun r => Sparse.get t.storePoison false (t.vkey r l)))

/-- The lanes whose sources an instruction reads: the active ones, for URDLANE the one that it names (R217). -/
def readLanes (i : Instr) (t : Thread) : Mask :=
  match i with
  | .urdlane h _ _ b => laneBit ((t.sreg (sourceB h b)).toNat % t.width)
  | _ => active t (hdrOf i)

/-- OPs that the proctor lane executes (R197, R213). A NOP is skipped there as in a group (log
entry 13). -/
def proctorAccepts (op : Nat) : Bool :=
  (op < 0x40 && !((0x02 ≤ op && op ≤ 0x07) || op == 0x0B || op == 0x0D || op == 0x10 || op == 0x19
    || op == 0x1B || op == 0x1D || op == 0x1E || op == 0x3D))
    || op == 0xE2 || op == 0xE3 || op == 0xE8 || op == 0xE9

/-- What stops an instruction before its effect, none when it may have its effect: the checks of
R138, the privilege check of R159, then the readiness rules of R184, R185 and R188, under which it
issues again later, then poisoned sources. A proctor lane refuses the OPs that it does not execute, and LMOD, before
any check of their fields (R197, R213). -/
def gate (i : Instr) (s : State) : Option State :=
  let h := hdrOf i
  let m := (mainWord i).getD 0
  let op := opOf m
  match s.cur with
  | .thread id =>
    match s.thread? id with
    | none => some s
    | some t =>
      if t.lateNow then
        some (if 0 < (s.core t.core).hq.free then
          (s.setThread { t with lateNow := false }).trap h vPeerTimeout 0x80 else s.poll)
      else match checkInstr i with
      | some c => some (s.trap h vIllegal c.code)
      | none =>
        let u := useOf m h.x
        if privileged op && !t.sup then some (s.trap h vPrivilege 0x0C)
        else if (!lateStatus op && u.sw.any (s.locked t)) || s.scoreboard t u || s.counterFull id op then some s.poll
        else
          let bad := poisonedLanes t (readLanes i t) u
          if bad != 0 then some (s.trapAt h ⟨vSoftError, 0x90, bad, 0, 0⟩) else none
  | .proctor c =>
    if !proctorAccepts op || h.lmod.isSome then some (s.trap h vIllegal 0x01)
    else match checkInstr i with
      | some c => some (s.trap h vIllegal c.code)
      | none => if s.proctorBusy c (useOf m h.x) then some s.poll else none

/-- An instruction: its gate, and past it its effect. -/
def run (i : Instr) (s : State) (effect : State → State) : Host.Outcome State Fault Refusal :=
  match gate i s with
  | some s' => .next s'
  | none => .next (effect s)

/-- An effect on the issuing thread; the gate has seen that there is one. -/
def State.withThread (s : State) (f : Thread → State) : State :=
  match s.cur with
  | .thread id => match s.thread? id with | some t => f t | none => s
  | .proctor _ => s

end Sys2Proof.Machine
end

