-- ==== Sys2Proof/Machine/Flags.lean ====
section
/-! DEFINITION. Flag and rounding state: MATHCTL (R55), the SR counter and its words (R60 to R62),
the rounding mode of an instruction (R229), and the flags of a lane (R59). -/

namespace Sys2Proof.Machine

/-- A write of MATHCTL (R55): reserved bits stay 0, and an RM of 100b to 111b leaves RM. -/
def mathctlWrite (old v : W32) : W32 :=
  let rm : W32 := if v.extractLsb' 0 3 |>.ult 4 then v &&& 7 else old &&& 7
  (v &&& 0xF0) ||| rm

/-- The random word for a lane and an element (R61). -/
def srWord (t : Thread) (lane e : Nat) : Nat :=
  philoxWord (Config.contextSeed t.ctx) t.srcnt.toNat
    (e / 4 * 2 ^ 18 + t.teamIdx % 4 * 2 ^ 16 + t.grp % 16 * 2 ^ 12 + t.f % 64 * 64 + lane % 64)
    (t.pc.toNat / 4) (t.launch.toNat + t.linear) e

/-- The mode of a rounding code in a lane, for an element (R54, R229). -/
def rmOf (t : Thread) (code lane e : Nat) : Rm :=
  let c := if code == 6 then t.mathctl.toNat % 8 else code
  match c with
  | 0 => .rne | 1 => .rtz | 2 => .rup | 3 => .rdn | 4 => .rna
  | _ => .sr (srWord t lane e)

/-- Destination of an arithmetic result in a format. -/
def destOf (t : Thread) (h : Hdr) (c lane e : Nat) : Dest :=
  { c := c, rm := rmOf t (regxRnd h) lane e, flush := flushBit t.mathctl c
    ov := if regxSat h then .sat else .plain }

/-- A source pattern read under the thread's flush bits (R56). -/
def srcOf (t : Thread) (c pat : Nat) : Val := source t.mathctl c pat

/-- An instruction that rounds by SR has completed: the SR counter advances by one, even if no lane
was active (R62, R229). -/
def Thread.countSr (t : Thread) (h : Hdr) : Thread :=
  if regxRnd h == 5 then { t with srcnt := t.srcnt + 1 } else t

/-- A scalar pattern of a register in a format: the pair for 64 bits, else the low bits (R228). -/
def Thread.fpat (t : Thread) (c r l : Nat) : Nat :=
  if c == 4 then (t.vpair r l).toNat else (t.vreg r l).toNat % 2 ^ fmtBits c

/-- A scalar pattern written: the pair for 64 bits, else zero-extended (R228). -/
def Thread.setFpat (t : Thread) (c r l pat : Nat) : Thread :=
  if c == 4 then t.setVpair r l (BitVec.ofNat 64 pat) else t.setVreg r l (BitVec.ofNat 32 pat)

/-- Lanes of a thread, live or not. -/
def Thread.lanes (t : Thread) : List Nat := List.range t.width

/-- A fold over the lanes of a mask, in ascending order. -/
def overLanes (m : Mask) (t : Thread) (f : Thread → Nat → Thread) : Thread :=
  (lanesOf m).foldl f t

end Sys2Proof.Machine
end

