-- ==== Sys2Proof/Machine/Barrier.lean ====
section
/-! DEFINITION. Team barriers (R350 to R352): arrivals, the end of an instance, and its faults. -/

namespace Sys2Proof.Machine

/-- Groups that a membership mask names. -/
def namedGroups (mask : BitVec 16) : List Nat := (List.range 16).filter (fun g => mask.getLsbD g)

/-- Whether group g of a team has arrived at an instance: every live child of it (R350). -/
def State.groupArrived (s : State) (tm : Team) (b : TBar) (g : Nat) : Bool :=
  let mine := s.threads.filter (fun t => t.team == tm.id && t.grp == g && t.live != 0)
  !mine.isEmpty && mine.all (fun t => b.arrived.contains t.id)
    && !s.folios.any (fun e => e.team == tm.id && e.grp == g)

/-- Whether group g of a team has retired or had its folio dropped (R351, cause 0x55). -/
def Team.gone (tm : Team) (g : Nat) : Bool := tm.exited.contains g

/-- A thread leaves its barrier: with its acquire complete, or waiting for it (R346). -/
def State.tbarLeave (s : State) (t : Thread) : Thread :=
  let open_ := s.outs.any (fun o => o.cls != 1 && o.owners.contains t.id)
  { t with pc := t.after, relDone := false, only := none
           park := if open_ then .acquire else .run
           acq := if open_ then t.acq else s.time }

/-- An instance of a team ends: its threads leave. -/
def State.tbarEnd (s : State) (tm : Team) (b : TBar) : State :=
  let s' := s.setTeam { tm with bars := tm.bars.filter (fun x => x.n != b.n) }
  { s' with threads := s'.threads.map (fun (t : Thread) =>
      if b.arrived.contains t.id then s.tbarLeave t else t) }

/-- Instances at which every named group has arrived end (R350). -/
def State.tbarSettle (s : State) : State :=
  (s.teams.flatMap (fun tm => tm.bars.map (fun b => (tm.id, b)))).foldl (fun s x =>
    match s.team? x.1 with
    | some tm =>
      if (namedGroups x.2.mask).all (s.groupArrived tm x.2) then s.tbarEnd tm x.2 else s
    | none => s) s

/-- Free places that records of these threads need on a core. -/
def roomFor (ts : List Thread) (core : Nat) : Nat := (ts.filter (fun t => t.core == core)).length

/-- Whether each of these threads can post one record at once. -/
def State.roomForAll (s : State) (ts : List Thread) : Bool :=
  ts.all (fun t => roomFor ts t.core ≤ (s.core t.core).hq.free)

/-- Threads parked at an instance. -/
def State.parkedAt (s : State) (b : TBar) : List Thread :=
  s.threads.filter (fun t => b.arrived.contains t.id)

/-- An instance ends with a membership fault of every thread parked at it (R351). -/
def State.tbarFault (s : State) (tm : Team) (b : TBar) (cause : Nat) : State :=
  let s' := s.setTeam { tm with bars := tm.bars.filter (fun x => x.n != b.n) }
  (s.parkedAt b).foldl (fun s t =>
    s.trapThread { t with park := .run, relDone := false } (plainTrap vMembership cause t.exec) t.pc
      t.after) s'

/-- Instances that wait for a group of a team that is going (R351, cause 0x55). -/
def waitingFor (tm : Team) (g : Nat) : List TBar := tm.bars.filter (fun b => b.mask.getLsbD g)

/-- The mask check of R351, causes 0x52 and 0x53. -/
def tbarCause (tm : Team) (g : Nat) (mask : W64) : Nat :=
  if mask.toNat / 65536 != 0 || tm.groups ≤ Nat.log2 mask.toNat && mask != 0 then 0x52
  else if !mask.getLsbD g then 0x53
  else 0

/-- The arrival of a thread at barrier n with a mask (R350, R351). -/
def State.tbarArrive (s : State) (h : Hdr) (t : Thread) (tm : Team) (n : Nat) (mask : BitVec 16) :
    State :=
  let b := match tm.bars.find? (fun b => b.n == n) with
    | some b => b
    | none => ⟨n, mask, []⟩
  let cause := if b.mask != mask then 0x54 else if (namedGroups mask).any tm.gone then 0x55 else 0
  if cause != 0 then
    if s.roomForAll (t :: s.parkedAt b) then
      (s.trapThread { t with relDone := false } (plainTrap vMembership cause t.exec) t.pc
        (nextPc t.pc h)).tbarFault tm b cause
    else s.poll
  else
    let b := { b with arrived := b.arrived ++ [t.id] }
    ((s.setTeam { tm with bars := tm.bars.filter (fun x => x.n != n) ++ [b] }).setThread
      { t with park := .tbar n, after := nextPc t.pc h }).tbarSettle

/-- The instances of a team without the arrival of a thread. -/
def barsWithout (bars : List TBar) (id : Nat) : List TBar :=
  let left := bars.map (fun b => { b with arrived := b.arrived.filter (· != id) })
  left.filter (fun b => !b.arrived.isEmpty)

/-- A thread that is suspended withdraws its arrival (R352). -/
def State.tbarWithdraw (s : State) (id : Nat) : State :=
  { s with teams := s.teams.map (fun (tm : Team) => { tm with bars := barsWithout tm.bars id }) }

end Sys2Proof.Machine
end

