-- ==== Sys2Proof/Machine/Control.lean ====
section
/-! DEFINITION. Control flow (R199 to R212), calls and the register window (R175 to R182), special
registers (R214 to R216), and SPLIT and FUSE (R190 to R195). -/

namespace Sys2Proof.Machine

/-- NOP (R144): skipped, no state changes but the program counter. -/
def execNop (s : State) : Host.Outcome State Fault Refusal :=
  run .nop s (fun s => s.advance (hdrOf .nop))

/-! ## Branches -/

/-- Address of the main word of the instruction at pc (R136). -/
def mainPc (pc : W64) (h : Hdr) : W64 :=
  pc + BitVec.ofNat 64 (4 * (b2n h.mmod.isSome + b2n h.lmod.isSome))

/-- Target of a format-B word in the packet that holds pc (R149). -/
def branchTarget (pc : W64) (o : BitVec 15) (slot : BitVec 2) : W64 :=
  pc - BitVec.ofNat 64 (pc.toNat % 12) + 12 * o.signExtend 64 + BitVec.ofNat 64 (4 * slot.toNat)

/-- Lanes of the execution mask in which the guard holds; all of them for G = 7 (R201, R202). -/
def Thread.guardLanes (t : Thread) (g : BitVec 3) : Mask :=
  if g == 7 then t.exec else t.exec &&& Sparse.get t.preds 0 g.toNat

/-- Whether a branch is taken (R201); on a proctor lane the single bit decides (R213). -/
def State.taken (s : State) (g : BitVec 3) : Bool :=
  match s.cur with
  | .thread id => match s.thread? id with | some t => t.guardLanes g != 0 | none => false
  | .proctor c => g == 7 || (s.core c).proctor.preds.getLsbD g.toNat

/-- BRA (R201). Branches the whole path to the target when p[G] holds in any lane of the path. -/
def execBra (h : Hdr) (o : BitVec 15) (ss : BitVec 2) (s : State) : Host.Outcome State Fault Refusal :=
  run (.bra h o ss) s (fun s =>
    if s.taken h.g then s.goto (branchTarget s.pc o ss) else s.advance h)

/-- Entries of a reconvergence stack (R187). -/
def stackDepth : Nat := 32

/-- BRD (R202). Divides the path by p[G] and pushes one reconvergence entry. -/
def execBrd (h : Hdr) (o : BitVec 15) (ss : BitVec 2) (s : State) : Host.Outcome State Fault Refusal :=
  run (.brd h o ss) s (fun s => s.withThread (fun t =>
    let target := branchTarget t.pc o ss
    let next := nextPc t.pc h
    let yes := t.guardLanes h.g
    let no := t.exec &&& ~~~yes
    let go (e : W64 × Mask) (m : Mask) (pc : W64) : State :=
      (s.setThread { t with rstack := e :: t.rstack, exec := m }).goto pc
    if t.rstack.length == stackDepth then s.trap h vSpill 0x32
    else if no != 0 && yes != 0 then go (target, yes) no next
    else if no == 0 then go (next, 0) yes target
    else go (target, 0) no next))

/-- JOIN (R203). Closes the innermost division, reconverging or switching to the other path. -/
def execJoin (h : Hdr) (s : State) : Host.Outcome State Fault Refusal :=
  run (.join h) s (fun s => s.withThread (fun t =>
    match t.rstack with
    | [] => s.trap h vFill 0x39
    | (epc, em) :: rest =>
      if epc == mainPc t.pc h then
        (s.setThread { t with rstack := rest, exec := t.exec ||| em }).advance h
      else if em == 0 then (s.setThread { t with rstack := rest }).advance h
      else (s.setThread { t with rstack := (mainPc t.pc h, t.exec) :: rest, exec := em }).goto epc))

/-- The unwinding of a path that has ended (R204): the first entry with lanes goes on; none is left
when the group or child retires. -/
def unwind (t : Thread) : List (W64 × Mask) → Thread
  | [] => { t with rstack := [], exec := 0, park := .run, relDone := false, only := none }
  | (pc, m) :: rest =>
    if m == 0 then unwind t rest
    else
      { t with rstack := (pc, 0) :: rest, exec := m, pc := pc, park := .run, relDone := false
               only := none }

/-- EXIT of lanes (R204): execution continues at next where the path goes on. -/
def Thread.exitLanes (t : Thread) (m : Mask) (next : W64) : Thread :=
  let t := { t with exec := t.exec &&& ~~~m, live := t.live &&& ~~~m
                    rstack := t.rstack.map (fun e => (e.1, e.2 &&& ~~~m)) }
  if t.exec != 0 then
    { t with pc := next, park := .run, relDone := false, only := none }
  else unwind t t.rstack

/-! ## Siblings (R190 to R195) -/

/-- Two threads are children of one group: they hold one group slot (R190). -/
def sameGroup (t u : Thread) : Bool := t.core == u.core && t.slot == u.slot

/-- First lanes and width of all children of the last split that produced a child (R193). -/
def Thread.family (t : Thread) : List Nat × Nat :=
  match t.splits with
  | [] => ([], t.width)
  | (pf, pw, k) :: _ => ((List.range k).map (fun i => pf + i * (pw / k)), pw / k)

/-- The resident sibling that starts at a lane. -/
def State.sibling (s : State) (t : Thread) (f : Nat) : Option Thread :=
  s.threads.find? (fun u => sameGroup t u && u.f == f && u.width == t.width)

/-- Whether the child that starts at a lane lies suspended in a folio of its team and group. -/
def State.inFolio (s : State) (t : Thread) (f : Nat) : Bool :=
  s.folios.any (fun e => e.team == t.team && e.grp == t.grp && e.f == f && e.width == t.width)

/-- Resident siblings of a child, the child itself among them. -/
def State.siblings (s : State) (t : Thread) : List Thread :=
  t.family.1.filterMap (s.sibling t)

/-- A token busy in two siblings with different copies (R193, code 6). -/
def tokenClash (ts : List Thread) : Bool :=
  (List.range 8).any (fun k => ts.any (fun t => ts.any (fun u =>
    match t.tok k, u.tok k with
    | .busy a, .busy b => a != b
    | _, _ => false)))

/-- Whether a thread waits on hand-in records. -/
def Thread.onRecords (t : Thread) : Bool := match t.park with | .records => true | _ => false

/-- Whether a thread is parked at a FUSE. -/
def Thread.atFuse (t : Thread) : Bool := match t.park with | .fuse _ _ => true | _ => false

/-- Whether a thread is parked at a team barrier. -/
def Thread.atTbar (t : Thread) : Bool := match t.park with | .tbar _ => true | _ => false

/-- The check of a FUSE by child t (R193). -/
def State.fuseCheck (s : State) (t : Thread) : Nat :=
  let fs := t.family.1
  let others := fs.filter (· != t.f)
  let k := fs.length
  let gone (f : Nat) : Bool :=
    match s.sibling t f with
    | some u => u.live == 0
    | none => !s.inFolio t f
  let away (f : Nat) : Bool :=
    match s.sibling t f with
    | some u => u.susp.isSome || u.onRecords
    | none => true
  let elsewhere (f : Nat) : Bool :=
    match s.sibling t f with
    | some u => !(u.atFuse && u.pc == t.pc)
    | none => true
  let sibs := s.siblings t
  if fs.isEmpty || others.any gone then 2
  else if t.wlimit < k * t.width then 5
  else if others.any away then 4
  else if others.any elsewhere then 1
  else if sibs.any (fun u => u.wp != t.wp || u.rbase != t.rbase || !u.rstack.isEmpty) then 3
  else if tokenClash sibs then 6
  else 0

/-- Numbers of threads replaced by others wherever an operation is counted or shared (R192). -/
def remapOwners (old new os : List Nat) : List Nat :=
  if os.any (fun o => old.contains o) then dedup (os.filter (fun o => !old.contains o) ++ new) else os

/-- The state with threads of the old numbers continued by those of the new numbers; the press
operations whose descriptors they locked pass to the first new one, with the locks of issuer `keep`
alone (R192). -/
def State.remap (s : State) (old new : List Nat) (keep : Nat) : State :=
  let first := new.headD 0
  { s with
    outs := s.outs.map (fun o => { o with owners := remapOwners old new o.owners })
    cpys := s.cpys.map (fun c => { c with owners := remapOwners old new c.owners })
    redBuf := s.redBuf.map (fun r => { r with threads := remapOwners old new r.threads })
    pressOps := s.pressOps.map (fun p =>
      { p with
        owners := remapOwners old new p.owners
        issuer := if old.contains p.issuer then first else p.issuer
        areg := if old.contains p.issuer && p.issuer != keep then 200 else p.areg
        parts := p.parts.map (fun q =>
          if old.contains q.thread then { q with thread := first } else q) }) }

/-- Whether a uniform register of a thread is locked (R184). -/
def State.anyLock (s : State) (t : Thread) : Bool :=
  s.pressOps.any (fun p => p.issuer == t.id && p.areg < 96)

/-- Lanes of a mask from lo upward, renumbered from 0, of which w remain. -/
def maskDown (x : Mask) (lo w : Nat) : Mask := (x >>> lo) &&& maskBelow w

/-- A child of a split (R192): lanes lo to lo + w − 1 of its parent. -/
def childOf (t : Thread) (id lo w k : Nat) : Thread :=
  let f := t.f + lo
  let mine (l : Nat) : Bool := f ≤ l && l < f + w
  { t with
    id := id, f := f, width := w, splits := (t.f, t.width, k) :: t.splits, hists := id :: t.hists
    exec := maskDown t.exec lo w, live := maskDown t.live lo w
    preds := (t.preds.map (fun e => (e.1, maskDown e.2 lo w))).filter (fun e => e.2 != 0)
    fx := Sparse.drop t.fx (fun l => !mine l)
    store := Sparse.drop t.store (fun q => !mine (q % 64))
    storePoison := Sparse.drop t.storePoison (fun q => !mine (q % 64)) }

/-- Entries of sparse maps put together. -/
def mergeSparse {α : Type} [DecidableEq α] (d : α) (l : List (Sparse α)) : Sparse α :=
  (l.flatten).foldl (fun m e => Sparse.set m d e.1 e.2) []

/-- State of token k of the joined group (R192): busy if busy in any child, else failed if failed in
any (log entry 14). -/
def joinTok (ts : List Thread) (k : Nat) : Tok :=
  match ts.filterMap (fun t => match t.tok k with | .busy c => some c | _ => none) with
  | c :: _ => .busy c
  | [] =>
    match ts.filterMap (fun t =>
      match t.tok k with | .failed v c a e => some (Tok.failed v c a e) | _ => none) with
    | x :: _ => x
    | [] => .idle

/-- The greatest LCT of each scope (R192). -/
def lctMax (a b : Lct) : Lct := ⟨max a.clus b.clus, max a.die b.die, max a.dev b.dev, max a.sys b.sys⟩

/-- The group or child that siblings join into (R192); ts in ascending f, not empty. -/
def joined (t : Thread) (ts : List Thread) (id d : Nat) : Thread :=
  let (pf, pw) := match t.splits with | (a, b, _) :: _ => (a, b) | [] => (t.f, t.width)
  let up (u : Thread) (m : Mask) : Mask := m <<< (u.f - pf)
  let mor (l : List Mask) : Mask := l.foldl (· ||| ·) 0
  let base := ts.headD t
  ({ base with
    id := id, f := pf, width := pw, splits := t.splits.tail
    hists := id :: dedup (ts.flatMap (·.hists))
    exec := mor (ts.map (fun u => up u u.exec)), live := mor (ts.map (fun u => up u u.live))
    preds := ((List.range 7).map (fun p => (p, mor (ts.map (fun u =>
      up u (Sparse.get u.preds 0 p)))))).filter (fun e => e.2 != 0)
    fx := mergeSparse 0 (ts.map (·.fx))
    store := mergeSparse 0 (ts.map (·.store))
    storePoison := mergeSparse false (ts.map (·.storePoison))
    srcnt := BitVec.ofNat 32 (maxOf (ts.map (·.srcnt.toNat)))
    toks := ((List.range 8).map (fun k => (k, joinTok ts k))).filter (fun e => e.2 != .idle)
    lct := ts.foldl (fun a u => lctMax a u.lct) Lct.zero
    acq := maxOf (ts.map (·.acq))
    pstat := (ts.map (·.pstat)).foldl (· ||| ·) 0
    marked := dedup (ts.flatMap (·.marked))
    peerLate := ts.any (·.peerLate)
    bellT := maxOf (ts.map (·.bellT))
    pc := t.pc + 4, park := .run, relDone := false, only := none } : Thread).setSreg d 0

/-- A child leaves its FUSE with a code (R194), which waits for a lock (R184). -/
def State.fuseLeave (s : State) (u : Thread) (d code : Nat) : Thread :=
  if s.locked u d then { u with pc := u.pc + 4, park := .lock d (BitVec.ofNat 64 code) false }
  else { (u.setSreg d (BitVec.ofNat 64 code)) with pc := u.pc + 4, park := .run }

/-- A child of a thread's group is parked at a team barrier, so that a SPLIT or FUSE of the group waits (R352). -/
def State.groupAtTbar (s : State) (t : Thread) : Bool := s.threads.any (fun u => sameGroup t u && u.atTbar)

/-- Whether s[d] of any of these threads is locked (R184, R194). -/
def State.statusLocked (s : State) (ts : List Thread) (d : Nat) : Bool :=
  ts.any (fun u => s.locked u d)

/-- Children parked at a FUSE.WAIT whose sibling has exited or split leave it with code 2 (R194). -/
def State.fuseRelease (s : State) : State :=
  { s with threads := s.threads.map (fun u =>
      match u.park with
      | .fuse d _ => if s.fuseCheck u == 2 then s.fuseLeave u d 2 else u
      | _ => u) }

/-- After lanes have exited: children parked at a FUSE.WAIT, and barriers whose last live child has
arrived, are seen to (R194, R350). -/
def State.afterExit (s : State) : State := s.fuseRelease.tbarSettle

/-- FUSE or FUSE.WAIT by child t, with its bound for W = 1 (R194). -/
def State.fuse (s : State) (t : Thread) (d : Nat) (bound : Option Nat) : State :=
  let code := s.fuseCheck t
  let sibs := s.siblings t
  if s.groupAtTbar t then s.poll
  else if code == 0 then
    if s.statusLocked (sibs.take 1) d then s.poll
    else
      let (id, s) := s.newId
      let old := sibs.map (·.id)
      let j := joined t sibs id d
      let s := s.remap old [id] ((sibs.headD t).id)
      { s with
        threads := s.threads.filter (fun u => !old.contains u.id) ++ [j]
        cur := .thread id }
  else if code == 3 || code == 6 then
    let at_ := (sibs.filter (fun u => u.id == t.id || (u.atFuse && u.pc == t.pc))).map (·.id)
    { s with threads := s.threads.map (fun u => if at_.contains u.id then s.fuseLeave u d code else u) }
  else
    match code == 1 || code == 4, bound with
    | true, some b =>
      s.setThread { t with park := .fuse d (min (s.time + b) (2 ^ 64 - 1)), after := t.pc + 4 }
    | _, _ => s.setThread (s.fuseLeave t d code)

/-- The children of a split into n, with their status words (R191). -/
def splitKids (t : Thread) (first n d : Nat) : List Thread :=
  let w := t.width / n
  (List.range n).map (fun c =>
    (childOf t (first + c) (c * w) w n).setSreg d
      (BitVec.ofNat 64 (c + w * 2 ^ 8 + (t.f + c * w) * 2 ^ 16)))

/-- The state in which a thread is divided into children, numbered from the next free number. -/
def State.divide (s : State) (t : Thread) (n d : Nat) : State :=
  let kids := splitKids t s.nextId n d
  let ids := kids.map Thread.id
  let put (u : Thread) : List Thread := if u.id == t.id then kids else [u]
  let s := ({ s with nextId := s.nextId + n } : State).remap [t.id] ids t.id
  ({ s with threads := s.threads.flatMap put, cur := .thread (ids.headD 0) } : State).fuseRelease

/-- SPLIT (R191). Divides a group or child into two or four children. -/
def execSplit (h : Hdr) (d : BitVec 7) (k : BitVec 6) (s : State) : Host.Outcome State Fault Refusal :=
  run (.split h d k) s (fun s => s.withThread (fun t =>
    let n := k.toNat
    if s.anyLock t || s.groupAtTbar t then s.poll
    else if t.width < n then (s.setSreg d.toNat (0x01 <<< 56)).advance h
    else if !t.rstack.isEmpty then (s.setSreg d.toNat (0x02 <<< 56)).advance h
    else
      s.divide { t with pc := nextPc t.pc h, park := .run, relDone := false, only := none } n d.toNat))

/-- FUSE (R194). Joins sibling children if this child arrives last. -/
def execFuse (h : Hdr) (d : BitVec 7) (s : State) : Host.Outcome State Fault Refusal :=
  run (.fuse h d) s (fun s => s.withThread (fun t => s.fuse t d.toNat none))

/-- FUSE.WAIT (R194). Joins sibling children, parking with a time bound until they arrive. -/
def execFuseWait (h : Hdr) (d : BitVec 7) (a : BitVec 7) (s : State) :
    Host.Outcome State Fault Refusal :=
  run (.fuseWait h d a) s (fun s => s.withThread (fun t =>
    s.fuse t d.toNat (some (t.sreg a.toNat).toNat)))

/-- FUSE_WAIT_DEADLINE (R194). A child parked at FUSE.WAIT is released at its deadline with a fresh
check code. -/
def execFuseWaitDeadline (s : State) : Host.Outcome State Fault Refusal :=
  .next (match s.thread? s.arg.a with
    | some t =>
      match t.park with
      | .fuse d dl =>
        if dl < s.time then s.setThread (s.fuseLeave t d (s.fuseCheck t)) else s
      | _ => s
    | none => s)

/-- EXIT (R204). Ends every active lane and unwinds the reconvergence stack. -/
def execExit (h : Hdr) (s : State) : Host.Outcome State Fault Refusal :=
  run (.exit h) s (fun s => s.withThread (fun t =>
    let m := active t h
    if m == 0 then s.advance h
    else (s.setThread (t.exitLanes m (nextPc t.pc h))).afterExit))

/-! ## Calls -/

/-- Byte of the spill area that holds position q of lane l (R177). -/
def Thread.spillAddr (t : Thread) (q l : Nat) : Nat := t.spillbase + (q * t.kwidth + (t.f + l)) * 4

/-- Store key of position q of lane l (R177). -/
def Thread.storeKey (t : Thread) (q l : Nat) : Nat := q % t.dres * 64 + (t.f + l)

/-- A position of a lane: from the store, or from the spill area below RBASE (R177). -/
def State.position (s : State) (t : Thread) (q l : Nat) : W32 :=
  if t.rbase ≤ q then Sparse.get t.store 0 (t.storeKey q l)
  else BitVec.ofNat 32 (s.loadNat (t.spillAddr q l) (slotOfCtx t.ctx) 4)

/-- RBASE in hardware mode (R178). -/
def Thread.rbaseFor (t : Thread) (wp : Nat) : Nat := wp + 64 - t.dres

/-- Positions from a to b − 1. -/
def span (a b : Nat) : List Nat := (List.range (b - a)).map (a + ·)

/-- A load or atomic has a write pending to a store slot of these positions (R178). -/
def State.slotsBusy (s : State) (t : Thread) (qs : List Nat) : Bool :=
  s.outs.any (fun o => o.owners.contains t.id && o.lanes.any (fun l =>
    l.dest.any (fun k => qs.any (fun q => q % t.dres == k / 64))))

/-- Positions that leave or enter the resident range when the window moves to wp (R178). -/
def Thread.moved (t : Thread) (wp : Nat) : List Nat × List Nat :=
  let r := t.rbaseFor wp
  (span t.rbase (min r (t.wp + 64)), span r (min t.rbase (wp + 64)))

/-- One position of every lane written to the spill area, from each lane's word and whether it is poisoned: lines
written whole are poisoned no more, and a poisoned word leaves its line poisoned (R178, R374, log entry 15). -/
def State.spillRow (s : State) (t : Thread) (q : Nat) (word : Nat → Nat × Bool) : State :=
  let lines := t.lanes.map (fun l => lineOf (t.spillAddr q l))
  let whole := (dedup lines).filter (fun a => (lines.filter (· == a)).length == 32)
  let s := t.lanes.foldl (fun s l => s.store (t.spillAddr q l) (slotOfCtx t.ctx) (leBytes 4 (word l).1)) s
  let clean := whole.foldl (fun m a => Sparse.set m 0 a 0) s.memPoison
  { s with memPoison := (t.lanes.filter (fun l => (word l).2)).foldl (fun m l =>
      Sparse.set m 0 (lineOf (t.spillAddr q l)) 0x93) clean }

/-- One position of every lane spilled (R178). -/
def State.spillOne (s : State) (t : Thread) (q : Nat) : State :=
  s.spillRow t q (fun l =>
    ((Sparse.get t.store 0 (t.storeKey q l)).toNat, Sparse.get t.storePoison false (t.storeKey q l)))

/-- One position of every lane read back into its store slot (R178). -/
def State.fillOne (s : State) (t : Thread) (q : Nat) : Thread :=
  t.lanes.foldl (fun u l => u.setStore (t.storeKey q l)
    (BitVec.ofNat 32 (s.loadNat (t.spillAddr q l) (slotOfCtx t.ctx) 4))) t

/-- The poisoned line that a fill would read, if any (R178). -/
def State.fillPoison (s : State) (t : Thread) (qs : List Nat) : Option Nat :=
  (qs.flatMap (fun q => t.lanes.map (fun l => lineOf (t.spillAddr q l)))).find? (fun a =>
    Sparse.get s.memPoison 0 a != 0)

/-- Positions that a CALL opens, zeroed in every lane (R176). -/
def Thread.zeroOpened (t : Thread) (wp opened : Nat) : Thread :=
  (span (wp + 64 - opened) (wp + 64)).foldl (fun u q =>
    u.lanes.foldl (fun u l => u.setStore (u.storeKey q l) 0) u) t

/-- The window takes its new position: spills, fills, RBASE, WP, zeroing, and on to pc (R176, R178,
R207, R208). -/
def State.moveWindow (s : State) (t : Thread) (wp : Nat) (pc : W64) (opened : Nat) : State :=
  let hw := !s.mode (dieOf t.core) 1
  let (outP, inP) := if hw then t.moved wp else ([], [])
  match s.fillPoison t inP with
  | some line =>
    s.trapThread { t with park := .run } ⟨vSoftError, 0x95, t.exec, line, 0⟩ t.pc t.after
  | none =>
    let s := outP.foldl (fun s q => s.spillOne t q) s
    let t := inP.foldl (fun t q => s.fillOne t q) t
    let t := { t with wp := wp, rbase := if hw then t.rbaseFor wp else t.rbase, pc := pc
                      park := .run, relDone := false, only := none }
    s.setThread (t.zeroOpened wp opened)

/-- A CALL or RET moves the window: at once where no position moves, else when the spill engine is
done; it waits while a position it would move has a write pending (R178). -/
def State.slide (s : State) (t : Thread) (wp : Nat) (pc : W64) (opened : Nat) : State :=
  let (outP, inP) := if s.mode (dieOf t.core) 1 then ([], []) else t.moved wp
  if s.slotsBusy t (outP ++ inP) then s.setThread { t with park := .poll }
  else if outP.isEmpty && inP.isEmpty then s.moveWindow t wp pc opened
  else s.setThread { t with park := .spill wp pc opened }

/-- The link a CALL writes (R207). -/
def linkOf (n : Nat) (ret : W64) : W64 :=
  BitVec.ofNat 64 (n / 8 * 2 ^ 61 + bits ret.toNat 63 1 * 2 ^ 60 + bits ret.toNat 2 55)

/-- The address that a link names (R208). -/
def linkPc (link : W64) : W64 :=
  BitVec.ofNat 64 ((if link.getLsbD 60 then 0xFE00000000000000 else 0) + bits link.toNat 0 55 * 4)

/-- CALL and CALLX once taken (R207): n the slide, the register target if CALLX. -/
def State.call (s : State) (h : Hdr) (t : Thread) (n : Nat) (target : W64) (viaReg : Bool) : State :=
  let top := t.wp + n + 64
  if t.lim < top then s.trap h vSpill 0x31
  else if s.mode (dieOf t.core) 1 && t.rbase + t.dres < top then
    (s.setThread { t with wpNext := t.wp + n }).trap h vSpill 0x30
  else if viaReg && target.toNat % 4 != 0 then s.trapAddr h vMisalign 0x08 target.toNat
  else
    let link := linkOf n (nextPc t.pc h)
    let wp := t.wp + n
    let moves := if s.mode (dieOf t.core) 1 then ([], []) else t.moved wp
    if s.slotsBusy t (moves.1 ++ moves.2) then s.poll
    else
      let u := t.lanes.foldl (fun u l =>
        (u.setVreg (n - 2) l (link.extractLsb' 0 32)).setVreg (n - 1) l (link.extractLsb' 32 32)) t
      s.slide { u with after := nextPc t.pc h } wp target n

/-- CALL (R207). Slides the register window by n, writes the link and branches. -/
def execCall (h : Hdr) (x : BitVec 3) (o : BitVec 15) (ss : BitVec 2) (s : State) :
    Host.Outcome State Fault Refusal :=
  run (.call h x o ss) s (fun s => s.withThread (fun t =>
    if s.taken h.g then s.call h t (8 * x.toNat) (branchTarget t.pc o ss) false else s.advance h))

/-- CALLX (R207). Calls through a register with a window slide. -/
def execCallx (h : Hdr) (a : BitVec 7) (b : BitVec 6) (s : State) :
    Host.Outcome State Fault Refusal :=
  run (.callx h a b) s (fun s => s.withThread (fun t =>
    s.call h t b.toNat (t.sreg a.toNat) true))

/-- RET (R205, R208). Restores the window from the link and returns, or exits at WP 0. -/
def execRet (h : Hdr) (s : State) : Host.Outcome State Fault Refusal :=
  run (.ret h) s (fun s => s.withThread (fun t =>
    if t.wp == 0 then (s.setThread (t.exitLanes t.exec (nextPc t.pc h))).afterExit
    else
      let link : W64 := s.position t (t.wp - 1) 0 ++ s.position t (t.wp - 2) 0
      let nw := t.wp - 8 * bits link.toNat 61 3
      if s.mode (dieOf t.core) 1 && nw < t.rbase then
        (s.setThread { t with wpNext := nw }).trap h vFill 0x38
      else s.slide { t with after := nextPc t.pc h } nw (linkPc link) 0))

/-- SPILL_FILL_DONE (R178). The spill engine finishes moving stack positions for a CALL or RET,
which then completes. -/
def execSpillFillDone (s : State) : Host.Outcome State Fault Refusal :=
  .next (match s.thread? s.arg.a with
    | some t =>
      match t.park with
      | .spill wp pc opened => s.moveWindow t wp pc opened
      | _ => s
    | none => s)

/-! ## Jumps, yield, sleep and breakpoints -/

/-- BRX (R209). Jumps through a register, always or on a uniform condition. -/
def execBrx (h : Hdr) (d : BitVec 7) (a : BitVec 7) (b : BitVec 6) (s : State) :
    Host.Outcome State Fault Refusal :=
  run (.brx h d a b) s (fun s =>
    let c := s.sreg b.toNat
    if d == 0 || (d == 1 && c != 0) || (d == 2 && c == 0) then
      let target := s.sreg a.toNat
      if target.toNat % 4 != 0 then s.trapAddr h vMisalign 0x08 target.toNat else s.goto target
    else s.advance h)

/-- Nanoseconds, begun ones counted, of a cycle of a die's clock. -/
def cycleTime (mhz : Nat) : Nat := ceilDiv 1000 (max 1 mhz)

/-- YIELD (R210). Resets the group's residency time for issue order, and keeps it from issuing in the next cycle. -/
def execYield (h : Hdr) (s : State) : Host.Outcome State Fault Refusal :=
  run (.yield h) s (fun s => s.withThread (fun t =>
    { s with threads := s.threads.map (fun (u : Thread) =>
        if u.id == t.id then
          { u with resident := s.time, idleTill := s.time + cycleTime (s.die (dieOf t.core)).clockMHz + 1 }
        else if sameGroup t u then { u with resident := s.time } else u) }.advance h))

/-- A token that names a failed copy raises the copy's trap and becomes idle (R312). -/
def State.tokenTrap (s : State) (t : Thread) (k vector cause addr : Nat) : State :=
  if 0 < (s.core t.core).hq.free then
    s.trapThread (t.setTok k .idle) ⟨vector, cause, t.exec, addr, k⟩ t.pc (t.pc + 4)
  else s.setThread { t with park := .poll }

/-- The end of a sleep (R211, R319): a busy token is a missed promise, whose trap carries a new one; a
failed token raises its copy's trap. -/
def State.sleepEnd (s : State) (t : Thread) (k : Option Nat) : State :=
  match k.map (fun k => (k, t.tok k)) with
  | some (k, .busy _) =>
    let promise := s.time + 1 + Config.promiseDelay s.fresh
    { s with fresh := s.fresh + 1 }.trapThread { t with park := .run }
      ⟨vPromise, 0x40, t.exec, promise, k⟩ t.pc (t.pc + 4)
  | some (k, .failed v c a _) => s.tokenTrap { t with park := .run } k v c a.toNat
  | _ => s.setThread { t with pc := t.pc + 4, park := .run, relDone := false, only := none }

/-- Whether a sleep is over (R211). -/
def State.sleepOver (s : State) (t : Thread) (wake : Nat) (k : Option Nat) : Bool :=
  wake ≤ s.time || (match k with | some k => t.tok k == .idle | none => false)

/-- A sleep until a device time, or until a token goes idle (R211). -/
def State.sleepUntil (s : State) (h : Hdr) (wake : Nat) (k : Option Nat) : State :=
  match s.cur with
  | .thread id =>
    match s.thread? id with
    | some t =>
      if s.sleepOver t wake k then s.sleepEnd t k
      else s.setThread { t with park := .sleep wake k, after := nextPc t.pc h }
    | none => s
  | .proctor c =>
    if wake ≤ s.time then s.advance h
    else s.setProctor c { (s.core c).proctor with wake := some wake, park := .sleep wake none }

/-- SLEEP (R211). Parks the group for a duration in ns. -/
def execSleep (h : Hdr) (a : BitVec 7) (s : State) : Host.Outcome State Fault Refusal :=
  run (.sleep h a) s (fun s =>
    s.sleepUntil h (min (s.time + (s.sreg a.toNat).toNat) (2 ^ 64 - 1)) none)

/-- SLEEP.UNTIL (R211, R213). Parks the group until an absolute time, or until a named token goes
idle. -/
def execSleepUntil (h : Hdr) (a : BitVec 7) (b : BitVec 6) (s : State) :
    Host.Outcome State Fault Refusal :=
  run (.sleepUntil h a b) s (fun s =>
    match s.cur with
    | .proctor _ =>
      if b != 0 then s.trap h vIllegal 0x02 else s.sleepUntil h (s.sreg a.toNat).toNat none
    | .thread _ =>
      s.sleepUntil h (s.sreg a.toNat).toNat (if b == 0 then none else some (b.toNat - 8)))

/-- SLEEP_WAKE (R211, R319). A sleeping group wakes at its wake time, or raises promise-missed if its
named token is still busy; a sleeping proctor lane likewise. -/
def execSleepWake (s : State) : Host.Outcome State Fault Refusal :=
  .next (match s.thread? s.arg.a with
    | some t =>
      match t.park with
      | .sleep wake k => if s.sleepOver t wake k then s.sleepEnd t k else s
      | _ => s
    | none =>
      if s.arg.a < laneNumber then s
      else
        let c := s.arg.a - laneNumber
        let p := (s.core c).proctor
        match p.park with
        | .sleep wake _ =>
          if wake ≤ s.time then
            s.setProctor c { p with pc := p.pc + 4, park := .run, wake := none, relDone := false }
          else s
        | _ => s)

/-- BRK (R212). Raises the breakpoint trap with a code; the saved program counter is the next
instruction. -/
def execBrk (h : Hdr) (b : BitVec 6) (s : State) : Host.Outcome State Fault Refusal :=
  run (.brk h b) s (fun s =>
    match s.cur with
    | .thread id =>
      match s.thread? id with
      | some t =>
        if 0 < (s.core t.core).hq.free then
          s.trapThread t (plainTrap vBreakpoint b.toNat t.exec) (nextPc t.pc h) (nextPc t.pc h)
        else s.poll
      | none => s
    | .proctor c => s.trapProctor c vBreakpoint b.toNat 0 (nextPc s.pc h) false)

/-! ## Special registers -/

/-- PIPEND of a proctor lane: its edge bits, and bit 1 while the queue holds a posted record
(R198). -/
def Core.pipend (k : Core) : BitVec 6 :=
  (k.proctor.pipend &&& 0x3D) ||| (if k.hq.posted then 2 else 0)

/-- A special register as a group reads it (R215). -/
def State.srThread (s : State) (h : Hdr) (t : Thread) (n : Nat) : Nat :=
  match n with
  | 0x00 => s.time
  | 0x01 => t.lct.clus
  | 0x02 => t.lct.die
  | 0x03 => t.lct.dev
  | 0x04 => t.lct.sys
  | 0x05 => t.mathctl.toNat
  | 0x06 => t.memdef.toNat
  | 0x07 => t.wp % 2 ^ 32 + t.rbase * 2 ^ 32
  | 0x08 => if t.sup then t.spillbase else 0
  | 0x09 => t.wlimit
  | 0x0A => t.srcnt.toNat
  | 0x0B => t.exec.toNat
  | 0x0C => t.live.toNat
  | 0x0D => t.f + t.width * 2 ^ 8 + t.rstack.length * 2 ^ 16
  | 0x0E => t.codebase.toNat
  | 0x0F => (nextPc t.pc h).toNat
  | 0x10 => t.ctx.toNat
  | 0x11 => min 63 (s.countOuts t.id 0) + min 63 (s.countOuts t.id 1) * 2 ^ 8
      + min 63 (s.countMx t.id) * 2 ^ 16 + min 63 (s.countOuts t.id 2) * 2 ^ 24
  | 0x12 => ((List.range 8).map (fun k => b2n (t.tok k != .idle) * 2 ^ k)).foldl (· + ·) 0
  | 0x13 => b2n t.sup
  | _ => 0

/-- A special register as a proctor lane reads it (R215). -/
def State.srProctor (s : State) (h : Hdr) (c n : Nat) : Nat :=
  let p := (s.core c).proctor
  match n with
  | 0x00 => s.time
  | 0x05 => p.mathctl.toNat
  | 0x0F => (nextPc p.pc h).toNat
  | 0x20 => (s.core c).pipend.toNat
  | 0x21 => p.pien.toNat
  | 0x22 => p.ptick
  | 0x23 => p.ptmiss
  | 0x24 => b2n p.ie
  | _ => 0

/-- GETSR (R214, R215). Reads a special register into a uniform register. -/
def execGetsr (h : Hdr) (d : BitVec 7) (b : BitVec 6) (s : State) :
    Host.Outcome State Fault Refusal :=
  run (.getsr h d b) s (fun s =>
    match s.cur with
    | .thread id =>
      match s.thread? id with
      | some t =>
        if 0x20 ≤ b.toNat then s.trap h vPrivilege 0x0C
        else (s.setSreg d.toNat (BitVec.ofNat 64 (s.srThread h t b.toNat))).advance h
      | none => s
    | .proctor c => (s.setSreg d.toNat (BitVec.ofNat 64 (s.srProctor h c b.toNat))).advance h)

/-- Legal values of WLIMIT (R195): the powers of two up to the kernel's maximum width. -/
def wlimitLegal (t : Thread) (v : Nat) : Bool :=
  (List.range 7).any (fun i => v == 2 ^ i) && v ≤ t.maxWidth

/-- A proctor lane after a SETSR (R198, R215). -/
def State.setsrProctor (s : State) (c n : Nat) (v : W64) : Proctor :=
  let p := (s.core c).proctor
  let lo := v.toNat % 2 ^ 32
  match n with
  | 0x05 => { p with mathctl := mathctlWrite p.mathctl (v.setWidth 32) }
  | 0x20 => { p with pipend := p.pipend &&& ~~~(v.setWidth 6 &&& 0x3D) }
  | 0x21 => { p with pien := v.setWidth 6 ||| 0x20 }
  | 0x22 => if 100 ≤ lo && lo ≤ 1000000 then { p with ptick := lo, tickT0 := s.time } else p
  | 0x23 => if v == 0 then { p with ptmiss := 0 } else p
  | 0x24 => { p with ie := v.getLsbD 0 }
  | _ => p

/-- SETSR (R214, R215). Writes a special register under its write rule. -/
def execSetsr (h : Hdr) (a : BitVec 7) (b : BitVec 6) (s : State) :
    Host.Outcome State Fault Refusal :=
  run (.setsr h a b) s (fun s =>
    let v := s.sreg a.toNat
    match s.cur with
    | .thread id =>
      match s.thread? id with
      | some t =>
        if 0x20 ≤ b.toNat then s.trap h vPrivilege 0x0C
        else if b == 0x05 then
          (s.setThread { t with mathctl := mathctlWrite t.mathctl (v.setWidth 32) }).advance h
        else
          (s.setThread { t with wlimit := if wlimitLegal t v.toNat then v.toNat else t.wlimit }).advance h
      | none => s
    | .proctor c =>
      if b == 0x09 then s.trap h vIllegal 0x02
      else (s.setProctor c (s.setsrProctor c b.toNat v)).advance h)

end Sys2Proof.Machine
end

