-- ==== Sys2Proof/Machine/Translate.lean ====
section
/-! DEFINITION. Address spaces and translation (R114 to R125), the walkers and their supervisor mode
(R126, R127), and the access counters (R129 to R131). -/

namespace Sys2Proof.Machine

/-- Kinds of access, as hand-in records number them (R361). -/
def accRead : Nat := 0
def accWrite : Nat := 1
def accAtomic : Nat := 2
def accFetch : Nat := 3
def accCopyRead : Nat := 4
def accCopyWrite : Nat := 5

/-- Accesses that write (R128). -/
def writes (access : Nat) : Bool := access == 1 || access == 2 || access == 5

/-- Accesses that read data. -/
def reads (access : Nat) : Bool := access == 0 || access == 2 || access == 4

/-- Half of a virtual address (R115): true the supervisor half, none neither. -/
def halfOf (va : Nat) : Option Bool :=
  if bits va 57 7 == 0 then some false else if bits va 57 7 == 0x7F then some true else none

/-- What becomes of one translation. -/
inductive Trans where
  | ok (pa key mt : Nat)
  | prot (cause : Nat)
  | page (cause : Nat)
  /-- Blocked under R128. -/
  | blocked
  /-- A walk is needed, or under way. -/
  | wait
  deriving DecidableEq, Repr

/-- Bits of the page offset of a TLB entry's size. -/
def pageBits (size : Nat) : Nat := match size with | 0 => 12 | 1 => 16 | _ => 21

/-- Base of the page of a size that holds an address. -/
def pageBase (size va : Nat) : Nat := va / 2 ^ pageBits size * 2 ^ pageBits size

/-- The TLB entry that maps an address (R123). -/
def State.tlbFind (s : State) (core : Nat) (ctx : W32) (va : Nat) : Option TlbEntry :=
  s.tlb.find? (fun e => e.core == core && e.ctx == ctx && e.va == pageBase e.size va)

/-- The walk under way for a page of a core's context, or its fault (R126); a mapping check is none. -/
def State.walkFind (s : State) (core : Nat) (ctx : W32) (va : Nat) : Option Walk :=
  s.walks.find? (fun w => w.use != .check && (w.core == core || (w.fault.isNone && w.others.contains core)) && w.ctx == ctx
    && w.va == pageBase 0 va)

/-- Protection cause of a leaf's permissions for an access, lowest first (R125). -/
def denies (sup u x w rd : Bool) (mt access : Nat) : Option Nat :=
  if !sup && !u then some 0x22
  else if access == accFetch then
    if sup && u then some 0x23 else if !x then some 0x26 else if mt != 0 then some 0x27 else none
  else if reads access && !rd then some 0x24
  else if writes access && !w then some 0x25
  else none

/-- Key slot under which an access is made (R117): the context's for the user half, else slot 0. -/
def keyFor (ctx : W32) (va : Nat) : Nat := if halfOf va == some true then 0 else slotOfCtx ctx

/-- Virtual address of a launch's argument copy, a multiple of 64 KiB in the user half (R44). -/
def argVa (launch : W64) : Nat := Config.argCopyPlace launch % 2 ^ 41 * 65536

/-- Where the device keeps a launch's argument copy: memory owned by the launch, which no address of
the physical map names (R44). -/
def argPa (launch : W64) : Nat := 2 ^ 52 + launch.toNat * 65536

/-- The argument copy that an address of a context lies in. -/
def State.argAt (s : State) (ctx : W32) (va : Nat) : Option Nat :=
  (s.launches.find? (fun l => l.ctx == ctx && l.state != .retired && argVa l.ident ≤ va
    && va < argVa l.ident + l.kd.argSize)).map (fun l => argPa l.ident + (va - argVa l.ident))

/-- Translation in an argument copy, which is read-only (R44). -/
def argTrans (ctx : W32) (pa access : Nat) : Trans :=
  if writes access then .prot 0x25 else if access == accFetch then .prot 0x26
  else .ok pa (slotOfCtx ctx) 0

/-- Translation through the halves of R115 (R122 to R128). -/
def State.translateHalf (s : State) (core : Nat) (ctx : W32) (sup : Bool) (va access : Nat) : Trans :=
  match halfOf va with
  | none => .prot 0x20
  | some half =>
    if half && !sup then .prot 0x21
    else
      match s.walkFind core ctx va with
      | some w => match w.fault with | some (v, c) => if v == 4 then .page c else .prot c | none => .wait
      | none =>
        match s.tlbFind core ctx va with
        | none => .wait
        | some e =>
          match denies sup e.u e.x e.w e.rd e.mt access with
          | some c => .prot c
          | none =>
            if writes access && e.wblk then .blocked
            else if writes access && !e.d then .wait
            else .ok (e.pa + va % 2 ^ pageBits e.size) (keyFor ctx va) e.mt

/-- Translation of a virtual address (R44, R115). -/
def State.translate (s : State) (core : Nat) (ctx : W32) (sup : Bool) (va access : Nat) : Trans :=
  match s.argAt ctx va with
  | some pa => argTrans ctx pa access
  | none => s.translateHalf core ctx sup va access

/-- Whether an address lies in no populated range (R117), or in memory or a port that minimal mode leaves without
power (R20): all but die 0's first HBM stack, which the model takes as the lower half of its HBM (log entry 72). -/
def State.reservedPa (s : State) (pa : Nat) : Bool :=
  match regionOf pa with
  | .none => true
  | .hbm _ => s.boot.minimal && 0xC00000000 ≤ pa
  | .tier2 _ | .cxl _ | .peer _ => s.boot.minimal
  | _ => false

/-- Translation of a physical-space address (R117). -/
def State.physical (s : State) (pa : Nat) : Trans :=
  if 2 ^ 52 ≤ pa then .prot 0x20
  else if s.reservedPa pa then .page 0x03
  else
    match regionOf pa with
    | .ctl _ _ => .ok pa 0 2
    | _ => .ok pa 0 0

/-- Misses that wait on a die (R126). -/
def missLimit : Nat := 64

/-- A walk under way on a core's die for a page and context, which its miss is merged into (R126). -/
def State.walkMerge (s : State) (core : Nat) (ctx : W32) (va : Nat) : Option Walk :=
  s.walks.find? (fun w => w.use != .check && dieOf w.core == dieOf core && w.fault.isNone && w.ctx == ctx
    && w.va == pageBase 0 va)

/-- A walk has neither ended in a fault nor, as a check, found its leaf. -/
def Walk.open_ (w : Walk) : Bool := w.fault.isNone && w.found.isNone

/-- A new walk, in the mode FMODE.WALK selects for the core's die (R24, R126, R127). -/
def State.newWalk (s : State) (use : WalkUse) (core : Nat) (ctx : W32) (sup : Bool) (va access : Nat) : State :=
  let d := dieOf core
  if missLimit ≤ (s.walks.filter (fun w => dieOf w.core == d && w.open_)).length then s
  else
    let sv := s.mode d 0
    let (id, s) := s.newId
    let w : Walk :=
      { id := id, core := core, ctx := ctx, sup := sup, va := pageBase 0 va, access := access
        others := [], svmode := sv, stale := false, fault := none, use := use, found := none }
    let s := { s with walks := s.walks ++ [w] }
    if sv then
      s.postDevice (12 * d) (devicePost 0x04 (slotOfCtx ctx) (some id)
        (leBytes 4 ctx.toNat ++ [BitVec.ofNat 8 access, BitVec.ofNat 8 core, 0, 0]
          ++ leBytes 8 (pageBase 0 va)))
    else s

/-- A miss starts a walk, or joins one; one that a prefetch started is then wanted (R110). -/
def State.missWalk (s : State) (use : WalkUse) (core : Nat) (ctx : W32) (sup : Bool) (va access : Nat) : State :=
  let change (x : Walk) (f : Walk → Walk) : State :=
    { s with walks := s.walks.map (fun w => if w.id == x.id then f w else w) }
  match s.walkFind core ctx va, s.walkMerge core ctx va with
  | some x, _ =>
    if use == .demand && x.use == .prefetch && x.core == core then change x (fun w => { w with use := .demand }) else s
  | none, some x => if use == .prefetch then s else change x (fun w => { w with others := w.others ++ [core] })
  | none, none => s.newWalk use core ctx sup va access

/-- An access that misses starts a walk or joins one (R126). -/
def State.startWalk (s : State) (core : Nat) (ctx : W32) (sup : Bool) (va access : Nat) : State :=
  s.missWalk .demand core ctx sup va access

/-- Whether a blocked write waits on a page (R128). -/
def State.isHeld (s : State) (who : Nat) (ctx : W32) (va : Nat) : Bool :=
  s.held.any (fun x => x.who == who && x.ctx == ctx && x.page == pageBase 0 va)

/-- A write waits, blocked, on a page until a shootdown that covers it has completed (R128). -/
def State.hold (s : State) (who : Nat) (ctx : W32) (va : Nat) : State :=
  if s.isHeld who ctx va then s else { s with held := s.held ++ [⟨who, ctx, pageBase 0 va⟩] }

/-- What blocked a thread or an engine no longer holds it. -/
def State.unhold (s : State) (who : Nat) : State := { s with held := s.held.filter (fun x => x.who != who) }

/-- The faults that these addresses met are reported, so their walks are over. -/
def State.endWalks (s : State) (core : Nat) (ctx : W32) (vas : List Nat) : State :=
  { s with walks := s.walks.filter (fun w =>
      !(w.core == core && w.ctx == ctx && w.fault.isSome && vas.any (fun v => w.va == pageBase 0 v))) }

/-! ## The page table -/

/-- Whether an address lies in a control block. -/
def inControl (pa : Nat) : Bool := match regionOf pa with | .ctl _ _ => true | _ => false

/-- ADDR of an entry (R119). -/
def entryAddr (e : Nat) : Nat := bits e 12 40 * 4096

/-- A malformed leaf (R120): level, and whether it lies in the user half. -/
def leafMalformed (e level : Nat) (user : Bool) : Bool :=
  bits e 56 8 != 0 || bit e 10 || bits e 1 2 != 0 || level ≥ 3
    || (level == 2 && (bit e 11 || bits e 12 9 != 0))
    || bits e 52 2 == 3 || (bit e 4 && !bit e 3)
    || (bits e 52 2 == 2 && (user || !inControl (entryAddr e)))
    || (inControl (entryAddr e) && bits e 52 2 != 2)

/-- A malformed table entry (R120): its next table is 4 KiB below level 2, else 32 KiB. -/
def tableMalformed (e level : Nat) : Bool :=
  bits e 52 12 != 0 || bits e 8 4 != 0 || bits e 1 6 != 0 || level == 1
    || (level ≥ 3 && bits e 12 3 != 0)

/-- Where a walk ends: a fault cause, or a leaf with its value, its entry address and page size. -/
inductive WalkEnd where
  | fault (cause : Nat)
  | leaf (value addr size : Nat)
  deriving DecidableEq, Repr

/-- The end of a walk at a leaf (R120, R121): a member of a 64 KiB page is installed from the first
entry of its group. -/
def State.leafEnd (s : State) (e at_ level : Nat) (user : Bool) : WalkEnd :=
  if leafMalformed e level user then .fault 2
  else if level == 1 && bit e 11 then
    let first := at_ / 128 * 128
    let g := s.loadNat first 0 8
    if !bit g 0 || !bit g 11 || bits g 12 4 != 0 || !bit g 7 || leafMalformed g 1 user then .fault 2
    else if s.reservedPa (entryAddr g) then .fault 3
    else .leaf g first 1
  else if s.reservedPa (entryAddr e) then .fault 3
  else .leaf e at_ (if level == 2 then 2 else 0)

/-- Lowest address bit that indexes a table of a level (R118). -/
def levelShift : Nat → Nat
  | 0 => 12
  | 1 => 12
  | 2 => 21
  | 3 => 33
  | _ => 45

/-- Place of the entry for an address in a table of a level (R118). -/
def entryAt (table level va : Nat) : Nat :=
  table + 8 * bits va (levelShift level) (if level ≤ 1 then 9 else 12)

/-- A walk from a table of a level (R118, R120); `rd` reads the entry of a level at an address. -/
def State.walkFrom (s : State) (rd : Nat → Nat → Nat) (user : Bool) (va : Nat) : Nat → Nat → WalkEnd
  | 0, _ => .fault 2
  | level + 1, table =>
    if s.reservedPa table then .fault 3
    else
      let at_ := entryAt table (level + 1) va
      let e := rd (level + 1) at_
      if !bit e 0 then .fault 1
      else if bit e 7 then s.leafEnd e at_ (level + 1) user
      else if tableMalformed e (level + 1) then .fault 2
      else s.walkFrom rd user va level (entryAddr e)

/-- The table entries of levels 4 to 2 that a walk passes, as level and value. -/
def State.walkPath (s : State) (rd : Nat → Nat → Nat) (va : Nat) : Nat → Nat → List (Nat × Nat)
  | 0, _ => []
  | level + 1, table =>
    let e := rd (level + 1) (entryAt table (level + 1) va)
    if level == 0 || s.reservedPa table || !bit e 0 || bit e 7 || tableMalformed e (level + 1) then []
    else (level + 1, e) ::
      s.walkPath rd va level (entryAddr e)

/-- The top table of a context for an address, where its root entry is valid (R115). -/
def State.rootTable (s : State) (ctx : W32) (va : Nat) : Option Nat :=
  let user := halfOf va != some true
  let slot := if user then slotOfCtx ctx else 0
  if user && slot == 0 then none
  else
    let r := s.loadNat (s.ctxRoot + 8 * slot) 0 8
    if !bit r 0 then none else some (bits r 15 37 * 2 ^ 15)

/-- A walk for a virtual address of a context (R115, R118), its entries read by `rd`. -/
def State.walkBy (s : State) (rd : Nat → Nat → Nat) (ctx : W32) (va : Nat) : WalkEnd :=
  match s.rootTable ctx va with
  | none => .fault 1
  | some table => s.walkFrom rd (halfOf va != some true) va 4 table

/-- A table entry in memory, read under the key of slot 0 (R119). -/
def State.entryRead (s : State) (_level at_ : Nat) : Nat := s.loadNat at_ 0 8

/-- A walk that reads every entry in memory. -/
def State.walk (s : State) (ctx : W32) (va : Nat) : WalkEnd := s.walkBy s.entryRead ctx va

/-! ## The walkers' caches -/

/-- Entries that a walker keeps (R126). -/
def walkerSize : Nat := 512

/-- The walker of a die that serves the next walk. -/
def State.walkerOf (s : State) (die : Nat) : Nat := 4 * die + Config.walkerChoice s.fresh % 4

/-- First address that an entry of a level covers. -/
def coverBase (level va : Nat) : Nat := va / 2 ^ levelShift level * 2 ^ levelShift level

/-- The entry of a level that a die's walker keeps and uses for an address (R126): a table entry of levels
4 to 2. -/
def State.walkerKept (s : State) (die : Nat) (ctx : W32) (va level : Nat) : Option WalkerEntry :=
  s.wcache.find? (fun e => e.level == level && e.ctx == ctx && e.base == coverBase level va
    && 2 ≤ level && bit e.value 0 && !bit e.value 7
    && e.walker == s.walkerOf die && Config.walkerHit s.fresh level)

/-- A table entry as a die's walker takes it: from its cache, or from memory (R126). -/
def State.walkerRead (s : State) (die : Nat) (ctx : W32) (va level at_ : Nat) : Nat :=
  match s.walkerKept die ctx va level with
  | some e => e.value
  | none => s.entryRead level at_

/-- A walk by a walker of a die. -/
def State.walkOn (s : State) (die : Nat) (ctx : W32) (va : Nat) : WalkEnd :=
  s.walkBy (s.walkerRead die ctx va) ctx va

/-- A walker keeps an entry, in place of an earlier one of its range; a full cache gives up an entry,
which one being open (R126). -/
def State.walkerKeep (s : State) (x : WalkerEntry) : State :=
  let keep := s.wcache.filter (fun e =>
    !(e.level == x.level && e.ctx == x.ctx && e.base == x.base && e.walker == x.walker))
  let mine := keep.filter (fun e => e.walker == x.walker)
  if mine.length < walkerSize then { s with wcache := keep ++ [x] }
  else
    let (v, s) := s.freeValue
    { s with wcache := keep.filter (fun e => some e != mine[v.toNat % mine.length]?) ++ [x] }

/-- After a walk its walker keeps the table entries it passed (R126). -/
def State.walkerFill (s : State) (die : Nat) (ctx : W32) (va : Nat) : State :=
  match s.rootTable ctx va with
  | none => s
  | some table =>
    (s.walkPath (s.walkerRead die ctx va) va 4 table).foldl (fun (r : State) e =>
      r.walkerKeep ⟨s.walkerOf die, ctx, e.1, coverBase e.1 va, e.2⟩) { s with fresh := s.fresh + 1 }

/-- The TLB entry that a leaf gives. -/
def tlbOf (core : Nat) (ctx : W32) (va leaf size : Nat) : TlbEntry :=
  { core := core, ctx := ctx, size := size, va := pageBase size va
    pa := entryAddr leaf / 2 ^ pageBits size * 2 ^ pageBits size
    u := bit leaf 6, x := bit leaf 5, w := bit leaf 4, rd := bit leaf 3, d := bit leaf 9
    ace := bit leaf 54, wblk := bit leaf 55, mt := bits leaf 52 2 }

/-- Entries of a core's TLB (R123). -/
def tlbSize : Nat := 2048

/-- A translation installed in place of those of the same page; a full TLB gives up an entry of the
core, which one being open (R123). -/
def State.tlbInstall (s : State) (e : TlbEntry) : State :=
  let keep := s.tlb.filter (fun x =>
    !(x.core == e.core && x.ctx == e.ctx && (x.va == pageBase x.size e.va || e.va == pageBase e.size x.va)))
  let mine := keep.filter (fun x => x.core == e.core)
  if mine.length < tlbSize then { s with tlb := keep ++ [e] }
  else
    let (v, s) := s.freeValue
    { s with tlb := keep.filter (fun x => some x != mine[v.toNat % mine.length]?) ++ [e] }

/-- A walk's translation installed in every core that waits for it; a mapping check keeps it alone (R323). -/
def State.walkInstall (s : State) (w : Walk) (leaf size : Nat) : State :=
  if w.use == .check then
    { s with walks := s.walks.map (fun x => if x.id == w.id then { w with found := some (leaf, size) } else x) }
  else (w.core :: w.others).foldl (fun (s : State) c => s.tlbInstall (tlbOf c w.ctx w.va leaf size))
    { s with walks := s.walks.filter (fun x => x.id != w.id) }

/-- A walk's fault kept for every core that waits for it; that of a prefetch alone is discarded (R110). -/
def State.walkFault (s : State) (w : Walk) (f : Nat × Nat) : State :=
  let own := if w.use == .prefetch then [] else [{ w with fault := some f }]
  { s with walks := s.walks.filter (fun x => x.id != w.id) ++ own
      ++ w.others.map (fun c => { w with core := c, others := [], fault := some f, use := .demand }) }

/-- Bits of a leaf set by an atomic OR at its home (R122). -/
def State.orLeaf (s : State) (at_ mask : Nat) : State :=
  let v := s.loadNat at_ 0 8
  s.store at_ 0 (leBytes 8 (v ||| mask))

/-- Whether the walker sets D in a leaf for an access (R122): a write that the leaf allows, and that neither
WBLK holds nor, where the core's TLB holds the page with D = 0, finds another frame than the one held. -/
def State.setsD (s : State) (w : Walk) (e : TlbEntry) : Bool :=
  writes w.access && !e.wblk && (denies w.sup e.u e.x e.w e.rd e.mt w.access).isNone
    && (match s.tlbFind w.core w.ctx w.va with
        | some x => x.d || (x.pa == e.pa && x.size == e.size)
        | none => true)

/-- The end of a hardware walk (R122): the leaf's A, and D for a write that may proceed, are set, and
the translation is installed; or the walk keeps its fault for the accesses that wait on it. A leaf that changed
its frame since the core took its translation is installed without D, and the write translates again (log entry
82). -/
def State.hardWalk (s : State) (w : Walk) : State :=
  let found := s.walkOn (dieOf w.core) w.ctx w.va
  let s := s.walkerFill (dieOf w.core) w.ctx w.va
  match found with
  | .fault c => s.walkFault w (4, c)
  | .leaf v at_ size =>
    let mask := 2 ^ 8 + (if s.setsD w (tlbOf w.core w.ctx w.va v size) then 2 ^ 9 else 0)
    let s := if v &&& mask == mask then s else s.orLeaf at_ mask
    s.walkInstall w (v ||| mask) size

/-- PAGE_WALK_END (R122, R126). A hardware walk ends by installing a translation, setting A or D, or
raising a page fault; a walk that a shootdown has overtaken starts again (R133). -/
def execPageWalkEnd (s : State) : Host.Outcome State Fault Refusal :=
  .next (match s.walks.find? (fun w => w.id == s.arg.a) with
    | some w =>
      if w.svmode || !w.open_ then s
      else if w.stale then
        { s with walks := s.walks.map (fun x => if x.id == w.id then { x with stale := false } else x) }
      else s.hardWalk w
    | none => s)

/-- Whether a leaf answered by a service group is malformed for its page size (R120, R127). -/
def answerMalformed (leaf size : Nat) (user : Bool) : Bool :=
  !bit leaf 7 ||
  (match size with
   | 0 => leafMalformed leaf 1 user || bit leaf 11
   | 1 => leafMalformed leaf 1 user || !bit leaf 11 || bits leaf 12 4 != 0
   | _ => leafMalformed leaf 2 user)

/-- The fault an answer gives its requesters, none for an install (R127). A leaf that denies an access is
installed like the walker's: the access then meets its permissions (R125). -/
def State.answerFault (s : State) (w : Walk) (status size leaf : Nat) : Option (Nat × Nat) :=
  let user := halfOf w.va != some true
  if status == 1 then some (4, 4)
  else if status == 2 then some (5, 0x28)
  else if !bit leaf 0 then some (4, 1)
  else if answerMalformed leaf size user then some (4, 2)
  else if s.reservedPa (entryAddr leaf) then some (4, 3)
  else none

/-- Cores that waited for a walk wait for the one that takes its place. -/
def State.rejoin (s : State) (others : List Nat) (ctx : W32) (va : Nat) : State :=
  others.foldl (fun (s : State) c => s.startWalk c ctx true va accRead) s

/-- An answer to a walk request at WALKANS of a die (R127). A discarded answer's request is posted
afresh in place of its record. -/
def State.walkAnswer (s : State) (die : Nat) (bytes : List Byte) : State :=
  let word := leNat (bytes.take 8)
  let leaf := leNat ((bytes.drop 8).take 8)
  let tag := bits word 0 16
  let core := 12 * die
  match s.request core 0x04 tag with
  | none => s
  | some r =>
    match s.walks.find? (fun w => some w.id == r.poster) with
    | none => s
    | some w =>
      let size := bits word 24 2
      let status := bits word 16 8
      let bad := bits word 26 38 != 0 || size == 3 || 2 < status
      let s := s.endRequest core r
      if bad || w.stale then
        ({ s with walks := s.walks.filter (fun x => x.id != w.id) }.newWalk w.use w.core w.ctx w.sup w.va
          w.access).rejoin w.others w.ctx w.va
      else
        match s.answerFault w status size leaf with
        | some f => s.walkFault w f
        | none => s.walkInstall w leaf size

/-- Whether a writer is supervisor code. -/
def isSupervisor : Writer → Bool
  | .proctor _ => true
  | .sup _ => true
  | _ => false

/-- Who may answer the device's requests of a function in supervisor mode: supervisor code, or a stand-in host in
its place (R25). -/
def State.mayAnswer (s : State) (w : Writer) : Bool := isSupervisor w || (w == .host && s.standsIn)

/-- WALKANS_WRITE (R25, R127). A service group's 16-byte store to WALKANS installs a leaf or reports a
fault for the tagged walk request, or is discarded; a stand-in host answers in its place. -/
def execWalkansWrite (s : State) : Host.Outcome State Fault Refusal :=
  .next (if s.mayAnswer s.arg.w then s.walkAnswer s.arg.a s.arg.bytes else s)

/-- A page fault record of a thread (R361, kind 0x02). -/
def pageFaultPost (t : Thread) (va cause access space tok : Nat) (mask : Mask) (pc : W64) : Post :=
  threadPost t 0x02 (t.f + lowLane mask) mask
    (leBytes 8 va ++ leBytes 8 mask.toNat
      ++ [BitVec.ofNat 8 cause, BitVec.ofNat 8 access, BitVec.ofNat 8 space, BitVec.ofNat 8 tok
         , 0, 0, 0, 0] ++ leBytes 8 pc.toNat)

/-! ## Access counters -/

/-- Set of a region in a die's counter table (R129). -/
def counterSet (ctx : W32) (region : Nat) : Nat :=
  let slot := slotOfCtx ctx
  bits (bits region 16 10 ^^^ bits slot 0 10 ^^^ (bits slot 10 2 * 2 ^ 8)) 0 10

/-- The counters with one more count for a region, and the entry as it then stands (R129). -/
def bump (cs : List Counter) (ctx : W32) (region : Nat) : List Counter × Counter :=
  let same (c : Counter) : Bool := c.ctx == ctx && c.region == region
  let inSet (c : Counter) : Bool := counterSet c.ctx c.region == counterSet ctx region
  match cs.find? same with
  | some c =>
    let c := { c with count := min 0xFFFF (c.count + 1) }
    (cs.filter (fun x => !same x) ++ [c], c)
  | none =>
    let c : Counter := { ctx := ctx, region := region, count := 1, notified := false }
    let cs := if 16 ≤ (cs.filter inSet).length then cs.eraseP inSet else cs
    (cs ++ [c], c)

/-- Regions that may wait for a migration on a die (R372). -/
def migrationQueue : Nat := 16

/-- A crossing on a die (R130, R372): a notification on the requesting core, or in hardware mode a
migration; NOTIFIED stays clear where it is dropped. -/
def State.crossing (s : State) (core : Nat) (ctx : W32) (region count : Nat) : State :=
  let d := dieOf core
  let x := s.die d
  let mark (x : Die) : Die :=
    { x with counters := x.counters.map (fun c =>
        if c.ctx == ctx && c.region == region then { c with notified := true } else c) }
  if s.mode d 5 then
    if s.deviceRoom core then
      (s.setDie d (mark x)).postDevice core (devicePost 0x05 (slotOfCtx ctx) none
        (leBytes 4 ctx.toNat ++ [0, 0, 0, 0] ++ leBytes 8 region ++ leBytes 2 count
          ++ [BitVec.ofNat 8 core]))
    else s
  else if x.migWait.length < migrationQueue then
    s.setDie d { mark x with migWait := x.migWait ++ [(ctx, region, core)] }
  else s

/-- One line request from a core to a page whose translation counts (R129, R130). -/
def State.countAccess (s : State) (core : Nat) (ctx : W32) (va : Nat) : State :=
  match s.tlbFind core ctx va with
  | none => s
  | some e =>
    if !e.ace then s
    else
      let d := dieOf core
      let region := pageBase 1 va
      let (cs, c) := bump (s.die d).counters ctx region
      let s := s.setDie d { s.die d with counters := cs }
      if (s.die d).acThresh ≤ c.count && !c.notified then s.crossing core ctx region c.count else s

/-- A query of the counter table at ACQUERY (R131). -/
def State.acQuery (s : State) (die : Nat) (bytes : List Byte) : State :=
  let ctx : W32 := BitVec.ofNat 32 (leNat (bytes.take 4))
  let region := leNat ((bytes.drop 8).take 8)
  let r := match (s.die die).counters.find? (fun c => c.ctx == ctx && c.region == region) with
    | some c => 2 ^ 63 + b2n c.notified * 2 ^ 62 + c.count
    | none => 0
  s.setDie die { s.die die with acResult := BitVec.ofNat 64 r }

/-- ACQUERY_STORE (R131). A supervisor store to ACQUERY looks up one access counter entry, whose
result is then read at 0x0290. -/
def execAcqueryStore (s : State) : Host.Outcome State Fault Refusal :=
  .next (if isSupervisor s.arg.w then s.acQuery s.arg.a s.arg.bytes else s)

end Sys2Proof.Machine
end

