-- ==== Sys2Proof/Machine/Cache.lean ====
section
/-! DEFINITION. Where lines may be cached (R285, R286), how they enter and leave a cache (R288, R289), and
the directories that track the L1s of a line's home die (R287). -/

namespace Sys2Proof.Machine

/-! ## Places -/

/-- The one L1 of a cluster that may hold a line: that of core PA[8:7] xor PA[10:9] (R286). -/
def l1Of (cluster line : Nat) : Nat := 4 * cluster + ((line / 128 % 4) ^^^ (line / 512 % 4))

/-- The remote line cache of a die among the caches. -/
def rlcOf (die : Nat) : Nat := 48 + die

/-- The die of a cache. -/
def dieOfCache (place : Nat) : Nat :=
  if place < 48 then dieOf place else if place < 52 then place - 48 else place - 52

/-- Lines that a cache holds (R3): 640 KiB, 16 MiB, 64 MiB. -/
def cacheLines (place : Nat) : Nat := if place < 48 then 5120 else if place < 52 then 131072 else 524288

/-- Whether the L1 slices of a cluster hold a line of their own die (R286). -/
def State.present (s : State) (cluster line : Nat) : Bool :=
  s.caches.any (fun c => c.place == l1Of cluster line && c.line == line && c.lease.isNone)

/-- Narrow writes to a line that a cluster's slice holds and its home does not have yet, in the order in which they
reached the slice (R337). -/
def State.sliceWrites (s : State) (cluster line : Nat) : List Write :=
  s.flight.filter (fun w => w.line == line && w.scope ≤ 2 && w.arr.isSome && clusterOf w.core == cluster)

/-! ## Directories -/

/-- The region of a line (R287). -/
def dirRegion (line : Nat) : Nat := line / 512 * 512

/-- Clusters whose bit is set for a line. -/
def State.dirClusters (s : State) (line : Nat) : List Nat :=
  match s.dirs.find? (fun e => e.region == dirRegion line) with
  | some e => e.clusters
  | none => []

/-- A cluster's filter invalidates a line, unless its slice holds a narrow write to it (R287, R337). -/
def State.invalidate1 (s : State) (cluster line : Nat) : State :=
  if !(s.sliceWrites cluster line).isEmpty then s
  else
    { s with caches := s.caches.filter (fun c =>
        !(c.place == l1Of cluster line && c.line == line && c.lease.isNone)) }

/-- Lines of a line's region (R287). -/
def regionLines (line : Nat) : List Nat := (List.range 4).map (fun i => dirRegion line + 128 * i)

/-- The bits of some clusters cleared where their filters hold none of the region's lines (R287). -/
def State.dirClear (s : State) (clusters : List Nat) (line : Nat) : State :=
  let gone (c : Nat) : Bool := clusters.contains c && !(regionLines line).any (s.present c)
  let dirs := s.dirs.map (fun (e : DirEntry) =>
    if e.region == dirRegion line then { e with clusters := e.clusters.filter (fun c => !gone c) } else e)
  { s with dirs := dirs.filter (fun e => !e.clusters.isEmpty) }

/-- Probes of a line in some clusters (R287). -/
def State.invalidate (s : State) (clusters : List Nat) (line : Nat) : State :=
  (clusters.foldl (fun s c => s.invalidate1 c line) s).dirClear clusters line

/-- An entry is evicted: every line of its region is first invalidated in the clusters that it names (R287). -/
def State.dirEvict (s : State) (e : DirEntry) : State :=
  let s := (regionLines e.region).foldl (fun s l => e.clusters.foldl (fun s c => s.invalidate1 c l) s) s
  { s with dirs := s.dirs.filter (fun x => x.region != e.region) }

/-- Entries of a directory, and of one of its sets (R287). -/
def dirEntries : Nat := 262144

def dirWays : Nat := 16

/-- An entry can go: no cluster that it names holds a narrow write to a line of its region. -/
def State.dirIdle (s : State) (e : DirEntry) : Bool :=
  (regionLines e.region).all (fun l => e.clusters.all (fun c => (s.sliceWrites c l).isEmpty))

/-- Room for one more entry in the set of a line's region. Which entry goes is open. -/
def State.dirRoom (s : State) (line : Nat) : State :=
  match s.dirs.filter (fun e => homeDie e.region == homeDie line) with
  | [] => s
  | mine =>
    let set := mine.filter (fun e => Config.directorySet e.region == Config.directorySet (dirRegion line))
    let full := if dirWays ≤ set.length then set else if dirEntries ≤ mine.length then mine else []
    match full.filter s.dirIdle with
    | [] => s
    | es =>
      let (v, s) := s.freeValue
      match es[v.toNat % es.length]? with
      | some e => s.dirEvict e
      | none => s

/-- A cluster's bit is set for a line, whose L1 fills it (R287). -/
def State.dirNote (s : State) (cluster line : Nat) : State :=
  if s.dirs.any (fun e => e.region == dirRegion line) then
    { s with dirs := s.dirs.map (fun (e : DirEntry) =>
        if e.region == dirRegion line then { e with clusters := dedup (e.clusters ++ [cluster]) } else e) }
  else
    let s := s.dirRoom line
    { s with dirs := s.dirs ++ [⟨dirRegion line, [cluster]⟩] }

/-! ## Entering and leaving a cache -/

/-- Ways of a cache's sets. -/
def waysOf (place : Nat) : Nat := max 1 (Config.cacheWays place)

/-- The lines of a set in the order in which they are chosen for eviction (R289): the least recently used first,
and the last used retained lines, up to a quarter of the ways, after all others. -/
def victims (ways : Nat) (set : List Copy) : List Copy :=
  let kept := (set.reverse.filter (·.retain)).take (ways / 4)
  set.filter (fun c => !kept.contains c) ++ set.filter (fun c => kept.contains c)

/-- A line leaves a cache: a dirty one of an L2 is written back. -/
def State.evict (s : State) (c : Copy) : State :=
  { s with
    caches := s.caches.filter (fun x => !(x.place == c.place && x.line == c.line))
    dirty := if c.place < 52 then s.dirty else s.dirty.filter (fun e => e.1 != c.line) }

/-- Room for one more line in its set of a cache. A slice keeps a line to which it holds a narrow write. -/
def State.cacheRoom (s : State) (place line : Nat) : State :=
  match s.caches.filter (fun c => c.place == place) with
  | [] => s
  | mine =>
    let set := mine.filter (fun c => Config.cacheSet place c.line == Config.cacheSet place line)
    let full := if waysOf place ≤ set.length then set else if cacheLines place ≤ mine.length then mine else []
    match (victims (waysOf place) full).find? (fun c =>
        48 ≤ place || (s.sliceWrites (clusterOf place) c.line).isEmpty) with
    | some c => s.evict c
    | none => s

/-- Cache policies (R151, R289). -/
def cacheStream : Nat := 1

def cacheRetain : Nat := 4

/-- Whether a policy fills the L1, and the L2 or remote line cache (R289). -/
def fillsL1 (cache : Nat) : Bool := cache != 2 && cache != 3

def fillsFar (cache : Nat) : Bool := cache != 3

/-- A line enters a cache under a policy, in place of its earlier copy there (R289). -/
def State.enter (s : State) (place line : Nat) (lease : Option Lease) (cache : Nat) : State :=
  let s := { s with caches := s.caches.filter (fun c => !(c.place == place && c.line == line)) }.cacheRoom place line
  let c : Copy := ⟨place, line, lease, cache == cacheRetain⟩
  { s with caches := if cache == cacheStream then c :: s.caches else s.caches ++ [c] }

/-- A cache's copy of a line becomes its most recently used. -/
def State.touch (s : State) (place line : Nat) : State :=
  let mine (c : Copy) : Bool := c.place == place && c.line == line
  { s with caches := s.caches.filter (fun c => !mine c) ++ s.caches.filter mine }

/-- The L2 of a line's home serves it or takes it (R285, R289). -/
def State.useL2 (s : State) (line cache : Nat) : State :=
  if !encrypted line then s
  else if s.inL2 line then s.touch (l2Of (homeDie line)) line
  else if fillsFar cache then s.enter (l2Of (homeDie line)) line none cache
  else s

/-- A load, store or prefetch of a group on the line's home die (R286, R289): an L1 copy serves it, or the L2
does, and what its policy names is filled. -/
def State.useHome (s : State) (core line cache : Nat) : State :=
  if s.present (clusterOf core) line then s.touch (l1Of (clusterOf core) line) line
  else
    let s := s.useL2 line cache
    if fillsL1 cache then (s.dirNote (clusterOf core) line).enter (l1Of (clusterOf core) line) line none cache
    else s

end Sys2Proof.Machine
end

