-- ==== Sys2Proof/Machine/Memory.lean ====
section
/-! DEFINITION. Memory as groups see it: leases (R288), visible times (R334 to R343), reduction buffers (R295,
R296), completion times (R341), releases (R345), and the steps by which accesses in flight arrive, return and
retire. -/

namespace Sys2Proof.Machine

/-! ## Clocks -/

/-- G, or the measured skew where it is greater (R340). -/
def State.skew (s : State) : Nat := max s.ptpBound s.ptpSkew

/-- Guard between a die and the home of an address (R340). -/
def State.guardOf (s : State) (die pa : Nat) : Nat :=
  match regionOf pa with
  | .peer _ => s.skew
  | _ => if homeDie pa == die then 0 else 4

/-- Threads and proctor lanes of these numbers raise their LCT values (R341). -/
def State.raiseLct (s : State) (owners : List Nat) (r : Lct) : State :=
  { s with
    threads := s.threads.map (fun (t : Thread) =>
      if owners.contains t.id then { t with lct := lctJoin t.lct r } else t)
    cores := s.cores.mapIdx (fun c k =>
      if owners.contains (proctorOwner c) then
        { k with proctor := { k.proctor with lct := lctJoin k.proctor.lct r } }
      else k) }
where
  lctJoin (a b : Lct) : Lct := ⟨max a.clus b.clus, max a.die b.die, max a.dev b.dev, max a.sys b.sys⟩

/-- One time in every scope. -/
def Lct.all (t : Nat) : Lct := ⟨t, t, t, t⟩

/-- The later of two sets of completion times. -/
def Lct.join (a b : Lct) : Lct := ⟨max a.clus b.clus, max a.die b.die, max a.dev b.dev, max a.sys b.sys⟩

/-! ## What a reader sees -/

/-- Whether a write that has arrived is visible to a reader on a core at time t (R336): `pres` says that the
reader's cluster slice holds the line. Its home times count once no probe of it waits (R337). -/
def Pend.visible (w : Pend) (home core : Nat) (pres : Bool) (t : Nat) : Bool :=
  let narrow := w.scope ≤ 2
  let near := w.scope == 3 && dieOf w.core == home
  (narrow && pres && w.arr.isSome && clusterOf w.core == clusterOf core)
    || (w.probes.isEmpty && (if dieOf core == home && (narrow || near) then w.chome ≤ t else w.cfar ≤ t))

/-- The newest pending write with an offset that a reader sees: its own, or a visible one (R338). -/
def newest (ps : List Pend) (off : Nat) (sees : Pend → Bool) : Option Byte :=
  (ps.reverse.filterMap (fun w => if sees w then lookup w.bytes off else none)).head?

/-- Pending writes of a line, in coherence order (R334). -/
def State.pends (s : State) (line : Nat) : List Pend :=
  match lookup s.lines line with | some l => l.pend | none => []

/-- Bytes of a write by offset; a reduction has none until it is performed. -/
def WAct.byteAt (a : WAct) (off : Nat) : Option Byte :=
  match a with | .bytes bs => lookup bs off | .red .. => none

/-- The newest narrow write still under way that the reader's cluster slice holds (R336, A(w)). -/
def State.inSlice (s : State) (core line off : Nat) : Option Byte :=
  ((s.sliceWrites (clusterOf core) line).reverse.filterMap (fun w => w.act.byteAt off)).head?

/-- A byte as a reader on a core sees it at the line's home (R336, R337, R338); `pres` as before, false for a
read that uses no cache. -/
def State.seenHome (s : State) (pres : Bool) (core : Nat) (hists : List Nat) (line key off : Nat) : Byte :=
  if !s.tagReads line key then 0
  else
    match (if pres then s.inSlice core line off else none) with
    | some b => b
    | none =>
      match newest (s.pends line) off (fun w =>
          w.hists.any (fun x => hists.contains x) || w.visible (homeDie line) core pres s.time) with
      | some b => b
      | none => Sparse.get s.mem 0 (line + off)

/-- Whether the slice of a reader's cluster holds a line of its die (R286). -/
def State.slicePresent (s : State) (core line : Nat) : Bool :=
  dieOf core == homeDie line && s.present (clusterOf core) line

/-- A byte as a reader on a core sees it through the caches of the line's home die. -/
def State.seenByte (s : State) (core : Nat) (hists : List Nat) (line key off : Nat) : Byte :=
  s.seenHome (s.slicePresent core line) core hists line key off

/-- A line that a copy owns for what came after it: its group's earlier accesses come before it (R293, R314). -/
def State.ownedOver (s : State) (owners : List Nat) (id line : Nat) : Bool :=
  s.cpys.any (fun c => c.owned.contains line && !(id < c.id && meets c.owners owners))

/-- A line that a copy owns (R314). -/
def State.owned (s : State) (line : Nat) : Bool := s.cpys.any (fun c => c.owned.contains line)

/-- The leased copy that serves a core, if one does (R288, R340). -/
def State.leaseFor (s : State) (core line : Nat) : Option Lease :=
  (s.caches.filterMap (fun c =>
    if c.line == line && (c.place == l1Of (clusterOf core) line || c.place == rlcOf (dieOf core)) then
      match c.lease with
      | some l => if s.time + s.guardOf (dieOf core) line < l.ends then some l else none
      | none => none
    else none)).head?

/-- A byte as a reader sees it through a leased copy: its own later writes lie over the copy (R338,
R340). -/
def State.leasedByte (s : State) (l : Lease) (hists : List Nat) (line key off : Nat) : Byte :=
  if encrypted line && l.tag != s.keyTag key then 0
  else
    match newest (s.pends line) off (fun w =>
        l.filled < w.cfar && w.hists.any (fun x => hists.contains x)) with
    | some b => b
    | none => l.bytes.getD off 0

/-- Bytes of an access as a reader on a core sees them now; one that is uncached or device uses no copy (R285). -/
def State.readAt (s : State) (core : Nat) (hists : List Nat) (pa key mt n : Nat) : List Byte :=
  let line := lineOf pa
  (List.range n).map (fun i =>
    if mt != 0 then s.seenHome false core hists line key (pa - line + i)
    else
      match s.leaseFor core line with
      | some l => s.leasedByte l hists line key (pa - line + i)
      | none => s.seenByte core hists line key (pa - line + i))

/-! ## Writes at their home -/

/-- The slice of a line at its home: PA[11:7] xor PA[16:12] (R285). -/
def sliceOf (line : Nat) : Nat := (line / 128 % 32) ^^^ (line / 4096 % 32)

/-- The floor horizon of a line's slice (R288). -/
def State.floorOf (s : State) (line : Nat) : Nat := Sparse.get (s.die (homeDie line)).floors 0 (sliceOf line)

/-- A line's record at its home; a line without an entry in the horizon table takes the floor horizon, and
a lease length of 2,048 ns (R288). -/
def State.lineInfo (s : State) (line : Nat) : LineInfo :=
  match lookup s.lines line with
  | some l => if l.lastEnd == 0 then { l with horizon := max l.horizon (s.floorOf line) } else l
  | none => { pend := [], horizon := s.floorOf line, leaseLen := 2048, lastEnd := 0, waited := false, times := [] }

/-- Pending writes whose last visible time has come are stored in order (R336). -/
def State.settleLine (s : State) (line key : Nat) : Nat → State
  | 0 => s
  | n + 1 =>
    match lookup s.lines line with
    | some l =>
      match l.pend with
      | w :: rest =>
        if w.cfar ≤ s.time && w.probes.isEmpty then
          let times := if s.proofs.isEmpty then l.times
            else w.bytes.foldl (fun m e => Sparse.set m 0 e.1 (max w.cfar (Sparse.get m 0 e.1))) l.times
          ({ s with lines := put s.lines line { l with pend := rest, times := times } }.setLine line key
            w.bytes).settleLine line key n
        else s
      | [] => s
    | none => s

/-- The slot of a line's tag. -/
def State.tagSlot (s : State) (line : Nat) : Nat := (Sparse.get s.tags (0, 0) line).1

/-- A line that only a peer device serves. -/
def isPeer (pa : Nat) : Bool := match regionOf pa with | .peer _ => true | _ => false

def isHost (pa : Nat) : Bool := match regionOf pa with | .host => true | _ => false

/-- The times that a write reports (R341): the latest at which it becomes visible to a reader within each scope,
with the guard. -/
def State.reportOf (s : State) (line : Nat) (p : Pend) : Lct :=
  let g := s.guardOf (dieOf p.core) line
  let own := if dieOf p.core == homeDie line && p.scope ≤ 3 then p.chome else p.cfar
  let clus := match p.arr with | some a => if p.scope ≤ 2 then a else own | none => own
  ⟨clus + g, own + g, p.cfar + g, p.cfar + g⟩

/-- Operations and copies take the times of a write of theirs (R341); those of the host are kept for the order of
its writes (R342). -/
def State.report (s : State) (ids : List Nat) (r : Lct) (cfar : Nat) : State :=
  { s with
    outs := s.outs.map (fun (o : Out) => if ids.contains o.id then { o with report := o.report.join r } else o)
    cpys := s.cpys.map (fun (c : Cpy) => if ids.contains c.id then { c with report := c.report.join r } else c)
    hostTime := if ids.contains 0 then max s.hostTime cfar else s.hostTime }

/-- A write reports, unless probes of it wait (R335, R337). -/
def State.reportPend (s : State) (line : Nat) (p : Pend) : State :=
  if p.probes.isEmpty then s.report p.outs (s.reportOf line p) p.cfar else s

/-- The writers mark a line for the proofs (R325). -/
def State.markLine (s : State) (hists : List Nat) (line : Nat) : State :=
  if s.proofs.isEmpty then s
  else { s with threads := s.threads.map (fun (t : Thread) =>
    if hists.any (fun x => t.hists.contains x) && !t.marked.contains line then
      { t with marked := t.marked ++ [line] } else t) }

/-- Who writes: core, scope, key slot and cacheability of the access, cache policy, threads, and the operations
that take its times. -/
structure WriteBy where
  core : Nat
  scope : Nat
  key : Nat
  mt : Nat
  cache : Nat
  hists : List Nat
  outs : List Nat
  arr : Option Nat
  /-- It is visible to no reader by its home times before this time (R342). -/
  notBefore : Nat
  deriving DecidableEq, Repr

/-- A write of an engine or of the device: it is no operation of a group. -/
def WriteBy.engine (core scope key : Nat) (outs : List Nat) : WriteBy :=
  { core := core, scope := scope, key := key, mt := 0, cache := 0, hists := [], outs := outs, arr := none
    notBefore := 0 }

/-- The pending write that a write becomes at its home (R335, R336), after the last one of its line: `acked` is the
time of the last acknowledgement of its probes, `waits` the narrow writes that some of them wait for. -/
def pendOf (w : WriteBy) (line : Nat) (bs : List (Nat × Byte)) (last : Option Pend) (acked horizon : Nat)
    (waits : List Nat) : Pend :=
  let (lastHome, lastFar, lastWaits) := match last with | some p => (p.chome, p.cfar, p.probes) | none => (0, 0, [])
  let home := max (max acked w.notBefore) lastHome
  let far := if w.mt == 0 then max home horizon else home
  { bytes := bs, hists := w.hists, core := w.core, scope := w.scope
    chome := if isHost line then max far lastHome else home
    cfar := max far lastFar, arr := w.arr, outs := w.outs, probes := dedup (lastWaits ++ waits) }

/-- A write enters the coherence order of its line (R290, R334, R335): the line takes the writer's tag, the home
probes the clusters whose bit is set but the writer's (R287), and the write is pending until it is visible. A
write that is uncached or device is visible when it is performed. -/
def State.land (s : State) (w : WriteBy) (line : Nat) (bs : List (Nat × Byte)) : State :=
  let same := s.tagReads line w.key
  let s := s.retag line w.key
  let s := if w.mt == 0 then s.useL2 line w.cache else s
  let probed := (s.dirClusters line).filter (· != clusterOf w.core)
  let waits := if w.mt == 0 then probed.flatMap (fun c => (s.sliceWrites c line).map (·.id)) else []
  let s := s.invalidate probed line
  let (acked, s) :=
    if probed.isEmpty || w.mt != 0 then (s.time, s)
    else (s.time + Config.probeDelay s.fresh, { s with fresh := s.fresh + 1 })
  let l := s.lineInfo line
  let ps := if same then l.pend else []
  let p := pendOf w line bs ps.getLast? acked l.horizon waits
  let l := { l with pend := ps ++ [p], waited := l.waited || p.chome < p.cfar }
  let s := (({ s with lines := put s.lines line l } : State).markLine w.hists line).reportPend line p
  s.settleLine line w.key (ps.length + 1)

/-- The visible times of a line's writes once a probe that waited for a narrow write is acknowledged: none comes
before those of the write before it (R334, R337). -/
def ackPends (t id : Nat) : Nat → Nat → List Pend → List Pend
  | _, _, [] => []
  | home, far, p :: ps =>
    let now := if p.probes.contains id then t else 0
    let p := { p with chome := max (max p.chome now) home, cfar := max (max p.cfar now) far
                      probes := p.probes.filter (· != id) }
    p :: ackPends t id p.chome p.cfar ps

/-- A narrow write has arrived at its home: probes that waited for it at its cluster's filter are acknowledged, and
the slice's copy is invalidated (R337). -/
def State.ackProbes (s : State) (w : Write) : State :=
  match lookup s.lines w.line with
  | none => s
  | some l =>
    if !l.pend.any (fun p => p.probes.contains w.id) then s
    else
      let ps := ackPends s.time w.id 0 0 l.pend
      let done := (l.pend.zip ps).filterMap (fun (e : Pend × Pend) => if e.1.probes.isEmpty then none else some e.2)
      let s : State := { s with lines := put s.lines w.line { l with pend := ps } }
      (done.foldl (fun s p => s.reportPend w.line p) s).invalidate [clusterOf w.core] w.line

/-- Whether a write of an operation or copy still waits for the times that it reports. -/
def State.timesOpen (s : State) (id : Nat) : Bool :=
  s.lines.any (fun l => l.2.pend.any (fun p => p.outs.contains id && !p.probes.isEmpty))

/-! ## Operations of atomics -/

/-- Result written to M (R302): operation, size in bytes, M, data. -/
def atomResult (op size m x : Nat) : Nat :=
  let w := 8 * size
  let fp (c : Nat) : Nat :=
    (fpAdd { c := c, rm := .rne, flush := false, ov := .plain } (decodeFp c m) (decodeFp c x)).1
  match op with
  | 0x0 => x
  | 0x1 => (m + x) % 2 ^ w
  | 0x2 => if sextInt w x < sextInt w m then x else m
  | 0x3 => min m x
  | 0x4 => if sextInt w m < sextInt w x then x else m
  | 0x5 => max m x
  | 0x6 => m &&& x
  | 0x7 => m ||| x
  | 0x8 => m ^^^ x
  | _ => if size == 4 then fp 3 else fp 4

/-- Bytes of a number by offset. -/
def bytesAt (off size v : Nat) : List (Nat × Byte) :=
  (leBytes size v).mapIdx (fun i b => (off + i, b))

/-- An indivisible operation at a line's home: the old value, and the new one in coherence order; none leaves the
line as it is. `ext` is the old value where the host supplies it. -/
def State.rmw (s : State) (w : WriteBy) (line off size : Nat) (ext : Option Nat) (f : Nat → Option Nat) : State × Nat :=
  let old := match ext with
    | some v => v
    | none => if s.tagReads line w.key then s.loadNat (line + off) w.key size else 0
  match f old with
  | some v => (s.land w line (bytesAt off size v), old)
  | none => (s, old)

/-! ## Outstanding operations -/

def State.out? (s : State) (id : Nat) : Option Out := s.outs.find? (fun o => o.id == id)

/-- Loads and atomics of some threads issued before an operation. -/
def State.earlierLoads (s : State) (owners : List Nat) (id : Nat) : Bool :=
  s.outs.any (fun o => (o.cls == 0 || o.cls == 2) && o.id < id && meets o.owners owners)

/-- A write to a line under way, issued by one of these threads before an operation. -/
def State.ownFlight (s : State) (owners : List Nat) (id line : Nat) : Bool :=
  s.flight.any (fun w => w.line == line && w.out < id &&
    (match s.out? w.out with | some o => meets o.owners owners | none => false))

/-- When a write reaches its cluster's slice, where that holds the line (R335). -/
def State.sliceTime (s : State) (core line : Nat) : Option Nat :=
  if s.slicePresent core line then some s.time else none

/-- Writes that waited for the loads and atomics before them reach their slices, in their order (R335, R339). -/
def State.dequeue (s : State) : State :=
  let free (w : Write) : Bool := w.queued &&
    (match s.out? w.out with | some o => !s.earlierLoads o.owners o.id | none => true)
  if !s.flight.any free then s
  else
    { s with flight := s.flight.filter (fun w => !free w) ++ (s.flight.filter free).map (fun (w : Write) =>
        { w with queued := false, arr := s.sliceTime w.core w.line }) }

/-- Threads whose acquire waited on their last load or atomic go on; its end is their acquire time
(R346). Those that waited on a peer's reply go on too. -/
def State.unparkAcquire (s : State) (op : Nat) : State :=
  let ends (t : Thread) : Bool := t.park == .acquire && s.countOuts t.id 0 + s.countOuts t.id 2 == 0
  (s.threads.filter ends).foldl (fun (s : State) t => s.acquireBy t.id) { s with
    threads := s.threads.map (fun (t : Thread) =>
      match t.park with
      | .peer o acq =>
        if o == op then
          let wait := acq && s.countOuts t.id 0 + s.countOuts t.id 2 != 0
          { t with pc := t.after, park := if wait then .acquire else .run
                   acq := if acq && !wait then s.time else t.acq, only := none, relDone := false }
        else t
      | _ => t)
    cores := s.cores.mapIdx (fun c k =>
      if k.proctor.park == .acquire
          && s.countOuts (proctorOwner c) 0 + s.countOuts (proctorOwner c) 2 == 0 then
        { k with proctor := { k.proctor with park := .run } }
      else k) }

/-- An operation retires (R188); what waited for its value goes on. -/
def State.retire (s : State) (id : Nat) : State :=
  ({ s with outs := s.outs.filter (fun o => o.id != id) }.dequeue).unparkAcquire id

/-- A store or reduction retires once its writes have arrived and reported (R188, R341): the LCT values of its
threads rise. -/
def State.ackStore (s : State) (id : Nat) : State :=
  match s.out? id with
  | some o =>
    if o.cls == 1 && !s.flight.any (fun w => w.out == id) && !s.redBuf.any (fun r => r.outs.contains id)
        && !s.timesOpen id then
      (s.raiseLct o.owners o.report).retire id
    else s
  | none => s

/-- Words of a value written to the store keys bound at issue (R176, R300). -/
def Thread.setKeys (t : Thread) (keys : List Nat) (v : Nat) : Thread :=
  (keys.mapIdx (fun i k => (k, v / 2 ^ (32 * i) % 2 ^ 32))).foldl
    (fun t e => t.setStore e.1 (BitVec.ofNat 32 e.2)) t

/-- Values written to the destinations of an operation in every thread that shares it: a lane's keys
belong to the thread that holds its columns. -/
def State.deliver (s : State) (o : Out) (vals : List (List Nat × Nat)) : State :=
  { s with threads := s.threads.map (fun (t : Thread) =>
      if o.owners.contains t.id then
        vals.foldl (fun t v =>
          if v.1.all (fun k => t.f ≤ k % 64 && k % 64 < t.f + t.width) then t.setKeys v.1 v.2 else t) t
      else t) }

/-- A uniform destination written, in every thread that shares the load or on the proctor lane
(R192, R300). -/
def State.deliverUniform (s : State) (o : Out) (n size v : Nat) : State :=
  let lo : W64 := BitVec.ofNat 64 v
  let hi : W64 := BitVec.ofNat 64 (v / 2 ^ 64)
  { s with
    threads := s.threads.map (fun (t : Thread) =>
      if o.owners.contains t.id then
        let t := t.setSreg n lo
        if size == 16 then t.setSreg (n + 1) hi else t
      else t)
    cores := s.cores.mapIdx (fun c k =>
      if o.owners.contains (proctorOwner c) then
        let r := Sparse.set k.proctor.sregs 0 n lo
        { k with proctor := { k.proctor with
            sregs := if size == 16 then Sparse.set r 0 (n + 1) hi else r } }
      else k) }

/-! ## Reduction buffers -/

/-- A line in a buffer can be merged: no copy owns it (R314). -/
def State.mergeable (s : State) (r : RedLine) : Bool := !s.owned r.line

/-- A merge: each slot in ascending order as one indivisible operation at the home (R296); operations that it
carried last retire (R188). -/
def State.mergeLine (s : State) (r : RedLine) : State :=
  let hists := r.threads.flatMap (fun id => match s.thread? id with | some t => t.hists.take 1 | none => [id])
  let w : WriteBy := { core := r.core, scope := r.scope, key := r.key, mt := 0, cache := 0, hists := hists
                       outs := r.outs, arr := none, notBefore := 0 }
  let s := (sortBy (·.1) r.slots).foldl (fun (s : State) e =>
    (s.rmw w r.line e.1 e.2.2.1 none (fun m => some (atomResult e.2.1 e.2.2.1 m e.2.2.2))).1) s
  r.outs.foldl State.ackStore
    { s with redBuf := s.redBuf.filter (fun x => !(x.core == r.core && x.line == r.line)) }

/-- Buffered lines that a condition names are merged where they can be, in ascending core number
(R296). -/
def State.mergeWhere (s : State) (p : RedLine → Bool) : State :=
  (sortBy (·.core) (s.redBuf.filter p)).foldl (fun s r => if s.mergeable r then s.mergeLine r else s) s

/-- A request reaches the home of a line: its buffered copies are recalled (R296, case 1). -/
def State.recall (s : State) (line : Nat) : State := s.mergeWhere (fun r => r.line == line)

/-- The request of a copy for a line that it owns recalls the buffered copies too (R296, R314). -/
def State.recallOwn (s : State) (copy line : Nat) : State :=
  if s.cpys.any (fun c => c.id != copy && c.owned.contains line) then s.recall line
  else (sortBy (·.core) (s.redBuf.filter (fun r => r.line == line))).foldl State.mergeLine s

/-- Whether a line still stands in a buffer. -/
def State.buffered (s : State) (line : Nat) : Bool := s.redBuf.any (fun r => r.line == line)

/-- Lines that a thread contributed to are merged (R296, cases 2 and 3). -/
def State.mergeOwn (s : State) (id : Nat) : State := s.mergeWhere (fun r => r.threads.contains id)

/-- Memory that the device can write by itself: its own and the host's (R117). -/
def inMemory (pa : Nat) : Bool :=
  match regionOf pa with | .hbm _ | .tier2 _ | .cxl _ | .host => true | _ => false

/-- The device's write of bytes that lie in one line, in the line's coherence order (R334 to R336). -/
def State.landBytes (s : State) (core pa key : Nat) (bs : List Byte) : State :=
  let line := lineOf pa
  if inMemory pa then
    (s.recall line).land (.engine core 5 key []) line (bs.mapIdx (fun i b => (pa - line + i, b)))
  else s

/-- Lines that a reduction buffer holds (R295). -/
def redLines : Nat := 16

/-- A contribution enters a buffered line: it combines with its slot where operation and size agree
(R295). -/
def contribute (slots : List (Nat × Nat × Nat × Nat)) (off op size v : Nat) :
    List (Nat × Nat × Nat × Nat) :=
  if slots.any (fun e => e.1 == off) then
    slots.map (fun e => if e.1 == off then (off, op, size, atomResult op size e.2.2.2 v) else e)
  else slots ++ [(off, op, size, v)]

/-- A contribution meets a slot of another operation or size (R295, case 3). -/
def conflicts (slots : List (Nat × Nat × Nat × Nat)) (off op size : Nat) : Bool :=
  slots.any (fun e => e.1 < off + size && off < e.1 + e.2.2.1 && !(e.1 == off && e.2.1 == op && e.2.2.1 == size))

/-- One lane of a RED enters its core's reduction buffer (R295). -/
def State.redEnter (s : State) (core line key scope off op size v thread out : Nat) : State :=
  let mine (r : RedLine) : Bool := r.core == core && r.line == line
  let s := match s.redBuf.find? mine with
    | some r => if conflicts r.slots off op size || r.key != key then s.mergeWhere mine else s
    | none =>
      let held := s.redBuf.filter (fun (r : RedLine) => r.core == core)
      if redLines ≤ held.length then
        match held with | r :: _ => s.mergeWhere (fun x => x.core == core && x.line == r.line) | [] => s
      else s
  match s.redBuf.find? mine with
  | some r =>
    let r := { r with slots := contribute r.slots off op size v, scope := max r.scope scope
                      threads := dedup (r.threads ++ [thread]), outs := dedup (r.outs ++ [out]) }
    { s with redBuf := s.redBuf.filter (fun x => !mine x) ++ [r] }
  | none =>
    let r : RedLine := { core := core, line := line, key := key, scope := scope
                         slots := [(off, op, size, v)], threads := [thread], outs := [out] }
    { s with redBuf := s.redBuf ++ [r] }.invalidate (s.dirClusters line) line

/-- RED_MERGE (R296). A buffered reduction line is merged slot by slot into its home. -/
def execRedMerge (s : State) : Host.Outcome State Fault Refusal :=
  .next (s.mergeWhere (fun r => r.core == s.arg.a && r.line == s.arg.b))

/-! ## Steps of accesses in flight -/

/-- Lines that a reader on a core can hold only under a lease (R285). -/
def leasedHere (core line : Nat) : Bool := isHost line || isPeer line || dieOf core != homeDie line

/-- A read that its home does not serve without a leased copy: it allocates one unless it is uncached or its policy
fills nothing; a peer may answer with its data alone (R289, R298, R337). -/
def needsLease (core pa mt cache : Nat) : Bool :=
  mt == 0 && fillsFar cache && !isPeer pa && leasedHere core pa

/-- Whether one lane of a load can take its value now (R293, R296, R314, R337). -/
def State.laneReady (s : State) (o : Out) (l : LaneAcc) : Bool :=
  match l.place with
  | .gal _ _ => true
  | .mem pa _ mt =>
    let line := lineOf pa
    let leased := mt == 0 && (s.leaseFor o.core line).isSome
    !s.ownFlight o.owners o.id line && (leased || (!s.buffered line && !s.ownedOver o.owners o.id line
      && !needsLease o.core pa mt o.cache))

/-- Lines of memory that some lanes name. -/
def linesOfLanes (ls : List LaneAcc) : List Nat :=
  dedup (ls.filterMap (fun l => match l.place with | .mem pa _ _ => some (lineOf pa) | .gal .. => none))

/-- Lines of memory that an operation names. -/
def Out.linesOf (o : Out) : List Nat := linesOfLanes o.lanes

/-- Lanes of a line. -/
def Out.lanesAt (o : Out) (line : Nat) : List LaneAcc :=
  o.lanes.filter (fun l => match l.place with | .mem pa _ _ => lineOf pa == line | .gal .. => false)

/-- An earlier load or atomic of the same threads to one of its lines is still outstanding (R293). -/
def State.loadOrder (s : State) (o : Out) : Bool :=
  s.outs.any (fun x => (x.cls == 0 || x.cls == 2) && x.id < o.id && meets x.owners o.owners
    && meets x.linesOf o.linesOf)

/-- Histories of an operation's threads (R338). -/
def State.histsOf (s : State) (owners : List Nat) : List Nat :=
  dedup (owners.flatMap (fun id => match s.thread? id with | some t => t.hists | none => [id]))

/-- Values of the lanes of a load: those of host and peer windows come with the step's bytes, in lane
order, where it has any. -/
def State.laneValues (s : State) (o : Out) : List LaneAcc → List Byte → List (LaneAcc × Nat)
  | [], _ => []
  | l :: ls, ext =>
    match l.place with
    | .gal c off => (l, leNat (Sparse.read (s.core c).galley off l.size)) :: s.laneValues o ls ext
    | .mem pa key mt =>
      if (isHost pa || isPeer pa) && l.size ≤ ext.length && (mt != 0 || (s.leaseFor o.core (lineOf pa)).isNone) then
        (l, leNat (ext.take l.size)) :: s.laneValues o ls (ext.drop l.size)
      else (l, leNat (s.readAt o.core (s.histsOf o.owners) pa key mt l.size)) :: s.laneValues o ls ext

/-- Reads of lines of another tag are counted at their homes, once for each line (R290). -/
def State.countMisses (s : State) (lanes : List LaneAcc) : State :=
  (dedup (lanes.filterMap (fun (l : LaneAcc) =>
    match l.place with | .mem pa key _ => some (lineOf pa, key) | .gal .. => none))).foldl (fun (s : State) r =>
      if s.keyMisses r.1 r.2 then
        let d := homeDie r.1
        s.setDie d { s.die d with keyMiss := (s.die d).keyMiss + 1 }
      else s) s

/-- Lines of some lanes that may be cached (R285). -/
def cachedLines (ls : List LaneAcc) : List Nat :=
  dedup (ls.filterMap (fun l =>
    match l.place with | .mem pa _ mt => if mt == 0 then some (lineOf pa) else none | .gal .. => none))

/-- A load has used its lines: the copies that served it are the most recently used, and on the home die what its
policy names is filled (R286, R289). -/
def State.useLines (s : State) (core cache : Nat) (lines : List Nat) : State :=
  lines.foldl (fun (s : State) line =>
    if leasedHere core line then (s.touch (rlcOf (dieOf core)) line).touch (l1Of (clusterOf core) line) line
    else s.useHome core line cache) s

/-- A loaded value as its destination takes it (R300): sign-extended where SX says so. -/
def extendLoad (sx : Bool) (size width v : Nat) : Nat :=
  if sx then wrap width (sextInt (8 * size) v) else v

/-! ## Peers (R298) -/

/-- Nanoseconds that a reply of a peer is awaited (R298, R343). -/
def peerWait : Nat := 12000

/-- Lanes that a peer did not leave without a reply. -/
def Out.answered (o : Out) : List LaneAcc :=
  o.lanes.filter (fun l => match l.place with | .mem pa _ _ => !o.late.contains (lineOf pa) | .gal .. => true)

/-- A load or atomic whose peers' replies come too late: none has a reply unless some packet has already been
given up. -/
def State.overdue (s : State) (o : Out) : Bool :=
  o.issued + peerWait ≤ s.time && o.late.isEmpty
    && o.linesOf.any (fun l => isPeer l && (o.cls == 2 || (s.leaseFor o.core l).isNone))

/-- An operation packet leaves for a peer; each carries the next sequence number. -/
def State.sendPacket (s : State) (peer : Nat) (kind : BitVec 3) (op : BitVec 4) (size : Nat)
    (lanes : List (Nat × Nat × Nat)) : State :=
  let n := Sparse.get s.peerNext 0 peer
  { s with
    peerNext := Sparse.set s.peerNext 0 peer (n + 1)
    hostLog := s.hostLog ++ [.peerPacket { peer := peer, seq := n, kind := kind, op := op, size := size
                                           lanes := lanes }] }

/-- Peer number of an address of a peer window (R117). -/
def peerOf (pa : Nat) : Nat := match regionOf pa with | .peer n => n | _ => 0

/-- Kind and operation code of an operation's packets. -/
def OutKind.code : OutKind → BitVec 3 × BitVec 4
  | .load .. | .prefetch => (0, 0)
  | .store => (1, 0)
  | .atom op => (2, BitVec.ofNat 4 op)
  | .cas => (3, 0)
  | .red op => (4, BitVec.ofNat 4 op)

/-- The packets of an operation: one for each line of a peer window that no leased copy serves. -/
def State.sendPackets (s : State) (o : Out) : State :=
  (o.linesOf.filter (fun l => isPeer l && !(o.cls == 0 && (s.leaseFor o.core l).isSome))).foldl (fun s line =>
    let ls := o.lanesAt line
    s.sendPacket (peerOf line) o.kind.code.1 o.kind.code.2 ((ls.map (·.size)).headD 0)
      (ls.map (fun l => ((match l.place with | .mem pa _ _ => pa | .gal .. => 0), l.data, l.data2)))) s

/-- A thread that waited on a peer's reply waits no more. -/
def unpeer (p : Park) : Park := match p with | .peer .. => .run | p => p

/-- A proctor lane whose peer packet had no reply takes the fault between instructions (log entry 58). -/
def State.proctorLate (s : State) (o : Out) : State :=
  match o.owners.find? (fun id => laneNumber ≤ id) with
  | some id => s.trapProctor (id - laneNumber) vPeerTimeout 0x80 0 (s.core (id - laneNumber)).proctor.pc false
  | none => s

/-- A load or atomic ends with lanes whose packets had no reply in time: they take the peer timeout fault, which a
group that is being suspended reports later (R298, R387). None where its record finds no place. -/
def State.peerFault (s : State) (o : Out) : Option State :=
  if s.threads.any (fun t => o.owners.contains t.id && t.susp.isSome) then
    some { s with
      outs := s.outs.filter (fun x => x.id != o.id)
      threads := s.threads.map (fun (t : Thread) =>
        if o.owners.contains t.id then { t with peerLate := true, park := unpeer t.park } else t) }
  else
    match s.threads.find? (fun t => match t.park with
        | .peer op _ => op == o.id
        | .run | .poll => o.owners.contains t.id && t.only.isSome
        | _ => false) with
    | some t =>
      if 0 < (s.core t.core).hq.free then
        let late := o.lanes.filter (fun l => !o.answered.contains l)
        some (({ s with outs := s.outs.filter (fun x => x.id != o.id) }.dequeue).trapThread { t with park := .run }
          ⟨vPeerTimeout, 0x80, maskOf (fun l => late.any (fun p => p.lane == l)), 0, 0⟩ t.pc t.after)
      else none
    | none =>
      some (if o.owners.any (fun id => laneNumber ≤ id) then (s.retire o.id).proctorLate o else s.retire o.id)

/-- A load or atomic whose values are delivered ends. -/
def State.endRead (s : State) (o : Out) : Option State :=
  if o.late.isEmpty then some (s.retire o.id) else s.peerFault o

/-- A packet without a reply within 12 µs (R298, R343): a load's or atomic's lanes of it take the peer timeout
fault, once its other packets have their replies; a store's counts as performed, and is reported later. -/
def State.peerTimeout (s : State) (id line : Nat) : State :=
  match s.out? id with
  | none => s
  | some o =>
    let late (s : State) : State := { s with outs := s.outs.map (fun (x : Out) =>
      if x.id == id then { x with late := x.late ++ [line] } else x) }
    if s.time < o.issued + peerWait || !isPeer line || o.late.contains line then s
    else if o.cls == 1 then
      if !s.flight.any (fun w => w.out == id && w.line == line) then s
      else
        (({ late s with
          flight := s.flight.filter (fun w => !(w.out == id && w.line == line))
          threads := s.threads.map (fun (t : Thread) =>
            if o.owners.contains t.id then { t with peerLate := true } else t) } : State).ackStore id).proctorLate o
    else if o.cls == 3 || o.olds.isSome || !o.linesOf.contains line
        || (o.cls == 0 && (s.leaseFor o.core line).isSome) then s
    else
      let o' := { o with late := o.late ++ [line] }
      if o'.answered.isEmpty then (s.peerFault o').getD s else late s

/-! ## Loads and atomics in flight -/

/-- LOAD_RETURN (R188, R300, R338). An outstanding load takes its value, writes its destination
positions and retires, lowering ld. -/
def execLoadReturn (s : State) : Host.Outcome State Fault Refusal :=
  .next (match s.out? s.arg.a with
    | some o =>
      match o.kind with
      | .load sx sd =>
        let ls := o.answered
        let s' := (linesOfLanes ls).foldl (fun s line =>
          if (s.leaseFor o.core line).isSome && !(s.redBuf.any (fun r => r.line == line && meets r.threads o.owners))
          then s else s.recall line) s
        if !ls.all (s'.laneReady o) || s'.loadOrder o || s'.overdue o then s
        else
          let vals := s'.laneValues o ls s.arg.bytes
          let s' := (s'.countMisses ls).useLines o.core o.cache (cachedLines ls)
          match sd with
          | some n =>
            match vals with
            | (l, v) :: _ =>
              if o.owners.any (fun id => match s.thread? id with | some t => s.locked t n | none => false)
              then s
              else ((s'.deliverUniform o n l.size (extendLoad sx l.size 64 v)).endRead o).getD s
            | [] => (s'.endRead o).getD s
          | none =>
            ((s'.deliver o (vals.map (fun e => (e.1.dest, extendLoad sx e.1.size 32 e.2)))).endRead o).getD s
      | _ => s
    | none => s)

/-- STORE_ACK (R188, R341). A store's acknowledgement reports its visible times, raises the LCT values
and lowers st. -/
def execStoreAck (s : State) : Host.Outcome State Fault Refusal := .next (s.ackStore s.arg.a)

/-- What an atomic leaves at its place: none leaves it as it is (R302, R303). -/
def atomNew (k : OutKind) (size m d1 d2 : Nat) : Option Nat :=
  match k with
  | .atom op => some (atomResult op size m d1)
  | .cas => if m == d1 then some d2 else none
  | _ => none

/-- One lane of an ATOM or CAS performed where R294 says: the old value. A host or a peer supplies it with the
step's bytes; a peer executes the operation itself and reports its visible time (R343). -/
def State.atomLane (s : State) (o : Out) (l : LaneAcc) (ext : Option Nat) : State × Nat :=
  match l.place with
  | .gal _ _ => (s, 0)
  | .mem pa key mt =>
    let f (m : Nat) : Option Nat := atomNew o.kind l.size m l.data l.data2
    if isPeer pa then
      let v := ext.getD 0
      (if (f v).isSome then s.report [o.id] (Lct.all (s.arg.b + s.skew)) 0 else s, v)
    else
      s.rmw { core := o.core, scope := o.scope, key := key, mt := mt, cache := 0, hists := [o.issuer], outs := [o.id]
              arr := none, notBefore := 0 } (lineOf pa) (pa - lineOf pa) l.size ext f

/-- The lanes of an ATOM or CAS in ascending order (R293), with their old values. -/
def State.atomLanesAt (s : State) (o : Out) : List LaneAcc → List Byte → State × List (List Nat × Nat)
  | [], _ => (s, [])
  | l :: ls, ext =>
    let far := match l.place with | .mem pa _ _ => (isPeer pa || isHost pa) && l.size ≤ ext.length | .gal .. => false
    let (s, old) := s.atomLane o l (if far then some (leNat (ext.take l.size)) else none)
    let (s, vals) := s.atomLanesAt o ls (if far then ext.drop l.size else ext)
    (s, (l.dest, old) :: vals)

/-- An ATOM or CAS that has been performed returns its old values and reports, once the times of its writes are
known (R341). -/
def State.endAtom (s : State) (id : Nat) (vals : List (List Nat × Nat)) : State :=
  let kept : State := { s with outs := s.outs.map (fun (o : Out) =>
    if o.id == id then { o with olds := some vals } else o) }
  if s.timesOpen id then kept
  else
    match s.out? id with
    | some o => (((s.deliver o vals).raiseLct o.owners o.report).endRead o).getD kept
    | none => s

/-- Whether an ATOM or CAS must wait before a line of it can be performed at its home: for what its group did to the
line before, for what its cluster's slice showed, for a buffered copy or for an owner (R293, R296, R314, R337). -/
def State.atomWaits (s : State) (o : Out) (line : Nat) : Bool :=
  s.ownFlight o.owners o.id line || s.buffered line || s.ownedOver o.owners o.id line
    || !(s.sliceWrites (clusterOf o.core) line).isEmpty

/-- ATOM_REPLY (R302, R303, R341). An ATOM or CAS is performed at its home, its reply writes the old
values, reports the write's times and lowers at. -/
def execAtomReply (s : State) : Host.Outcome State Fault Refusal :=
  .next (match s.out? s.arg.a with
    | some o =>
      if o.cls != 2 then s
      else
        match o.olds with
        | some vals => s.endAtom o.id vals
        | none =>
          let ls := o.answered
          let s' := (linesOfLanes ls).foldl State.recall s
          if s'.earlierLoads o.owners o.id || (linesOfLanes ls).any (s'.atomWaits o) || s'.overdue o then s
          else
            let (s', vals) := (s'.countMisses ls).atomLanesAt o ls s.arg.bytes
            s'.endAtom o.id vals
    | none => s)

/-! ## Writes in flight -/

/-- Whether a write under way may arrive now: the loads and atomics that its group issued before it have taken their
values (R339), the writes that precede it have arrived (R293), among them those that its cluster's slice showed
before (R337), and no copy owns the line (R314). -/
def State.mayArrive (s : State) (w : Write) : Bool :=
  let owners := match s.out? w.out with | some o => o.owners | none => []
  !s.earlierLoads owners w.out && !s.ownedOver owners w.out w.line && !s.flight.any (fun x => w.prior.contains x.id)
    && (w.arr.isNone || 2 < w.scope || (match s.sliceWrites (clusterOf w.core) w.line with | x :: _ => x.id == w.id | [] => true))
    && (!isPeer w.line || (match s.out? w.out with | some o => s.time < o.issued + peerWait | none => true))

/-- What an arriving write does at its home; a peer reports the time at which it is visible (R343), and a store
fills what its policy names (R289). -/
def State.arrive (s : State) (w : Write) : State :=
  let cache := match s.out? w.out with | some o => o.cache | none => 0
  let by_ (cache : Nat) : WriteBy :=
    { core := w.core, scope := w.scope, key := w.key, mt := w.mt, cache := cache, hists := w.hists, outs := [w.out]
      arr := w.arr, notBefore := 0 }
  if isPeer w.line then s.report [w.out] (Lct.all (s.arg.b + s.skew)) 0
  else
    match w.act with
    | .bytes bs =>
      let s := s.land (by_ cache) w.line bs
      if w.mt == 0 && !leasedHere w.core w.line then s.useHome w.core w.line cache else s
    | .red op off size v =>
      let ext := if isHost w.line && size ≤ s.arg.bytes.length then some (leNat (s.arg.bytes.take size)) else none
      (s.rmw (by_ 0) w.line off size ext (fun m => some (atomResult op size m v))).1

/-- WRITE_ARRIVE_HOME (R287, R335, R337). A write arriving at its home slice probes the clusters that
hold the line and is held as pending until it becomes visible. -/
def execWriteArriveHome (s : State) : Host.Outcome State Fault Refusal :=
  .next (match s.flight.find? (fun w => w.id == s.arg.a) with
    | some w =>
      let s' := { s with flight := s.flight.filter (fun x => x.id != w.id) }.recall w.line
      if !s.mayArrive w || s'.buffered w.line then s
      else (s'.ackProbes w).arrive w
    | none => s)

/-- WRITE_VISIBLE (R336). A pending write becomes visible when device time reaches its visible time,
and waiting fills and reads proceed. -/
def execWriteVisible (s : State) : Host.Outcome State Fault Refusal :=
  .next (s.settleLine s.arg.a (s.tagSlot s.arg.a) 1)

/-! ## Fills and leases -/

/-- A line's record after a fill from another die (R288): lease length, lease end and horizon. A prefetch leaves
the lease length as it is (R304). -/
def granted (l : LineInfo) (t : Nat) (counted : Bool) : LineInfo :=
  let len := if !counted then l.leaseLen
    else if l.waited then max 256 (l.leaseLen / 2)
    else if l.lastEnd != 0 && l.lastEnd ≤ t then min 16384 (2 * l.leaseLen)
    else l.leaseLen
  { l with leaseLen := len, lastEnd := t + len, horizon := max l.horizon (t + len), waited := l.waited && !counted }

/-- Whether a fill to another die may be answered: every pending write is visible there, a narrow one too, since the
copy would outlive its horizon (R336, R337, R338). -/
def State.fillable (s : State) (core line : Nat) : Bool :=
  !s.buffered line &&
  (s.pends line).all (fun w => w.visible (homeDie line) core false s.time)

/-- Entries of a slice's horizon table (R288). -/
def horizonEntries : Nat := 4096

/-- A line without an entry takes one in its slice's horizon table; a full table gives up an entry, which one
being open, and the floor horizon rises to its H (R288). -/
def State.horizonRoom (s : State) (line : Nat) : State :=
  let es := s.lines.filter (fun x => x.2.lastEnd != 0 && x.1 != line && homeDie x.1 == homeDie line
    && sliceOf x.1 == sliceOf line)
  if (s.lineInfo line).lastEnd != 0 || es.length < horizonEntries then s
  else
    let (v, s) := s.freeValue
    match es[v.toNat % es.length]? with
    | none => s
    | some x =>
      let d := s.die (homeDie line)
      let l := { x.2 with horizon := 0, leaseLen := 2048, lastEnd := 0, waited := false }
      { s.setDie (homeDie line) { d with
          floors := Sparse.set d.floors 0 (sliceOf line) (max x.2.horizon (s.floorOf line)) } with
        lines := put s.lines x.1 l }

/-- The home grants a lease of a line (R288): its end, with the line's horizon and lease length updated. -/
def State.grantLease (s : State) (line : Nat) (counted : Bool) : State × Nat :=
  let l := granted (s.lineInfo line) s.time counted
  ({ s.horizonRoom line with lines := put (s.horizonRoom line).lines line l }, l.lastEnd)

/-- A leased copy is installed in the remote line cache, and in the L1 where the policy fills it (R288, R289). The
lease end of a line of a peer window is the one that the peer sends. -/
def State.farFill (s : State) (core line cache : Nat) (counted : Bool) (ends : Nat) (ext : List Byte) : State :=
  let tag := Sparse.get s.tags (0, 0) line
  let bytes := if ext.length == 128 then ext else (List.range 128).map (fun i => s.seenByte core [] line tag.1 i)
  let (s', e) := if isPeer line then (s, ends) else s.grantLease line counted
  let le : Lease := { ends := e, filled := s.time, bytes := bytes, tag := tag }
  (rlcOf (dieOf core) :: (if fillsL1 cache then [l1Of (clusterOf core) line] else [])).foldl
    (fun (s : State) p => s.enter p line (some le) cache) s'

/-- A fill (R286 to R289): a leased copy on another die than the home, the L1 and the L2 on the home die. None where
it waits at the home (R296, R337). -/
def State.fill (s : State) (core line cache : Nat) (counted : Bool) (ends : Nat) (ext : List Byte) : Option State :=
  let s := s.recall line
  if leasedHere core line then
    if s.fillable core line then some (s.farFill core line cache counted ends ext) else none
  else if s.buffered line then none
  else some (s.useHome core line cache)

/-- Whether an operation asks for a fill of a line (R289). -/
def Out.fills (o : Out) (line : Nat) : Bool :=
  (o.kind == .store || o.kind == .prefetch || o.cls == 0) && fillsFar o.cache && (cachedLines o.lanes).contains line

/-- A prefetch has one line less to fill. -/
def State.prefetched (s : State) (id line : Nat) : State :=
  let outs := s.outs.map (fun (o : Out) => if o.id == id then
    { o with lanes := o.lanes.filter (fun l => !(o.lanesAt line).contains l) } else o)
  { s with outs := outs.filter (fun o => !(o.id == id && o.lanes.isEmpty)) }

/-- LINE_FILL (R288, R289). A fill for an outstanding load, store or prefetch is answered with data, and from another
die with a lease end; the line's horizon and lease length are updated. -/
def execLineFill (s : State) : Host.Outcome State Fault Refusal :=
  .next (match s.out? s.arg.a with
    | some o =>
      let line := lineOf s.arg.b
      if !o.fills line || s.ownedOver o.owners o.id line || s.flight.any (fun w => w.line == line && w.out == o.id) || s.ownFlight o.owners o.id line
      then s
      else
        match s.fill o.core line o.cache (o.kind != .prefetch) s.arg.c s.arg.bytes with
        | some s => if o.kind == .prefetch then s.prefetched o.id line else s
        | none => s
    | none => s)

/-- LEASE_EXPIRY (R288, R340). A leased copy stops serving at its lease end less the guard and is
dropped. -/
def execLeaseExpiry (s : State) : Host.Outcome State Fault Refusal :=
  .next { s with caches := s.caches.filter (fun c =>
    !(c.place == s.arg.a && c.line == s.arg.b &&
      (match c.lease with
       | some l => l.ends ≤ s.time + s.guardOf (dieOfCache c.place) c.line
       | none => false))) }

/-! ## Releases and acquires -/

/-- LCT of the present agent at a scope (R344, R345). -/
def Lct.at (l : Lct) (scope : Nat) : Nat :=
  match scope with | 0 => 0 | 1 | 2 => l.clus | 3 => l.die | 4 => l.dev | _ => l.sys

def State.lctHere (s : State) : Lct :=
  match s.cur with
  | .thread id => match s.thread? id with | some t => t.lct | none => Lct.zero
  | .proctor c => (s.core c).proctor.lct

def State.relDoneHere (s : State) : Bool :=
  match s.cur with
  | .thread id => match s.thread? id with | some t => t.relDone | none => false
  | .proctor c => (s.core c).proctor.relDone

/-- The present agent is parked, or its release is marked complete. -/
def State.setParkHere (s : State) (p : Park) (done : Bool) : State :=
  match s.cur with
  | .thread id =>
    match s.thread? id with
    | some t => s.setThread { t with park := p, relDone := done }
    | none => s
  | .proctor c => s.setProctor c { (s.core c).proctor with park := p, relDone := done }

/-- Whether a peer store of the present agent timed out and is not yet reported (R343). -/
def State.lateHere (s : State) : Bool :=
  match s.cur with
  | .thread id => match s.thread? id with | some t => t.peerLate | none => false
  | .proctor _ => false

/-- The report of a peer store that timed out, at the instruction that waits for it (R343). -/
def State.reportLate (s : State) (h : Hdr) : State :=
  s.withThread (fun t =>
    if 0 < (s.core t.core).hq.free then
      (s.setThread { t with peerLate := false }).trap h vPeerTimeout 0x80
    else s.poll)

end Sys2Proof.Machine
end

