-- ==== Sys2Proof/Machine/Shootdown.lean ====
section
/-! DEFINITION. The shootdown unit (R132, R133): acceptance, invalidation and completion. -/

namespace Sys2Proof.Machine

/-- Requests that a die's queue holds (R132). -/
def shootQueue : Nat := 16

/-- Whether a half starts at this address: true for the supervisor half. -/
def halfBase (sup : Bool) : Nat := if sup then 0xFE00000000000000 else 0

/-- First byte and length of a request's range; a count of 0 covers the whole half (R132). -/
def shootRange (base pages : Nat) : Nat × Nat :=
  if pages == 0 then (halfBase (halfOf base == some true), 2 ^ 57) else (base, 4096 * pages)

/-- Whether a request covers some byte of a range in a context (R132). -/
def Shoot.covers (r : Shoot) (ctx : W32) (va len : Nat) : Bool :=
  let (b, n) := shootRange r.base r.pages
  (r.all || r.ctx == ctx || halfOf r.base == some true) && va < b + n && b < va + len

/-- Whether a request is refused (R132). -/
def shootRefused (flags base pages rest : Nat) : Bool :=
  1 < flags || rest != 0 || base % 4096 != 0 || (halfOf base).isNone || 2 ^ 45 < pages
    || (pages != 0 && halfBase (halfOf base == some true) + 2 ^ 57 < base + 4096 * pages)

/-- A request enters a die's queue (R132): walks that overlap it restart when they end (R133). -/
def State.shoot (s : State) (die : Nat) (ctx : W32) (all : Bool) (base pages : Nat) : State :=
  let x := s.die die
  let r : Shoot := { seq := x.shootAcc + 1, ctx := ctx, all := all, base := base, pages := pages
                     ops := none }
  let s := s.setDie die { x with shootAcc := x.shootAcc + 1, shootQ := x.shootQ ++ [r] }
  { s with walks := s.walks.map (fun w =>
      if w.open_ && r.covers w.ctx w.va 4096 then { w with stale := true } else w) }

/-- A 32-byte store to SHOOTREQ of a die (R132); none when the queue is full and the store waits. -/
def State.shootRequest (s : State) (die : Nat) (bytes : List Byte) : Option State :=
  let at_ (o n : Nat) : Nat := leNat ((bytes.drop o).take n)
  let x := s.die die
  if shootRefused (at_ 4 4) (at_ 8 8) (at_ 16 8) (at_ 24 8) then
    some (s.setDie die { x with shootBad := x.shootBad + 1 })
  else if shootQueue ≤ x.shootQ.length then none
  else some (s.shoot die (BitVec.ofNat 32 (at_ 0 4)) (bit (at_ 4 4) 0) (at_ 8 8) (at_ 16 8))

/-- SHOOTDOWN_REQUEST (R132). A 32-byte store to SHOOTREQ, after a release at .dev scope, is accepted
into the die's queue or refused. -/
def execShootdownRequest (s : State) : Host.Outcome State Fault Refusal :=
  .next (if isSupervisor s.arg.w then (s.shootRequest s.arg.a s.arg.bytes).getD s else s)

/-- Every core and walker drops what a request covers (R133, step 1). -/
def State.shootInvalidate (s : State) (r : Shoot) : State :=
  { s with
    tlb := s.tlb.filter (fun e => !r.covers e.ctx e.va (2 ^ pageBits e.size))
    blocks := s.blocks.filter (fun b => !r.covers b.ctx b.va 192)
    wcache := s.wcache.filter (fun e => !r.covers e.ctx e.base (2 ^ levelShift e.level))
    walks := s.walks.filter (fun w => w.open_ || !r.covers w.ctx w.va 4096) }

/-- Counter entries of overlapping regions are reset on every die (R130, R133, step 5). -/
def State.shootCounters (s : State) (r : Shoot) : State :=
  { s with dies := s.dies.map (fun (x : Die) =>
      { x with counters := x.counters.map (fun c =>
          if r.covers c.ctx c.region 65536 then { c with count := 0, notified := false } else c) }) }

/-- Groups whose PREG or PDROP waited for a request write their status and continue. -/
def State.shootWake (s : State) (die seq : Nat) : State :=
  { s with threads := s.threads.map (fun (t : Thread) =>
      match t.park with
      | .shootdown d x q status =>
        if x == die && q == seq then { t.setSreg d status with pc := t.after, park := .run } else t
      | _ => t) }

/-- Writes that a completed shootdown covers translate again (R128, R133). -/
def State.shootRelease (s : State) (r : Shoot) : State :=
  let held := s.held.filter (fun x => !r.covers x.ctx x.page 4096)
  { s with
    held := held
    threads := s.threads.map (fun (t : Thread) =>
      if t.park == .blocked && !held.any (fun x => x.who == t.id) then { t with park := .run } else t) }

/-- An outstanding operation was translated in the range of a request (R133, step 2). -/
def Shoot.concerns (r : Shoot) (o : Out) : Bool :=
  match o.ctx with
  | some c => o.lanes.any (fun l => r.covers c l.va l.size)
  | none => false

/-- SHOOTDOWN_COMPLETE (R133). A shootdown invalidates on every core and walker, and completes, in
acceptance order, when the accesses translated before have been performed and the reductions of its range merged
(R296, case 6); SHOOTDONE is then set. -/
def execShootdownComplete (s : State) : Host.Outcome State Fault Refusal :=
  .next (
    let die := s.arg.a
    match (s.die die).shootQ with
    | [] => s
    | r :: rest =>
      let (s, ops) := match r.ops with
        | some ops => (s, ops)
        | none => (s.shootInvalidate r, (s.outs.filter (Shoot.concerns r)).map Out.id)
      let s := s.mergeWhere (fun x => x.outs.any ops.contains)
      let ops := ops.filter (fun id => s.outs.any (fun o => o.id == id))
      let x := s.die die
      if ops.isEmpty then
        (((s.setDie die { x with shootQ := rest, shootDone := r.seq }).shootCounters r).shootRelease r).shootWake die r.seq
      else s.setDie die { x with shootQ := { r with ops := some ops } :: rest })

end Sys2Proof.Machine
end

