-- ==== Sys2Proof/Machine/ProofRegion.lean ====
section
/-! DEFINITION. Proofs (R323 to R330): their regions, the triggers that a release fires, the gather,
quantisation and install of a block, the frontier, and the faulted state. -/

namespace Sys2Proof.Machine

/-! ## Regions (R324) -/

/-- The proof is in sorted E2M1 (R45). -/
def Proof.sorted (p : Proof) : Bool := p.fmt == 6

/-- Element format of the proof, by the codes of the quantisers. -/
def Proof.elem (p : Proof) : Nat :=
  match p.fmt with | 0 => 5 | 1 => 6 | 2 => 7 | 3 => 8 | 4 => 9 | 5 => 10 | _ => 9

/-- Elements of a block. -/
def Proof.block (p : Proof) : Nat := if p.sorted then 24 else 32

/-- Bytes of the elements of a block. -/
def Proof.blockBytes (p : Proof) : Nat :=
  if p.sorted then 12 else if p.elem == 10 then 32 else 4 * fmtBits p.elem

/-- Blocks of a master row. -/
def Proof.perRow (p : Proof) : Nat := p.cols / p.block

def Proof.blocks (p : Proof) : Nat := p.rows * p.perRow

/-- Lines of a row of a sorted region (R68). -/
def Proof.rowLines (p : Proof) : Nat := ceilDiv p.cols 192

/-- Offset of the scale bytes of an MX region. -/
def Proof.scaleOff (p : Proof) : Nat := roundUpTo (p.blocks * p.blockBytes) 128

/-- Offset of the stamps. -/
def Proof.stampOff (p : Proof) : Nat :=
  if p.sorted then p.rows * p.rowLines * 128 else roundUpTo (p.scaleOff + p.blocks) 128

/-- Bytes of the region, to the end of the last line of stamps. -/
def Proof.size (p : Proof) : Nat := roundUpTo (p.stampOff + 8 * p.blocks) 128

/-- Bytes of a master element (R45). -/
def Proof.masterBytes (p : Proof) : Nat := if p.masterFmt == 0 then 4 else 2

/-- Format of a master element. -/
def Proof.masterFp (p : Proof) : Nat := match p.masterFmt with | 0 => 3 | 1 => 1 | _ => 0

def Proof.masterSize (p : Proof) : Nat := p.rows * p.cols * p.masterBytes

/-- Address of the first master element of a block. -/
def Proof.blockVa (p : Proof) (b : Nat) : Nat :=
  p.master + (b / p.perRow * p.cols + p.block * (b % p.perRow)) * p.masterBytes

/-- Master bytes of a block. -/
def Proof.blockSpan (p : Proof) : Nat := p.block * p.masterBytes

/-- The block whose bytes, or whose stamp, hold an offset of the region (R331). -/
def Proof.blockAt (p : Proof) (o : Nat) : Option Nat :=
  if p.stampOff ≤ o then
    if o < p.stampOff + 8 * p.blocks then some ((o - p.stampOff) / 8) else none
  else if p.sorted then
    let w := o % 128
    let j := if w < 8 then w else if w < 16 then w - 8 else (w - 16) / 12
    let jr := 8 * (o / 128 % p.rowLines) + j
    if w < 112 && jr < p.perRow then some (o / 128 / p.rowLines * p.perRow + jr) else none
  else if o < p.blocks * p.blockBytes then some (o / p.blockBytes)
  else if p.scaleOff ≤ o && o < p.scaleOff + p.blocks then some (o - p.scaleOff)
  else none

/-- Stamp of a block: its registration time before any install (R327). -/
def Proof.stamp (p : Proof) (b : Nat) : Nat := Sparse.get p.stamps p.regT b

/-- Bytes of a block's install, by offset in the region: elements, scale, sort, stamp; with a sorted
block go the zeros of its line (R68, R324, R327). -/
def Proof.image (p : Proof) (b : Nat) (elems : List Byte) (scale sort stamp : Nat) :
    List (Nat × Byte) :=
  let run (o : Nat) (bs : List Byte) : List (Nat × Byte) := bs.mapIdx (fun i x => (o + i, x))
  let st := run (p.stampOff + 8 * b) (leBytes 8 stamp)
  if p.sorted then
    let jr := b % p.perRow
    let line := (b / p.perRow * p.rowLines + jr / 8) * 128
    let j := jr % 8
    let beyond := if jr + 1 == p.perRow then (List.range (7 - j)).map (j + 1 + ·) else []
    run (line + j) (leBytes 1 scale) ++ run (line + 8 + j) (leBytes 1 sort)
      ++ run (line + 16 + 12 * j) elems ++ run (line + 112) (List.replicate 16 0)
      ++ beyond.flatMap (fun k => run (line + k) [0] ++ run (line + 8 + k) [0]
          ++ run (line + 16 + 12 * k) (List.replicate 12 0))
      ++ st
  else run (b * p.blockBytes) elems ++ run (p.scaleOff + b) (leBytes 1 scale) ++ st

/-! ## The engine's translations -/

/-- A frame of normal memory homed on this device. -/
def homedHere (pa : Nat) : Bool :=
  match regionOf pa with | .hbm _ => true | .tier2 _ => true | .cxl _ => true | _ => false

/-- Place that a leaf gives an address of a context. -/
def leafPlace (ctx : W32) (va leaf size : Nat) : Trans :=
  let e := tlbOf 0 ctx va leaf size
  .ok (e.pa + va % 2 ^ pageBits size) (keyFor ctx va) e.mt

/-- What the permissions of a leaf deny an access (R125). -/
def leafDenies (sup : Bool) (leaf access : Nat) : Option Nat :=
  let e := tlbOf 0 0 0 leaf 0
  denies sup e.u e.x e.w e.rd e.mt access

/-- The walk of a mapping check of a core. -/
def State.checkFind (s : State) (core : Nat) (ctx : W32) (va : Nat) : Option Walk :=
  s.walks.find? (fun w => w.use == .check && w.core == core && w.ctx == ctx && w.va == pageBase 0 va)

/-- A mapping check on a core (R323): the leaf as a walk would find it, in the walk mode of the core's die. It
installs nothing, sets neither A nor D, and leaves WBLK alone. -/
def State.checkTrans (s : State) (core : Nat) (ctx : W32) (sup : Bool) (va access : Nat) : State × Trans :=
  let leaf (v size : Nat) : Trans :=
    match leafDenies sup v access with
    | some c => .prot c
    | none => leafPlace ctx va v size
  match s.argAt ctx va, halfOf va with
  | some pa, _ => (s, argTrans ctx pa access)
  | none, none => (s, .prot 0x20)
  | none, some half =>
    if half && !sup then (s, .prot 0x21)
    else if s.mode (dieOf core) 0 then
      match s.checkFind core ctx va with
      | none => (s.newWalk .check core ctx sup va access, .wait)
      | some w =>
        match w.fault, w.found with
        | some (v, c), _ => (s, if v == 4 then .page c else .prot c)
        | none, some (v, size) => (s, leaf v size)
        | none, none => (s, .wait)
    else
      match s.walkOn (dieOf core) ctx va with
      | .fault c => (s, .page c)
      | .leaf v _ size => (s, leaf v size)

/-- The mapping checks of a core's context are over. -/
def State.endChecks (s : State) (core : Nat) (ctx : W32) : State :=
  { s with walks := s.walks.filter (fun w => !(w.use == .check && w.core == core && w.ctx == ctx && !w.open_)) }

/-- A translation for an engine on a core, in the walk mode of its die: in hardware walk mode it reads the table,
sets A and, for a write, D, and installs nothing; in supervisor walk mode it takes the answers of the supervisor
(R122, R127). -/
def State.engineTrans (s : State) (core : Nat) (ctx : W32) (sup : Bool) (va access : Nat) :
    State × Trans :=
  if (s.argAt ctx va).isSome || s.mode (dieOf core) 0 then
    match s.translate core ctx sup va access with
    | .wait => (s.startWalk core ctx sup va access, .wait)
    | .page c => (s.endWalks core ctx [va], .page c)
    | .prot c => (s.endWalks core ctx [va], .prot c)
    | r => (s, r)
  else
    match halfOf va with
    | none => (s, .prot 0x20)
    | some half =>
      if half && !sup then (s, .prot 0x21)
      else
        match s.walkOn (dieOf core) ctx va with
        | .fault c => (s, .page c)
        | .leaf v at_ size =>
          match leafDenies sup v access with
          | some c => (s, .prot c)
          | none =>
            if writes access && bit v 55 then (s, .blocked)
            else
              let mask := 2 ^ 8 + (if writes access then 2 ^ 9 else 0)
              (if v &&& mask == mask then s else s.orLeaf at_ mask, leafPlace ctx va v size)

/-- A translation for the proof engine of a die, through the TLB of its core d.0.0: a write that WBLK blocks there
waits for a shootdown of its page to complete (R128). -/
def State.proofTrans (s : State) (p : Proof) (va access : Nat) : State × Trans :=
  let core := 12 * p.die
  if writes access && s.isHeld p.id p.ctx va then (s, .blocked)
  else
    match s.translate core p.ctx p.sup va access with
    | .wait => (s.startWalk core p.ctx p.sup va access, .wait)
    | .page c => (s.endWalks core p.ctx [va], .page c)
    | .prot c => (s.endWalks core p.ctx [va], .prot c)
    | .blocked => (s.hold p.id p.ctx va, .blocked)
    | r => (s, r)

/-- Physical line of a master line: where the engine's TLB or, in hardware walk mode, the table maps it now, else
where it was last found (log entry 83). -/
def State.masterLine (s : State) (p : Proof) (va : Nat) : Option Nat :=
  let known := (lookup p.frames (pageBase 0 va)).map (fun pa => lineOf (pa + va % 4096))
  match s.tlbFind (12 * p.die) p.ctx va with
  | some e => some (lineOf (e.pa + va % 2 ^ pageBits e.size))
  | none =>
    if s.mode p.die 0 then known
    else
      match s.walk p.ctx va with
      | .leaf v _ size =>
        match leafPlace p.ctx va v size with
        | .ok pa _ _ => some (lineOf pa)
        | _ => known
      | .fault _ => known

/-- The engine has found a page of a master. -/
def State.learnFrame (s : State) (p : Proof) (va pa : Nat) : State :=
  { s with proofs := s.proofs.map (fun (q : Proof) =>
      if q.id == p.id then { q with frames := put q.frames (pageBase 0 va) (pageBase 0 pa) } else q) }

/-- Addresses of the lines of a range. -/
def linesOfRange (va len : Nat) : List Nat :=
  if len == 0 then []
  else (List.range ((va + len - 1) / 128 - va / 128 + 1)).map (fun i => va / 128 * 128 + 128 * i)

/-! ## Triggers -/

/-- Blocks with a master element in one of these physical lines, in ascending order (R325). -/
def State.touched (s : State) (p : Proof) (lines : List Nat) : List Nat :=
  let hit := (linesOfRange p.master p.masterSize).filter (fun va =>
    match s.masterLine p va with | some l => lines.contains l | none => false)
  if hit.isEmpty then []
  else (List.range p.blocks).filter (fun b =>
    (linesOfRange (p.blockVa b) p.blockSpan).any (fun l => hit.contains l))

/-- Master pages of a list of blocks, each once. -/
def Proof.pages (p : Proof) (bs : List Nat) : List Nat :=
  dedup (bs.map (fun b => p.blockVa b / 4096 * 4096))

/-- A trigger of a proof (R325, R330): in supervisor mode one recompute request for each master
page. -/
def State.trigger (s : State) (p : Proof) (blocks : List Nat) (t : Nat) : State :=
  if blocks.isEmpty || p.faulted.isSome then s
  else
    let core := 12 * p.die
    let pages := if s.mode p.die 3 then p.pages blocks else []
    let (s, tags) := pages.foldl (fun (x : State × List Nat) page =>
      let (id, s) := x.1.newId
      (s.postDevice core (devicePost 0x08 (slotOfCtx p.ctx) (some id)
        (leBytes 4 p.ctx.toNat ++ leBytes 2 p.num ++ [0, 0] ++ leBytes 8 page ++ leBytes 8 t)),
        x.2 ++ [id])) (s, [])
    let tr : Trigger := { time := t, blocks := if pages.isEmpty then blocks else [], tags := tags }
    { s with proofs := s.proofs.map (fun (q : Proof) =>
        if q.id == p.id then { q with triggers := q.triggers ++ [tr] } else q) }

/-- Every proof triggered for the blocks whose masters lie in these physical lines (R325). -/
def State.triggerLines (s : State) (lines : List Nat) : State :=
  if lines.isEmpty then s
  else s.proofs.foldl (fun s p => s.trigger p (s.touched p lines) s.time) s

/-- A release of a thread fires the triggers of the lines it marked (R325). -/
def State.fireMarks (s : State) (id : Nat) : State :=
  match s.thread? id with
  | some t =>
    if t.marked.isEmpty then s
    else (s.setThread { t with marked := [] }).triggerLines t.marked
  | none => s

/-- The frontier (R328): every trigger of a past nanosecond at or before it has all its blocks
installed. -/
def State.frontier (s : State) (p : Proof) : Nat :=
  if p.faulted.isSome then p.frontier
  else minOf s.time (p.triggers.map (·.time)) - 1

/-! ## Gather, quantise, install -/

/-- What stands in the way of a block. -/
inductive Gather where
  /-- A reason of R329. -/
  | fault (reason : Nat)
  | wait
  /-- Bytes of the block, and the greatest completion time among them. -/
  | ok (bytes : List Byte) (time : Nat)
  deriving DecidableEq, Repr

/-- Why an engine cannot use a page (R329): 0 it can, 4 it must wait. -/
def transReason (t : Trans) : Nat :=
  match t with
  | .ok pa _ mt => if mt == 0 && homedHere pa then 0 else 2
  | .prot _ => 2
  | .page _ => 1
  | .blocked => 4
  | .wait => 4

/-- Completion time of the latest write reflected in some bytes of a line (R327). -/
def State.lineTime (s : State) (line off len : Nat) : Nat :=
  match lookup s.lines line with
  | some l =>
    let offs := (List.range len).map (off + ·)
    let pend := l.pend.filterMap (fun w =>
      if w.bytes.any (fun e => offs.contains e.1) then some w.cfar else none)
    maxOf (pend ++ offs.map (fun o => Sparse.get l.times 0 o))
  | none => 0

/-- Master bytes of a range inside one line, added to a gather. -/
def State.gatherLine (s : State) (p : Proof) (va len : Nat) (g : Gather) : State × Gather :=
  match g with
  | .ok bs t =>
    let (s, r) := s.proofTrans p va accRead
    match r with
    | .ok pa key _ =>
      let line := lineOf pa
      let s := s.learnFrame p va pa
      if transReason r != 0 then (s, .fault (transReason r))
      else if s.keyMisses line key then (s, .fault 3)
      else if Sparse.get s.memPoison 0 line != 0 || s.buffered line || s.owned line then (s, .wait)
      else (s, .ok (bs ++ s.load pa key len) (max t (s.lineTime line (pa - line) len)))
    | r => if transReason r == 4 then (s, .wait) else (s, .fault (transReason r))
  | g => (s, g)

/-- The gather of a block, line by line (R326, step 1). -/
def State.gather (s : State) (p : Proof) (b : Nat) : State × Gather :=
  let va := p.blockVa b
  let hi := va + p.blockSpan
  (linesOfRange va p.blockSpan).foldl (fun (x : State × Gather) l =>
    let lo := max va l
    x.1.gatherLine p lo (min hi (l + 128) - lo) x.2) (s, .ok [] 0)

/-- Scale, sort and element bytes of a block (R326, steps 2 and 3). -/
def Proof.quantise (p : Proof) (b stamp : Nat) (bytes : List Byte) : Nat × Nat × List Byte :=
  let n := p.masterBytes
  let xs := (List.range p.block).map (fun i =>
    decodeFp p.masterFp (leNat ((bytes.drop (n * i)).take n)))
  let word (e : Nat) : Nat :=
    philoxWord p.seed (b % 2 ^ 32) (p.num * 256 + e / 4) (stamp % 2 ^ 32) (stamp / 2 ^ 32) e
  let rm (e : Nat) : Rm := if p.sr then .sr (word e) else .rne
  let pack (w : Nat) (cs : List Nat) : List Byte :=
    leBytes p.blockBytes (cs.mapIdx (fun i c => c % 2 ^ w * 2 ^ (w * i))).sum
  if p.sorted then
    let (sc, so, es) := sortQuantise rm xs
    (sc, so, pack 4 (es.map (·.1)))
  else
    let (sc, es) := mxQuantise p.elem rm xs
    (sc, 0, pack (if p.elem == 10 then 8 else fmtBits p.elem) (es.map (·.1)))

/-- What installing bytes of a region needs of each of its lines: a usable page, and no leased copy or
pending write that would still show older bytes (R288, R327, R329). -/
def State.installPlan (s : State) (p : Proof) (img : List (Nat × Byte)) :
    State × Nat × List (Nat × Nat × Byte) :=
  img.foldl (fun (x : State × Nat × List (Nat × Nat × Byte)) e =>
    let (s, bad, out) := x
    if bad != 0 then x
    else
      let (s, r) := s.proofTrans p (p.base + e.1) accWrite
      match r with
      | .ok pa key _ =>
        let line := lineOf pa
        let l := s.lineInfo line
        let busy := decide (s.time < l.horizon) || !l.pend.isEmpty || s.owned line || s.buffered line
        if transReason r != 0 then (s, transReason r, out)
        else if s.keyMisses line key then (s, 3, out)
        else if busy then (s, 4, out)
        else (s, 0, out ++ [(pa, key, e.2)])
      | r => (s, transReason r, out)) (s, 0, [])

/-- The proof is marked faulted (R329), with one report. -/
def State.proofFault (s : State) (p : Proof) (b reason : Nat) : State :=
  let f := s.frontier p
  let s : State := { s with proofs := s.proofs.map (fun (q : Proof) =>
    if q.id == p.id then { q with faulted := some reason, frontier := f } else q) }
  s.postDevice (12 * p.die) (devicePost 0x09 (slotOfCtx p.ctx) none
    (leBytes 4 p.ctx.toNat ++ leBytes 2 p.num ++ [BitVec.ofNat 8 reason, 0] ++ leBytes 8 b))

/-- A block installed in one step (R327): an install below the present stamp is discarded, and one that is made
ends the poison of the lines it writes (R374; log entry 81). Answers whether the block is done with. -/
def State.install (s : State) (p : Proof) (b : Nat) (img : List (Nat × Byte)) (stamp : Nat) :
    State × Bool :=
  if stamp < p.stamp b then (s, true)
  else
    let (s, bad, ws) := s.installPlan p img
    if bad == 4 then (s, false)
    else if bad != 0 then (s.proofFault p b bad, false)
    else
      let s := ws.foldl (fun s w => s.storeByte w.1 w.2.1 w.2.2) s
      let lines := dedup (ws.map (fun w => lineOf w.1))
      ({ s with
          caches := s.caches.filter (fun c => c.place == l2Of (homeDie c.line) || !lines.contains c.line)
          memPoison := lines.foldl (fun m l => Sparse.set m 0 l 0) s.memPoison
          proofs := s.proofs.map (fun (q : Proof) =>
            if q.id == p.id then { q with stamps := Sparse.set q.stamps q.regT b stamp } else q) }, true)

/-- A block leaves the first trigger that waits for it; a trigger with none left is over. -/
def dropBlock (ts : List Trigger) (b : Nat) : List Trigger :=
  (ts.map (fun t => { t with blocks := t.blocks.filter (· != b) })).filter (fun t =>
    !(t.blocks.isEmpty && t.tags.isEmpty))

/-- PROOF_RECOMPUTE (R326). The proof engine gathers, quantises and installs a triggered block and
advances the frontier; one computation serves the block in every trigger that waits for it. -/
def execProofRecompute (s : State) : Host.Outcome State Fault Refusal :=
  .next (match s.proofs.find? (fun p => p.id == s.arg.a) with
    | none => s
    | some p =>
      match (p.triggers.filter (fun t => !t.blocks.isEmpty)).head?.bind (fun t => t.blocks.head?) with
      | none => s
      | some b =>
        if p.faulted.isSome then s
        else
          match s.gather p b with
          | (s, .wait) => s
          | (s, .fault r) => s.proofFault p b r
          | (s, .ok bytes t) =>
            let stamp := max p.regT t
            let (sc, so, es) := p.quantise b stamp bytes
            let (s, done) := s.install p b (p.image b es sc so stamp) stamp
            if done then
              { s with proofs := s.proofs.map (fun (q : Proof) =>
                  if q.id == p.id then { q with triggers := dropBlock q.triggers b } else q) }
            else s)

/-- A 32-byte store to PINSTALL (R330); none while a line of the block cannot take it yet. -/
def State.pinstall (s : State) (bytes : List Byte) : Option State :=
  let at_ (o n : Nat) : Nat := leNat ((bytes.drop o).take n)
  let b := at_ 8 8
  let addr := at_ 16 8
  match s.proofs.find? (fun p => p.ctx.toNat == at_ 0 4 && p.num == at_ 4 2) with
  | none => some s
  | some p =>
    if at_ 6 2 != 0 || p.blocks ≤ b || addr % 32 != 0 || at_ 24 8 < p.stamp b || p.faulted.isSome then
      some s
    else
      let elems := s.load addr 0 p.blockBytes
      let scale := s.loadNat (addr + p.blockBytes) 0 1
      let sort := if p.sorted then s.loadNat (addr + p.blockBytes + 1) 0 1 else 0
      let (s', done) := s.install p b (p.image b elems scale sort (at_ 24 8)) (at_ 24 8)
      if done || (s'.proofs.any (fun q => q.id == p.id && q.faulted.isSome)) then some s' else none

/-- PINSTALL_WRITE (R330). A 32-byte store to PINSTALL installs one proof block computed by a service
group. -/
def execPinstallWrite (s : State) : Host.Outcome State Fault Refusal :=
  .next (if s.mayAnswer s.arg.w then (s.pinstall s.arg.bytes).getD s else s)

/-- A store of a request's tag to PDONE (R330, R361): the record is freed, and the trigger no longer
waits for it. -/
def State.pdone (s : State) (die tag : Nat) : State :=
  let core := 12 * die
  match s.request core 0x08 tag with
  | none => s
  | some r =>
    let s := s.endRequest core r
    { s with proofs := s.proofs.map (fun (q : Proof) =>
        if q.faulted.isSome then q
        else
          { q with triggers := (q.triggers.map (fun t =>
              { t with tags := t.tags.filter (fun x => some x != r.poster) })).filter (fun t =>
                !(t.blocks.isEmpty && t.tags.isEmpty)) }) }

/-- PDONE_WRITE (R330). A store of a request's tag to PDONE ends a recompute request and advances the
proof's frontier. -/
def execPdoneWrite (s : State) : Host.Outcome State Fault Refusal :=
  .next (if s.mayAnswer s.arg.w then s.pdone s.arg.a s.arg.v.toNat else s)

/-! ## Readers -/

/-- The proof of a context whose region meets a range of addresses. -/
def State.proofAt (s : State) (ctx : W32) (va len : Nat) : Option Proof :=
  s.proofs.find? (fun p => p.ctx == ctx && va < p.base + p.size && p.base < va + len)

/-- What a read of a proof region does (R328, R329). -/
inductive ProofRead where
  | go | wait | fault
  deriving DecidableEq, Repr

/-- A read of a range by a context whose latest acquire completed at `acq` (R328). -/
def State.proofRead (s : State) (ctx : W32) (va len acq : Nat) : ProofRead :=
  match s.proofAt ctx va len with
  | none => .go
  | some p =>
    if p.faulted.isSome then .fault
    else if p.stale || acq ≤ s.frontier p then .go
    else .wait

end Sys2Proof.Machine
end

