-- ==== Sys2Proof/Machine/Sync.lean ====
section
/-! DEFINITION. Releases and acquires (R345, R346), WAIT (R189), FENCE (R349) and TBAR (R350). -/

namespace Sys2Proof.Machine

/-- The present agent's outstanding stores and atomics (R345, step 2), among them a proctor lane's write
of its die's FMODE (R24). -/
def State.writesOpen (s : State) : Bool :=
  s.countOuts s.self 1 + s.countOuts s.self 2 != 0
    || (match s.cur with | .proctor c => (s.die (dieOf c)).fmodeNew.isSome | .thread _ => false)

/-- The present agent's outstanding loads and atomics (R346). -/
def State.readsOpen (s : State) : Bool :=
  s.countOuts s.self 0 + s.countOuts s.self 2 != 0

/-- A release at a scope, and what follows it (R345): contributed lines are merged, stores and atomics
have reported, device time has reached the LCT of the scope; its completion triggers proofs (R325). -/
def State.release (s : State) (h : Hdr) (scope : Nat) (k : State → State) : State :=
  if s.relDoneHere then k s
  else if s.lateHere then s.reportLate h
  else
    let s := s.mergeOwn s.self
    let done (s : State) : State := k ((s.setParkHere .run true).fireMarks s.self)
    if scope == 0 then done s
    else if s.writesOpen then s.poll
    else if s.lctHere.at scope ≤ s.time then done s
    else s.setParkHere (.release (s.lctHere.at scope)) false

/-- RELEASE_COMPLETE (R345). A parked release completes when device time reaches its LCT, and the
group continues. -/
def execReleaseComplete (s : State) : Host.Outcome State Fault Refusal :=
  .next (
    let a := s.arg.a
    match s.thread? a with
    | some t =>
      match t.park with
      | .release u =>
        if u ≤ s.time then (s.setThread { t with park := .run, relDone := true }).fireMarks a else s
      | _ => s
    | none =>
      if a < laneNumber then s
      else
        let p := (s.core (a - laneNumber)).proctor
        match p.park with
        | .release u =>
          if u ≤ s.time then s.setProctor (a - laneNumber) { p with park := .run, relDone := true } else s
        | _ => s)

/-- The present agent's acquire time (R328, R346). -/
def State.setAcq (s : State) : State :=
  s.withThread (fun t => s.setThread { t with acq := s.time })

/-- An acquire, and what follows it (R346). -/
def State.acquire (s : State) (k : State → State) : State :=
  if s.readsOpen then s.poll
  else match s.cur with
    | .thread _ => k s.setAcq
    | .proctor _ => k s

/-- Scope of an MMOD prefix (R151), 0 without one. -/
def scopeOf (h : Hdr) : Nat := match h.mmod with | some p => p.scope.toNat | none => 0

/-- FENCE.REL (R349). Release fence at a scope. -/
def execFenceRel (h : Hdr) (s : State) : Host.Outcome State Fault Refusal :=
  run (.fenceRel h) s (fun s => s.release h (scopeOf h) (fun s => s.advance h))

/-- FENCE.ACQ (R349). Acquire fence at a scope. -/
def execFenceAcq (h : Hdr) (s : State) : Host.Outcome State Fault Refusal :=
  run (.fenceAcq h) s (fun s => s.acquire (fun s => s.advance h))

/-- Whether a counter is at or below its bound; 31 is no bound (R189). -/
def within (n bound : Nat) : Bool := bound == 31 || n ≤ bound

/-- WAIT (R189). Parks until the outstanding-operation counters are at or below their bounds; one that waits on st
has its group's reduction lines merged (R296, case 3). -/
def execWait (h : Hdr) (l : BitVec 5) (ss : BitVec 5) (m : BitVec 5) (a : BitVec 5) (s : State) :
    Host.Outcome State Fault Refusal :=
  run (.wait h l ss m a) s (fun s => s.withThread (fun t =>
    if ss != 31 && t.peerLate then s.reportLate h
    else if within (s.countOuts t.id 0) l.toNat && within (s.countOuts t.id 1) ss.toNat
        && within (s.countMx t.id) m.toNat && within (s.countOuts t.id 2) a.toNat then s.advance h
    else if within (s.countOuts t.id 1) ss.toNat then s.poll
    else (s.mergeOwn t.id).poll))

/-- TBAR (R350). Releases, arrives at a team barrier, waits for the named groups and acquires. -/
def execTbar (h : Hdr) (a : BitVec 7) (n : BitVec 3) (s : State) : Host.Outcome State Fault Refusal :=
  run (.tbar h a n) s (fun s => s.withThread (fun t =>
    match s.team? t.team with
    | none => s.trap h vMembership 0x52
    | some tm =>
      let mask := t.sreg a.toNat
      let cause := tbarCause tm t.grp mask
      if cause != 0 then s.trap h vMembership cause
      else s.release h 1 (fun s => s.withThread (fun t =>
        match s.team? t.team with
        | none => s.poll
        | some tm => s.tbarArrive h t tm n.toNat (mask.extractLsb' 0 16)))))

end Sys2Proof.Machine
end

