-- ==== Sys2Proof/Machine/Galley.lean ====
section
/-! DEFINITION. Galleys: team windows (R116), the bytes and poisoned lines of a window, sector barriers
(R316, R317), the descriptors of press operations and copies (R264, R306), and the reservations that
engines hold (R274, R311). -/

namespace Sys2Proof.Machine

/-! ## Windows -/

/-- The team of a gang with an index. -/
def State.teamIn (s : State) (gang idx : Nat) : Option Team :=
  s.teams.find? (fun tm => tm.gang == gang && tm.idx == idx && !tm.retired && !tm.folded)

/-- The team that a galley address names for a thread of a team (R116). -/
def State.windowOf (s : State) (gang team addr : Nat) : Option Team :=
  if addr / 2 ^ 27 != 0 || bit addr 23 then none
  else
    let m := bits addr 24 3
    if m == 0 then s.team? team else if m < 4 then none else s.teamIn gang (m - 4)

/-- A galley address resolved: its team and offset; none raises the galley-bounds trap (R116). -/
def State.galleyAt (s : State) (gang team addr size : Nat) : Option (Team × Nat) :=
  match s.windowOf gang team addr with
  | some tm => if addr % 2 ^ 23 + size ≤ tm.galley then some (tm, addr % 2 ^ 23) else none
  | none => none

/-- Where a byte of a window lies: core and offset in its galley (R116). -/
def Team.place (tm : Team) (off : Nat) : Nat × Nat :=
  let half := if tm.pair then tm.galley / 2 else tm.galley
  let (core, pages, o) :=
    if off < half then (tm.cores.headD 0, tm.pages, off) else (tm.cores.getD 1 0, tm.pages2, off - half)
  (core, pages.getD (o / 4096) 0 * 4096 + o % 4096)

/-- A byte of a window. -/
def State.galByte (s : State) (tm : Team) (off : Nat) : Byte :=
  let (c, o) := tm.place off
  Sparse.get (s.core c).galley 0 o

/-- Consecutive bytes of a window. -/
def State.galRead (s : State) (tm : Team) (off n : Nat) : List Byte :=
  (List.range n).map (fun i => s.galByte tm (off + i))

/-- One byte of a core's galley written. -/
def State.galPut (s : State) (core off : Nat) (b : Byte) : State :=
  let k := s.core core
  s.setCore core { k with galley := Sparse.set k.galley 0 off b }

/-- A line of a core's galley that one write has covered whole is poisoned no more (R374). -/
def State.galClear (s : State) (core : Nat) (offs : List Nat) : State :=
  let k := s.core core
  if k.galPoison.isEmpty then s
  else
    let full (l : Nat) : Bool := (dedup (offs.filter (fun o => o / 128 == l))).length == 128
    s.setCore core { k with galPoison := Sparse.drop k.galPoison full }

/-- Bytes of a window written, by offset. -/
def State.galWrite (s : State) (tm : Team) (bs : List (Nat × Byte)) : State :=
  let ws := bs.map (fun e => (tm.place e.1, e.2))
  let s := ws.foldl (fun s w => s.galPut w.1.1 w.1.2 w.2) s
  tm.cores.foldl (fun s c =>
    s.galClear c ((ws.filter (fun w => w.1.1 == c)).map (fun w => w.1.2))) s

/-- Whether a range of a window holds a poisoned line. -/
def State.galPoisoned (s : State) (tm : Team) (off n : Nat) : Bool :=
  (linesOfRange off n).any (fun l =>
    let (c, o) := tm.place l
    Sparse.get (s.core c).galPoison false (o / 128))

/-! ## Sector barriers -/

/-- A barrier word changed in one indivisible update (R316). -/
def State.barrier (s : State) (tm : Team) (off : Nat) (f : Nat → Nat) : State :=
  let v := leNat (s.galRead tm off 8)
  let bs := leBytes 8 (f v)
  s.galWrite tm (bs.mapIdx (fun i b => (off + i, b)))

/-- n more arrivals, saturating (R316). -/
def barArrive (n v : Nat) : Nat := v / 2 ^ 31 * 2 ^ 31 + min 0x7FFFFFFF (v % 2 ^ 31 + n)

/-- n arrivals taken back (R321, step 2). -/
def barWithdraw (n v : Nat) : Nat := v / 2 ^ 31 * 2 ^ 31 + (v % 2 ^ 31 - n)

/-- ABT set (R317). -/
def barAbort (v : Nat) : Nat := v % 2 ^ 63 + 2 ^ 63

/-! ## Descriptors -/

/-- Register i of a captured descriptor. -/
def dreg (desc : List W64) (i : Nat) : Nat := (desc.getD i 0).toNat

/-- The press descriptor (R264). -/
structure PressDesc where
  aoff : Nat
  boff : Nat
  k : Nat
  n : Nat
  m : Nat
  spb : Bool
  spa : Bool
  planes : Nat
  scl : Bool
  fmt : Nat
  asort : Nat
  ascl : Nat
  bsort : Nat
  bscl : Nat
  inc : Nat
  ben : Bool
  bar : Nat
  mem : Nat
  deriving DecidableEq, Repr

def pressDesc (d : List W64) : PressDesc :=
  let r := dreg d
  { aoff := bits (r 0) 0 23, boff := bits (r 1) 0 23, k := bits (r 2) 16 32, n := bits (r 2) 8 8
    m := bits (r 2) 0 8, spb := bit (r 3) 17, spa := bit (r 3) 16, planes := bits (r 3) 8 6
    scl := bit (r 3) 5, fmt := bits (r 3) 0 5, asort := bits (r 4) 32 23, ascl := bits (r 4) 0 23
    bsort := bits (r 5) 32 23, bscl := bits (r 5) 0 23, inc := bits (r 6) 32 16, ben := bit (r 6) 23
    bar := bits (r 6) 0 23, mem := bits (r 7) 0 4 }

/-- Container width of a press format (R265). -/
def pressP (fmt : Nat) : Nat :=
  match fmt with
  | 0 | 2 | 3 => 4
  | 9 | 10 => 16
  | 11 => 19
  | 12 => 32
  | 13 => 64
  | 14 => 128
  | _ => 8

/-- Block size of a press format (R265). -/
def pressB (fmt : Nat) : Nat := if fmt == 3 then 24 else 32

/-- Bytes of an operand in the plane layout (R260, R263). -/
def operandBytes (fmt k : Nat) (sparse : Bool) : Nat :=
  if sparse then k / 16 * 128 * (pressP fmt + 2) else k / 8 * 128 * pressP fmt

/-- Ranges that an operand takes: data, scales, sort bytes (R267, step 5). -/
def operandRanges (d : PressDesc) (off scl srt : Nat) (sparse : Bool) : List (Nat × Nat) :=
  (off, operandBytes d.fmt d.k sparse) ::
    (if d.scl then [(scl, 128 * (d.k / pressB d.fmt))] else [])
    ++ (if d.fmt == 3 then [(srt, 128 * (d.k / pressB d.fmt))] else [])

def rangesA (d : PressDesc) : List (Nat × Nat) := operandRanges d d.aoff d.ascl d.asort d.spa

def rangesB (d : PressDesc) : List (Nat × Nat) := operandRanges d d.boff d.bscl d.bsort d.spb

/-- Bytes of an element of an MTILE format in the galley (R283). -/
def mtileBytes (fmt : Nat) : Nat :=
  match fmt with | 1 | 2 => 2 | 4 => 8 | 5 => 16 | _ => 4

/-- The layout word of MTILE: STRIDE, COLS, ROWS, OFF (R283). -/
structure Layout where
  stride : Nat
  cols : Nat
  rows : Nat
  off : Nat
  deriving DecidableEq, Repr

def layoutOf (w : Nat) : Layout := ⟨bits w 48 16, bits w 40 8, bits w 32 8, bits w 0 23⟩

/-- Bytes from OFF to the end of the last row. -/
def Layout.span (l : Layout) (size : Nat) : Nat := (l.rows - 1) * l.stride + l.cols * size

/-- The copy descriptor (R306). -/
structure CpyDesc where
  src : Nat
  dst : Nat
  rows : Nat
  cols : Nat
  sstride : Nat
  dstride : Nat
  skey : Nat
  dkey : Nat
  kov : Bool
  sp : Bool
  ga : Bool
  rb : Bool
  cj : Bool
  tr : Bool
  ef : Nat
  dsp : Nat
  ssp : Nat
  prows : Nat
  pcols : Nat
  ben : Bool
  bar : Nat
  idx : Nat
  deriving DecidableEq, Repr

def cpyDesc (d : List W64) : CpyDesc :=
  let r := dreg d
  { src := r 0, dst := r 1, rows := bits (r 2) 32 16, cols := bits (r 2) 0 24
    sstride := bits (r 3) 0 40, dstride := bits (r 4) 0 40, skey := bits (r 5) 48 12
    dkey := bits (r 5) 32 12, kov := bit (r 5) 31, sp := bit (r 5) 13, ga := bit (r 5) 12
    rb := bit (r 5) 11, cj := bit (r 5) 10, tr := bit (r 5) 9, ef := bits (r 5) 4 5
    dsp := bits (r 5) 2 2, ssp := bits (r 5) 0 2, prows := bits (r 6) 48 16
    pcols := bits (r 6) 24 24, ben := bit (r 6) 23, bar := bits (r 6) 0 23, idx := r 7 }

/-- Rows and columns of D, the source with TR applied (R308). -/
def CpyDesc.shape (d : CpyDesc) : Nat × Nat := if d.tr then (d.cols, d.rows) else (d.rows, d.cols)

/-- Rows of the destination. -/
def CpyDesc.outRows (d : CpyDesc) : Nat := if d.prows == 0 then d.shape.1 else d.prows

/-- Columns of the destination. -/
def CpyDesc.outCols (d : CpyDesc) : Nat := if d.pcols == 0 then d.shape.2 else d.pcols

/-- Bits of an element on a side: 6-bit elements take a byte in a galley (R70, R307). -/
def CpyDesc.elemAt (d : CpyDesc) (space : Nat) : Nat :=
  let b := elemBits d.ef
  if b == 6 && space == 1 then 8 else b

/-- Bytes of a destination row without RB. -/
def CpyDesc.rowBytes (d : CpyDesc) : Nat := ceilDiv (d.outCols * d.elemAt d.dsp) 8

/-- Offsets of the scale and sort arrays (R306). -/
def CpyDesc.sclOff (d : CpyDesc) : Nat := bits d.idx 0 23

def CpyDesc.srtOff (d : CpyDesc) : Nat := bits d.idx 32 23

/-- Bytes of the slabs that RB writes (R308). -/
def CpyDesc.slabBytes (d : CpyDesc) : Nat := operandBytes d.ef d.outCols d.sp

/-- Ranges of the destination, as offsets from its address, or in its window for the arrays. -/
def CpyDesc.destRanges (d : CpyDesc) : List (Nat × Nat) :=
  if d.rb then
    (d.dst % 2 ^ 23, d.slabBytes) ::
      (if d.ef == 3 then
        [(d.sclOff, 128 * (d.outCols / 24)), (d.srtOff, 128 * (d.outCols / 24))] else [])
  else (List.range d.outRows).map (fun i => (d.dst % 2 ^ 23 + i * d.dstride, d.rowBytes))

/-! ## Reservations -/

/-- A galley range held by an engine from issue to its end (R274). -/
structure Resv where
  id : Nat
  team : Nat
  lo : Nat
  len : Nat
  write : Bool
  deriving DecidableEq, Repr

def Resv.meets (r : Resv) (team lo len : Nat) : Bool :=
  r.team == team && r.lo < lo + len && lo < r.lo + r.len

/-- Reservations of a press operation (R274, R275, R284). -/
def PressOp.resv (p : PressOp) : List Resv :=
  let tm := match p.parts with | q :: _ => q.team | [] => 0
  let d := pressDesc p.desc
  let of_ (team : Nat) (rs : List (Nat × Nat)) : List Resv := rs.map (fun r => ⟨p.id, team, r.1, r.2, false⟩)
  match p.kind with
  | .mma .. => of_ tm (rangesA d ++ rangesB d)
  | .gang .. =>
    p.parts.flatMap (fun q =>
      of_ q.team (rangesA d) ++ (if q.thread == p.issuer then of_ q.team (rangesB d) else []))
  | .mtileZero => []
  | .mtileSt _ f =>
    let l := layoutOf (dreg p.desc 0)
    [⟨p.id, tm, l.off, l.span (mtileBytes f.toNat), true⟩]
  | .mtileLd f =>
    let l := layoutOf (dreg p.desc 0)
    [⟨p.id, tm, l.off, l.span (mtileBytes f.toNat), false⟩]

/-- What one part of a press operation reads and writes (R275, R276): of a gang its own A and the issuer's B. -/
def PressOp.resvOf (p : PressOp) (q : Part) : List Resv :=
  match p.kind with
  | .gang .. =>
    let d := pressDesc p.desc
    let of_ (team : Nat) (rs : List (Nat × Nat)) : List Resv := rs.map (fun r => ⟨p.id, team, r.1, r.2, false⟩)
    of_ q.team (rangesA d) ++ (p.parts.filter (fun x => x.thread == p.issuer)).flatMap (fun x => of_ x.team (rangesB d))
  | _ => p.resv

/-- Team whose window a galley destination of a copy names. -/
def State.cpyTeam (s : State) (c : Cpy) : Option Team := s.windowOf c.gang c.team (cpyDesc c.desc).dst

/-- Reservations of a copy: its galley destination (R311). -/
def State.cpyResv (s : State) (c : Cpy) : List Resv :=
  let d := cpyDesc c.desc
  if d.dsp != 1 || c.replay.isSome then []
  else match s.cpyTeam c with
    | some tm => d.destRanges.map (fun r => ⟨c.id, tm.id, r.1, r.2, true⟩)
    | none => []

/-- Every reservation now held. -/
def State.resvs (s : State) : List Resv :=
  s.pressOps.flatMap PressOp.resv ++ s.cpys.flatMap s.cpyResv

/-- Whether a group's load or store of a range must wait (R274). -/
def State.reserved (s : State) (team lo len : Nat) : Bool :=
  s.resvs.any (fun r => r.meets team lo len)

/-- Whether an engine's use of its ranges must wait for a reservation taken before its own: a read for
writers, a write for readers and writers (R274). -/
def State.engineWaits (s : State) (mine : List Resv) : Bool :=
  !mine.isEmpty && s.resvs.any (fun r => mine.any (fun m =>
    r.id < m.id && (m.write || r.write) && r.meets m.team m.lo m.len))

end Sys2Proof.Machine
end

