-- ==== Sys2Proof/Machine/Access.lean ====
section
/-! DEFINITION. A memory instruction's addresses (R150 to R152), their translation, and the outcomes
decided over all its active lanes (R124): traps, faulted and blocked lanes, and what is performed. -/

namespace Sys2Proof.Machine

/-! ## Modifiers and addresses -/

/-- What MMOD, or without it MEMDEF, gives an access (R151, R152). -/
structure Mods where
  ord : Nat
  scope : Nat
  space : Nat
  cache : Nat
  det : Bool
  deriving DecidableEq, Repr

/-- MEMDEF of the present agent: a group's latched copy, and for a proctor lane that of slot 0. -/
def State.memdefHere (s : State) : W32 :=
  match s.cur with
  | .thread id => match s.thread? id with | some t => t.memdef | none => 0
  | .proctor _ => match s.ctx? 0x1000 with | some c => c.memdef | none => 0x20

/-- The modifiers of an access. -/
def State.mods (s : State) (h : Hdr) : Mods :=
  match h.mmod with
  | some p => ⟨p.ord.toNat, p.scope.toNat, p.space.toNat, p.cache.toNat, p.det⟩
  | none =>
    let m := s.memdefHere.toNat
    ⟨0, bits m 3 3, bits m 6 2, bits m 9 3, bit m 8⟩

/-- Address of lane l (R150): base register, index register and access size. -/
def Thread.laneAddr (t : Thread) (h : Hdr) (b x size l : Nat) : Nat :=
  let (noidx, sc1, _, _, off) := memxOf h
  let idx : Int := if noidx then 0
    else (t.vreg x l).toInt * (if sc1 then (1 : Int) else (size : Int))
  wrap 64 (((t.sreg b).toNat : Int) + idx + off)

/-- Address of a uniform access (R150). -/
def State.uniAddr (s : State) (h : Hdr) (b : Nat) : Nat :=
  wrap 64 (((s.sreg b).toNat : Int) + (memxOf h).2.2.2.2)

/-- Lanes and addresses of a vector access (R139, R150). -/
def Thread.requests (t : Thread) (h : Hdr) (b x size : Nat) : List (Nat × Nat) :=
  (lanesOf (active t h)).map (fun l => (l, t.laneAddr h b x size l))

/-! ## Translation of an access -/

/-- A lane that may perform its access: its number, address, physical address, key slot and
cacheability. -/
structure OkLane where
  lane : Nat
  va : Nat
  pa : Nat
  key : Nat
  mt : Nat
  deriving DecidableEq, Repr

/-- Acquire time of the present agent (R328); a proctor lane keeps none. -/
def State.acqHere (s : State) : Nat :=
  match s.cur with
  | .thread id => match s.thread? id with | some t => t.acq | none => 0
  | .proctor _ => 0

/-- Translation of an address of a context by the present agent (R114 to R117); a write that is held stays blocked
(R128). -/
def State.transFor (s : State) (ctx : W32) (space va kind : Nat) : Trans :=
  if space == 2 then s.physical va
  else if writes kind && s.isHeld s.self ctx va then .blocked
  else s.translate s.here ctx s.supHere va kind

/-- Translation of an address in a space. -/
def State.transIn (s : State) (space va kind : Nat) : Trans := s.transFor s.ctxHere space va kind

/-- A trap of some lanes, at the address of the lowest. -/
def State.trapLanes (s : State) (h : Hdr) (vector cause : Nat) (ls : List (Nat × Nat)) : State :=
  match ls with
  | [] => s
  | (_, a) :: _ => s.trapAt h ⟨vector, cause, maskOf (fun l => ls.any (fun r => r.1 == l)), a, 0⟩

/-- Walks for the addresses that miss (R126). -/
def State.walkFor (s : State) (vas : List Nat) (kind : Nat) : State :=
  vas.foldl (fun s va => s.startWalk s.here s.ctxHere s.supHere va kind) s

/-- Walks that ended in faults which are now reported. -/
def State.reported (s : State) (vas : List Nat) : State := s.endWalks s.here s.ctxHere vas

/-- Pages of some lanes, each once, in lane order. -/
def pagesOf (ls : List (Nat × Nat × Nat)) : List Nat := dedup (ls.map (fun r => pageBase 0 r.2.1))

/-- Page-fault records of an instruction, one for each distinct faulting page (R358, R366): lanes with
their addresses and causes. -/
def faultPosts (t : Thread) (kind space : Nat) (ls : List (Nat × Nat × Nat)) : List Post :=
  (pagesOf ls).map (fun p =>
    let mine := ls.filter (fun r => pageBase 0 r.2.1 == p)
    let (va, c) := match mine with | r :: _ => r.2 | [] => (0, 0)
    pageFaultPost t va c kind space 0 (maskOf (fun l => mine.any (fun r => r.1 == l))) t.pc)

/-- Line requests counted (R129): each line of each page once, in lane order. -/
def State.countLanes (s : State) (ls : List OkLane) : State :=
  let vas := dedup (ls.map (fun l => lineOf l.va))
  vas.foldl (fun s va => s.countAccess s.here s.ctxHere va) s

/-- What stops the lanes that could perform: a faulted proof, a store into a proof region, or a
poisoned line (R300, R324, R328, R329). -/
inductive Stop where
  | go
  | wait
  | trap (vector cause : Nat) (lanes : List (Nat × Nat))
  deriving DecidableEq, Repr

/-- Lanes whose line is poisoned with a cause (R374). -/
def State.poisonLanes (s : State) (ls : List OkLane) (c : Nat) : List OkLane :=
  ls.filter (fun l => Sparse.get s.memPoison 0 (lineOf l.pa) == c)

/-- Lanes as numbers and addresses. -/
def addrsOf (ls : List OkLane) : List (Nat × Nat) := ls.map (fun l => (l.lane, l.va))

/-- The checks of lanes that are translated; `rd` says that the access returns what it reads. -/
def State.stopOf (s : State) (space kind size : Nat) (rd : Bool) (ls : List OkLane) : Stop :=
  let ctx := s.ctxHere
  let inProof (l : OkLane) : Bool := space == 0 && (s.proofAt ctx l.va size).isSome
  let read (l : OkLane) : ProofRead :=
    if space == 0 then s.proofRead ctx l.va size s.acqHere else .go
  if kind == accWrite || kind == accAtomic then
    let bad := ls.filter inProof
    if !bad.isEmpty then .trap vProof 0x61 (addrsOf bad)
    else if rd then poison s ls else .go
  else
    let bad := ls.filter (fun l => read l == .fault)
    if !bad.isEmpty then .trap vProof 0x60 (addrsOf bad)
    else if ls.any (fun l => read l == .wait) then .wait
    else poison s ls
where
  poison (s : State) (ls : List OkLane) : Stop :=
    match ls.filter (fun l => Sparse.get s.memPoison 0 (lineOf l.pa) != 0) with
    | [] => .go
    | x :: _ =>
      let c := Sparse.get s.memPoison 0 (lineOf x.pa)
      .trap vSoftError c (addrsOf (s.poisonLanes ls c))

/-- The present agent's writes to these pages of a context are blocked (R128). -/
def State.holdAll (s : State) (ctx : W32) (vas : List Nat) : State := vas.foldl (fun s a => s.hold s.self ctx a) s

/-- A group with lanes that faulted or are blocked, the latter with their addresses, parks after the others have
performed (R124): on its records, and until its blocked lanes are released. -/
def State.parkFaulted (s : State) (h : Hdr) (ctx : W32) (faulted : Mask) (blocked : List (Nat × Nat)) : State :=
  (s.holdAll ctx (blocked.map (·.2))).withThread (fun t =>
    let t := { t with only := some (faulted ||| maskOf (fun l => blocked.any (fun r => r.1 == l))) }
    (s.holdAll ctx (blocked.map (·.2))).setThread
      (if faulted == 0 then { t with park := .blocked } else t.parkRecords (nextPc t.pc h)))

/-- An access in memory (R124): the outcome over all its lanes. What the lanes that may perform do is
`perform`, none where they must wait; `fin` is what follows when no lane faulted or is blocked. -/
def State.access (s : State) (h : Hdr) (space kind size : Nat) (rd : Bool) (reqs : List (Nat × Nat))
    (perform : State → List OkLane → Option State) (fin : State → State) : State :=
  let bad := reqs.filter (fun r => r.2 % size != 0)
  if !bad.isEmpty then s.trapLanes h vMisalign 0x08 bad
  else
    let rs := reqs.map (fun r => (r.1, r.2, s.transIn space r.2 kind))
    let wait := rs.filterMap (fun (r : Nat × Nat × Trans) =>
      match r.2.2 with | .wait => some r.2.1 | _ => none)
    if !wait.isEmpty then (s.walkFor wait kind).poll
    else
      let prot := rs.filterMap (fun (r : Nat × Nat × Trans) =>
        match r.2.2 with | .prot c => some (r.1, r.2.1, c) | _ => none)
      match prot with
      | (_, _, c) :: _ =>
        (s.reported (reqs.map (·.2))).trapLanes h vProtection c (prot.map (fun r => (r.1, r.2.1)))
      | [] =>
        let faults := rs.filterMap (fun (r : Nat × Nat × Trans) =>
          match r.2.2 with | .page c => some (r.1, r.2.1, c) | _ => none)
        let oks := rs.filterMap (fun (r : Nat × Nat × Trans) =>
          match r.2.2 with | .ok pa key mt => some (OkLane.mk r.1 r.2.1 pa key mt) | _ => none)
        let blocked := rs.filterMap (fun (r : Nat × Nat × Trans) =>
          if r.2.2 == .blocked then some (r.1, r.2.1) else none)
        let faulted := maskOf (fun l => faults.any (fun r => r.1 == l))
        match s.stopOf space kind size rd oks with
        | .trap v c ls => s.trapLanes h v c ls
        | .wait => s.poll
        | .go =>
          let posted : Option State := match s.cur with
            | .thread id =>
              match s.thread? id with
              | some t => s.postAll t.core (faultPosts t kind space faults)
              | none => none
            | .proctor _ => some s
          match posted with
          | none => s.poll
          | some s' =>
            match s.cur, faults with
            | .proctor c, (_, va, x) :: _ =>
              (s'.reported [va]).trapProctor c vPageFault x va s.pc false
            | _, _ =>
              match perform s' oks with
              | none => s.poll
              | some s' =>
                let s' := (if space == 0 then s'.countLanes oks else s').reported (faults.map (·.2.1))
                if faulted == 0 && blocked.isEmpty then fin s'
                else match s.cur with
                  | .thread _ => s'.parkFaulted h s.ctxHere faulted blocked
                  | .proctor _ => (s.holdAll s.ctxHere (blocked.map (·.2))).poll

/-! ## The galley -/

/-- A galley lane: number, window address, team and offset. -/
structure GalLane where
  lane : Nat
  va : Nat
  team : Team
  off : Nat
  deriving DecidableEq, Repr

/-- An access in the galley (R116, R124, R274): `perform` acts at the bank, once nothing is reserved.
On a proctor lane it raises cause 0x06 (R197). -/
def State.galAccess (s : State) (h : Hdr) (size : Nat) (reads : Bool) (reqs : List (Nat × Nat))
    (perform : State → List GalLane → State) : State :=
  match s.cur with
  | .proctor _ => s.trap h vIllegal 0x06
  | .thread _ =>
    s.withThread (fun t =>
      let bad := reqs.filter (fun r => r.2 % size != 0)
      if !bad.isEmpty then s.trapLanes h vMisalign 0x08 bad
      else
        let out := reqs.filter (fun r => (s.galleyAt t.gang t.team r.2 size).isNone)
        if !out.isEmpty then s.trapLanes h vGalley 0x0A out
        else
          let ls := reqs.filterMap (fun r => (s.galleyAt t.gang t.team r.2 size).map (fun p =>
            GalLane.mk r.1 r.2 p.1 p.2))
          if ls.any (fun l => s.reserved l.team.id l.off size) then s.poll
          else
            let bad := if reads then ls.filter (fun l => s.galPoisoned l.team l.off size) else []
            if !bad.isEmpty then s.trapLanes h vSoftError 0x91 (bad.map (fun l => (l.lane, l.va)))
            else perform s ls)

/-- Writes of the present agent in a galley are visible now: every LCT covers them (R336, R341). -/
def State.galVisible (s : State) : State := s.raiseLct [s.self] (Lct.all s.time)

/-! ## Runs of bytes at virtual addresses -/

/-- The pages of a run of bytes. -/
def pagesIn (va len : Nat) : List Nat :=
  if len == 0 then []
  else (List.range ((va + len - 1) / 4096 - va / 4096 + 1)).map (fun i => max va ((va / 4096 + i) * 4096))

/-- The part of a run of bytes that lies in one page: its address and length, and where it lies. -/
structure Span where
  va : Nat
  len : Nat
  pa : Nat
  key : Nat
  mt : Nat
  deriving DecidableEq, Repr

/-- A run of bytes at a virtual address of a context, read or written as one lane (R124): its pages are
translated, and then `k` gets each page's part. -/
def State.runAccessIn (s : State) (h : Hdr) (ctx : W32) (space kind va len : Nat)
    (k : State → List Span → State) : State :=
  let ps := pagesIn va len
  let rs := ps.map (fun a =>
    (a, s.transFor ctx space a kind))
  let wait := rs.filterMap (fun (r : Nat × Trans) => match r.2 with | .wait => some r.1 | _ => none)
  let told (s : State) : State := s.endWalks s.here ctx ps
  if !wait.isEmpty then
    (wait.foldl (fun (s : State) a => s.startWalk s.here ctx s.supHere a kind) s).poll
  else
    match (rs.filterMap (fun (r : Nat × Trans) => match r.2 with | .prot c => some (r.1, c) | _ => none)) with
    | (a, c) :: _ => (told s).trapAt h ⟨vProtection, c, 1, a, 0⟩
    | [] =>
      let faults := rs.filterMap (fun (r : Nat × Trans) =>
        match r.2 with | .page c => some (0, r.1, c) | _ => none)
      match faults with
      | (_, a, c) :: _ =>
        match s.cur with
        | .proctor p => (told s).trapProctor p vPageFault c a s.pc false
        | .thread _ =>
          s.withThread (fun t =>
            match s.postAll t.core (faultPosts t kind space faults) with
            | none => s.poll
            | some s => (told s).parkFaulted h ctx 1 [])
      | [] =>
        let blocked := rs.filterMap (fun (r : Nat × Trans) => if r.2 == .blocked then some (0, r.1) else none)
        if !blocked.isEmpty then
          match s.cur with
          | .thread _ => s.parkFaulted h ctx 0 blocked
          | .proctor _ => (s.holdAll ctx (blocked.map (·.2))).poll
        else
          k s (rs.filterMap (fun (r : Nat × Trans) =>
            match r.2 with
            | .ok pa key mt => some (Span.mk r.1 (min (va + len) ((r.1 / 4096 + 1) * 4096) - r.1) pa key mt)
            | _ => none))

/-- A run of bytes in the present agent's own context. -/
def State.runAccess (s : State) (h : Hdr) (space kind va len : Nat)
    (k : State → List Span → State) : State :=
  s.runAccessIn h s.ctxHere space kind va len k

/-- Lines of the parts of a run. -/
def partLines (ps : List Span) : List Nat :=
  ps.flatMap (fun p => linesOfRange p.pa p.len)

/-- Lowest poison cause of the lines of a run, 0 for none. -/
def State.runPoison (s : State) (ps : List Span) : Nat :=
  ((partLines ps).filterMap (fun l =>
    let c := Sparse.get s.memPoison 0 l
    if c == 0 then none else some c)).headD 0

/-- The bytes of a run, as the present agent reads them. -/
def State.runBytes (s : State) (ps : List Span) : List Byte :=
  let hists := s.histsOf [s.self]
  ps.flatMap (fun p => (List.range p.len).flatMap (fun i => s.readAt s.here hists (p.pa + i) p.key p.mt 1))

/-- Buffered lines of a run are recalled, and leased copies fetched, before it is read; whether it can
be read now (R296, R337). -/
def State.runReady (s : State) (ps : List Span) : State × Bool :=
  let core := s.here
  let ls := ps.flatMap (fun p => (linesOfRange p.pa p.len).map (fun l => (l, p.mt)))
  let lack (s : State) (l : Nat × Nat) : Bool := needsLease core l.1 l.2 0 && (s.leaseFor core l.1).isNone
  let s := ls.foldl (fun (s : State) l =>
    let s := s.recall l.1
    if lack s l && !s.owned l.1 then (s.fill core l.1 0 true 0 []).getD s else s) s
  (s, ls.all (fun l =>
    !s.buffered l.1 && (!s.owned l.1 || (l.2 == 0 && (s.leaseFor core l.1).isSome)) && !lack s l
      && !s.flight.any (fun w => w.line == l.1 && w.hists.contains s.self)))

end Sys2Proof.Machine
end

