-- ==== Sys2Proof/Machine/Proofs.lean ====
section
/-! DEFINITION. PREG, PDROP and PSTAMP (R323, R331), with proof declarations (R45). -/

namespace Sys2Proof.Machine

/-! ## Declarations -/

/-- What an engine's read of a run of bytes of a context gives. -/
inductive EngineRead where
  | ok (bytes : List Byte)
  | bad (va : Nat) (t : Trans)
  | wait
  deriving DecidableEq, Repr

/-- A run of bytes read for a context by the device itself on a core's die; it waits for lines that a copy owns
(R314) and for buffered reductions (R296). -/
def State.engineRead (s : State) (core : Nat) (ctx : W32) (sup : Bool) (va len : Nat) :
    State × EngineRead :=
  (pagesIn va len).foldl (fun (x : State × EngineRead) a =>
    match x.2 with
    | .ok bs =>
      let (s, r) := x.1.engineTrans core ctx sup a accRead
      match r with
      | .ok pa key _ =>
        let n := min (va + len) ((a / 4096 + 1) * 4096) - a
        let ls := linesOfRange pa n
        let s := ls.foldl State.recall s
        if ls.any (fun l => s.owned l || s.buffered l) then (s, .wait) else (s, .ok (bs ++ s.load pa key n))
      | .wait => (s, .wait)
      | r => (s, .bad a r)
    | _ => x) (s, .ok [])

/-- A proof declaration (R45). -/
structure Decl where
  master : Nat
  fmt : Nat
  stale : Bool
  sr : Bool
  masterArg : Nat
  baseArg : Nat
  rows : Nat
  cols : Nat
  seed : W64
  deriving DecidableEq, Repr

/-- The fields of a declaration. -/
def declOf (b : List Byte) : Decl :=
  let at_ (o n : Nat) : Nat := leNat ((b.drop o).take n)
  { master := at_ 0 1, fmt := at_ 1 1, stale := at_ 2 1 == 1, sr := at_ 3 1 == 1, masterArg := at_ 4 4
    baseArg := at_ 8 4, rows := at_ 12 4, cols := at_ 16 4, seed := BitVec.ofNat 64 (at_ 24 8) }

/-- A malformed declaration, for an argument block of a size (R45, R323). -/
def declMalformed (b : List Byte) (argSize : Nat) : Bool :=
  let at_ (o n : Nat) : Nat := leNat ((b.drop o).take n)
  let d := declOf b
  2 < d.master || 6 < d.fmt || 1 < at_ 2 1 || 1 < at_ 3 1 || d.masterArg % 8 != 0 || d.baseArg % 8 != 0
    || argSize < d.masterArg + 8 || argSize < d.baseArg + 8 || d.rows == 0 || d.cols == 0
    || d.cols % (if d.fmt == 6 then 24 else 32) != 0 || at_ 20 4 != 0

/-- Status word of a code (R323). -/
def codeWord (c low : Nat) : W64 := BitVec.ofNat 64 (c * 2 ^ 56 + low)

/-! ## Registration -/

/-- What a check over pages found: whether one fails, or waits; else each page and its frame. -/
structure PageCheck where
  bad : Bool
  wait : Bool
  frames : List (Nat × Nat)
  deriving DecidableEq, Repr

/-- Every page of a range is usable by the engine for some accesses: mapped, permitted, normal memory
homed on this device (R323). -/
def State.pagesUsable (s : State) (core : Nat) (ctx : W32) (sup : Bool) (va len : Nat) (kinds : List Nat) :
    State × PageCheck :=
  (pagesIn va len).foldl (fun (x : State × PageCheck) a =>
    kinds.foldl (fun (x : State × PageCheck) k =>
      if x.2.bad || x.2.wait then x
      else
        let (s, r) := x.1.checkTrans core ctx sup a k
        match r with
        | .ok pa _ mt => (s, ⟨!(mt == 0 && homedHere pa), false, put x.2.frames (pageBase 0 a) (pageBase 0 pa)⟩)
        | .wait => (s, ⟨false, true, []⟩)
        | _ => (s, ⟨true, false, []⟩)) x) (s, ⟨false, false, []⟩)

/-- Whether two ranges have a byte in common. -/
def rangesMeet (a la b lb : Nat) : Bool := a < b + lb && b < a + la

/-- Whether a range meets a master or a proof region of a context (R323, code 0x05). -/
def State.meetsProof (s : State) (ctx : W32) (va len : Nat) : Bool :=
  s.proofs.any (fun p => p.ctx == ctx &&
    (rangesMeet va len p.master p.masterSize || rangesMeet va len p.base p.size))

/-- The lowest proof number that a context does not use. -/
def State.freeProof (s : State) (ctx : W32) : Option Nat :=
  firstBelow 64 (fun n => !s.proofs.any (fun p => p.ctx == ctx && p.num == n))

/-- Pages that a region of a proof overlaps: base and count. -/
def Proof.pageRange (p : Proof) : Nat × Nat :=
  let b := p.base / 4096 * 4096
  (b, (p.base + p.size - 1) / 4096 - b / 4096 + 1)

/-- A shootdown of a proof's region on a die, for which the present group parks with its status. -/
def State.proofShoot (s : State) (h : Hdr) (p : Proof) (d : Nat) (status : W64) : State :=
  let die := dieOf s.here
  let (b, n) := p.pageRange
  let s := s.shoot die p.ctx false b n
  let seq := (s.die die).shootAcc
  s.withThread (fun t =>
    s.setThread { t with park := .shootdown d die seq status, after := nextPc t.pc h })

/-- Whether a die's shootdown queue has room (R132). -/
def State.shootRoom (s : State) : Bool := (s.die (dieOf s.here)).shootQ.length < shootQueue

/-- The proof that a declaration describes. -/
def proofOf (t : Thread) (d : Decl) (id num die now master base : Nat) (frames : List (Nat × Nat)) : Proof :=
  { id := id, ctx := t.ctx, num := num, die := die, masterFmt := d.master, fmt := d.fmt
    stale := d.stale, sr := d.sr, seed := d.seed, master := master, base := base, rows := d.rows
    cols := d.cols, regT := now, sup := t.sup, triggers := [], frames := frames, frontier := 0, faulted := none
    stamps := [] }

/-- A registration's checks of its addresses, and what a success does (R323). -/
def State.register (s : State) (h : Hdr) (t : Thread) (d : Nat) (dc : Decl) (master base : Nat) : State :=
  let done (s : State) (c : Nat) : State := ((s.endChecks t.core t.ctx).setSreg d (codeWord c 0)).advance h
  let p := proofOf t dc 0 0 0 s.time master base []
  match s.freeProof t.ctx with
  | none => done s 0x02
  | some num =>
    if 4 ≤ (s.proofs.filter (fun q => q.ctx == t.ctx && q.master == master)).length then done s 0x03
    else if master % 128 != 0 then done s 0x04
    else
      let (s, m) := s.pagesUsable t.core t.ctx t.sup master p.masterSize [accRead, accWrite]
      if m.wait then s.poll
      else if m.bad then done s 0x04
      else if base % 128 != 0 || rangesMeet base p.size master p.masterSize
          || s.meetsProof t.ctx base p.size then done s 0x05
      else
        let (s, r) := s.pagesUsable t.core t.ctx t.sup base p.size [accWrite]
        if r.wait then s.poll
        else if r.bad then done s 0x05
        else if !s.shootRoom then s.poll
        else
          let (id, s) := (s.endChecks t.core t.ctx).newId
          let p := proofOf t dc id num (homeDie ((lookup m.frames (pageBase 0 master)).getD 0)) s.time master base
            m.frames
          let s : State := { s with proofs := s.proofs ++ [p] }
          (s.trigger p (List.range p.blocks) s.time).proofShoot h p d (codeWord 0 num)

/-- PREG (R323). Registers a proof from a declaration. -/
def execPreg (h : Hdr) (d : BitVec 7) (a : BitVec 7) (s : State) : Host.Outcome State Fault Refusal :=
  run (.preg h d a) s (fun s => s.withThread (fun t =>
    let bad (s : State) : State := (s.setSreg d.toNat (codeWord 0x01 0)).advance h
    let idx := (t.sreg a.toNat).toNat
    match s.launch? t.launch with
    | none => bad s
    | some l =>
      if idx / 2 ^ 16 != 0 then bad s
      else
        match s.engineRead t.core t.ctx t.sup l.codeVa 32 with
        | (s, .wait) => s.poll
        | (s, .bad _ _) => bad s
        | (s, .ok hd) =>
          if leNat ((hd.drop 26).take 2) ≤ idx then bad s
          else
            match s.engineRead t.core t.ctx t.sup
                (l.codeVa + leNat ((hd.drop 28).take 4) + 32 * idx) 32 with
            | (s, .wait) => s.poll
            | (s, .bad _ _) => bad s
            | (s, .ok b) =>
              if declMalformed b l.kd.argSize then bad s
              else
                let dc := declOf b
                let arg (o : Nat) : Nat := s.loadNat (argPa l.ident + o) (slotOfCtx l.ctx) 8
                s.register h t d.toNat dc (arg dc.masterArg) (arg dc.baseArg)))

/-- PDROP (R331). Drops a proof and returns its region to ordinary memory. -/
def execPdrop (h : Hdr) (d : BitVec 7) (a : BitVec 7) (s : State) : Host.Outcome State Fault Refusal :=
  run (.pdrop h d a) s (fun s => s.withThread (fun t =>
    let n := (t.sreg a.toNat).toNat
    match s.proofs.find? (fun p => p.ctx == t.ctx && p.num == n && n < 64) with
    | none => (s.setSreg d.toNat (codeWord 0x01 0)).advance h
    | some p =>
      if !s.shootRoom then s.poll
      else
        (({ s with proofs := s.proofs.filter (fun q => q.id != p.id) } : State).unhold p.id).proofShoot h p d.toNat 0))

/-- PSTAMP (R331). Reads the stamp of the proof block holding an address. -/
def execPstamp (h : Hdr) (d : BitVec 7) (a : BitVec 7) (s : State) : Host.Outcome State Fault Refusal :=
  run (.pstamp h d a) s (fun s => s.withThread (fun t =>
    let va := (t.sreg a.toNat).toNat
    match s.proofAt t.ctx va 1 with
    | none => (s.setSreg d.toNat (BitVec.allOnes 64)).advance h
    | some p =>
      if p.faulted.isSome then s.trapAddr h vProof 0x60 va
      else
        let v := match p.blockAt (va - p.base) with | some b => p.stamp b | none => 0
        (s.setSreg d.toNat (BitVec.ofNat 64 v)).advance h))

end Sys2Proof.Machine
end

