-- ==== Sys2Proof/Machine/CopyData.lean ====
section
/-! DEFINITION. What a copy moves (R307, R308, R317): the checks of its descriptor (R311), its
destination units, the source cells each unit needs, and the bytes it writes. -/

namespace Sys2Proof.Machine

/-! ## The checks of a descriptor -/

/-- Formats with sparse lines (R307). -/
def sparseFmt (ef : Nat) : Bool := ef == 1 || (6 ≤ ef && ef ≤ 10)

/-- A reserved element format (R307). -/
def reservedFmt (ef : Nat) : Bool := ef == 0x0F || 0x15 ≤ ef

/-- Bytes from DST to the end of the last destination row, or of the last slab (R311). -/
def CpyDesc.extent (d : CpyDesc) : Nat :=
  if d.rb then d.slabBytes else (d.outRows - 1) * d.dstride + d.rowBytes

/-- Bytes of a source row (R68, R71, R307). -/
def CpyDesc.srcRow (d : CpyDesc) : Nat :=
  if d.ef == 3 then ceilDiv d.cols 192 * 128
  else if d.sp then ceilDiv d.cols (if elemBits d.ef == 8 then 192 else 96) * 128
  else ceilDiv (d.cols * d.elemAt d.ssp) 8

/-- Sort and scale arrays are written (R308). -/
def CpyDesc.arrays (d : CpyDesc) : Bool := d.ef == 3 && d.rb

/-- A bit of the captured registers that R306 does not list. -/
def unlistedBits (r : List W64) : Bool :=
  let d := cpyDesc r
  let x := dreg r
  bits (x 2) 48 16 != 0 || bits (x 2) 24 8 != 0 || bits (x 3) 40 24 != 0 || bits (x 4) 40 24 != 0
    || bits (x 5) 60 4 != 0 || bits (x 5) 44 4 != 0 || bits (x 5) 14 17 != 0
    || (!d.ga && !d.arrays && d.idx != 0)
    || (d.arrays && (bits d.idx 55 9 != 0 || bits d.idx 23 9 != 0))

/-- A descriptor that raises cause 0x06 (R311, step 2). -/
def cpyMalformed (r : List W64) : Bool :=
  let d := cpyDesc r
  let off := d.dst % 2 ^ 23
  let pc := d.outCols
  unlistedBits r || d.rows == 0 || d.cols == 0 || d.ssp == 3 || d.dsp == 3 || reservedFmt d.ef
    || (d.rb && 0x10 ≤ d.ef) || (d.sp && !(sparseFmt d.ef && d.rb)) || (d.cj && d.ef != 0x0E)
    || (d.ef == 3 && (!d.rb || d.ssp == 1 || d.ga))
    || (d.rb && (d.dsp != 1 || d.dstride != 0 || (d.tr && (d.sp || d.ef == 3)) || 128 < d.outRows
      || pc % (if d.sp then 16 else 8) != 0
      || (2 ≤ d.ef && d.ef ≤ 8 && pc % (if d.ef == 3 then 24 else 32) != 0)))
    || (!d.rb && d.dstride < d.rowBytes)
    || (d.ben && (d.dsp != 1 || (d.bar < off + d.extent && off < d.bar + 8)))
    || (!d.ben && d.bar != 0)

/-- The first misaligned address, stride or offset (R311, step 4). -/
def cpyMisaligned (d : CpyDesc) : Option Nat :=
  let e := max 1 (elemBits d.ef / 8)
  let xs : List (Nat × Nat) :=
    [(d.src, e), (d.dst, e), (d.sstride, e), (d.dstride, e)]
      ++ (if d.rb then [(d.dst % 2 ^ 23, 128)] else []) ++ (if d.ga then [(d.idx, 4)] else [])
      ++ [(d.bar, 8)] ++ (if d.arrays then [(d.sclOff, 128), (d.srtOff, 128)] else [])
  (xs.find? (fun x => x.1 % x.2 != 0)).map (fun x => x.1)

/-! ## Destination units -/

/-- A part of the destination inside one line: bytes of a row, a plane of a slab, or a block column of
the scale or the sort array. -/
inductive CopyUnit where
  | row (i lo len : Nat)
  | plane (c q : Nat)
  | scale (q : Nat)
  | sort (q : Nat)
  deriving DecidableEq, Repr

/-- Planes of a slab (R260, R263). -/
def CpyDesc.planes (d : CpyDesc) : Nat := pressP d.ef + (if d.sp then 2 else 0)

/-- Address of row i of the destination: in its space, or as an offset in its window. -/
def CpyDesc.rowAddr (d : CpyDesc) (i : Nat) : Nat :=
  if d.dsp == 1 then d.dst % 2 ^ 23 + i * d.dstride else (d.dst + i * d.dstride) % 2 ^ 64

/-- The destination, unit by unit. -/
def CpyDesc.units (d : CpyDesc) : List CopyUnit :=
  if d.rb then
    (List.range (d.outCols / (if d.sp then 16 else 8))).flatMap (fun c =>
        (List.range d.planes).map (CopyUnit.plane c))
      ++ (if d.arrays then
          (List.range (d.outCols / 24)).map CopyUnit.scale
            ++ (List.range (d.outCols / 24)).map CopyUnit.sort
        else [])
  else
    (List.range d.outRows).flatMap (fun i =>
      let a := d.rowAddr i
      (linesOfRange a d.rowBytes).map (fun l =>
        let lo := max a l
        CopyUnit.row i (lo - a) (min (a + d.rowBytes) (l + 128) - lo)))

/-- Address and length of a unit. -/
def CpyDesc.unitAt (d : CpyDesc) (u : CopyUnit) : Nat × Nat :=
  match u with
  | .row i lo len => (d.rowAddr i + lo, len)
  | .plane c q => (d.dst % 2 ^ 23 + (c * d.planes + q) * 128, 128)
  | .scale q => (d.sclOff + 128 * q, 128)
  | .sort q => (d.srtOff + 128 * q, 128)

/-- Galley sectors that a unit touches (R317). -/
def CpyDesc.sectors (d : CpyDesc) (u : CopyUnit) : List Nat :=
  let (a, n) := d.unitAt u
  if n == 0 then [] else (List.range ((a + n - 1) / 32 - a / 32 + 1)).map (fun i => a / 32 + i)

/-- Sectors whose last byte a unit writes: those that no unit still to be written touches; columns of the
scale and the sort array count for themselves (R317). -/
def CpyDesc.sectorsDone (d : CpyDesc) (u : CopyUnit) (others : List CopyUnit) : Nat :=
  let rest := match u with
    | .row .. => others.flatMap d.sectors
    | _ => []
  ((d.sectors u).filter (fun x => !rest.contains x)).length

/-- Sectors of a whole copy (R317). -/
def CpyDesc.allSectors (d : CpyDesc) : Nat :=
  let us := d.units
  match us with
  | .row .. :: _ => (dedup (us.flatMap d.sectors)).length
  | _ => (us.map (fun u => (d.sectors u).length)).sum

/-! ## Source cells -/

/-- Bits of a source element that one cell reads, as a byte range of its row (R307). -/
def CpyDesc.cellRange (d : CpyDesc) (j : Nat) : Nat × Nat :=
  if d.ef == 3 then (j / 192 * 128 + 16 + j % 192 / 24 * 12 + j % 24 / 2, 1)
  else
    let b := d.elemAt d.ssp
    (b * j / 8, (b * j + b - 1) / 8 - b * j / 8 + 1)

/-- Source row and column of element (i, j) of D (R308). -/
def CpyDesc.source (d : CpyDesc) (i j : Nat) : Nat × Nat := if d.tr then (j, i) else (i, j)

/-- Whether D has an element (R308). -/
def CpyDesc.inD (d : CpyDesc) (i j : Nat) : Bool := i < d.shape.1 && j < d.shape.2

/-- Kept values of a sparse line (R71). -/
def CpyDesc.kept (d : CpyDesc) : Nat := if elemBits d.ef == 8 then 96 else 48

/-- Header byte and value bytes of kept value number n of a sparse row (R71). -/
def CpyDesc.keptRanges (d : CpyDesc) (n : Nat) : List (Nat × Nat) :=
  let line := n / d.kept * 128
  let k := n % d.kept
  let w := elemBits d.ef / 8
  [(line + k / 4, 1), (line + 32 + w * k, w)]

/-- Elements of a row that bytes lo to lo + len − 1 of a destination row hold. -/
def CpyDesc.columns (d : CpyDesc) (lo len : Nat) : List Nat :=
  let b := d.elemAt d.dsp
  (List.range ((8 * (lo + len) - 1) / b - 8 * lo / b + 1)).map (fun i => 8 * lo / b + i)

/-- Source bytes that a unit needs: row, offset in the row, length. -/
def CpyDesc.needs (d : CpyDesc) (u : CopyUnit) : List (Nat × Nat × Nat) :=
  let cell (i j : Nat) : List (Nat × Nat × Nat) :=
    if d.inD i j then
      let (r, c) := d.source i j
      let (o, n) := d.cellRange c
      [(r, o, n)]
    else []
  let rows := List.range (min d.outRows d.shape.1)
  match u with
  | .row i lo len => ((d.columns lo len).filter (· < d.outCols)).flatMap (cell i)
  | .plane c _ =>
    if d.sp then
      rows.flatMap (fun r => (List.range 8).flatMap (fun h =>
        if (8 * c + h) / 2 * 4 < d.cols then
          (d.keptRanges (8 * c + h)).map (fun x => (r, x.1, x.2))
        else []))
    else rows.flatMap (fun r => (List.range 8).flatMap (fun h => cell r (8 * c + h)))
  | .scale q => if 24 * q < d.cols then rows.map (fun r => (r, q / 8 * 128 + q % 8, 1)) else []
  | .sort q => if 24 * q < d.cols then rows.map (fun r => (r, q / 8 * 128 + 8 + q % 8, 1)) else []

/-! ## Bytes written -/

/-- A little-endian number of source bytes, through a byte reader of a row. -/
def readRun (f : Nat → Byte) (o n : Nat) : Nat := leNat ((List.range n).map (fun k => f (o + k)))

/-- Element (i, j) of the destination, through a reader of source bytes (R308): padding is zero, and of a galley byte of
6 bits its bits 7:6 are not read (R70). -/
def CpyDesc.elem (d : CpyDesc) (f : Nat → Nat → Byte) (i j : Nat) : Nat :=
  if d.inD i j then
    let (r, c) := d.source i j
    let (o, n) := d.cellRange c
    let x :=
      if d.ef == 3 then bits (readRun (f r) o 1) (c % 24 % 2 * 4) 4
      else
        let b := d.elemAt d.ssp
        bits (readRun (f r) o n) (b * c % 8) (elemBits d.ef)
    if d.cj then (if bit x 127 then x - 2 ^ 127 else x + 2 ^ 127) else x
  else 0

/-- Container of an element (R261). -/
def container (ef x : Nat) : Nat :=
  if ef == 0x0B then x / 2 ^ 13
  else if ef == 0x0E then x % 2 ^ 64 * 2 ^ 64 + x / 2 ^ 64
  else x

/-- A byte from its bits. -/
def byteOf (p : Nat → Bool) : Byte :=
  BitVec.ofNat 8 ((List.range 8).foldl (fun n k => n + b2n (p k) * 2 ^ k) 0)

/-- Kept value h of slab c of row r: value and position; what lies beyond the source's columns is
zero (R71, R308). -/
def CpyDesc.keptValue (d : CpyDesc) (f : Nat → Nat → Byte) (r n : Nat) : Nat × Nat :=
  if n / 2 * 4 < d.cols then
    let (ho, vo) := match d.keptRanges n with | [a, b] => (a.1, b.1) | _ => (0, 0)
    let pos := bits (f r ho).toNat (2 * (n % d.kept % 4)) 2
    let v := readRun (f r) vo (elemBits d.ef / 8)
    (if n / 2 * 4 + pos < d.cols then v else 0, pos)
  else (0, 0)

/-- Bytes of a unit (R260 to R263, R308). -/
def CpyDesc.bytes (d : CpyDesc) (f : Nat → Nat → Byte) (u : CopyUnit) : List Byte :=
  let rows := min d.outRows d.shape.1
  match u with
  | .row i lo len =>
    let b := d.elemAt d.dsp
    let es := (d.columns lo len).map (fun j => (j, if j < d.outCols then d.elem f i j else Config.rowTail d.dst i))
    (List.range len).map (fun k => byteOf (fun h =>
      let n := 8 * (lo + k) + h
      bit ((lookup es (n / b)).getD 0) (n % b)))
  | .plane c q =>
    let P := pressP d.ef
    (List.range 128).map (fun r =>
      if rows ≤ r then 0
      else byteOf (fun h =>
        if d.sp then
          let (v, pos) := d.keptValue f r (8 * c + h)
          if q < P then bit v (P - 1 - q) else bit pos (q - P)
        else bit (container d.ef (d.elem f r (8 * c + h))) (P - 1 - q)))
  | .scale q => arr rows f q 0
  | .sort q => arr rows f q 8
where
  /-- A block column of the scale or sort array (R262). -/
  arr (rows : Nat) (f : Nat → Nat → Byte) (q o : Nat) : List Byte :=
    (List.range 128).map (fun r =>
      if r < rows && 24 * q < d.cols then f r (q / 8 * 128 + o + q % 8) else 0)

end Sys2Proof.Machine
end

