-- ==== Sys2Proof/Machine/CopyEnd.lean ====
section
/-! DEFINITION. Tokens and the ends of copies (R312, R313, R315, R317), the issue journal (R320, R321)
and the answers of a supervisor that replays copies (R322). -/

namespace Sys2Proof.Machine

/-- Every token that a copy keeps busy takes a state (R192, R315). -/
def State.setToks (s : State) (c : Cpy) (v : Tok) : State :=
  let f (t : Thread) : Thread := if t.tok c.tok == .busy c.id then t.setTok c.tok v else t
  { s with threads := s.threads.map f
           folios := s.folios.map (fun (e : FolioEnt) => { e with shadow := f e.shadow }) }

/-- Teams that have retired give back their galley pages when no copy of theirs goes on (R371). -/
def State.freeRetired (s : State) : State :=
  { s with teams := s.teams.map (fun (tm : Team) =>
      if tm.retired && !s.cpys.any (fun c => c.team == tm.id) then { tm with pages := [], pages2 := [] } else tm) }

/-- A copy leaves the compositor. -/
def State.dropCpy (s : State) (id : Nat) : State :=
  { s.unhold id with cpys := s.cpys.filter (fun c => c.id != id) }.freeRetired

/-- The state with the copy of the same number replaced. -/
def State.setCpy (s : State) (c : Cpy) : State :=
  { s with cpys := s.cpys.map (fun x => if x.id == c.id then c else x) }

def State.cpy? (s : State) (id : Nat) : Option Cpy := s.cpys.find? (fun c => c.id == id)

/-- The barrier of a copy changed, in its destination's window (R316, R317). -/
def State.copyBarrier (s : State) (c : Cpy) (f : Nat → Nat) : State :=
  let d := cpyDesc c.desc
  if !d.ben then s
  else match s.cpyTeam c with
    | some tm => s.barrier tm d.bar f
    | none => s

/-- The 80-byte folio form of a journal entry (R320). -/
def journalEntry (desc : List W64) (tok cause f delivered : Nat) (failed promise : Bool) : List Byte :=
  padTo 64 (desc.flatMap (fun r => leBytes 8 r.toNat))
    ++ leBytes 1 (tok + b2n failed * 64 + b2n promise * 128) ++ leBytes 1 cause ++ leBytes 1 f
    ++ List.replicate 5 0 ++ leBytes 8 delivered

/-- The token failure record of a group that retires (R312; R361, kind 0x0A). -/
def tokenFailure (ctx : W32) (k vector cause : Nat) (entry : List Byte) : Post :=
  devicePost 0x0A (slotOfCtx ctx) none
    (leBytes 4 ctx.toNat ++ [BitVec.ofNat 8 k, BitVec.ofNat 8 vector, BitVec.ofNat 8 cause, 0] ++ entry.take 16)

/-- Failed tokens are reported, and then idle (R312). -/
def State.reportTokens (s : State) (t : Thread) : State :=
  (List.range 8).foldl (fun (s : State) k =>
    match t.tok k with
    | .failed v c _ e => s.postDevice t.core (tokenFailure t.ctx k v c e)
    | _ => s) s

/-- Some group or folio has the token that a copy keeps busy. -/
def State.hasToken (s : State) (c : Cpy) : Bool :=
  s.threads.any (fun t => t.tok c.tok == .busy c.id) || s.folios.any (fun e => e.shadow.tok c.tok == .busy c.id)

/-- A copy fails (R312): writes performed stay, its barrier is aborted, and its token is failed; the failure of a
copy whose group was stopped before it ended is reported as at that group's retirement (R371). -/
def State.copyFail (s : State) (c : Cpy) (vector cause addr : Nat) : State :=
  let e := journalEntry c.desc c.tok cause c.f c.delivered true c.promise
  let s' := ((s.copyBarrier c barAbort).setToks c (.failed vector cause (BitVec.ofNat 64 addr) e)).dropCpy c.id
  if s.hasToken c then s' else s'.postDevice c.core (tokenFailure c.ctx c.tok vector cause e)

/-- A copy has completed (R313): its token is idle, and its writes enter the issuer's LCT values. -/
def State.copyEnd (s : State) (c : Cpy) : State :=
  ((s.raiseLct c.owners c.report).setToks c .idle).dropCpy c.id

/-- A copy's request to go on, or to fail, after its page-fault record is done (R312, R364). -/
def State.copyAnswer (s : State) (id action : Nat) : State :=
  match s.cpy? id with
  | some c =>
    if action == 5 then s.copyFail c vProtection 0x25 0
    else s.setCpy { c with waiting := false }
  | none => s

/-! ## The journal -/

/-- A copy stopped for a suspension (R321, steps 1 to 3): it ends, its arrivals are taken back, and its
entry remains. -/
def State.copyStop (s : State) (c : Cpy) : State × List Byte :=
  (((s.copyBarrier c (barWithdraw c.delivered)).dropCpy c.id),
    journalEntry c.desc c.tok 0 c.f c.delivered false c.promise)

/-- A copy request's record in a hand-in queue: its core, place and bytes. -/
def HqRec.ofCopy (r : HqRec) (id : Nat) : Bool :=
  r.poster == some id && (r.kind == 0x07 || (r.kind == 0x02 && 4 ≤ (r.bytes.getD 25 0).toNat))

/-- The records of a copy are freed, as one that ends without their answers does. -/
def State.freeCopyRecs (s : State) (c : Cpy) : State :=
  (List.range s.cores.length).foldl (fun s k =>
    if (s.core k).hq.recs.any (fun r => r.ofCopy c.id) then s.freeRecs k (fun r => r.ofCopy c.id)
    else s) s

/-! ## Answers at CPYANS -/

/-- A 16-byte store to CPYANS of a die (R322). -/
def State.cpyAnswerStore (s : State) (die : Nat) (bytes : List Byte) : State :=
  let at_ (o n : Nat) : Nat := leNat ((bytes.drop o).take n)
  let core := 12 * die
  match s.request core 0x07 (at_ 0 8) with
  | none => s
  | some r =>
    if 1 < at_ 8 1 || at_ 9 7 != 0 then s
    else
      match s.cpys.find? (fun c => r.poster == some c.id && c.replay.isSome) with
      | none => s
      | some c =>
        let s := s.endRequest core r
        if at_ 8 1 == 0 then
          (s.copyBarrier c (barArrive (cpyDesc c.desc).allSectors)).copyEnd c
        else s.copyFail c vProtection 0x25 0

/-- CPYANS_WRITE (R322). A service group's store to CPYANS ends a copy replay record, idling or failing
the token. -/
def execCpyansWrite (s : State) : Host.Outcome State Fault Refusal :=
  .next (if s.mayAnswer s.arg.w then s.cpyAnswerStore s.arg.a s.arg.bytes else s)

end Sys2Proof.Machine
end

