-- ==== Sys2Proof/Machine/Press.lean ====
section
/-! DEFINITION. The press (R259 to R284): tiles, the operand layout, exact chunk sums, MMA and MMA.GANG,
MTILE, MSTAT, and the ends of their operations. -/

namespace Sys2Proof.Machine

/-! ## Tiles -/

/-- Accumulator kind of a format (R259, R265): 0 INT32, 1 FP32, 2 FP64, 3 C64. -/
def kindOf (fmt : Nat) : Nat := match fmt with | 0 | 1 => 0 | 13 => 2 | 14 => 3 | _ => 1

/-- Rows, columns and element bytes of a kind (R259). -/
def kindShape (k : Nat) : Nat × Nat × Nat :=
  match k with | 0 | 1 => (128, 128, 4) | 2 => (128, 64, 8) | _ => (64, 64, 16)

/-- Bytes of a forme tile (R259). -/
def tileBytes : Nat := 65536

/-- Bytes of a tile as a number. -/
def State.tileNat (s : State) (core tile off n : Nat) : Nat :=
  leNat (Sparse.read (s.core core).forme (tile * tileBytes + off) n)

/-- A number written to a tile. -/
def State.tilePut (s : State) (core tile off n v : Nat) : State :=
  let k := s.core core
  s.setCore core { k with forme := Sparse.write k.forme (tile * tileBytes + off) (leBytes n v) }

/-- A tile of zero bytes, its poison cleared (R284, R374). -/
def State.tileZero (s : State) (core tile : Nat) : State :=
  let k := s.core core
  s.setCore core
    { k with
      forme := Sparse.drop k.forme (fun a => a / tileBytes == tile)
      tilePoison := Sparse.set k.tilePoison false tile false }

/-- A tile's poison cleared (R374). -/
def State.tileClean (s : State) (core tile : Nat) : State :=
  let k := s.core core
  s.setCore core { k with tilePoison := Sparse.set k.tilePoison false tile false }

def State.tilePoisoned (s : State) (core tile : Nat) : Bool :=
  Sparse.get (s.core core).tilePoison false tile

/-! ## Operands -/

/-- Float format of a press format's elements; 10 is MXINT8 (R265). -/
def pressFp (fmt : Nat) : Nat :=
  match fmt with
  | 4 => 7 | 5 => 8 | 6 => 5 | 7 => 6 | 8 => 10 | 9 => 1 | 10 => 0 | 11 => 2 | 12 => 3
  | 13 | 14 => 4
  | _ => 9

/-- Significand bits of a format with PLANES (R265). -/
def pressS (fmt : Nat) : Nat :=
  match fmt with | 9 => 8 | 10 => 11 | 11 => 11 | 12 => 24 | 13 | 14 => 53 | _ => 0

/-- An operand: window, descriptor, offsets, whether it is sparse, whether it is conjugated. -/
structure Operand where
  tm : Team
  d : PressDesc
  off : Nat
  scl : Nat
  srt : Nat
  sparse : Bool
  conj : Bool
  deriving DecidableEq, Repr

/-- Value held by p planes at bit h of row r of a slab (R260). -/
def State.planeBits (s : State) (o : Operand) (slab p r h : Nat) : Nat :=
  (List.range p).foldl (fun v q =>
    v * 2 + b2n (bit (s.galByte o.tm (slab + 128 * q + r)).toNat h)) 0

/-- Position of kept value h of a row in a sparse slab (R263). -/
def State.keptPos (s : State) (o : Operand) (slab p r h : Nat) : Nat :=
  b2n (bit (s.galByte o.tm (slab + 128 * p + r)).toNat h)
    + 2 * b2n (bit (s.galByte o.tm (slab + 128 * (p + 1) + r)).toNat h)

/-- Container of element (r, k) of an operand: none for an element that a sparse operand does not keep,
and whether its group is malformed (R260, R263). -/
def State.container (s : State) (o : Operand) (r k : Nat) : Option Nat × Bool :=
  let p := pressP o.d.fmt
  if o.sparse then
    let slab := o.off + k / 16 * 128 * (p + 2)
    let g := k % 16 / 4
    let p0 := s.keptPos o slab p r (2 * g)
    let p1 := s.keptPos o slab p r (2 * g + 1)
    if p1 ≤ p0 then (none, true)
    else if p0 == k % 4 then (some (s.planeBits o slab p r (2 * g)), false)
    else if p1 == k % 4 then (some (s.planeBits o slab p r (2 * g + 1)), false)
    else (none, false)
  else (some (s.planeBits o (o.off + k / 8 * 128 * p) p r (k % 8)), false)

/-- The fraction bits that PLANES = n keeps (R270). -/
def keepPlanes (fmt n c : Nat) : Nat := if n == 0 then c else c / 2 ^ (pressS fmt - n) * 2 ^ (pressS fmt - n)

/-- A byte of a scale or sort array (R262). -/
def State.arrayByte (s : State) (o : Operand) (base r k : Nat) : Nat :=
  (s.galByte o.tm (base + 128 * (k / pressB o.d.fmt) + r)).toNat

/-- The value of element (r, k), real and imaginary, and whether its sparse group is malformed; what a sparse
operand does not keep reads as zero under the block's scale (R268). -/
def State.pressVal (s : State) (o : Operand) (r k : Nat) : (Val × Val) × Bool :=
  let zero : Val := .fin false 0 0
  let fmt := o.d.fmt
  let (kept, bad) := s.container o r k
  let c := kept.getD 0
  let sc := if o.d.scl then s.arrayByte o o.scl r k else 127
  let re : Val :=
    if fmt ≤ 1 then
      let i := sextInt (pressP fmt) c
      .fin (decide (i < 0)) i.natAbs 0
    else if fmt == 3 then sortedValue c sc (s.arrayByte o o.srt r k)
    else if fmt == 8 then mxValue 10 c sc
    else if o.d.scl then mxValue (pressFp fmt) c sc
    else if fmt == 11 then decodeFp 2 (keepPlanes fmt o.d.planes c * 2 ^ 13)
    else if fmt == 14 then decodeFp 4 (keepPlanes fmt o.d.planes (c / 2 ^ 64))
    else decodeFp (pressFp fmt) (keepPlanes fmt o.d.planes (c % 2 ^ fmtBits (pressFp fmt)))
  let im : Val :=
    if fmt == 14 then
      let v := decodeFp 4 (keepPlanes fmt o.d.planes (c % 2 ^ 64))
      if o.conj then v.negate else v
    else zero
  ((re, im), bad)

/-! ## Arithmetic -/

/-- Flags of the press status register (R281): NANIN and SPM beside those of R59. -/
abbrev PFlags := BitVec 7

def pfNANIN : PFlags := 0x20
def pfSPM : PFlags := 0x40

def pflags (f : Flags) : PFlags := (f &&& 0x17).setWidth 7

/-- One chunk sum, rounded and added to an accumulator (R269): products with the sign of each. -/
def chunkStep (c : Nat) (sat : Bool) (acc : Nat) (prods : List (Val × Val × Bool)) : Nat × PFlags :=
  let d : Dest := { c := c, rm := .rne, flush := false, ov := if sat then .sat else .plain }
  let nan := prods.any (fun p => p.1.isNan || p.2.1.isNan)
  let real := prods.filter (fun p => !p.1.isNan && !p.2.1.isNan)
  let bad := real.any (fun p => (mulVal p.1 p.2.1).isNone)
  let sum := (real.filterMap (fun p =>
    (mulVal p.1 p.2.1).map (fun v => if p.2.2 then v.negate else v))).foldl Sum.add Sum.zero
  let inv := bad || (sum.pinf && sum.ninf)
  if nan || inv then
    (canonNan c, (if nan then pfNANIN else 0) ||| (if inv then pflags flNV else 0))
  else
    let (r, f1) := sum.round d
    match decodeFp c acc with
    | .nan .. => (canonNan c, pflags f1)
    | a =>
      let (r2, f2) := addVal d a (decodeFp c r)
      (r2, pflags (f1 ||| f2))

/-- A chunk added to an INT32 accumulator (R269). -/
def intStep (sat : Bool) (acc : Int) (sum : Int) : Int × PFlags :=
  let v := acc + sum
  if -(2 ^ 31) ≤ v && v < 2 ^ 31 then (v, 0)
  else if sat then (max (-(2 ^ 31)) (min (2 ^ 31 - 1) v), pflags flOF)
  else (sextInt 32 (wrap 32 v), pflags flOF)

/-- The integer that a press value stands for. -/
def valInt : Val → Int
  | .fin s m _ => signed s m
  | _ => 0

/-- One element of a product (R268): its bytes as a number, and its flags. -/
def State.pressElem (s : State) (a b : Operand) (sat : Bool) (start i j : Nat) : Nat × PFlags :=
  let fmt := a.d.fmt
  let kind := kindOf fmt
  (List.range (a.d.k / 8)).foldl (fun (x : Nat × PFlags) c =>
    let (acc, fl) := x
    let es := (List.range 8).map (fun h => (s.pressVal a i (8 * c + h), s.pressVal b j (8 * c + h)))
    let spm : PFlags := if es.any (fun e => e.1.2 || e.2.2) then pfSPM else 0
    let ps := es.map (fun e => (e.1.1, e.2.1))
    match kind with
    | 0 =>
      let sum := ps.foldl (fun t p => t + valInt p.1.1 * valInt p.2.1) (0 : Int)
      let (v, f) := intStep sat (sextInt 32 acc) sum
      (wrap 32 v, fl ||| f ||| spm)
    | 3 =>
      let re := ps.flatMap (fun p => [(p.1.1, p.2.1, false), (p.1.2, p.2.2, true)])
      let im := ps.flatMap (fun p => [(p.1.1, p.2.2, false), (p.1.2, p.2.1, false)])
      let (r, f1) := chunkStep 4 sat (acc % 2 ^ 64) re
      let (m, f2) := chunkStep 4 sat (acc / 2 ^ 64) im
      (r + m * 2 ^ 64, fl ||| f1 ||| f2 ||| spm)
    | k =>
      let (v, f) := chunkStep (if k == 2 then 4 else 3) sat acc (ps.map (fun p => (p.1.1, p.2.1, false)))
      (v, fl ||| f ||| spm)) (start, 0)

/-- A whole product (R268): the tile's new elements by offset, and the flags. -/
def State.pressResult (s : State) (a b : Operand) (sat zc : Bool) (core tile : Nat) :
    List (Nat × Nat) × PFlags :=
  let (_, cols, es) := kindShape (kindOf a.d.fmt)
  ((List.range a.d.m).flatMap (fun i => (List.range a.d.n).map (fun j => (i, j)))).foldl
    (fun (x : List (Nat × Nat) × PFlags) ij =>
      let off := (cols * ij.1 + ij.2) * es
      let start := if zc then 0 else s.tileNat core tile off es
      let (v, f) := s.pressElem a b sat start ij.1 ij.2
      (x.1 ++ [(off, v)], x.2 ||| f)) ([], 0)

/-! ## Checks at issue -/

/-- Whether a format may be sparse (R265). -/
def pressSparse (fmt : Nat) : Bool := fmt == 1 || (6 ≤ fmt && fmt ≤ 10)

/-- Bits of the descriptor registers outside the fields of R264. -/
def descReserved (d : List W64) : Bool :=
  let r := dreg d
  let two := 0x7FFFFF * 2 ^ 32 + 0x7FFFFF
  r 0 / 2 ^ 23 != 0 || r 1 / 2 ^ 23 != 0 || r 2 / 2 ^ 48 != 0
    || r 3 &&& 0x33F3F != r 3 || r 4 &&& two != r 4 || r 5 &&& two != r 5
    || r 6 &&& (0xFFFF * 2 ^ 32 + 0xFFFFFF) != r 6 || r 7 / 16 != 0

/-- The descriptor contents that raise cause 0x06 (R267, step 2). -/
def descBad (regs : List W64) (conj : Bool) : Bool :=
  let d := pressDesc regs
  let (rows, cols, _) := kindShape (kindOf d.fmt)
  descReserved regs || 15 ≤ d.fmt || d.m == 0 || rows < d.m || d.n == 0 || cols < d.n
    || d.k % 8 != 0 || ((d.spa || d.spb) && (!pressSparse d.fmt || d.k % 16 != 0)) || (d.spa && d.spb)
    || (d.planes != 0 && (d.fmt < 9 || d.planes < 2 || pressS d.fmt < d.planes))
    || (d.scl && (d.fmt < 2 || 9 ≤ d.fmt || d.k % pressB d.fmt != 0))
    || (!d.scl && (d.fmt == 3 || d.fmt == 8 || d.ascl != 0 || d.bscl != 0))
    || (d.fmt != 3 && (d.asort != 0 || d.bsort != 0))
    || (d.ben && d.inc == 0) || (!d.ben && (d.inc != 0 || d.bar != 0))
    || (conj && d.fmt != 14)

/-- The first misaligned offset of a press descriptor (R264). -/
def descMisaligned (d : PressDesc) : Option Nat :=
  ([d.aoff, d.boff, d.ascl, d.asort, d.bscl, d.bsort].map (fun o => (o, 128)) ++ [(d.bar, 8)]).findSome?
    (fun (e : Nat × Nat) => if e.1 % e.2 != 0 then some e.1 else none)

/-- The first range of some that passes a window's size. -/
def beyond (galley : Nat) (rs : List (Nat × Nat)) : Option Nat :=
  rs.findSome? (fun r => if galley < r.1 + r.2 then some r.1 else none)

/-- Whether a tile lies in a thread's grant (R43). -/
def Thread.grants (t : Thread) (tile : Nat) : Bool := t.tile0 ≤ tile && tile < t.tile0 + t.tiles

/-- Entries of a press's queue (R271). -/
def pressQueue : Nat := 8

/-- Entries taken on a core's press. -/
def State.pressLoad (s : State) (core : Nat) : Nat :=
  (s.pressOps.map (fun p => (p.parts.filter (fun q => q.core == core)).length)).sum

/-- A press operation enters the queues of its parts, with its locks and reservations (R267, R271). -/
def State.pressIssue (s : State) (h : Hdr) (t : Thread) (kind : PressKind) (regs : List W64) (areg : Nat)
    (parts : List Part) : State :=
  if parts.any (fun q => pressQueue ≤ s.pressLoad q.core) then s.poll
  else
    let (id, s) := s.newId
    let p : PressOp :=
      { id := id, kind := kind, issuer := t.id, owners := [t.id], desc := regs, areg := areg
        parts := parts, issued := s.time, firstReady := none
        bound := (s.die (dieOf t.core)).gangBnd }
    { s with pressOps := s.pressOps ++ [p] }.advance h

/-- The part of an operation of one press. -/
def ownPart (t : Thread) (tile : Nat) : Part := ⟨t.team, t.id, t.core, tile, false⟩

/-- The descriptor registers from s[a] on. -/
def Thread.regsFrom (t : Thread) (a n : Nat) : List W64 := (List.range n).map (fun i => t.sreg (a + i))

/-- MMA (R266, R267). Issues a press matrix product into a forme tile. -/
def execMma (h : Hdr) (d : BitVec 7) (a : BitVec 7) (ss : BitVec 1) (z : BitVec 1) (j : BitVec 1)
    (k : BitVec 1) (s : State) : Host.Outcome State Fault Refusal :=
  run (.mma h d a ss z j k) s (fun s => s.withThread (fun t =>
    let regs := t.regsFrom a.toNat 8
    let ds := pressDesc regs
    let gal := match s.team? t.team with | some tm => tm.galley | none => 0
    if descBad regs (j == 1 || k == 1) || ds.mem != 0 then s.trap h vIllegal 0x06
    else if !t.grants d.toNat then s.trap h vProtection 0x29
    else match descMisaligned ds with
      | some o => s.trapAddr h vMisalign 0x08 o
      | none =>
        match beyond gal (rangesA ds ++ rangesB ds ++ (if ds.ben then [(ds.bar, 8)] else [])) with
        | some o => s.trapAddr h vGalley 0x0A o
        | none =>
          s.pressIssue h t (.mma (ss == 1) (z == 1) (j == 1) (k == 1)) regs a.toNat [ownPart t d.toNat]))

/-- The team of a gang with an index that has not retired, be it folded (R275, R385). -/
def State.member (s : State) (gang idx : Nat) : Option Team :=
  s.teams.find? (fun tm => tm.gang == gang && tm.idx == idx && !tm.retired)

/-- The counterpart of a group in a team of its gang (R275): the group of the same index, or its live child with the
lowest f; one without a live lane that has not retired yet is it still. -/
def State.counterpart (s : State) (t : Thread) (tm : Team) : Option Thread :=
  if tm.id == t.team then some t
  else
    let us := sortBy (·.f) (s.threads.filter (fun u => u.team == tm.id && u.grp == t.grp))
    (us.find? (fun u => u.live != 0)).or us.head?

/-- The parts of an MMA.GANG, in member order: none in a place where there is no counterpart (R275). -/
def State.gangParts (s : State) (t : Thread) (tile mem : Nat) : List (Option (Part × Thread)) :=
  ((List.range 4).filter (bit mem)).map (fun m =>
    match s.member t.gang m with
    | some tm => (s.counterpart t tm).map (fun u =>
        (⟨tm.id, u.id, u.core, u.tile0 + tile - t.tile0, false⟩, u))
    | none => none)

/-- Whether the counterpart in member m lies in a folio, to be resident again later. -/
def State.partnerAway (s : State) (t : Thread) (m : Nat) : Bool :=
  match s.member t.gang m with
  | some tm =>
    let f := match s.counterpart t tm with | some u => if u.live == 0 then 64 else u.f | none => 64
    tm.id != t.team && s.folios.any (fun e => e.team == tm.id && e.grp == t.grp && e.f < f)
  | none => false

/-- Teams of a thread's gang. -/
def State.gangTeams (s : State) (t : Thread) : Nat :=
  match s.gang? t.gang with | some g => g.teamIds.length | none => 1

/-- MMA.GANG (R275). Issues a press product spread over the members of a gang. -/
def execMmaGang (h : Hdr) (d : BitVec 7) (a : BitVec 7) (ss : BitVec 1) (z : BitVec 1) (j : BitVec 1)
    (k : BitVec 1) (s : State) : Host.Outcome State Fault Refusal :=
  run (.mmaGang h d a ss z j k) s (fun s => s.withThread (fun t =>
    let regs := t.regsFrom a.toNat 8
    let ds := pressDesc regs
    let parts := s.gangParts t d.toNat ds.mem
    let own := match s.team? t.team with | some tm => tm.galley | none => 0
    let gals := parts.filterMap (fun p => p.bind (fun p => (s.team? p.1.team).map Team.galley))
    if descBad regs (j == 1 || k == 1) || !bit ds.mem t.teamIdx || popcount 4 ds.mem < 2
        || ds.mem / 2 ^ s.gangTeams t != 0 then s.trap h vIllegal 0x06
    else if !t.grants d.toNat || (((List.range 4).filter (bit ds.mem)).zip parts).any (fun x =>
        !s.partnerAway t x.1 && (match x.2 with | some (q, u) => !u.grants q.tile | none => true)) then
      s.trap h vProtection 0x29
    else if ((List.range 4).filter (bit ds.mem)).any (s.partnerAway t) then s.poll
    else match descMisaligned ds with
      | some o => s.trapAddr h vMisalign 0x08 o
      | none =>
        let inEach := rangesA ds ++ (if ds.ben then [(ds.bar, 8)] else [])
        match (beyond own (rangesB ds)).or (gals.findSome? (fun g => beyond g inEach)) with
        | some o => s.trapAddr h vGalley 0x0A o
        | none =>
          s.pressIssue h t (.gang (ss == 1) (z == 1) (j == 1) (k == 1)) regs a.toNat
            (parts.filterMap (fun p => p.map (·.1)))))

/-! ## Ends of operations -/

/-- The operation leaves its queues; its locks, reservations and count end (R271, R273, R274). -/
def State.pressEnd (s : State) (id : Nat) : State :=
  { s with pressOps := s.pressOps.filter (fun p => p.id != id) }.unlock

/-- Flags recorded in a press status register (R281). -/
def State.pstatFlags (s : State) (thread : Nat) (f : PFlags) : State :=
  match s.thread? thread with
  | some t => s.setThread { t with pstat := t.pstat ||| f.setWidth 64 }
  | none => s

/-- An abort recorded in a press status register (R278, R281). -/
def State.pstatAbort (s : State) (thread cls core tile : Nat) : State :=
  match s.thread? thread with
  | some t =>
    let p := t.pstat.toNat
    let v := p % 0x80 + min 0xFF (bits p 8 8 + 1) * 2 ^ 8 + cls * 2 ^ 16 + core * 2 ^ 24
      + tile * 2 ^ 32
    s.setThread { t with pstat := BitVec.ofNat 64 v }
  | none => s

/-- The barrier of a part changed, where the operation names one. -/
def State.pressBarrier (s : State) (p : PressOp) (q : Part) (f : Nat → Nat) : State :=
  let d := pressDesc p.desc
  match p.kind with
  | .mma .. | .gang .. =>
    if !d.ben then s
    else match s.team? q.team with | some tm => s.barrier tm d.bar f | none => s
  | _ => s

/-- An operation aborts on every part (R277, R278): the class of each part, and the core of the
cause. -/
def State.pressAbort (s : State) (p : PressOp) (cls : Part → Nat) (core : Nat) : State :=
  let s := p.parts.foldl (fun s q =>
    (s.pstatAbort q.thread (cls q) core q.tile).pressBarrier p q barAbort) s
  s.pressEnd p.id

/-- The operands of a part. -/
def State.operands (s : State) (p : PressOp) (q : Part) (cja cjb : Bool) : Option (Operand × Operand) :=
  let d := pressDesc p.desc
  let home := match p.parts.find? (fun x => x.thread == p.issuer) with | some x => x.team | none => q.team
  match s.team? q.team, s.team? home with
  | some ta, some tb =>
    some (⟨ta, d, d.aoff, d.ascl, d.asort, d.spa, cja⟩, ⟨tb, d, d.boff, d.bscl, d.bsort, d.spb, cjb⟩)
  | _, _ => none

/-- Planes of a slab that the press reads (R261, R270). -/
def planeRead (d : PressDesc) (q : Nat) : Bool :=
  let p := pressP d.fmt
  if d.fmt == 4 || d.fmt == 5 then 2 ≤ q
  else if d.planes == 0 || p ≤ q then true
  else q % (if d.fmt == 14 then 64 else p) < (if d.fmt == 14 then 64 else p) - (pressS d.fmt - d.planes)

/-- Whether an operand meets a poisoned line that the press reads (R278, class 1): the core it lies on, and the team
whose window it is. -/
def State.operandPoison (s : State) (o : Operand) : Option (Nat × Nat) :=
  let p := pressP o.d.fmt + (if o.sparse then 2 else 0)
  let slabs := if o.sparse then o.d.k / 16 else o.d.k / 8
  let planes := (List.range (slabs * p)).filter (fun i => planeRead o.d (i % p))
  let blocks := List.range (o.d.k / pressB o.d.fmt)
  let lines := planes.map (fun i => o.off + 128 * i)
    ++ (if o.d.scl then blocks.map (fun i => o.scl + 128 * i) else [])
    ++ (if o.d.fmt == 3 then blocks.map (fun i => o.srt + 128 * i) else [])
  lines.findSome? (fun l => if s.galPoisoned o.tm l 128 then some ((o.tm.place l).1, o.tm.id) else none)

/-- What stops a part: a poisoned line or tile, at a core, of a team (R278, R374). -/
def State.partPoison (s : State) (p : PressOp) (q : Part) (zc : Bool) : Option (Nat × Nat) :=
  match s.operands p q false false with
  | some (a, b) =>
    match (s.operandPoison a).or (s.operandPoison b) with
    | some c => some c
    | none => if !zc && s.tilePoisoned q.core q.tile then some (q.core, q.team) else none
  | none => none

/-- A part's result written to its tile, with its flags and its barrier (R268, R277). -/
def State.partCommit (s : State) (p : PressOp) (q : Part) (sat zc cja cjb : Bool) : State :=
  match s.operands p q cja cjb with
  | none => s
  | some (a, b) =>
    let (es, fl) := s.pressResult a b sat zc q.core q.tile
    let n := (kindShape (kindOf a.d.fmt)).2.2
    let s := es.foldl (fun s e => s.tilePut q.core q.tile e.1 n e.2) s
    let s := if zc then s.tileClean q.core q.tile else s
    (s.pstatFlags q.thread fl).pressBarrier p q (barArrive a.d.inc)

/-- Whether an operation's part is at the head of its press (R271): every entry taken there before has
ended. -/
def State.atHead (s : State) (p : PressOp) (core : Nat) : Bool :=
  !s.pressOps.any (fun x => x.id < p.id && x.parts.any (fun q => q.core == core))

/-- Whether a part of an operation may use its ranges now: its turn, no earlier reservation stands in the way of what
it reads or writes, and its press's clock runs (R27, R32, R271, R274). -/
def State.pressReady (s : State) (p : PressOp) (q : Part) : Bool :=
  s.atHead p q.core && !s.engineWaits (p.resvOf q) && !(s.die (dieOf q.core)).stopped && s.powerLost.isNone

/-- PRESS_OPERATION_COMMIT (R268). An MMA commits its tile and barrier increment in one step and records
its flags, lowering mx; or it aborts on a poisoned line or tile (R278). -/
def execPressOperationCommit (s : State) : Host.Outcome State Fault Refusal :=
  .next (match s.pressOps.find? (fun p => p.id == s.arg.a) with
    | some p =>
      match p.kind, p.parts with
      | .mma sat zc cja cjb, [q] =>
        if !s.pressReady p q then s
        else match s.partPoison p q zc with
          | some (c, _) => s.pressAbort p (fun _ => 1) c
          | none => (s.partCommit p q sat zc cja cjb).pressEnd p.id
      | _, _ => s
    | none => s)

/-- Every part of a gang operation commits in one step (R277). -/
def State.gangCommit (s : State) (p : PressOp) (sat zc cja cjb : Bool) : State :=
  -- the operands of every part are read before any tile or barrier is written
  let outs := p.parts.map (fun q => (q, (s.operands p q cja cjb).map (fun x =>
    (s.pressResult x.1 x.2 sat zc q.core q.tile, x.1))))
  let s := outs.foldl (fun s e =>
    match e with
    | (q, some ((es, fl), a)) =>
      let n := (kindShape (kindOf a.d.fmt)).2.2
      let s := es.foldl (fun s x => s.tilePut q.core q.tile x.1 n x.2) s
      let s := if zc then s.tileClean q.core q.tile else s
      (s.pstatFlags q.thread fl).pressBarrier p q (barArrive a.d.inc)
    | _ => s) s
  s.pressEnd p.id

/-- GANG_PART_READY (R276, R277). A part of an MMA.GANG has read its operands and finished its shadow
result, and the gang commits when every part is ready. Member b counts among the parts named, in member
order. -/
def execGangPartReady (s : State) : Host.Outcome State Fault Refusal :=
  .next (match s.pressOps.find? (fun p => p.id == s.arg.a) with
    | some p =>
      match p.kind, p.parts[s.arg.b]? with
      | .gang sat zc cja cjb, some q =>
        let late := match p.firstReady with | some f => f + p.bound < s.time | none => false
        if q.ready || late || !s.pressReady p q then s
        else match s.partPoison p q zc with
          | some (c, tm) => s.pressAbort p (fun x => if x.team == tm then 1 else 2) c
          | none =>
            let parts := modifyAt p.parts s.arg.b (fun q => { q with ready := true })
            let p := { p with parts := parts, firstReady := p.firstReady.or (some s.time) }
            let s := { s with pressOps := s.pressOps.map (fun x => if x.id == p.id then p else x) }
            if parts.all (·.ready) then s.gangCommit p sat zc cja cjb else s
      | _, _ => s
    | none => s)

/-- Member mask of a gang operation. -/
def PressOp.members (p : PressOp) : Nat := (pressDesc p.desc).mem

/-- GANG_BOUND_EXPIRY (R277, R278). The gang bound passes before every part is ready, and the operation
aborts with class 4 on every member, with a gang-abort report (R361, kind 0x0B). -/
def execGangBoundExpiry (s : State) : Host.Outcome State Fault Refusal :=
  .next (match s.pressOps.find? (fun p => p.id == s.arg.a) with
    | some p =>
      match p.kind, p.firstReady, p.parts.find? (fun q => !q.ready) with
      | .gang .., some f, some late =>
        if s.time ≤ f + p.bound then s
        else
          let (l, c, slot) := match s.thread? p.issuer with
            | some t => (t.launch.toNat, t.core, slotOfCtx t.ctx)
            | none => (0, 0, 0)
          (s.pressAbort p (fun _ => 4) late.core).postDevice c (devicePost 0x0B slot none
            (leBytes 8 l ++ [BitVec.ofNat 8 c, BitVec.ofNat 8 p.members, 4]))
      | _, _, _ => s
    | none => s)

/-! ## MTILE and MSTAT -/

/-- The tile kind of an MTILE format (R283). -/
def mtileKind (f : BitVec 3) : Nat := match f.toNat with | 3 => 0 | 4 => 2 | 5 => 3 | _ => 1

/-- MTILE.ST and MTILE.LD at issue: the layout word's checks in the order of R267 (R283). -/
def mtileIssue (i : Instr) (h : Hdr) (d a : BitVec 7) (f : BitVec 3) (kind : PressKind) (s : State) :
    Host.Outcome State Fault Refusal :=
  run i s (fun s => s.withThread (fun t =>
    let w := t.sreg a.toNat
    let l := layoutOf w.toNat
    let size := mtileBytes f.toNat
    let (rows, cols, _) := kindShape (mtileKind f)
    let gal := match s.team? t.team with | some tm => tm.galley | none => 0
    if bits w.toNat 23 9 != 0 || l.cols == 0 || cols < l.cols || l.rows == 0 || rows < l.rows
        || l.stride < l.cols * size then s.trap h vIllegal 0x06
    else if !t.grants d.toNat then s.trap h vProtection 0x29
    else if l.off % size != 0 || l.stride % size != 0 then s.trapAddr h vMisalign 0x08 l.off
    else if gal < l.off + l.span size then s.trapAddr h vGalley 0x0A l.off
    else s.pressIssue h t kind [w] 200 [ownPart t d.toNat]))

/-- MTILE.ZERO (R283). Clears a forme tile. -/
def execMtileZero (h : Hdr) (d : BitVec 7) (s : State) : Host.Outcome State Fault Refusal :=
  run (.mtileZero h d) s (fun s => s.withThread (fun t =>
    if !t.grants d.toNat then s.trap h vProtection 0x29
    else s.pressIssue h t .mtileZero [] 200 [ownPart t d.toNat]))

/-- MTILE.ST (R283). Stores a forme tile to the galley, converting. -/
def execMtileSt (h : Hdr) (d : BitVec 7) (a : BitVec 7) (ss : BitVec 1) (f : BitVec 3) (s : State) :
    Host.Outcome State Fault Refusal :=
  mtileIssue (.mtileSt h d a ss f) h d a f (.mtileSt (ss == 1) f) s

/-- MTILE.LD (R283). Loads a forme tile from the galley. -/
def execMtileLd (h : Hdr) (d : BitVec 7) (a : BitVec 7) (f : BitVec 3) (s : State) :
    Host.Outcome State Fault Refusal :=
  mtileIssue (.mtileLd h d a f) h d a f (.mtileLd f) s

/-- Elements of a layout: row and column. -/
def Layout.elems (l : Layout) : List (Nat × Nat) :=
  (List.range l.rows).flatMap (fun i => (List.range l.cols).map (fun j => (i, j)))

/-- An element of a tile as MTILE.ST writes it (R284). -/
def mtileConvert (sat : Bool) (f : BitVec 3) (v : Nat) : Nat × PFlags :=
  let c := match f.toNat with | 1 => some 1 | 2 => some 0 | _ => none
  match c with
  | some c =>
    let (p, fl) := fpConvert { c := c, rm := .rne, flush := false, ov := if sat then .sat else .plain }
      (decodeFp 3 v)
    (p, pflags fl)
  | none => (v, 0)

/-- A tile stored to a window (R284). -/
def State.mtileStore (s : State) (tm : Team) (q : Part) (l : Layout) (sat : Bool) (f : BitVec 3) :
    State :=
  let (_, cols, es) := kindShape (mtileKind f)
  let size := mtileBytes f.toNat
  let (bs, fl) := l.elems.foldl (fun (x : List (Nat × Byte) × PFlags) ij =>
    let (v, f) := mtileConvert sat f (s.tileNat q.core q.tile ((cols * ij.1 + ij.2) * es) es)
    (x.1 ++ (leBytes size v).mapIdx (fun b y => (l.off + ij.1 * l.stride + ij.2 * size + b, y)), x.2 ||| f))
    ([], 0)
  (s.galWrite tm bs).pstatFlags q.thread fl

/-- A tile loaded from a window (R284). -/
def State.mtileLoad (s : State) (tm : Team) (q : Part) (l : Layout) (f : BitVec 3) : State :=
  let (_, cols, es) := kindShape (mtileKind f)
  let size := mtileBytes f.toNat
  (l.elems.foldl (fun s ij =>
    s.tilePut q.core q.tile ((cols * ij.1 + ij.2) * es) es
      (leNat (s.galRead tm (l.off + ij.1 * l.stride + ij.2 * size) size))) s).tileClean q.core q.tile

/-- MTILE_END (R284, R374). An MTILE finishes clearing, storing or loading its tile and releases its
entry, lock and reservation; poison aborts it with class 1. -/
def execMtileEnd (s : State) : Host.Outcome State Fault Refusal :=
  .next (match s.pressOps.find? (fun p => p.id == s.arg.a) with
    | some p =>
      match p.parts with
      | [q] =>
        if !s.pressReady p q then s
        else
          let l := layoutOf (dreg p.desc 0)
          match p.kind, s.team? q.team with
          | .mtileZero, _ => (s.tileZero q.core q.tile).pressEnd p.id
          | .mtileSt sat f, some tm =>
            if s.tilePoisoned q.core q.tile then s.pressAbort p (fun _ => 1) q.core
            else (s.mtileStore tm q l sat f).pressEnd p.id
          | .mtileLd f, some tm =>
            let bad := l.elems.findSome? (fun ij =>
              let o := l.off + ij.1 * l.stride + ij.2 * mtileBytes f.toNat
              if s.galPoisoned tm o (mtileBytes f.toNat) then some (tm.place o).1 else none)
            match bad with
            | some c => s.pressAbort p (fun _ => 1) c
            | none => (s.mtileLoad tm q l f).pressEnd p.id
          | _, _ => s
      | _ => s
    | none => s)

/-- MSTAT and MSTAT.CLR (R282). -/
def mstatRead (i : Instr) (h : Hdr) (d : BitVec 7) (clr : Bool) (s : State) :
    Host.Outcome State Fault Refusal :=
  run i s (fun s => s.withThread (fun t =>
    if s.pressOps.any (fun p => p.owners.contains t.id) then s.poll
    else
      let u := t.setSreg d.toNat t.pstat
      (s.setThread { u with pstat := if clr then 0 else u.pstat }).advance h))

/-- MSTAT (R282). Reads the press status register after earlier press operations end. -/
def execMstat (h : Hdr) (d : BitVec 7) (s : State) : Host.Outcome State Fault Refusal :=
  mstatRead (.mstat h d) h d false s

/-- MSTAT.CLR (R282). Reads and clears the press status register. -/
def execMstatClr (h : Hdr) (d : BitVec 7) (s : State) : Host.Outcome State Fault Refusal :=
  mstatRead (.mstatClr h d) h d true s

end Sys2Proof.Machine
end

