-- ==== Sys2Proof/Machine/Fit.lean ====
section
/-! DEFINITION. Grants (R40, R96, R97, R179): the free resources of a core, the fit of groups and of
gangs with its limit codes, and the state of a group at its start (R42, R378). -/

namespace Sys2Proof.Machine

/-! ## Free resources -/

/-- What each group of a team asks for. -/
structure Ask where
  width : Nat
  depth : Nat
  limit : Nat
  tiles : Nat
  deriving DecidableEq, Repr

/-- Bytes of register stack store of a group. -/
def Ask.stack (a : Ask) : Nat := a.width * a.depth * 4

/-- Bytes of spill area of a group (R179). -/
def Ask.spill (a : Ask) : Nat := (a.limit - a.depth) * a.width * 4

/-- Bytes of a partition's store, of a core's galley, and tiles of a core's forme (R3). -/
def partBytes : Nat := 262144

def galleyPages : Nat := 1024

def formeTiles : Nat := 32

def State.grantsOn (s : State) (core : Nat) : List Grant := s.grants.filter (fun g => g.core == core)

/-- Grants of a partition: slots 8p to 8p + 7. -/
def State.grantsIn (s : State) (core part : Nat) : List Grant :=
  (s.grantsOn core).filter (fun g => g.slot / 8 == part)

/-- Free store of a partition. -/
def State.freeStore (s : State) (core part : Nat) : Nat :=
  partBytes - ((s.grantsIn core part).map (·.stkLen)).sum

/-- Galley pages of a core that live teams hold. -/
def State.usedPages (s : State) (core : Nat) : List Nat :=
  s.teams.flatMap (fun t =>
    if t.retired then []
    else (if t.cores[0]? == some core then t.pages else [])
      ++ (if t.cores[1]? == some core then t.pages2 else []))

/-- Free galley pages of a core, ascending. -/
def State.freePages (s : State) (core : Nat) : List Nat :=
  let used := s.usedPages core
  (List.range galleyPages).filter (fun p => !used.contains p)

/-- Granted tiles of a core. -/
def State.usedTiles (s : State) (core : Nat) : Nat := ((s.grantsOn core).map (·.tiles)).sum

/-- The lowest place, a multiple of `align` at or above `lo`, where `len` fits below `hi` between used
areas. -/
def findRun (used : List (Nat × Nat)) (lo hi len align : Nat) : Option Nat :=
  let cands := lo :: used.map (fun u => roundUpTo (u.1 + u.2) align)
  let ok (x : Nat) : Bool := lo ≤ x && x + len ≤ hi && !used.any (fun u => u.1 < x + len && x < u.1 + u.2)
  match cands.filter ok with
  | [] => none
  | x :: xs => some (minOf x (x :: xs))

/-- The first per-core total of R40, checks 2 to 6, that n more groups and some galley bytes pass;
0 for none. -/
def State.totals (s : State) (core n gal : Nat) (a : Ask) : Nat :=
  let gs := s.grantsOn core
  if ((List.range 8).map (s.freeStore core)).sum < n * a.stack then 2
  else if 64 < gs.length + n then 3
  else if 2048 < (gs.map (·.lanes)).sum + n * a.width then 4
  else if (s.freePages core).length * 4096 < gal then 5
  else if formeTiles < s.usedTiles core + n * a.tiles then 6
  else 0

/-! ## Grants -/

/-- The partition with the most free store among those with a free slot, the lowest of equals (R97). -/
def State.bestPart (s : State) (core : Nat) : Option Nat :=
  let ps := (List.range 8).filter (fun p => (s.grantsIn core p).length < 8)
  ps.foldl (fun b p =>
    match b with
    | none => some p
    | some q => if s.freeStore core q < s.freeStore core p then some p else some q) none

/-- Spill areas of a die that are reserved. -/
def State.spillUsed (s : State) (d : Nat) : List (Nat × Nat) :=
  (s.grants.filter (fun g => dieOf g.core == d && g.spillLen != 0)).map (fun g => (g.spill, g.spillLen))

/-- A spill area in a die's pool (R179), 0 where a group needs none. -/
def State.spillArea (s : State) (d len : Nat) : Option Nat :=
  let x := s.die d
  if len == 0 then some 0
  else findRun (s.spillUsed d) x.spillBase (x.spillBase + x.spillSize) (roundUpTo len 128) 128

/-- A slot, store columns and spill area for a group (R97, R179); answers its slot. -/
def State.grantStack (s : State) (core team : Nat) (a : Ask) : Option (State × Nat) :=
  match s.bestPart core with
  | none => none
  | some p =>
    let gs := s.grantsIn core p
    match findRun (gs.map (fun g => (g.stk, g.stkLen))) 0 partBytes a.stack 1,
        firstBelow 8 (fun i => !gs.any (fun g => g.slot == 8 * p + i)),
        s.spillArea (dieOf core) a.spill with
    | some stk, some i, some sp =>
      let g : Grant :=
        { core := core, slot := 8 * p + i, team := team, stk := stk, stkLen := a.stack, lanes := a.width
          tile0 := 0, tiles := 0, spill := sp
          spillLen := if a.spill == 0 then 0 else roundUpTo a.spill 128 }
      some ({ s with grants := s.grants ++ [g] }, g.slot)
    | _, _, _ => none

/-- n groups' slots, store and spill areas, in group order. -/
def State.grantStacks (s : State) (core team : Nat) (a : Ask) : Nat → Option (State × List Nat)
  | 0 => some (s, [])
  | n + 1 =>
    match s.grantStack core team a with
    | none => none
    | some (s, slot) =>
      match s.grantStacks core team a n with
      | none => none
      | some (s, slots) => some (s, slot :: slots)

def State.setGrant (s : State) (g : Grant) : State :=
  { s with grants := s.grants.map (fun x => if x.core == g.core && x.slot == g.slot then g else x) }

def State.grant? (s : State) (core slot : Nat) : Option Grant :=
  s.grants.find? (fun g => g.core == core && g.slot == slot)

/-- Tiles set to +0.0 as they are granted, which clears their poison (R97). -/
def State.clearTiles (s : State) (core t0 n : Nat) : State :=
  (List.range n).foldl (fun s i => s.tileZero core (t0 + i)) s

/-- A run of tiles for a group's slot, at the lowest tile where one fits or at a given one (R97,
R395). -/
def State.grantTiles (s : State) (core slot n : Nat) (at_ : Option Nat) : Option State :=
  match s.grant? core slot with
  | none => none
  | some g =>
    let used := ((s.grantsOn core).filter (fun x => x.tiles != 0)).map (fun x => (x.tile0, x.tiles))
    let place := match at_ with
      | some t => if t + n ≤ formeTiles && !used.any (fun u => u.1 < t + n && t < u.1 + u.2) then some t
          else none
      | none => findRun used 0 formeTiles n 1
    if n == 0 then some s
    else place.map (fun t => (s.setGrant { g with tile0 := t, tiles := n }).clearTiles core t n)

/-- Tiles for several groups, in group order. -/
def State.grantAllTiles (s : State) (core n : Nat) : List Nat → Option State
  | [] => some s
  | slot :: rest =>
    match s.grantTiles core slot n none with
    | none => none
    | some s => s.grantAllTiles core n rest

/-- What a fit answers: the limit code that fails, or the state with the grants and the slots of the
groups in order. -/
inductive Fit where
  | no (limit : Nat)
  | yes (s : State) (slots : List Nat)

/-- n groups of a team granted on one core, with its galley bytes there (R97). -/
def State.grantCore (s : State) (core team n gal : Nat) (a : Ask) : Fit :=
  let c := s.totals core n gal a
  if c != 0 then .no c
  else
    match s.grantStacks core team a n with
    | none => .no 2
    | some (s, slots) =>
      match s.grantAllTiles core a.tiles slots with
      | none => .no 6
      | some s => .yes s slots

/-- A slot's grants given back (R206, R387). -/
def State.releaseSlot (s : State) (core slot : Nat) : State :=
  { s with grants := s.grants.filter (fun g => !(g.core == core && g.slot == slot)) }

/-! ## Gangs on cores -/

/-- What a kernel's groups ask for. -/
def KDesc.ask (k : KDesc) : Ask := ⟨16 * 2 ^ k.widthCode, k.depth, k.limit, k.tiles⟩

/-- Cores of team t of a gang with base core b (R35). -/
def KDesc.teamCores (k : KDesc) (b t : Nat) : List Nat :=
  if k.pair then [b + 2 * t, b + 2 * t + 1] else [b + t]

/-- Groups on each core of a team. -/
def KDesc.perCore (k : KDesc) : Nat := if k.pair then k.groups / 2 else k.groups

/-- Galley bytes on each core of a team. -/
def KDesc.galPerCore (k : KDesc) : Nat := if k.pair then k.galley / 2 else k.galley

/-- Whether a base core suits a gang's shape (R35, R108). -/
def KDesc.shapeOk (k : KDesc) (b : Nat) : Bool :=
  if k.pair then b % 4 == 0 || (b % 4 == 2 && k.teams == 1) else b % 4 + k.teams ≤ 4

/-- A team's grants on its cores, core by core: slots in group order. -/
def State.grantOn (s : State) (k : KDesc) (team : Nat) : List Nat → Fit
  | [] => .yes s []
  | c :: cs =>
    match s.grantCore c team k.perCore k.galPerCore k.ask with
    | .no l => .no l
    | .yes s slots =>
      match s.grantOn k team cs with
      | .no l => .no l
      | .yes s more => .yes s (slots ++ more)

/-- Unspecified bytes in the pages of a galley that are granted (R97): free values from a number on. -/
def freePagesOf (g : Sparse Byte) (pages : List Nat) (n : Nat) : Sparse Byte :=
  (pages.mapIdx (fun i p => (i, p))).foldl (fun (g : Sparse Byte) (e : Nat × Nat) =>
    Sparse.write g (4096 * e.2)
      ((List.range 4096).map (fun k => (Config.freeWord (n + 4096 * e.1 + k)).setWidth 8))) g

/-- A core's galley with unspecified bytes in some pages. -/
def State.unspecify (s : State) (core : Nat) (pages : List Nat) : State :=
  let k := s.core core
  { s.setCore core { k with galley := freePagesOf k.galley pages s.fresh } with
    fresh := s.fresh + 4096 * pages.length }

/-- Galley pages for a team on its cores, the lowest free ones; their contents are unspecified (R97). -/
def State.grantPages (s : State) (tm : Team) (cores : List Nat) (perCore : Nat) : State :=
  let take (c : Nat) : List Nat := (s.freePages c).take (perCore / 4096)
  let pages := match cores[0]? with | some c => take c | none => []
  let pages2 := match cores[1]? with | some c => take c | none => []
  let s := s.unspecify (cores.headD 0) pages
  let s := match cores[1]? with | some c => s.unspecify c pages2 | none => s
  s.setTeam { tm with cores := cores, pages := pages, pages2 := pages2 }

/-- A team granted on its cores. -/
def State.grantTeam (s : State) (k : KDesc) (team : Nat) (cores : List Nat) : Fit :=
  match s.grantOn k team cores with
  | .no l => .no l
  | .yes s slots =>
    match s.team? team with
    | some tm => .yes (s.grantPages tm cores k.galPerCore) slots
    | none => .no 3

/-- Every team of a gang granted at a base core, or none (R96); slots of each team in turn. -/
def State.grantTeams (s : State) (k : KDesc) (base : Nat) : List (Nat × Nat) → Fit
  | [] => .yes s []
  | (t, id) :: rest =>
    match s.grantTeam k id (k.teamCores base t) with
    | .no l => .no l
    | .yes s slots =>
      match s.grantTeams k base rest with
      | .no l => .no l
      | .yes s more => .yes s (slots ++ more)

/-! ## Starting a group -/

/-- A group at its start (R42): its vector and most uniform registers zero, its lanes numbered. -/
def startThread (id core slot width depth limit : Nat) (time : Nat) : Thread :=
  { id := id, core := core, part := slot / 8, slot := slot, f := 0, width := width, kwidth := width
    splits := [], hists := [id], ctx := 0x1000, sup := true, memdef := 0x20, launch := 0, gang := 0
    team := 0, grp := 0, teamIdx := 0, linear := 0, pc := 0, after := 0, exec := maskBelow width
    live := maskBelow width, rstack := [], sregs := [], preds := [], fx := []
    store := (List.range (width - 1)).map (fun l => (l + 1, BitVec.ofNat 32 (l + 1)))
    storePoison := [], wp := 0, rbase := 0, dres := depth, lim := limit, stkbase := 0, spillbase := 0
    mathctl := 0, srcnt := 0, wlimit := width, maxWidth := width, pstat := 0, toks := []
    lct := Lct.zero, acq := 0, resident := time, lastIssue := 0, idleTill := 0, prio := 0, codebase := 0, tile0 := 0
    tiles := 0, park := .run, relDone := false, only := none, desc := none, lineage := 0
    claimSeq := 0, susp := none, marked := [], stopped := false, peerLate := false, lateNow := false, wpNext := 0, bellT := time }

/-- s1 at start (R42). -/
def s1Word (teamIdx grp f width core : Nat) : W64 :=
  BitVec.ofNat 64 (teamIdx + grp * 2 ^ 8 + f * 2 ^ 16 + width * 2 ^ 24 + core * 2 ^ 32)

/-- Uniform registers from a list, zeros unlisted. -/
def sregsOf (vs : List W64) : Sparse W64 :=
  ((vs.mapIdx (fun i v => (i, v))).filter (fun e => e.2 != 0))

/-- Grid coordinates of a gang (R42, R94). -/
def coordsOf (grid : Nat × Nat × Nat) (lin : Nat) : W64 :=
  let (x, y, _) := grid
  BitVec.ofNat 64 (lin % x + lin / x % y * 2 ^ 32 + lin / (x * y) * 2 ^ 48)

/-- A group of a launch at its start (R42), in a granted slot. -/
def State.startGroup (s : State) (l : Launch) (g : Gang) (tm : Team) (grp core slot : Nat) : State :=
  let (id, s) := s.newId
  let k := l.kd
  let width := 16 * 2 ^ k.widthCode
  let gr := (s.grant? core slot).getD ⟨core, slot, tm.id, 0, 0, 0, 0, 0, 0, 0⟩
  let memdef := match s.ctx? l.ctx with | some c => c.memdef | none => 0x20
  let t := startThread id core slot width k.depth k.limit s.time
  let t : Thread := { t with
    ctx := l.ctx, sup := l.sup, memdef := memdef, launch := l.ident, gang := g.id, team := tm.id
    grp := grp, teamIdx := tm.idx, linear := g.linear
    pc := BitVec.ofNat 64 (l.codeVa + k.code + k.entry)
    codebase := BitVec.ofNat 64 (l.codeVa + k.code)
    sregs := sregsOf [coordsOf l.grid g.linear, s1Word tm.idx grp 0 width core, l.ident
      , if k.argSize == 0 then 0 else BitVec.ofNat 64 (argVa l.ident), BitVec.ofNat 64 k.galley
      , BitVec.ofNat 64 (gr.tile0 + gr.tiles * 2 ^ 8)]
    stkbase := gr.stk, spillbase := gr.spill, wlimit := 16 * 2 ^ k.maxCode, maxWidth := 16 * 2 ^ k.maxCode
    prio := l.prio, tile0 := gr.tile0, tiles := gr.tiles }
  { s with threads := s.threads ++ [t] }

/-- Core of group g of a team (R35). -/
def Team.coreOf (tm : Team) (g : Nat) : Nat :=
  if tm.pair && tm.groups / 2 ≤ g then tm.cores.getD 1 0 else tm.cores.headD 0

/-- A gang placed on a core drops that core's fetched blocks of its code object (R111). -/
def State.dropBlocks (s : State) (core : Nat) (l : Launch) : State :=
  { s with blocks := s.blocks.filter (fun b =>
      !(b.core == core && b.ctx == l.ctx && l.codeVa ≤ b.va && b.va < l.codeVa + l.kd.size)) }

end Sys2Proof.Machine
end

