-- ==== Sys2Proof/Machine/HandIn.lean ====
section
/-! DEFINITION. System calls (R368, R369), taking hand-in records (R363), applying their answers
(R365, R367), service groups (R378 to R380), the bell (R370, R371), and the steps of a proctor lane
(R198, R375 to R377). -/

namespace Sys2Proof.Machine

/-- The acquire of the present group's instruction, already performed (R346); one whose register write waits for a
lock comes after it. -/
def State.acquireAfter (s : State) : State :=
  s.withThread (fun t =>
    match t.park with
    | .lock d v _ => s.setThread { t with park := .lock d v true }
    | _ => s.acquireBy t.id)

/-! ## System calls -/

/-- Payload of a system-call record (R361, R368). -/
def syscPayload (t : Thread) (l : Nat) : List Byte :=
  leBytes 4 (t.vreg 0 l).toNat ++ [0, 0, 0, 0]
    ++ (List.range 6).flatMap (fun i => leBytes 8 (t.vpair (2 * i + 2) l).toNat)

/-- SYSC (R368). Releases at .sys scope and posts one system-call record per active lane, then parks. -/
def execSysc (h : Hdr) (s : State) : Host.Outcome State Fault Refusal :=
  run (.sysc h) s (fun s => s.withThread (fun t =>
    if active t h == 0 then s.advance h
    else s.release h 5 (fun s => s.withThread (fun t =>
      match s.postAll t.core ((lanesOf (active t h)).map (fun l =>
          threadPost t 0x03 (t.f + l) (laneBit l) (syscPayload t l))) with
      | some s => s.setThread { t.parkRecords (nextPc t.pc h) with relDone := false }
      | none => s.poll))))

/-! ## Records -/

/-- A record's header with its TAKER and STATE (R360). -/
def HqRec.withState (r : HqRec) (taker state : Nat) : HqRec :=
  let n := leNat (r.bytes.take 8)
  { r with bytes := leBytes 8 (n / 2 ^ 27 * 2 ^ 27 + taker * 2 ^ 21 + n % 2 ^ 21 / 4 * 4 + state)
             ++ r.bytes.drop 8
           state := state }

/-- A record replaced in its queue and in its ring. -/
def State.setRec (s : State) (core : Nat) (r : HqRec) : State :=
  let q := (s.core core).hq
  (s.setHq core { q with recs := q.recs.map (fun x => if x.place == r.place then r else x) }).mirror core r

/-- Posted records of some kinds, nearest HEAD first (R363). -/
def Hq.matching (q : Hq) (kinds : W64) : List HqRec :=
  sortBy (fun r => (r.place + ringSize - q.head) % ringSize)
    (q.recs.filter (fun r => r.state == 1 && kinds.getLsbD r.kind))

/-- One lane's record taken (R363). -/
def State.takeLane (s : State) (t : Thread) (d l : Nat) (r : HqRec) : State :=
  let r := { r.withState t.slot 2 with taker := some t.slot }
  let s := s.setRec t.core r
  match s.thread? t.id with
  | some t => s.setThread ((List.range 16).foldl (fun (t : Thread) k =>
      t.setVreg (d + k) l (BitVec.ofNat 32 (leNat ((r.bytes.drop (4 * k)).take 4)))) t)
  | none => s

/-- HQTAKE and HQTAKE.W (R363). -/
def hqtakeBody (i : Instr) (h : Hdr) (d : BitVec 6) (a : BitVec 7) (b : BitVec 6) (wait : Bool)
    (s : State) : Host.Outcome State Fault Refusal :=
  run i s (fun s => s.withThread (fun t =>
    let ms := (s.core t.core).hq.matching (t.sreg b.toNat)
    let lanes := lanesOf (active t h)
    if wait && ms.isEmpty then s.poll
    else
      let s := (lanes.zip ms).foldl (fun s x => s.takeLane t d.toNat x.1 x.2) s
      let taken := (lanes.take ms.length).foldl (fun m l => m ||| laneBit l) (0 : Mask)
      s.withThread (fun t =>
        let t := (lanes.drop ms.length).foldl (fun (t : Thread) l => t.setVreg d.toNat l 0) t
        ((s.setThread { t with bellT := s.time }).finish h a.toNat taken).acquireAfter)))

/-- HQTAKE (R363). Takes posted hand-in records of chosen kinds, one per active lane. -/
def execHqtake (h : Hdr) (d : BitVec 6) (a : BitVec 7) (b : BitVec 6) (s : State) :
    Host.Outcome State Fault Refusal :=
  hqtakeBody (.hqtake h d a b) h d a b false s

/-- HQTAKE.W (R363). Takes hand-in records, waiting until a matching record is posted. -/
def execHqtakeW (h : Hdr) (d : BitVec 6) (a : BitVec 7) (b : BitVec 6) (s : State) :
    Host.Outcome State Fault Refusal :=
  hqtakeBody (.hqtakeW h d a b) h d a b true s

/-! ## Answers -/

/-- Action of a done record, 0 without one. -/
def HqRec.action (r : HqRec) : Nat := match r.answer with | some a => a.1 | none => 0

/-- The records with an action among 1 to 4, of which the last accepted decides (R365). -/
def decider (rs : List HqRec) : Option HqRec :=
  (rs.filter (fun r => 1 ≤ r.action && r.action ≤ 4)).foldl (fun b r =>
    match b with
    | none => some r
    | some x => if x.order < r.order then some r else b) none

/-- Lanes of the records with an action. -/
def lanesWith (rs : List HqRec) (action : Nat) : Mask :=
  (rs.filter (fun r => r.action == action)).foldl (fun m r => m ||| r.mask) 0

/-- System-call answers written to their lanes (R364, R368). -/
def answerCalls (t : Thread) (rs : List HqRec) : Thread :=
  rs.foldl (fun (t : Thread) r =>
    match r.kind, r.answer with
    | 0x03, some (0, v, p0, _) => (t.setVreg 0 (lowLane r.mask) v).setPred 0 (lowLane r.mask) p0
    | _, _ => t) t

/-- Where a thread goes on after its answers (R364, R365, R367): where every faulted lane has exited, nothing is
replayed, not even for blocked lanes of the same issue (log entry 65). A locked register of action 4 is written when
its lock is released (R184). -/
def State.resumeAfter (s : State) (t : Thread) (rs : List HqRec) : Thread :=
  let told : Mask := rs.foldl (fun m r => m ||| r.mask) 0
  let on (pc : W64) : Thread := { t with pc := pc, park := .run, relDone := false, only := none }
  match decider rs with
  | none => on t.after
  | some r =>
    match r.answer with
    | some (1, _, _, _) =>
      if r.kind == 0x02 then
        { t with park := .run, only := some ((lanesWith rs 1 ||| (t.only.getD 0 &&& ~~~told)) &&& t.live) }
      else { t with park := .run, relDone := false }
    | some (3, _, _, aux) => on aux
    | some (4, v, _, aux) =>
      if s.locked t v.toNat then { t with park := .lock v.toNat aux true, relDone := false }
      else { t.setSreg v.toNat aux with park := .run, relDone := false }
    | _ => on t.after

/-- A thread's answers applied (R365): exits first, then the others; then an acquire, after which the records are
freed and the group unparks, where blocked lanes of a replay do not hold it (R367). -/
def State.applyAnswers (s : State) (id : Nat) : State :=
  match s.thread? id with
  | none => s
  | some t =>
    let all := sortBy (fun (x : Nat × HqRec) => lowLane x.2.mask) (s.recsOf id)
    let rs := all.map (·.2)
    let ex := lanesWith rs 5 &&& t.live
    let pathEnds := t.exec &&& ~~~ex == 0
    let t := answerCalls t rs
    let t := if ex == 0 then t else
      { t with exec := t.exec &&& ~~~ex, live := t.live &&& ~~~ex
               rstack := t.rstack.map (fun e => (e.1, e.2 &&& ~~~ex)) }
    let t := if pathEnds then unwind t t.rstack else s.resumeAfter t rs
    let s := (if t.only.isSome then s else s.unhold id).setThread t
    let s := match t.park with | .lock .. => s | _ => s.acquireBy id
    if ex == 0 then s else s.afterExit

/-- A thread whose records are all done goes on (R365). -/
def State.settleRecords (s : State) (id : Nat) : State :=
  match s.thread? id with
  | some t =>
    let rs := s.recsOf id
    if t.onRecords && t.susp.isNone && !rs.isEmpty && rs.all (fun x => x.2.state == 3) then
      s.applyAnswers id
    else s
  | none => s

/-- Bitmap of idempotent calls (R369). -/
def State.idempotent (s : State) (die call : Nat) : Bool :=
  let a := (s.die die).callIdem
  a != 0 && call < 0x10000 && bit (s.loadNat (a + call / 8) 0 1) (call % 8)

/-- Bytes 8 to 15 of a call's record as its answer leaves them (R361). -/
def HqRec.withCallAnswer (r : HqRec) (v : W32) (p0 : Bool) : HqRec :=
  { r with bytes := r.bytes.take 8 ++ leBytes 4 v.toNat ++ leBytes 4 (b2n p0) ++ r.bytes.drop 16 }

/-- The interrupted answer (R369). -/
def State.interruptRec (s : State) (core : Nat) (r : HqRec) : State :=
  let (n, s) := s.newId
  s.setRec core { (r.withCallAnswer 0xFFFFFFF4 false).withState (r.taker.getD 0) 3 with
    answer := some (0, 0xFFFFFFF4, false, 0), order := n }

/-! ## Service groups -/

/-- A service group: it belongs to the supervisor context and to no launch (R378). -/
def Thread.service (t : Thread) : Bool := t.sup && t.launch == 0

/-- A malformed descriptor of SVCSTART (R379). -/
def svcMalformed (r0 r1 r2 : Nat) : Bool :=
  let limit := bits r1 24 24
  let depth := bits r1 8 16
  halfOf r0 != some true || r0 % 4 != 0 || bits r1 48 16 != 0 || bits r1 2 6 != 0 || bits r1 0 2 == 3
    || depth % 8 != 0 || depth < 64 || 4096 < depth || limit % 8 != 0 || limit < depth || 65536 < limit
    || r2 / 2 ^ 32 != 0 || r2 % 4096 != 0 || 0x400000 < r2

/-- The descriptor of R379. -/
def svcDesc (core : Nat) (r0 r1 r2 r3 : W64) : SvcDesc :=
  { core := core, entry := r0, limit := bits r1.toNat 24 24, depth := bits r1.toNat 8 16, widthCode := bits r1.toNat 0 2
    galley := bits r2.toNat 0 32, arg := r3 }

/-- A service group started on a core (R378, R97), or the limit code that fails. -/
def State.startService (s : State) (core : Nat) (d : SvcDesc) : Fit :=
  let a : Ask := ⟨16 * 2 ^ d.widthCode, d.depth, d.limit, 0⟩
  if partBytes < a.stack then .no 1
  else
    let (team, s) := s.newId
    let tm : Team :=
      { id := team, gang := team, idx := 0, pair := false, cores := [core], galley := d.galley, pages := []
        pages2 := [], bars := [], groups := 1, exited := [], folded := false, retired := false }
    match s.grantCore core team 1 d.galley a with
    | .no l => .no l
    | .yes s slots =>
      let slot := slots.headD 0
      let s : State := { s with teams := s.teams ++ [tm] }
      let s := s.grantPages tm [core] d.galley
      let (id, s) := s.newId
      let gr := (s.grant? core slot).getD ⟨core, slot, team, 0, 0, 0, 0, 0, 0, 0⟩
      let t := startThread id core slot a.width d.depth d.limit s.time
      let memdef := match s.ctx? 0x1000 with | some c => c.memdef | none => 0x20
      let t : Thread := { t with
        memdef := memdef, gang := team, team := team, pc := d.entry, stkbase := gr.stk
        spillbase := gr.spill, desc := some d
        sregs := sregsOf [0, s1Word 0 0 0 a.width core, 0, d.arg, BitVec.ofNat 64 d.galley, 0] }
      .yes { s with threads := s.threads ++ [t] } [slot]

/-- SVCSTART (R380). Starts a service group from a four-register descriptor. -/
def execSvcstart (h : Hdr) (d : BitVec 7) (a : BitVec 7) (s : State) :
    Host.Outcome State Fault Refusal :=
  run (.svcstart h d a) s (fun s =>
    let r (i : Nat) : W64 := s.sreg (a.toNat + i)
    let put (s : State) (v : W64) : State := s.finish h d.toNat v
    if svcMalformed (r 0).toNat (r 1).toNat (r 2).toNat then put s (codeWord 0x01 0)
    else
      match s.startService s.here (svcDesc s.here (r 0) (r 1) (r 2) (r 3)) with
      | .no l => put s (codeWord 0x02 (l * 2 ^ 48))
      | .yes s slots => put s (codeWord 0 (slots.headD 0 + slots.headD 0 / 8 * 2 ^ 8)))

/-- Threads of a group slot. -/
def State.inSlot (s : State) (core slot : Nat) : List Thread :=
  s.threads.filter (fun t => t.core == core && t.slot == slot)

/-- Press operations of some threads abort with class 5 (R278, R371). -/
def State.abortPress (s : State) (ids : List Nat) (core : Nat) : State :=
  (s.pressOps.filter (fun p => meets p.owners ids)).foldl (fun s p => s.pressAbort p (fun _ => 5) core) s

/-- What steps 1 and 2 of R371 do: the group's press operations abort, its failed tokens are reported as at a
retirement while copies under way go on to their ends without it, its taken records go back or are interrupted, and it
retires; records that nobody waits for then are freed once they are done. Answers how many of each (log entry 87). -/
def State.stopService (s : State) (core slot : Nat) : State × Nat × Nat :=
  let ts := s.inSlot core slot
  let ids := ts.map (·.id)
  let teams := ts.map (·.team)
  let s := s.abortPress ids core
  let s := ts.foldl State.reportTokens (ids.foldl State.unhold s)
  let taken := (s.core core).hq.recs.filter (fun r => r.state == 2 && r.taker == some slot)
  let bad (r : HqRec) : Bool := r.kind == 0x03 && !s.idempotent (dieOf core) (leNat ((r.bytes.drop 8).take 4))
  let back := taken.filter (fun r => !bad r)
  let cut := taken.filter bad
  let s := back.foldl (fun (s : State) r => s.setRec core { r.withState 0 1 with taker := none }) s
  let s := cut.foldl (fun (s : State) r => s.interruptRec core r) s
  let s : State := { s with
    threads := s.threads.filter (fun t => !ids.contains t.id)
    teams := s.teams.map (fun (tm : Team) =>
      if teams.contains tm.id then { tm with retired := true, bars := [] } else tm) }
  let s := s.freeRetired.releaseSlot core slot
  let s := ids.foldl (fun (s : State) id => s.freeOf id (fun r => r.state == 3)) s
  let s := (cut.filterMap (·.poster)).foldl State.settleRecords s
  let s := s.freeRecs core (fun r => r.state == 3 && s.posterGone r)
  (s, back.length, cut.length)

/-- SVCPARK (R380). Parks, unparks or stops a service group of the same core. -/
def execSvcpark (h : Hdr) (d : BitVec 7) (a : BitVec 7) (b : BitVec 6) (s : State) :
    Host.Outcome State Fault Refusal :=
  run (.svcpark h d a b) s (fun s =>
    let slot := (s.sreg a.toNat).toNat
    let op := (s.sreg b.toNat).toNat
    let core := s.here
    let put (s : State) (c : Nat) : State := s.finish h d.toNat (codeWord c 0)
    let ts := (s.inSlot core slot).filter Thread.service
    if 63 < slot || ts.isEmpty then put s 0x01
    else if 2 < op then put s 0x03
    else if op == 2 then
      if ts.any (fun t => t.id == s.self) then (s.stopService core slot).1
      else put (s.stopService core slot).1 0x00
    else if ts.all (fun t => t.stopped == (op == 0)) then put s 0x02
    else
      put { s with threads := s.threads.map (fun (t : Thread) =>
              if ts.any (fun u => u.id == t.id) then { t with stopped := op == 0 } else t) } 0x00)

/-- Bit n of a core's PIPEND set (R198). -/
def State.signal (s : State) (core n : Nat) : State :=
  let p := (s.core core).proctor
  s.setProctor core { p with pipend := p.pipend ||| BitVec.ofNat 6 (2 ^ n) }

/-- Whether a service group's slot is stuck (R370). -/
def State.stuck (s : State) (t : Thread) : Bool :=
  t.service && (s.core t.core).hq.recs.any (fun r => r.state == 2 && r.taker == some t.slot)
    && maxOf ((s.inSlot t.core t.slot).map (·.bellT)) + (s.die (dieOf t.core)).bellCtl ≤ s.time

/-- BELL_RESTART (R371). The bell restarts a stuck service group, returning or interrupting its taken
records and starting a successor. -/
def execBellRestart (s : State) : Host.Outcome State Fault Refusal :=
  .next (match s.thread? s.arg.a with
    | none => s
    | some t =>
      if !s.stuck t then s
      else
        let d := dieOf t.core
        let (s, back, cut) := s.stopService t.core t.slot
        let (s, new) := match t.desc with
          | some desc =>
            if desc.core != t.core then (s, 0xFF) else match s.startService t.core desc with
            | .yes s slots => (s, slots.headD 0xFF)
            | .no _ => (s, 0xFF)
          | none => (s, 0xFF)
        let s := (s.setDie d { s.die d with bellCnt := (s.die d).bellCnt + 1 }).signal t.core 5
        s.postDevice t.core (devicePost 0x10 0 none
          (leBytes 1 t.slot ++ leBytes 1 new ++ leBytes 2 back ++ leBytes 2 cut)))

/-! ## The queue's base -/

/-- A write of HQBASE (R359). -/
def State.hqBase (s : State) (core v : Nat) : State :=
  let q := (s.core core).hq
  if !q.recs.isEmpty || v % 4096 != 0 || (v != 0 && regionOf v != .hbm (dieOf core)) then s
  else
    let q := if q.base == 0 then { q with base := v, head := 0, tail := 0 } else { q with base := v }
    (s.setHq core q).drainOverflow core q.overflow.length

/-- HQBASE_WRITE (R359). A supervisor write of HQBASE starts a core's hand-in queue empty and posts the
records waiting in the overflow. -/
def execHqbaseWrite (s : State) : Host.Outcome State Fault Refusal :=
  .next (if isSupervisor s.arg.w then s.hqBase s.arg.a s.arg.v.toNat else s)

/-! ## Proctor lanes -/

/-- TRET (R377). Returns from a proctor trap to EPC and sets IE. -/
def execTret (h : Hdr) (s : State) : Host.Outcome State Fault Refusal :=
  run (.tret h) s (fun s =>
    match s.cur with
    | .proctor c => s.returnProctor c
    | .thread _ => s.trap h vIllegal 0x06)

/-- PROCTOR_TIMER_TICK (R198). The proctor timer sets PIPEND bit 0 at each PTICK, or increments PTMISS if
the bit is already set. -/
def execProctorTimerTick (s : State) : Host.Outcome State Fault Refusal :=
  .next (
    let c := s.arg.a
    let p := (s.core c).proctor
    if s.time < p.tickT0 + p.ptick then s
    else
      let p := { p with tickT0 := p.tickT0 + p.ptick }
      s.setProctor c (if p.pipend.getLsbD 0 then { p with ptmiss := min 0xFFFF (p.ptmiss + 1) }
        else { p with pipend := p.pipend ||| 1 }))

/-- Input that a proctor lane takes, in the order of R198. -/
def takenInput (x : BitVec 6) : Option Nat := [5, 0, 1, 2, 3, 4].find? (fun n => x.getLsbD n)

/-- PROCTOR_INTERRUPT (R376). The proctor lane takes its highest pending enabled input between
instructions, saves EPC, clears IE and enters its vector. -/
def execProctorInterrupt (s : State) : Host.Outcome State Fault Refusal :=
  .next (
    let c := s.arg.a
    let k := s.core c
    let x := k.pipend &&& k.proctor.pien
    let x := if k.proctor.ie then x else x &&& 0x20
    match takenInput x with
    | none => s
    | some n =>
      if !k.proctor.run || !k.proctor.started then s
      else
        let epc := match k.proctor.park with | .sleep _ _ => k.proctor.pc + 4 | _ => k.proctor.pc
        s.trapProctor c (if n == 0 then vTimer else vInterrupt) (if n == 0 then 0 else n) 0 epc true)

/-- A write to RUN of a proctor frame (R375). -/
def State.runLane (s : State) (c : Nat) (v : Byte) : State :=
  let p := (s.core c).proctor
  if v.getLsbD 0 && !p.run && p.started then
    s.setProctor c { p with run := true, dbl := false, pc := p.epc, park := .run }
  else s

/-- PROCTOR_RUN_WRITE (R375). Writing 1 to RUN restarts a stopped proctor lane at EPC. -/
def execProctorRunWrite (s : State) : Host.Outcome State Fault Refusal :=
  .next (if isSupervisor s.arg.w then s.runLane s.arg.a (s.arg.v.setWidth 8) else s)

end Sys2Proof.Machine
end

