-- ==== Sys2Proof/Machine/Crypto.lean ====
section
/-! DEFINITION. The algorithms of the security block: SHA3-512 (R14, R16, R36), KMAC256 of NIST
SP 800-185 and the AES key wrap of NIST SP 800-38F (R292). -/

namespace Sys2Proof.Machine

/-! ## Keccak

The state is a list of 25 lanes, that of column x and row y at 5y + x. -/

/-- Lane of column x and row y, both modulo 5. -/
def spongeLane (a : List W64) (x y : Nat) : W64 := a.getD (5 * (y % 5) + x % 5) 0

/-- A state whose lane of column x and row y is f x y. -/
def spongeOf (f : Nat → Nat → W64) : List W64 := (List.range 25).map (fun n => f (n % 5) (n / 5))

/-- The walk over the lanes other than the origin that turns and moves them: column and row after n moves from
column 1, row 0. -/
def spongeWalk (n : Nat) : Nat × Nat :=
  iter (fun (p : Nat × Nat) => (p.2, (2 * p.1 + 3 * p.2) % 5)) n (1, 0)

/-- How far the lane of a column and row is turned: the triangular number of its place in the walk, 0 at the
origin. -/
def spongeTurn (x y : Nat) : Nat :=
  ((List.range 24).find? (fun n => spongeWalk n == (x, y))).elim 0 (fun n => (n + 1) * (n + 2) / 2 % 64)

/-- Bit n of the feedback register that the round constants are read from: x^8 + x^6 + x^5 + x^4 + 1. -/
def spongeBit (n : Nat) : Bool :=
  (iter (fun (r : Byte) => (r <<< 1) ^^^ (if r.getLsbD 7 then 0x71 else 0)) (n % 255) (1 : Byte)).getLsbD 0

/-- Constant of round r: seven bits of the register, at the places 2^j - 1. -/
def spongeConst (r : Nat) : W64 :=
  BitVec.ofNat 64 (((List.range 7).map (fun j => b2n (spongeBit (7 * r + j)) * 2 ^ (2 ^ j - 1))).sum)

/-- Parity of each column. -/
def spongeParity (a : List W64) (x : Nat) : W64 :=
  (List.range 5).foldl (fun v y => v ^^^ spongeLane a x y) 0

/-- A round of Keccak-f[1600]: the columns' parities are mixed in, the lanes turn and move, each row is combined with its
complement, and the round's constant is added at the origin. -/
def spongeRound (a : List W64) (r : Nat) : List W64 :=
  let mixed := spongeOf (fun x y =>
    spongeLane a x y ^^^ spongeParity a (x + 4) ^^^ (spongeParity a (x + 1)).rotateLeft 1)
  let moved := spongeOf (fun x y =>
    let from_ := (x + 3 * y) % 5
    (spongeLane mixed from_ x).rotateLeft (spongeTurn from_ x))
  spongeOf (fun x y =>
    let v := spongeLane moved x y ^^^ (spongeLane moved (x + 2) y &&& ~~~ spongeLane moved (x + 1) y)
    if x + y == 0 then v ^^^ spongeConst r else v)

/-- The permutation of 24 rounds. -/
def keccakF (a : List W64) : List W64 := (List.range 24).foldl spongeRound a

/-- A block absorbed. -/
def keccakAbsorb (a : List W64) (block : List Byte) : List W64 :=
  keccakF (a.mapIdx (fun i v => v ^^^ BitVec.ofNat 64 (leNat ((block.drop (8 * i)).take 8))))

/-- Bytes in blocks of n; the fuel is the number of bytes. -/
def blocksOf (n : Nat) : Nat → List Byte → List (List Byte)
  | 0, _ => []
  | f + 1, bs => if bs.isEmpty then [] else bs.take n :: blocksOf n f (bs.drop n)

/-- A message padded to whole blocks: suffix first, the last byte's top bit last. -/
def keccakPad (rate : Nat) (suffix : Byte) (m : List Byte) : List Byte :=
  let n := rate - m.length % rate
  m ++ (if n == 1 then [suffix ^^^ 0x80] else suffix :: List.replicate (n - 2) 0 ++ [0x80])

/-- The sponge: at most one block of output. -/
def keccak (rate : Nat) (suffix : Byte) (m : List Byte) (out : Nat) : List Byte :=
  let p := keccakPad rate suffix m
  let a := (blocksOf rate p.length p).foldl keccakAbsorb (List.replicate 25 0)
  (a.flatMap (fun v => leBytes 8 v.toNat)).take out

/-- SHA3-512 of FIPS 202. -/
def sha3 (m : List Byte) : List Byte := keccak 72 0x06 m 64

/-- A 64-byte value as a number, little-endian. -/
def digestOf (bs : List Byte) : BitVec 512 := BitVec.ofNat 512 (leNat bs)

/-! ## KMAC256 -/

/-- Big-endian bytes of a number, as few as hold it and at least one. -/
def beBytes (n : Nat) : List Byte := (leBytes (max 1 (ceilDiv (bitLen n) 8)) n).reverse

/-- left_encode of SP 800-185. -/
def leftEncode (n : Nat) : List Byte := BitVec.ofNat 8 (beBytes n).length :: beBytes n

/-- right_encode of SP 800-185. -/
def rightEncode (n : Nat) : List Byte := beBytes n ++ [BitVec.ofNat 8 (beBytes n).length]

/-- encode_string of SP 800-185. -/
def encodeString (s : List Byte) : List Byte := leftEncode (8 * s.length) ++ s

/-- bytepad of SP 800-185. -/
def bytePad (x : List Byte) (w : Nat) : List Byte :=
  let y := leftEncode w ++ x
  y ++ List.replicate (roundUpTo y.length w - y.length) 0

/-- KMAC256 of SP 800-185: key, message, output bytes, customisation. -/
def kmac256 (key m : List Byte) (out : Nat) (custom : List Byte) : List Byte :=
  let name : List Byte := [0x4B, 0x4D, 0x41, 0x43]
  keccak 136 0x04 (bytePad (encodeString name ++ encodeString custom) 136
    ++ bytePad (encodeString key) 136 ++ m ++ rightEncode (8 * out)) out

/-! ## AES-256 -/

/-- Multiplication by x in the field of AES. -/
def aesX (a : Byte) : Byte := (a <<< 1) ^^^ (if a.getLsbD 7 then 0x1B else 0)

/-- Multiplication in the field of AES. -/
def aesMul (a b : Byte) : Byte :=
  ((List.range 8).foldl (fun (x : Byte × Byte) i =>
    (if b.getLsbD i then x.1 ^^^ x.2 else x.1, aesX x.2)) ((0 : Byte), a)).1

/-- The inverse in the field of AES: the power 254. -/
def aesInv (a : Byte) : Byte :=
  let a2 := aesMul a a
  let a4 := aesMul a2 a2
  let a8 := aesMul a4 a4
  let a16 := aesMul a8 a8
  let a32 := aesMul a16 a16
  let a64 := aesMul a32 a32
  let a128 := aesMul a64 a64
  aesMul a128 (aesMul a64 (aesMul a32 (aesMul a16 (aesMul a8 (aesMul a4 a2)))))

/-- SubBytes of one byte. -/
def aesSub (a : Byte) : Byte :=
  let b := aesInv a
  b ^^^ b.rotateLeft 1 ^^^ b.rotateLeft 2 ^^^ b.rotateLeft 3 ^^^ b.rotateLeft 4 ^^^ 0x63

/-- InvSubBytes of one byte. -/
def aesUnsub (a : Byte) : Byte :=
  aesInv (a.rotateLeft 1 ^^^ a.rotateLeft 3 ^^^ a.rotateLeft 6 ^^^ 0x05)

def xorBytes (a b : List Byte) : List Byte := a.zipWith (fun x y => x ^^^ y) b

/-- The next word of the key schedule: w lists the words so far, latest first. -/
def aesNextWord (w : List (List Byte)) : List Byte :=
  let i := w.length
  let prev := w.headD []
  let t := if i % 8 == 0 then
      let r := (prev.drop 1 ++ prev.take 1).map aesSub
      xorBytes r [iter aesX (i / 8 - 1) 1, 0, 0, 0]
    else if i % 8 == 4 then prev.map aesSub
    else prev
  xorBytes (w.getD 7 []) t

/-- The 15 round keys of AES-256. -/
def aesKeys (key : List Byte) : List (List Byte) :=
  let first := ((List.range 8).map (fun i => (key.drop (4 * i)).take 4)).reverse
  let ws := (iter (fun w => aesNextWord w :: w) 52 first).reverse
  (List.range 15).map (fun r => ((ws.drop (4 * r)).take 4).flatten)

/-- A column multiplied by a circulant matrix. -/
def aesColumn (m c : List Byte) : List Byte :=
  (List.range 4).map (fun r => (List.range 4).foldl (fun v k =>
    v ^^^ aesMul (m.getD ((k + 4 - r) % 4) 0) (c.getD k 0)) 0)

def aesMix (m st : List Byte) : List Byte :=
  (List.range 4).flatMap (fun c => aesColumn m ((st.drop (4 * c)).take 4))

/-- ShiftRows, or its inverse, on column-major bytes. -/
def aesShift (back : Bool) (st : List Byte) : List Byte :=
  (List.range 16).map (fun i =>
    let r := i % 4
    let c := i / 4
    st.getD (r + 4 * ((if back then c + 4 - r else c + r) % 4)) 0)

/-- AES-256 encryption of a block under round keys. -/
def aesEncrypt (ks : List (List Byte)) (b : List Byte) : List Byte :=
  let st := (ks.drop 1).dropLast.foldl (fun st k =>
    xorBytes (aesMix [2, 3, 1, 1] (aesShift false (st.map aesSub))) k) (xorBytes b (ks.headD []))
  xorBytes (aesShift false (st.map aesSub)) (ks.getD 14 [])

/-- AES-256 decryption of a block under round keys. -/
def aesDecrypt (ks : List (List Byte)) (b : List Byte) : List Byte :=
  let st := (ks.drop 1).dropLast.reverse.foldl (fun st k =>
    aesMix [0x0E, 0x0B, 0x0D, 0x09] (xorBytes ((aesShift true st).map aesUnsub) k)) (xorBytes b (ks.getD 14 []))
  xorBytes ((aesShift true st).map aesUnsub) (ks.headD [])

/-! ## Key wrap -/

/-- The initial value of the key wrap. -/
def wrapIv : List Byte := List.replicate 8 0xA6

/-- Big-endian bytes of a step number, eight of them. -/
def wrapT (t : Nat) : List Byte := (leBytes 8 t).reverse

/-- KW of SP 800-38F: 8-byte units, wrapped under an AES-256 key. -/
def keyWrap (key : List Byte) (units : List (List Byte)) : List Byte :=
  let ks := aesKeys key
  let n := units.length
  let (a, r) := (List.range (6 * n)).foldl (fun (x : List Byte × List (List Byte)) t =>
    let i := t % n
    let b := aesEncrypt ks (x.1 ++ x.2.getD i [])
    (xorBytes (b.take 8) (wrapT (t + 1)), modifyAt x.2 i (fun _ => b.drop 8))) (wrapIv, units)
  a ++ r.flatten

/-- The inverse of KW; none where its integrity check fails. -/
def keyUnwrap (key : List Byte) (n : Nat) (bs : List Byte) : Option (List Byte) :=
  let ks := aesKeys key
  let units := (List.range n).map (fun i => (bs.drop (8 + 8 * i)).take 8)
  let (a, r) := (List.range (6 * n)).reverse.foldl (fun (x : List Byte × List (List Byte)) t =>
    let i := t % n
    let b := aesDecrypt ks (xorBytes x.1 (wrapT (t + 1)) ++ x.2.getD i [])
    (b.take 8, modifyAt x.2 i (fun _ => b.drop 8))) (bs.take 8, units)
  if a == wrapIv then some r.flatten else none

end Sys2Proof.Machine
end

