-- ==== Sys2Proof/Machine/Security.lean ====
section
/-! DEFINITION. The security block: measurements and quotes (R14 to R16, R29, R30), and sealing and
unsealing of keys (R75, R291, R292). -/

namespace Sys2Proof.Machine

/-- Bytes that the device stores under a slot, where its address is memory (R117). -/
def State.deviceStore (s : State) (pa slot : Nat) (bs : List Byte) : State :=
  if inMemory pa then s.store pa slot bs else s

/-! ## Measurements -/

/-- The first stage has or may take control (R11): the ROM has entered and verified it, the start has not
failed, and the proctor lanes are not started. -/
def Boot.firstStageRuns (b : Boot) : Bool :=
  b.startSeq != 0 && !b.failed && !b.minimal && !b.proctorsStarted

/-- Who may store to the measurement registers (R29). -/
def State.mayMeasure (s : State) (w : Writer) : Bool :=
  isSupervisor w || (w == .firstStage && s.boot.firstStageRuns)

def State.measReg (s : State) (i : Nat) : BitVec 512 := Sparse.get s.meas 0 i

/-- MEAS[i] := sha3_512(MEAS[i] || d) (R14). -/
def State.extend (s : State) (i : Nat) (d : BitVec 512) : State :=
  let m := digestOf (sha3 (leBytes 64 (s.measReg i).toNat ++ leBytes 64 d.toNat))
  { s with meas := Sparse.set s.meas 0 i m }

/-- A store to MEASCMD (R15, R29): 0 done, 1 locked, 2 malformed. -/
def State.measCmd (s : State) (v : Nat) : State :=
  if v / 8 != 0 then { s with measStat := 2 }
  else if s.boot.startok && v < 6 then { s with measStat := 1 }
  else { s.extend v s.measDig with measStat := 0 }

/-- The first stage has control: stage 1 runs, which alone extends MEAS2 to
MEAS5 at start (R11, R14; log entry 55). -/
def State.stageOne (s : State) : State :=
  if s.boot.stage == 0 && s.boot.firstStageRuns then { s with boot := { s.boot with stage := 1, stageStart := s.time } } else s

/-- MEASUREMENT_EXTEND (R29). A store to MEASCMD extends the named measurement register with MEASDIG,
or refuses, and then sets MEASSTAT. -/
def execMeasurementExtend (s : State) : Host.Outcome State Fault Refusal :=
  .next (if s.mayMeasure s.arg.w then
    (if s.arg.w == .firstStage && 2 ≤ s.arg.v.toNat then s.stageOne else s).measCmd s.arg.v.toNat else s)

/-! ## Quotes -/

/-- The first 792 bytes of a quote (R16). -/
def State.quoteBody (s : State) (nonce : BitVec 512) : List Byte :=
  padTo 792
    (leBytes 4 0x51544B44 ++ leBytes 4 1 ++ leBytes 64 Config.identityDigest.toNat ++ leBytes 64 nonce.toNat
      ++ (List.range 8).flatMap (fun i => leBytes 64 (s.measReg i).toNat) ++ leBytes 8 s.time
      ++ (List.range 4).flatMap (fun d => leBytes 4 (s.die d).fmode.toNat)
      ++ leBytes 1 s.boot.slot ++ leBytes 1 (b2n s.boot.minimal) ++ leBytes 2 s.boot.failCount.toNat)

/-- The quote: 5,419 bytes (R16). -/
def State.quote (s : State) (nonce : BitVec 512) : List Byte :=
  let b := s.quoteBody nonce
  b ++ (List.range 4627).map (Config.quoteSignature b)

/-- A store to QCMD (R29); none while a quote is under way. -/
def State.quoteCmd (s : State) (a : Nat) : Option State :=
  if s.qPending.isSome then none
  else if a % 64 != 0 then some { s with qStat := 3 }
  else some { s with qStat := 1, qPending := some (a, s.qNonce) }

/-- QUOTE_REQUEST (R29). A store to QCMD asks the security block for a signed quote over QNONCE, or is
refused if the address is misaligned; while one is under way the store waits. -/
def execQuoteRequest (s : State) : Host.Outcome State Fault Refusal :=
  .next (if s.mayMeasure s.arg.w then (s.quoteCmd s.arg.v.toNat).getD s else s)

/-- A store to the quote command of the management window (R30); while the host's own quote is under way it is
ignored (log entry 78). -/
def State.hostQuoteCmd (s : State) (v : Nat) : State :=
  if v != 1 || s.mw.quoteNonce.isSome then s
  else { s with mw := { s.mw with quoteStat := 1, quoteNonce := some s.mw.nonce } }

/-- HOST_QUOTE_REQUEST (R30). A host store of 1 to the quote command of the management window requests
a quote into the staging area. -/
def execHostQuoteRequest (s : State) : Host.Outcome State Fault Refusal :=
  .next (s.hostQuoteCmd s.arg.v.toNat)

/-- The quote that a QCMD store asked for is written (R29). -/
def State.quoteToMemory (s : State) (a : Nat) (nonce : BitVec 512) : State :=
  { s.deviceStore a 0 (s.quote nonce) with qPending := none, qStat := 2 }

/-- The quote that a host asked for is written into the staging area (R30). -/
def State.quoteToStaging (s : State) (nonce : BitVec 512) : State :=
  { s with mw := { s.mw with
      staging := Sparse.write s.mw.staging 0 (s.quote nonce), quoteStat := 2, quoteNonce := none } }

/-- QUOTE_COMPLETE (R16). The security block writes the 5,419-byte signed quote and sets its status to
done: the host's where the operand says so or none of QCMD is under way. -/
def execQuoteComplete (s : State) : Host.Outcome State Fault Refusal :=
  .next (match s.qPending, s.mw.quoteNonce with
    | some (a, n), none => s.quoteToMemory a n
    | none, some n => s.quoteToStaging n
    | some (a, n), some n' => if s.arg.flag then s.quoteToStaging n' else s.quoteToMemory a n
    | none, none => s)

/-! ## Keys -/

/-- Epoch of a key that is generated now (R291). -/
def State.newEpoch (s : State) (incarnation : Nat) : Nat :=
  s.boot.startSeq.toNat % 2 ^ 20 * 2 ^ 20 + incarnation

/-- The sealing key: KMAC256 under the device secret over MEAS0 to MEAS4 (R292). -/
def State.sealingKey (s : State) : List Byte :=
  kmac256 (leBytes 32 Config.deviceSecret.toNat)
    ((List.range 5).flatMap (fun i => leBytes 64 (s.measReg i).toNat)) 32 []

/-- The blob of a slot's key (R292). -/
def State.keyBlob (s : State) (slot : Nat) (k : Key) : List Byte :=
  let plain := leBytes 32 k.key.toNat ++ leBytes 5 k.epoch ++ [0, 0, 0]
  padTo 64 (leBytes 4 0x4B534B44 ++ leBytes 2 1 ++ leBytes 2 slot
    ++ keyWrap s.sealingKey ((List.range 5).map (fun i => (plain.drop (8 * i)).take 8)))

/-- The key and epoch of a blob for a slot; none where it is refused (R292). -/
def State.unsealBlob (s : State) (slot : Nat) (b : List Byte) : Option (BitVec 256 × Nat) :=
  if leNat (b.take 4) != 0x4B534B44 || leNat ((b.drop 4).take 2) != 1 || leNat ((b.drop 6).take 2) != slot
  then none
  else
    (keyUnwrap s.sealingKey 5 ((b.drop 8).take 48)).map (fun p =>
      (BitVec.ofNat 256 (leNat (p.take 32)), leNat ((p.drop 32).take 5)))

/-- Whether an identity names a live context (R74). -/
def State.liveCtx (s : State) (ident : W32) : Bool :=
  match s.ctx? ident with | some c => !c.dead | none => false

/-- A reserved field, value or address of a KEYSEAL command (R292). -/
def sealMalformed (b : List Byte) : Bool :=
  let cmd := leNat ((b.drop 4).take 1)
  (cmd != 1 && cmd != 2) || leNat ((b.drop 5).take 3) != 0 || leNat ((b.drop 8).take 8) % 64 != 0
    || (cmd == 2 && leNat (b.take 4) != 0)

/-- KEYSEAL command 0x01 (R292). -/
def State.sealCmd (s : State) (b : List Byte) : State :=
  let ident : W32 := BitVec.ofNat 32 (leNat (b.take 4))
  if sealMalformed b then { s with keySealSt := 2 }
  else if !s.liveCtx ident then { s with keySealSt := 1 }
  else
    match lookup s.keys (slotOfCtx ident) with
    | some k =>
      { s.deviceStore (leNat ((b.drop 8).take 8)) 0 (s.keyBlob (slotOfCtx ident) k) with keySealSt := 0 }
    | none => { s with keySealSt := 1 }

/-- KEYSEAL command 0x02 (R292). -/
def State.unsealCmd (s : State) (b : List Byte) : State :=
  if sealMalformed b then { s with keySealSt := 2 }
  else if s.boot.proctorsStarted then { s with keySealSt := 4 }
  else
    match s.unsealBlob 0 (s.load (leNat ((b.drop 8).take 8)) 0 64), lookup s.keys 0 with
    | some (key, epoch), some k =>
      { s with keys := put s.keys 0 { k with key := key, epoch := epoch, held := true }, keySealSt := 0 }
    | _, _ => { s with keySealSt := 3 }

/-- KEY_SEAL (R292). KEYSEAL command 0x01 wraps a live context's key and epoch into a blob under the
measured sealing key. -/
def execKeySeal (s : State) : Host.Outcome State Fault Refusal :=
  .next (if s.mayMeasure s.arg.w && leNat ((s.arg.bytes.drop 4).take 1) != 2 then
    s.sealCmd s.arg.bytes else s)

/-- KEY_UNSEAL (R292). KEYSEAL command 0x02 installs slot 0's key from a blob, but only before the
proctor lanes start. -/
def execKeyUnseal (s : State) : Host.Outcome State Fault Refusal :=
  .next (if s.mayMeasure s.arg.w && leNat ((s.arg.bytes.drop 4).take 1) == 2 then
    s.unsealCmd s.arg.bytes else s)

end Sys2Proof.Machine
end

