-- ==== Sys2Proof/Machine/Records.lean ====
section
/-! DEFINITION. Completion and rejection records (R84, R412 to R416), the device-to-host ring (R87, R90),
and how launches pass through their last states (R82, R86, R95). -/

namespace Sys2Proof.Machine

/-! ## Fields of a launch record (R80) -/

/-- A field of a launch's record. -/
def Launch.field (l : Launch) (off n : Nat) : Nat := leNat ((l.record.drop off).take n)

/-- Completion record address. -/
def Launch.completion (l : Launch) : Nat := l.field 48 8

/-- Gangs of a launch's grid. -/
def Launch.gangs (l : Launch) : Nat := l.grid.1 * l.grid.2.1 * l.grid.2.2

/-- Whether its front end reads as the supervisor (R73). -/
def supervisorCtx (ctx : W32) : Bool := slotOfCtx ctx == 0

/-! ## Records -/

/-- The completion record (R412). -/
def completionRecord (l : Launch) (status : Nat) : List Byte :=
  leBytes 4 0x43524B44 ++ leBytes 2 1 ++ leBytes 1 status ++ leBytes 1 l.flags.toNat
    ++ leBytes 8 l.ident.toNat ++ leBytes 8 (l.field 64 8) ++ leBytes 8 l.acceptT ++ leBytes 8 l.retireT
    ++ leBytes 4 (if status == 1 then 0 else l.retired) ++ leBytes 4 (if status == 1 then 0 else l.dropped)
    ++ leBytes 8 (match l.depFailed with | some d => if status == 1 then d.toNat else 0 | none => 0)
    ++ leBytes 8 0

/-- The rejection record of a host record (R84). -/
def rejectionRecord (l : Launch) (code limit value bound time : Nat) : List Byte :=
  leBytes 4 0x4A524B44 ++ leBytes 2 1 ++ leBytes 1 code ++ leBytes 1 limit ++ leBytes 8 l.ident.toNat
    ++ leBytes 8 (l.field 64 8) ++ leBytes 8 value ++ leBytes 8 bound ++ leBytes 8 l.acceptT
    ++ leBytes 8 time ++ leBytes 1 (l.hostSlot.getD 0) ++ List.replicate 7 0

/-- Whether a launch's record is a rejection. -/
def Launch.rejection (l : Launch) : Bool := leNat (l.outRec.take 4) == 0x4A524B44

/-- The status or reason that a launch's record carries. -/
def Launch.outStatus (l : Launch) : Nat := (l.outRec.getD 6 0).toNat

/-- The launch failed its dependants (R413). -/
def Launch.failed (l : Launch) : Bool := l.rejection || l.outStatus != 0

/-! ## The device-to-host ring -/

/-- Entries of a ring (R87). -/
def ringEntries : Nat := 64

/-- A message entered in a context's device-to-host ring: its number, payload first (R90); none when
the ring is full. -/
def State.ringSend (s : State) (c : Ctx) (payload : List Byte) : Option (State × Nat) :=
  if ringEntries ≤ c.sent - c.consumed then none
  else
    let seq := c.sent + 1
    let a := c.ringBase + 64 * ((seq - 1) % ringEntries)
    let s := (s.deviceStore (a + 8) 0 (padTo 56 payload)).deviceStore a 0 (leBytes 8 seq)
    some (s.setCtx { c with sent := seq }, seq)

/-! ## Writing a record -/

/-- A context that is not dead (R74, R418). -/
def State.livesCtx (s : State) (ctx : W32) : Bool :=
  match s.ctx? ctx with | some c => !c.dead | none => false

/-- What became of writing a record. -/
inductive RecordEnd where
  | done
  | wait
  /-- The first of its two stores is performed (R414). -/
  | half (pa key : Nat)
  | fault (cause : Nat)
  deriving DecidableEq, Repr

/-- A record sent on the ring (R415), or the first store of it to its completion address: bytes 8 to 63 (R414). -/
def State.putRecord (s : State) (l : Launch) : State × RecordEnd :=
  if l.completion == 0 then
    match s.ctx? l.ctx with
    | some c =>
      match s.ringSend c (l.outRec.drop 8) with
      | some (s, _) => (s, .done)
      | none => (s, .wait)
    | none => (s, .done)
  else
    let (s, r) := s.engineTrans 0 l.ctx (supervisorCtx l.ctx) l.completion accWrite
    match r with
    | .ok pa key _ =>
      (s.landBytes 0 (pa + 8) key (l.outRec.drop 8), .half pa key)
    | .page c => (s, .fault c)
    | .prot c => (s, .fault c)
    | _ => (s, .wait)

/-- A completion fault record (R361, kind 0x11). -/
def completionFault (l : Launch) (cause : Nat) : Post :=
  devicePost 0x11 (slotOfCtx l.ctx) none
    (leBytes 8 l.ident.toNat ++ leBytes 8 l.completion
      ++ [BitVec.ofNat 8 cause, BitVec.ofNat 8 l.outStatus, BitVec.ofNat 8 (b2n l.rejection)])

/-- The interrupt that a record asked for (R416). -/
def State.interruptFor (s : State) (l : Launch) : State :=
  if l.field 11 1 % 2 == 0 then s
  else
    match s.ctx? l.ctx with
    | some c =>
      match c.vectors[l.field 56 2]? with
      | some (a, d) => { s with hostLog := s.hostLog ++ [.msix a d] }
      | none => s
    | none => s

/-- An earlier live launch has the same number (R81). -/
def State.duplicates (s : State) (l : Launch) : Bool :=
  s.launches.any (fun x => x.ident == l.ident && x.order < l.order)

/-- Dependence entries that name a launch resolve (R93, R413), and the launch is live no more: its number
and its argument copy are free (R81, R411). While an earlier launch of its number lives, the entries and the copy are
that one's. -/
def State.resolved (s : State) (l : Launch) : State :=
  if s.duplicates l then
    { s with launches := s.launches.filter (fun x => !(x.ident == l.ident && x.order == l.order)) }
  else { s with
    launches := (s.launches.filter (fun x => !(x.ident == l.ident && x.order == l.order))).map (fun (x : Launch) =>
      if x.deps.contains l.ident then
        { x with deps := x.deps.filter (· != l.ident)
                 depFailed := if l.failed && x.depFailed.isNone then some l.ident else x.depFailed }
      else x)
    mem := Sparse.drop s.mem (fun a => argPa l.ident ≤ a && a < argPa l.ident + 65536) }

/-- The state with one launch of a number, of possibly several, replaced: a record whose number is
taken is live until it is rejected (R81). -/
def State.setLive (s : State) (l : Launch) : State :=
  { s with launches := s.launches.map (fun x => if x.ident == l.ident && x.order == l.order then l else x) }

/-- A launch that has ended writes its record (R414 to R416); a dead context's writes none (R418, step 1). -/
def State.writeRecord (s : State) (l : Launch) : State :=
  if !s.livesCtx l.ctx then s.setLive { l with ringWait := true }
  else match s.putRecord l with
  | (s, .done) => (s.resolved l).interruptFor l
  | (s, .half pa key) => s.setLive { l with half := some (pa, key) }
  | (s, .wait) => s.setLive { l with ringWait := true }
  | (s, .fault c) => (s.setLive { l with faulted := true, ringWait := false }).postDevice 0 (completionFault l c)

/-! ## Ends of launches -/

/-- A launch retires with a status (R411, R412): its parent counts it (R86). -/
def State.retireLaunch (s : State) (l : Launch) (status : Nat) : State :=
  let l := { l with retireT := s.time, state := .retired }
  let s := s.setLive { l with outRec := completionRecord l status }
  match l.parent with
  | none => s
  | some p =>
    match s.launch? p with
    | some q =>
      s.setLive { q with children := q.children - 1
                         flags := if status == 0 then q.flags else q.flags ||| 2 }
    | none => s

/-- A placement request for a launch (R107; R361, kind 0x06). -/
def launchRequest (l : Launch) : Post :=
  devicePost 0x06 (slotOfCtx l.ctx) none
    (leBytes 8 l.ident.toNat ++ leBytes 8 l.gangs ++ leBytes 2 (l.kd.teams + 16 * b2n l.kd.pair)
      ++ leBytes 1 l.prio)

/-- A launch becomes Ready: dies whose supervisor places are told (R107). -/
def State.makeReady (s : State) (l : Launch) : State :=
  let s := s.setLive { l with state := .ready, readyT := s.time }
  (List.range 4).foldl (fun (s : State) d =>
    if s.mode d 2 then s.postDevice (12 * d) (launchRequest l) else s) s

/-- What a launch may do by itself now (R82, R95, R411). -/
inductive LaunchMove where
  | fail (l : Launch)
  | ready (l : Launch)
  | retire (l : Launch)
  | write (l : Launch)
  deriving DecidableEq, Repr

/-- The move of one launch. -/
def Launch.move (l : Launch) : Option LaunchMove :=
  match l.state with
  | .waiting => if l.depFailed.isSome then some (.fail l) else if l.deps.isEmpty then some (.ready l) else none
  | .dispensed => if l.retired + l.dropped == l.gangs && l.children == 0 then some (.retire l) else none
  | .retired => if l.faulted || l.ringWait || l.half.isSome then none else some (.write l)
  | _ => none

/-- A move made. -/
def State.moveLaunch (s : State) : LaunchMove → State
  | .fail l => s.retireLaunch l 1
  | .ready l => s.makeReady l
  | .retire l => s.retireLaunch l (if l.dropped == 0 then 0 else 2)
  | .write l => s.writeRecord l

/-- Launches make their moves until none is left: at most three each. -/
def State.settleN (s : State) : Nat → State
  | 0 => s
  | n + 1 =>
    match s.launches.findSome? Launch.move with
    | some m => (s.moveLaunch m).settleN n
    | none => s

def State.settleLaunches (s : State) : State := s.settleN (3 * s.launches.length + 1)

/-- A waiting record is tried again (R415). -/
def State.retryRecord (s : State) (l : Launch) : State :=
  (s.setLive { l with ringWait := false, faulted := false }).settleLaunches

/-- The second store of a record, bytes 0 to 7 (R414): in its step the dependence entries resolve, the launch is live
no more, and the interrupt goes out (R416). A dead context's record is not completed (R418, R419). -/
def State.endRecord (s : State) (l : Launch) (pa key : Nat) : State :=
  if !s.livesCtx l.ctx then s
  else (((s.landBytes 0 pa key (l.outRec.take 8)).resolved l).interruptFor l).settleLaunches

/-- COMPLETION_RING_SEND (R415). A completion record with address 0 is sent on the device-to-host ring,
waiting if the ring is full; a record that waits for its page is tried again in the same way, and one whose first
store is performed takes its second (R414; log entry 70). -/
def execCompletionRingSend (s : State) : Host.Outcome State Fault Refusal :=
  .next (match s.launches.find? (fun l => l.ident == s.arg.v && (l.ringWait || l.half.isSome)) with
    | some l =>
      match l.half with
      | some (pa, key) => s.endRecord l pa key
      | none => s.retryRecord l
    | none => s)

/-- The answer of a completion fault record (R414): 1 writes the record again, 5 abandons it. -/
def State.completionAnswer (s : State) (ident : W64) (action : Nat) : State :=
  match s.launches.find? (fun l => l.ident == ident && l.faulted) with
  | some l => if action == 5 then (s.resolved l).settleLaunches else s.retryRecord l
  | none => s

end Sys2Proof.Machine
end

