-- ==== Sys2Proof/Machine/Launch.lean ====
section
/-! DEFINITION. Contexts (R73 to R77), launch records and their checks (R36 to R46, R78 to R86), and
mailboxes (R87 to R91). -/

namespace Sys2Proof.Machine

/-! ## The checks of a launch record (R83) -/

/-- What the checks of a launch find. -/
inductive Checked where
  | wait
  /-- Code, limit code, value reported, bound reported. -/
  | reject (code limit value bound : Nat)
  /-- The descriptor, the code section's size (R36), the argument block. -/
  | pass (kd : KDesc) (args : List Byte)
  deriving DecidableEq, Repr

/-- The offset of the first test that fails. -/
def firstBad (tests : List (Nat × Bool)) : Option Nat := (tests.find? (fun t => !t.2)).map (·.1)

/-- Check 1 (R80, R83): a malformed record. -/
def Launch.malformed (l : Launch) (c : Ctx) (device : Bool) : Option Nat :=
  let shape := l.field 12 2
  firstBad [(10, l.field 10 1 < 8), (11, l.field 11 1 < 2)
    , (12, shape < 32 && (shape == 0 || (1 ≤ shape % 16 && shape % 16 ≤ 4))), (14, l.field 14 2 == 0)
    , (48, l.completion % 64 == 0 && !(device && l.completion == 0 && c.ringBase == 0))
    , (56, l.field 11 1 % 2 == 0 || l.field 56 2 < c.vectors.length), (58, l.field 58 2 == 0)
    , (72, l.field 72 56 == 0)]

/-- Sections of a code object: header offset of the field that places it (the header's own, of the total size), start,
size (R36); a data section offset of 0 is no data section (log entry 85). -/
def sections (h : List Byte) : List (Nat × Nat × Nat) :=
  let u (o n : Nat) : Nat := leNat ((h.drop o).take n)
  let opt (o n : Nat) : Nat := if u o 4 == 0 then 0 else n
  [(8, 0, 192), (12, u 12 4, u 16 4), (20, u 20 4, 128 * u 24 2), (28, u 28 4, 32 * u 26 2)
  , (32, u 32 4, opt 32 16), (36, u 36 4, opt 36 (u 40 4)), (44, u 44 4, if u 6 2 % 2 == 1 then 4627 else 0)]

/-- The sections that leave the object or overlap an earlier one (R36). -/
def sectionsBad (total : Nat) : List (Nat × Nat × Nat) → List (Nat × Nat × Nat) → List Nat
  | _, [] => []
  | before, (o, a, n) :: rest =>
    (if n != 0 && (total < a + n || before.any (fun x => x.2.2 != 0 && a < x.2.1 + x.2.2 && x.2.1 < a + n)) then [o]
      else []) ++ sectionsBad total ((o, a, n) :: before) rest

/-- Offset in the header of the first bad field of a code object (R36, R83 check 6): the lowest of the fields that are
illegal, of those that place a section badly, and of the descriptor count where the index is not below it. -/
def headerBad (h : List Byte) (index : Nat) : Option Nat :=
  let u (o n : Nat) : Nat := leNat ((h.drop o).take n)
  let fields : List (Nat × Bool) := [(0, u 0 4 == 0x4F435245), (4, u 4 2 == 1), (6, u 6 2 < 2), (8, u 8 4 % 192 == 0)
      , (12, u 12 4 % 192 == 0), (16, u 16 4 % 192 == 0), (20, u 20 4 % 64 == 0)
      , (24, 1 ≤ u 24 2 && u 24 2 ≤ 256), (26, u 26 2 ≤ 64)
      , (28, u 28 4 % 32 == 0 && (u 26 2 != 0 || u 28 4 == 0)), (32, u 32 4 % 16 == 0)
      , (36, u 36 4 % 64 == 0), (44, u 6 2 % 2 == 1 || u 44 4 == 0), (48, u 48 144 == 0), (24, index < u 24 2)]
  match fields.filterMap (fun t => if t.2 then none else some t.1) ++ sectionsBad (u 8 4) [] (sections h) with
  | [] => none
  | o :: os => some (minOf o os)

/-- Offset of the first bad field of a descriptor (R38), for a code section of some size. -/
def kdescBad (b : List Byte) (codeSize : Nat) : Option Nat :=
  let u (o n : Nat) : Nat := leNat ((b.drop o).take n)
  let pair := u 7 1 == 1
  firstBad [(0, u 0 4 % 12 == 0 && u 0 4 + 12 ≤ codeSize), (4, u 4 1 ≤ 2), (5, u 4 1 ≤ u 5 1 && u 5 1 ≤ 2)
    , (6, 1 ≤ u 6 1 && u 6 1 ≤ 16 && !(pair && u 6 1 % 2 == 1)), (7, u 7 1 ≤ 1)
    , (8, 1 ≤ u 8 1 && u 8 1 ≤ (if pair then 2 else 4)), (9, u 9 1 ≤ 1), (10, u 10 2 == 0)
    , (12, u 12 2 % 8 == 0 && 64 ≤ u 12 2 && u 12 2 ≤ 4096), (14, u 14 2 == 0)
    , (16, u 16 4 % 8 == 0 && u 12 2 ≤ u 16 4 && u 16 4 ≤ 65536)
    , (20, u 20 4 % (if pair then 8192 else 4096) == 0), (24, u 24 1 ≤ 32), (25, u 25 3 == 0)
    , (28, u 28 4 % 8 == 0 && u 28 4 ≤ 65536), (32, u 32 96 == 0)]

/-- A descriptor's fields (R38). -/
def kdescOf (b : List Byte) (size code : Nat) : KDesc :=
  let u (o n : Nat) : Nat := leNat ((b.drop o).take n)
  { size := size, code := code, entry := u 0 4, widthCode := u 4 1, maxCode := u 5 1, groups := u 6 1
    pair := u 7 1 == 1, teams := u 8 1, cls := u 9 1, depth := u 12 2, limit := u 16 4, galley := u 20 4
    tiles := u 24 1, argSize := u 28 4 }

/-- The gang shape of a descriptor, as R80 codes it. -/
def KDesc.shape (k : KDesc) : Nat := k.teams + 16 * b2n k.pair

/-- The first check of R40 that fails: limit code, value, bound. -/
def KDesc.overLimit (k : KDesc) : Option (Nat × Nat × Nat) :=
  let w := k.ask.width
  [(1, k.ask.stack, 262144), (2, k.perCore * k.ask.stack, 2097152), (3, k.perCore, 64)
  , (4, k.perCore * w, 2048), (5, k.galPerCore, 4194304), (6, k.perCore * k.tiles, 32)].find?
    (fun x => x.2.2 < x.2.1)

/-- Check 8 (R21): in minimal mode, only a maintenance launch whose signature verifies. -/
def State.minimalRefuses (s : State) (kd : KDesc) (obj : List Byte) : Bool :=
  let off := leNat ((obj.drop 44).take 4)
  s.boot.minimal &&
    (kd.cls != 1 || off == 0
      || !Config.signatureValid (digestOf (sha3 (obj.take off))) ((obj.drop off).take 4627))

/-- Checks 9 to 13 and the argument block's read. -/
def State.checkRest (s : State) (core : Nat) (l : Launch) (kd : KDesc) (folio : Option Nat) :
    State × Checked :=
  let shape := l.field 12 2
  if shape != 0 && shape != kd.shape then (s, .reject 0x12 0 shape kd.shape)
  else if folio != none && folio != some 1 then (s, .reject 0x14 0 (folio.getD 0) 1)
  else
    let arg := l.field 40 8
    let (s, r) := if kd.argSize == 0 then (s, EngineRead.ok [])
      else if arg % 64 != 0 then (s, EngineRead.bad arg .wait)
      else s.engineRead core l.ctx (supervisorCtx l.ctx) arg kd.argSize
    match r with
    | .wait => (s, .wait)
    | .bad _ _ => (s, .reject 0x13 0 arg kd.argSize)
    | .ok args =>
      if 4 < l.depth then (s, .reject 0x1A 0 5 4)
      else
        match kd.overLimit with
        | some (c, v, b) => (s, .reject 0x15 c v b)
        | none => (s, .pass kd args)

/-- Checks 7 and 8, once the header is good: the descriptor, the folio declaration's version, and in
minimal mode the whole object. -/
def State.checkObject (s : State) (core : Nat) (l : Launch) (h : List Byte) : State × Checked :=
  let u (o n : Nat) : Nat := leNat ((h.drop o).take n)
  let sup := supervisorCtx l.ctx
  let (s, d) := s.engineRead core l.ctx sup (l.codeVa + u 20 4 + 128 * l.field 8 2) 128
  let (s, f) := if u 32 4 == 0 then (s, EngineRead.ok []) else s.engineRead core l.ctx sup (l.codeVa + u 32 4) 2
  let (s, o) := if s.boot.minimal then s.engineRead core l.ctx sup l.codeVa (u 8 4) else (s, EngineRead.ok [])
  match d, f, o with
  | .wait, _, _ => (s, .wait)
  | .bad _ _, _, _ => (s, .reject 0x10 0 20 0)
  | .ok _, .wait, _ => (s, .wait)
  | .ok _, .bad _ _, _ => (s, .reject 0x10 0 32 0)
  | .ok _, .ok _, .wait => (s, .wait)
  | .ok b, .ok fv, o =>
    match kdescBad b (u 16 4) with
    | some off => (s, .reject 0x11 0 off 0)
    | none =>
      let kd := kdescOf b (u 8 4) (u 12 4)
      if (match o with | .ok bs => s.minimalRefuses kd bs | _ => s.boot.minimal) then
        (s, .reject 0x16 0 kd.cls 0)
      else s.checkRest core l kd (if u 32 4 == 0 then none else some (leNat fv))

/-- The checks of R83 in order, for a launch that is accepted; `device` says that LAUNCH or SPAWN
submitted it. -/
def State.checkLaunch (s : State) (core : Nat) (l : Launch) (device : Bool) : State × Checked :=
  match s.ctx? l.ctx with
  | none => (s, .wait)
  | some c =>
    let number := l.field 60 4
    match l.malformed c device, firstBad [(16, l.field 16 4 != 0), (20, l.field 20 2 != 0), (22, l.field 22 2 != 0)]
    with
    | some off, _ => (s, .reject 0x1B 0 off 0)
    | none, some off => (s, .reject 0x19 0 off 0)
    | none, none =>
      let out (off : Nat) : Bool := l.field off 8 == 0 || l.field off 8 / 2 ^ 32 == l.ctx.toNat
      if l.cap < l.prio then (s, .reject 0x17 0 l.prio l.cap)
      else if l.dup then
        (s, .reject 0x18 0 number 0)
      else
        match firstBad [(24, out 24), (32, out 32)] with
        | some off => (s, .reject 0x1C 0 off 0)
        | none =>
          if l.codeVa % 192 != 0 then (s, .reject 0x10 0 0 0)
          else
            let (s, r) := s.engineRead core l.ctx (supervisorCtx l.ctx) l.codeVa 192
            match r with
            | .wait => (s, .wait)
            | .bad _ _ => (s, .reject 0x10 0 0 0)
            | .ok h =>
              match headerBad h (l.field 8 2) with
              | some off => (s, .reject 0x10 0 off 0)
              | none => s.checkObject core l h

/-! ## Acceptance -/

/-- A launch as its record gives it (R80). -/
def launchOf (ctx : W32) (rec_ : List Byte) (time order depth cap : Nat) (parent : Option W64)
    (slot : Option Nat) (sup : Bool) : Launch :=
  let u (o n : Nat) : Nat := leNat ((rec_.drop o).take n)
  { ident := ctx ++ (BitVec.ofNat 32 (u 60 4)), ctx := ctx, record := rec_, sup := sup, hostSlot := slot
    depth := depth, parent := parent, state := .accepted
    kd := { size := 0, code := 0, entry := 0, widthCode := 0, maxCode := 0, groups := 0, pair := false
            teams := 0, cls := 0, depth := 0, limit := 0, galley := 0, tiles := 0, argSize := 0 }
    codeVa := u 0 8, prio := u 10 1 % 8, cap := cap, grid := (u 16 4, u 20 2, u 22 2), cursor := 0
    deps := [], depFailed := none, acceptT := time, readyT := 0, order := order, dup := false, retired := 0, dropped := 0
    children := 0, flags := 0, outRec := [], faulted := false, retireT := 0, ringWait := false
    half := none }

/-- Records that the front end's intake holds (R79). -/
def intakeSize : Nat := 256

/-- Whether a record is answered with retry (R79). -/
def State.mustRetry (s : State) (c : Ctx) : Bool :=
  c.liveLimit ≤ (s.launches.filter (fun l => l.ctx == c.ident)).length
    || intakeSize ≤ (s.launches.filter (fun l => l.state == .accepted)).length

/-- A record is accepted: its dependences on live launches are entered (R82, R93). -/
def State.accept (s : State) (ctx : W32) (rec_ : List Byte) (depth cap : Nat) (parent : Option W64)
    (slot : Option Nat) : State × Launch :=
  let (order, s) := s.newId
  let l := launchOf ctx rec_ s.time order depth cap parent slot false
  let dep (off : Nat) : List W64 :=
    let d : W64 := BitVec.ofNat 64 (l.field off 8)
    if l.field off 8 / 2 ^ 32 == ctx.toNat && s.launches.any (fun x => x.ident == d) then [d] else []
  let l := { l with deps := dep 24 ++ (if l.field 24 8 == l.field 32 8 then [] else dep 32), dup := s.duplicates l }
  ({ s with launches := s.launches ++ [l] }, l)

/-- A launch leaves the front end without a trace (R85). -/
def State.forget (s : State) (l : Launch) : State :=
  { s with launches := s.launches.filter (fun x => x.order != l.order) }

/-- A launch whose checks have passed: its argument block is copied (R44), its parent counts it (R86), and
it waits for its dependences or is Ready (R95). -/
def State.launchPassed (s : State) (l : Launch) (kd : KDesc) (args : List Byte) : State :=
  let s : State := { s with mem := Sparse.write s.mem (argPa l.ident) args }
  let s := s.setLive { l with kd := kd, state := .waiting }
  let s := match l.parent with
    | none => s
    | some p =>
      match s.launch? p with
      | some q => s.setLive { q with children := q.children + 1 }
      | none => s
  s.settleLaunches

/-- Completion status codes of a deferrable write (R78). -/
def State.answerWrite (s : State) (code : Nat) : State := { s with hostLog := s.hostLog ++ [.status code] }

/-- LAUNCH_CHECKS (R83). Within 2 µs of acceptance the front end checks the launch in order, then rejects
it or makes it Waiting or Ready. The host's write completes once the argument block is copied or a check has failed
(R44; log entry 88). -/
def execLaunchChecks (s : State) : Host.Outcome State Fault Refusal :=
  .next (match s.launches.find? (fun l => l.ident == s.arg.v && l.state == .accepted) with
    | none => s
    | some l =>
      match s.checkLaunch 0 l false with
      | (s, .wait) => s
      | (s, .reject c lim v b) =>
        ((s.answerWrite 0).setLive
          { l with state := .retired, outRec := rejectionRecord l c lim v b s.time }).settleLaunches
      | (s, .pass kd args) => (s.answerWrite 0).launchPassed l kd args)

/-! ## The submission page -/

/-- The context that a page of the launch window is bound to, and whether as its submission page. -/
def State.pageOwner (s : State) (page : Nat) : Option (Ctx × Bool) :=
  match s.ctxs.find? (fun c => c.subPage == some page || c.mbPage == some page) with
  | some c => some (c, c.subPage == some page)
  | none => none

/-- A host's deferrable write to a submission page (R78, R79): one that is accepted completes with its checks. -/
def State.submit (s : State) (page off : Nat) (bytes : List Byte) : State :=
  match s.pageOwner page with
  | some (c, true) =>
    if bytes.length != 128 || off % 128 != 0 || 4096 ≤ off then s.answerWrite 2
    else if c.dead then s.answerWrite 3
    else if leNat ((bytes.drop 48).take 8) == 0 && c.ringBase == 0 then s.answerWrite 2
    else if s.mustRetry c then s.answerWrite 1
    else (s.accept c.ident bytes 1 c.maxPrio none (some (off / 128))).1
  | _ => s.answerWrite 2

/-- LAUNCH_SUBMIT (R78). A host's 128-byte deferrable write to a submission slot is accepted as a live
launch, or is answered with retry, Unsupported Request or Completer Abort. -/
def execLaunchSubmit (s : State) : Host.Outcome State Fault Refusal :=
  .next (s.submit s.arg.a s.arg.b s.arg.bytes)

/-! ## LAUNCH and SPAWN -/

/-- Status word of LAUNCH and SPAWN (R85). -/
def launchStatus (code limit value : Nat) : W64 :=
  BitVec.ofNat 64 (code * 2 ^ 56 + limit * 2 ^ 48 + value % 2 ^ 48)

/-- The depth of a launch that the present group submits, its cap and its parent (R83, R86). -/
def State.submitAs (s : State) (t : Thread) (spawn : Bool) : Nat × Nat × Option W64 :=
  let own := s.launch? t.launch
  let depth := match own with | some l => if spawn then l.depth + 1 else 1 | none => 1
  let cap := if t.sup then 7
    else match own with
      | some l => if spawn then l.prio else (match s.ctx? t.ctx with | some c => c.maxPrio | none => 0)
      | none => match s.ctx? t.ctx with | some c => c.maxPrio | none => 0
  (depth, cap, if spawn then own.map (·.ident) else none)

/-- The front end's answer to a record (R79, R81 to R83, R85); none while a walk is under way, and in a context that is
being torn down, whose groups stop next (R418). -/
def State.frontEnd (s : State) (t : Thread) (spawn : Bool) (rec_ : List Byte) : State × Option W64 :=
  match s.ctx? t.ctx with
  | none => (s, some (launchStatus 0x01 0 0))
  | some c =>
    if c.dead then (s, none)
    else if s.mustRetry c then (s, some (launchStatus 0x01 0 0))
    else
      let (depth, cap, parent) := s.submitAs t spawn
      let (s', l) := s.accept t.ctx rec_ depth cap parent none
      match s'.checkLaunch t.core l true with
      | (s', .wait) => (s'.forget l, none)
      | (s', .reject c lim v _) => (s'.forget l, some (launchStatus c lim v))
      | (s', .pass kd args) => (s'.launchPassed l kd args, some (launchStatus 0 0 0))

/-- LAUNCH and SPAWN on a proctor lane: its launches belong to slot 0's context (R73, R197). -/
def proctorThread (c : Nat) (s : State) : Thread := { startThread 0 c 0 16 64 64 s.time with launch := 0 }

/-- The effect of LAUNCH and SPAWN (R85). -/
def launchBody (i : Instr) (h : Hdr) (d a : BitVec 7) (spawn : Bool) (s : State) :
    Host.Outcome State Fault Refusal :=
  run i s (fun s => s.release h 4 (fun s =>
    let va := (s.sreg a.toNat).toNat
    if va % 128 != 0 then s.trapAddr h vMisalign 0x08 va
    else
      s.runAccess h 0 accRead va 128 (fun s ps =>
        let (s, ready) := s.runReady ps
        if !ready then s.poll
        else if s.runPoison ps != 0 then s.trapAddr h vSoftError (s.runPoison ps) va
        else
          let t := match s.cur with
            | .thread id => (s.thread? id).getD (proctorThread s.here s)
            | .proctor c => proctorThread c s
          match s.frontEnd t spawn (s.runBytes ps) with
          | (s, none) => s.poll
          | (s, some st) => s.finish h d.toNat st)))

/-- LAUNCH (R85). Releases at .dev scope and submits a launch record from memory, writing a status
word. -/
def execLaunch (h : Hdr) (d : BitVec 7) (a : BitVec 7) (s : State) : Host.Outcome State Fault Refusal :=
  launchBody (.launch h d a) h d a false s

/-- SPAWN (R86). Submits a child launch one depth below the issuing launch. -/
def execSpawn (h : Hdr) (d : BitVec 7) (a : BitVec 7) (s : State) : Host.Outcome State Fault Refusal :=
  launchBody (.spawn h d a) h d a true s

/-! ## Mailboxes -/

/-- A message written to the eight registers of an MBRECV, and its status with the count still waiting
(R91). -/
def Thread.takeMessage (t : Thread) (d a : Nat) (m : List Byte) (left : Nat) : Thread :=
  let t := (List.range 8).foldl (fun (t : Thread) k =>
    t.setSreg (d + k) (BitVec.ofNat 64 (leNat ((m.drop (8 * k)).take 8)))) t
  t.setSreg a (BitVec.ofNat 64 (left * 2 ^ 8))

/-- The group of a context that has waited longest in MBRECV.W (R91). -/
def State.inboxWaiter (s : State) (ctx : W32) : Option (Thread × Nat × Nat) :=
  let ws : List (Thread × Nat × Nat × Nat) := s.threads.filterMap (fun t =>
    match t.park with
    | .inbox d a order => if t.ctx == ctx then some (t, d, a, order) else none
    | _ => none)
  match sortBy (fun (w : Thread × Nat × Nat × Nat) => w.2.2.2) ws with
  | (t, d, a, _) :: _ => some (t, d, a)
  | [] => none

/-- A message's bytes in the inbox's frame: the entry of its sequence number (R87; log entry 52). -/
def State.inboxStore (s : State) (c : Ctx) (msg : List Byte) : State :=
  if slotOfCtx c.ident == 0 then s
  else s.landBytes 0 (c.inboxFrame + 64 * ((c.nextIn - 1) % ringEntries)) (slotOfCtx c.ident) msg

/-- A message enters the inbox, or goes at once to the group that has waited longest (R91). -/
def State.deliverMessage (s : State) (c : Ctx) (msg : List Byte) : State :=
  let s := s.inboxStore c msg
  match s.inboxWaiter c.ident with
  | some (t, d, a) =>
    (s.setCtx { c with nextIn := c.nextIn + 1 }).setThread
      { t.takeMessage d a msg 0 with pc := t.after, park := .run }
  | none => s.setCtx { c with inbox := c.inbox ++ [msg], nextIn := c.nextIn + 1 }

/-- A message offered to a context's inbox with a sequence number (R89): the state, the status and the
free count. -/
def State.enterInbox (s : State) (c : Ctx) (seq : Nat) (msg : List Byte) : State × Nat × Nat :=
  let free := ringEntries - c.inbox.length
  if c.dead then (s, 0x02, 0)
  else if seq < c.nextIn then (s, 0x03, free)
  else if c.nextIn < seq then (s, 0x05, free)
  else if free == 0 then (s, 0x01, 0)
  else
    let s := s.deliverMessage c msg
    (s, 0x00, match s.ctx? c.ident with | some c => ringEntries - c.inbox.length | none => 0)

/-- A host's deferrable write to a mailbox page (R88, R89). -/
def State.mailbox (s : State) (page off : Nat) (bytes : List Byte) : State :=
  match s.pageOwner page with
  | some (c, false) =>
    if bytes.length != 64 || off != 0 then s.answerWrite 2
    else
      let seq := leNat (bytes.take 8)
      let (s, st, free) := s.enterInbox c seq bytes
      let s := if c.sendStatus == 0 then s
        else s.deviceStore c.sendStatus 0 (leBytes 8 (seq % 2 ^ 48 * 2 ^ 16 + free * 2 ^ 8 + st))
      s.answerWrite 0
  | _ => s.answerWrite 2

/-- MAILBOX_SEND (R89). A host's 64-byte deferrable write to a mailbox page enters a message in the inbox
or refuses it, and writes the send-status word. -/
def execMailboxSend (s : State) : Host.Outcome State Fault Refusal :=
  .next (s.mailbox s.arg.a s.arg.b s.arg.bytes)

/-- A count of consumed messages (R88). -/
def State.consumed (s : State) (page n : Nat) : State :=
  match s.pageOwner page with
  | some (c, false) => (s.setCtx { c with consumed := max c.consumed (min n c.sent) })
  | _ => s

/-- MAILBOX_CONSUMED (R88). A host's 8-byte write at offset 0x040 of a mailbox page updates the count of
device-to-host messages it has consumed; records that waited for a free entry are tried again. -/
def execMailboxConsumed (s : State) : Host.Outcome State Fault Refusal :=
  .next (
    let s := s.consumed s.arg.a s.arg.v.toNat
    (s.launches.filter (·.ringWait)).foldl (fun (s : State) l => s.retryRecord l) s)

/-- MBSEND (R90). Sends a message to a device-to-host ring or an inbox. -/
def execMbsend (h : Hdr) (d : BitVec 7) (a : BitVec 7) (b : BitVec 6) (s : State) :
    Host.Outcome State Fault Refusal :=
  run (.mbsend h d a b) s (fun s =>
    let target := (s.sreg b.toNat).toNat
    let ident : W32 := BitVec.ofNat 32 target
    let inbox := bit target 32
    let payload := (List.range 7).flatMap (fun i => leBytes 8 (s.sreg (a.toNat + 1 + i)).toNat)
    let put (s : State) (seq free st : Nat) : State :=
      s.finish h d.toNat (BitVec.ofNat 64 (seq % 2 ^ 48 * 2 ^ 16 + free * 2 ^ 8 + st))
    if !s.supHere && (ident != s.ctxHere || target / 2 ^ 32 != 0) then s.trap h vPrivilege 0x0C
    else if target / 2 ^ 33 != 0 then put s 0 0 0x04
    else
      match s.ctx? ident with
      | none => put s 0 0 0x02
      | some c =>
        if inbox then
          let (s', st, free) := s.enterInbox c c.nextIn (leBytes 8 c.nextIn ++ payload)
          put s' (if st == 0 then c.nextIn else 0) free st
        else if c.dead || c.ringBase == 0 then put s 0 0 0x02
        else
          match s.ringSend c payload with
          | some (s', seq) => put s' seq (ringEntries - (c.sent + 1 - c.consumed)) 0x00
          | none => put s 0 0 0x01)

/-- The effect of MBRECV (R91). -/
def mbrecvBody (i : Instr) (h : Hdr) (d a : BitVec 7) (wait : Bool) (s : State) :
    Host.Outcome State Fault Refusal :=
  run i s (fun s => s.withThread (fun t =>
    match s.ctx? t.ctx with
    | none => s.poll
    | some c =>
      match c.inbox with
      | [] =>
        if wait then
          let (order, s) := s.newId
          s.setThread { t with park := .inbox d.toNat a.toNat order, after := nextPc t.pc h }
        else (s.setSreg a.toNat 0x03).advance h
      | m :: rest =>
        ((s.setCtx { c with inbox := rest }).setThread (t.takeMessage d.toNat a.toNat m rest.length)).advance h))

/-- MBRECV (R91). Receives the oldest inbox message, or reports that the inbox is empty. -/
def execMbrecv (h : Hdr) (d : BitVec 7) (a : BitVec 7) (s : State) : Host.Outcome State Fault Refusal :=
  mbrecvBody (.mbrecv h d a) h d a false s

/-- MBRECV.W (R91). Receives the oldest inbox message, parking until one arrives. -/
def execMbrecvW (h : Hdr) (d : BitVec 7) (a : BitVec 7) (s : State) : Host.Outcome State Fault Refusal :=
  mbrecvBody (.mbrecvW h d a) h d a true s

/-! ## CTXCTL -/

/-- MEMDEF as a write of a value leaves it (R152). -/
def memdefWrite (old new : W32) (slot : Nat) : W32 :=
  let n := new.toNat
  let o := old.toNat
  let cache := if 4 < bits n 9 3 then bits o 9 3 else bits n 9 3
  let space := if bits n 6 2 == 3 || (bits n 6 2 == 2 && slot != 0) then bits o 6 2 else bits n 6 2
  let scope := if 5 < bits n 3 3 then bits o 3 3 else bits n 3 3
  BitVec.ofNat 32 (cache * 2 ^ 9 + bits n 8 1 * 2 ^ 8 + space * 2 ^ 6 + scope * 2 ^ 3)

/-- CTXSTAT (R77). -/
def ctxStatWord (code : Nat) (ident : W32) : W64 := BitVec.ofNat 64 (code * 2 ^ 32 + ident.toNat)

/-- An address in the host window, or 0 for none (R76, R117). -/
def hostOr0 (pa : Nat) : Bool := pa == 0 || isHost pa

/-- A create's reserved byte or value, or a field outside its values (R77, code 0x03). -/
def createMalformed (b : List Byte) : Bool :=
  let u (o n : Nat) : Nat := leNat ((b.drop o).take n)
  7 < u 1 1 || 64 < u 2 1 || u 3 1 != 0 || u 4 4 / 4096 != 0 || u 8 4 == 0 || 65536 < u 8 4
    || u 16 8 % 4096 != 0 || !hostOr0 (u 16 8) || u 24 8 % 8 != 0 || !hostOr0 (u 24 8) || u 32 8 % 64 != 0 || (u 2 1 == 0 && u 32 8 != 0)
    || u 52 4 != 0 || u 56 8 % 64 != 0

/-- A page that a create cannot bind (R74, R77, code 0x04). -/
def State.pageTaken (s : State) (p : Nat) : Bool := p != 0xFFFF && (4095 < p || (s.pageOwner p).isSome)

/-- The greatest incarnation (R73). -/
def maxIncarnation : Nat := 0xFFFFF

/-- Entry v of a vector table (R77). -/
def State.vectorEntry (s : State) (table v : Nat) : Nat × Nat :=
  (s.loadNat (table + 16 * v) 0 8, s.loadNat (table + 16 * v + 8) 0 4)

/-- CTXCTL command 0x01 (R77). -/
def State.ctxCreate (s : State) (b : List Byte) : State :=
  let u (o n : Nat) : Nat := leNat ((b.drop o).take n)
  let fail (c : Nat) : State := { s with ctxStat := ctxStatWord c 0 }
  let slot := u 4 4 % 4096
  let (sub, mb) := (u 48 2, u 50 2)
  let k : Key := (lookup s.keys slot).getD ⟨0, 0, false, 0⟩
  if createMalformed b then fail 0x03
  else if slot == 0 || s.ctxs.any (fun c => slotOfCtx c.ident == slot) then fail 0x01
  else if maxIncarnation ≤ k.incarnation then fail 0x02
  else if s.pageTaken sub || s.pageTaken mb || (sub == mb && sub != 0xFFFF) || u 40 8 % 4096 != 0
      || (match regionOf (u 40 8) with | .hbm _ => false | _ => true) then fail 0x04
  else
    let inc := k.incarnation + 1
    let fresh : Key := { key := Config.randomKey s.fresh, epoch := s.newEpoch inc, held := true, incarnation := inc }
    let key : Option Key := if u 56 8 == 0 then some fresh
      else (s.unsealBlob slot (s.load (u 56 8) 0 64)).map (fun x => { fresh with key := x.1, epoch := x.2 })
    match key with
    | none => fail 0x05
    | some key =>
      let ident : W32 := BitVec.ofNat 32 (inc * 4096 + slot)
      let c : Ctx :=
        { ident := ident, dead := false, maxPrio := u 1 1, liveLimit := u 8 4, ringBase := u 16 8
          sendStatus := u 24 8, vectors := (List.range (u 2 1)).map (s.vectorEntry (u 32 8))
          memdef := memdefWrite 0x20 (BitVec.ofNat 32 (u 12 4)) slot, inboxFrame := u 40 8
          subPage := if sub == 0xFFFF then none else some sub
          mbPage := if mb == 0xFFFF then none else some mb
          inbox := [], nextIn := 1, sent := 0, consumed := 0 }
      { s with ctxs := s.ctxs ++ [c], keys := put s.keys slot key, fresh := s.fresh + 1
               ctxStat := ctxStatWord 0 ident }

/-- CTXCTL command 0x02 (R77). -/
def State.ctxMemdef (s : State) (b : List Byte) : State :=
  let u (o n : Nat) : Nat := leNat ((b.drop o).take n)
  let ident : W32 := BitVec.ofNat 32 (u 4 4)
  if u 1 3 != 0 || u 8 4 != 0 || u 16 48 != 0 then { s with ctxStat := ctxStatWord 0x03 0 }
  else
    match s.ctx? ident with
    | some c =>
      if c.dead then { s with ctxStat := ctxStatWord 0x06 0 }
      else { s.setCtx { c with memdef := memdefWrite c.memdef (BitVec.ofNat 32 (u 12 4)) (slotOfCtx ident) } with
        ctxStat := ctxStatWord 0 ident }
    | none => { s with ctxStat := ctxStatWord 0x06 0 }

/-- A store to CTXCTL (R77); a reserved command gives code 0x03. -/
def State.ctxControl (s : State) (b : List Byte) : State :=
  if leNat (b.take 1) == 1 then s.ctxCreate b
  else if leNat (b.take 1) == 2 then s.ctxMemdef b
  else { s with ctxStat := ctxStatWord 0x03 0 }

/-- CTX_CREATE (R77). CTXCTL command 0x01 creates a context in a key slot, generates or unseals its key,
and binds its pages and inbox. -/
def execCtxCreate (s : State) : Host.Outcome State Fault Refusal :=
  .next (if isSupervisor s.arg.w && leNat (s.arg.bytes.take 1) != 2 then s.ctxControl s.arg.bytes else s)

/-- CTX_SET_MEMDEF (R77). CTXCTL command 0x02 sets the MEMDEF of a live context. -/
def execCtxSetMemdef (s : State) : Host.Outcome State Fault Refusal :=
  .next (if isSupervisor s.arg.w && leNat (s.arg.bytes.take 1) == 2 then s.ctxMemdef s.arg.bytes else s)

end Sys2Proof.Machine
end

