-- ==== Sys2Proof/Machine/Answer.lean ====
section
/-! DEFINITION. HQDONE (R364): which answers are accepted, and what each ends. -/

namespace Sys2Proof.Machine

/-- Whether an action is legal for a kind of record (R364). -/
def actionLegal (action kind : Nat) : Bool :=
  match action with
  | 0 => kind == 0x03 || kind == 0x05 || kind == 0x06 || (0x09 ≤ kind && kind ≤ 0x10)
  | 1 => kind == 0x01 || kind == 0x02 || kind == 0x11
  | 2 | 3 | 4 => kind == 0x01
  | 5 => kind == 0x01 || kind == 0x02 || kind == 0x03 || kind == 0x11
  | _ => false

/-- An answer: its action word, value and auxiliary. -/
structure Reply where
  word : Nat
  value : W32
  aux : W64
  deriving DecidableEq, Repr

def Reply.tag (a : Reply) : Nat := bits a.word 0 16

def Reply.action (a : Reply) : Nat := bits a.word 16 3

def Reply.p0 (a : Reply) : Bool := bit a.word 19

def Reply.reg (a : Reply) : Nat := bits a.word 20 7

/-- The answer of a lane (R364). -/
def Thread.replyOf (t : Thread) (a l : Nat) : Reply :=
  ⟨(t.vreg a l).toNat, t.vreg (a + 1) l, t.vpair (a + 2) l⟩

/-- Whether an answer is well formed for a record's kind. -/
def Reply.fits (a : Reply) (kind : Nat) : Bool :=
  actionLegal a.action kind && bits a.word 27 5 == 0 && decide (a.reg ≤ 95)
    && (a.action != 3 || a.aux.toNat % 4 == 0)

/-- The taken record that an answer of a group names (R364). -/
def Hq.named (q : Hq) (slot : Nat) (a : Reply) : Option HqRec :=
  q.recs.find? (fun r => r.state == 2 && r.taker == some slot && r.tag == a.tag)

/-- A thread's record becomes done, with its answer kept in it. -/
def State.finishRec (s : State) (core : Nat) (r : HqRec) (a : Reply) : State :=
  let (n, s) := s.newId
  let r := if r.kind == 0x03 && a.action == 0 then r.withCallAnswer a.value a.p0 else r
  let v : W32 := if a.action == 4 then BitVec.ofNat 32 a.reg else a.value
  s.setRec core { r.withState (r.taker.getD 0) 3 with
    answer := some (a.action, v, a.p0, a.aux), order := n }

/-- What an accepted answer does (R364); a group's record that nobody waits for is freed. -/
def State.acceptReply (s : State) (core : Nat) (r : HqRec) (a : Reply) : State :=
  if r.ofThread then
    let s := s.finishRec core r a
    if s.posterGone r then s.freeRecs core (fun x => x.place == r.place && x.kind == r.kind) else s
  else
    let s := s.freeRecs core (fun x => x.place == r.place && x.kind == r.kind)
    if r.copyFault then s.copyAnswer (r.poster.getD 0) a.action
    else if r.kind == 0x11 then
      s.completionAnswer (BitVec.ofNat 64 (leNat ((r.bytes.drop 8).take 8))) a.action
    else s

/-- The answers of the active lanes in ascending order: the state, the mask of accepted lanes, and the
threads concerned. -/
def State.replies (s : State) (t : Thread) (a : Nat) (lanes : List Nat) : State × Mask × List Nat :=
  lanes.foldl (fun (x : State × Mask × List Nat) l =>
    let r := t.replyOf a l
    match (x.1.core t.core).hq.named t.slot r with
    | some rec =>
      if r.fits rec.kind then
        (x.1.acceptReply t.core rec r, x.2.1 ||| laneBit l,
          x.2.2 ++ (if rec.ofThread then rec.poster.toList else []))
      else x
    | none => x) (s, 0, [])

/-- HQDONE (R364). Ends taken hand-in records with their actions. -/
def execHqdone (h : Hdr) (d : BitVec 7) (a : BitVec 7) (s : State) :
    Host.Outcome State Fault Refusal :=
  run (.hqdone h d a) s (fun s => s.release h 5 (fun s => s.withThread (fun t =>
    let (s, m, who) := s.replies t a.toNat (lanesOf (active t h))
    let s := match s.thread? t.id with
      | some t => s.setThread (if m == 0 then t else { t with bellT := s.time })
      | none => s
    (dedup who).foldl State.settleRecords (s.finish h d.toNat m))))

end Sys2Proof.Machine
end

