-- ==== Sys2Proof/Machine/Migration.lean ====
section
/-! DEFINITION. Hot pages migrated by the hardware (R372) and the list of frames it takes (R373). -/

namespace Sys2Proof.Machine

/-- Bytes of a region. -/
def regionBytes : Nat := 65536

/-- The sixteen leaves that map a region, as address and value, in ascending order: one 64 KiB leaf
group, or 16 level-1 leaves (R372, step 1). -/
def State.regionLeaves (s : State) (ctx : W32) (region : Nat) : Option (List (Nat × Nat)) :=
  match s.walk ctx region with
  | .leaf v at_ size =>
    if size == 2 then none
    else
      let ls : List (Nat × Nat) := (List.range 16).map (fun i => (at_ + 8 * i, s.loadNat (at_ + 8 * i) 0 8))
      let ok (e : Nat) : Bool :=
        bit e 0 && bit e 7 && bits e 52 2 == 0 && !bit e 55 && bit e 11 == bit v 11
          && !leafMalformed e 1 (halfOf region != some true)
      if ls.all (fun e => ok e.2) then some ls else none
  | .fault _ => none

/-- Address of page i of a region, from its leaves' values. -/
def oldPage (leaves : List (Nat × Nat)) (i : Nat) : Nat :=
  match leaves[i]? with
  | some (_, v) => if bit v 11 then entryAddr v / regionBytes * regionBytes + 4096 * i else entryAddr v
  | none => 0

/-- A leaf with WBLK set (R372, step 3). -/
def blockLeaf (e : Nat) : Nat := if bit e 55 then e else e + 2 ^ 55

/-- A leaf with WBLK clear. -/
def unblockLeaf (e : Nat) : Nat := if bit e 55 then e - 2 ^ 55 else e

/-- Leaf i naming the new frame, with WBLK clear; its other bits stay (R372, step 5). -/
def newLeaf (e new i : Nat) : Nat :=
  let a := if bit e 11 then new else new + 4096 * i
  unblockLeaf e - entryAddr e + a

/-- Values written at their addresses, in order. -/
def State.storeLeaves (s : State) (ls : List (Nat × Nat)) : State :=
  ls.foldl (fun (s : State) e => s.store e.1 0 (leBytes 8 e.2)) s

/-- A frame given back to MIGLIST (R372). -/
def State.frameBack (s : State) (die new : Nat) : State :=
  let x := s.die die
  (s.store (x.migAddr + 8 * x.migCount) 0 (leBytes 8 new)).setDie die { x with migCount := x.migCount + 1 }

/-- The migration under way on a die, in one of its steps. -/
def State.migAt (s : State) (die step : Nat) : Option Mig :=
  match (s.die die).migCur with
  | some m => if m.step == step then some m else none
  | none => none

/-- The shootdown that a migration waits for has completed (R133). -/
def State.migShot (s : State) (die : Nat) (m : Mig) : Bool := m.seq ≤ (s.die die).shootDone

/-- A frame that is never migrated: the export table names it (R117), or it is the inbox of a context, pinned for the
life of its incarnation (R77, R87). -/
def State.isPinned (s : State) (frame : Nat) : Bool :=
  s.exports.any (fun e => e.2 / 4096 == frame / 4096)
    || s.ctxs.any (fun c => slotOfCtx c.ident != 0 && c.inboxFrame / 4096 == frame / 4096)

/-- MIGRATION_START (R372). In hardware HOTPG mode the die checks the hot region's leaves, takes a frame
from MIGLIST, sets WBLK and shoots the region down; one region at a time. -/
def execMigrationStart (s : State) : Host.Outcome State Fault Refusal :=
  .next (
    let die := s.arg.a
    let x := s.die die
    match x.migCur, x.migWait with
    | none, (ctx, region, core) :: rest =>
      if shootQueue ≤ x.shootQ.length then s
      else
        let m : Mig := { ctx := ctx, region := region, core := core, step := 7, oldPa := 0, newPa := 0
                         leaves := [], seq := 0, status := 2 }
        match s.regionLeaves ctx region with
        | none => s.setDie die { x with migWait := rest, migCur := some m }
        | some ls =>
          let m : Mig := { m with oldPa := oldPage ls 0, status := 1 }
          if (List.range 16).any (fun i => s.isPinned (oldPage ls i)) then
            s.setDie die { x with migWait := rest, migCur := some { m with status := 2 } }
          else if x.migCount == 0 then s.setDie die { x with migWait := rest, migCur := some m }
          else
            let new := s.loadNat (x.migAddr + 8 * (x.migCount - 1)) 0 8
            let ls : List (Nat × Nat) := ls.map (fun e => (e.1, blockLeaf e.2))
            let s := s.setDie die { x with migWait := rest, migCount := x.migCount - 1 }
            let s := (s.storeLeaves ls).shoot die ctx false region 16
            let x := s.die die
            let m : Mig := { m with
              step := 3, newPa := new, leaves := ls, seq := x.shootAcc, status := 0 }
            s.setDie die { x with migCur := some m }
    | _, _ => s)

/-- Line n of a region copied to its new frame under the context's key (R372, step 4). A poisoned line
is poisoned there too (log entry 41). -/
def State.migrateLine (s : State) (m : Mig) (ext : List Byte) (n : Nat) : State :=
  let key := keyFor m.ctx m.region
  let src := oldPage m.leaves (n / 32) + 128 * (n % 32)
  let dst := m.newPa + 128 * n
  let s := s.recall src
  let bs := if ext.length == regionBytes && isHost src then (ext.drop (128 * n)).take 128
    else s.load src key 128
  let s := s.land (.engine (12 * homeDie dst) 4 key []) dst (bs.mapIdx (fun i b => (i, b)))
  { s with memPoison := Sparse.set s.memPoison 0 dst (Sparse.get s.memPoison 0 src) }

/-- MIGRATION_COPY (R372, step 4). After the blocking shootdown completes, the die copies the 64 KiB
region to the new frame; bytes of a host frame come with the step, where it has any. -/
def execMigrationCopy (s : State) : Host.Outcome State Fault Refusal :=
  .next (
    let die := s.arg.a
    match s.migAt die 3 with
    | some m =>
      if !s.migShot die m then s
      else
        let s := (List.range 512).foldl (fun (s : State) n => s.migrateLine m s.arg.bytes n) s
        s.setDie die { s.die die with migCur := some { m with step := 4 } }
    | none => s)

/-- MIGRATION_REMAP (R372, steps 5 and 6). The die rereads the leaves, rewrites them to the new frame or
abandons the move, and shoots the region down again. -/
def execMigrationRemap (s : State) : Host.Outcome State Fault Refusal :=
  .next (
    let die := s.arg.a
    match s.migAt die 4 with
    | some m =>
      if shootQueue ≤ (s.die die).shootQ.length then s
      else
        let same (e : Nat × Nat) : Bool := s.loadNat e.1 0 8 == e.2
        let kept := m.leaves.filter same
        let ok := kept.length == m.leaves.length
        let s := if ok then
            s.storeLeaves (m.leaves.mapIdx (fun i (e : Nat × Nat) => (e.1, newLeaf e.2 m.newPa i)))
          else (s.storeLeaves (kept.map (fun (e : Nat × Nat) => (e.1, unblockLeaf e.2)))).frameBack die m.newPa
        let s := s.shoot die m.ctx false m.region 16
        let x := s.die die
        let m : Mig := { m with
          step := 6, seq := x.shootAcc, status := if ok then 0 else 3, newPa := if ok then m.newPa else 0 }
        s.setDie die { x with migCur := some m }
    | none => s)

/-- The report of a migration (R361, kind 0x0D; R372, step 7). -/
def migReport (m : Mig) : Post :=
  devicePost 0x0D (slotOfCtx m.ctx) none
    (leBytes 4 m.ctx.toNat ++ [0, 0, 0, 0] ++ leBytes 8 m.region ++ leBytes 8 m.oldPa
      ++ leBytes 8 (if m.status == 0 then m.newPa else 0) ++ [BitVec.ofNat 8 m.status])

/-- MIGRATION_REPORT (R372, step 7). After the final shootdown, or where the migration ended without
one, the die posts its report. -/
def execMigrationReport (s : State) : Host.Outcome State Fault Refusal :=
  .next (
    let die := s.arg.a
    match (s.die die).migCur with
    | some m =>
      if m.step == 7 || (m.step == 6 && s.migShot die m) then
        (s.setDie die { s.die die with migCur := none }).postDevice m.core (migReport m)
      else s
    | none => s)

/-- A store to MIGLIST (R373): address and count. A step 2 under way is never met between steps. -/
def State.migList (s : State) (die : Nat) (bytes : List Byte) : State :=
  s.setDie die { s.die die with
    migAddr := leNat (bytes.take 8), migCount := leNat ((bytes.drop 8).take 8) }

/-- MIGLIST_WRITE (R373). A supervisor write of MIGLIST replaces the frame array and count. -/
def execMiglistWrite (s : State) : Host.Outcome State Fault Refusal :=
  .next (if isSupervisor s.arg.w then s.migList s.arg.a s.arg.bytes else s)

end Sys2Proof.Machine
end

