-- ==== Sys2Proof/Machine/CopyStart.lean ====
section
/-! DEFINITION. The start of a copy: the destination lines that it owns (R314), and its entry in the issue
journal (R311, R320). -/

namespace Sys2Proof.Machine

/-- Lines of the units still to be written of a destination in memory, in its own space. -/
def Cpy.destLines (c : Cpy) : List Nat :=
  let d := cpyDesc c.desc
  let us := d.units
  dedup (c.left.filterMap (fun n => (us[n]?).map (fun u => lineOf (d.unitAt u).1)))

/-- Physical lines that a copy can own now: those of a physical destination, and of a virtual one those of
pages that are translated; none that a later copy owns before it (R314). -/
def State.ownableLines (s : State) (c : Cpy) : List Nat :=
  let d := cpyDesc c.desc
  if d.dsp == 1 then []
  else
    (dedup (c.destLines.filterMap (fun a =>
      let r := if d.dsp == 2 then s.physical a else s.translate c.core c.ctx c.sup a accCopyWrite
      match r with
      | .ok pa _ mt => if mt == 0 && homedHere pa then some (lineOf pa) else none
      | _ => none))).filter (fun l =>
        c.owned.contains l || !s.cpys.any (fun x => c.id < x.id && x.owned.contains l))

/-- Lines become owned: their buffered copies are merged, and their copies in the L1s of their home die are recalled
(R287, R296, R314). -/
def State.takeLines (s : State) (c : Cpy) (lines : List Nat) : State :=
  let new := lines.filter (fun l => !c.owned.contains l)
  (new.foldl (fun (s : State) l => (s.recall l).invalidate ((s.recall l).dirClusters l) l) s).setCpy
    { c with owned := c.owned ++ new }

/-- A copy enters the journal of its core, and owns what it can (R311, R314). -/
def State.enterCopy (s : State) (c : Cpy) : State :=
  let c := { c with left := List.range (cpyDesc c.desc).units.length }
  let s : State := { s with cpys := s.cpys ++ [c] }
  s.takeLines c (s.ownableLines c)

end Sys2Proof.Machine
end

