-- ==== Sys2Proof/Machine/FolioWrite.lean ====
section
/-! DEFINITION. Folios as they are written: their layout (R381 to R385), SUSPEND (R391), the steps of a
suspension (R387, R388), and the pre-emption of a gang into a folio pool (R389, R390). -/

namespace Sys2Proof.Machine

/-! ## Sizes (R384) -/

/-- Bytes of the header and fixed sections. -/
def folioHead : Nat := 0xB80

/-- Bytes of the register section of an actual folio. -/
def Thread.regSection (t : Thread) : Nat := roundUpTo ((t.wp + 64) * t.width * 4) 128

/-- Offset of the team section. -/
def Thread.teamOffset (t : Thread) : Nat := folioHead + t.regSection + t.tiles * tileBytes

/-- Bytes of a team section, 0 without one. -/
def sectionBytes (with_ : Bool) (galley : Nat) : Nat := if with_ then 0x100 + galley else 0

/-- Total size of an actual folio. -/
def Thread.folioSize (t : Thread) (with_ : Bool) (galley : Nat) : Nat :=
  t.teamOffset + sectionBytes with_ galley

/-- Galley bytes of a thread's team. -/
def State.galleyOf (s : State) (t : Thread) : Nat :=
  match s.team? t.team with | some tm => tm.galley | none => 0

/-- Largest folio and team section of a thread's own kernel. -/
def State.largestFolio (s : State) (t : Thread) : Nat :=
  folioHead + t.lim * t.kwidth * 4 + t.tiles * tileBytes + 0x100 + s.galleyOf t

/-! ## The image -/

/-- Bytes at rising offsets, zeros between them. -/
def layOut : Nat → List (Nat × List Byte) → List Byte
  | _, [] => []
  | at_, (o, bs) :: r => List.replicate (o - at_) 0 ++ bs ++ layOut (max at_ o + bs.length) r

/-- A claim word (R383): state and sequence. -/
def claimWord (state seq : Nat) : Nat := state * 2 ^ 30 + seq % 2 ^ 30

/-- What a folio records beside its group. -/
structure FolioArgs where
  /-- State of its claim word. -/
  claim : Nat
  addr : W64
  serial : Nat
  lineage : Nat
  origin : Nat
  pool : Bool
  section_ : Bool
  /-- A peer timeout is pending (R387). -/
  late : Bool
  galley : Nat
  tags : List (Nat × Nat)
  journal : List (List Byte)
  deriving DecidableEq, Repr

/-- Two bits of a token (R382). -/
def tokCode (k : Tok) : Nat := match k with | .idle => 0 | .busy _ => 1 | .failed .. => 2

/-- The header and the fixed sections (R382); the reconvergence entry pushed first is entry 0 (log entry
61). -/
def Thread.header (t : Thread) (a : FolioArgs) : List Byte :=
  let reg := folioHead + t.regSection
  let sumOf (n : Nat) (f : Nat → Nat) : Nat := ((List.range n).map f).sum
  layOut 0
    [ (0, leBytes 8 0x00014F494C4F4644), (8, leBytes 4 1), (12, leBytes 4 (claimWord a.claim t.claimSeq))
    , (16, leBytes 8 a.addr.toNat), (24, leBytes 4 t.ctx.toNat), (28, leBytes 4 a.serial)
    , (32, leBytes 1 (b2n t.sup)), (33, leBytes 1 a.origin)
    , (34, leBytes 1 (b2n a.section_ + 2 * b2n a.late + 4 * b2n a.pool))
    , (36, leBytes 4 (t.folioSize a.section_ a.galley)), (40, leBytes 1 t.width), (41, leBytes 1 t.f)
    , (42, leBytes 1 t.wlimit), (43, leBytes 1 t.kwidth), (44, leBytes 1 t.teamIdx)
    , (45, leBytes 1 t.grp), (46, leBytes 1 t.rstack.length), (48, leBytes 8 t.pc.toNat)
    , (56, leBytes 8 t.live.toNat), (64, leBytes 8 t.exec.toNat), (72, leBytes 8 t.launch.toNat)
    , (80, leBytes 4 a.lineage), (88, leBytes 4 t.wp), (92, leBytes 4 t.lim), (96, leBytes 4 t.dres)
    , (100, leBytes 4 t.mathctl.toNat), (104, leBytes 8 t.pstat.toNat)
    , (112, leBytes 2 (sumOf 8 (fun k => tokCode (t.tok k) * 2 ^ (2 * k))))
    , (114, leBytes 1 a.journal.length), (115, leBytes 1 t.tile0), (116, leBytes 1 t.tiles)
    , (117, leBytes 1 a.tags.length), (120, leBytes 8 t.linear), (128, leBytes 4 t.srcnt.toNat)
    , (132, leBytes 4 (slotOfCtx t.ctx)), (136, leBytes 8 t.lct.clus), (144, leBytes 8 t.lct.die)
    , (152, leBytes 8 t.lct.dev), (160, leBytes 8 t.lct.sys), (168, leBytes 8 folioHead)
    , (176, leBytes 8 reg), (184, leBytes 8 (if a.section_ then t.teamOffset else 0))
    , (256, t.lanes.flatMap (fun l =>
        leBytes 2 (sumOf 7 (fun p => b2n (t.pred p l) * 2 ^ p) + (t.flags l).toNat * 2 ^ 8)))
    , (512, (List.range 96).flatMap (fun n => leBytes 8 (t.sreg n).toNat))
    , (1280, t.rstack.reverse.flatMap (fun e => leBytes 8 e.1.toNat ++ leBytes 8 e.2.toNat))
    , (1792, a.tags.flatMap (fun x => leBytes 8 (x.1 % 2 ^ 16 + x.2 % 64 * 2 ^ 16)))
    , (2304, a.journal.flatten), (folioHead, []) ]

/-- The register section: positions 0 to WP + 63 of every lane. -/
def State.regBytes (s : State) (t : Thread) : List Byte :=
  padTo t.regSection ((List.range (t.wp + 64)).flatMap (fun q =>
    t.lanes.flatMap (fun l => leBytes 4 (s.position t q l).toNat)))

/-- The forme section: the granted tiles as raw bytes. -/
def State.formeBytes (s : State) (t : Thread) : List Byte :=
  (List.range t.tiles).flatMap (fun i =>
    Sparse.read (s.core t.core).forme ((t.tile0 + i) * tileBytes) tileBytes)

/-- Group g of a team has lanes that a folio holds, or will when its suspension ends. -/
def State.folded (s : State) (tm : Team) (g : Nat) : Bool :=
  s.folios.any (fun e => e.team == tm.id && e.grp == g)
    || s.threads.any (fun t => t.team == tm.id && t.grp == g && t.live != 0)

/-- The team section (R385). -/
def State.teamBytes (s : State) (tm : Team) : List Byte :=
  let mask := ((List.range tm.groups).map (fun g => b2n (s.folded tm g) * 2 ^ g)).sum
  layOut 0
    [ (0, leBytes 8 tm.galley), (8, leBytes 1 tm.idx), (9, leBytes 1 tm.groups)
    , (10, leBytes 1 (b2n tm.pair)), (16, leBytes 2 mask), (0x100, s.galRead tm 0 tm.galley) ]

/-- The whole image of a folio. -/
def State.image (s : State) (t : Thread) (a : FolioArgs) : List Byte :=
  t.header a ++ s.regBytes t ++ s.formeBytes t ++
    (if a.section_ then match s.team? t.team with | some tm => s.teamBytes tm | none => [] else [])

/-! ## Poison in the image (R385) -/

/-- Cause of the poison of a stack position of a lane, 0 for none. -/
def State.positionPoison (s : State) (t : Thread) (q l : Nat) : Nat :=
  if t.rbase ≤ q then (if Sparse.get t.storePoison false (t.storeKey q l) then 0x90 else 0)
  else if Sparse.get s.memPoison 0 (lineOf (t.spillAddr q l)) != 0 then 0x95 else 0

/-- Poisoned lines of the image: offset and cause. -/
def State.imagePoison (s : State) (t : Thread) (a : FolioArgs) : List (Nat × Nat) :=
  let reg := (List.range (t.wp + 64)).flatMap (fun q => t.lanes.filterMap (fun l =>
    let c := s.positionPoison t q l
    if c == 0 then none else some (folioHead + (q * t.width + l) * 4 / 128 * 128, c)))
  let tile := (List.range t.tiles).flatMap (fun i =>
    if s.tilePoisoned t.core (t.tile0 + i) then
      (List.range 512).map (fun n => (folioHead + t.regSection + i * tileBytes + 128 * n, 0x94))
    else [])
  let win := match s.team? t.team with
    | some tm =>
      if a.section_ then
        (List.range (tm.galley / 128)).filterMap (fun n =>
          if s.galPoisoned tm (128 * n) 1 then some (t.teamOffset + 0x100 + 128 * n, 0x91) else none)
      else []
    | none => []
  reg ++ tile ++ win

/-- Physical address of an offset in pieces. -/
def pieceAt : List (Nat × Nat) → Nat → Nat
  | [], _ => 0
  | (pa, len) :: r, o => if o < len then pa + o else pieceAt r (o - len)

/-- Bytes written over pieces line by line, from the first on. -/
def State.landPieces (s : State) (core key : Nat) (pieces : List (Nat × Nat)) (bs : List Byte) : State :=
  (List.range (ceilDiv bs.length 128)).foldl (fun (s : State) n =>
    s.landBytes core (pieceAt pieces (128 * n)) key ((bs.drop (128 * n)).take 128)) s

/-- Lines of the first bytes of pieces. -/
def pieceLines (pieces : List (Nat × Nat)) (size : Nat) : List Nat :=
  (List.range (ceilDiv size 128)).map (fun n => lineOf (pieceAt pieces (128 * n)))

/-- Every write to the lines of pieces is visible to every reader. -/
def State.piecesVisible (s : State) (pieces : List (Nat × Nat)) (size : Nat) : Bool :=
  (pieceLines pieces size).all (fun l => (s.pends l).all (fun p => p.probes.isEmpty && decide (p.cfar ≤ s.time)))

/-- Lines written whole are poisoned no more but for those of a list (R374, R385). -/
def State.poisonPieces (s : State) (pieces : List (Nat × Nat)) (size : Nat) (bad : List (Nat × Nat)) :
    State :=
  let clean := (pieceLines pieces size).foldl (fun m l => Sparse.set m 0 l 0) s.memPoison
  { s with memPoison := bad.foldl (fun m e => Sparse.set m 0 (lineOf (pieceAt pieces e.1)) e.2) clean }

/-! ## Stopping (R387, step 1) -/

/-- What a park becomes when its group is suspended: an instruction that has not completed is forgotten,
one that only waits to end goes on. -/
def Park.stopped (p : Park) : Park :=
  match p with
  | .poll | .blocked | .sleep .. | .release _ | .fuse .. | .tbar _ | .inbox .. | .cflush .. | .spill .. => .run
  | p => p

/-- The suspension of a group or child begins. -/
def State.beginSuspend (s : State) (t : Thread) (u : Susp) : State :=
  let s : State := { s with fcopies := s.fcopies.filter (fun c => c.who != t.id) }
  ((s.tbarWithdraw t.id).unhold t.id).setThread { t with susp := some u, park := t.park.stopped, relDone := false }

/-- Entries of the folio directory (R386). -/
def directorySize : Nat := 65536

/-- Entries that are taken: those of LIVE folios, and those that suspensions and FCOPYs under way will make. -/
def State.directoryUsed (s : State) : Nat :=
  s.folios.length + (s.threads.filter (·.susp.isSome)).length + s.fcopies.length

/-- SUSPEND (R391). Writes the group's own folio and stops it. -/
def execSuspend (h : Hdr) (d : BitVec 7) (a : BitVec 7) (s : State) : Host.Outcome State Fault Refusal :=
  run (.suspend h d a) s (fun s => s.withThread (fun t =>
    let va := (t.sreg a.toNat).toNat
    if va % 128 != 0 then s.trapAddr h vMisalign 0x08 va
    else if t.peerLate then s.reportLate h
    else
      s.runAccess h 0 accWrite va (s.largestFolio t) (fun s ps => s.withThread (fun t =>
        if directorySize ≤ s.directoryUsed then (s.setSreg d.toNat (codeWord 0x01 0)).advance h
        else
          s.beginSuspend t
            { origin := 0, addr := BitVec.ofNat 64 va, frames := ps.map (fun p => (p.pa, p.len))
              key := keyFor t.ctx va, pc := nextPc t.pc h, dest := some d.toNat, holder := false
              journaled := false, journal := [], tags := [], withdrawn := [], serial := 0, section_ := false }))))

/-! ## The steps of a suspension (R387) -/

/-- Nothing of a thread is outstanding any more, nor on a tile of its group (R280): steps 1 to 3. -/
def State.drained (s : State) (t : Thread) : Bool :=
  (t.park == .run || t.park == .records)
    && !s.outs.any (fun o => o.owners.contains t.id)
    && !s.redBuf.any (fun r => r.threads.contains t.id)
    && !s.pressOps.any (fun p => p.owners.contains t.id || p.issuer == t.id
        || p.parts.any (fun q => q.thread == t.id || (q.core == t.core && t.grants q.tile)))

/-- Step 4: the copies of a thread's tokens stop, and give their entries in ascending token (R321); a
shared copy whose entry lies in another folio gives none. -/
def State.journal (s : State) (t : Thread) : State × List (List Byte) :=
  (List.range 8).foldl (fun (x : State × List (List Byte)) k =>
    match t.tok k with
    | .busy c =>
      match x.1.cpy? c with
      | some c =>
        let r := (x.1.freeCopyRecs c).copyStop c
        (r.1, x.2 ++ [r.2])
      | none => x
    | .failed _ _ _ e => (x.1, x.2 ++ [e])
    | .idle => x) (s, [])

/-- A record of a thread that is withdrawn, so as to be posted again. -/
def withdrawnOf (r : HqRec) : Nat × Nat × Mask × List Byte := (r.kind, r.lane, r.mask, r.bytes.drop 8)

/-- Step 5: posted records are withdrawn, and taken ones kept as tags (R365). -/
def State.keepRecords (s : State) (t : Thread) (u : Susp) : State × Susp :=
  let rs := s.recsOf t.id
  let posted := rs.filter (fun x => x.2.state == 1)
  let kept := rs.filter (fun x => x.2.state != 1)
  let s := (dedup (posted.map (·.1))).foldl (fun (s : State) c =>
    s.freeRecs c (fun r => r.state == 1 && r.poster == some t.id && r.kind ≤ 0x03)) s
  (s, { u with tags := kept.map (fun x => (x.2.tag, x.1)), withdrawn := posted.map (fun x => withdrawnOf x.2) })

/-- Steps 4 and 5. -/
def State.journalSuspend (s : State) (t : Thread) (u : Susp) : State :=
  let s := s.fireMarks t.id
  match s.thread? t.id with
  | none => s
  | some t =>
    let (s, es) := s.journal t
    let (s, u) := s.keepRecords t u
    match s.thread? t.id with
    | none => s
    | some t => s.setThread { t with susp := some { u with journaled := true, journal := es } }

/-- Whether a folio of a thread holds the team section (R388, R389); a service group has none (R394). -/
def State.writesSection (s : State) (t : Thread) (u : Susp) : Bool :=
  let others := s.threads.filter (fun x => x.team == t.team && x.id != t.id)
  match s.team? t.team with
  | some tm => !t.service && !tm.folded && (if u.origin == 1 then u.holder else others.isEmpty)
  | none => false

/-- The holder of a team section writes it when no other group of the team runs or has copies: its other
members are stopped and journaled. The folios of a team are written one after the other (R388). -/
def State.writeWaits (s : State) (t : Thread) (u : Susp) : Bool :=
  s.threads.any (fun x => x.team == t.team && x.id != t.id &&
    (match x.susp with
     | some v => v.serial != 0 || (u.origin == 1 && u.holder && !v.journaled)
     | none => u.origin == 1 && u.holder))

/-- A team without resident groups gives back its galley pages and its barriers. -/
def State.foldTeam (s : State) (id : Nat) : State :=
  { s with teams := s.teams.map (fun (tm : Team) =>
      if tm.id == id then { tm with folded := true, pages := [], pages2 := [], bars := [] } else tm) }

/-- A placement request for a requeued gang (R107; R361, kind 0x06). -/
def requeueRequest (l : Launch) (g : Gang) (block : Nat) : Post :=
  devicePost 0x06 (slotOfCtx l.ctx) none
    (leBytes 8 l.ident.toNat ++ leBytes 8 g.linear ++ leBytes 2 (l.kd.teams + 16 * b2n l.kd.pair)
      ++ leBytes 1 g.prio ++ [1, 0, 0, 0, 0] ++ leBytes 8 block)

/-- A gang whose last folio is LIVE is requeued (R389), and the die of its pool is told where its
supervisor places (R107). -/
def State.requeue (s : State) (gang : Nat) : State :=
  match s.gang? gang with
  | none => s
  | some g =>
    if g.state != .suspending || s.threads.any (fun t => t.gang == gang && t.susp.isSome) then s
    else
      let s := s.setGang { g with state := .requeued, waitSince := s.time }
      match g.block, s.launch? g.launch with
      | some (d, _, a), some l => if s.mode d 2 then s.postDevice (12 * d) (requeueRequest l g a) else s
      | _, _ => s

/-- The thread as it stands in its folio. -/
def suspended (t : Thread) (u : Susp) (lineage : Nat) : Thread :=
  { t with susp := none, lineage := lineage, park := if t.onRecords then .records else .run
           pc := if u.origin == 0 then u.pc else t.pc, relDone := false, peerLate := false }

/-- What the folio of a suspension records beside the group, and the group as it stands there. -/
def State.folioArgs (s : State) (t : Thread) (u : Susp) : FolioArgs × Thread :=
  let lineage := if t.lineage == 0 then u.serial else t.lineage
  ({ claim := 0, addr := u.addr, serial := u.serial, lineage := lineage, origin := u.origin, pool := u.origin == 1
     section_ := u.section_, late := t.peerLate || t.lateNow, galley := s.galleyOf t, tags := u.tags
     journal := u.journal }, suspended t u lineage)

/-- Step 6 up to the claim: the folio is written whole with its claim WRITING (R383). -/
def State.writeImage (s : State) (t : Thread) (u : Susp) : State :=
  let u := { u with serial := s.nextSerial, section_ := s.writesSection t u }
  let (a, shadow) := s.folioArgs t u
  let bad := s.imagePoison shadow a
  let s := (s.landPieces t.core u.key u.frames (s.image shadow a)).poisonPieces u.frames
    (shadow.folioSize a.section_ a.galley) bad
  { s with nextSerial := u.serial + 1 }.setThread { t with susp := some u }

/-- The rest of step 6, and step 7: a release, when all of the folio is visible, makes its claim LIVE and enters it in
the directory, and the group's grants are released. -/
def State.liveFolio (s : State) (t : Thread) (u : Susp) : State :=
  let (a, shadow) := s.folioArgs t u
  let size := shadow.folioSize a.section_ a.galley
  let s := (s.landBytes t.core (pieceAt u.frames 12) u.key (leBytes 4 (claimWord 1 t.claimSeq))).triggerLines
    (pieceLines u.frames size)
  let e : FolioEnt :=
    { serial := u.serial, addr := u.addr, ctx := t.ctx, seq := t.claimSeq, lineage := a.lineage, team := t.team
      grp := t.grp, f := t.f, width := t.width, pool := a.pool, section_ := a.section_
      shadow := shadow, dest := u.dest, withdrawn := u.withdrawn }
  let s : State :=
    { s with folios := s.folios ++ [e]
             threads := s.threads.filter (fun x => x.id != t.id)
             walks := s.walks.filter (fun w => !(w.core == t.core && w.ctx == t.ctx && w.fault.isSome)) }
  let s := if (s.inSlot t.core t.slot).isEmpty then s.releaseSlot t.core t.slot else s
  let s := if u.section_ || (t.service && (s.inSlot t.core t.slot).isEmpty) then s.foldTeam t.team else s
  (s.requeue t.gang).afterExit

/-- A peer store that timed out ends a SUSPEND with its trap (R343, R387). -/
def State.suspendLate (s : State) (t : Thread) (u : Susp) : State :=
  if 0 < (s.core t.core).hq.free then
    s.trapThread { t with susp := none, peerLate := false, park := .run }
      (plainTrap vPeerTimeout 0x80 t.exec) t.pc u.pc
  else s

/-- One step of a suspension. -/
def State.suspendStep (s : State) (t : Thread) (u : Susp) : State :=
  let s := s.mergeOwn t.id
  match s.thread? t.id with
  | none => s
  | some t =>
    if !s.drained t then s
    else if u.origin == 0 && t.peerLate then s.suspendLate t u
    else if !u.journaled then s.journalSuspend t u
    else if s.time < t.lct.sys || s.writeWaits t u then s
    else if u.serial == 0 then s.writeImage t u
    else
      let (a, shadow) := s.folioArgs t u
      if s.piecesVisible u.frames (shadow.folioSize a.section_ a.galley) then s.liveFolio t u else s

/-- FOLIO_WRITE (R383, R387). A suspension's folio is written with its claim WRITING; its claim becomes LIVE last, and
then the group's slot, store and tiles are released. -/
def execFolioWrite (s : State) : Host.Outcome State Fault Refusal :=
  .next (match s.thread? s.arg.a with
    | some t => match t.susp with | some u => s.suspendStep t u | none => s
    | none => s)

/-! ## Pre-emption (R389, R390) -/

/-- Bytes of the index of a folio pool: 4,096 entries. -/
def poolIndex : Nat := 65536

/-- Bytes of a gang block of n folios. -/
def blockBytes (n : Nat) : Nat := roundUpTo (64 + 8 * n) 128

/-- What gang blocks and their folios take of a die's pool. -/
def State.poolUsed (s : State) (d : Nat) : List (Nat × Nat) :=
  s.gangs.flatMap (fun g =>
    match g.block with
    | some (x, _, a) => if x == d then (a, blockBytes g.folios.length) :: g.folios else []
    | none => [])

/-- Places for some lengths in a die's pool, each at the lowest address where it fits. -/
def State.poolPlaces (s : State) (d : Nat) (used : List (Nat × Nat)) : List Nat → Option (List (Nat × Nat))
  | [] => some []
  | n :: rest =>
    let x := s.die d
    match findRun used (x.poolBase + poolIndex) (x.poolBase + x.poolSize) (roundUpTo n 128) 128 with
    | none => none
    | some a => (s.poolPlaces d ((a, roundUpTo n 128) :: used) rest).map (fun r => (a, roundUpTo n 128) :: r)

/-- The address of the first free entry of a pool's index. -/
def State.poolEntry (s : State) (d : Nat) : Option Nat :=
  let at_ (i : Nat) : Nat := (s.die d).poolBase + 16 * i
  (firstBelow 4096 (fun i => !s.gangs.any (fun g =>
    match g.block with | some (_, e, _) => e == at_ i | none => false))).map at_

/-- Members of a gang that a pre-emption suspends: those with live lanes that are not suspending
already. -/
def State.victims (s : State) (g : Gang) : List Thread :=
  s.threads.filter (fun t => t.gang == g.id && t.live != 0 && t.susp.isNone)

/-- The member of each team that takes its section (R389). -/
def holderOf (ts : List Thread) (t : Thread) : Bool :=
  !ts.any (fun x => x.team == t.team && (x.grp < t.grp || (x.grp == t.grp && x.f < t.f)))

/-- Lengths of the folios of some members. -/
def State.folioLengths (s : State) (ts : List Thread) : List Nat :=
  ts.map (fun t => t.folioSize (holderOf ts t) (s.galleyOf t))

/-- Room for a gang's block and folios in a die's pool: index entry, block, and folio places. -/
def State.poolRoom (s : State) (d : Nat) (ts : List Thread) : Option (Nat × Nat × List (Nat × Nat)) :=
  if (s.die d).poolSize == 0 || directorySize < s.directoryUsed + ts.length then none
  else
    match s.poolEntry d, s.poolPlaces d (s.poolUsed d) (blockBytes ts.length :: s.folioLengths ts) with
    | some i, some (b :: fs) => some (i, b.1, fs)
    | _, _ => none

/-- An MMA.GANG of a pre-empted gang commits where every part is ready, else it aborts with class 3
(R280). -/
def State.preemptPress (s : State) (ids : List Nat) : State :=
  (s.pressOps.filter (fun p => p.parts.any (fun q => ids.contains q.thread))).foldl (fun (s : State) p =>
    match p.kind with
    | .gang sat zc cja cjb =>
      if p.parts.all (·.ready) then s.gangCommit p sat zc cja cjb
      else s.pressAbort p (fun _ => 3) (match s.thread? p.issuer with | some t => t.core | none => 0)
    | _ => s) s

/-- The block of a gang in its pool, with its index entry (R390). -/
def State.writeBlock (s : State) (g : Gang) (entry block : Nat) (folios : List (Nat × Nat)) : State :=
  let b := leBytes 8 g.launch.toNat ++ leBytes 8 g.linear ++ leBytes 2 folios.length ++ leBytes 1 g.prio
  let s := s.deviceStore block 0 (padTo 64 b ++ folios.flatMap (fun f => leBytes 8 f.1))
  s.deviceStore entry 0 (leBytes 8 block ++ leBytes 8 g.launch.toNat)

/-- A gang is pre-empted into the pool of a die (R389); none where it has no room. Its place among requeued gangs is
that of its pre-emption (R92). -/
def State.preemptGang (s : State) (d : Nat) (g : Gang) : Option State :=
  let ts := s.victims g
  match s.poolRoom d ts with
  | none => none
  | some (entry, block, places) =>
    let s := s.writeBlock g entry block places
    let (n, s) := s.newId
    let s := s.setGang { g with state := .suspending, order := n, block := some (d, entry, block), folios := places }
    let s := (ts.zip places).foldl (fun (s : State) x =>
      match s.thread? x.1.id with
      | none => s
      | some t =>
        s.beginSuspend t
          { origin := 1, addr := BitVec.ofNat 64 x.2.1, frames := [x.2], key := slotOfCtx t.ctx, pc := t.pc
            dest := none, holder := holderOf ts t, journaled := false, journal := [], tags := []
            withdrawn := [], serial := 0, section_ := false }) s
    some ((s.preemptPress (ts.map (·.id))).requeue g.id)

/-- A pool folio has left LIVE: when it was the last of its gang's block, the block and its folios are
free; their bytes stand (R390, R407). -/
def State.freeBlock (s : State) (gang : Nat) : State :=
  match s.gang? gang with
  | none => s
  | some g =>
    match g.block with
    | none => s
    | some (_, entry, _) =>
      let alive := s.folios.any (fun e => e.pool && e.shadow.gang == gang)
        || s.threads.any (fun t => t.gang == gang && (match t.susp with | some u => u.origin == 1 | none => false))
      if alive then s
      else
        (s.deviceStore entry 0 (List.replicate 16 0)).setGang
          { g with block := none, folios := [] }

end Sys2Proof.Machine
end

