-- ==== Sys2Proof/Machine/Retire.lean ====
section
/-! DEFINITION. Retirement of groups, teams, gangs and launches (R206, R399, R411), the dropping of gangs
(R390), and context teardown (R417 to R419). -/

namespace Sys2Proof.Machine

/-! ## Teams and gangs -/

/-- Group g of a team counts as exited: no thread of it is resident, and no folio of it is LIVE (R399,
R411). -/
def State.groupExited (s : State) (team g : Nat) : Bool :=
  !s.threads.any (fun t => t.team == team && t.grp == g)
    && !s.folios.any (fun e => e.team == team && e.grp == g)

/-- A team whose groups have all exited retires; one without resident groups is folded (R399, R411). -/
def State.settleTeam (s : State) (id : Nat) : State :=
  match s.team? id with
  | none => s
  | some tm =>
    let tm := { tm with exited := (List.range tm.groups).filter (s.groupExited id) }
    let s := s.setTeam tm
    if tm.exited.length == tm.groups then
      s.setTeam { tm with retired := true, pages := [], pages2 := [], bars := [] }
    else if s.threads.any (fun t => t.team == id) then s
    else s.foldTeam id

/-- A gang is gone, with its teams, its reservation and its pool block. -/
def State.removeGang (s : State) (g : Gang) : State :=
  let s := match g.block with
    | some (_, entry, _) => s.deviceStore entry 0 (List.replicate 16 0)
    | none => s
  { s with
    gangs := s.gangs.filter (fun x => x.id != g.id)
    teams := s.teams.filter (fun tm => !g.teamIds.contains tm.id)
    reserves := s.reserves.filter (fun r => !(r.launch == g.launch && r.linear == g.linear)) }

/-- A gang whose last team has retired retires, and its launch counts it (R411). -/
def State.settleGang (s : State) (id : Nat) : State :=
  match s.gang? id with
  | none => { s with teams := s.teams.filter (fun tm => !(tm.gang == id && tm.retired)) }
  | some g =>
    if s.teams.any (fun tm => g.teamIds.contains tm.id && !tm.retired) then s.freeBlock id
    else
      let s := s.removeGang g
      match s.launch? g.launch with
      | some l => (s.setLive { l with retired := l.retired + 1 }).settleLaunches
      | none => s

/-- After a group of a team has gone: its team, gang and launch are seen to. -/
def State.settleMember (s : State) (team gang : Nat) : State := (s.settleTeam team).settleGang gang

/-- Instances that end with the membership fault when a group of a team has gone (R351, cause 0x55). -/
def State.strandedBars (s : State) (team g : Nat) : List (Team × TBar) :=
  match s.team? team with
  | some tm => if s.groupExited team g then (waitingFor tm g).map (fun b => (tm, b)) else []
  | none => []

/-- Whether the faults that a group's going raises can all be posted. -/
def State.roomForStranded (s : State) (team g : Nat) : Bool :=
  s.roomForAll ((s.strandedBars team g).flatMap (fun x => s.parkedAt x.2))

/-- Those faults. -/
def State.faultStranded (s : State) (team g : Nat) : State :=
  (s.strandedBars team g).foldl (fun (s : State) x =>
    match s.team? team with | some tm => s.tbarFault tm x.2 0x55 | none => s) s

/-! ## Groups -/

/-- Nothing holds a group without live lanes any more but its LCT (R206, R280). -/
def State.finished (s : State) (t : Thread) : Bool :=
  s.drained t && t.susp.isNone && t.park == .run
    && !(List.range 8).any (fun k => match t.tok k with | .busy _ => true | _ => false)

/-- A group or child retires (R206, R411): its release completes, and it gives back its slot when no
sibling holds it. -/
def State.retireGroup (s : State) (t : Thread) : State :=
  let s := (s.fireMarks t.id).reportTokens t
  let s : State := { s with threads := s.threads.filter (fun x => x.id != t.id) }
  let s := if (s.inSlot t.core t.slot).isEmpty then s.releaseSlot t.core t.slot else s
  ((s.faultStranded t.team t.grp).afterExit).settleMember t.team t.gang

/-- GROUP_RETIRE (R206). A group with no live lane retires once its counters are zero, its tokens are idle
and LCT.sys is reached, releasing its grants. -/
def execGroupRetire (s : State) : Host.Outcome State Fault Refusal :=
  .next (match s.thread? s.arg.a with
    | some t =>
      if t.live != 0 then s
      else
        let s := s.mergeOwn t.id
        if !s.finished t then s
        else if t.peerLate then
          if 0 < (s.core t.core).hq.free then
            s.trapThread { t with peerLate := false } (plainTrap vPeerTimeout 0x80 t.exec) t.pc t.pc
          else s
        else if s.time < t.lct.sys
            || !{ s with threads := s.threads.filter (fun x => x.id != t.id) }.roomForStranded t.team t.grp then s
        else s.retireGroup t
    | none => s)

/-! ## Dropping -/

/-- Threads stop and leave no folio: their press operations abort with class 5, their copies end, and
their reduction lines are merged (R418, step 3). -/
def State.dropThreads (s : State) (p : Thread → Bool) : State :=
  let ts := s.threads.filter p
  let ids := ts.map (·.id)
  let s := (s.pressOps.filter (fun o => meets o.owners ids || o.parts.any (fun q => ids.contains q.thread))).foldl
    (fun (s : State) o => s.pressAbort o (fun _ => 5)
      (match s.thread? o.issuer with | some t => t.core | none => 0)) s
  let s := (s.cpys.filter (fun c => meets c.owners ids)).foldl (fun (s : State) c =>
    (s.freeCopyRecs c).dropCpy c.id) s
  let s := s.mergeWhere (fun r => meets r.threads ids)
  let s : State := { s with
    threads := s.threads.filter (fun t => !ids.contains t.id)
    outs := s.outs.filter (fun o => !(o.cls != 1 && meets o.owners ids)) }
  let s := ids.foldl (fun (s : State) id => s.freeOf id (fun _ => true)) s
  ts.foldl (fun (s : State) t =>
    if (s.inSlot t.core t.slot).isEmpty then s.releaseSlot t.core t.slot else s) s

/-- A gang is dropped (R390): its launch counts it among the dropped. -/
def State.dropGang (s : State) (g : Gang) : State :=
  let s := s.dropThreads (fun t => t.gang == g.id)
  let s : State := { s with folios := s.folios.filter (fun e => e.shadow.gang != g.id) }
  let s := s.removeGang g
  match s.launch? g.launch with
  | some l => (s.setLive { l with dropped := l.dropped + 1 }).settleLaunches
  | none => s

/-! ## Teardown -/

/-- Key slot in a record's header (R360). -/
def HqRec.keySlot (r : HqRec) : Nat := leNat ((r.bytes.drop 6).take 2) % 4096

/-- Every record of a context is freed unanswered (R362, R418). -/
def State.freeContextRecs (s : State) (slot : Nat) : State :=
  (List.range s.cores.length).foldl (fun (s : State) c =>
    let q := (s.core c).hq
    let s := if q.overflow.any (fun r => r.key == slot) then
        s.setHq c { q with overflow := q.overflow.filter (fun r => r.key != slot) }
      else s
    if q.recs.any (fun r => r.keySlot == slot) then s.freeRecs c (fun r => r.keySlot == slot) else s) s

/-- Step 1 of a teardown: the context is dead on every die (R418). -/
def State.tearDown (s : State) (c : Ctx) : State :=
  { s.setCtx { c with dead := true } with tdId := c.ident, tdStep := 1 }

/-- Submission writes of launches that are still to be checked complete with Completer Abort (R78, R418). -/
def State.abortWrites (s : State) (ls : List Launch) : State :=
  { s with hostLog := s.hostLog ++ (ls.filter (fun l => l.state == .accepted && l.hostSlot.isSome)).map (fun _ => .status 3) }

/-- Context of a launch's identity (R81). -/
def ctxOfLaunch (ident : W64) : W32 := (ident >>> 32).setWidth 32

/-- Launches are dropped without records, with their argument copies and reservations. -/
def State.dropLaunches (s : State) (ls : List Launch) : State :=
  let rest := s.launches.filter (fun l => !ls.contains l)
  let gone (l : Launch) : Bool := !rest.any (fun x => x.ident == l.ident)
  { s with
    launches := rest
    mem := Sparse.drop s.mem (fun a => ls.any (fun l => gone l && argPa l.ident ≤ a && a < argPa l.ident + 65536))
    reserves := s.reserves.filter (fun r => !ls.any (fun l => gone l && l.ident == r.launch)) }

/-- Launches of a context that have no live gang and have not been dispensed (R95). -/
def State.queuedOf (s : State) (ctx : W32) : List Launch :=
  s.launches.filter (fun l => l.ctx == ctx && (l.state == .accepted || l.state == .waiting || l.state == .ready)
    && !s.gangs.any (fun g => g.launch == l.ident))

/-- Step 2 of a teardown (R418): queued launches and requeued gangs are dropped. -/
def State.tearQueued (s : State) (ctx : W32) : State :=
  let s := (s.gangs.filter (fun g => g.state == .requeued && ctxOfLaunch g.launch == ctx)).foldl State.removeGang s
  let ls := s.queuedOf ctx
  { (s.abortWrites ls).dropLaunches ls with tdStep := 2 }

/-- Step 3 of a teardown (R418): live groups stop and write no folio, folios leave the directory, gangs and their pool
blocks go, and the context's records are freed unanswered. -/
def State.tearGroups (s : State) (ctx : W32) : State :=
  let s := s.dropThreads (fun t => t.ctx == ctx)
  let s : State := { s with
    folios := s.folios.filter (fun e => e.ctx != ctx)
    walks := s.walks.filter (fun w => w.ctx != ctx) }
  let s := (s.gangs.filter (fun g => ctxOfLaunch g.launch == ctx)).foldl State.removeGang s
  let s := s.dropLaunches (s.launches.filter (fun l => l.ctx == ctx))
  { s.freeContextRecs (slotOfCtx ctx) with tdStep := 3 }

/-- Whether a buffered reduction of a key slot still waits for its merge (R296). -/
def State.unmerged (s : State) (slot : Nat) : Bool := s.redBuf.any (fun r => r.key == slot)

/-- Step 4 of a teardown (R418), once the reductions and writes of step 3 have ended: the inbox is freed, and the
mailbox and submission pages are unbound. -/
def State.tearMail (s : State) (c : Ctx) : State :=
  let slot := slotOfCtx c.ident
  let s := s.mergeWhere (fun r => r.key == slot)
  if s.unmerged slot || s.flight.any (fun w => w.key == slot) then s
  else { s.setCtx { c with inbox := [], mbPage := none, subPage := none } with tdStep := 4 }

/-- Step 6 of a teardown (R418): the key slot is cleared, and a store that waited is taken up (R417). -/
def State.tearKey (s : State) (slot : Nat) : State :=
  { s with
    keys := s.keys.map (fun (e : Nat × Key) =>
      if e.1 == slot then (e.1, { e.2 with held := false, key := 0 }) else e)
    ctxs := s.ctxs.filter (fun c => c.ident != s.tdId)
    tdStep := 7 }

/-- A store to TEARDOWN (R417): ignored, begun, or kept until the running one ends. -/
def State.tearStore (s : State) (v : Nat) : State :=
  let ident : W32 := BitVec.ofNat 32 v
  if v / 2 ^ 32 != 0 || slotOfCtx ident == 0 then s
  else if 1 ≤ s.tdStep && s.tdStep ≤ 6 then { s with tdWait := s.tdWait ++ [ident] }
  else
    match s.ctx? ident with
    | some c => if c.dead then s else s.tearDown c
    | none => s

/-- TEARDOWN (R417, R418). A store to TEARDOWN marks a context dead; the steps that drop its launches, groups and folios,
close its mailboxes and quiesce storage follow (`execTeardownKeyErase`). -/
def execTeardown (s : State) : Host.Outcome State Fault Refusal :=
  .next (if isSupervisor s.arg.w then s.tearStore s.arg.v.toNat else s)

/-- TEARDOWN_KEY_ERASE (R418). The teardown of a dead context takes its next step: its queued launches, then its groups
and folios are dropped, its mailboxes closed, its storage quiesced; and after every controller acknowledges the queue
deletion, its key slot is erased, and a store that waited is taken up. -/
def execTeardownKeyErase (s : State) : Host.Outcome State Fault Refusal :=
  .next (match s.tdStep, s.ctx? s.tdId with
    | 1, some c => s.tearQueued c.ident
    | 2, some c => s.tearGroups c.ident
    | 3, some c => s.tearMail c
    | 4, some _ => { s with tdStep := 5 }
    | 5, _ =>
      let slot := slotOfCtx s.tdId
      let s := s.mergeWhere (fun r => r.key == slot)
      if s.unmerged slot || s.flight.any (fun w => w.key == slot) then s
      else
        match s.tdWait with
        | [] => s.tearKey slot
        | x :: rest => ({ s.tearKey slot with tdWait := rest }).tearStore x.toNat
    | _, _ => s)

/-- STORAGE_COMPLETION (R198, R418). An NVMe storage completion arrives and sets PIPEND bit 3, or is
discarded and counted in STDISC for a dead context. -/
def execStorageCompletion (s : State) : Host.Outcome State Fault Refusal :=
  .next (
    let live := match s.ctx? (s.arg.v.setWidth 32) with | some c => !c.dead | none => false
    if live then s.signal s.arg.a 3
    else
      let d := dieOf s.arg.a
      s.setDie d { s.die d with stDisc := (s.die d).stDisc + 1 })

end Sys2Proof.Machine
end

