-- ==== Sys2Proof/Machine/FolioRead.lean ====
section
/-! DEFINITION. Folios as they are read: how an instruction names one (R392), RESUME and RESUME.TRY (R393 to
R395), FCOPY (R397), FDROP (R398), and the replay of journaled copies (R322). -/

namespace Sys2Proof.Machine

/-! ## Naming a folio (R392) -/

/-- A folio as it is read: its physical pieces and their key slot, none for each line's own. -/
structure FolioSrc where
  pieces : List (Nat × Nat)
  key : Option Nat
  deriving DecidableEq, Repr

/-- Key slot of an offset. -/
def State.srcKey (s : State) (f : FolioSrc) (o : Nat) : Nat :=
  match f.key with | some k => k | none => s.tagSlot (lineOf (pieceAt f.pieces o))

/-- Consecutive bytes of a folio; a line whose tag names no key that is held reads as zeros. -/
def State.srcBytes (s : State) (f : FolioSrc) (o : Nat) : Nat → List Byte
  | 0 => []
  | n + 1 => s.latest (pieceAt f.pieces o) (s.srcKey f o) :: s.srcBytes f (o + 1) n

/-- A field of a folio. -/
def State.srcNat (s : State) (f : FolioSrc) (o n : Nat) : Nat := leNat (s.srcBytes f o n)

/-- Cause of the poison of a folio's line. -/
def State.srcPoison (s : State) (f : FolioSrc) (o : Nat) : Nat :=
  Sparse.get s.memPoison 0 (lineOf (pieceAt f.pieces o))

/-- Cause of a soft error in a folio's own storage: one that the folio does not carry (R374, R385). -/
def State.srcError (s : State) (f : FolioSrc) (len : Nat) : Option (Nat × Nat) :=
  (List.range (ceilDiv len 128)).findSome? (fun n =>
    let c := s.srcPoison f (128 * n)
    if c == 0x92 || c == 0x93 then some (128 * n, c) else none)

/-- What names the folio: a context whose table translates it, or a physical address. -/
inductive FolioName where
  | virt (ctx : W32)
  | phys
  deriving DecidableEq, Repr

/-- The pools of the dies (R390). -/
def State.inPool (s : State) (pa : Nat) : Bool :=
  s.dies.any (fun d => d.poolBase ≤ pa && pa < d.poolBase + d.poolSize)

/-- The checks of R392 before anything is read, and what follows them: address and name. -/
def State.withFolio (s : State) (h : Hdr) (a : Nat) (k : State → Nat → FolioName → State) : State :=
  let va := (s.sreg a).toNat
  let w := s.sreg (a + 1)
  let who : W32 := w.setWidth 32
  if va % 128 != 0 then s.trapAddr h vMisalign 0x08 va
  else if !s.supHere then
    if who != 0 && who != s.ctxHere then s.trap h vPrivilege 0x0C else k s va (.virt s.ctxHere)
  else if who == 0 then k s va (.virt 0x1000)
  else if who == 0xFFFFFFFF then
    if w.toNat / 2 ^ 32 != 0 then s.trap h vIllegal 0x06 else k s va .phys
  else
    match s.ctx? who with
    | some c => if c.dead then s.trap h vFolioAccess 0x72 else k s va (.virt who)
    | none => s.trap h vFolioAccess 0x72

/-- The bytes of a named folio, translated for reading, and what follows; a soft error of its own storage
traps (R374). -/
def State.readFolio (s : State) (h : Hdr) (va len : Nat) (name : FolioName)
    (k : State → FolioSrc → State) : State :=
  let check (s : State) (f : FolioSrc) : State :=
    match s.srcError f len with
    | some (o, c) => s.trapAddr h vSoftError c (va + o)
    | none => k s f
  match name with
  | .phys => check s ⟨[(va, len)], none⟩
  | .virt ctx =>
    s.runAccessIn h ctx 0 accRead va len (fun s ps =>
      check s ⟨ps.map (fun p => (p.pa, p.len)), some (keyFor ctx va)⟩)

/-- Claim state and sequence of a folio (R383). -/
def State.claimOf (s : State) (f : FolioSrc) : Nat × Nat :=
  let w := s.srcNat f 12 4
  (w / 2 ^ 30, w % 2 ^ 30)

/-- The group that a folio's header describes (R382), over what the layout has no place for; its team is the one of
its launch, gang and team index, where that gang stands. -/
def State.folioGroup (s : State) (f : FolioSrc) (t : Thread) : Thread :=
  let n := s.srcNat f
  let launch : W64 := BitVec.ofNat 64 (n 72 8)
  let tm := (s.gangs.find? (fun g => g.launch == launch && g.linear == n 120 8)).bind (fun g =>
    s.teams.find? (fun tm => tm.gang == g.id && tm.idx == n 44 1))
  { t with
    ctx := BitVec.ofNat 32 (n 24 4), sup := n 32 1 % 2 == 1, width := n 40 1, f := n 41 1, wlimit := n 42 1
    kwidth := n 43 1, teamIdx := n 44 1, grp := n 45 1, launch := launch, lineage := n 80 4, wp := n 88 4
    lim := n 92 4, dres := n 96 4, tile0 := n 115 1, tiles := n 116 1, linear := n 120 8
    team := match tm with | some x => x.id | none => t.team
    gang := match tm with | some x => x.gang | none => t.gang }

/-- The entry of a folio as its bytes describe it. -/
def State.folioRead (s : State) (f : FolioSrc) (e : FolioEnt) : FolioEnt :=
  let t := s.folioGroup f e.shadow
  { e with ctx := t.ctx, lineage := t.lineage, team := t.team, grp := t.grp, f := t.f, width := t.width
           section_ := s.srcNat f 34 1 % 2 == 1, shadow := t }

/-- A folio's sizes agree with R384. -/
def State.folioSizes (s : State) (f : FolioSrc) (e : FolioEnt) : Bool :=
  let n := s.srcNat f
  let t := e.shadow
  let gal := match s.team? e.team with | some tm => tm.galley | none => 0
  n 36 4 == t.folioSize e.section_ gal && n 168 8 == folioHead && n 176 8 == folioHead + t.regSection
    && n 184 8 == (if e.section_ then t.teamOffset else 0)

/-- The entry of a valid folio (R392), as its bytes describe it: magic, version, sizes and self address agree, and the
directory holds its serial there with its claim sequence. -/
def State.folioEntry (s : State) (f : FolioSrc) (va : Nat) : Option FolioEnt :=
  let n := s.srcNat f
  if n 0 8 != 0x00014F494C4F4644 || n 8 4 != 1 || n 16 8 != va then none
  else
    match s.folios.find? (fun e =>
        e.serial == n 28 4 && e.addr.toNat == va && e.seq == (s.claimOf f).2) with
    | none => none
    | some e => let e := s.folioRead f e; if s.folioSizes f e then some e else none

/-- The access condition (R393, code 0x04). -/
def State.folioDenied (s : State) (f : FolioSrc) : FolioName → Bool
  | .phys => false
  | .virt ctx => s.srcNat f 24 4 != ctx.toNat || (s.srcNat f 32 1 % 2 == 1 && !s.supHere)

/-! ## Replay of copies (R322) -/

/-- A busy token takes another copy's number in every thread and folio that shares it. -/
def State.renameCopy (s : State) (k old new : Nat) : State :=
  let f (t : Thread) : Thread := if t.tok k == .busy old then t.setTok k (.busy new) else t
  { s with threads := s.threads.map f
           folios := s.folios.map (fun (e : FolioEnt) => { e with shadow := f e.shadow }) }

/-- The copy replay record of an entry (R361, kind 0x07). -/
def replayPost (t : Thread) (copy pa tok : Nat) : Post :=
  devicePost 0x07 (slotOfCtx t.ctx) (some copy)
    (leBytes 8 pa ++ [BitVec.ofNat 8 tok, BitVec.ofNat 8 t.core, BitVec.ofNat 8 t.slot, 0]
      ++ leBytes 4 t.ctx.toNat)

/-- Pool storage of a die for one journal entry, chosen by the device. -/
def journalPlace (d n : Nat) : Nat := d * 0x1800000000 + Config.journalFrame n % 0x1800000 * 4096

/-- One journaled copy of a resumed thread is replayed: in hardware mode it is issued again, whole, in
supervisor mode a record asks for it (R322). -/
def State.replayEntry (s : State) (t : Thread) (old : Tok) (entry : List Byte) : State :=
  let u (o n : Nat) : Nat := leNat ((entry.drop o).take n)
  let k := u 64 1 % 8
  let (id, s) := s.newId
  let s := match old with | .busy c => s.renameCopy k c id | _ => s
  let s := match s.thread? t.id with | some x => s.setThread (x.setTok k (.busy id)) | none => s
  let owners := (s.threads.filter (fun x => x.tok k == .busy id)).map (·.id)
  let c : Cpy :=
    { id := id, owners := owners, core := t.core, slot := t.slot, f := u 66 1, tok := k
      desc := (List.range 8).map (fun i => BitVec.ofNat 64 (u (8 * i) 8)), promise := u 64 1 / 128 == 1
      left := [], delivered := 0, ctx := t.ctx, sup := t.sup, gang := t.gang, team := t.team
      hist := t.id, issued := s.time, since := s.time, waiting := false, replay := none, report := Lct.zero, owned := []
      pc := t.pc }
  if s.mode (dieOf t.core) 4 then
    let d := dieOf t.core
    let pa := journalPlace d s.fresh
    let s : State := { s with fresh := s.fresh + 1, cpys := s.cpys ++ [{ c with waiting := true, replay := some id }] }
    (s.store pa 0 entry).postDevice (12 * d) (replayPost t id pa k)
  else s.enterCopy c

/-- The tokens of a resumed thread: those with entries are replayed, failed ones stand, and a busy one
without an entry takes the state that its group holds (R321, R322). -/
def State.replayCopies (s : State) (e : FolioEnt) (f : FolioSrc) (t : Thread) : State :=
  let codes := s.srcNat f 112 2
  let es := (List.range (s.srcNat f 114 1)).map (fun i => s.srcBytes f (2304 + 80 * i) 80)
  (List.range 8).foldl (fun (s : State) k =>
    let entry := es.find? (fun b => (b.getD 64 0).toNat % 8 == k)
    let old := e.shadow.tok k
    let set (v : Tok) : State :=
      match s.thread? t.id with | some x => s.setThread (x.setTok k v) | none => s
    match bits codes (2 * k) 2, entry with
    | 1, some b => s.replayEntry t old b
    | 1, none => set old
    | 2, some b =>
      (match old with
       | .failed .. => set old
       | _ => set (.failed vProtection (b.getD 65 0).toNat 0 b))
    | _, _ => s) s

/-! ## Restoring (R395) -/

/-- Whether a stack position comes back poisoned: its line carries poison, from this word (R385). -/
def State.wordPoison (s : State) (e : FolioEnt) (f : FolioSrc) (q l : Nat) : Bool :=
  let t := e.shadow
  s.srcPoison f (folioHead + (q * t.width + l) * 4) != 0
    && (q < t.rbase || Sparse.get t.storePoison false (t.storeKey q l))

/-- A stack word of a folio. -/
def State.folioWord (s : State) (e : FolioEnt) (f : FolioSrc) (q l : Nat) : Nat :=
  s.srcNat f (folioHead + (q * e.shadow.width + l) * 4) 4

/-- The group of a folio on a core, in a granted slot. -/
def State.restored (s : State) (e : FolioEnt) (f : FolioSrc) (id core slot : Nat) (gr : Grant) : Thread :=
  let n := s.srcNat f
  let w (o : Nat) : W64 := BitVec.ofNat 64 (n o 8)
  let t := e.shadow
  let seq := (e.seq + 1) % 2 ^ 30
  let memdef := match s.ctx? t.ctx with | some c => c.memdef | none => t.memdef
  let lane (l : Nat) : Nat := n (256 + 2 * l) 2
  let u : Thread := { t with
    id := id, core := core, part := slot / 8, slot := slot, hists := id :: t.hists, memdef := memdef
    pc := w 48, live := w 56, exec := w 64, wlimit := n 42 1, mathctl := BitVec.ofNat 32 (n 100 4)
    pstat := w 104, srcnt := BitVec.ofNat 32 (n 128 4)
    lct := ⟨n 136 8, n 144 8, n 152 8, n 160 8⟩
    rstack := (List.range (n 46 1)).reverse.map (fun i => (w (1280 + 16 * i), w (1288 + 16 * i)))
    sregs := ((List.range 96).map (fun i => (i, w (512 + 8 * i)))).filter (fun x => x.2 != 0)
    preds := ((List.range 7).map (fun p => (p, maskOf (fun l => decide (l < t.width) && bit (lane l) p)))).filter
      (fun x => x.2 != 0)
    fx := ((List.range t.width).map (fun l => (t.f + l, BitVec.ofNat 5 (bits (lane l) 8 5)))).filter
      (fun x => x.2 != 0)
    store := [], storePoison := [], rbase := t.rbaseFor t.wp, stkbase := gr.stk, spillbase := gr.spill
    toks := [], resident := s.time, lastIssue := 0, idleTill := 0, claimSeq := seq, lateNow := n 34 1 / 2 % 2 == 1
    peerLate := false, marked := [] }
  let u := (span u.rbase (u.wp + 64)).foldl (fun (u : Thread) q => u.lanes.foldl (fun (u : Thread) l =>
    let k := u.storeKey q l
    let v := u.setStore k (BitVec.ofNat 32 (s.folioWord e f q l))
    if s.wordPoison e f q l then { v with storePoison := Sparse.set v.storePoison false k true } else v) u) u
  let s1 := u.sreg 1
  let u := u.setSreg 1 ((s1 &&& ~~~(0xFF00000000 : W64)) ||| BitVec.ofNat 64 (core * 2 ^ 32))
  match e.dest with
  | some d => u.setSreg d (BitVec.ofNat 64 (seq * 2 ^ 16 + core))
  | none => u

/-- Positions below RBASE go to the spill area (R178, R395). -/
def State.restoreSpill (s : State) (e : FolioEnt) (f : FolioSrc) (t : Thread) : State :=
  (List.range t.rbase).foldl (fun (s : State) q =>
    s.spillRow t q (fun l => (s.folioWord e f q l, s.wordPoison e f q l))) s

/-- The granted tiles take the bytes that the folio holds, and their poison (R385, R395). -/
def State.restoreTiles (s : State) (e : FolioEnt) (f : FolioSrc) (t : Thread) : State :=
  (List.range t.tiles).foldl (fun (s : State) i =>
    let o := folioHead + e.shadow.regSection + i * tileBytes
    let k := s.core t.core
    s.setCore t.core { k with
      forme := Sparse.write k.forme ((t.tile0 + i) * tileBytes) (s.srcBytes f o tileBytes)
      tilePoison := Sparse.set k.tilePoison false (t.tile0 + i)
        ((List.range 512).any (fun n => s.srcPoison f (o + 128 * n) != 0)) }) s

/-- The team window takes the bytes of the team section, and its poison (R385, R395). -/
def State.restoreWindow (s : State) (e : FolioEnt) (f : FolioSrc) : State :=
  match s.team? e.team with
  | none => s
  | some tm =>
    let o := e.shadow.teamOffset + 0x100
    let bs := s.srcBytes f o tm.galley
    (List.range (tm.galley / 128)).foldl (fun (s : State) n =>
      let s := s.galWrite tm (((bs.drop (128 * n)).take 128).mapIdx (fun i b => (128 * n + i, b)))
      if s.srcPoison f (o + 128 * n) == 0 then s
      else
        let (c, p) := tm.place (128 * n)
        let k := s.core c
        s.setCore c { k with galPoison := Sparse.set k.galPoison false (p / 128) true }) s

/-- Withdrawn records are posted again, and kept ones answer to the resumed thread (R365, R395); none
where the queue has no room. -/
def State.restoreRecords (s : State) (e : FolioEnt) (f : FolioSrc) (t : Thread) : Option State :=
  let tags := (List.range (s.srcNat f 117 1)).map (fun i =>
    (s.srcNat f (1792 + 8 * i) 2, bits (s.srcNat f (1792 + 8 * i) 8) 16 6))
  let posts : List Post := e.withdrawn.map (fun (x : Nat × Nat × Mask × List Byte) =>
    threadPost t x.1 x.2.1 x.2.2.1 x.2.2.2)
  match s.postAll t.core posts with
  | none => none
  | some s =>
    let mine (c : Nat) (r : HqRec) : Bool :=
      r.poster == some e.shadow.id && tags.any (fun g => g.1 == r.tag && g.2 == c)
    some { s with cores := s.cores.mapIdx (fun c (k : Core) =>
      { k with hq := { k.hq with recs := k.hq.recs.map (fun (r : HqRec) =>
          if mine c r then { r with poster := some t.id } else r) } }) }

/-- The claim moves, at its home (R383, R396). -/
def State.setClaim (s : State) (f : FolioSrc) (state seq : Nat) : State :=
  s.landBytes s.here (pieceAt f.pieces 12) (s.srcKey f 12) (leBytes 4 (claimWord state seq))

/-- The entry that the directory holds for a folio. -/
def State.listed (s : State) (e : FolioEnt) : FolioEnt :=
  (s.folios.find? (fun x => x.serial == e.serial)).getD e

/-- What a restoration answers: a limit code, that it must wait, or the state and the new core. -/
inductive Restore where
  | no (limit : Nat)
  | wait
  | yes (s : State) (core : Nat)

/-- The grants of R395 on a core, with galley pages on the team's cores where it is reinstated: the slot,
or the limit code. -/
def State.resumeGrant (s : State) (e : FolioEnt) (core : Nat) (cores : Option (List Nat)) : Fit :=
  let t := e.shadow
  let a : Ask := ⟨t.kwidth, t.dres, t.lim, t.tiles⟩
  let cs := cores.getD []
  let per := (match s.team? e.team with | some tm => tm.galley | none => 0) / max 1 cs.length
  let gal := if cores.isSome then per else 0
  let c := s.totals core 1 gal a
  if c != 0 then .no c
  else if cs.any (fun x => (s.freePages x).length * 4096 < gal) then .no 5
  else
    match s.grantStack core e.team a with
    | none => .no 2
    | some (s, slot) =>
      match s.grantTiles core slot t.tiles (some t.tile0) with
      | none => .no 6
      | some s =>
        match cores, s.team? e.team with
        | some cs, some tm => .yes (s.grantPages { tm with folded := false, bars := [] } cs per) [slot]
        | _, _ => .yes s [slot]

/-- A folio's group takes its place: the claim, the directory, the state, the copies and the records (R395); its core
drops its fetched blocks of the code object (R111). A product or move under way on its tiles ends first. -/
def State.takePlace (s : State) (e : FolioEnt) (f : FolioSrc) (core slot : Nat) (window : Bool) :
    Restore :=
  let (id, s) := s.newId
  let gang := (s.listed e).shadow.gang
  let gr := (s.grant? core slot).getD ⟨core, slot, e.team, 0, 0, 0, 0, 0, 0, 0⟩
  let t := s.restored e f id core slot gr
  if s.pressOps.any (fun p => p.parts.any (fun q => q.core == core && t.grants q.tile)) then .wait
  else match s.restoreRecords e f t with
  | none => .wait
  | some s =>
    let s := match s.launch? t.launch with | some l => s.dropBlocks core l | none => s
    let waits := !e.withdrawn.isEmpty || s.srcNat f 117 1 != 0
    let t := { t with park := if waits then .records else .run }
    let s := (s.restoreSpill e f t).restoreTiles e f t
    let s := if window then s.restoreWindow e f else s
    let s := s.setClaim f 2 ((e.seq + 1) % 2 ^ 30)
    let s : State := { s with threads := s.threads ++ [t]
                              folios := s.folios.filter (fun x => x.serial != e.serial) }
    let s := (s.replayCopies e f t).settleRecords id
    .yes (if e.pool then s.freeBlock gang else s) core

/-- A folio's group resumed on a core (R395): in the slot of a resident sibling, or in a new one, and with
its team's cores where it is reinstated. -/
def State.resumeOn (s : State) (e : FolioEnt) (f : FolioSrc) (core : Nat) (cores : Option (List Nat)) :
    Restore :=
  match s.threads.find? (fun t => t.team == e.team && t.grp == e.grp) with
  | some u => s.takePlace e f u.core u.slot false
  | none =>
    match s.resumeGrant e core cores with
    | .no l => .no l
    | .yes s slots => s.takePlace e f core (slots.headD 0) (cores.isSome && e.section_)

/-! ## RESUME (R393, R394) -/

/-- A folio's group is a service group's (R378). -/
def FolioEnt.service (e : FolioEnt) : Bool := e.shadow.service

/-- Base core that the resuming core fixes for a team of a gang without live teams (R394, rule 3): none
outside the cluster. -/
def fixedBase (tm : Team) (teams core : Nat) : Option Nat :=
  let n := core % 4
  if n < tm.idx || 4 < n - tm.idx + teams then none else some (core - tm.idx)

/-- Cores of a team placed with its gang at a base core (R35). -/
def Team.coresAt (tm : Team) (base : Nat) : List Nat :=
  if tm.pair then [base + 2 * tm.idx, base + 2 * tm.idx + 1] else [base + tm.idx]

/-- The pair of cores that holds a core, and the other pair of its cluster. -/
def pairOf (core : Nat) : List Nat := [core / 2 * 2, core / 2 * 2 + 1]

def otherPair (core : Nat) : List Nat := pairOf (core / 4 * 4 + (core + 2) % 4)

/-- The target of a folio (R394): its core, the team's cores where it is reinstated, and the gang's base;
none where it lies outside the cluster. -/
def State.resumeTarget (s : State) (e : FolioEnt) : Option (Nat × Option (List Nat) × Option Nat) :=
  match s.threads.find? (fun t => t.team == e.team && t.grp == e.grp), s.team? e.team with
  | some u, _ => some (u.core, none, none)
  | none, none => some (s.here, none, none)
  | none, some tm =>
    if e.service then some (s.here, some [s.here], none)
    else if !tm.folded then some (tm.coreOf e.grp, none, none)
    else
      let gang := s.gang? tm.gang
      let teams := match gang with | some g => g.teamIds.length | none => 1
      let at_ (cs : List Nat) : Nat × Option (List Nat) := ({ tm with cores := cs }.coreOf e.grp, some cs)
      match s.teams.find? (fun x => x.gang == tm.gang && x.id != tm.id && !x.folded && !x.retired) with
      | some x =>
        gang.map (fun g =>
          let r := at_ (if tm.pair then otherPair (x.cores.headD 0) else tm.coresAt g.base)
          (r.1, r.2, none))
      | none =>
        (fixedBase tm teams s.here).map (fun b =>
          let r := at_ (if tm.pair then pairOf s.here else tm.coresAt b)
          (r.1, r.2, some b))

/-- A gang one of whose folios has been resumed is Live, at a base (R95, R394). -/
def State.gangResumed (s : State) (id : Nat) (base : Option Nat) : State :=
  match s.gang? id with
  | none => s
  | some g =>
    let g := match base with | some b => { g with base := b } | none => g
    s.setGang (if g.state == .requeued then { g with state := .live, liveSince := s.time } else g)

/-- The checks of R393 on a folio whose header can be read, up to its grants. -/
inductive Check where
  | trap (vector cause : Nat)
  | code (c : Nat)
  | ok (e : FolioEnt)
  deriving DecidableEq, Repr

/-- Another group of the lineage runs: a thread that holds lanes of the folio's group (R386). -/
def State.lineageRuns (s : State) (e : FolioEnt) : Bool :=
  let e := s.listed e
  s.threads.any (fun t => t.team == e.team && t.grp == e.grp && t.f < e.f + e.width && e.f < t.f + t.width)

/-- The rows of R393 up to code 0x06, in their order; `try_` reports as codes what RESUME traps. -/
def State.resumeCheck (s : State) (f : FolioSrc) (va : Nat) (name : FolioName) (try_ : Bool) : Check :=
  let out (c vector cause : Nat) : Check := if try_ then .code c else .trap vector cause
  match (s.claimOf f).1 with
  | 0 => out 0x09 vDisplaced 0x71
  | 2 => out 0x01 vDoubleResume 0x70
  | 3 => out 0x02 vDoubleResume 0x70
  | _ =>
    match s.folioEntry f va with
    | none => out 0x03 vDisplaced 0x71
    | some e =>
      if s.folioDenied f name then .trap vFolioAccess 0x72
      else if s.lineageRuns e then .code 0x08
      else if !e.service && !e.section_ &&
          (match s.team? e.team with | some tm => tm.folded | none => true) then .code 0x06
      else .ok e

/-- RESUME and RESUME.TRY. -/
def resumeBody (i : Instr) (h : Hdr) (d a : BitVec 7) (try_ : Bool) (s : State) :
    Host.Outcome State Fault Refusal :=
  run i s (fun s =>
    s.withFolio h a.toNat (fun s va name =>
      let put (s : State) (c low : Nat) : State := s.finish h d.toNat (codeWord c low)
      if name == .phys && !s.inPool va then
        if try_ then put s 0x03 0 else s.trap h vDisplaced 0x71
      else
        s.readFolio h va folioHead name (fun s f =>
          let seq := (s.claimOf f).2 * 2 ^ 16
          match s.resumeCheck f va name try_ with
          | .trap v c => s.trap h v c
          | .code c => put s c seq
          | .ok e =>
            match s.resumeTarget e with
            | none => put s 0x07 seq
            | some (core, cores, base) =>
              if (cores.getD [core]).any (fun c => s.halting (dieOf c)) then put s 0x07 seq
              else
                s.readFolio h va (s.srcNat f 36 4) name (fun s f =>
                  match s.resumeOn e f core cores with
                  | .no l => put s 0x05 (l * 2 ^ 48 + seq)
                  | .wait => s.poll
                  | .yes s core =>
                    put (s.gangResumed e.shadow.gang base) 0x00
                      ((e.seq + 1) % 2 ^ 30 * 2 ^ 16 + core)))))

/-- RESUME (R393). Restores a folio onto a core. -/
def execResume (h : Hdr) (d : BitVec 7) (a : BitVec 7) (s : State) : Host.Outcome State Fault Refusal :=
  resumeBody (.resume h d a) h d a false s

/-- RESUME.TRY (R393). Restores a folio, reporting every outcome as a code. -/
def execResumeTry (h : Hdr) (d : BitVec 7) (a : BitVec 7) (s : State) :
    Host.Outcome State Fault Refusal :=
  resumeBody (.resumeTry h d a) h d a true s

/-! ## FCOPY (R397) -/

/-- The copy of a folio is written at its destination with its claim WRITING, and with its poison (R383). -/
def State.copyFolio (s : State) (e : FolioEnt) (f : FolioSrc) (va dst : Nat) (pieces : List (Nat × Nat))
    (key total : Nat) : State :=
  let serial := s.nextSerial
  let b := s.srcBytes f 0 total
  let bs := b.take 12 ++ leBytes 4 (claimWord 0 e.seq) ++ leBytes 8 dst ++ (b.drop 24).take 4 ++ leBytes 4 serial
    ++ b.drop 32
  let bad := (List.range (ceilDiv total 128)).filterMap (fun n =>
    let c := s.srcPoison f (128 * n)
    if c == 0 then none else some (128 * n, c))
  let s := (s.landPieces s.here key pieces bs).poisonPieces pieces total bad
  { s with
    nextSerial := serial + 1
    fcopies := s.fcopies ++ [{ who := s.self, src := va, serial := e.serial, seq := e.seq, dst := dst, pieces := pieces
                               key := key, total := total, copy := serial }] }

/-- The present agent's FCOPY of a folio to an address, once its copy is written. -/
def State.copyOf (s : State) (va dst : Nat) : Option FolioCopy :=
  s.fcopies.find? (fun c => c.who == s.self && c.src == va && c.dst == dst)

/-- An FCOPY ends: when all of the copy is visible its claim becomes LIVE and it enters the directory, if the source is
still LIVE with the same sequence (R396); else it stays WRITING. -/
def State.endFcopy (s : State) (h : Hdr) (d : Nat) (c : FolioCopy) : State :=
  let s : State := { s with fcopies := s.fcopies.filter (fun x => x.who != s.self) }
  match s.folios.find? (fun e => e.serial == c.serial && e.addr.toNat == c.src && e.seq == c.seq) with
  | none => s.finish h d (codeWord 0x06 0)
  | some e =>
    let s := (s.landBytes s.here (pieceAt c.pieces 12) c.key (leBytes 4 (claimWord 1 c.seq))).triggerLines
      (pieceLines c.pieces c.total)
    let e := { s.folioRead ⟨c.pieces, some c.key⟩ e with serial := c.copy, addr := BitVec.ofNat 64 c.dst, pool := false }
    ({ s with folios := s.folios ++ [e] }).finish h d (codeWord 0x00 c.copy)

/-- FCOPY (R397). Copies a live folio under a new serial: its copy is written first, and its claim moves when the copy is
visible. -/
def execFcopy (h : Hdr) (d : BitVec 7) (a : BitVec 7) (b : BitVec 6) (s : State) :
    Host.Outcome State Fault Refusal :=
  run (.fcopy h d a b) s (fun s =>
    let dst := (s.sreg b.toNat).toNat
    s.withFolio h a.toNat (fun s va name =>
      let put (s : State) (c low : Nat) : State := s.finish h d.toNat (codeWord c low)
      if dst % 128 != 0 then s.trapAddr h vMisalign 0x08 dst
      else if name == .phys && !s.inPool va then put s 0x02 0
      else match s.copyOf va dst with
      | some c => if s.piecesVisible c.pieces c.total then s.endFcopy h d.toNat c else s.poll
      | none =>
        let s : State := { s with fcopies := s.fcopies.filter (fun c => c.who != s.self) }
        s.readFolio h va folioHead name (fun s f =>
          if (s.claimOf f).1 != 1 then put s 0x01 (s.srcNat f 12 4)
          else match s.folioEntry f va, name with
            | none, _ => put s 0x02 0
            | some e, _ =>
              let total := s.srcNat f 36 4
              if s.folioDenied f name then s.trap h vFolioAccess 0x72
              else if s.srcNat f 117 1 != 0 || s.srcNat f 34 1 / 4 % 2 == 1 then put s 0x03 0
              else if directorySize ≤ s.directoryUsed then put s 0x05 0
              else if va < dst + total && dst < va + total then put s 0x07 0
              else match name with
                | .phys => put s 0x03 0
                | .virt ctx =>
                  s.readFolio h va total name (fun s f =>
                    s.runAccessIn h ctx 0 accWrite dst total (fun s ps =>
                      (s.copyFolio e f va dst (ps.map (fun p => (p.pa, p.len))) (keyFor ctx dst) total).poll)))))

/-! ## FDROP (R398) -/

/-- The shared tokens whose entries lie in a dropped folio fail (R321). -/
def State.dropEntries (s : State) (e : FolioEnt) (f : FolioSrc) : State :=
  let es := (List.range (s.srcNat f 114 1)).map (fun i => s.srcBytes f (2304 + 80 * i) 80)
  es.foldl (fun (s : State) b =>
    let k := (b.getD 64 0).toNat % 8
    match e.shadow.tok k with
    | .busy c =>
      let g (t : Thread) : Thread :=
        if t.tok k == .busy c then t.setTok k (.failed vProtection 0x25 0 b) else t
      { s with threads := s.threads.map g
               folios := s.folios.map (fun (x : FolioEnt) =>
                 if x.lineage == e.lineage then x else { x with shadow := g x.shadow }) }
    | _ => s) s

/-- The team of a dropped folio that held its section counts as retired, where nothing of the lineage is LIVE or runs
and no group of the team is resident (R398). -/
def State.retireFolded (s : State) (e : FolioEnt) : State :=
  match s.team? e.team with
  | none => s
  | some tm =>
    if e.section_ && !s.folios.any (fun x => x.lineage == e.lineage) && !s.lineageRuns e
        && !s.threads.any (fun t => t.team == e.team) then
      s.setTeam { tm with retired := true, folded := true, pages := [], pages2 := [], bars := [] }
    else s

/-- A folio leaves LIVE for DROPPED, with what it held (R398). -/
def State.dropFolio (s : State) (e : FolioEnt) (f : FolioSrc) : State :=
  let gang := (s.listed e).shadow.gang
  let s := (s.setClaim f 3 e.seq).dropEntries e f
  let s : State := { s with folios := s.folios.filter (fun x => x.serial != e.serial) }
  let s := (List.range s.cores.length).foldl (fun (s : State) c =>
    if (s.core c).hq.recs.any (fun r => r.poster == some e.shadow.id) then
      s.freeRecs c (fun r => r.poster == some e.shadow.id && r.kind ≤ 0x03)
    else s) s
  let s := match s.launch? e.shadow.launch with
    | some l => s.setLive { l with flags := l.flags ||| 1 }
    | none => s
  let s := if e.pool then s.freeBlock gang else s
  (((s.faultStranded e.team e.grp).afterExit).retireFolded e).settleMember e.team e.shadow.gang

/-- FDROP (R398). Drops a live folio. -/
def execFdrop (h : Hdr) (d : BitVec 7) (a : BitVec 7) (s : State) : Host.Outcome State Fault Refusal :=
  run (.fdrop h d a) s (fun s =>
    s.withFolio h a.toNat (fun s va name =>
      let put (s : State) (c low : Nat) : State := s.finish h d.toNat (codeWord c low)
      if name == .phys && !s.inPool va then put s 0x02 0
      else
        s.readFolio h va folioHead name (fun s f =>
          let w := s.srcNat f 12 4
          match (s.claimOf f).1 with
          | 0 => put s 0x09 w
          | 2 => put s 0x01 w
          | 3 => put s 0x01 w
          | _ =>
            match s.folioEntry f va with
            | none => put s 0x02 0
            | some e =>
              if s.folioDenied f name then s.trap h vFolioAccess 0x72
              else if !{ s with folios := s.folios.filter (fun x => x.serial != e.serial) }.roomForStranded
                  e.team e.grp then s.poll
              else put (s.dropFolio e f) 0x00 0)))

/-! ## Stack control entries (R181) -/

/-- The child that a stack control entry names: core, slot and f. -/
def State.stackEntry (s : State) (die entry : Nat) : Option Thread :=
  let f := entry % 64
  let slot := entry / 64 % 64
  let core := 12 * die + entry / 4096
  s.threads.find? (fun t => t.core == core && t.slot == slot && t.f == f)

/-- Whether a thread is parked at a spill or fill trap of cause 0x30 or 0x38 (R181). -/
def State.atStackTrap (s : State) (t : Thread) : Bool :=
  t.onRecords && (s.recsOf t.id).any (fun x => x.2.kind == 0x01 &&
    ((x.2.bytes.getD 8 0).toNat, (x.2.bytes.getD 9 0).toNat) ∈ [(vSpill, 0x30), (vFill, 0x38)])

/-- A write of RBASE (R181). -/
def State.rbaseStore (s : State) (die entry v : Nat) : State :=
  match s.stackEntry die entry with
  | none => s
  | some t =>
    if s.atStackTrap t && v % 8 == 0 && v + t.dres ≤ t.lim && v ≤ t.wpNext && t.wpNext + 64 ≤ v + t.dres then
      s.setThread { t with rbase := v }
    else s

/-- RBASE_WRITE (R181). A supervisor write of RBASE in a stack control entry moves a trapped child's resident
range, or is ignored. -/
def execRbaseWrite (s : State) : Host.Outcome State Fault Refusal :=
  .next (if isSupervisor s.arg.w then s.rbaseStore s.arg.a s.arg.b s.arg.v.toNat else s)

end Sys2Proof.Machine
end

