-- ==== Sys2Proof/Machine/Placement.lean ====
section
/-! DEFINITION. Placement (R92, R94 to R108): candidates and their scores, reservations, the choice of
victims, the placement step of a die, PLACE, and the placement status of cores. -/

namespace Sys2Proof.Machine

/-! ## Placing one gang -/

/-- Dies whose hardware front end places (R107, R32): not stopped, not in supervisor mode. -/
def State.hwPlaces (s : State) (d : Nat) : Bool :=
  !(s.die d).stopped && (s.die d).stopping == 0 && !s.mode d 2

/-- The groups of a team started in their slots, in group order. -/
def State.startTeam (s : State) (l : Launch) (g : Gang) (team : Nat) (slots : List Nat) : State :=
  match s.team? team with
  | none => s
  | some tm =>
    (slots.mapIdx (fun i x => (i, x))).foldl (fun (s : State) (x : Nat × Nat) =>
      s.startGroup l g tm x.1 (tm.coreOf x.1) x.2) s

/-- The next gang of a launch placed at a base core (R94, R96): the limit code, or the state. -/
def State.placeNew (s : State) (l : Launch) (base : Nat) : Fit :=
  let k := l.kd
  let (id, s) := s.newId
  let ids := (List.range k.teams).map (fun i => s.nextId + i)
  let teams : List Team := (List.range k.teams).map (fun i =>
    { id := s.nextId + i, gang := id, idx := i, pair := k.pair, cores := k.teamCores base i
      galley := k.galley, pages := [], pages2 := [], bars := [], groups := k.groups, exited := []
      folded := false, retired := false })
  let s : State := { s with nextId := s.nextId + k.teams, teams := s.teams ++ teams }
  match s.grantTeams k base (ids.mapIdx (fun i x => (i, x))) with
  | .no c => .no c
  | .yes s slots =>
    let g : Gang :=
      { id := id, launch := l.ident, linear := l.cursor, prio := l.prio, state := .live, base := base
        teamIds := ids, liveSince := s.time, waitSince := l.readyT, order := l.order, block := none
        folios := [] }
    let s : State := { s with
      gangs := s.gangs ++ [g]
      reserves := s.reserves.filter (fun r => !(r.launch == l.ident && r.linear == l.cursor)) }
    let s := (ids.mapIdx (fun i x => (i, x))).foldl (fun (s : State) (x : Nat × Nat) =>
      s.startTeam l g x.2 ((slots.drop (x.1 * k.groups)).take k.groups)) s
    let s := ((List.range k.teams).flatMap (k.teamCores base)).foldl (fun (s : State) c => s.dropBlocks c l) s
    let s := s.setLive { l with
      cursor := l.cursor + 1, state := if l.cursor + 1 == l.gangs then .dispensed else l.state }
    .yes s slots

/-- LIVE pool folios of a gang, in team, group and lane order. -/
def State.poolFolios (s : State) (g : Gang) : List FolioEnt :=
  sortBy (fun e => (e.shadow.teamIdx * 16 + e.grp) * 64 + e.f)
    (s.folios.filter (fun e => e.pool && e.shadow.gang == g.id))

/-- The folios resumed one after the other at a base core, all or none (R389); a folio without its team's
section, of a team that stays folded, stays LIVE. -/
def State.resumeAll (s : State) (base : Nat) : List FolioEnt → Option State
  | [] => some s
  | e :: es =>
    match s.team? e.team with
    | none => s.resumeAll base es
    | some tm =>
      if tm.folded && !e.section_ then s.resumeAll base es
      else
        let cs := tm.coresAt base
        let src : FolioSrc := ⟨[(e.addr.toNat, 2 ^ 40)], some (slotOfCtx e.ctx)⟩
        match s.resumeOn e src ({ tm with cores := cs }.coreOf e.grp) (if tm.folded then some cs else none) with
        | .yes s _ => s.resumeAll base es
        | _ => none

/-- A requeued gang placed at a base core (R389, R96). -/
def State.placeRequeued (s : State) (g : Gang) (base : Nat) : Option State :=
  let es := s.poolFolios g
  if es.isEmpty then none
  else
    (s.setGang { g with state := .live, base := base, liveSince := s.time }).resumeAll base es
      |>.map (fun s => { s with
          reserves := s.reserves.filter (fun r => !(r.launch == g.launch && r.linear == g.linear)) })

/-! ## Candidates (R98) -/

/-- What waits for placement: a requeued gang, or the gang at a launch's cursor. -/
inductive Waiting where
  | again (g : Gang) (l : Launch)
  | next (l : Launch)
  deriving DecidableEq, Repr

def Waiting.launch : Waiting → Launch
  | .again _ l => l
  | .next l => l

/-- Linear index of the gang. -/
def Waiting.linear : Waiting → Nat
  | .again g _ => g.linear
  | .next l => l.cursor

def Waiting.prio (w : Waiting) : Nat := w.launch.prio

/-- Since when it waits (R103). -/
def Waiting.since : Waiting → Nat
  | .again g _ => g.waitSince
  | .next l => l.readyT

/-- The state in which it stands at a base core. -/
def State.placeAt (s : State) (w : Waiting) (base : Nat) : Option State :=
  match w with
  | .again g _ => s.placeRequeued g base
  | .next l => match s.placeNew l base with | .yes s _ => some s | .no _ => none

/-- Cores that it occupies at a base core. -/
def Waiting.cores (w : Waiting) (base : Nat) : List Nat :=
  (List.range w.launch.kd.teams).flatMap (w.launch.kd.teamCores base)

/-- Base cores of a cluster that its shape allows (R35); in minimal mode only those of cluster 0 (R21). -/
def State.bases (s : State) (w : Waiting) (cluster : Nat) : List Nat :=
  if s.boot.minimal && cluster != 0 then []
  else ((List.range 4).map (fun i => 4 * cluster + i)).filter w.launch.kd.shapeOk

/-- A candidate of a cluster is blocked for a gang (R98). -/
def State.blockedIn (s : State) (w : Waiting) (cluster : Nat) : Bool :=
  s.reserves.any (fun r => r.cluster == cluster && w.prio ≤ r.prio
    && !(r.launch == w.launch.ident && r.linear == w.linear))

/-- Whether some core of a candidate is avoided (R100). -/
def State.avoidedAt (s : State) (w : Waiting) (base : Nat) : Bool :=
  (w.cores base).any (fun c => (s.core c).avoid)

/-- Usable candidates of some clusters: base and the state that placing there gives. -/
def State.candidates (s : State) (w : Waiting) (clusters : List Nat) : List (Nat × State) :=
  (clusters.filter (fun c => s.hwPlaces (c / 3) && !s.blockedIn w c)).flatMap (fun c =>
    (s.bases w c).filterMap (fun b => (s.placeAt w b).map (fun x => (b, x))))

/-- The term of R101 that heat and droop give. -/
def coreScore (k : Core) : Int :=
  let h : Int := min 63 (max 0 (95 - k.temp.toInt / 8))
  2 * h - 8 * (min k.droop 4 : Nat)

/-- Free group slots of a core. -/
def State.freeSlots (s : State) (c : Nat) : Nat := 64 - (s.grantsOn c).length

/-- Score of a candidate (R101), after its placement. -/
def State.score (s : State) (w : Waiting) (base : Nat) : Int :=
  (w.cores base).foldl (fun (t : Int) c => t + coreScore (s.core c) + (s.freeSlots c / 4 : Nat)) 0

/-- The candidate of the highest score, the lowest base of equals (R101). -/
def bestOf (w : Waiting) : List (Nat × State) → Option (Nat × State)
  | [] => none
  | x :: xs =>
    match bestOf w xs with
    | none => some x
    | some y =>
      let sx := x.2.score w x.1
      let sy := y.2.score w y.1
      some (if sy < sx || (sx == sy && x.1 ≤ y.1) then x else y)

/-- All clusters of the device, and those of a die. -/
def allClusters : List Nat := List.range 12

def clustersOf (d : Nat) : List Nat := (List.range 3).map (fun i => 3 * d + i)

/-- The placement that a die's front end makes for a gang, if it has one (R100, R101). -/
def State.choose (s : State) (d : Nat) (w : Waiting) : Option State :=
  let calm (cs : List (Nat × State)) : List (Nat × State) := cs.filter (fun x => !s.avoidedAt w x.1)
  let mine := s.candidates w (clustersOf d)
  if mine.isEmpty then none
  else
    let good := calm mine
    if !good.isEmpty then (bestOf w good).map (·.2)
    else if (calm (s.candidates w allClusters)).isEmpty then (bestOf w mine).map (·.2)
    else none

/-! ## Victims (R102) -/

/-- Lists of n elements of a list, in its order. -/
def choices {α : Type} : Nat → List α → List (List α)
  | 0, _ => [[]]
  | _, [] => []
  | n + 1, x :: xs => (choices n xs).map (x :: ·) ++ choices (n + 1) xs

/-- The state without the grants and pages of some gangs. -/
def State.without (s : State) (gs : List Gang) : State :=
  let ids := gs.flatMap (·.teamIds)
  { s with
    grants := s.grants.filter (fun g => !ids.contains g.team)
    teams := s.teams.map (fun (tm : Team) =>
      if ids.contains tm.id then { tm with pages := [], pages2 := [] } else tm)
    threads := s.threads.filter (fun t => !ids.contains t.team) }

/-- Gangs of a cluster that a gang of a priority may pre-empt. -/
def State.preemptable (s : State) (prio cluster : Nat) : List Gang :=
  s.gangs.filter (fun g => g.state == .live && decide (g.prio < prio) && g.base / 4 == cluster
    && decide (g.liveSince + 50000 ≤ s.time) && !(s.victims g).isEmpty)

/-- All of a set pre-empted, if the pools have room. -/
def State.preemptSet (s : State) : List Gang → Option State
  | [] => some s
  | g :: gs =>
    match s.preemptGang (dieOf g.base) g with
    | some s => s.preemptSet gs
    | none => none

/-- A victim set: its gangs, and whether a candidate without avoided cores follows from it. -/
def State.victimSets (s : State) (w : Waiting) (n cluster : Nat) : List (List Gang × Bool) :=
  if !s.hwPlaces (cluster / 3) then []
  else
    (choices n (s.preemptable w.prio cluster)).filterMap (fun gs =>
      let cs := (s.without gs).candidates w [cluster]
      if cs.isEmpty || (s.preemptSet gs).isNone then none
      else some (gs, cs.any (fun x => !s.avoidedAt w x.1)))

/-- What breaks ties between victim sets, smallest first: highest priority, time since the latest
placement, lowest occupied core. -/
def State.victimKey (s : State) (gs : List Gang) : List Nat :=
  [ maxOf (gs.map (·.prio)), s.time - maxOf (gs.map (·.liveSince))
  , minOf 48 ((s.threads.filter (fun t => gs.any (fun g => g.id == t.gang))).map (·.core)) ]

/-- Lists of numbers in order. -/
def lexLt : List Nat → List Nat → Bool
  | x :: xs, y :: ys => if x == y then lexLt xs ys else decide (x < y)
  | _, _ => false

/-- The first of the sets of one size. -/
def State.bestSet (s : State) : List (List Gang) → Option (List Gang)
  | [] => none
  | x :: xs =>
    match s.bestSet xs with
    | none => some x
    | some y => some (if lexLt (s.victimKey y) (s.victimKey x) then y else x)

/-- The victim set of the fewest gangs, from n gangs up; `calm` asks for a candidate without avoided
cores. -/
def State.fewest (s : State) (w : Waiting) (calm : Bool) (n : Nat) : Nat → Option (List Gang)
  | 0 => none
  | fuel + 1 =>
    let sets := (allClusters.flatMap (s.victimSets w n)).filter (fun x => x.2 || !calm)
    match s.bestSet (sets.map (·.1)) with
    | some gs => some gs
    | none => s.fewest w calm (n + 1) fuel

/-- The pre-emption that a waiting gang causes (R102), if any: none while gangs that are suspending make
room for it (log entry 50). -/
def State.preempt (s : State) (w : Waiting) : Option State :=
  let most := maxOf (allClusters.map (fun c => (s.preemptable w.prio c).length))
  let leaving := s.gangs.filter (fun g => g.state == .suspending)
  if most == 0 then none
  else if !((s.without leaving).candidates w allClusters).isEmpty then none
  else
    match (s.fewest w true 1 most).or (s.fewest w false 1 most) with
    | some gs => s.preemptSet gs
    | none => none

/-! ## What waits, and where it goes -/

/-- What waits, in the order of R92 and R104: descending priority, requeued gangs first; nothing of a dead context
(R418). -/
def State.waiting (s : State) : List Waiting :=
  (List.range 8).reverse.flatMap (fun p =>
    (sortBy (·.order) (s.gangs.filter (fun g => g.state == .requeued && g.prio == p))).filterMap (fun g =>
        ((s.launch? g.launch).filter (fun l => s.livesCtx l.ctx)).map (Waiting.again g))
      ++ (sortBy (·.order) (s.launches.filter (fun l => l.state == .ready && l.prio == p && s.livesCtx l.ctx))).map Waiting.next)

/-- Still the same after earlier placements of the step. -/
def State.refresh (s : State) : Waiting → Option Waiting
  | .again g _ =>
    match s.gang? g.id with
    | some g => if g.state == .requeued then (s.launch? g.launch).map (Waiting.again g) else none
    | none => none
  | .next l =>
    match s.launch? l.ident with
    | some l => if l.state == .ready then some (.next l) else none
    | none => none

/-- The gangs of one entry placed on a die, while it has any that fits; then a pre-emption for the next
where no die has a candidate. -/
def State.placeEntry (s : State) (d : Nat) (w : Waiting) : Nat → State
  | 0 => s
  | n + 1 =>
    match s.refresh w with
    | none => s
    | some w =>
      match s.choose d w with
      | some s => s.placeEntry d w n
      | none =>
        if (s.candidates w allClusters).isEmpty then (s.preempt w).getD s else s

/-! ## Reservations (R103) -/

/-- What a gang needs in the five quantities of R40, checks 2 to 6. -/
def Waiting.needs (w : Waiting) : List Nat :=
  let k := w.launch.kd
  let n := k.teams * k.groups
  [n * k.ask.stack, n, n * k.ask.width, k.teams * (k.galley / 4096), n * k.tiles]

/-- What a cluster has free of them. -/
def State.freeIn (s : State) (cluster : Nat) : List Nat :=
  let cs := (List.range 4).map (fun i => 4 * cluster + i)
  let sum (f : Nat → Nat) : Nat := (cs.map f).sum
  [ sum (fun c => ((List.range 8).map (s.freeStore c)).sum), sum s.freeSlots
  , sum (fun c => 2048 - ((s.grantsOn c).map (·.lanes)).sum), sum (fun c => (s.freePages c).length)
  , sum (fun c => formeTiles - s.usedTiles c) ]

/-- The shortfalls of a gang in a cluster. -/
def State.shortfall (s : State) (w : Waiting) (cluster : Nat) : List Nat :=
  (w.needs.zip (s.freeIn cluster)).map (fun x => x.1 - x.2)

/-- Clusters that a gang may reserve. -/
def State.reservable (s : State) (w : Waiting) : List Nat :=
  allClusters.filter (fun c => !(s.die (c / 3)).stopped && (s.die (c / 3)).stopping == 0
    && !s.reserves.any (fun r => r.cluster == c && w.prio ≤ r.prio))

/-- The cluster of the smallest shortfalls, the lowest of equals. -/
def State.leastShort (s : State) (w : Waiting) : List Nat → Option Nat
  | [] => none
  | c :: cs =>
    match s.leastShort w cs with
    | none => some c
    | some x => some (if lexLt (s.shortfall w x) (s.shortfall w c) then x else c)

/-- What a gang that has waited 500 µs without placement reserves: the cluster with the smallest shortfall. -/
def State.reserveFor (s : State) (w : Waiting) : State :=
  if s.time < w.since + 500000
      || s.reserves.any (fun r => r.launch == w.launch.ident && r.linear == w.linear) then s
  else
    match s.leastShort w (s.reservable w) with
    | none => s
    | some c =>
      { s with reserves := s.reserves.filter (fun r => r.cluster != c)
                 ++ [⟨c, w.launch.ident, w.linear, w.prio⟩] }

/-- CLUSTER_RESERVE (R103). A gang that has waited 500 µs without placement reserves the cluster with the
smallest shortfall. -/
def execClusterReserve (s : State) : Host.Outcome State Fault Refusal :=
  .next (match s.waiting.find? (fun w => w.launch.ident == s.arg.v && w.linear == s.arg.a) with
    | none => s
    | some w => s.reserveFor w)

/-! ## The placement step (R104) -/

/-- Pools written since the last placement step of a die take effect (R179, R390). -/
def State.newPools (s : State) (d : Nat) : State :=
  let x := s.die d
  match x.spillNew, x.poolNew with
  | none, none => s
  | sp, po =>
    let (sb, ss) := sp.getD (x.spillBase, x.spillSize)
    let (pb, ps) := po.getD (x.poolBase, x.poolSize)
    s.setDie d { x with spillBase := sb, spillSize := ss, spillNew := none, poolBase := pb, poolSize := ps
                        poolNew := none }

/-- PLACEMENT_STEP (R104). At least every 200 ns and on each grant release, a die's front end places every
gang that has a usable candidate; a gang that has waited too long then reserves a cluster (R103). -/
def execPlacementStep (s : State) : Host.Outcome State Fault Refusal :=
  .next (
    let d := s.arg.a
    let s := s.newPools d
    if !s.hwPlaces d || s.powerLost.isSome then s
    else
      let s := s.waiting.foldl (fun (s : State) w => s.placeEntry d w (w.launch.gangs + 1)) s
      s.waiting.foldl State.reserveFor s)

/-! ## Placement status (R99, R100) -/

/-- AVOID and its calm period after an update with readings. -/
def Core.avoided (k : Core) (bound time : Nat) : Core :=
  let hot : Bool := decide ((760 : Int) < k.temp.toInt) || decide (bound < k.droop)
  let calm : Bool := decide (k.temp.toInt < 704) && decide (k.droop ≤ bound)
  let since := if calm then some (k.calmSince.getD time) else none
  let calmLong : Bool := match since with | some t => decide (t + 200000 ≤ time) | none => false
  { k with avoid := if hot then true else if calmLong then false else k.avoid, calmSince := since }

/-- COOL of a die after an update (R32). -/
def coolDie (x : Die) (ks : List Core) (time : Nat) : Die :=
  let below := ks.all (fun k => k.temp.toInt < 704)
  let since := if below then (if x.coolSince == 0 then time else x.coolSince) else 0
  { x with coolSince := since, cool := below && decide (since + 200000 ≤ time) }

/-- The period of the updates of PLCSTAT (R99). -/
def plcPeriod : Nat := 10000

/-- A temperature and droop events that no operand gives: free values below the temperature at which a die stops (log
entry 94). -/
def freeReading (v : W64) : BitVec 12 × Nat :=
  (BitVec.ofInt 12 ((v.toNat % 2968 : Nat) - 2048), v.toNat / 2 ^ 12 % 256)

/-- A core after an update with a reading (R99, R100). -/
def State.plcCore (s : State) (d c : Nat) (r : BitVec 12 × Nat) : Core :=
  { (({ s.core c with temp := r.1, droop := min 255 r.2 } : Core).avoided (s.die d).droopBnd s.time) with
    plcResv := s.reserves.any (fun x => x.cluster == clusterOf c), plcStopped := (s.die d).stopped }

/-- PLCSTAT_UPDATE (R99, R100). Every 10 µs a die refreshes the fields of each core's PLCSTAT but the free ones and
evaluates AVOID. -/
def execPlcstatUpdate (s : State) : Host.Outcome State Fault Refusal :=
  .next (
    let d := s.arg.a
    if s.time < (s.die d).plcAt + plcPeriod then s
    else
      let cores := (List.range 12).map (fun i => 12 * d + i)
      let s' := (cores.mapIdx (fun i c => (i, c))).foldl (fun (s : State) (x : Nat × Nat) =>
        let r := (s.arg.readings[x.1]?).getD (freeReading (Config.freeWord (s.fresh + x.1)))
        s.setCore x.2 (s.plcCore d x.2 r)) s
      let y := coolDie (s'.die d) (cores.map s'.core) s'.time
      { s'.setDie d { y with plcAt := s.time - s.time % plcPeriod } with fresh := s.fresh + 12 })

/-- PLCSTAT of a core (R99): its free fields as they are, the others as the latest update left them. -/
def State.plcstat (s : State) (c : Nat) : Nat :=
  let k := s.core c
  let kib := ((List.range 8).map (s.freeStore c)).sum / 1024
  (s.freePages c).length * 2 ^ 53 + kib * 2 ^ 41 + s.freeSlots c * 2 ^ 34
    + (formeTiles - s.usedTiles c) * 2 ^ 28 + k.temp.toNat * 2 ^ 16 + k.droop * 2 ^ 8
    + b2n k.plcStopped * 4 + b2n k.plcResv * 2 + b2n k.avoid

/-! ## PLACE (R108) -/

/-- The status word of PLACE, and the state it leaves. -/
def State.placeWord (s : State) (ident tgt : W64) : State × W64 :=
  let d := dieOf s.here
  let b := tgt.toNat
  let l := (s.launch? ident).filter (fun l => s.livesCtx l.ctx)
  let shape := match l with | some l => l.kd.shapeOk (b % 4) | none => true
  if !s.mode d 2 then (s, codeWord 0x07 0)
  else if 64 ≤ b || b / 12 != d || !shape then (s, codeWord 0x04 0)
  else
    match l with
    | none => (s, codeWord 0x02 0)
    | some l =>
      match l.state with
      | .dispensed => (s, codeWord 0x02 0)
      | .retired => (s, codeWord 0x02 0)
      | .accepted => (s, codeWord 0x01 0)
      | .waiting => (s, codeWord 0x01 0)
      | .ready =>
        if s.halting d then (s, codeWord 0x05 0)
        else
          match s.placeNew l b with
          | .no c => (s, codeWord 0x03 (c * 2 ^ 48))
          | .yes s _ => (s, codeWord 0 (l.cursor % 2 ^ 48))

/-- PLACE (R108). Places a launch's next gang at a supervisor-chosen base core. -/
def execPlace (h : Hdr) (d : BitVec 7) (a : BitVec 7) (b : BitVec 6) (s : State) :
    Host.Outcome State Fault Refusal :=
  run (.place h d a b) s (fun s =>
    let (s, v) := s.placeWord (s.sreg a.toNat) (s.sreg b.toNat)
    s.finish h d.toNat v)

end Sys2Proof.Machine
end

