-- ==== Sys2Proof/Machine/System.lean ====
section
/-! DEFINITION. The device as a whole: resets and starts (R11 to R21, R28), the management window (R25,
R30), function modes (R22 to R24), power and stopped dies (R26, R27, R31, R32), time synchronisation (R33)
and uncorrectable soft errors (R374). -/

namespace Sys2Proof.Machine

/-! ## The boot report ring (R18) -/

/-- Measurement register that a start stage fills first (R14; log entry 55). -/
def stageMeas (stage : Nat) : Nat := match stage with | 0 => 0 | 1 => 1 | _ => 4

/-- A boot report record (R18). -/
def bootRecord (b : Boot) (stage reason detail ns : Nat) (meas : BitVec 512) : List Byte :=
  leBytes 4 0x42524B44 ++ leBytes 2 1 ++ leBytes 1 stage ++ leBytes 1 b.slot ++ leBytes 8 b.startSeq.toNat
    ++ leBytes 4 reason ++ leBytes 4 detail ++ leBytes 8 ns ++ (leBytes 64 meas.toNat).take 32

/-- A record in the ring of eight, in place of the oldest. -/
def Boot.report (b : Boot) (r : List Byte) : Boot :=
  let i := b.ringNext % 8
  let ring := if i < b.ring.length then modifyAt b.ring i (fun _ => r) else b.ring ++ [r]
  { b with ring := ring, ringNext := (i + 1) % 8, reported := true }

/-- A record for a stage of the present start. -/
def State.bootReport (s : State) (stage reason detail : Nat) : State :=
  let r := bootRecord s.boot stage reason detail (s.time - s.boot.powerGood) (s.measReg (stageMeas stage))
  { s with boot := s.boot.report r }

/-! ## Reset (R11, R17) -/

/-- Storage that keeps its contents through a reset (R27, R291): the second tier and the expanders, and
what lies beyond the device. -/
def survives (pa : Nat) : Bool :=
  match regionOf pa with
  | .tier2 _ | .cxl _ | .host | .peer _ => true
  | _ => false

/-- ROM entry (R17, R18): a start without its record gets one, then the failed-start counter decides. Every
entry counts as the power-good from which a record counts its nanoseconds (log entry 79). -/
def State.romEntry (s : State) : State :=
  let b := s.boot
  let s := if b.failCount != 0 && !b.reported then s.bootReport 2 0x21 0 else s
  let b := { s.boot with
    startSeq := s.boot.startSeq + 1, stage := 0, stageStart := s.time, powerGood := s.time
    failed := false, startok := false, proctorsStarted := false, reported := false }
  { s with boot :=
      if 3 ≤ b.failCount.toNat then { b with minimal := true }
      else { b with
        minimal := false
        failCount := if b.failCount == 0xFFFF then 0xFFFF else b.failCount + 1 } }

/-- Lines of the second tier and of expanders whose last writes no CFLUSH has covered may be lost with the
L2: they hold free values (R27, R305). -/
def State.losesDirty (s : State) : State :=
  let late := (s.lines.filter (fun l => lasting l.1 && !l.2.pend.isEmpty)).map (·.1)
  let lines := dedup (s.dirty.map (·.1) ++ late)
  let n := s.fresh
  { s with
    fresh := n + 128 * lines.length
    mem := (lines.mapIdx (fun i l => (i, l))).foldl (fun (m : List Host.Cell) (e : Nat × Nat) =>
      Sparse.write m e.2 ((List.range 128).map (fun k => (Config.freeWord (n + 128 * e.1 + k)).setWidth 8)))
      s.mem }

/-- Why the image of a slot is not accepted, with the detail of its record, none where it is (R13, R19): a bad
header, a signature that does not verify, a version below the fused minimum. The ROM tests them in the order
that R13 lists them (log entry 79). -/
def State.imageReason (s : State) (slot : Nat) : Option (Nat × Nat) :=
  match Config.imageHeader s.flash slot with
  | some off => some (3, off)
  | none =>
    let body := Config.imageBody s.flash slot
    let v := Config.imageVersion s.flash slot
    if !Config.signatureValid (digestOf (sha3 body)) (Config.imageSignature s.flash slot) then some (1, slot)
    else if v.ult s.boot.fusedMin then some (2, v.toNat)
    else none

/-- Stage 0 has verified the first stage in a slot: it extends MEAS0 and MEAS1 (R11, R14), and the slot is
recorded (R12). -/
def State.firstStageIn (s : State) (slot : Nat) : State :=
  (({ s with boot := { s.boot with slot := slot } } : State).extend 0 (Config.romDigest s.boot.fusedMin)).extend 1
    (digestOf (sha3 (Config.imageBody s.flash slot)))

/-- Stage 0 verifies the first stage in slot A, then in slot B; where both fail, the start fails with the reason
of slot B, before it extends a register (R11, R12, R18). In minimal mode no slot is verified: the ROM extends
MEAS0 alone, and the slot of an earlier start stays for quotes (log entry 79). -/
def State.verifyFirst (s : State) : State :=
  if s.boot.minimal then s.extend 0 (Config.romDigest s.boot.fusedMin)
  else
    match s.imageReason 0, s.imageReason 1 with
    | none, _ => s.firstStageIn 0
    | some _, none => s.firstStageIn 1
    | some _, some (reason, detail) =>
      let s := ({ s with boot := { s.boot with slot := 1 } } : State).bootReport 0 reason detail
      { s with boot := { s.boot with failed := true } }

/-- A device reset: everything starts afresh but device time, the flash, the second tier, the expanders
and what lies outside (R8, R12, R27, R291); slot 0 gets a new key. -/
def State.restart (s : State) : State :=
  let r := State.reset
  let s := s.romEntry.losesDirty
  State.verifyFirst { r with
    time := s.time, agenda := s.agenda, turns := s.turns, dts := s.dts, rr := s.rr, cur := s.cur
    nextId := s.nextId, fresh := s.fresh + 1, nextSerial := s.nextSerial, hostLog := s.hostLog
    peerSeen := s.peerSeen, peerNext := s.peerNext
    boot := s.boot, flash := s.flash
    keys := [(0, { key := Config.randomKey s.fresh, epoch := s.newEpoch 1, held := true, incarnation := 1 })]
    mem := s.mem.filter (fun e => survives e.1)
    tags := s.tags.filter (fun e => survives e.1)
    memPoison := s.memPoison.filter (fun e => survives e.1)
    dies := if s.boot.minimal then r.dies.map (fun d => { d with clockMHz := 550 }) else r.dies }

/-- DEVICE_RESET (R17). A reset or power-up enters the mask ROM, which updates the failed-start counter and
either enters minimal mode or begins stage 0 of the start sequence. -/
def execDeviceReset (s : State) : Host.Outcome State Fault Refusal := .next s.restart

/-! ## Start stages -/

/-- Time limit of a stage in ns (R11). -/
def stageLimit (stage : Nat) : Nat :=
  match stage with | 0 => 200000000 | 1 => 30000000000 | _ => 120000000000

/-- A request of a function in supervisor mode that the device has made (R25): a walk, a placement, a copy's
replay, a proof block's recomputation. -/
def HqRec.ofMode (r : HqRec) : Bool := r.kind == 0x04 || (0x06 ≤ r.kind && r.kind ≤ 0x08)

/-- Requests that wait for a stand-in are discarded with a start that fails before any supervisor runs (R25). -/
def State.discardWaiting (s : State) : State :=
  if s.boot.proctorsStarted then s
  else
    let s := (List.range 4).foldl (fun (s : State) d =>
      let q := (s.core (12 * d)).hq
      let s := s.setHq (12 * d) { q with overflow := q.overflow.filter (fun r => !r.ofMode) }
      if q.recs.any HqRec.ofMode then s.freeRecs (12 * d) HqRec.ofMode else s) s
    { s with
      walks := s.walks.filter (fun w => !w.svmode)
      cpys := s.cpys.filter (fun c => c.replay.isNone)
      proofs := s.proofs.map (fun (p : Proof) =>
        { p with triggers := (p.triggers.map (fun t => { t with tags := [] })).filter (fun t => !t.blocks.isEmpty) }) }

/-- The start has failed (R11): it goes no further, and what waits is discarded with it (R25). -/
def State.failStart (s : State) : State :=
  { s with boot := { s.boot with failed := true } }.discardWaiting

/-- STAGE_LIMIT_EXCEEDED (R11). A start stage that has not finished within its time limit fails with reason
0x0020 and never hands control to the next stage. The ROM writes the record of stage 0 (R18). -/
def execStageLimitExceeded (s : State) : Host.Outcome State Fault Refusal :=
  .next (
    let b := s.boot
    if b.failed || b.minimal || b.startok || b.startSeq == 0 || s.time ≤ b.stageStart + stageLimit b.stage then s
    else
      (if b.stage == 0 then s.bootReport 0 0x20 0 else s).failStart)

/-- A 64-byte store to BOOTREP (R18). -/
def State.bootrep (s : State) (bs : List Byte) : State :=
  let u (o n : Nat) : Nat := leNat ((bs.drop o).take n)
  if u 6 1 == 0 || u 0 4 != 0x42524B44 || u 4 2 != 1 || s.boot.startok || s.boot.reported then s
  else
    let r := bs.take 8 ++ leBytes 8 s.boot.startSeq.toNat ++ (bs.drop 16).take 48
    { s with boot := s.boot.report (padTo 64 r) }.failStart

/-- BOOTREP_STORE (R18). A store of a 64-byte record to BOOTREP makes the security block write the record
into the boot report ring, unless the store is ignored. -/
def execBootrepStore (s : State) : Host.Outcome State Fault Refusal :=
  .next (if s.mayMeasure s.arg.w then
    (if s.arg.w == .firstStage then s.stageOne else s).bootrep s.arg.bytes else s)

/-- A store to STARTOK by supervisor code (R28). -/
def State.startokStore (s : State) (v : Nat) : State :=
  if v != 1 || s.boot.startok || s.boot.minimal then s
  else { s with boot := { s.boot with startok := true, failCount := 0 }, mw := { s.mw with standIn := false } }

/-- STARTOK_WRITE (R28). A store of 1 to STARTOK clears the failed-start counter, locks MEAS0 to MEAS5 and
ends host FMODE and stand-in writes, all in one step. -/
def execStartokWrite (s : State) : Host.Outcome State Fault Refusal :=
  .next (if isSupervisor s.arg.w then s.startokStore s.arg.v.toNat else s)

/-- PROCTOR_LANES_START (R11, R197). As the last act of stage 1, the first stage starts the proctor lanes
with IE = 0 at the entry the operating system image names, and stage 2 begins. No start goes from stage 0 to
stage 2. -/
def execProctorLanesStart (s : State) : Host.Outcome State Fault Refusal :=
  .next (
    let b := s.boot
    if b.stage != 1 || !b.firstStageRuns then s
    else
      { s with
        boot := { b with proctorsStarted := true, stage := 2, stageStart := s.time }
        cores := s.cores.map (fun (k : Core) =>
          { k with proctor := { k.proctor with
              started := true, run := true, ie := false, pc := s.arg.v, tickT0 := s.time } }) })

/-- FUSED_MINIMUM_RAISE (R13). A signed request from a running operating system raises the fused minimum
security version. -/
def execFusedMinimumRaise (s : State) : Host.Outcome State Fault Refusal :=
  .next (
    let v : W32 := s.arg.v.setWidth 32
    if s.boot.proctorsStarted && s.boot.fusedMin.ult v && Config.raiseSigned v s.arg.bytes then
      { s with boot := { s.boot with fusedMin := v } }
    else s)

/-! ## The management window (R25, R30) -/

/-- Whether a host may write the stand-in claim. -/
def State.hostMayClaim (s : State) : Bool := !s.boot.startok || s.boot.minimal

/-- A host's store to the stand-in claim. -/
def State.standIn (s : State) (v : Nat) : State :=
  if !s.hostMayClaim || 1 < v then s else { s with mw := { s.mw with standIn := v == 1 } }

/-- STAND_IN_CLAIM (R30). A host store of 1 to the stand-in claim takes the stand-in role for functions in
supervisor mode. -/
def execStandInClaim (s : State) : Host.Outcome State Fault Refusal := .next (s.standIn 1)

/-- STAND_IN_RELEASE (R30). A host store of 0 to the stand-in claim gives up the stand-in role. -/
def execStandInRelease (s : State) : Host.Outcome State Fault Refusal := .next (s.standIn 0)

/-- Whether a range of the flash lies wholly inside an image slot (R12). -/
def inSlots (off len : Nat) : Bool :=
  (0x100000 ≤ off && off + len ≤ 0x100000 + 0x7F00000)
    || (0x8100000 ≤ off && off + len ≤ 0x8100000 + 0x7F00000)

/-- Maintenance code 0x01: bytes of the staging area go into the flash (R30). -/
def State.maintFlash (s : State) : State :=
  let off := s.mw.maintOff.toNat
  let len := s.mw.maintLen.toNat
  if s.mw.maintStat == 1 then s
  else if !s.boot.minimal || off % 4096 != 0 || len % 4096 != 0 || 0x100000 < len || !inSlots off len then
    { s with mw := { s.mw with maintStat := 3 } }
  else
    { s with flash := Sparse.write s.flash off (Sparse.read s.mw.staging 0 len)
             mw := { s.mw with maintStat := 1 } }

/-- MAINT_WRITE_FLASH (R30). Maintenance code 0x01 copies bytes from the staging area into a flash image
slot, or is refused with status 0x03. -/
def execMaintWriteFlash (s : State) : Host.Outcome State Fault Refusal := .next s.maintFlash

/-- Maintenance code 0x02. -/
def State.maintReset (s : State) : State :=
  if s.mw.maintStat == 1 then s
  else if !s.boot.minimal then { s with mw := { s.mw with maintStat := 3 } }
  else { s with boot := { s.boot with failCount := 0 } }.restart

/-- MAINT_RESET_COUNTER (R30). Maintenance code 0x02 sets the failed-start counter to 0 and resets the
device. -/
def execMaintResetCounter (s : State) : Host.Outcome State Fault Refusal := .next s.maintReset

/-- MAINTENANCE_REQUEST_DONE (R30). A maintenance flash write ends and the maintenance status moves from
busy to done. -/
def execMaintenanceRequestDone (s : State) : Host.Outcome State Fault Refusal :=
  .next (if s.mw.maintStat == 1 then { s with mw := { s.mw with maintStat := 2 } } else s)

/-- A store to the maintenance request register: its code in bits 7:0. -/
def State.maintRequest (s : State) (v : Nat) : State :=
  match v % 256 with
  | 1 => s.maintFlash
  | 2 => s.maintReset
  | _ => if s.mw.maintStat == 1 then s else { s with mw := { s.mw with maintStat := 3 } }

/-! ## Function modes -/

/-- Who may write FMODE of a die (R23). -/
def State.mayFmode (s : State) (w : Writer) (d : Nat) : Bool :=
  match w with
  | .proctor c => dieOf c == d
  | .host => !s.boot.startok
  | .firstStage => s.boot.firstStageRuns
  | _ => false

/-- A write to FMODE begins (R24); none while an earlier one is under way: supervisor code's store then waits,
and a host's is dropped (log entry 80). -/
def State.fmodeStore (s : State) (d : Nat) (v : W32) : Option State :=
  let x := s.die d
  if x.fmodeNew.isSome then none
  else some (s.setDie d { x with fmodeNew := some (v &&& 0x3F) })

/-- FMODE_WRITE (R24). A write to FMODE by supervisor code, or by a host before STARTOK, begins a change of
function modes on a die. -/
def execFmodeWrite (s : State) : Host.Outcome State Fault Refusal :=
  .next (if s.mayFmode s.arg.w s.arg.a then
    let s := if s.arg.w == .firstStage then s.stageOne else s
    (s.fmodeStore s.arg.a (s.arg.v.setWidth 32)).getD s
  else s)

/-- Requests of a function that a die accepted under its present mode and has not finished (R24): bit 0
walks, 1 spills and fills, done by the engine or by traps, 3 recomputations of proofs that have not faulted, 4 copy
replays, 5 migrations. -/
def State.modeBusy (s : State) (d fn : Nat) : Bool :=
  match fn with
  | 0 => s.walks.any (fun w => dieOf w.core == d && w.open_)
  | 1 => s.threads.any (fun t => dieOf t.core == d
      && (s.atStackTrap t || (match t.park with | .spill .. => true | _ => false)))
  | 3 => s.proofs.any (fun p => p.die == d && p.faulted.isNone && !p.triggers.isEmpty)
  | 4 => s.cpys.any (fun c => dieOf c.core == d && c.replay.isSome)
  | 5 => (s.die d).migCur.isSome || !(s.die d).migWait.isEmpty
  | _ => false

/-- Placement requests when PLACE goes from 0 to 1 (R107): Ready launches with a gang at their cursor, and
Requeued gangs whose folios lie in the die's pool. -/
def State.placeRequests (s : State) (d : Nat) : State :=
  let ls := s.launches.filter (fun l => l.state == .ready)
  let s := ls.foldl (fun (s : State) l => s.postDevice (12 * d) (launchRequest l)) s
  (s.gangs.filter (fun g => g.state == .requeued)).foldl (fun (s : State) g =>
    match g.block, s.launch? g.launch with
    | some (x, _, a), some l => if x == d then s.postDevice (12 * d) (requeueRequest l g a) else s
    | _, _ => s) s

/-- FMODE_WRITE_COMPLETE (R24). The FMODE write completes once every request accepted under the old mode has
finished, and placement request records are posted when PLACE goes from 0 to 1. -/
def execFmodeWriteComplete (s : State) : Host.Outcome State Fault Refusal :=
  .next (
    let d := s.arg.a
    let x := s.die d
    match x.fmodeNew with
    | none => s
    | some v =>
      let changed := x.fmode ^^^ v
      if (List.range 6).any (fun fn => changed.getLsbD fn && s.modeBusy d fn) then s
      else
        let s := s.setDie d { x with fmode := v, fmodeNew := none }
        if v.getLsbD 2 && !x.fmode.getLsbD 2 then s.placeRequests d else s)

/-! ## Power -/

/-- POWER_LOSS (R27). On loss of input power the arithmetic clock halts at once, and the hold-up supply lets
issued copies and CFLUSH operations on the checkpoint path finish. -/
def execPowerLoss (s : State) : Host.Outcome State Fault Refusal :=
  .next (if s.powerLost.isSome then s else { s with powerLost := some s.time })

/-- Arithmetic clock of a die that runs freely (R3, R20). -/
def State.fullClock (s : State) : Nat := if s.boot.minimal then 550 else 1100

/-- The measured input power (R26, R31): above the cap the arithmetic clock falls below its present value, to one
that the manual does not state, and under the cap it returns. -/
def State.powerReading (s : State) (watts : Nat) : State :=
  let s : State := { s with pwrIn := watts % 4096 }
  let clocks (s : State) (f : Nat → Nat) : State :=
    { s with dies := s.dies.map (fun d => if d.stopping == 0 then { d with clockMHz := f d.clockMHz } else d) }
  if s.pwrCap < watts then
    let (v, s) := s.freeValue
    { clocks s (fun mhz => 1 + v.toNat % max 1 (mhz - 1)) with clockLow := true }
  else if s.clockLow then { clocks s (fun _ => s.fullClock) with clockLow := false }
  else s

/-- POWER_CAP_EXCEEDED (R26). Measured input power above PWRCAP makes the module lower the arithmetic clock
within 10 µs. -/
def execPowerCapExceeded (s : State) : Host.Outcome State Fault Refusal := .next (s.powerReading s.arg.a)

/-- A write of PWRCAP (R31). -/
def State.pwrcapStore (s : State) (v : Nat) : State :=
  let g := v % 4096
  if 1200 ≤ g && g ≤ 2600 then { s with pwrCap := g } else s

/-- PWRCAP_WRITE (R31). A supervisor write of PWRCAP from 1,200 to 2,600 W sets a new power cap, applied
within 10 µs. -/
def execPwrcapWrite (s : State) : Host.Outcome State Fault Refusal :=
  .next (if isSupervisor s.arg.w then s.pwrcapStore s.arg.v.toNat else s)

/-! ## Stopped dies (R32) -/

/-- A gang of a die that stops: into the pool, or dropped where it has no room (R389, R390). -/
def State.stopGang (s : State) (d : Nat) (g : Gang) : State :=
  if (s.victims g).isEmpty then s else (s.preemptGang d g).getD (s.dropGang g)

/-- DIE_STOP (R32). A die whose junction reaches 115 °C stops placing work, drops to 275 MHz and has every
gang with a member on it pre-empted into folios. -/
def execDieStop (s : State) : Host.Outcome State Fault Refusal :=
  .next (
    let d := s.arg.a
    let x := s.die d
    let temp : BitVec 12 := s.arg.v.setWidth 12
    if temp.toInt < 920 || x.stopped || x.stopping != 0 then s
    else
      let s := s.setDie d { x with stopping := 1, stopTemp := temp, clockMHz := 275 }
      (s.gangs.filter (fun g => g.state == .live && dieOf g.base == d)).foldl (fun (s : State) g =>
        match s.gang? g.id with | some g => s.stopGang d g | none => s) s)

/-- The die-stopped record (R361, kind 0x0F). -/
def stoppedPost (d : Nat) (temp : BitVec 12) : Post :=
  devicePost 0x0F 0 none (leBytes 1 d ++ [0] ++ leBytes 2 temp.toNat)

/-- DIE_STOP_HALT (R32). After the pre-emptions end, the die's arithmetic clock halts, products on its presses abort
with class 3 (R278), and the die-stopped record is posted. -/
def execDieStopHalt (s : State) : Host.Outcome State Fault Refusal :=
  .next (
    let d := s.arg.a
    let x := s.die d
    if x.stopping != 1 || s.threads.any (fun t => dieOf t.core == d && t.susp.isSome) then s
    else
      let s := s.setDie d { x with stopping := 2, stopped := true, clockMHz := 0 }
      let s := (s.pressOps.filter (fun p => p.multiplies && p.parts.any (fun q => dieOf q.core == d))).foldl
        (fun (s : State) p => s.pressAbort p (fun _ => 3)
          (match s.thread? p.issuer with | some t => t.core | none => 0)) s
      match firstBelow 4 (fun e => !(s.die e).stopped) with
      | some e => s.postDevice (12 * e) (stoppedPost d x.stopTemp)
      | none => s)

/-- Unspecified galley contents: free bytes from a place of the free values on. -/
def freeGalley (n : Nat) : Sparse Byte :=
  ((List.range 4194304).map (fun i => (i, (Config.freeWord (n + i)).setWidth 8))).filter
    (fun (e : Nat × Byte) => e.2 != 0)

/-- A stopped die starts again (R32). -/
def State.restartDie (s : State) (d : Nat) : State :=
  let s := s.dropThreads (fun t => dieOf t.core == d)
  let n := s.fresh
  { s with
    fresh := n + 12 * 4194304
    teams := s.teams.map (fun (tm : Team) =>
      if tm.cores.any (fun c => dieOf c == d) && (s.gang? tm.gang).isNone then
        { tm with retired := true, pages := [], pages2 := [], bars := [] } else tm)
    cores := s.cores.mapIdx (fun c (k : Core) =>
      if dieOf c == d then { k with galley := freeGalley (n + (c - 12 * d) * 4194304), plcStopped := false } else k)
    dies := modifyAt s.dies d (fun x =>
      { x with stopped := false, stopping := 0, clockMHz := s.fullClock }) }

/-- A store to DIESTOP (R32). -/
def State.dieStopStore (s : State) (d v : Nat) : State :=
  let x := s.die d
  if v == 0x100 && x.stopped && x.cool then s.restartDie d else s

/-- DIE_RESTART (R32). A supervisor store of 0x100 to DIESTOP while COOL is 1 restarts a stopped die, with
cores that hold no group. -/
def execDieRestart (s : State) : Host.Outcome State Fault Refusal :=
  .next (if isSupervisor s.arg.w then s.dieStopStore s.arg.a s.arg.v.toNat else s)

/-! ## Time (R8, R33) -/

/-- PTP_SYNC_EXCHANGE (R33). A precision time protocol exchange updates PTPSKEW and, when the skew exceeds
the bound, raises the time-sync fault: the first time, and each time it is above its previous report. A skew that
has been back within the bound and then exceeds it without being above that report posts nothing (log entry 80). -/
def execPtpSyncExchange (s : State) : Host.Outcome State Fault Refusal :=
  .next (
    let skew := s.arg.v.toNat % 2 ^ 32
    let s : State := { s with ptpSkew := skew }
    if s.ptpBound < skew && s.ptpReported < skew then
      { s with ptpReported := skew }.postDevice 0
        (devicePost 0x0E 0 none (leBytes 8 skew ++ leBytes 8 s.ptpBound))
    else s)

/-- A write of PTPBOUND. -/
def State.ptpStore (s : State) (v : Nat) : State :=
  let g := v % 2 ^ 32
  if 50 ≤ g && g ≤ 1000000 then { s with ptpBound := g } else s

/-- PTPBOUND_WRITE (R33). A supervisor write of PTPBOUND sets the cross-device skew bound, applied to later
reports. -/
def execPtpboundWrite (s : State) : Host.Outcome State Fault Refusal :=
  .next (if isSupervisor s.arg.w then s.ptpStore s.arg.v.toNat else s)

/-! ## Soft errors (R374) -/

/-- An uncorrectable error counted and reported (R361, kind 0x0C): structure, core or 0xFF, and index. -/
def State.reportError (s : State) (d code core index : Nat) : State :=
  let x := s.die d
  (s.setDie d { x with seUnc := (x.seUnc + 1) % 2 ^ 64 }).postDevice (12 * d)
    (devicePost 0x0C 0 none ([BitVec.ofNat 8 code, BitVec.ofNat 8 core, 0, 0, 0, 0, 0, 0] ++ leBytes 8 index))

/-- A memory line poisoned with a cause. -/
def State.poisonLine (s : State) (line cause : Nat) : State :=
  { s with memPoison := Sparse.set s.memPoison 0 (lineOf line) cause }

/-- Records whose source still holds what they ask for (R374). -/
def reposted (r : HqRec) : Bool :=
  r.kind == 0x04 || r.kind == 0x06 || r.kind == 0x07 || r.kind == 0x08 || r.kind == 0x11
    || (r.kind == 0x02 && decide (4 ≤ (r.bytes.getD 25 0).toNat))

/-- An error in a hand-in record: the record is freed; a group traps at its posting instruction, and a
device record is posted again where its source holds it. -/
def State.recordError (s : State) (core place : Nat) : State :=
  match (s.core core).hq.recs.find? (fun r => r.place == place) with
  | none => s
  | some r =>
    let freed := s.freeRecs core (fun x => x.place == place)
    let told (s : State) : State := s.reportError (dieOf core) 0x96 core place
    if r.ofThread then
      match freed.threads.find? (fun t => r.poster == some t.id) with
      | some t =>
        if (freed.core t.core).hq.free == 0 then s
        else told (freed.trapThread t ⟨vSoftError, 0x96, r.mask, 0, 0⟩ t.pc t.after)
      | none => told freed
    else if reposted r then
      told (freed.postDevice core r.post)
    else told freed

/-- The line of the spill area that a waiting RET reads first. -/
def fillLine (t : Thread) (wp : Nat) : Option Nat :=
  ((t.moved wp).2).head?.map (fun q => lineOf (t.spillAddr q 0))

/-- What an error does in its structure (R374). An error of a spill area that a fill meets poisons the line as an
error of HBM (log entry 81), and a press datapath, for which the manual gives no structure code, reports a free
one. -/
def State.softError (s : State) (e : SoftError) : State :=
  match e with
    | .store id key =>
      match s.thread? id with
      | some t =>
        (s.setThread { t with storePoison := Sparse.set t.storePoison false key true }).reportError
          (dieOf t.core) 0x90 t.core key
      | none => s
    | .galley c off =>
      let k := s.core c
      (s.setCore c { k with galPoison := Sparse.set k.galPoison false (off / 128) true }).reportError
        (dieOf c) 0x91 c (off / 128 * 128)
    | .l2 line => (s.poisonLine line 0x92).reportError (homeDie line) 0x92 0xFF (lineOf line)
    | .mem line => (s.poisonLine line 0x93).reportError (homeDie line) 0x93 0xFF (lineOf line)
    | .forme c tile =>
      let k := s.core c
      (s.setCore c { k with tilePoison := Sparse.set k.tilePoison false tile true }).reportError
        (dieOf c) 0x94 c tile
    | .spill id =>
      match s.thread? id with
      | some t =>
        match t.park with
        | .spill wp _ 0 =>
          match fillLine t wp with
          | some line => (s.poisonLine line 0x93).reportError (dieOf t.core) 0x95 0xFF line
          | none => s
        | _ => s
      | none => s
    | .record c place => s.recordError c place
    | .press c op =>
      match s.pressOps.find? (fun p => p.id == op && p.parts.any (fun q => q.core == c)) with
      | some p =>
        let (v, s) := s.freeValue
        (s.pressAbort p (fun q => if q.core == c then 1 else 2) c).reportError (dieOf c) (v.toNat % 256) c
          (v.toNat / 256)
      | none => s
    | .clean place line =>
      ({ s with caches := s.caches.filter (fun x => !(x.place == place && x.line == lineOf line)) } :
        State).reportError (homeDie line) 0x92 0xFF (lineOf line)
    | .directory line =>
      (regionLines line).foldl (fun (s : State) l => s.invalidate (s.dirClusters l) l) s
    | .corrected d =>
      s.setDie d { s.die d with seCorr := ((s.die d).seCorr + 1) % 2 ^ 64 }
    | .horizon line =>
      { s with lines := put s.lines (lineOf line) { s.lineInfo (lineOf line) with horizon := s.time + 16384 } }

/-- The core that the stage 0 record of an uncorrectable error names (R19): 0, which the ROM runs on, where the
structure belongs to no core; none of an error that loses nothing. -/
def State.errorCore (s : State) : SoftError → Option Nat
  | .store id _ | .spill id => (s.thread? id).map (·.core)
  | .galley c _ | .forme c _ | .record c _ | .press c _ => some c
  | .l2 _ | .mem _ => some 0
  | .clean .. | .directory _ | .corrected _ | .horizon _ => none

/-- An uncorrectable error while the ROM runs stage 0 fails the start with reason 0x0030 (R18, R19); the later
stages store their records to BOOTREP. -/
def State.errorInStart (s : State) (e : SoftError) : State :=
  match s.errorCore e with
  | some c => if s.boot.stage == 0 && s.boot.firstStageRuns then (s.bootReport 0 0x30 c).failStart else s
  | none => s

/-- SOFT_ERROR (R374). An uncorrectable soft error poisons its structure, takes the effect its structure
gives and posts a soft error report; one that the code corrects is counted. -/
def execSoftError (s : State) : Host.Outcome State Fault Refusal :=
  .next ((s.softError s.arg.err).errorInStart s.arg.err)

end Sys2Proof.Machine
end

