-- ==== Sys2Proof/Machine/Ctl.lean ====
section
/-! DEFINITION. The control blocks of the dies (R117) and the management window of the host (R30) as bytes:
what each register reads as, and what a store to it does. -/

namespace Sys2Proof.Machine

/-! ## Registers -/

/-- A register: its offset in the control block, its length, and the number it reads as. -/
structure Reg where
  start : Nat
  len : Nat
  value : Nat
  deriving DecidableEq, Repr

/-- Registers that each die has once, but FMODE first. -/
def State.dieRegs (s : State) (d : Nat) : List Reg :=
  let x := s.die d
  [ ⟨0x40, 4, x.fmode.toNat⟩, ⟨0x200, 16, 0⟩, ⟨0x240, 8, x.acThresh⟩, ⟨0x280, 16, 0⟩
  , ⟨0x290, 8, x.acResult.toNat⟩, ⟨0x400, 32, 0⟩, ⟨0x420, 8, x.shootDone⟩, ⟨0x428, 8, x.shootAcc⟩
  , ⟨0x430, 8, x.shootBad⟩, ⟨0x800, 16, (x.spillNew.getD (x.spillBase, x.spillSize)).1 + (x.spillNew.getD (x.spillBase, x.spillSize)).2 * 2 ^ 64⟩, ⟨0x840, 8, x.gangBnd⟩
  , ⟨0x880, 16, (x.poolNew.getD (x.poolBase, x.poolSize)).1 + (x.poolNew.getD (x.poolBase, x.poolSize)).2 * 2 ^ 64⟩, ⟨0x900, 8, x.keyMiss⟩, ⟨0xA00, 16, 0⟩
  , ⟨0xA40, 32, 0⟩, ⟨0xA60, 8, 0⟩, ⟨0xB00, 8, x.callIdem⟩, ⟨0xB40, 8, x.bellCtl⟩, ⟨0xB48, 8, x.bellCnt⟩
  , ⟨0xB80, 16, x.migAddr + x.migCount * 2 ^ 64⟩, ⟨0xBC0, 8, x.seCorr⟩, ⟨0xBC8, 8, x.seUnc⟩
  , ⟨0x1110, 8, x.stDisc⟩, ⟨0x1240, 8, x.droopBnd⟩
  , ⟨0x1380, 8, b2n x.stopped + b2n x.cool * 2⟩ ]

/-- Registers of die 0 alone. -/
def State.deviceRegs (s : State) : List Reg :=
  [ ⟨0x600, 8, s.ctxRoot⟩, ⟨0x1100, 8, 0⟩, ⟨0x1108, 8, s.tdId.toNat + s.tdStep * 2 ^ 32⟩
  , ⟨0x1140, 8, b2n s.boot.startok⟩, ⟨0x1180, 64, 0⟩, ⟨0x11C0, 8, 0⟩, ⟨0x11C8, 8, s.measStat⟩
  , ⟨0x1200, 8, s.pwrCap⟩, ⟨0x1208, 8, s.pwrIn⟩, ⟨0x1280, 8, s.ptpBound⟩, ⟨0x1288, 8, s.ptpSkew⟩
  , ⟨0x12C0, 64, 0⟩, ⟨0x1300, 64, 0⟩, ⟨0x1340, 8, 0⟩, ⟨0x1348, 8, s.qStat⟩, ⟨0x1600, 64, 0⟩
  , ⟨0x1640, 8, s.ctxStat.toNat⟩, ⟨0x1680, 16, 0⟩, ⟨0x1690, 8, s.keySealSt⟩ ]

/-- Registers of a core of a die: PLCSTAT (R99), the queue's (R359) and the proctor frame (R375). -/
def State.coreRegs (s : State) (d c : Nat) : List Reg :=
  let n := 12 * d + c
  let q := (s.core n).hq
  let p := (s.core n).proctor
  let h := 0xC00 + 0x20 * c
  let f := 0xD80 + 0x40 * c
  [ ⟨h, 8, q.base⟩, ⟨h + 8, 2, q.head⟩, ⟨h + 10, 2, q.tail⟩
  , ⟨h + 12, 2, (q.recs.filter (fun r => r.state == 1)).length⟩
  , ⟨h + 14, 2, (q.recs.filter (fun r => r.state == 2)).length⟩
  , ⟨f, 8, p.pvbase.toNat⟩, ⟨f + 8, 8, p.epc.toNat⟩, ⟨f + 16, 2, p.evec.toNat⟩, ⟨f + 18, 2, p.ecause.toNat⟩
  , ⟨f + 24, 8, p.eaddr.toNat⟩, ⟨f + 32, 1, b2n p.run + b2n p.dbl * 2⟩ ]

/-- Whether an offset lies in a register. -/
def Reg.holds (r : Reg) (off : Nat) : Bool := r.start ≤ off && off < r.start + r.len

/-- A register's bytes with some of them replaced. -/
def Reg.merged (r : Reg) (old off : Nat) (bs : List Byte) : List Byte :=
  let o := off - r.start
  (leBytes r.len old).take o ++ bs ++ (leBytes r.len old).drop (o + bs.length)

/-- The register of a die at an offset; none where the offset is reserved. -/
def State.regAt (s : State) (d off : Nat) : Option Reg :=
  if 0x100 ≤ off && off < 0x160 then
    let c := (off - 0x100) / 8
    some ⟨0x100 + 8 * c, 8, s.plcstat (12 * d + c)⟩
  else if 0xC00 ≤ off && off < 0xD80 then (s.coreRegs d ((off - 0xC00) / 0x20)).find? (fun r => r.holds off)
  else if 0xD80 ≤ off && off < 0x1080 then (s.coreRegs d ((off - 0xD80) / 0x40)).find? (fun r => r.holds off)
  else if d == 0 && 0x1400 ≤ off && off < 0x1600 then
    let i := (off - 0x1400) / 64
    some ⟨0x1400 + 64 * i, 64, (s.measReg i).toNat⟩
  else
    match (s.dieRegs d).find? (fun r => r.holds off) with
    | some r => some r
    | none => if d == 0 then s.deviceRegs.find? (fun r => r.holds off) else none

/-! ## The stack windows (R181) -/

/-- First offset after the stack control entries. -/
def stackEnd : Nat := 0x10000 + 12 * 64 * 64 * 32

/-- Whether an offset lies in the stack control entries. -/
def inStack (off : Nat) : Bool := 0x10000 ≤ off && off < stackEnd

/-- Whether an offset lies in the store window. -/
def inWindow (off : Nat) : Bool := 0x1000000 ≤ off && off < 0x1000000 + 12 * 8 * 0x40000

/-- The 32 bytes of a stack control entry. -/
def State.stackBytes (s : State) (d entry : Nat) : List Byte :=
  match s.stackEntry d entry with
  | none => List.replicate 32 0
  | some t =>
    leBytes 4 t.stkbase ++ leBytes 2 t.dres ++ leBytes 2 t.kwidth ++ leBytes 4 t.rbase ++ leBytes 4 t.wp
      ++ leBytes 8 t.spillbase ++ List.replicate 8 0

/-- The child whose word a byte of the store window is, and its key in the child's store; none unless the
child is parked at a spill or fill trap. -/
def State.windowWord (s : State) (d off : Nat) : Option (Thread × Nat) :=
  let p := (off - 0x1000000) / 0x40000
  let core := 12 * d + p / 8
  let at_ := (off - 0x1000000) % 0x40000
  (s.threads.find? (fun t =>
    t.core == core && t.part == p % 8 && t.stkbase ≤ at_ && at_ < t.stkbase + t.dres * t.kwidth * 4
      && (let l := (at_ - t.stkbase) / 4 % t.kwidth
          t.f ≤ l && l < t.f + t.width) && s.atStackTrap t)).map (fun t =>
    let n := (at_ - t.stkbase) / 4
    (t, n / t.kwidth * 64 + n % t.kwidth))

/-! ## Reads -/

/-- A byte of a die's control block as supervisor code loads it; what has no register reads zero (R10). -/
def State.ctlByte (s : State) (d off : Nat) : Byte :=
  if inStack off then (s.stackBytes d ((off - 0x10000) / 32)).getD (off % 32) 0
  else if inWindow off then
    match s.windowWord d off with
    | some (t, k) => BitVec.ofNat 8 ((Sparse.get t.store 0 k).toNat / 2 ^ (8 * (off % 4)))
    | none => 0
  else
    match s.regAt d off with
    | some r => BitVec.ofNat 8 (r.value / 2 ^ (8 * (off - r.start)))
    | none => 0

/-- Consecutive bytes of a die's control block. -/
def State.ctlRead (s : State) (d off n : Nat) : List Byte :=
  (List.range n).map (fun i => s.ctlByte d (off + i))

/-! ## Stores -/

/-- Base and size of a pool (R179, R390): multiples of 4,096, the base in memory of the die. -/
def poolOk (d base size : Nat) (tier2 : Bool) : Bool :=
  base % 4096 == 0 && size % 4096 == 0
    && (size == 0 || regionOf base == .hbm d || (tier2 && regionOf base == .tier2 d))

/-- A register of a core stored by supervisor code: HQBASE, PVBASE, EPC or RUN; others are read-only. -/
def State.coreStore (s : State) (d off v : Nat) : State :=
  if off < 0xD80 then
    let c := (off - 0xC00) / 0x20
    if (off - 0xC00) % 0x20 == 0 then s.hqBase (12 * d + c) v else s
  else
    let n := 12 * d + (off - 0xD80) / 0x40
    let p := (s.core n).proctor
    match (off - 0xD80) % 0x40 with
    | 0 =>
      if v % 192 == 0 && halfOf v == some true then
        s.setProctor n { p with pvbase := BitVec.ofNat 64 v }
      else s
    | 8 => s.setProctor n { p with epc := BitVec.ofNat 64 v }
    | 32 => s.runLane n (BitVec.ofNat 8 v)
    | _ => s

/-- A register of a die stored by supervisor code; none where the store waits. -/
def State.dieStore (s : State) (d off v : Nat) (bs : List Byte) : Option State :=
  let x := s.die d
  let set (y : Die) : Option State := some (s.setDie d y)
  let lo := v % 2 ^ 64
  let hi := v / 2 ^ 64
  match off with
  | 0x200 => some (s.walkAnswer d bs)
  | 0x240 => if v % 65536 == 0 then some s else set { x with acThresh := v % 65536 }
  | 0x280 => some (s.acQuery d bs)
  | 0x400 => s.shootRequest d bs
  | 0x800 => if poolOk d lo hi false then set { x with spillNew := some (lo, hi) } else some s
  | 0x840 =>
    let g := v % 2 ^ 32
    if 1000 ≤ g && g ≤ 10000000 then set { x with gangBnd := g } else some s
  | 0x880 => if poolOk d lo hi true then set { x with poolNew := some (lo, hi) } else some s
  | 0xA00 => some (s.cpyAnswerStore d bs)
  | 0xA40 => s.pinstall bs
  | 0xA60 => some (s.pdone d v)
  | 0xB00 => if v % 4096 == 0 && v < 2 ^ 52 then set { x with callIdem := v } else some s
  | 0xB40 =>
    let g := v % 2 ^ 32
    if 1000 ≤ g && g ≤ 1000000000 then set { x with bellCtl := g } else some s
  | 0xB80 => some (s.migList d bs)
  | 0x1240 => if 1 ≤ v % 256 then set { x with droopBnd := v % 256 } else some s
  | 0x1380 => some (s.dieStopStore d v)
  | _ => some s

/-- A register of die 0 stored by supervisor code; none where the store waits. -/
def State.deviceRegStore (s : State) (off v : Nat) (bs : List Byte) : Option State :=
  match off with
  | 0x600 => some { s with ctxRoot := v % 2 ^ 52 }
  | 0x1100 => some (s.tearStore v)
  | 0x1140 => some (s.startokStore v)
  | 0x1180 => some { s with measDig := BitVec.ofNat 512 v }
  | 0x11C0 => some (s.measCmd v)
  | 0x1200 => some (s.pwrcapStore v)
  | 0x1280 => some (s.ptpStore v)
  | 0x12C0 => some (s.bootrep bs)
  | 0x1300 => some { s with qNonce := BitVec.ofNat 512 v }
  | 0x1340 => s.quoteCmd v
  | 0x1600 => some (s.ctxControl bs)
  | 0x1680 => some (if leNat ((bs.drop 4).take 1) == 2 then s.unsealCmd bs else s.sealCmd bs)
  | _ => some s

/-- Registers of die 0 that the first stage may store to before the proctor lanes start (R18, R29). -/
def firstStageMay (off : Nat) : Bool :=
  off == 0x1180 || off == 0x11C0 || off == 0x12C0 || off == 0x1300 || off == 0x1340 || off == 0x1680

/-- A store of a whole register by its writer (R23); none where it waits. -/
def State.regStore (s : State) (w : Writer) (d off v : Nat) (bs : List Byte) : Option State :=
  if off == 0x40 then
    if s.mayFmode w d then s.fmodeStore d (BitVec.ofNat 32 v) else some s
  else if w == .firstStage && s.boot.firstStageRuns && d == 0 && firstStageMay off then
    s.deviceRegStore off v bs
  else if !isSupervisor w then some s
  else if 0xC00 ≤ off && off < 0x1080 then some (s.coreStore d off v)
  else if d == 0 && s.deviceRegs.any (fun r => r.start == off) then s.deviceRegStore off v bs
  else s.dieStore d off v bs

/-- Registers that keep the bytes which a narrower store leaves out: those of at most 8 bytes, the digest,
the nonce, the two pools and MIGLIST. A narrower store to another is no command (log entry 57). -/
def keepsBytes (r : Reg) : Bool :=
  r.len ≤ 8 || r.start == 0x1180 || r.start == 0x1300 || r.start == 0x800 || r.start == 0x880
    || r.start == 0xB80

/-- What a register holds where it reads zero but keeps its bytes. -/
def State.heldValue (s : State) (r : Reg) : Nat :=
  if r.start == 0x1180 then s.measDig.toNat else if r.start == 0x1300 then s.qNonce.toNat else r.value

/-- Bytes stored in one register from an offset in it. -/
def State.partStore (s : State) (w : Writer) (d : Nat) (r : Reg) (o : Nat) (bs : List Byte) : Option State :=
  if bs.length != r.len && !keepsBytes r then some s
  else
    let new := r.merged (s.heldValue r) (r.start + o) bs
    s.regStore w d r.start (leNat new) new

/-- One byte stored in the stack windows (R181); RBASE takes its 4 bytes at once. -/
def State.windowStore (s : State) (d off : Nat) (b : Byte) : State :=
  match s.windowWord d off with
  | some (t, k) =>
    let v := (Sparse.get t.store 0 k).toNat
    let i := off % 4
    s.setThread (t.setStore k (BitVec.ofNat 32
      (v % 2 ^ (8 * i) + b.toNat * 2 ^ (8 * i) + v / 2 ^ (8 * (i + 1)) * 2 ^ (8 * (i + 1)))))
  | none => s

/-- Bytes stored to a die's control block, register by register; none where one of them waits. -/
def State.ctlStoreFrom (s : State) (w : Writer) (d : Nat) : Nat → Nat → List Byte → Option State
  | 0, _, _ => some s
  | _, _, [] => some s
  | n + 1, off, b :: bs =>
    if inWindow off then
      (if isSupervisor w then s.windowStore d off b else s).ctlStoreFrom w d n (off + 1) bs
    else if inStack off then
      if off % 32 == 8 && 3 ≤ bs.length && isSupervisor w then
        (s.rbaseStore d ((off - 0x10000) / 32) (leNat ((b :: bs).take 4))).ctlStoreFrom w d n (off + 4)
          (bs.drop 3)
      else s.ctlStoreFrom w d n (off + 1) bs
    else
      match s.regAt d off with
      | none => s.ctlStoreFrom w d n (off + 1) bs
      | some r =>
        let k := min (bs.length + 1) (r.start + r.len - off)
        match s.partStore w d r (off - r.start) ((b :: bs).take k) with
        | none => none
        | some s => s.ctlStoreFrom w d n (off + k) ((b :: bs).drop k)

/-- Bytes stored to a die's control block. -/
def State.ctlStore (s : State) (w : Writer) (d off : Nat) (bs : List Byte) : Option State :=
  s.ctlStoreFrom w d (bs.length + 1) off bs

/-! ## The management window (R30) -/

/-- State word of the management window. -/
def State.mgmtState (s : State) : Nat :=
  b2n s.boot.minimal + b2n s.boot.startok * 2 + b2n s.mw.standIn * 4

/-- A byte of the management window as a host reads it. -/
def State.mgmtByte (s : State) (off : Nat) : Byte :=
  let of_ (start v : Nat) : Byte := BitVec.ofNat 8 (v / 2 ^ (8 * (off - start)))
  if off < 4 then of_ 0 0x4D574B44
  else if off < 8 then of_ 4 s.mgmtState
  else if off < 0x10 then of_ 8 s.boot.failCount.toNat
  else if off < 0x20 then of_ (off / 4 * 4) (s.die ((off - 0x10) / 4)).fmode.toNat
  else if off < 0x28 then of_ 0x20 (b2n s.mw.standIn)
  else if 0x88 ≤ off && off < 0x90 then of_ 0x88 s.mw.quoteStat
  else if 0x100 ≤ off && off < 0x300 then (s.boot.ring.getD ((off - 0x100) / 64) []).getD (off % 64) 0
  else if 0x300 ≤ off && off < 0x500 then of_ (off / 64 * 64) (s.measReg ((off - 0x300) / 64)).toNat
  else if 0x820 ≤ off && off < 0x828 then of_ 0x820 s.mw.maintStat
  else if 0x100000 ≤ off && off < 0x200000 then Sparse.get s.mw.staging 0 (off - 0x100000)
  else 0

/-- A store of a host to a register of the management window, as a whole. -/
def State.mgmtReg (s : State) (off v : Nat) : State :=
  match off with
  | 0x20 => s.standIn v
  | 0x40 => { s with mw := { s.mw with nonce := BitVec.ofNat 512 v } }
  | 0x80 => s.hostQuoteCmd v
  | 0x800 => s.maintRequest v
  | 0x810 => if s.boot.minimal then { s with mw := { s.mw with maintOff := BitVec.ofNat 64 v } } else s
  | 0x818 => if s.boot.minimal then { s with mw := { s.mw with maintLen := BitVec.ofNat 64 v } } else s
  | _ =>
    let d := (off - 0x10) / 4
    if s.mayFmode .host d then (s.fmodeStore d (BitVec.ofNat 32 v)).getD s else s

/-- Registers of the management window that a host may write (R30), each with what the bytes that a narrower
store leaves out keep: what it holds, and zeros of a command (log entry 78). -/
def State.mgmtRegs (s : State) : List Reg :=
  (List.range 4).map (fun d => ⟨0x10 + 4 * d, 4, (s.die d).fmode.toNat⟩)
    ++ [ ⟨0x20, 8, b2n s.mw.standIn⟩, ⟨0x40, 64, s.mw.nonce.toNat⟩, ⟨0x80, 8, 0⟩, ⟨0x800, 8, 0⟩
       , ⟨0x810, 8, s.mw.maintOff.toNat⟩, ⟨0x818, 8, s.mw.maintLen.toNat⟩ ]

/-- Bytes that a host writes below the staging area, register by register; others are ignored. -/
def State.mgmtStoreFrom (s : State) : Nat → Nat → List Byte → State
  | 0, _, _ => s
  | _, _, [] => s
  | n + 1, off, b :: bs =>
    match s.mgmtRegs.find? (fun r => r.holds off) with
    | none => s.mgmtStoreFrom n (off + 1) bs
    | some r =>
      let k := min (bs.length + 1) (r.start + r.len - off)
      (s.mgmtReg r.start (leNat (r.merged r.value off ((b :: bs).take k)))).mgmtStoreFrom n (off + k)
        ((b :: bs).drop k)

/-- A host's write of the management window (R30): staging bytes, or registers. -/
def State.mgmtStore (s : State) (off : Nat) (bs : List Byte) : State :=
  if 0x100000 ≤ off then
    if off + bs.length ≤ 0x200000 then
      { s with mw := { s.mw with staging := Sparse.write s.mw.staging (off - 0x100000) bs } }
    else s
  else s.mgmtStoreFrom bs.length off bs

/-- Whether a request to the management window is refused: one over Ultra Ethernet port 0 outside minimal mode
(R30). -/
def State.portRefuses (s : State) : Bool := s.arg.flag2 && !s.boot.minimal

/-- REGISTER_WRITE (R10). A write to a device register that has no row of its own updates its writable
fields, and reserved fields are ignored. A host's write goes to the management window (R30), through BAR 0 or
through the port path, which refuses it outside minimal mode. -/
def execRegisterWrite (s : State) : Host.Outcome State Fault Refusal :=
  .next (if s.arg.w == .host then (if s.portRefuses then s else s.mgmtStore s.arg.b s.arg.bytes)
    else if s.arg.w == .user then s
    else (s.ctlStore s.arg.w s.arg.a s.arg.b s.arg.bytes).getD s)

end Sys2Proof.Machine
end

