-- ==== Sys2Proof/Machine/Compositor.lean ====
section
/-! DEFINITION. The compositor (R306 to R319): CPY and its checks, the transfer of a copy unit by unit, its
end, WAITK, BARX and BARW, and the timeouts of peers (R298, R312). -/

namespace Sys2Proof.Machine

/-! ## CPY -/

/-- Whether a slot that an override names holds no key (R309). -/
def State.keyless (s : State) (slot : Nat) : Bool :=
  match lookup s.keys slot with | some k => !k.held | none => true

/-- A physical source, or destination, whose override names a slot without a key (R309). -/
def State.srcKeyless (s : State) (d : CpyDesc) : Bool := d.kov && d.ssp == 2 && s.keyless d.skey

def State.dstKeyless (s : State) (d : CpyDesc) : Bool := d.kov && d.dsp == 2 && s.keyless d.dkey

/-- The first galley side, barrier or array that passes its team's galley (R116, R311, step 5). -/
def State.copyBeyond (s : State) (t : Thread) (d : CpyDesc) : Option Nat :=
  let past (addr : Nat) (rs : List (Nat × Nat)) : Option Nat :=
    match s.windowOf t.gang t.team addr with
    | none => some addr
    | some tm => (beyond tm.galley rs).map (fun _ => addr)
  let src : List (Nat × Nat) :=
    if d.ga then [] else [(d.src % 2 ^ 23, (d.rows - 1) * d.sstride + d.srcRow)]
  let dst : List (Nat × Nat) :=
    if d.rb then d.destRanges else [(d.dst % 2 ^ 23, d.extent)]
  let bar : List (Nat × Nat) := if d.ben then [(d.bar, 8)] else []
  (if d.ssp == 1 then past d.src src else none).or (if d.dsp == 1 then past d.dst (dst ++ bar) else none)

/-- CPY once its words are accepted (R311), with the promise's destination. -/
def State.copyIssue (s : State) (h : Hdr) (t : Thread) (dest : Option Nat) (a k : Nat) : State :=
  let regs := t.regsFrom a 8
  let d := cpyDesc regs
  if cpyMalformed regs then s.trap h vIllegal 0x06
  else if !t.sup && (d.ssp == 2 || d.dsp == 2 || d.kov) then s.trap h vPrivilege 0x0C
  else if s.srcKeyless d || s.dstKeyless d then s.trap h vProtection 0x2A
  else
    match cpyMisaligned d with
    | some x => s.trapAddr h vMisalign 0x08 x
    | none =>
      match s.copyBeyond t d with
      | some x => s.trapAddr h vGalley 0x0A x
      | none =>
        match t.tok k with
        | .failed v c x _ => s.tokenTrap t k v c x.toNat
        | .busy _ => s.poll
        | .idle =>
          let (id, s) := s.newId
          let c : Cpy :=
            { id := id, owners := [t.id], core := t.core, slot := t.slot, f := t.f, tok := k, desc := regs
              promise := dest.isSome, left := [], delivered := 0, ctx := t.ctx, sup := t.sup, gang := t.gang
              team := t.team, hist := t.id, issued := s.time, since := s.time, waiting := false, replay := none
              report := Lct.zero, owned := [], pc := t.pc }
          let s := (s.setThread (t.setTok k (.busy id))).enterCopy c
          match dest with
          | some r =>
            { s with fresh := s.fresh + 1 }.finish h r (BitVec.ofNat 64 (s.time + 1 + Config.promiseDelay s.fresh))
          | none => s.advance h

/-- CPY (R310, R311). Starts a compositor copy on a token. -/
def execCpy (h : Hdr) (a : BitVec 7) (k : BitVec 3) (s : State) : Host.Outcome State Fault Refusal :=
  run (.cpy h a k) s (fun s => s.withThread (fun t => s.copyIssue h t none a.toNat k.toNat))

/-- CPY.PROMISE (R310, R319). Starts a compositor copy and writes its completion promise. -/
def execCpyPromise (h : Hdr) (d : BitVec 7) (a : BitVec 7) (k : BitVec 3) (s : State) :
    Host.Outcome State Fault Refusal :=
  run (.cpyPromise h d a k) s (fun s => s.withThread (fun t =>
    s.copyIssue h t (some d.toNat) a.toNat k.toNat))

/-! ## One unit of a copy -/

/-- What comes of an attempt on a unit. -/
inductive CopyTry where
  /-- The copy has moved on, paused or failed. -/
  | went (s : State)
  /-- Nothing can be done before something else happens. -/
  | wait
  /-- A line of the unit is owned by another copy. -/
  | owned
  deriving DecidableEq, Repr

/-- A line that a unit reads or writes: its space, its address there, its kind of access, and where it lies. -/
structure CopyLine where
  space : Nat
  va : Nat
  kind : Nat
  tr : Trans
  deriving DecidableEq, Repr

/-- Translation of a copy's address: a physical side takes the key of its override (R309), and a write that is held
stays blocked (R128). -/
def State.copyTrans (s : State) (c : Cpy) (space va kind : Nat) : Trans :=
  let d := cpyDesc c.desc
  if space == 2 then
    match s.physical va with
    | .ok pa key mt => .ok pa (if d.kov then (if kind == accCopyRead then d.skey else d.dkey) else key) mt
    | r => r
  else if kind == accCopyWrite && s.isHeld c.id c.ctx va then .blocked
  else s.translate c.core c.ctx c.sup va kind

/-- Lines of some ranges of a side, translated. -/
def State.copyLines (s : State) (c : Cpy) (space kind : Nat) (rs : List (Nat × Nat)) : List CopyLine :=
  (dedup (rs.flatMap (fun r => linesOfRange r.1 r.2))).map (fun a => ⟨space, a, kind, s.copyTrans c space a kind⟩)

/-- Address of a row of the source: in its space, or in its window (R308). -/
def CpyDesc.rowBase (d : CpyDesc) (idx : List (Nat × Nat)) (r : Nat) : Nat :=
  let n := if d.ga then (lookup idx r).getD 0 else r
  if d.ssp == 1 then d.src % 2 ^ 23 + n * d.sstride else (d.src + n * d.sstride) % 2 ^ 64

/-- A copy's record of a page fault (R312, R361). -/
def copyFaultPost (c : Cpy) (va cause kind space : Nat) : Post :=
  { kind := 0x02, key := slotOfCtx c.ctx, sup := c.sup, slot := c.slot, lane := c.f, mask := 1
    poster := some c.id
    payload := leBytes 8 va ++ leBytes 8 1
      ++ [BitVec.ofNat 8 cause, BitVec.ofNat 8 kind, BitVec.ofNat 8 space, BitVec.ofNat 8 c.tok, 0, 0, 0, 0]
      ++ leBytes 8 c.pc.toNat }

/-- What stands against the use of some lines by a copy: a trap that fails it, a page fault, a wait. -/
inductive CopyStop where
  | none
  | fail (vector cause va : Nat)
  | page (va cause kind space : Nat)
  | blocked (vas : List Nat)
  | miss (vas : List Nat) (kind : Nat)
  | wait
  | owned
  deriving DecidableEq, Repr

/-- The first failing, faulting or missing translation (R312). -/
def copyTransStop (ls : List CopyLine) : CopyStop :=
  match ls.findSome? (fun l => match l.tr with | .prot x => some (l.va, x) | _ => none) with
  | some (va, x) => .fail vProtection x va
  | none =>
    match ls.findSome? (fun l => match l.tr with | .page x => some (l.va, x, l.kind, l.space) | _ => none) with
    | some (va, x, k, sp) => .page va x k sp
    | none =>
      match ls.filter (fun l => l.tr == .wait) with
      | l :: rest => .miss ((l :: rest).map (·.va)) l.kind
      | [] =>
        match ls.filter (fun l => l.tr == .blocked) with
        | [] => .none
        | bs => .blocked (bs.map (·.va))

/-- Whether the group's own earlier accesses to a line are still to be performed (R313). -/
def State.copyBehind (s : State) (c : Cpy) (line : Nat) : Bool :=
  s.ownFlight c.owners c.id line
    || s.outs.any (fun o => (o.cls == 0 || o.cls == 2) && o.id < c.id && meets o.owners c.owners
        && o.linesOf.contains line)

/-- What stands against the use of translated lines at their homes (R296, R314, R328, R374). -/
def State.copyLineStop (s : State) (c : Cpy) (space : Nat) (l : CopyLine) : CopyStop :=
  let rd := l.kind == accCopyRead
  let acq := maxOf (s.threads.filterMap (fun t => if c.owners.contains t.id then some t.acq else none))
  let proof : CopyStop :=
    if space != 0 then .none
    else if rd then
      match s.proofRead c.ctx l.va 128 acq with
      | .go => .none
      | .wait => .wait
      | .fault => .fail vProof 0x60 0
    else if (s.proofAt c.ctx l.va 128).isSome then .fail vProof 0x61 0
    else .none
  match l.tr with
  | .ok pa _ _ =>
    let line := lineOf pa
    if proof != .none then proof
    else if rd && Sparse.get s.memPoison 0 line != 0 then
      .fail vSoftError (Sparse.get s.memPoison 0 line) l.va
    else if s.buffered line || s.copyBehind c line then .wait
    else if s.cpys.any (fun x => x.owned.contains line
        && (x.id < c.id || (!rd && x.id != c.id && !c.owned.contains line))) then .owned
    else .none
  | _ => .none

/-- The first of some lines' obstacles. -/
def State.copyStopOf (s : State) (c : Cpy) (space : Nat) (ls : List CopyLine) : CopyStop :=
  match copyTransStop ls with
  | .none =>
    (ls.map (s.copyLineStop c space)).foldl (fun x y => if x == .none then y else x) .none
  | r => r

/-- Homes recall their buffered reduction lines before a copy's requests (R296). -/
def State.copyRecall (s : State) (c : Cpy) (ls : List CopyLine) : State :=
  ls.foldl (fun s l => match l.tr with | .ok pa _ _ => s.recallOwn c.id (lineOf pa) | _ => s) s

/-- What an obstacle does to the copy. -/
def State.copyObstacle (s : State) (c : Cpy) : CopyStop → CopyTry
  | .none => .wait
  | .wait => .wait
  | .owned => .owned
  | .fail v x va => .went ((s.copyFail c v x va).endWalks c.core c.ctx [va])
  | .blocked vas => .went (vas.foldl (fun (s : State) va => s.hold c.id c.ctx va) s)
  | .page va x k sp =>
    match s.postAll c.core [copyFaultPost c va x k sp] with
    | some s => .went ((s.setCpy { c with waiting := true }).endWalks c.core c.ctx [va])
    | none => .wait
  | .miss vas k =>
    let s' := vas.foldl (fun s va => s.startWalk c.core c.ctx c.sup va k) s
    if s'.walks == s.walks then .wait else .went s'

/-- A byte of a line that a copy has translated, with what a peer or the host sent for it (R313). -/
def State.copyByte (s : State) (c : Cpy) (ls : List CopyLine) (ext : List (Nat × List Byte)) (a : Nat) : Byte :=
  match ls.find? (fun l => l.va == lineOf a) with
  | some l =>
    match l.tr with
    | .ok pa key _ =>
      let pa := pa + a % 128
      match lookup ext (lineOf a), regionOf pa with
      | some bs, _ => bs.getD (a % 128) 0
      | none, .ctl d off => s.ctlByte d off
      | none, _ => s.seenByte c.core (s.histsOf c.owners) (lineOf pa) key (pa % 128)
    | _ => 0
  | none => 0

/-- Lines outside the device with the bytes that came for them, 128 each in their order. -/
def extLines (ls : List CopyLine) (bs : List Byte) : List (Nat × List Byte) :=
  ((ls.filter (fun l => match l.tr with | .ok pa _ _ => isHost pa || isPeer pa | _ => false)).mapIdx
    (fun i l => (l.va, (bs.drop (128 * i)).take 128))).filter (fun e => e.2.length == 128)

/-- Scope of a copy's writes to memory: .dev (R348). -/
def copyScope : Nat := 4

/-- Bytes of a unit written to a line of memory (R313); a peer reports when they are visible (R343). -/
def State.copyWriteMem (s : State) (c : Cpy) (pa key mt : Nat) (bs : List Byte) : Option State :=
  let line := lineOf pa
  let offs := bs.mapIdx (fun i b => (pa % 128 + i, b))
  match regionOf pa with
  | .ctl d off =>
    (s.ctlStore (.sup c.core) d off bs).map (fun s =>
      s.report [c.id] (Lct.all (s.time + s.guardOf (dieOf c.core) pa)) 0)
  | .peer n =>
    some ((s.sendPacket n 1 0 bs.length [(pa, leNat bs, 0)]).report [c.id] (Lct.all (s.arg.b + s.skew)) 0)
  | _ =>
    some (s.land { core := c.core, scope := copyScope, key := key, mt := mt, cache := 0, hists := [c.hist]
                   outs := [c.id], arr := none, notBefore := 0 } line offs)

/-- A unit is written: it leaves the copy's list, its line is owned no more where no other unit lies in
it, and its sectors arrive at the barrier (R314, R317). -/
def State.copyUnitDone (s : State) (c : Cpy) (n : Nat) (u : CopyUnit) (pa : Option Nat) : State :=
  let d := cpyDesc c.desc
  let us := d.units
  let c := (s.cpy? c.id).getD c
  let left := c.left.filter (· != n)
  let others := left.filterMap (fun m => us[m]?)
  let line := lineOf (d.unitAt u).1
  let owned := match pa with
    | some p => if others.any (fun v => lineOf (d.unitAt v).1 == line) then c.owned
        else c.owned.filter (· != lineOf p)
    | none => c.owned
  let k := if d.ben then d.sectorsDone u others else 0
  let s := if k == 0 then s else s.copyBarrier c (barArrive k)
  s.setCpy { c with left := left, owned := owned, delivered := c.delivered + k, since := s.time }

/-- Line requests of a unit counted (R129): a re-blocked slab reads its source once. -/
def State.copyCount (s : State) (c : Cpy) (u : CopyUnit) (ls : List CopyLine) : State :=
  let once := match u with | .plane _ q => q == 0 | _ => true
  if once then ls.foldl (fun s l => s.countAccess c.core c.ctx l.va) s else s

/-- Gathered rows that a unit needs, with the addresses of their indices (R308). -/
def CpyDesc.indexAddrs (d : CpyDesc) (needs : List (Nat × Nat × Nat)) : List (Nat × Nat) :=
  if d.ga then (dedup (needs.map (·.1))).map (fun r => (r, d.idx + 4 * r)) else []

/-- A copy reads what a unit needs and writes it (R312): every line is translated, then nothing may stand
against any of them. -/
def State.copyUnit (s : State) (c : Cpy) (n : Nat) (u : CopyUnit) : CopyTry :=
  let d := cpyDesc c.desc
  let needs := d.needs u
  let ia := d.indexAddrs needs
  let il := s.copyLines c 0 accCopyRead (ia.map (fun e => (e.2, 4)))
  let s := s.copyRecall c il
  match s.copyStopOf c 0 il with
  | .none =>
    let idx := ia.map (fun e =>
      (e.1, leNat ((List.range 4).map (fun i => s.copyByte c il [] (e.2 + i)))))
    let ranges := needs.map (fun e => (d.rowBase idx e.1 + e.2.1, e.2.2))
    let sl := if d.ssp == 1 then [] else s.copyLines c d.ssp accCopyRead ranges
    let (ua, ulen) := d.unitAt u
    let dl := if d.dsp == 1 then [] else s.copyLines c d.dsp accCopyWrite [(ua, ulen)]
    let s := s.copyRecall c (sl ++ dl)
    if s.srcKeyless d && !ranges.isEmpty then .went (s.copyFail c vProtection 0x2A d.src)
    else if s.dstKeyless d then .went (s.copyFail c vProtection 0x2A d.dst)
    else
      match s.copyStopOf c d.ssp sl, s.copyStopOf c d.dsp dl with
      | .none, .none =>
        let src := s.windowOf c.gang c.team d.src
        let dst := s.windowOf c.gang c.team d.dst
        let srcResv : List Resv := match src with
          | some tm => if d.ssp == 1 then ranges.map (fun r => ⟨c.id, tm.id, r.1, r.2, false⟩) else []
          | none => []
        let dstResv := if d.dsp == 1 then s.cpyResv c else []
        let size := match src with | some tm => tm.galley | none => 0
        let bad := if d.ssp == 1 then (beyond size ranges) else none
        let sick := match src with
          | some tm => d.ssp == 1 && ranges.any (fun r => s.galPoisoned tm r.1 r.2)
          | none => false
        if bad.isSome then .went (s.copyFail c vGalley 0x0A d.src)
        else if s.engineWaits (srcResv ++ dstResv) || s.earlierLoads c.owners c.id then .wait
        else if sick then .went (s.copyFail c vSoftError 0x91 d.src)
        else
          let ext := extLines sl s.arg.bytes
          let f (r o : Nat) : Byte :=
            let a := d.rowBase idx r + o
            if d.ssp == 1 then (match src with | some tm => s.galByte tm a | none => 0)
            else s.copyByte c sl ext a
          let bs := d.bytes f u
          let s := s.copyCount c u (il ++ (if d.ssp == 0 then sl else []) ++ (if d.dsp == 0 then dl else []))
          let s := s.countMisses (sl.filterMap (fun l => match l.tr with
            | .ok pa key mt => some ⟨0, .mem pa key mt, 1, [], 0, 0, 0⟩ | _ => none))
          match d.dsp == 1, dst, dl with
          | true, some tm, _ =>
            .went (((s.galWrite tm (bs.mapIdx (fun i b => (ua + i, b)))).report [c.id] (Lct.all s.time) 0).copyUnitDone
              c n u none)
          | false, _, [l] =>
            match l.tr with
            | .ok pa key mt =>
              match s.copyWriteMem c (pa + ua % 128) key mt bs with
              | some s => .went (s.copyUnitDone c n u (some pa))
              | none => .wait
            | _ => .wait
          | _, _, _ => .wait
      | .none, r => s.copyObstacle c r
      | r, _ => s.copyObstacle c r
  | r => s.copyObstacle c r

/-- The first of a copy's units, in order, that is not behind a line of another copy. -/
def State.copyFirst (s : State) (c : Cpy) (us : List CopyUnit) : List Nat → Option State
  | [] => none
  | n :: ns =>
    match us[n]? with
    | none => none
    | some u =>
      match s.copyUnit c n u with
      | .went s => some s
      | .wait => none
      | .owned => s.copyFirst c us ns

/-- COPY_LINE_TRANSFER (R312). A compositor copy translates, reads and writes one destination line, pausing
on a page fault or failing its token. -/
def execCopyLineTransfer (s : State) : Host.Outcome State Fault Refusal :=
  .next (match s.cpy? s.arg.a with
    | some c =>
      if c.waiting || c.replay.isSome || (s.die (dieOf c.core)).stopped then s
      else
        let s' := s.takeLines c (s.ownableLines c)
        let c := (s'.cpy? c.id).getD c
        (s'.copyFirst c (cpyDesc c.desc).units c.left).getD s'
    | none => s)

/-- COPY_COMPLETE (R313). A copy completes once every destination byte is written, idles its token and
enters the issuer's LCT values, once the times of its writes are known (R335). -/
def execCopyComplete (s : State) : Host.Outcome State Fault Refusal :=
  .next (match s.cpy? s.arg.a with
    | some c => if c.left.isEmpty && c.replay.isNone && !s.timesOpen c.id then s.copyEnd c else s
    | none => s)

/-! ## Peers that do not answer -/

/-- Lines that a unit still to be written reads or writes, as far as they can be told now: of its index array, of its
source and of its destination (R308). -/
def State.unitLines (s : State) (c : Cpy) (u : CopyUnit) : List CopyLine :=
  let d := cpyDesc c.desc
  let needs := d.needs u
  let ia := d.indexAddrs needs
  let il := s.copyLines c 0 accCopyRead (ia.map (fun e => (e.2, 4)))
  let idx := ia.map (fun e => (e.1, leNat ((List.range 4).map (fun i => s.copyByte c il [] (e.2 + i)))))
  il ++ (if d.ssp == 1 then []
      else s.copyLines c d.ssp accCopyRead (needs.map (fun e => (d.rowBase idx e.1 + e.2.1, e.2.2))))
    ++ (if d.dsp == 1 then [] else s.copyLines c d.dsp accCopyWrite [d.unitAt u])

/-- Whether a copy still has something to read from or write to a peer window. -/
def State.copyPeer (s : State) (c : Cpy) : Bool :=
  let us := (cpyDesc c.desc).units
  (c.left.filterMap (fun n => us[n]?)).any (fun u =>
    (s.unitLines c u).any (fun l => match l.tr with | .ok pa _ _ => isPeer pa | _ => false))

/-- PEER_TIMEOUT (R298, R312). A peer packet without a reply within 12 µs gives its lanes the peer timeout
fault, or fails its copy. -/
def execPeerTimeout (s : State) : Host.Outcome State Fault Refusal :=
  .next (match s.cpy? s.arg.a with
    | some c =>
      if c.since + peerWait ≤ s.time && c.replay.isNone && !c.waiting && s.copyPeer c then
        s.copyFail c vPeerTimeout 0x80 0
      else s
    | none => s.peerTimeout s.arg.a (lineOf s.arg.b))

/-! ## Tokens and barriers -/

/-- WAITK (R315). Parks until the named tokens are idle or failed, and reports failures. -/
def execWaitk (h : Hdr) (m : BitVec 8) (s : State) : Host.Outcome State Fault Refusal :=
  run (.waitk h m) s (fun s => s.withThread (fun t =>
    let ks := (List.range 8).filter (fun k => m.getLsbD k)
    if ks.any (fun k => match t.tok k with | .busy _ => true | _ => false) then s.poll
    else
      match ks.findSome? (fun k => match t.tok k with
          | .failed v c a _ => some (k, v, c, a) | _ => none) with
      | some (k, v, c, a) => s.tokenTrap t k v c a.toNat
      | none => s.advance h))

/-- A barrier word addressed by a register, once its address is checked (R316, R318). -/
def State.withBarrier (s : State) (h : Hdr) (t : Thread) (addr : Nat) (f : Team → Nat → State) : State :=
  if addr % 8 != 0 then s.trapAddr h vMisalign 0x08 addr
  else
    match s.galleyAt t.gang t.team addr 8 with
    | some (tm, off) => f tm off
    | none => s.trapAddr h vGalley 0x0A addr

/-- The word after BARX (R318): a new expected count, and with RST no arrivals and no abort. -/
def barSet (rst : Bool) (n v : Nat) : Nat :=
  if rst then n * 2 ^ 32 else (if bit v 63 then 2 ^ 63 else 0) + n * 2 ^ 32 + v % 2 ^ 31

/-- BARX (R318). Sets a sector barrier's expected count, optionally resetting it. -/
def execBarx (h : Hdr) (x : BitVec 7) (a : BitVec 7) (r : BitVec 1) (s : State) :
    Host.Outcome State Fault Refusal :=
  run (.barx h x a r) s (fun s => s.withThread (fun t =>
    let n := (t.sreg x.toNat).toNat
    if n / 2 ^ 31 != 0 then s.trap h vIllegal 0x06
    else
      s.withBarrier h t (t.sreg a.toNat).toNat (fun tm off =>
        (s.barrier tm off (barSet (r == 1) n)).advance h)))

/-- BARW (R318). Parks until a sector barrier completes or aborts. -/
def execBarw (h : Hdr) (d : BitVec 7) (a : BitVec 7) (s : State) : Host.Outcome State Fault Refusal :=
  run (.barw h d a) s (fun s => s.withThread (fun t =>
    s.withBarrier h t (t.sreg a.toNat).toNat (fun tm off =>
      let v := leNat (s.galRead tm off 8)
      if bit v 63 || bits v 32 31 ≤ v % 2 ^ 31 then
        (s.setSreg d.toNat (if bit v 63 then 1 else 0)).advance h
      else s.poll)))

end Sys2Proof.Machine
end

