-- ==== Sys2Proof/Machine/VectorInt.lean ====
section
/-! DEFINITION. Vector integer, logic, predicate and immediate instructions, OPs 0x40 to 0x7E
(R219 to R227). Each acts on the active lanes (R139); inactive lanes keep their destinations, and no
flag is set. -/

namespace Sys2Proof.Machine

/-- The sub-elements of w bits of an operand of n bits, each computed from its index. -/
def elems (w n : Nat) (f : Nat → Nat) : Nat :=
  ((List.range (n / w)).map (fun e => f e % 2 ^ w * 2 ^ (w * e))).foldl (· + ·) 0

/-- Sub-element e of w bits. -/
def elem (w v e : Nat) : Nat := bits v (w * e) w

/-- An operand of one register, or of a pair (R48). -/
def Thread.vval (t : Thread) (pair : Bool) (r l : Nat) : Nat :=
  if pair then (t.vpair r l).toNat else (t.vreg r l).toNat

def Thread.setVval (t : Thread) (pair : Bool) (r l v : Nat) : Thread :=
  if pair then t.setVpair r l (BitVec.ofNat 64 v) else t.setVreg r l (BitVec.ofNat 32 v)

/-- Element width of a type selector of OPs 0x40 to 0x66 (R158). -/
def viWidth (t : BitVec 2) : Nat := 8 * 2 ^ t.toNat

/-- The thread after a per-lane effect on the active lanes, going on to the next instruction. -/
def perLane (h : Hdr) (s : State) (f : Thread → Nat → Thread) : State :=
  s.withThread (fun t => (s.setThread (overLanes (active t h) t f)).advance h)

/-- An elementwise operation on a, b and the old d (R219). -/
def viOp (i : Instr) (h : Hdr) (d a b : BitVec 6) (t : BitVec 2) (s : State)
    (f : Nat → Nat → Nat → Nat → Nat) : Host.Outcome State Fault Refusal :=
  run i s (fun s => perLane h s (fun th l =>
    let pair := t == 3
    let x := th.vval pair a.toNat l
    let y := th.vval pair b.toNat l
    let z := th.vval pair d.toNat l
    let w := viWidth t
    th.setVval pair d.toNat l
      (elems w (if pair then 64 else 32) (fun e => f w (elem w x e) (elem w y e) (elem w z e)))))

/-- A whole-register operation of one source, .b32 or .b64 (R158, R221): the operand's width and
value. -/
def viOne (i : Instr) (h : Hdr) (d a : BitVec 6) (t : BitVec 2) (s : State) (f : Nat → Nat → Nat) :
    Host.Outcome State Fault Refusal :=
  run i s (fun s => perLane h s (fun th l =>
    let pair := t == 1
    th.setVval pair d.toNat l (f (if pair then 64 else 32) (th.vval pair a.toNat l))))

/-- A comparison into a predicate: true when the condition holds for every sub-element (R223). -/
def viSet (i : Instr) (h : Hdr) (d a b : BitVec 6) (t : BitVec 2) (s : State)
    (f : Nat → Nat → Nat → Bool) : Host.Outcome State Fault Refusal :=
  run i s (fun s => perLane h s (fun th l =>
    let pair := t == 3
    let x := th.vval pair a.toNat l
    let y := th.vval pair b.toNat l
    let w := viWidth t
    th.setPred d.toNat l
      ((List.range ((if pair then 64 else 32) / w)).all (fun e => f w (elem w x e) (elem w y e)))))

/-- An operation with a uniform source, on 32-bit elements (R224): f is given a and all of s[b]. -/
def vsOp (i : Instr) (h : Hdr) (d a : BitVec 6) (b : BitVec 7) (s : State) (f : Nat → Nat → Nat) :
    Host.Outcome State Fault Refusal :=
  run i s (fun s => perLane h s (fun th l =>
    th.setVreg d.toNat l
      (BitVec.ofNat 32 (f (th.vreg a.toNat l).toNat (th.sreg b.toNat).toNat))))

/-- A predicate operation (R225). -/
def predOp (i : Instr) (h : Hdr) (d : BitVec 6) (s : State) (f : Thread → Nat → Bool) :
    Host.Outcome State Fault Refusal :=
  run i s (fun s => perLane h s (fun th l => th.setPred d.toNat l (f th l)))

/-- An operation with an immediate, on 32-bit elements (R227). -/
def immOp (i : Instr) (h : Hdr) (d a : BitVec 6) (s : State) (f : W32 → W32) :
    Host.Outcome State Fault Refusal :=
  run i s (fun s => perLane h s (fun th l => th.setVreg d.toNat l (f (th.vreg a.toNat l))))

/-- Saturation to the signed range of w bits. -/
def satS (w : Nat) (i : Int) : Nat := wrap w (max (-(2 ^ (w - 1))) (min (2 ^ (w - 1) - 1) i))

/-- Saturation to the unsigned range of w bits. -/
def satN (w : Nat) (i : Int) : Nat := (max 0 (min (2 ^ w - 1) i)).toNat

/-- Left shift; 0 from the width up (R221). -/
def shiftL (w a b : Nat) : Nat := if w ≤ b then 0 else a * 2 ^ b % 2 ^ w

/-- Logical right shift; 0 from the width up (R221). -/
def shiftR (w a b : Nat) : Nat := if w ≤ b then 0 else a / 2 ^ b

/-- Arithmetic right shift; sign fill from the width up (R221). -/
def shiftA (w a b : Nat) : Nat := wrap w (sextInt w a / 2 ^ min b w)

/-- Bit-field position and length that b holds for w-bit elements (R221). -/
def fieldOf (w b : Nat) : Nat × Nat :=
  let k := Nat.log2 w
  let pos := b % 2 ^ k
  (pos, min (bits b k (k + 1)) (w - pos))

/-- A number with its w bits in reverse order. -/
def reverseBits (w a : Nat) : Nat :=
  ((List.range w).map (fun i => if bit a i then 2 ^ (w - 1 - i) else 0)).foldl (· + ·) 0

/-- One bit of BFN (R222): code g's value at (x, y). -/
def bfnBit (code : Nat) (x y : Bool) : Bool := bit code (2 * b2n x + b2n y)

/-- BFN on operands of n bits (R222). -/
def bfnWord (n f a b c : Nat) : Nat :=
  ((List.range n).map (fun i =>
    if (if bit c i then bfnBit (f / 16 % 16) (bit a i) (bit b i)
        else bfnBit (f % 16) (bit a i) (bit b i)) then 2 ^ i else 0)).foldl (· + ·) 0


/-- IADD (R220). Vector integer add. -/
def execIadd (h : Hdr) (d : BitVec 6) (a : BitVec 6) (b : BitVec 6) (t : BitVec 2) (s : State) : Host.Outcome State Fault Refusal :=
  viOp (.iadd h d a b t) h d a b t s (fun _ a b _ => a + b)

/-- ISUB (R220). Vector integer subtract. -/
def execIsub (h : Hdr) (d : BitVec 6) (a : BitVec 6) (b : BitVec 6) (t : BitVec 2) (s : State) : Host.Outcome State Fault Refusal :=
  viOp (.isub h d a b t) h d a b t s (fun w a b _ => wrap w ((a : Int) - b))

/-- IMUL (R220). Vector integer multiply, low bits. -/
def execImul (h : Hdr) (d : BitVec 6) (a : BitVec 6) (b : BitVec 6) (t : BitVec 2) (s : State) : Host.Outcome State Fault Refusal :=
  viOp (.imul h d a b t) h d a b t s (fun _ a b _ => a * b)

/-- IMULHS (R220). Vector signed multiply, high bits. -/
def execImulhs (h : Hdr) (d : BitVec 6) (a : BitVec 6) (b : BitVec 6) (t : BitVec 2) (s : State) : Host.Outcome State Fault Refusal :=
  viOp (.imulhs h d a b t) h d a b t s (fun w a b _ => wrap w (sextInt w a * sextInt w b / 2 ^ w))

/-- IMULHN (R220). Vector unsigned multiply, high bits. -/
def execImulhn (h : Hdr) (d : BitVec 6) (a : BitVec 6) (b : BitVec 6) (t : BitVec 2) (s : State) : Host.Outcome State Fault Refusal :=
  viOp (.imulhn h d a b t) h d a b t s (fun w a b _ => a * b / 2 ^ w)

/-- IMAD (R220). Vector integer multiply-add into the destination. -/
def execImad (h : Hdr) (d : BitVec 6) (a : BitVec 6) (b : BitVec 6) (t : BitVec 2) (s : State) : Host.Outcome State Fault Refusal :=
  viOp (.imad h d a b t) h d a b t s (fun _ a b d => a * b + d)

/-- IADDSS (R220). Vector signed saturating add. -/
def execIaddss (h : Hdr) (d : BitVec 6) (a : BitVec 6) (b : BitVec 6) (t : BitVec 2) (s : State) : Host.Outcome State Fault Refusal :=
  viOp (.iaddss h d a b t) h d a b t s (fun w a b _ => satS w (sextInt w a + sextInt w b))

/-- IADDSN (R220). Vector unsigned saturating add. -/
def execIaddsn (h : Hdr) (d : BitVec 6) (a : BitVec 6) (b : BitVec 6) (t : BitVec 2) (s : State) : Host.Outcome State Fault Refusal :=
  viOp (.iaddsn h d a b t) h d a b t s (fun w a b _ => satN w ((a : Int) + b))

/-- ISUBSS (R220). Vector signed saturating subtract. -/
def execIsubss (h : Hdr) (d : BitVec 6) (a : BitVec 6) (b : BitVec 6) (t : BitVec 2) (s : State) : Host.Outcome State Fault Refusal :=
  viOp (.isubss h d a b t) h d a b t s (fun w a b _ => satS w (sextInt w a - sextInt w b))

/-- ISUBSN (R220). Vector unsigned saturating subtract. -/
def execIsubsn (h : Hdr) (d : BitVec 6) (a : BitVec 6) (b : BitVec 6) (t : BitVec 2) (s : State) : Host.Outcome State Fault Refusal :=
  viOp (.isubsn h d a b t) h d a b t s (fun w a b _ => satN w ((a : Int) - b))

/-- IMINS (R220). Vector signed minimum. -/
def execImins (h : Hdr) (d : BitVec 6) (a : BitVec 6) (b : BitVec 6) (t : BitVec 2) (s : State) : Host.Outcome State Fault Refusal :=
  viOp (.imins h d a b t) h d a b t s (fun w a b _ => if sextInt w b < sextInt w a then b else a)

/-- IMINN (R220). Vector unsigned minimum. -/
def execIminn (h : Hdr) (d : BitVec 6) (a : BitVec 6) (b : BitVec 6) (t : BitVec 2) (s : State) : Host.Outcome State Fault Refusal :=
  viOp (.iminn h d a b t) h d a b t s (fun _ a b _ => min a b)

/-- IMAXS (R220). Vector signed maximum. -/
def execImaxs (h : Hdr) (d : BitVec 6) (a : BitVec 6) (b : BitVec 6) (t : BitVec 2) (s : State) : Host.Outcome State Fault Refusal :=
  viOp (.imaxs h d a b t) h d a b t s (fun w a b _ => if sextInt w a < sextInt w b then b else a)

/-- IMAXN (R220). Vector unsigned maximum. -/
def execImaxn (h : Hdr) (d : BitVec 6) (a : BitVec 6) (b : BitVec 6) (t : BitVec 2) (s : State) : Host.Outcome State Fault Refusal :=
  viOp (.imaxn h d a b t) h d a b t s (fun _ a b _ => max a b)

/-- IABS (R220). Vector signed absolute value. -/
def execIabs (h : Hdr) (d : BitVec 6) (a : BitVec 6) (t : BitVec 2) (s : State) : Host.Outcome State Fault Refusal :=
  viOp (.iabs h d a t) h d a 0 t s (fun w a _ _ => wrap w (sextInt w a).natAbs)

/-- INEG (R220). Vector integer negate. -/
def execIneg (h : Hdr) (d : BitVec 6) (a : BitVec 6) (t : BitVec 2) (s : State) : Host.Outcome State Fault Refusal :=
  viOp (.ineg h d a t) h d a 0 t s (fun w a _ _ => wrap w (-(a : Int)))

/-- AND (R221). Vector bitwise and. -/
def execAndV (h : Hdr) (d : BitVec 6) (a : BitVec 6) (b : BitVec 6) (t : BitVec 2) (s : State) : Host.Outcome State Fault Refusal :=
  viOp (.andV h d a b t) h d a b t s (fun _ a b _ => a &&& b)

/-- OR (R221). Vector bitwise or. -/
def execOrV (h : Hdr) (d : BitVec 6) (a : BitVec 6) (b : BitVec 6) (t : BitVec 2) (s : State) : Host.Outcome State Fault Refusal :=
  viOp (.orV h d a b t) h d a b t s (fun _ a b _ => a ||| b)

/-- XOR (R221). Vector bitwise exclusive or. -/
def execXorV (h : Hdr) (d : BitVec 6) (a : BitVec 6) (b : BitVec 6) (t : BitVec 2) (s : State) : Host.Outcome State Fault Refusal :=
  viOp (.xorV h d a b t) h d a b t s (fun _ a b _ => a ^^^ b)

/-- ANDN (R221). Vector and with the complement of b. -/
def execAndn (h : Hdr) (d : BitVec 6) (a : BitVec 6) (b : BitVec 6) (t : BitVec 2) (s : State) : Host.Outcome State Fault Refusal :=
  viOp (.andn h d a b t) h d a b t s (fun w a b _ => a &&& (2 ^ w - 1 - b))

/-- SHL (R221). Vector shift left. -/
def execShlV (h : Hdr) (d : BitVec 6) (a : BitVec 6) (b : BitVec 6) (t : BitVec 2) (s : State) : Host.Outcome State Fault Refusal :=
  viOp (.shlV h d a b t) h d a b t s (fun w a b _ => shiftL w a b)

/-- SHR (R221). Vector logical shift right. -/
def execShrV (h : Hdr) (d : BitVec 6) (a : BitVec 6) (b : BitVec 6) (t : BitVec 2) (s : State) : Host.Outcome State Fault Refusal :=
  viOp (.shrV h d a b t) h d a b t s (fun w a b _ => shiftR w a b)

/-- SAR (R221). Vector arithmetic shift right. -/
def execSarV (h : Hdr) (d : BitVec 6) (a : BitVec 6) (b : BitVec 6) (t : BitVec 2) (s : State) : Host.Outcome State Fault Refusal :=
  viOp (.sarV h d a b t) h d a b t s (fun w a b _ => shiftA w a b)

/-- ROTL (R221). Vector rotate left. -/
def execRotl (h : Hdr) (d : BitVec 6) (a : BitVec 6) (b : BitVec 6) (t : BitVec 2) (s : State) : Host.Outcome State Fault Refusal :=
  viOp (.rotl h d a b t) h d a b t s (fun w a b _ => a * 2 ^ (b % w) + a / 2 ^ (w - b % w))

/-- BFX (R221). Vector bit-field extract. -/
def execBfx (h : Hdr) (d : BitVec 6) (a : BitVec 6) (b : BitVec 6) (t : BitVec 2) (s : State) : Host.Outcome State Fault Refusal :=
  viOp (.bfx h d a b t) h d a b t s (fun w a b _ => a / 2 ^ (fieldOf w b).1 % 2 ^ (fieldOf w b).2)

/-- BFI (R221). Vector bit-field insert. -/
def execBfi (h : Hdr) (d : BitVec 6) (a : BitVec 6) (b : BitVec 6) (t : BitVec 2) (s : State) : Host.Outcome State Fault Refusal :=
  viOp (.bfi h d a b t) h d a b t s (fun w a b d => let (p, n) := fieldOf w b; d - bits d p n * 2 ^ p + a % 2 ^ n * 2 ^ p)

/-- NOT (R221). Vector bitwise not. -/
def execNotV (h : Hdr) (d : BitVec 6) (a : BitVec 6) (t : BitVec 2) (s : State) : Host.Outcome State Fault Refusal :=
  viOne (.notV h d a t) h d a t s (fun w a => 2 ^ w - 1 - a)

/-- POPC (R221). Vector population count. -/
def execPopc (h : Hdr) (d : BitVec 6) (a : BitVec 6) (t : BitVec 2) (s : State) : Host.Outcome State Fault Refusal :=
  viOne (.popc h d a t) h d a t s (fun w a => popcount w a)

/-- CLZ (R221). Vector count of leading zeros. -/
def execClz (h : Hdr) (d : BitVec 6) (a : BitVec 6) (t : BitVec 2) (s : State) : Host.Outcome State Fault Refusal :=
  viOne (.clz h d a t) h d a t s (fun w a => w - bitLen a)

/-- BREV (R221). Vector bit reverse. -/
def execBrev (h : Hdr) (d : BitVec 6) (a : BitVec 6) (t : BitVec 2) (s : State) : Host.Outcome State Fault Refusal :=
  viOne (.brev h d a t) h d a t s (fun w a => reverseBits w a)

/-- BPERM (R221). Vector element permute within an operand. -/
def execBperm (h : Hdr) (d : BitVec 6) (a : BitVec 6) (b : BitVec 6) (t : BitVec 2) (s : State) : Host.Outcome State Fault Refusal :=
  run (.bperm h d a b t) s (fun s => perLane h s (fun th l =>
    let pair := t == 3
    let x := th.vval pair a.toNat l
    let y := th.vval pair b.toNat l
    let w := viWidth t
    let n := (if pair then 64 else 32) / w
    th.setVval pair d.toNat l
      (elems w (if pair then 64 else 32) (fun e => elem w x (elem w y e % n)))))

/-- MOV (R221). Vector register move. -/
def execMovV (h : Hdr) (d : BitVec 6) (a : BitVec 6) (t : BitVec 2) (s : State) : Host.Outcome State Fault Refusal :=
  viOne (.movV h d a t) h d a t s (fun _ a => a)

/-- BFN (R222). Applies a selected Boolean function of three inputs bit by bit. Third source: field X; functions: s[Y]. -/
def execBfn (h : Hdr) (d : BitVec 6) (a : BitVec 6) (b : BitVec 6) (t : BitVec 2) (s : State) : Host.Outcome State Fault Refusal :=
  run (.bfn h d a b t) s (fun s => perLane h s (fun th l =>
    let pair := t == 3
    th.setVval pair d.toNat l
      (bfnWord (if pair then 64 else 32) ((th.sreg (regxY h)).toNat % 256) (th.vval pair a.toNat l)
        (th.vval pair b.toNat l) (th.vval pair (regxX h) l))))

/-- SEL (R222). Selects a or b per lane by a predicate. The predicate is field X. -/
def execSelV (h : Hdr) (d : BitVec 6) (a : BitVec 6) (b : BitVec 6) (t : BitVec 2) (s : State) : Host.Outcome State Fault Refusal :=
  run (.selV h d a b t) s (fun s => perLane h s (fun th l =>
    let pair := t == 3
    th.setVval pair d.toNat l
      (if th.pred (regxX h) l then th.vval pair a.toNat l else th.vval pair b.toNat l)))

/-- ISETEQ (R223). Sets a predicate on integer equal. -/
def execIseteq (h : Hdr) (d : BitVec 6) (a : BitVec 6) (b : BitVec 6) (t : BitVec 2) (s : State) : Host.Outcome State Fault Refusal :=
  viSet (.iseteq h d a b t) h d a b t s (fun _ a b => a == b)

/-- ISETNE (R223). Sets a predicate on integer not equal. -/
def execIsetne (h : Hdr) (d : BitVec 6) (a : BitVec 6) (b : BitVec 6) (t : BitVec 2) (s : State) : Host.Outcome State Fault Refusal :=
  viSet (.isetne h d a b t) h d a b t s (fun _ a b => a != b)

/-- ISETLTS (R223). Sets a predicate on signed less than. -/
def execIsetlts (h : Hdr) (d : BitVec 6) (a : BitVec 6) (b : BitVec 6) (t : BitVec 2) (s : State) : Host.Outcome State Fault Refusal :=
  viSet (.isetlts h d a b t) h d a b t s (fun w a b => decide (sextInt w a < sextInt w b))

/-- ISETLTN (R223). Sets a predicate on unsigned less than. -/
def execIsetltn (h : Hdr) (d : BitVec 6) (a : BitVec 6) (b : BitVec 6) (t : BitVec 2) (s : State) : Host.Outcome State Fault Refusal :=
  viSet (.isetltn h d a b t) h d a b t s (fun _ a b => decide (a < b))

/-- ISETLES (R223). Sets a predicate on signed less than or equal. -/
def execIsetles (h : Hdr) (d : BitVec 6) (a : BitVec 6) (b : BitVec 6) (t : BitVec 2) (s : State) : Host.Outcome State Fault Refusal :=
  viSet (.isetles h d a b t) h d a b t s (fun w a b => decide (sextInt w a ≤ sextInt w b))

/-- ISETLEN (R223). Sets a predicate on unsigned less than or equal. -/
def execIsetlen (h : Hdr) (d : BitVec 6) (a : BitVec 6) (b : BitVec 6) (t : BitVec 2) (s : State) : Host.Outcome State Fault Refusal :=
  viSet (.isetlen h d a b t) h d a b t s (fun _ a b => decide (a ≤ b))

/-- IADDU (R224). Adds a uniform operand to each lane. -/
def execIaddu (h : Hdr) (d : BitVec 6) (a : BitVec 6) (b : BitVec 7) (s : State) : Host.Outcome State Fault Refusal :=
  vsOp (.iaddu h d a b) h d a b s (fun a c => a + c % 2 ^ 32)

/-- ISUBU (R224). Subtracts a uniform operand from each lane. -/
def execIsubu (h : Hdr) (d : BitVec 6) (a : BitVec 6) (b : BitVec 7) (s : State) : Host.Outcome State Fault Refusal :=
  vsOp (.isubu h d a b) h d a b s (fun a c => wrap 32 ((a : Int) - (c % 2 ^ 32 : Nat)))

/-- IMULU (R224). Multiplies each lane by a uniform operand. -/
def execImulu (h : Hdr) (d : BitVec 6) (a : BitVec 6) (b : BitVec 7) (s : State) : Host.Outcome State Fault Refusal :=
  vsOp (.imulu h d a b) h d a b s (fun a c => a * (c % 2 ^ 32))

/-- SHLU (R224). Shifts each lane left by a uniform amount. -/
def execShlu (h : Hdr) (d : BitVec 6) (a : BitVec 6) (b : BitVec 7) (s : State) : Host.Outcome State Fault Refusal :=
  vsOp (.shlu h d a b) h d a b s (fun a c => shiftL 32 a c)

/-- SHRU (R224). Shifts each lane right by a uniform amount. -/
def execShru (h : Hdr) (d : BitVec 6) (a : BitVec 6) (b : BitVec 7) (s : State) : Host.Outcome State Fault Refusal :=
  vsOp (.shru h d a b) h d a b s (fun a c => shiftR 32 a c)

/-- ANDU (R224). Ands each lane with a uniform operand. -/
def execAndu (h : Hdr) (d : BitVec 6) (a : BitVec 6) (b : BitVec 7) (s : State) : Host.Outcome State Fault Refusal :=
  vsOp (.andu h d a b) h d a b s (fun a c => a &&& (c % 2 ^ 32))

/-- ORU (R224). Ors each lane with a uniform operand. -/
def execOru (h : Hdr) (d : BitVec 6) (a : BitVec 6) (b : BitVec 7) (s : State) : Host.Outcome State Fault Refusal :=
  vsOp (.oru h d a b) h d a b s (fun a c => a ||| (c % 2 ^ 32))

/-- XORU (R224). Exclusive-ors each lane with a uniform operand. -/
def execXoru (h : Hdr) (d : BitVec 6) (a : BitVec 6) (b : BitVec 7) (s : State) : Host.Outcome State Fault Refusal :=
  vsOp (.xoru h d a b) h d a b s (fun a c => a ^^^ (c % 2 ^ 32))

/-- PAND (R225). Predicate and. -/
def execPand (h : Hdr) (d : BitVec 6) (a : BitVec 6) (b : BitVec 6) (s : State) : Host.Outcome State Fault Refusal :=
  predOp (.pand h d a b) h d s (fun th l => th.pred a.toNat l && th.pred b.toNat l)

/-- POR (R225). Predicate or. -/
def execPor (h : Hdr) (d : BitVec 6) (a : BitVec 6) (b : BitVec 6) (s : State) : Host.Outcome State Fault Refusal :=
  predOp (.por h d a b) h d s (fun th l => th.pred a.toNat l || th.pred b.toNat l)

/-- PXOR (R225). Predicate exclusive or. -/
def execPxor (h : Hdr) (d : BitVec 6) (a : BitVec 6) (b : BitVec 6) (s : State) : Host.Outcome State Fault Refusal :=
  predOp (.pxor h d a b) h d s (fun th l => th.pred a.toNat l != th.pred b.toNat l)

/-- PNOT (R225). Predicate not. -/
def execPnot (h : Hdr) (d : BitVec 6) (a : BitVec 6) (s : State) : Host.Outcome State Fault Refusal :=
  predOp (.pnot h d a) h d s (fun th l => !th.pred a.toNat l)

/-- PMOV (R225). Sets a predicate from a predicate and a uniform lane mask. -/
def execPmov (h : Hdr) (d : BitVec 6) (a : BitVec 6) (b : BitVec 6) (s : State) : Host.Outcome State Fault Refusal :=
  predOp (.pmov h d a b) h d s (fun th l => th.pred a.toNat l && (th.sreg b.toNat).getLsbD l)

/-- LEA (R226). Computes a 64-bit address from a base pair and a shifted index. The shift is the low two bits of X. -/
def execLea (h : Hdr) (d : BitVec 6) (a : BitVec 6) (b : BitVec 6) (s : State) : Host.Outcome State Fault Refusal :=
  run (.lea h d a b) s (fun s => perLane h s (fun th l =>
    th.setVpair d.toNat l
      (th.vpair b.toNat l + ((th.vreg a.toNat l).signExtend 64 <<< (regxX h % 4)))))

/-- IMOVI (R227). Writes an immediate to each lane. -/
def execImovi (h : Hdr) (d : BitVec 6) (i : BitVec 8) (s : State) : Host.Outcome State Fault Refusal :=
  immOp (.imovi h d i) h d 0 s (fun _ => imm32 h i)

/-- IADDI (R227). Adds an immediate to each lane. -/
def execIaddi (h : Hdr) (d : BitVec 6) (a : BitVec 6) (i : BitVec 8) (s : State) : Host.Outcome State Fault Refusal :=
  immOp (.iaddi h d a i) h d a s (fun a => a + imm32 h i)

/-- ANDI (R227). Ands each lane with an immediate. -/
def execAndi (h : Hdr) (d : BitVec 6) (a : BitVec 6) (i : BitVec 8) (s : State) : Host.Outcome State Fault Refusal :=
  immOp (.andi h d a i) h d a s (fun a => a &&& imm32 h i)

/-- ORI (R227). Ors each lane with an immediate. -/
def execOri (h : Hdr) (d : BitVec 6) (a : BitVec 6) (i : BitVec 8) (s : State) : Host.Outcome State Fault Refusal :=
  immOp (.ori h d a i) h d a s (fun a => a ||| imm32 h i)

/-- SHLI (R227). Shifts each lane left by an immediate. -/
def execShli (h : Hdr) (d : BitVec 6) (a : BitVec 6) (i : BitVec 8) (s : State) : Host.Outcome State Fault Refusal :=
  immOp (.shli h d a i) h d a s (fun a => BitVec.ofNat 32 (shiftL 32 a.toNat (imm32z h i).toNat))

/-- SHRI (R227). Shifts each lane right logically by an immediate. -/
def execShri (h : Hdr) (d : BitVec 6) (a : BitVec 6) (i : BitVec 8) (s : State) : Host.Outcome State Fault Refusal :=
  immOp (.shri h d a i) h d a s (fun a => BitVec.ofNat 32 (shiftR 32 a.toNat (imm32z h i).toNat))

/-- SARI (R227). Shifts each lane right arithmetically by an immediate. -/
def execSari (h : Hdr) (d : BitVec 6) (a : BitVec 6) (i : BitVec 8) (s : State) : Host.Outcome State Fault Refusal :=
  immOp (.sari h d a i) h d a s (fun a => BitVec.ofNat 32 (shiftA 32 a.toNat (imm32z h i).toNat))

/-- ISETEQI (R227). Sets a predicate on equality with an immediate. -/
def execIseteqi (h : Hdr) (d : BitVec 6) (a : BitVec 6) (i : BitVec 8) (s : State) : Host.Outcome State Fault Refusal :=
  predOp (.iseteqi h d a i) h d s (fun th l => th.vreg a.toNat l == imm32 h i)

/-- ISETLTI (R227). Sets a predicate on signed less than an immediate. -/
def execIsetlti (h : Hdr) (d : BitVec 6) (a : BitVec 6) (i : BitVec 8) (s : State) : Host.Outcome State Fault Refusal :=
  predOp (.isetlti h d a i) h d s (fun th l => (th.vreg a.toNat l).slt (imm32 h i))

end Sys2Proof.Machine
end

