-- ==== Sys2Proof/Machine/VectorFloat.lean ====
section
/-! DEFINITION. Vector floating point, OPs 0x80 to 0xAE (R228 to R240). Each acts on the active
lanes; results are rounded once, and flags are added to the lane's fx. -/

namespace Sys2Proof.Machine

/-- A per-lane effect that may round by SR, going on to the next instruction (R62, R228). -/
def floatLanes (i : Instr) (h : Hdr) (s : State) (f : Thread → Nat → Thread) :
    Host.Outcome State Fault Refusal :=
  run i s (fun s => s.withThread (fun t =>
    (s.setThread ((overLanes (active t h) t f).countSr h)).advance h))

/-- A result written to a lane with its flags (R228). -/
def Thread.setResult (t : Thread) (c r l : Nat) (x : Nat × Flags) : Thread :=
  (t.setFpat c r l x.1).addFlags l x.2

/-- A source operand of a lane (R56, R228). -/
def Thread.fval (t : Thread) (c r l : Nat) : Val := srcOf t c (t.fpat c r l)

/-- An operation on a and b (R232). -/
def fpTwo (i : Instr) (h : Hdr) (d a b : BitVec 6) (ty : BitVec 2) (s : State)
    (f : Dest → Val → Val → Nat × Flags) : Host.Outcome State Fault Refusal :=
  floatLanes i h s (fun t l =>
    let c := fmtOfT ty.toNat
    t.setResult c d.toNat l (f (destOf t h c l 0) (t.fval c a.toNat l) (t.fval c b.toNat l)))

/-- An operation on a alone (R232). -/
def fpOne (i : Instr) (h : Hdr) (d a : BitVec 6) (ty : BitVec 2) (s : State)
    (f : Dest → Val → Nat × Flags) : Host.Outcome State Fault Refusal :=
  floatLanes i h s (fun t l =>
    let c := fmtOfT ty.toNat
    t.setResult c d.toNat l (f (destOf t h c l 0) (t.fval c a.toNat l)))

/-- A multiply-add with the third source of R233. -/
def fpThree (i : Instr) (h : Hdr) (d a b : BitVec 6) (ty : BitVec 2) (s : State) (np nc : Bool) :
    Host.Outcome State Fault Refusal :=
  floatLanes i h s (fun t l =>
    let c := fmtOfT ty.toNat
    t.setResult c d.toNat l (fpFma (destOf t h c l 0) np nc (t.fval c a.toNat l) (t.fval c b.toNat l)
      (t.fval c (sourceC h d) l)))

/-- An elementary function (R232, R233). -/
def fpFunction (i : Instr) (h : Hdr) (d a : BitVec 6) (ty : BitVec 2) (s : State) (op : Nat) :
    Host.Outcome State Fault Refusal :=
  floatLanes i h s (fun t l =>
    let c := fmtOfT ty.toNat
    let p := t.fpat c a.toNat l
    t.setResult c d.toNat l (fpElementary (destOf t h c l 0) op p (srcOf t c p)))

/-- A bit operation on patterns: no flag, no flush (R231). -/
def fpBits (i : Instr) (h : Hdr) (d a : BitVec 6) (ty : BitVec 2) (s : State)
    (f : Thread → Nat → Nat → Nat → Nat) : Host.Outcome State Fault Refusal :=
  floatLanes i h s (fun t l =>
    let c := fmtOfT ty.toNat
    t.setFpat c d.toNat l (f t l (fmtBits c - 1) (t.fpat c a.toNat l)))

/-- A comparison into a predicate (R235): f is given whether the operands are unordered. -/
def fpSet (i : Instr) (h : Hdr) (d a b : BitVec 6) (ty : BitVec 2) (s : State) (anyNan : Bool)
    (f : Bool → Val → Val → Bool) : Host.Outcome State Fault Refusal :=
  floatLanes i h s (fun t l =>
    let c := fmtOfT ty.toNat
    let x := t.fval c a.toNat l
    let y := t.fval c b.toNat l
    let un := x.isNan || y.isNan
    (t.setPred d.toNat l (f un x y)).addFlags l
      (if anyNan && un then flNV else sigFlags [x, y]))

/-- An operation with a uniform .f32 operand (R237). -/
def fpUniform (i : Instr) (h : Hdr) (d a : BitVec 6) (b : BitVec 7) (s : State)
    (f : Dest → Val → Val → Val → Nat × Flags) : Host.Outcome State Fault Refusal :=
  floatLanes i h s (fun t l =>
    let u := srcOf t 3 ((t.sreg b.toNat).toNat % 2 ^ 32)
    t.setResult 3 d.toNat l
      (f (destOf t h 3 l 0) (t.fval 3 a.toNat l) u (t.fval 3 d.toNat l)))

/-- A packed 16-bit operation on both sub-elements (R238). -/
def fpPacked (i : Instr) (h : Hdr) (d a b : BitVec 6) (ty : BitVec 2) (s : State)
    (f : Dest → Val → Val → Val → Nat × Flags) : Host.Outcome State Fault Refusal :=
  floatLanes i h s (fun t l =>
    let c := ty.toNat
    let half (r e : Nat) : Val := srcOf t c (elem 16 (t.vreg r l).toNat e)
    let x (e : Nat) : Nat × Flags :=
      f (destOf t h c l e) (half a.toNat e) (half b.toNat e) (half (sourceC h d) e)
    (t.setVreg d.toNat l (BitVec.ofNat 32 ((x 0).1 + (x 1).1 * 2 ^ 16))).addFlags l ((x 0).2 ||| (x 1).2))

/-- An exact sum of products and terms, rounded once (R239, R240): `order` is the order in which a NaN
is looked for; each product may be negated. -/
def fpDot (d : Dest) (order : List Val) (prods : List (Val × Val × Bool)) (adds : List Val) :
    Nat × Flags :=
  let real := prods.filter (fun p => !p.1.isNan && !p.2.1.isNan)
  let bad := real.any (fun p => (mulVal p.1 p.2.1).isNone)
  let terms := real.filterMap (fun p =>
    (mulVal p.1 p.2.1).map (fun v => if p.2.2 then v.negate else v))
  let sum := (terms ++ adds).foldl Sum.add Sum.zero
  let inv := bad || (sum.pinf && sum.ninf)
  match firstNan d.c order with
  | some (p, fl) => (p, fl ||| sigFlags order ||| (if inv then flNV else 0))
  | none => if inv then invalid d.c else sum.round d

/-- A dot product of n elements of w bits in format src accumulated into .f32 (R239). -/
def fpDotN (i : Instr) (h : Hdr) (d a b : BitVec 6) (s : State) (src n w : Nat) :
    Host.Outcome State Fault Refusal :=
  floatLanes i h s (fun t l =>
    let el (r e : Nat) : Val := srcOf t src (elem w (t.vreg r l).toNat e)
    let c := t.fval 3 (sourceC h d) l
    let es := List.range n
    t.setResult 3 d.toNat l (fpDot (destOf t h 3 l 0)
      (es.flatMap (fun e => [el a.toNat e, el b.toNat e]) ++ [c])
      (es.map (fun e => (el a.toNat e, el b.toNat e, false))) [c]))

/-- A complex operation (R240): each component of the result from the parts of a, b and c. -/
def fpComplex (i : Instr) (h : Hdr) (d a b : BitVec 6) (s : State)
    (f : Dest → Val × Val → Val × Val → Val × Val → (Nat × Flags) × (Nat × Flags)) :
    Host.Outcome State Fault Refusal :=
  floatLanes i h s (fun t l =>
    let part (r : Nat) : Val × Val := (t.fval 4 r l, t.fval 4 (r + 2) l)
    let (re, im) := f (destOf t h 4 l 0) (part a.toNat) (part b.toNat) (part (sourceC h d))
    (t.setResult 4 d.toNat l re).setResult 4 (d.toNat + 2) l im)

/-- The real and imaginary parts of a product with added terms (R240). -/
def complexMul (dst : Dest) (a b : Val × Val) (re im : List Val) : (Nat × Flags) × (Nat × Flags) :=
  let (ar, ai) := a
  let (br, bi) := b
  let order := [ar, ai, br, bi]
  (fpDot dst (order ++ re) [(ar, br, false), (ai, bi, true)] re,
   fpDot dst (order ++ im) [(ar, bi, false), (ai, br, false)] im)

/-- FADD (R232). Floating-point add. -/
def execFadd (h : Hdr) (d : BitVec 6) (a : BitVec 6) (b : BitVec 6) (t : BitVec 2) (s : State) :
    Host.Outcome State Fault Refusal :=
  fpTwo (.fadd h d a b t) h d a b t s fpAdd

/-- FSUB (R232). Floating-point subtract. -/
def execFsub (h : Hdr) (d : BitVec 6) (a : BitVec 6) (b : BitVec 6) (t : BitVec 2) (s : State) :
    Host.Outcome State Fault Refusal :=
  fpTwo (.fsub h d a b t) h d a b t s (fun dst x y => fpAdd dst x y.negate)

/-- FMUL (R232). Floating-point multiply. -/
def execFmul (h : Hdr) (d : BitVec 6) (a : BitVec 6) (b : BitVec 6) (t : BitVec 2) (s : State) :
    Host.Outcome State Fault Refusal :=
  fpTwo (.fmul h d a b t) h d a b t s fpMul

/-- FMA (R233). Fused multiply-add with one rounding. -/
def execFma (h : Hdr) (d : BitVec 6) (a : BitVec 6) (b : BitVec 6) (t : BitVec 2) (s : State) :
    Host.Outcome State Fault Refusal :=
  fpThree (.fma h d a b t) h d a b t s false false

/-- FMS (R233). Fused multiply-subtract. -/
def execFms (h : Hdr) (d : BitVec 6) (a : BitVec 6) (b : BitVec 6) (t : BitVec 2) (s : State) :
    Host.Outcome State Fault Refusal :=
  fpThree (.fms h d a b t) h d a b t s false true

/-- FNMA (R233). Negated fused multiply-add. -/
def execFnma (h : Hdr) (d : BitVec 6) (a : BitVec 6) (b : BitVec 6) (t : BitVec 2) (s : State) :
    Host.Outcome State Fault Refusal :=
  fpThree (.fnma h d a b t) h d a b t s true false

/-- FDIV (R232). Floating-point divide. -/
def execFdiv (h : Hdr) (d : BitVec 6) (a : BitVec 6) (b : BitVec 6) (t : BitVec 2) (s : State) :
    Host.Outcome State Fault Refusal :=
  fpTwo (.fdiv h d a b t) h d a b t s fpDiv

/-- FSQRT (R233). Square root. -/
def execFsqrt (h : Hdr) (d : BitVec 6) (a : BitVec 6) (t : BitVec 2) (s : State) :
    Host.Outcome State Fault Refusal :=
  fpOne (.fsqrt h d a t) h d a t s fpSqrt

/-- FRSQ (R233). Reciprocal square root, correctly rounded. -/
def execFrsq (h : Hdr) (d : BitVec 6) (a : BitVec 6) (t : BitVec 2) (s : State) :
    Host.Outcome State Fault Refusal :=
  fpOne (.frsq h d a t) h d a t s fpRsq

/-- FRCP (R233). Reciprocal. -/
def execFrcp (h : Hdr) (d : BitVec 6) (a : BitVec 6) (t : BitVec 2) (s : State) :
    Host.Outcome State Fault Refusal :=
  fpOne (.frcp h d a t) h d a t s fpRcp

/-- FMIN (R234). IEEE minimum. -/
def execFmin (h : Hdr) (d : BitVec 6) (a : BitVec 6) (b : BitVec 6) (t : BitVec 2) (s : State) :
    Host.Outcome State Fault Refusal :=
  fpTwo (.fmin h d a b t) h d a b t s (fun dst x y => fpMinMax dst false false x y)

/-- FMAX (R234). IEEE maximum. -/
def execFmax (h : Hdr) (d : BitVec 6) (a : BitVec 6) (b : BitVec 6) (t : BitVec 2) (s : State) :
    Host.Outcome State Fault Refusal :=
  fpTwo (.fmax h d a b t) h d a b t s (fun dst x y => fpMinMax dst true false x y)

/-- FMINNUM (R234). IEEE minimumNumber. -/
def execFminnum (h : Hdr) (d : BitVec 6) (a : BitVec 6) (b : BitVec 6) (t : BitVec 2) (s : State) :
    Host.Outcome State Fault Refusal :=
  fpTwo (.fminnum h d a b t) h d a b t s (fun dst x y => fpMinMax dst false true x y)

/-- FMAXNUM (R234). IEEE maximumNumber. -/
def execFmaxnum (h : Hdr) (d : BitVec 6) (a : BitVec 6) (b : BitVec 6) (t : BitVec 2) (s : State) :
    Host.Outcome State Fault Refusal :=
  fpTwo (.fmaxnum h d a b t) h d a b t s (fun dst x y => fpMinMax dst true true x y)

/-- FABS (R232). Clears the sign bit. -/
def execFabs (h : Hdr) (d : BitVec 6) (a : BitVec 6) (t : BitVec 2) (s : State) :
    Host.Outcome State Fault Refusal :=
  fpBits (.fabs h d a t) h d a t s (fun _ _ w x => x % 2 ^ w)

/-- FNEG (R232). Inverts the sign bit. -/
def execFneg (h : Hdr) (d : BitVec 6) (a : BitVec 6) (t : BitVec 2) (s : State) :
    Host.Outcome State Fault Refusal :=
  fpBits (.fneg h d a t) h d a t s (fun _ _ w x => if bit x w then x % 2 ^ w else x + 2 ^ w)

/-- FSETEQ (R235). Sets a predicate on floating equal. -/
def execFseteq (h : Hdr) (d : BitVec 6) (a : BitVec 6) (b : BitVec 6) (t : BitVec 2) (s : State) :
    Host.Outcome State Fault Refusal :=
  fpSet (.fseteq h d a b t) h d a b t s false (fun un x y => !un && numEq x y)

/-- FSETNE (R235). Sets a predicate on not equal or unordered. -/
def execFsetne (h : Hdr) (d : BitVec 6) (a : BitVec 6) (b : BitVec 6) (t : BitVec 2) (s : State) :
    Host.Outcome State Fault Refusal :=
  fpSet (.fsetne h d a b t) h d a b t s false (fun un x y => un || !numEq x y)

/-- FSETLT (R235). Sets a predicate on less than. -/
def execFsetlt (h : Hdr) (d : BitVec 6) (a : BitVec 6) (b : BitVec 6) (t : BitVec 2) (s : State) :
    Host.Outcome State Fault Refusal :=
  fpSet (.fsetlt h d a b t) h d a b t s true (fun un x y => !un && numLt x y)

/-- FSETLE (R235). Sets a predicate on less than or equal. -/
def execFsetle (h : Hdr) (d : BitVec 6) (a : BitVec 6) (b : BitVec 6) (t : BitVec 2) (s : State) :
    Host.Outcome State Fault Refusal :=
  fpSet (.fsetle h d a b t) h d a b t s true (fun un x y => !un && (numLt x y || numEq x y))

/-- FSETUN (R235). Sets a predicate when either operand is NaN. -/
def execFsetun (h : Hdr) (d : BitVec 6) (a : BitVec 6) (b : BitVec 6) (t : BitVec 2) (s : State) :
    Host.Outcome State Fault Refusal :=
  fpSet (.fsetun h d a b t) h d a b t s false (fun un _ _ => un)

/-- FCLASS (R236). Writes the class mask of each operand. -/
def execFclass (h : Hdr) (d : BitVec 6) (a : BitVec 6) (t : BitVec 2) (s : State) :
    Host.Outcome State Fault Refusal :=
  floatLanes (.fclass h d a t) h s (fun th l =>
    let c := fmtOfT t.toNat
    th.setVreg d.toNat l (BitVec.ofNat 32 (fpClass c (th.fpat c a.toNat l))))

/-- FCLASS_GETFX (R236). Copies each lane's fx into a vector register. -/
def execFclassGetfx (h : Hdr) (d : BitVec 6) (s : State) :
    Host.Outcome State Fault Refusal :=
  floatLanes (.fclassGetfx h d) h s (fun t l => t.setVreg d.toNat l ((t.flags l).zeroExtend 32))

/-- FCLASS_SETFX (R236). Sets each lane's fx from a vector register, the only way to clear flags. -/
def execFclassSetfx (h : Hdr) (a : BitVec 6) (s : State) :
    Host.Outcome State Fault Refusal :=
  floatLanes (.fclassSetfx h a) h s (fun t l => t.setFlags l ((t.vreg a.toNat l).setWidth 5))

/-- FEXP2 (R233). Base-2 exponential. -/
def execFexp2 (h : Hdr) (d : BitVec 6) (a : BitVec 6) (t : BitVec 2) (s : State) :
    Host.Outcome State Fault Refusal :=
  fpFunction (.fexp2 h d a t) h d a t s 0x96

/-- FLOG2 (R233). Base-2 logarithm. -/
def execFlog2 (h : Hdr) (d : BitVec 6) (a : BitVec 6) (t : BitVec 2) (s : State) :
    Host.Outcome State Fault Refusal :=
  fpFunction (.flog2 h d a t) h d a t s 0x97

/-- FSIN (R233). Sine. -/
def execFsin (h : Hdr) (d : BitVec 6) (a : BitVec 6) (t : BitVec 2) (s : State) :
    Host.Outcome State Fault Refusal :=
  fpFunction (.fsin h d a t) h d a t s 0x98

/-- FCOS (R233). Cosine. -/
def execFcos (h : Hdr) (d : BitVec 6) (a : BitVec 6) (t : BitVec 2) (s : State) :
    Host.Outcome State Fault Refusal :=
  fpFunction (.fcos h d a t) h d a t s 0x99

/-- FTANH (R233). Hyperbolic tangent. -/
def execFtanh (h : Hdr) (d : BitVec 6) (a : BitVec 6) (t : BitVec 2) (s : State) :
    Host.Outcome State Fault Refusal :=
  fpFunction (.ftanh h d a t) h d a t s 0x9A

/-- FSCALE (R232). Multiplies by 2 to an integer power. -/
def execFscale (h : Hdr) (d : BitVec 6) (a : BitVec 6) (b : BitVec 6) (t : BitVec 2) (s : State) :
    Host.Outcome State Fault Refusal :=
  floatLanes (.fscale h d a b t) h s (fun th l =>
    let c := fmtOfT t.toNat
    th.setResult c d.toNat l
      (fpScale (destOf th h c l 0) (th.fval c a.toNat l) (th.vreg b.toNat l).toInt))

/-- FRINT (R232). Rounds to an integral value. -/
def execFrint (h : Hdr) (d : BitVec 6) (a : BitVec 6) (t : BitVec 2) (s : State) :
    Host.Outcome State Fault Refusal :=
  fpOne (.frint h d a t) h d a t s fpRint

/-- FCOPYSIGN (R232). Takes a's magnitude with b's sign. -/
def execFcopysign (h : Hdr) (d : BitVec 6) (a : BitVec 6) (b : BitVec 6) (t : BitVec 2) (s : State) :
    Host.Outcome State Fault Refusal :=
  fpBits (.fcopysign h d a b t) h d a t s (fun th l w x =>
    x % 2 ^ w + (if bit (th.fpat (fmtOfT t.toNat) b.toNat l) w then 2 ^ w else 0))

/-- FADDU (R237). Adds a uniform .f32 operand. -/
def execFaddu (h : Hdr) (d : BitVec 6) (a : BitVec 6) (b : BitVec 7) (s : State) :
    Host.Outcome State Fault Refusal :=
  fpUniform (.faddu h d a b) h d a b s (fun dst x u _ => fpAdd dst x u)

/-- FMULU (R237). Multiplies by a uniform .f32 operand. -/
def execFmulu (h : Hdr) (d : BitVec 6) (a : BitVec 6) (b : BitVec 7) (s : State) :
    Host.Outcome State Fault Refusal :=
  fpUniform (.fmulu h d a b) h d a b s (fun dst x u _ => fpMul dst x u)

/-- FMAU (R237). Multiplies by a uniform operand and adds the destination, with one rounding. -/
def execFmau (h : Hdr) (d : BitVec 6) (a : BitVec 6) (b : BitVec 7) (s : State) :
    Host.Outcome State Fault Refusal :=
  fpUniform (.fmau h d a b) h d a b s (fun dst x u c => fpFma dst false false x u c)

/-- FMOVI (R237). Writes a 32-bit immediate from IMMX to each lane. -/
def execFmovi (h : Hdr) (d : BitVec 6) (i : BitVec 8) (s : State) :
    Host.Outcome State Fault Refusal :=
  floatLanes (.fmovi h d i) h s (fun t l => t.setVreg d.toNat l (imm32 h i))

/-- CADD (R240). Complex add. -/
def execCadd (h : Hdr) (d : BitVec 6) (a : BitVec 6) (b : BitVec 6) (s : State) :
    Host.Outcome State Fault Refusal :=
  fpComplex (.cadd h d a b) h d a b s (fun dst x y _ => (fpAdd dst x.1 y.1, fpAdd dst x.2 y.2))

/-- CSUB (R240). Complex subtract. -/
def execCsub (h : Hdr) (d : BitVec 6) (a : BitVec 6) (b : BitVec 6) (s : State) :
    Host.Outcome State Fault Refusal :=
  fpComplex (.csub h d a b) h d a b s (fun dst x y _ =>
    (fpAdd dst x.1 y.1.negate, fpAdd dst x.2 y.2.negate))

/-- CMUL (R240). Complex multiply. -/
def execCmul (h : Hdr) (d : BitVec 6) (a : BitVec 6) (b : BitVec 6) (s : State) :
    Host.Outcome State Fault Refusal :=
  fpComplex (.cmul h d a b) h d a b s (fun dst x y _ => complexMul dst x y [] [])

/-- CFMA (R240). Complex fused multiply-add. -/
def execCfma (h : Hdr) (d : BitVec 6) (a : BitVec 6) (b : BitVec 6) (s : State) :
    Host.Outcome State Fault Refusal :=
  fpComplex (.cfma h d a b) h d a b s (fun dst x y z => complexMul dst x y [z.1] [z.2])

/-- CCONJ (R240). Complex conjugate. -/
def execCconj (h : Hdr) (d : BitVec 6) (a : BitVec 6) (s : State) :
    Host.Outcome State Fault Refusal :=
  floatLanes (.cconj h d a) h s (fun t l =>
    let im := t.fpat 4 (a.toNat + 2) l
    (t.setFpat 4 d.toNat l (t.fpat 4 a.toNat l)).setFpat 4 (d.toNat + 2) l
      (if bit im 63 then im % 2 ^ 63 else im + 2 ^ 63))

/-- CNORM (R240). Squared complex magnitude into an .f64 pair. -/
def execCnorm (h : Hdr) (d : BitVec 6) (a : BitVec 6) (s : State) :
    Host.Outcome State Fault Refusal :=
  floatLanes (.cnorm h d a) h s (fun t l =>
    let re := t.fval 4 a.toNat l
    let im := t.fval 4 (a.toNat + 2) l
    t.setResult 4 d.toNat l
      (fpDot (destOf t h 4 l 0) [re, im] [(re, re, false), (im, im, false)] []))

/-- HADD2 (R238). Packed 16-bit add. -/
def execHadd2 (h : Hdr) (d : BitVec 6) (a : BitVec 6) (b : BitVec 6) (t : BitVec 2) (s : State) :
    Host.Outcome State Fault Refusal :=
  fpPacked (.hadd2 h d a b t) h d a b t s (fun dst x y _ => fpAdd dst x y)

/-- HMUL2 (R238). Packed 16-bit multiply. -/
def execHmul2 (h : Hdr) (d : BitVec 6) (a : BitVec 6) (b : BitVec 6) (t : BitVec 2) (s : State) :
    Host.Outcome State Fault Refusal :=
  fpPacked (.hmul2 h d a b t) h d a b t s (fun dst x y _ => fpMul dst x y)

/-- HFMA2 (R238). Packed 16-bit fused multiply-add. -/
def execHfma2 (h : Hdr) (d : BitVec 6) (a : BitVec 6) (b : BitVec 6) (t : BitVec 2) (s : State) :
    Host.Outcome State Fault Refusal :=
  fpPacked (.hfma2 h d a b t) h d a b t s (fun dst x y z => fpFma dst false false x y z)

/-- HMIN2 (R238). Packed 16-bit minimum. -/
def execHmin2 (h : Hdr) (d : BitVec 6) (a : BitVec 6) (b : BitVec 6) (t : BitVec 2) (s : State) :
    Host.Outcome State Fault Refusal :=
  fpPacked (.hmin2 h d a b t) h d a b t s (fun dst x y _ => fpMinMax dst false false x y)

/-- HMAX2 (R238). Packed 16-bit maximum. -/
def execHmax2 (h : Hdr) (d : BitVec 6) (a : BitVec 6) (b : BitVec 6) (t : BitVec 2) (s : State) :
    Host.Outcome State Fault Refusal :=
  fpPacked (.hmax2 h d a b t) h d a b t s (fun dst x y _ => fpMinMax dst true false x y)

/-- FDOT2 (R239). Two-element 16-bit dot product accumulated into .f32. -/
def execFdot2 (h : Hdr) (d : BitVec 6) (a : BitVec 6) (b : BitVec 6) (t : BitVec 2) (s : State) :
    Host.Outcome State Fault Refusal :=
  fpDotN (.fdot2 h d a b t) h d a b s t.toNat 2 16

/-- FDOT4 (R239). Four-element 8-bit dot product accumulated into .f32. -/
def execFdot4 (h : Hdr) (d : BitVec 6) (a : BitVec 6) (b : BitVec 6) (t : BitVec 2) (s : State) :
    Host.Outcome State Fault Refusal :=
  fpDotN (.fdot4 h d a b t) h d a b s (5 + t.toNat) 4 8

end Sys2Proof.Machine
end

