-- ==== Sys2Proof/Machine/Convert.lean ====
section
/-! DEFINITION. Conversions, OPs 0xC0 to 0xC8 (R241 to R248); CVTMX with its membership mask is
cross-lane (R253). -/

namespace Sys2Proof.Machine

/-- The float format that a conversion code names (R241). -/
def codeFmt (n : BitVec 4) : Nat := n.toNat

/-- An integer side of a conversion: its low bits from the register or pair (R242). -/
def Thread.ipat (t : Thread) (c r l : Nat) : Nat :=
  if c % 4 == 3 then (t.vpair r l).toNat else (t.vreg r l).toNat

/-- An integer result: the pair for 64 bits, else extended to the register (R244). -/
def Thread.setInt (t : Thread) (c r l : Nat) (i : Int) : Thread :=
  if c % 4 == 3 then t.setVpair r l (BitVec.ofInt 64 i) else t.setVreg r l (BitVec.ofNat 32 (intResult c i))

/-- Elements in a register of a packed format, and the bits from one to the next (R245). -/
def packedShape (c : Nat) : Nat × Nat :=
  match c with | 0 | 1 => (2, 16) | 9 => (8, 4) | _ => (4, 8)

/-- Flags of several conversions (R245). -/
def orFlags (xs : List (Nat × Flags)) : Flags := xs.foldl (fun f x => f ||| x.2) 0

/-- CVT (R243). Converts between floating-point formats. -/
def execCvt (h : Hdr) (d : BitVec 6) (a : BitVec 6) (n : BitVec 4) (m : BitVec 4) (s : State) :
    Host.Outcome State Fault Refusal :=
  floatLanes (.cvt h d a n m) h s (fun t l =>
    let x := t.fval (codeFmt m) a.toNat l
    t.setResult (codeFmt n) d.toNat l (fpConvert (destOf t h (codeFmt n) l 0) x))

/-- CVTF2I (R244). Converts floating point to integer. -/
def execCvtf2i (h : Hdr) (d : BitVec 6) (a : BitVec 6) (n : BitVec 4) (m : BitVec 4) (s : State) :
    Host.Outcome State Fault Refusal :=
  floatLanes (.cvtf2i h d a n m) h s (fun t l =>
    let x := fpToInt n.toNat (rmOf t (regxRnd h) l 0) (t.fval (codeFmt m) a.toNat l)
    (t.setInt n.toNat d.toNat l x.1).addFlags l x.2)

/-- CVTI2F (R244). Converts integer to floating point. -/
def execCvti2f (h : Hdr) (d : BitVec 6) (a : BitVec 6) (n : BitVec 4) (m : BitVec 4) (s : State) :
    Host.Outcome State Fault Refusal :=
  floatLanes (.cvti2f h d a n m) h s (fun t l =>
    let x := intValue m.toNat (t.ipat m.toNat a.toNat l)
    t.setResult (codeFmt n) d.toNat l (roundInt (destOf t h (codeFmt n) l 0) false x 0))

/-- CVTI2I (R244). Converts between integer types, optionally saturating. -/
def execCvti2i (h : Hdr) (d : BitVec 6) (a : BitVec 6) (n : BitVec 4) (m : BitVec 4) (s : State) :
    Host.Outcome State Fault Refusal :=
  floatLanes (.cvti2i h d a n m) h s (fun t l =>
    let x := intValue m.toNat (t.ipat m.toNat a.toNat l)
    let y := if regxSat h then clampInt n.toNat x
      else intValue n.toNat (wrap (intWidth n.toNat) x)
    t.setInt n.toNat d.toNat l y)

/-- CVTPACK (R245). Packs n converted .f32 values into sub-elements of one register. -/
def execCvtpack (h : Hdr) (d : BitVec 6) (a : BitVec 6) (n : BitVec 4) (m : BitVec 4) (s : State) :
    Host.Outcome State Fault Refusal :=
  floatLanes (.cvtpack h d a n m) h s (fun t l =>
    let c := codeFmt n
    let (k, w) := packedShape c
    let xs := (List.range k).map (fun e =>
      fpConvert (destOf t h c l e) (t.fval 3 (a.toNat + e) l))
    (t.setVreg d.toNat l (BitVec.ofNat 32
      ((xs.mapIdx (fun e x => x.1 * 2 ^ (w * e))).foldl (· + ·) 0))).addFlags l (orFlags xs))

/-- CVTUNPACK (R245). Unpacks the sub-elements of one register into .f32 registers. Flush bits apply (R56), and
NV is its only flag (log entry 60). -/
def execCvtunpack (h : Hdr) (d : BitVec 6) (a : BitVec 6) (n : BitVec 4) (m : BitVec 4) (s : State) :
    Host.Outcome State Fault Refusal :=
  floatLanes (.cvtunpack h d a n m) h s (fun t l =>
    let c := codeFmt m
    let (k, w) := packedShape c
    let v := (t.vreg a.toNat l).toNat
    let xs := (List.range k).map (fun e =>
      fpConvert (destOf t h 3 l e) (srcOf t c (bits v (w * e) (fmtBits c))))
    (xs.mapIdx (fun e x => (e, x.1))).foldl
      (fun u x => u.setVreg (d.toNat + x.1) l (BitVec.ofNat 32 x.2)) (t.addFlags l (orFlags xs &&& flNV)))

/-- The membership mask of a cross-lane instruction against the active lanes (R253): the cause of the
fault, if any. -/
def membership (t : Thread) (h : Hdr) : Option Nat :=
  let m := t.sreg (regxY h)
  if m &&& ~~~(maskBelow t.width) != 0 then some 0x51
  else if m != active t h then some 0x50
  else none

/-- A cross-lane effect after the membership check (R249, R253). -/
def crossLanes (i : Instr) (h : Hdr) (s : State) (f : Thread → Mask → Thread) :
    Host.Outcome State Fault Refusal :=
  run i s (fun s => s.withThread (fun t =>
    match membership t h with
    | some c => s.trap h vMembership c
    | none => (s.setThread ((f t (active t h)).countSr h)).advance h))

/-- CVTMX (R246). Quantises one MX block per span of 32 lanes. -/
def execCvtmx (h : Hdr) (d : BitVec 6) (a : BitVec 6) (n : BitVec 4) (m : BitVec 4) (s : State) :
    Host.Outcome State Fault Refusal :=
  crossLanes (.cvtmx h d a n m) h s (fun t act =>
    (List.range 2).foldl (fun u j =>
      if t.width ≤ 32 * j then u
      else
        let xs := (List.range 32).map (fun i =>
          if act.getLsbD (32 * j + i) then t.fval (codeFmt m) a.toNat (32 * j + i) else .fin false 0 0)
        let (x, codes) := mxQuantise n.toNat (fun i => rmOf t (regxRnd h) (32 * j + i) 0) xs
        (List.range 32).foldl (fun u i =>
          let l := 32 * j + i
          let c := codes.getD i (0, 0)
          if act.getLsbD l then
            (u.setVreg d.toNat l (BitVec.ofNat 32 (c.1 + x * 2 ^ 8))).addFlags l c.2
          else u) u) t)

/-- CVTSORT (R247). Quantises 24 values of one lane into a sorted E2M1 block. -/
def execCvtsort (h : Hdr) (d : BitVec 6) (a : BitVec 6) (n : BitVec 4) (m : BitVec 4) (s : State) :
    Host.Outcome State Fault Refusal :=
  floatLanes (.cvtsort h d a n m) h s (fun t l =>
    let xs := (List.range 24).map (fun i =>
      srcOf t (codeFmt m) (elem 16 (t.vreg (a.toNat + i / 2) l).toNat (i % 2)))
    let (x, sort, codes) := sortQuantise (fun i => rmOf t (regxRnd h) l i) xs
    let word (k : Nat) : W32 := BitVec.ofNat 32
      (((List.range 8).map (fun i => (codes.getD (8 * k + i) (0, 0)).1 * 2 ^ (4 * i))).foldl (· + ·) 0)
    (((((t.setVreg d.toNat l (word 0)).setVreg (d.toNat + 1) l (word 1)).setVreg
      (d.toNat + 2) l (word 2)).setVreg (d.toNat + 3) l (BitVec.ofNat 32 (x + sort * 2 ^ 8)))).addFlags l
      (orFlags codes))

/-- CVTDQ (R248). Decodes one block-scaled element per lane. -/
def execCvtdq (h : Hdr) (d : BitVec 6) (a : BitVec 6) (n : BitVec 4) (m : BitVec 4) (s : State) :
    Host.Outcome State Fault Refusal :=
  floatLanes (.cvtdq h d a n m) h s (fun t l =>
    let v := (t.vreg a.toNat l).toNat
    let w := match m.toNat with | 7 | 8 => 6 | 9 | 0xB => 4 | _ => 8
    let x := if m == 0xB then sortedValue (bits v 0 w) (bits v 8 8) (bits v 16 8)
      else mxValue m.toNat (bits v 0 w) (bits v 8 8)
    t.setResult (codeFmt n) d.toNat l (fpConvert (destOf t h (codeFmt n) l 0) x))

end Sys2Proof.Machine
end

