-- ==== Sys2Proof/Machine/CrossLane.lean ====
section
/-! DEFINITION. Cross-lane instructions, OPs 0xD0 to 0xDA and 0xDF (R249 to R255). -/

namespace Sys2Proof.Machine

/-- Each active lane takes the value of one source lane, as it stood before (R249, R250). -/
def exchange (i : Instr) (h : Hdr) (d a : BitVec 6) (ty : BitVec 2) (s : State)
    (src : Thread → Nat → Nat) : Host.Outcome State Fault Refusal :=
  crossLanes i h s (fun t act =>
    let pair := ty == 1
    overLanes act t (fun u l => u.setVval pair d.toNat l (t.vval pair a.toNat (src t l))))

/-- The source of a predicate-count instruction (R251): a predicate, or a bit of fx. -/
def Thread.source (t : Thread) (a l : Nat) : Bool :=
  if a < 8 then t.pred a l else (t.flags l).getLsbD (a - 8)

/-- A predicate-count instruction (R251): its uniform result from the active and true lanes, and the
predicate of a lane. -/
def count (i : Instr) (h : Hdr) (d : Option Nat) (a : BitVec 6) (s : State)
    (res : Mask → Mask → W64) (p : Mask → Mask → Nat → Bool) : Host.Outcome State Fault Refusal :=
  crossLanes i h s (fun t act =>
    let yes := maskOf (fun l => act.getLsbD l && t.source a.toNat l)
    let t := match d with
      | some d => overLanes act t (fun u l => u.setPred d l (p act yes l))
      | none => t
    if regxX h == 0x7F then t else t.setSreg (regxX h) (res act yes))

/-- Two values of a reduction tree put together; an absent one gives way (R252). -/
def combine (op : Nat → Nat → Nat × Flags) (x y : Option (Nat × Flags)) : Option (Nat × Flags) :=
  match x, y with
  | some a, some b => let r := op a.1 b.1; some (r.1, a.2 ||| b.2 ||| r.2)
  | some a, none => some a
  | none, y => y

/-- One level of the tree: neighbours put together (R252). -/
def pairUp (op : Nat → Nat → Nat × Flags) : List (Option (Nat × Flags)) → List (Option (Nat × Flags))
  | x :: y :: r => combine op x y :: pairUp op r
  | l => l

/-- The operation of a reduction in its type: 0 add, 1 minimum, 2 maximum; t 0 .s32, 1 .n32, 2 .f32,
3 .f64 (R252). -/
def reduceOp (t : Thread) (h : Hdr) (kind ty x y : Nat) : Nat × Flags :=
  if ty ≤ 1 then
    let key (v : Nat) : Int := if ty == 0 then sextInt 32 v else v
    match kind with
    | 0 => ((x + y) % 2 ^ 32, 0)
    | 1 => (if key y < key x then y else x, 0)
    | _ => (if key x < key y then y else x, 0)
  else
    let c := ty + 1
    let dst := destOf t h c 0 0
    match kind with
    | 0 => fpAdd dst (srcOf t c x) (srcOf t c y)
    | 1 => fpMinMax dst false false (srcOf t c x) (srcOf t c y)
    | _ => fpMinMax dst true false (srcOf t c x) (srcOf t c y)

/-- A value that no operation of a reduction meets: a signalling NaN is quieted and sets NV (R53, R252); a subnormal
stays (log entry 86). -/
def quieted (ty v : Nat) : Nat × Flags :=
  let x := decodeFp (ty + 1) v
  if ty ≤ 1 || !x.isSig then (v, 0) else (((firstNan (ty + 1) [x]).getD (v, 0)).1, flNV)

/-- A reduction over the active lanes (R252). -/
def reduce (i : Instr) (h : Hdr) (d a : BitVec 6) (ty : BitVec 2) (s : State) (kind : Nat) :
    Host.Outcome State Fault Refusal :=
  crossLanes i h s (fun t act =>
    let pair := ty == 3
    let leaves := t.lanes.map (fun l =>
      if act.getLsbD l then some (t.vval pair a.toNat l, (0 : Flags)) else none)
    match (iter (pairUp (reduceOp t h kind ty.toNat)) 6 leaves).headD none with
    | some (v, fl) =>
      let q := quieted ty.toNat v
      overLanes act t (fun u l => (u.setVval pair d.toNat l q.1).addFlags l (fl ||| q.2))
    | none => t)

/-- The values of an inclusive scan over lanes in ascending order, with the flags up to each (R252); `own` is the
first lane's own value as it takes it. -/
def scanUp (op : Nat → Nat → Nat × Flags) (own : Nat → Nat × Flags) (val : Nat → Nat) :
    Option (Nat × Flags) → List Nat → List (Nat × Nat × Flags)
  | _, [] => []
  | none, l :: ls => (l, own (val l)) :: scanUp op own val (some (own (val l))) ls
  | some (p, f), l :: ls =>
    let r := op p (val l)
    (l, r.1, f ||| r.2) :: scanUp op own val (some (r.1, f ||| r.2)) ls

/-- XLI (R250). Gives each lane the value from an indexed lane. -/
def execXli (h : Hdr) (d : BitVec 6) (a : BitVec 6) (b : BitVec 6) (t : BitVec 2) (s : State) :
    Host.Outcome State Fault Refusal :=
  exchange (.xli h d a b t) h d a t s (fun th l => (th.vreg b.toNat l).toNat % th.width)

/-- XLR (R250). Rotates values across lanes. -/
def execXlr (h : Hdr) (d : BitVec 6) (a : BitVec 6) (t : BitVec 2) (s : State) :
    Host.Outcome State Fault Refusal :=
  exchange (.xlr h d a t) h d a t s (fun th l =>
    (((l : Int) + (th.sreg (regxX h)).toInt) % (th.width : Int)).toNat)

/-- XLF (R250). Exchanges values between lanes by exclusive-or distance. -/
def execXlf (h : Hdr) (d : BitVec 6) (a : BitVec 6) (t : BitVec 2) (s : State) :
    Host.Outcome State Fault Refusal :=
  exchange (.xlf h d a t) h d a t s (fun th l => l ^^^ ((th.sreg (regxX h)).toNat % th.width))

/-- XLB (R250). Broadcasts one lane's value. -/
def execXlb (h : Hdr) (d : BitVec 6) (a : BitVec 6) (t : BitVec 2) (s : State) :
    Host.Outcome State Fault Refusal :=
  exchange (.xlb h d a t) h d a t s (fun th _ => (th.sreg (regxX h)).toNat % th.width)

/-- PCNT (R251). Counts lanes whose source is true and sets a quorum predicate. -/
def execPcnt (h : Hdr) (d : BitVec 6) (a : BitVec 6) (b : BitVec 6) (s : State) :
    Host.Outcome State Fault Refusal :=
  count (.pcnt h d a b) h (some d.toNat) a s (fun _ yes => BitVec.ofNat 64 (lanesIn yes))
    (fun act yes _ => if b == 0 then yes == act else b.toNat ≤ lanesIn yes)

/-- PMASK (R251). Writes the mask of lanes whose source is true. -/
def execPmask (h : Hdr) (a : BitVec 6) (s : State) :
    Host.Outcome State Fault Refusal :=
  count (.pmask h a) h none a s (fun _ yes => yes) (fun _ _ _ => false)

/-- PFIRST (R251). Finds the lowest lane whose source is true. -/
def execPfirst (h : Hdr) (d : BitVec 6) (a : BitVec 6) (s : State) :
    Host.Outcome State Fault Refusal :=
  count (.pfirst h d a) h (some d.toNat) a s
    (fun _ yes => BitVec.ofNat 64 (((lanesOf yes).head?).getD 64))
    (fun _ yes l => (lanesOf yes).head? == some l)

/-- REDADD (R252). Tree sum over the active lanes. -/
def execRedadd (h : Hdr) (d : BitVec 6) (a : BitVec 6) (t : BitVec 2) (s : State) :
    Host.Outcome State Fault Refusal :=
  reduce (.redadd h d a t) h d a t s 0

/-- REDMIN (R252). Tree minimum over the active lanes. -/
def execRedmin (h : Hdr) (d : BitVec 6) (a : BitVec 6) (t : BitVec 2) (s : State) :
    Host.Outcome State Fault Refusal :=
  reduce (.redmin h d a t) h d a t s 1

/-- REDMAX (R252). Tree maximum over the active lanes. -/
def execRedmax (h : Hdr) (d : BitVec 6) (a : BitVec 6) (t : BitVec 2) (s : State) :
    Host.Outcome State Fault Refusal :=
  reduce (.redmax h d a t) h d a t s 2

/-- SCANADD (R252). Inclusive ascending scan sum. -/
def execScanadd (h : Hdr) (d : BitVec 6) (a : BitVec 6) (t : BitVec 2) (s : State) :
    Host.Outcome State Fault Refusal :=
  crossLanes (.scanadd h d a t) h s (fun th act =>
    let pair := t == 3
    (scanUp (reduceOp th h 0 t.toNat) (quieted t.toNat) (fun l => th.vval pair a.toNat l) none (lanesOf act)).foldl
      (fun u x => (u.setVval pair d.toNat x.1 x.2.1).addFlags x.1 x.2.2) th)

/-- XLEQ (R254). Divides the active lanes into classes of equal value. -/
def execXleq (h : Hdr) (d : BitVec 6) (a : BitVec 6) (t : BitVec 2) (s : State) :
    Host.Outcome State Fault Refusal :=
  crossLanes (.xleq h d a t) h s (fun th act =>
    let val (l : Nat) : Nat := th.vval (t == 1) a.toNat l
    overLanes act th (fun u l =>
      let e := maskOf (fun k => act.getLsbD k && val k == val l)
      ((u.setVreg d.toNat l (BitVec.ofNat 32 (lowLane e))).setVreg (d.toNat + 1) l
        (BitVec.ofNat 32 (lanesIn e))).setVpair (d.toNat + 2) l e))

end Sys2Proof.Machine
end

