-- ==== Sys2Proof/Machine/HostIf.lean ====
section
/-! DEFINITION. Accesses from outside the device: host writes and reads (R342) and the operation packets of
peers (R298). -/

namespace Sys2Proof.Machine

/-- The place of a reader or writer outside the device: on no die of it. -/
def outside : Nat := 1000

/-- Memory that the host and peers reach by physical address (R117, R342): what is powered of it (R20). -/
def State.reachable (s : State) (pa : Nat) : Bool :=
  !s.reservedPa pa && (match regionOf pa with | .hbm _ => true | .tier2 _ => true | .cxl _ => true | _ => false)

/-- Key slot of an access from outside: that of the line's present tag, slot 0 where the key of that tag is
gone (log entry 59). -/
def State.outsideKey (s : State) (line : Nat) : Nat :=
  let slot := s.tagSlot line
  if s.tagReads line slot then slot else 0

/-- Whether a line can take a request from outside at its home now, once its buffered copies are recalled (R296): no
copy owns it (R314), and no probe of it would wait for a narrow write (R337). -/
def State.homeReady (s : State) (line : Nat) : Bool :=
  !s.buffered line && !s.owned line && !s.flight.any (fun w => w.line == line && w.scope ≤ 2 && w.arr.isSome)

/-- Lines of a run of bytes, with each line's part. -/
def lineParts (pa : Nat) (bs : List Byte) : List (Nat × List (Nat × Byte)) :=
  (linesOfRange pa bs.length).map (fun l =>
    (l, (bs.mapIdx (fun i b => (pa + i, b))).filterMap (fun (e : Nat × Byte) =>
      if lineOf e.1 == l then some (e.1 - l, e.2) else none)))

/-- A write from outside: a host's is visible only after its earlier ones (R342), which its `outs` number. -/
def State.outsideWrite (s : State) (line notBefore : Nat) (outs : List Nat) : WriteBy :=
  { WriteBy.engine outside 5 (s.outsideKey line) outs with notBefore := notBefore }

/-- HOST_WRITE (R325, R342). A host write to device memory is made visible in the order it was received from
its requester; it triggers the proofs whose masters it meets. -/
def execHostWrite (s : State) : Host.Outcome State Fault Refusal :=
  .next (
    let ps := lineParts s.arg.a s.arg.bytes
    let s' := ps.foldl (fun (s : State) p => s.recall p.1) s
    if !ps.all (fun p => s.reachable p.1 && s'.homeReady p.1) then s
    else
      (ps.foldl (fun (s : State) p => s.land (s.outsideWrite p.1 s.hostTime [0]) p.1 p.2) s').triggerLines
        (ps.map (·.1)))

/-- Bytes of memory as a reader outside sees them (R336, R338). -/
def State.outsideRead (s : State) (pa n : Nat) : List Byte :=
  (List.range n).map (fun i =>
    let line := lineOf (pa + i)
    s.seenByte outside [] line (s.outsideKey line) (pa + i - line))

/-- HOST_READ (R30, R78, R88, R342). A host read of device memory is served at the home as a read from another die; a
read of the management window returns its registers; one of the launch window returns zeros. -/
def execHostRead (s : State) : Host.Outcome State Fault Refusal :=
  .next (
    let tell (s : State) (bs : List Byte) : State := { s with hostLog := s.hostLog ++ [.readData bs] }
    if s.arg.c == 1 then tell s (List.replicate s.arg.b 0)
    else if s.arg.flag then
      (if s.portRefuses then { s with hostLog := s.hostLog ++ [.status 2] }
      else tell s ((List.range s.arg.b).map (fun i => s.mgmtByte (s.arg.a + i))))
    else
      let lines := linesOfRange s.arg.a s.arg.b
      let s' := lines.foldl State.recall s
      if !lines.all (fun l => s.reachable l && s'.homeReady l) then s
      else tell s' (s'.outsideRead s.arg.a s.arg.b))

/-! ## Peers -/

/-- The physical address that an offset of the device's export window names (R117). -/
def State.exportAt (s : State) (off : Nat) : Option Nat :=
  (lookup s.exports (off / 4096)).map (fun f => f + off % 4096)

/-- The lanes of a packet at their physical addresses; none where one names no exported frame. -/
def State.exported (s : State) : List (Nat × Nat × Nat) → Option (List (Nat × Nat × Nat))
  | [] => some []
  | l :: ls =>
    match s.exportAt l.1, s.exported ls with
    | some pa, some rest => some ((pa, l.2.1, l.2.2) :: rest)
    | _, _ => none

/-- One lane operation of a packet at its home (R298): the state and the value the reply carries. -/
def State.peerLane (s : State) (k op size : Nat) (l : Nat × Nat × Nat) : State × Nat :=
  let (pa, d1, d2) := l
  let line := lineOf pa
  let w := s.outsideWrite line 0 []
  match k with
  | 0 => (s, leNat (s.outsideRead pa size))
  | 1 => (s.land w line (bytesAt (pa - line) size d1), 0)
  | 3 => s.rmw w line (pa - line) size none (fun m => if m == d1 then some d2 else none)
  | _ => s.rmw w line (pa - line) size none (fun m => some (atomResult op size m d1))

/-- When the writes of some lines are visible to a peer (R343): now, or when their last pending ones are. -/
def State.visibleAt (s : State) (lines : List Nat) : Nat :=
  maxOf (s.time :: lines.map (fun l => match (s.pends l).getLast? with | some p => p.cfar | none => 0))

/-- Lines read under a lease that the reader's device keeps (R285, R288): the earliest lease end; 0 without one. -/
def State.peerLease (s : State) (lines : List Nat) : State × Nat :=
  lines.foldl (fun (x : State × Nat) l =>
    let (s, e) := x.1.grantLease l true
    (s, if x.2 == 0 then e else min x.2 e)) (s, 0)

/-- PEER_PACKET_EXECUTE (R298). An operation packet from a peer is executed once, lane by lane, at the home
slice and answered: with old values for ATOM and CAS, with data for loads, and with the visible time of writes
(R343). A load that fills a copy takes a lease. -/
def execPeerPacketExecute (s : State) : Host.Outcome State Fault Refusal :=
  .next (
    let p := s.arg.pkt
    match s.exported p.lanes with
    | none => s
    | some lanes =>
      let lines := dedup (lanes.map (fun l => lineOf l.1))
      let s' := lines.foldl State.recall s
      let k := p.kind.toNat
      let leased := k == 0 && s.arg.flag
      if s.boot.minimal || s.peerSeen.contains (p.peer, p.seq)
          || !lines.all (fun l => s.reachable l && s'.homeReady l && (!leased || s'.fillable outside l)) then s
      else
        let (s', vals) := lanes.foldl (fun (x : State × List Nat) l =>
          let (s, v) := x.1.peerLane k p.op.toNat p.size l
          (s, x.2 ++ [v])) (s', [])
        let (s', ends) := if leased then s'.peerLease lines else (s', 0)
        let s' : State := { s' with
          peerSeen := s'.peerSeen ++ [(p.peer, p.seq)]
          hostLog := s'.hostLog ++ [.peerReply p.peer p.seq (if k == 1 || k == 4 then [] else vals)
            (if k == 0 then s'.time else s'.visibleAt lines) ends] }
        if k == 0 then s' else s'.triggerLines lines)

end Sys2Proof.Machine
end

