-- ==== Sys2Proof/Machine/Issue.lean ====
section
/-! DEFINITION. Fetch (R109 to R113) and issue (R105, R106): the block buffers, the packet at a program
counter, the group that a partition picks, the interrupts that a proctor lane takes between
instructions, and the steps of the device that may come about by themselves (log entry 1). -/

namespace Sys2Proof.Machine

/-! ## Fetch -/

/-- Fetch block that holds an address (R109). -/
def blockOf (va : Nat) : Nat := va / 192 * 192

/-- Fetch blocks of a partition's buffer (R109). -/
def bufferSize : Nat := 16

/-- The word at an address as it stands at its home (R109, R112): none while a walk is needed, or while
the line is buffered or owned. A block's words are all read at one moment, so it mixes no two leases. -/
def State.fetchWord (s : State) (core : Nat) (ctx : W32) (sup : Bool) (va : Nat) :
    State × Trans × Option W32 :=
  match s.translate core ctx sup va accFetch with
  | .ok pa key mt =>
    let line := lineOf pa
    let s := s.recall line
    if s.buffered line || s.owned line then (s, .ok pa key mt, none)
    else
      (s, .ok pa key mt, some (BitVec.ofNat 32 (leNat ((List.range 4).map (fun i =>
        s.seenByte core [] line key (pa - line + i))))))
  | r => (s, r, none)

/-- The words of a packet, all or none, with the lowest translation that fails (R112). -/
def State.fetchPacket (s : State) (core : Nat) (ctx : W32) (sup : Bool) (va : Nat) :
    State × Option (Nat × Trans) × Option (List W32) :=
  let (s, r0, w0) := s.fetchWord core ctx sup va
  let (s, r1, w1) := s.fetchWord core ctx sup (va + 4)
  let (s, r2, w2) := s.fetchWord core ctx sup (va + 8)
  let bad (r : Trans) : Bool := match r with | .ok .. => false | _ => true
  match w0, w1, w2 with
  | some a, some b, some c => (s, none, some [a, b, c])
  | _, _, _ =>
    (s, if bad r0 then some (va, r0) else if bad r1 then some (va + 4, r1)
        else if bad r2 then some (va + 8, r2) else none, none)

/-- The block of a buffer (R111). -/
def State.blockFind (s : State) (core part : Nat) (ctx : W32) (sup : Bool) (va : Nat) : Option Block :=
  s.blocks.find? (fun b => b.core == core && b.part == part && b.ctx == ctx && b.sup == sup && b.va == va)

/-- A block at the young end of its buffer, from which the oldest goes when it is full (R111). -/
def State.blockPut (s : State) (b : Block) : State :=
  let same (x : Block) : Bool := x.core == b.core && x.part == b.part
  let keep := s.blocks.filter (fun x => !(same x && x.ctx == b.ctx && x.sup == b.sup && x.va == b.va))
  let keep := if bufferSize ≤ (keep.filter same).length then keep.eraseP same else keep
  { s with blocks := keep ++ [b] }

/-- A block filled by one read, in place of what the buffer held of it (R37, R109): the packets whose every byte
is translated with permission to fetch (R112). None where some part of it still waits: a walk, or a line. -/
def State.fillBlock (s : State) (core part : Nat) (ctx : W32) (sup : Bool) (va : Nat) : Option State :=
  let (s, ps) := (List.range 16).foldl (fun (x : State × List (Nat × Option (Nat × Trans) × Option (List W32))) n =>
    let (s, r) := x.1.fetchPacket core ctx sup (va + 12 * n)
    (s, x.2 ++ [(n, r)])) (s, [])
  if ps.any (fun p => p.2.2.isNone && (match p.2.1 with | none => true | some (_, .wait) => true | _ => false)) then none
  else
    some ((s.endWalks core ctx [va, va + 191]).blockPut
      { core := core, part := part, ctx := ctx, sup := sup, va := va
        packets := ps.filterMap (fun p => p.2.2.map (fun ws => (p.1, ws))) })

/-- Addresses of a block whose translations miss. -/
def State.blockMisses (s : State) (core : Nat) (ctx : W32) (sup : Bool) (va : Nat) : List Nat :=
  (pagesOfBlock va).filter (fun a =>
    s.translate core ctx sup a accFetch == .wait && (s.walkFind core ctx a).isNone)
where
  /-- The first address, and that of a second page. -/
  pagesOfBlock (va : Nat) : List Nat :=
    if pageBase 0 va == pageBase 0 (va + 191) then [va] else [va, pageBase 0 (va + 191)]

/-- Walks for the pages of a block; a prefetch's are its own (R110). -/
def State.walkBlock (s : State) (use : WalkUse) (core : Nat) (ctx : W32) (sup : Bool) (va : Nat) : State :=
  (s.blockMisses core ctx sup va).foldl (fun (s : State) a => s.missWalk use core ctx sup a accFetch) s

/-- Whether some group of a partition is about to fetch from a block (R110). -/
def State.wantsBlock (s : State) (core part : Nat) (ctx : W32) (sup : Bool) (va : Nat) : Bool :=
  s.threads.any (fun t => t.core == core && t.part == part && t.ctx == ctx && t.sup == sup
    && blockOf t.pc.toNat == va)

/-- FETCH_BLOCK_FILL (R110). A fetch block that a group needs, or the next block after it ahead of need, is filled
into the partition's block buffer; a prefetch may start a walk, and a fault that it meets is discarded. -/
def execFetchBlockFill (s : State) : Host.Outcome State Fault Refusal :=
  .next (
    let ctx : W32 := s.arg.v.setWidth 32
    let va := 192 * s.arg.c
    let (core, part, sup) := (s.arg.a, s.arg.b, s.arg.flag)
    let now := s.wantsBlock core part ctx sup va
    if !now && !(192 ≤ va && s.wantsBlock core part ctx sup (va - 192)) then s
    else if !(s.blockMisses core ctx sup va).isEmpty then
      s.walkBlock (if now then .demand else .prefetch) core ctx sup va
    else if !now && (s.blockFind core part ctx sup va).isSome then s
    else (s.fillBlock core part ctx sup va).getD s)

/-- What stands before a group's next instruction. -/
inductive Fetched where
  /-- Words of its packet from its slot on; and the next packet's, where the first of a pair ends its own. -/
  | words (ws next : List W32)
  /-- A block can be filled now. -/
  | fill (block : Nat)
  /-- Walks must start for pages of a block. -/
  | walk (block : Nat)
  /-- A walk or a fill is under way. -/
  | wait
  /-- The fetch faults at an address (R112). -/
  | fault (va : Nat) (t : Trans)
  deriving DecidableEq, Repr

/-- Packet address of a program counter (R135). -/
def packetOf (pc : Nat) : Nat := pc / 12 * 12

/-- Whether the words from a slot on make no instruction that the proctor lane executes: the first OP that it refuses
is reached in the order of R137 (R197, R213). -/
def proctorRefuses : List W32 → Bool
  | [] => false
  | w :: ws =>
    let op := opOf w
    if op == 0xF8 then (w >>> 28) == 0 && (match ws with | x :: _ => opOf x != 0xF8 | [] => true) && proctorRefuses ws
    else op == 0xF9 || (op < 0xFA && !proctorAccepts op)

/-- Words decoded for the present agent (R137, R197). -/
def State.decodeFor (s : State) (ws : List W32) : Except Cause (Instr × Nat) :=
  match s.cur with
  | .proctor _ => if proctorRefuses ws then .error .unassigned else decodeWords ws
  | .thread _ => decodeWords ws

/-- The first of a pair ends its packet, so that the second stands in the next (R142). -/
def endsChained (d : Except Cause (Instr × Nat)) (ws : List W32) : Bool :=
  match d with
  | .ok (i, n) => (hdrOf i).c && (ws.drop n).isEmpty
  | .error _ => false

/-- The words at an address of a group's code (R110, R112). -/
def State.fetchedAt (s : State) (t : Thread) (pc : Nat) : Fetched :=
  let n := pc % 192 / 12
  let inBuffer : Option (List W32) := match s.blockFind t.core t.part t.ctx t.sup (blockOf pc) with
    | some b => lookup b.packets n
    | none => none
  match inBuffer with
  | some ws => .words (ws.drop (pc % 12 / 4)) []
  | none =>
    match s.fetchPacket t.core t.ctx t.sup (packetOf pc) with
    | (_, some (_, .wait), _) =>
      if (s.blockMisses t.core t.ctx t.sup (blockOf pc)).isEmpty then .wait else .walk (blockOf pc)
    | (_, some (a, r), _) => .fault a r
    | (_, none, none) => .wait
    | (_, none, some _) =>
      if (s.fillBlock t.core t.part t.ctx t.sup (blockOf pc)).isSome then .fill (blockOf pc)
      else if (s.blockMisses t.core t.ctx t.sup (blockOf pc)).isEmpty then .wait else .walk (blockOf pc)

/-- The words that a group's next issue needs (R105, R110, R142). The fault of a second packet is no fault of the
first instruction: the pair is illegal as it is. -/
def State.fetched (s : State) (t : Thread) : Fetched :=
  match s.fetchedAt t t.pc.toNat with
  | .words ws _ =>
    if endsChained (decodeWords ws) ws then
      match s.fetchedAt t (packetOf t.pc.toNat + 12) with
      | .words next _ => .words ws next
      | .fault .. => .words ws []
      | r => r
    else .words ws []
  | r => r

/-- A group's fetch faults (R112): a precise fault of the whole group, or of the lanes of a replay (R367). -/
def State.fetchFault (s : State) (t : Thread) (va : Nat) (r : Trans) : State :=
  let s := if 0 < (s.core t.core).hq.free then s.endWalks t.core t.ctx [va] else s
  match r with
  | .prot c => s.trapThread t ⟨vProtection, c, t.exec, va, 0⟩ t.pc (t.pc + 4)
  | .page c =>
    let lanes := t.exec &&& t.only.getD (BitVec.allOnes 64)
    match s.postAll t.core [pageFaultPost t va c accFetch 0 0 lanes t.pc] with
    | some s => s.setThread { t with park := .records, after := t.pc + 4 }
    | none => s.setThread { t with park := .poll }
  | _ => s

/-! ## Who issues -/

/-- Nanoseconds of 3,584 cycles of a die's clock (R106). -/
def starvation (mhz : Nat) : Nat := 3584000 / max 1 mhz

/-- Whether a group could issue but for its words (R105): it has lanes, is not parked, suspending or
stopped, and its die runs (R32). -/
def State.awake (s : State) (t : Thread) : Bool :=
  t.park == .run && t.live != 0 && t.susp.isNone && !t.stopped && t.idleTill ≤ s.time
    && !(s.die (dieOf t.core)).stopped && s.powerLost.isNone

/-- Rank of a ready group, greater first (R105, R106). -/
def State.rank (s : State) (t : Thread) : Nat :=
  let starved := starvation (s.die (dieOf t.core)).clockMHz ≤ s.time - max t.lastIssue t.resident
  if starved then 1000 else if t.sup then 100 else t.prio

/-- The first of two groups in issue order; of the children of one group the one with the lower f (R190). -/
def State.ahead (s : State) (a b : Thread) : Bool :=
  let ra := s.rank a
  let rb := s.rank b
  if ra != rb then rb < ra
  else
    let (ta, tb) := if ra == 1000 then (max a.lastIssue a.resident, max b.lastIssue b.resident)
      else if sameGroup a b then (0, 0) else (a.resident, b.resident)
    if ta == tb && sameGroup a b then a.f < b.f else ta ≤ tb

/-- The group of highest rank. -/
def State.best (s : State) : List Thread → Option Thread
  | [] => none
  | t :: ts =>
    match s.best ts with
    | some u => if s.ahead t u then some t else some u
    | none => some t

/-- What happens next. -/
inductive Pick where
  /-- An instruction issues, alone or with the second of its pair. -/
  | issue (i : Instr) (second : Option Instr)
  /-- A step of the device. -/
  | event (i : Instr)
  /-- Fetch work or a trap at fetch has been done: nothing executes. -/
  | done
  /-- Nothing can issue from this unit. -/
  | none
  deriving DecidableEq, Repr

/-- The illegal-instruction or illegal-chain trap of words that are not an instruction. -/
def State.badWords (s : State) (vector cause : Nat) : State :=
  match s.cur with
  | .thread id =>
    match s.thread? id with
    | some t => s.trapThread t (plainTrap vector cause t.exec) t.pc (t.pc + 4)
    | none => s
  | .proctor c => s.trapProctor c vector cause 0 (s.core c).proctor.pc false

/-- The words at the present agent's program counter, decoded, with those of the next packet where the pair needs them
(R137, R142). -/
def State.decodeHere (s : State) (ws next : List W32) : Pick × State :=
  match s.decodeFor ws with
  | .error c => (.done, s.badWords vIllegal c.code)
  | .ok (i, n) =>
    if !(hdrOf i).c then (.issue i none, s)
    else
      let apart := (ws.drop n).isEmpty
      match s.decodeFor (if apart then next else ws.drop n) with
      | .error c =>
        (.done, if apart && next.isEmpty then s.badWords vChain 0x11 else s.badWords vIllegal c.code)
      | .ok (j, _) =>
        match chainCheck i j with
        | some c => (.done, s.badWords vChain (if apart && c != 0x10 then 0x11 else c))
        | none => if apart then (.done, s.badWords vChain 0x11) else (.issue i (some j), s)

/-- A partition's next step (R105): the ready group of the highest rank issues; where none has its
words, the highest that lacks them has them fetched. -/
def State.pickPart (s : State) (core part : Nat) : Pick × State :=
  let ts := s.threads.filter (fun t => t.core == core && t.part == part && s.awake t)
  let tagged := ts.map (fun t => (t, s.fetched t))
  let ready := tagged.filter (fun x => match x.2 with | .words .. => true | .fault .. => true | _ => false)
  let lacking := tagged.filter (fun x => match x.2 with | .fill _ => true | .walk _ => true | _ => false)
  match s.best (if ready.isEmpty then lacking.map (·.1) else ready.map (·.1)) with
  | none => (.none, s)
  | some t =>
    let s : State := { s with cur := .thread t.id }
    match s.fetched t with
    | .words ws next =>
      let s := match s.blockFind t.core t.part t.ctx t.sup (blockOf t.pc.toNat) with
        | some b => s.blockPut b
        | none => s
      (s.setThread { t with lastIssue := s.time }).decodeHere ws next
    | .fault va r => (.done, s.fetchFault t va r)
    | .fill va =>
      match s.fillBlock core part t.ctx t.sup va with
      | some s' => (.done, s')
      | none => (.none, s)
    | .walk va =>
      let s' := s.walkBlock .demand core t.ctx t.sup va
      (if s'.walks == s.walks then .none else .done, s')
    | .wait => (.none, s)

/-- Inputs of a proctor lane that are pending and enabled (R198). -/
def Core.inputs (k : Core) : BitVec 6 := k.pipend &&& k.proctor.pien

/-- Whether a proctor lane takes an interrupt before its next instruction (R198). -/
def Core.interrupted (k : Core) : Bool :=
  k.proctor.run && k.proctor.started && ((k.proctor.ie && k.inputs != 0) || k.inputs.getLsbD 5)

/-- Whether a proctor lane has got an instruction to issue. -/
def Core.laneReady (k : Core) : Bool :=
  k.proctor.run && k.proctor.started && k.proctor.park == .run

/-- A proctor lane's next step (R197, R376). -/
def State.pickProctor (s : State) (c : Nat) : Pick × State :=
  let k := s.core c
  let s : State := { s with cur := .proctor c }
  if s.powerLost.isSome || (s.die (dieOf c)).stopped then (.none, s)
  else if k.interrupted then
    (.event .proctorInterrupt, { s with arg := { EvArg.zero with a := c } })
  else if !k.laneReady then (.none, s)
  else
    let pc := k.proctor.pc.toNat
    let missing (s : State) (a : Nat) : Pick × State :=
      if (s.walkFind c 0x1000 a).isSome then (.none, s) else (.done, s.startWalk c 0x1000 true a accFetch)
    match s.fetchPacket c 0x1000 true (packetOf pc) with
    | (s, _, some ws) =>
      let ws := ws.drop (pc % 12 / 4)
      if endsChained (s.decodeFor ws) ws then
        match s.fetchPacket c 0x1000 true (packetOf pc + 12) with
        | (s, _, some next) => s.decodeHere ws next
        | (s, some (a, .wait), none) => missing s a
        | (s, none, none) => (.none, s)
        | (s, _, none) => s.decodeHere ws []
      else s.decodeHere ws []
    | (s, some (a, .wait), none) => missing s a
    | (s, some (a, .prot x), none) =>
      (.done, (s.endWalks c 0x1000 [a]).trapProctor c vProtection x a k.proctor.pc false)
    | (s, some (a, .page x), none) =>
      (.done, (s.endWalks c 0x1000 [a]).trapProctor c vPageFault x a k.proctor.pc false)
    | (s, some (_, _), none) => (.none, s)
    | (s, none, none) => (.none, s)

/-- Units that have something that could issue, in a fixed order. -/
def State.units (s : State) : List Unit_ :=
  (dedup ((s.threads.filter s.awake).map (fun t => t.core * 8 + t.part))).map
      (fun n => .part (n / 8) (n % 8))
    ++ ((List.range s.cores.length).filter (fun c =>
        (s.core c).laneReady || (s.core c).interrupted)).map .proctor

/-- A unit's next step. -/
def State.pickUnit (s : State) : Unit_ → Pick × State
  | .part c p => s.pickPart c p
  | .proctor c => s.pickProctor c

/-- The first unit of a list that can step. -/
def State.pickFirst (s : State) : List Unit_ → Pick × State
  | [] => (.none, s)
  | u :: us =>
    match s.pickUnit u with
    | (.none, _) => s.pickFirst us
    | r => r

/-- The next unit: the first of the schedule, else round robin over the units. -/
def State.pickTurn (s : State) : Pick × State :=
  match s.turns with
  | u :: rest =>
    let s : State := { s with turns := rest }
    match s.pickUnit u with
    | (.none, _) => s.pickFirst s.units
    | r => r
  | [] =>
    let us := s.units
    let k := s.rr / 2 % max 1 us.length
    { s with rr := s.rr + 1 }.pickFirst (us.drop k ++ us.take k)

/-- A proctor lane's timer at a device time (R198): bit 0 at each multiple of PTICK, PTMISS where it is set already. -/
def Proctor.timed (p : Proctor) (time : Nat) : Proctor :=
  let n := (time - p.tickT0) / max 1 p.ptick
  if !p.started || n == 0 then p
  else
    { p with tickT0 := p.tickT0 + n * p.ptick, pipend := p.pipend ||| 1
             ptmiss := min 0xFFFF (p.ptmiss + (if p.pipend.getLsbD 0 then n else n - 1)) }

/-- What device time itself brings about, before anything else happens at it: proctor timers (R198), the ends of
sleeps (R211, R319), and the deadlines of children parked at a FUSE.WAIT (R194). -/
def State.timed (s : State) : State :=
  let s : State := { s with cores := s.cores.map (fun k => { k with proctor := k.proctor.timed s.time }) }
  s.threads.foldl (fun (s : State) t =>
    match t.park with
    | .sleep wake k => if wake ≤ s.time then s.sleepEnd t k else s
    | .fuse d dl => if dl < s.time then s.setThread (s.fuseLeave t d (s.fuseCheck t)) else s
    | _ => s) s

/-- Device time moves on by the first of the given amounts, else by 1 ns (log entry 1). -/
def State.tick (s : State) : State :=
  match s.dts with
  | d :: rest => { s with time := s.time + d, dts := rest }.timed
  | [] => { s with time := s.time + 1 }.timed

/-- The hold-up supply has ended (R27). -/
def State.poweredOff (s : State) : Bool :=
  match s.powerLost with | some t => t + 1000000000 < s.time | none => false

/-- Input power returns: the schedule's next step is a power-up (R17). -/
def State.powersUp (s : State) : Bool :=
  match s.agenda with
  | (.deviceReset, _) :: _ => true
  | _ => false

/-- The next step: the first of the agenda, else an instruction. -/
def State.pick (s : State) : Pick × State :=
  match s.agenda with
  | (i, a) :: rest => (.event i, { s with agenda := rest, arg := a })
  | [] => s.pickTurn

/-- Whether the present agent's instruction found its condition unmet. -/
def State.polling (s : State) : Bool :=
  match s.cur with
  | .thread id => match s.thread? id with | some t => t.park == .poll | none => false
  | .proctor c => (s.core c).proctor.park == .poll

/-- After an instruction: what waits for a change looks again, unless nothing has changed but that the
instruction itself must wait. -/
def State.settle (s old : State) : State :=
  if s.polling && s.outs == old.outs && s.redBuf == old.redBuf then s else s.wakeAll

/-- The second of a pair goes on where the first has completed (R143). -/
def State.pairGoesOn (s old : State) (i : Instr) : Bool :=
  s.cur == old.cur && s.pc == nextPc old.pc (hdrOf i) && !s.polling &&
  (match s.cur with
   | .thread id => match s.thread? id with | some t => t.park == .run | none => false
   | .proctor _ => true)

/-- FCLASS.SETFX, whose write of fx is no flag that it sets (R236). -/
def setsFx (i : Instr) : Bool := match i with | .fclassSetfx .. => true | _ => false

/-- The second of a pair reads fx as it was before the first (R143), but for what FCLASS.SETFX wrote, to which flags
are added in program order (R236; FCLASS.GETFX is of the same pipe, so never its second). -/
def State.withFx (s old : State) (i : Instr) : State :=
  if setsFx i then s
  else match s.cur with
  | .thread id =>
    match s.thread? id, old.thread? id with
    | some t, some u => s.setThread { t with fx := u.fx }
    | _, _ => s
  | .proctor c =>
    s.setProctor c { (s.core c).proctor with fx := (old.core c).proctor.fx }

/-- Flags of both of a pair combined by OR (R143); FCLASS.SETFX as the second has the last word. -/
def State.joinFx (s first : State) (i j : Instr) : State :=
  if setsFx i || setsFx j then s
  else match s.cur with
    | .thread id =>
      match s.thread? id, first.thread? id with
      | some t, some u =>
        s.setThread (u.fx.foldl (fun t e =>
          { t with fx := Sparse.set t.fx 0 e.1 (Sparse.get t.fx 0 e.1 ||| e.2) }) t)
      | _, _ => s
    | .proctor c =>
      let p := (s.core c).proctor
      s.setProctor c { p with fx := p.fx ||| (first.core c).proctor.fx }

/-! ## Steps that come about by themselves -/

/-- Without a schedule, every other step goes to the device first. -/
def State.deviceTurn (s : State) : Bool := s.agenda.isEmpty && s.turns.isEmpty && s.rr % 2 == 1

/-- A step with two numbers as its operands. -/
def ev (i : Instr) (a : Nat) (b : Nat := 0) : Instr × EvArg := (i, { EvArg.zero with a := a, b := b })

/-- Fills that an outstanding load, store or prefetch asks for (R289). -/
def State.fillsFor (s : State) (o : Out) : List (Instr × EvArg) :=
  (o.linesOf.filter (fun l => o.fills l && (o.kind == .prefetch
    || (leasedHere o.core l && (s.leaseFor o.core l).isNone)))).map (fun l => ev .lineFill o.id l)

/-- Packets of an operation that a peer may leave without a reply (R298). -/
def timeoutsOf (o : Out) : List (Instr × EvArg) := (o.linesOf.filter isPeer).map (fun l => ev .peerTimeout o.id l)

/-- Steps of memory that may be due. -/
def State.memoryEvents (s : State) : List (Instr × EvArg) :=
  s.walks.map (fun w => ev .pageWalkEnd w.id)
    ++ s.flight.map (fun w => ev .writeArriveHome w.id)
    ++ s.outs.flatMap (fun o =>
      match o.cls with
      | 0 => ev .loadReturn o.id :: s.fillsFor o ++ timeoutsOf o
      | 1 => s.fillsFor o ++ ev .storeAck o.id :: timeoutsOf o
      | 2 => ev .atomReply o.id :: timeoutsOf o
      | _ => s.fillsFor o)
    ++ s.lines.map (fun l => ev .writeVisible l.1)
    ++ (s.caches.filter (·.lease.isSome)).map (fun c => ev .leaseExpiry c.place c.line)

/-- Steps of the engines that may be due. -/
def State.engineEvents (s : State) : List (Instr × EvArg) :=
  s.pressOps.flatMap (fun p =>
      match p.kind with
      | .mma .. => [ev .pressOperationCommit p.id]
      | .gang .. => (List.range 4).map (fun m => ev .gangPartReady p.id m) ++ [ev .gangBoundExpiry p.id]
      | _ => [ev .mtileEnd p.id])
    ++ s.cpys.flatMap (fun c => [ev .copyLineTransfer c.id, ev .copyComplete c.id, ev .peerTimeout c.id])
    ++ s.proofs.map (fun p => ev .proofRecompute p.id)
    ++ (List.range 4).flatMap (fun d =>
      [ev .shootdownComplete d, ev .migrationStart d, ev .migrationCopy d, ev .migrationRemap d
      , ev .migrationReport d, ev .fmodeWriteComplete d, ev .dieStopHalt d])

/-- Steps that end a group's waiting. -/
def threadEvents (t : Thread) : List (Instr × EvArg) :=
  match t.park with
  | .spill .. => [ev .spillFillDone t.id]
  | .release _ => [ev .releaseComplete t.id]
  | .sleep .. => [ev .sleepWake t.id]
  | .fuse .. => [ev .fuseWaitDeadline t.id]
  | .cflush .. => [ev .cflushComplete t.id]
  | _ => (if t.live == 0 then [ev .groupRetire t.id] else [])
      ++ (if t.susp.isSome then [ev .folioWrite t.id] else [])

/-- Steps of the front ends, the proctor lanes and the rest that may be due. -/
def State.otherEvents (s : State) : List (Instr × EvArg) :=
  s.threads.flatMap threadEvents
    ++ (s.launches.filter (fun l => l.state == .accepted)).map (fun l =>
        (.launchChecks, { EvArg.zero with v := l.ident }))
    ++ (s.launches.filter (fun l => l.ringWait || l.half.isSome)).map (fun l =>
        (.completionRingSend, { EvArg.zero with v := l.ident }))
    ++ ((List.range 4).filter (fun d => !s.gangs.isEmpty || !s.launches.isEmpty || (s.die d).spillNew.isSome
          || (s.die d).poolNew.isSome)).map (fun d => ev .placementStep d)
    ++ (List.range 4).map (fun d => ev .plcstatUpdate d)
    ++ (List.range s.cores.length).flatMap (fun c =>
        if (s.core c).proctor.started then
          [ev .proctorTimerTick c, ev .sleepWake (proctorOwner c), ev .releaseComplete (proctorOwner c)]
        else [])
    ++ (if s.tdStep == 0 then [] else [ev .teardownKeyErase 0])
    ++ s.redBuf.map (fun r => ev .redMerge r.core r.line)

/-- The steps that the device takes when nothing issues: the first that changes something. -/
def State.due (s : State) : List (Instr × EvArg) :=
  s.memoryEvents ++ s.engineEvents ++ s.otherEvents

/-! ## Placing an instruction (log entry 2) -/

/-- The number that the service group of a placed instruction takes, and its program counter: a packet
at the start of a fetch block of the supervisor half. -/
def placedPc : W64 := 0xFE00000000000040

/-- A service group of width 16 on core 0 (R42, R378), about to execute at an address. -/
def placedThread (id : Nat) (time : Nat) : Thread :=
  { id := id, core := 0, part := 0, slot := 0, f := 0, width := 16, kwidth := 16, splits := []
    hists := [id], ctx := 0x1000, sup := true, memdef := 0x20, launch := 0, gang := id, team := id
    grp := 0, teamIdx := 0, linear := 0, pc := placedPc, after := placedPc
    exec := maskBelow 16, live := maskBelow 16, rstack := []
    sregs := [(1, BitVec.ofNat 64 (16 * 2 ^ 24)), (4, 4096)], preds := [], fx := []
    store := (List.range 15).map (fun l => (l + 1, BitVec.ofNat 32 (l + 1)))
    storePoison := [], wp := 0, rbase := 0, dres := 64, lim := 64, stkbase := 0, spillbase := 0
    mathctl := 0, srcnt := 0, wlimit := 16, maxWidth := 16, pstat := 0, toks := [], lct := Lct.zero
    acq := 0, resident := time, lastIssue := 0, idleTill := 0, prio := 0, codebase := 0, tile0 := 0, tiles := 0
    park := .run, relDone := false, only := none, desc := none, lineage := 0
    claimSeq := 0, susp := none, marked := [], stopped := false, peerLate := false, lateNow := false, wpNext := 0, bellT := time }

/-- The state in which a service group alone on partition 0 of core 0 is about to issue these words,
which its block buffer holds, and issues next. -/
def State.placed (s : State) (words : List W32) : State :=
  let id := s.nextId
  let team : Team :=
    { id := id, gang := id, idx := 0, pair := false, cores := [0], galley := 4096, pages := [0]
      pages2 := [], bars := [], groups := 1, exited := [], folded := false, retired := false }
  let b : Block :=
    { core := 0, part := 0, ctx := 0x1000, sup := true, va := blockOf placedPc.toNat
      packets := [(placedPc.toNat % 192 / 12, words)] }
  { s with
    nextId := id + 1, agenda := [], turns := [.part 0 0], cur := .thread id
    threads := s.threads.filter (fun t => t.core != 0 || t.part != 0) ++ [placedThread id s.time]
    teams := s.teams ++ [team]
    blocks := s.blocks.filter (fun x => x.core != 0 || x.part != 0) ++ [b] }

end Sys2Proof.Machine
end

