-- ==== Sys2Proof/Machine/MemInstr.lean ====
section
/-! DEFINITION. The memory instructions (R299 to R305): LD, ST, LDU, STU, ATOM, RED, CAS, PFETCH and
CFLUSH. -/

namespace Sys2Proof.Machine

/-! ## Registers of a lane -/

/-- Store keys of n registers of a lane (R176). -/
def Thread.keysOf (t : Thread) (r n l : Nat) : List Nat := (List.range n).map (fun k => t.vkey (r + k) l)

/-- The number that n registers of a lane hold, low word first. -/
def Thread.words (t : Thread) (r n l : Nat) : Nat :=
  ((List.range n).map (fun k => (t.vreg (r + k) l).toNat * 2 ^ (32 * k))).sum

/-- Registers that an access of a size takes. -/
def wordsOf (size : Nat) : Nat := max 1 (size / 4)

/-! ## Control blocks -/

/-- Die and offset of a control block's address. -/
def ctlOf (pa : Nat) : Option (Nat × Nat) :=
  match regionOf pa with | .ctl d off => some (d, off) | _ => none

def isCtl (pa : Nat) : Bool := (ctlOf pa).isSome

/-- Who stores, when the present agent does. -/
def State.writerHere (s : State) : Writer :=
  match s.cur with
  | .thread _ => if s.supHere then .sup s.here else .user
  | .proctor c => .proctor c

/-- A number loaded from a control block. -/
def State.ctlLoad (s : State) (pa n : Nat) : Nat :=
  match ctlOf pa with | some (d, off) => leNat (s.ctlRead d off n) | none => 0

/-- Bytes of one instruction by address: each takes the value of the highest lane (R293). -/
def lastBytes (ws : List (Nat × Byte)) : List (Nat × Byte) :=
  (sortBy (fun x => x) (dedup (ws.map (fun (w : Nat × Byte) => w.1)))).map (fun a =>
    (a, (lookup ws.reverse a).getD 0))

/-- Bytes at rising addresses as runs of consecutive ones inside a line (R124). -/
def runsOf : List (Nat × Byte) → List (Nat × List Byte)
  | [] => []
  | (a, b) :: rest =>
    match runsOf rest with
    | (a', bs) :: rs => if a' == a + 1 && a' % 128 != 0 then (a, b :: bs) :: rs else (a, [b]) :: (a', bs) :: rs
    | [] => [(a, [b])]

/-- Runs of bytes stored to control blocks, in order; none where one must wait. -/
def State.ctlStores (s : State) (w : Writer) : List (Nat × List Byte) → Option State
  | [] => some s
  | (pa, bs) :: rest =>
    match ctlOf pa with
    | some (d, off) =>
      match s.ctlStore w d off bs with
      | some s => s.ctlStores w rest
      | none => none
    | none => s.ctlStores w rest

/-- Die and offset of the lanes of an access that a control block serves. -/
def State.ctlTargets (s : State) (space kind : Nat) (reqs : List (Nat × Nat)) : List (Nat × Nat) :=
  reqs.filterMap (fun r => match s.transIn space r.2 kind with | .ok pa _ _ => ctlOf pa | _ => none)

/-- Whether a write meets FMODE (R23). -/
def meetsFmode (size : Nat) (ts : List (Nat × Nat)) : Bool :=
  ts.any (fun t => t.2 < 0x44 && 0x40 < t.2 + size)

/-- Whether a store goes to SHOOTREQ, before which its writer releases (R132). -/
def meetsShoot (ts : List (Nat × Nat)) : Bool := ts.any (fun t => 0x400 ≤ t.2 && t.2 < 0x420)

/-! ## Before and after an access -/

/-- The modifiers of an access; the physical space is the supervisor's (R114, R151). -/
def State.withMods (s : State) (h : Hdr) (f : Mods → State) : State :=
  let m := s.mods h
  if m.space == 2 && !s.supHere then s.trap h vPrivilege 0x0C else f m

/-- An access that releases does so first (R345, R347). -/
def State.releaseFirst (s : State) (h : Hdr) (scope : Option Nat) (k : State → State) : State :=
  match scope with
  | some n => s.release h n k
  | none => k s

/-- The acquire of an access that has been performed or is outstanding (R346). -/
def State.acquireOn (s : State) : State :=
  match s.cur with
  | .thread _ => s.acquireAfter
  | .proctor c => if s.readsOpen then s.setProctor c { (s.core c).proctor with park := .acquire } else s

/-- Whether an outstanding operation waits on a peer. -/
def State.onPeer (s : State) (id : Nat) : Bool :=
  match s.out? id with
  | some o => o.lanes.any (fun l => match l.place with | .mem pa _ _ => isPeer pa | .gal .. => false)
  | none => false

/-- The end of the issue of a load or atomic whose operation has this number: on to the next instruction,
after the peer's reply (R298), and with its acquire. -/
def State.afterRead (s : State) (h : Hdr) (acq : Bool) (id : Nat) : State :=
  match s.cur, s.onPeer id with
  | .thread _, true =>
    s.withThread (fun t => s.setThread { t with park := .peer id acq, after := nextPc t.pc h })
  | _, _ => if acq then (s.advance h).acquireOn else s.advance h

/-- The writing die drops its own leased copies of a line (R288). -/
def State.dropLeases (s : State) (core line : Nat) : State :=
  { s with caches := s.caches.filter (fun c =>
      !(c.line == line && c.lease.isSome && dieOfCache c.place == dieOf core)) }

/-- An operation is outstanding; packets leave for the lines of peers that it names (R298). -/
def State.outstand (s : State) (id : Nat) (cls : Nat) (kind : OutKind) (m : Mods) (lanes : List LaneAcc) :
    State :=
  let o : Out :=
    { id := id, owners := [s.self], cls := cls, kind := kind, issuer := s.self
      ctx := if m.space == 2 then none else some s.ctxHere, core := s.here, scope := m.scope
      cache := m.cache, issued := s.time, lanes := lanes, report := Lct.zero, late := [], olds := none }
  { s with outs := s.outs ++ [o] }.sendPackets o

/-- Writes under way to a line that one of the present agent's follows: earlier ones of its own (R293), and narrow
ones that its cluster's slice shows (R337). -/
def State.priorWrites (s : State) (line : Nat) : List Nat :=
  (s.flight.filter (fun w => w.line == line && meets w.hists (s.histsOf [s.self])) ++
    s.sliceWrites (clusterOf s.here) line).map (·.id)

/-- A write of the present agent on its way to its home (R334): it reaches its cluster's slice at once, or once the
loads and atomics before it have taken their values (R335, R339). -/
def State.send (s : State) (out : Nat) (m : Mods) (line key mt : Nat) (act : WAct) : State :=
  let (id, s) := s.newId
  let w : Write :=
    { id := id, out := out, hists := [s.self], core := s.here, scope := m.scope, line := line, key := key
      mt := mt, arr := if mt != 0 || s.readsOpen then none else s.sliceTime s.here line
      queued := mt == 0 && s.readsOpen, prior := s.priorWrites line, act := act }
  { s with flight := s.flight ++ [w] }.dropLeases s.here line

/-- A lane's part of an operation in memory. -/
def OkLane.acc (l : OkLane) (size : Nat) (dest : List Nat) (d1 d2 : Nat) : LaneAcc :=
  ⟨l.lane, .mem l.pa l.key l.mt, size, dest, d1, d2, l.va⟩

/-- Writes that a control block has performed are visible now (R336, R341). -/
def State.ctlVisible (s : State) (ls : List OkLane) : State :=
  ls.foldl (fun s l => s.raiseLct [s.self] (Lct.all (s.time + s.guardOf (dieOf s.here) l.pa))) s

/-! ## Loads -/

/-- A loaded value in a lane's registers at once. -/
def State.putLane (s : State) (keys : List Nat) (v : Nat) : State :=
  s.withThread (fun t => s.setThread (t.setKeys keys v))

/-- A uniform load's value at once. -/
def State.putUniform (s : State) (d size v : Nat) : State :=
  let s := s.setSreg d (BitVec.ofNat 64 v)
  if size == 16 then s.setSreg (d + 1) (BitVec.ofNat 64 (v / 2 ^ 64)) else s

/-- The lanes of a load: those of a control block are read at once, the others are outstanding. -/
def State.loadLanes (s : State) (m : Mods) (sx : Bool) (size : Nat) (sdest : Option Nat)
    (keys : Nat → List Nat) (ls : List OkLane) : State :=
  let (id, s) := s.newId
  let s := (ls.filter (fun l => isCtl l.pa)).foldl (fun s l =>
    let v := s.ctlLoad l.pa size
    match sdest with
    | some d => s.putUniform d size (extendLoad sx size 64 v)
    | none => s.putLane (keys l.lane) (extendLoad sx size 32 v)) s
  match ls.filter (fun l => !isCtl l.pa) with
  | [] => s
  | mem => s.outstand id 0 (.load sx sdest) m (mem.map (fun l => l.acc size (keys l.lane) 0 0))

/-- Whether a load sign-extends (R155). -/
def sxOf (h : Hdr) : Bool := (memxOf h).2.2.1

/-- LD (R300). Vector load. -/
def execLd (h : Hdr) (d : BitVec 6) (b : BitVec 6) (x : BitVec 6) (z : BitVec 2) (s : State) :
    Host.Outcome State Fault Refusal :=
  run (.ld h d b x z) s (fun s => s.withThread (fun t => s.withMods h (fun m =>
    let size := sizeOf' h z.toNat
    let reqs := t.requests h b.toNat x.toNat size
    let keys (l : Nat) : List Nat := t.keysOf d.toNat (wordsOf size) l
    let acq := m.ord == 1
    if m.space == 1 then
      s.galAccess h size true reqs (fun s ls =>
        (ls.foldl (fun s l =>
          s.putLane (keys l.lane) (extendLoad (sxOf h) size 32 (leNat (s.galRead l.team l.off size)))) s).advance h)
    else
      s.access h m.space accRead size true reqs
        (fun s ls => some (s.loadLanes m (sxOf h) size none keys ls))
        (fun s' => s'.afterRead h acq s.nextId))))

/-- LDU (R300). Uniform load. -/
def execLdu (h : Hdr) (d : BitVec 6) (b : BitVec 6) (z : BitVec 2) (s : State) :
    Host.Outcome State Fault Refusal :=
  run (.ldu h d b z) s (fun s => s.withMods h (fun m =>
    let size := sizeOf' h z.toNat
    let reqs := [(0, s.uniAddr h b.toNat)]
    let acq := m.ord == 1
    if m.space == 1 then
      s.galAccess h size true reqs (fun s ls =>
        (ls.foldl (fun s l =>
          s.putUniform d.toNat size (extendLoad (sxOf h) size 64 (leNat (s.galRead l.team l.off size)))) s).advance h)
    else
      s.access h m.space accRead size true reqs
        (fun s ls => some (s.loadLanes m (sxOf h) size (some d.toNat) (fun _ => []) ls))
        (fun s' => s'.afterRead h acq s.nextId)))

/-! ## Stores -/

/-- A store or reduction: its gate, and past it its effect. One that stalls with st at 63 has its group's reduction
lines merged (R296, case 3). -/
def runStore (i : Instr) (s : State) (effect : State → State) : Host.Outcome State Fault Refusal :=
  match gate i s with
  | some s' => .next (if 63 ≤ s.countOuts s.self 1 then s'.mergeOwn s.self else s')
  | none => .next (effect s)

/-- Lanes of a store with their bytes: those of a control block are stored at once, after the loads and atomics before
them (R339), the others leave one write for each line. None where a control block makes the store wait. -/
def State.storeLanes (s : State) (m : Mods) (size : Nat) (ls : List (OkLane × Nat)) : Option State :=
  let bytesOf (l : OkLane × Nat) : List (Nat × Byte) := (leBytes size l.2).mapIdx (fun i b => (l.1.pa + i, b))
  let dev := ls.filter (fun l => isCtl l.1.pa)
  if !dev.isEmpty && s.readsOpen then none
  else match s.ctlStores s.writerHere (runsOf (lastBytes (dev.flatMap bytesOf))) with
  | none => none
  | some s =>
    let s := s.ctlVisible (dev.map (·.1))
    match ls.filter (fun l => !isCtl l.1.pa) with
    | [] => some s
    | mem =>
      let (id, s) := s.newId
      let s := s.outstand id 1 .store m (mem.map (fun l => l.1.acc size [] l.2 0))
      let lines := mem.map (fun l => (lineOf l.1.pa, l.1.key, l.1.mt))
      let keyed := lines.foldl (fun (ks : List (Nat × Nat × Nat)) k =>
        if ks.contains k then ks else ks ++ [k]) []
      some (keyed.foldl (fun (s : State) k =>
        let bs := lastBytes ((mem.filter (fun l => (lineOf l.1.pa, l.1.key, l.1.mt) == k)).flatMap bytesOf)
        s.send id m k.1 k.2.1 k.2.2 (.bytes (bs.map (fun e => (e.1 - k.1, e.2))))) s)

/-- A store, vector or uniform (R301): lanes with their addresses and data. In a galley it is performed at its bank,
once the loads and atomics before it have taken their values (R339). -/
def State.storeAt (s : State) (h : Hdr) (size : Nat) (reqs : List (Nat × Nat)) (data : Nat → Nat) : State :=
  s.withMods h (fun m =>
    let ts := if m.space == 1 || reqs.any (fun r => r.2 % size != 0) then []
      else s.ctlTargets m.space accWrite reqs
    let group := match s.cur with | .thread _ => true | .proctor _ => false
    let rel : Option Nat :=
      if meetsShoot ts then some (max 4 (if m.ord == 2 then m.scope else 0))
      else if m.ord == 2 then some m.scope else none
    if group && meetsFmode size ts then s.trap h vPrivilege 0x0C
    else
      s.releaseFirst h rel (fun s =>
        if m.space == 1 then
          if s.readsOpen then s.poll
          else s.galAccess h size false reqs (fun s ls =>
            (ls.foldl (fun s l =>
              s.galWrite l.team ((leBytes size (data l.lane)).mapIdx (fun i b => (l.off + i, b)))) s).galVisible.advance h)
        else
          s.access h m.space accWrite size false reqs
            (fun s ls => s.storeLanes m size (ls.map (fun l => (l, data l.lane))))
            (fun s => s.advance h)))

/-- ST (R301). Vector store. -/
def execSt (h : Hdr) (d : BitVec 6) (b : BitVec 6) (x : BitVec 6) (z : BitVec 2) (s : State) :
    Host.Outcome State Fault Refusal :=
  runStore (.st h d b x z) s (fun s => s.withThread (fun t =>
    let size := sizeOf' h z.toNat
    s.storeAt h size (t.requests h b.toNat x.toNat size) (fun l => t.words d.toNat (wordsOf size) l)))

/-- STU (R301). Uniform store. -/
def execStu (h : Hdr) (d : BitVec 6) (b : BitVec 6) (z : BitVec 2) (s : State) :
    Host.Outcome State Fault Refusal :=
  runStore (.stu h d b z) s (fun s =>
    let size := sizeOf' h z.toNat
    let v := (s.sreg d.toNat).toNat + (if size == 16 then (s.sreg (d.toNat + 1)).toNat * 2 ^ 64 else 0)
    s.storeAt h size [(0, s.uniAddr h b.toNat)] (fun _ => v))

/-! ## Atomics -/

/-- One lane of an atomic in a control block, as one indivisible read and write (R294): none where the
write must wait. -/
def State.ctlAtom (s : State) (k : OutKind) (pa size d1 d2 : Nat) : Option (State × Nat) :=
  let old := s.ctlLoad pa size
  match atomNew k size old d1 d2 with
  | none => some (s, old)
  | some v => (s.ctlStores s.writerHere [(pa, leBytes size v)]).map (fun s => (s, old))

/-- An atomic's operands in a lane: old values go to these keys. -/
structure AtomOps where
  kind : OutKind
  keys : Nat → List Nat
  d1 : Nat → Nat
  d2 : Nat → Nat

/-- Lanes of an atomic in control blocks, in ascending order (R293, R294). -/
def State.ctlAtoms (s : State) (a : AtomOps) (size : Nat) : List OkLane → Option State
  | [] => some s
  | l :: ls =>
    match s.ctlAtom a.kind l.pa size (a.d1 l.lane) (a.d2 l.lane) with
    | some (s, old) => ((s.putLane (a.keys l.lane) old).ctlVisible [l]).ctlAtoms a size ls
    | none => none

/-- Lanes of an ATOM or CAS: those of memory are outstanding until they reply, those of a control block are performed
once the loads and atomics before them have taken their values (R339). -/
def State.atomLanes (s : State) (m : Mods) (a : AtomOps) (size : Nat) (ls : List OkLane) : Option State :=
  let (id, s) := s.newId
  if s.readsOpen && ls.any (fun l => isCtl l.pa) then none
  else match s.ctlAtoms a size (ls.filter (fun l => isCtl l.pa)) with
  | none => none
  | some s =>
    match ls.filter (fun l => !isCtl l.pa) with
    | [] => some s
    | mem =>
      let s := s.outstand id 2 a.kind m
        (mem.map (fun l => l.acc size (a.keys l.lane) (a.d1 l.lane) (a.d2 l.lane)))
      some (mem.foldl (fun s l => s.dropLeases s.here (lineOf l.pa)) s)

/-- Lanes of an atomic in a galley, in ascending order, each indivisibly at its bank (R293, R294). -/
def State.galAtoms (s : State) (a : AtomOps) (size : Nat) (ls : List GalLane) : State :=
  (ls.foldl (fun s l =>
    let old := leNat (s.galRead l.team l.off size)
    let s := s.putLane (a.keys l.lane) old
    match atomNew a.kind size old (a.d1 l.lane) (a.d2 l.lane) with
    | some v => s.galWrite l.team (bytesAt l.off size v)
    | none => s) s).galVisible

/-- An ATOM or CAS (R302, R303), with its release before and its acquire after (R347). -/
def State.atomAt (s : State) (h : Hdr) (size : Nat) (reqs : List (Nat × Nat)) (a : AtomOps) : State :=
  s.withMods h (fun m =>
    let ts := if m.space == 1 || reqs.any (fun r => r.2 % size != 0) then []
      else s.ctlTargets m.space accAtomic reqs
    if meetsFmode size ts then s.trap h vPrivilege 0x0C
    else
      s.releaseFirst h (if 2 ≤ m.ord then some m.scope else none) (fun s =>
        if m.space == 1 then
          if s.readsOpen then s.poll
          else s.galAccess h size true reqs (fun s ls => (s.galAtoms a size ls).advance h)
        else
          s.access h m.space accAtomic size true reqs (fun s ls => s.atomLanes m a size ls)
            (fun s' => s'.afterRead h (m.ord % 2 == 1) s.nextId)))

/-- The operation word of ATOM and RED is malformed (R302). -/
def atomOpBad (v : W64) (red : Bool) : Bool := 9 < v.toNat || (red && v.toNat == 0)

/-- ATOM (R302). Atomic read-modify-write returning old values. -/
def execAtom (h : Hdr) (d : BitVec 6) (b : BitVec 6) (x : BitVec 6) (z : BitVec 2) (s : State) :
    Host.Outcome State Fault Refusal :=
  run (.atom h d b x z) s (fun s => s.withThread (fun t =>
    let size := 2 ^ z.toNat
    let op := t.sreg (regxY h)
    if atomOpBad op false then s.trap h vIllegal 0x06
    else
      s.atomAt h size (t.requests h b.toNat x.toNat size)
        { kind := .atom op.toNat, keys := t.keysOf (regxX h) (wordsOf size)
          d1 := t.words d.toNat (wordsOf size), d2 := fun _ => 0 }))

/-- CAS (R303). Compare and swap. -/
def execCas (h : Hdr) (d : BitVec 6) (b : BitVec 6) (x : BitVec 6) (z : BitVec 1) (s : State) :
    Host.Outcome State Fault Refusal :=
  run (.cas h d b x z) s (fun s => s.withThread (fun t =>
    let size := sizeOf' h (2 + z.toNat)
    let n := wordsOf size
    s.atomAt h size (t.requests h b.toNat x.toNat size)
      { kind := .cas, keys := t.keysOf d.toNat n, d1 := t.words d.toNat n, d2 := t.words (d.toNat + n) n }))

/-! ## Reductions -/

/-- Whether a reduction goes to its core's buffer (R294, R295, R297). -/
def buffers (m : Mods) (l : OkLane) : Bool := !m.det && l.mt == 0 && homedHere l.pa

/-- A write to a line is under way that a reduction of the present agent must not pass (R293, R337). -/
def State.redBehind (s : State) (out line : Nat) : Bool :=
  s.flight.any (fun w => w.line == line && w.out != out && (s.priorWrites line).contains w.id)

/-- One lane of a RED into its core's buffer (R295); none where what must go first has not arrived, or a line
cannot be merged yet. -/
def State.redTry (s : State) (m : Mods) (out op size : Nat) (l : OkLane) (v : Nat) : Option State :=
  let core := s.here
  let line := lineOf l.pa
  let off := l.pa - line
  let mine (r : RedLine) : Bool := r.core == core && r.line == line
  let s := match s.redBuf.find? mine with
    | some r => if conflicts r.slots off op size || r.key != l.key then s.mergeWhere mine else s
    | none => s
  if s.redBehind out line then none
  else match s.redBuf.find? mine with
  | some r =>
    if conflicts r.slots off op size || r.key != l.key then none
    else some (s.redEnter core line l.key m.scope off op size v s.self out)
  | none =>
    let s' := s.redEnter core line l.key m.scope off op size v s.self out
    if redLines < (s'.redBuf.filter (fun r => r.core == core)).length then none else some s'

/-- One lane of a RED that is sent to its home at issue (R294, R297): a line of its own core's buffer that
holds its location is merged first. -/
def State.redSend (s : State) (m : Mods) (out op size : Nat) (l : OkLane) (v : Nat) : Option State :=
  let line := lineOf l.pa
  let mine (r : RedLine) : Bool := r.core == s.here && r.line == line
  let s := s.mergeWhere mine
  if s.redBuf.any mine then none
  else some (s.send out m line l.key l.mt (.red op (l.pa - line) size v))

/-- Lanes of a RED in memory, in ascending order. -/
def State.redLanes (s : State) (m : Mods) (op size out : Nat) (data : Nat → Nat) : List OkLane → Option State
  | [] => some s
  | l :: ls =>
    let v := data l.lane
    match (if buffers m l then s.redTry m out op size l v else s.redSend m out op size l v) with
    | some s => s.redLanes m op size out data ls
    | none => none

/-- All lanes of a RED: control blocks at once, the others outstanding until they have arrived; a peer executes the
lanes of each of its lines (R298). -/
def State.redAll (s : State) (m : Mods) (op size : Nat) (data : Nat → Nat) (ls : List OkLane) : Option State :=
  let dev : AtomOps := { kind := .atom op, keys := fun _ => [], d1 := data, d2 := fun _ => 0 }
  match s.ctlAtoms dev size (ls.filter (fun l => isCtl l.pa)) with
  | none => none
  | some s =>
    match ls.filter (fun l => !isCtl l.pa) with
    | [] => some s
    | mem =>
      let (id, s) := s.newId
      let s := s.outstand id 1 (.red op) m (mem.map (fun l => l.acc size [] (data l.lane) 0))
      let s := mem.foldl (fun s l => s.dropLeases s.here (lineOf l.pa)) s
      let peers := mem.filter (fun l => isPeer l.pa)
      ((dedup (peers.map (fun l => (lineOf l.pa, l.key, l.mt)))).foldl
        (fun (s : State) k => s.send id m k.1 k.2.1 k.2.2 (.bytes [])) s).redLanes m op size id data
          (mem.filter (fun l => !isPeer l.pa))

/-- RED (R302). Atomic reduction without return, buffered or sent to the home. It issues once its group's
earlier loads and atomics have taken their values (R339). -/
def execRed (h : Hdr) (d : BitVec 6) (b : BitVec 6) (x : BitVec 6) (z : BitVec 2) (s : State) :
    Host.Outcome State Fault Refusal :=
  runStore (.red h d b x z) s (fun s => s.withThread (fun t => s.withMods h (fun m =>
    let size := 2 ^ z.toNat
    let op := t.sreg (regxY h)
    let reqs := t.requests h b.toNat x.toNat size
    let data := t.words d.toNat (wordsOf size)
    let ts := if m.space == 1 || reqs.any (fun r => r.2 % size != 0) then []
      else s.ctlTargets m.space accAtomic reqs
    if atomOpBad op true then s.trap h vIllegal 0x06
    else if meetsFmode size ts then s.trap h vPrivilege 0x0C
    else
      s.releaseFirst h (if m.ord == 2 then some m.scope else none) (fun s =>
        if s.readsOpen then s.poll
        else if m.space == 1 then
          s.galAccess h size false reqs (fun s ls =>
            (s.galAtoms { kind := .atom op.toNat, keys := fun _ => [], d1 := data, d2 := fun _ => 0 }
              size ls).advance h)
        else
          s.access h m.space accAtomic size false reqs (fun s ls => s.redAll m op.toNat size data ls)
            (fun s => s.advance h)))))

/-! ## PFETCH and CFLUSH -/

/-- A line's bytes come from outside the device. -/
def isOutside (pa : Nat) : Bool := isPeer pa || isHost pa

/-- Lines are filled under a policy (R304): at once where the home can answer, else by LINE_FILL. -/
def State.prefetch (s : State) (m : Mods) (lines : List (Nat × Nat × Nat)) : State :=
  let (s, rest) := lines.foldl (fun (x : State × List (Nat × Nat × Nat)) l =>
    match (if isOutside l.1 || x.1.owned l.1 then none else x.1.fill x.1.here l.1 m.cache false 0 []) with
    | some s => (s, x.2)
    | none => (x.1, x.2 ++ [l])) (s, [])
  if rest.isEmpty then s
  else
    let (id, s) := s.newId
    s.outstand id 3 .prefetch m (rest.map (fun l => ⟨0, .mem l.1 l.2.1 0, 128, [], 0, 0, l.2.2⟩))

/-- PFETCH (R304). Prefetches lines under a cache policy. -/
def execPfetch (h : Hdr) (b : BitVec 6) (x : BitVec 6) (z : BitVec 2) (s : State) :
    Host.Outcome State Fault Refusal :=
  run (.pfetch h b x z) s (fun s => s.withThread (fun t => s.withMods h (fun m =>
    let reqs := t.requests h b.toNat x.toNat (sizeOf' h z.toNat)
    if m.cache == 3 then s.trap h vIllegal 0x06
    else if m.space == 1 then s.advance h
    else
      let rs := reqs.map (fun r => (r.2, s.transIn m.space r.2 accRead))
      let missing := rs.filterMap (fun (r : Nat × Trans) => if r.2 == .wait then some r.1 else none)
      if !missing.isEmpty then (s.walkFor missing accRead).poll
      else
        let lines := dedup (rs.filterMap (fun (r : Nat × Trans) =>
          match r.2 with
          | .ok pa key mt => if mt == 0 && !isCtl pa then some (lineOf pa, key, lineOf r.1) else none
          | _ => none))
        ((s.prefetch m lines).reported (reqs.map (·.2))).advance h)))

/-- Whether lines have nothing left that must still reach their memory (R305). -/
def State.writtenBack (s : State) (lines : List Nat) : Bool :=
  lines.all (fun l => (s.pends l).isEmpty && !s.buffered l && !s.flight.any (fun w => w.line == l && w.hists.contains s.self))

/-- Lines of the second tier and of expanders have reached their memory (R27, R305). -/
def State.flushed (s : State) (lines : List Nat) : State :=
  { s with dirty := s.dirty.filter (fun e => !lines.contains e.1) }

/-- What CFLUSH does once its range is translated (R305): a group parks, a proctor lane waits. -/
def State.cflushLines (s : State) (h : Hdr) (d n : Nat) (lines : List Nat) : State :=
  let s := lines.foldl State.recall (s.mergeOwn s.self)
  if s.countOuts s.self 1 != 0 || s.redBuf.any (fun r => r.threads.contains s.self)
      || lines.any s.buffered then s.poll
  else
    match s.cur with
    | .thread _ =>
      s.withThread (fun t => s.setThread { t with park := .cflush d n lines, after := nextPc t.pc h })
    | .proctor _ =>
      if s.writtenBack lines then ((s.flushed lines).setSreg d (BitVec.ofNat 64 n)).advance h else s.poll

/-- CFLUSH (R305). Merges reductions and writes dirty lines of a range back to memory. -/
def execCflush (h : Hdr) (d : BitVec 7) (a : BitVec 7) (b : BitVec 6) (s : State) :
    Host.Outcome State Fault Refusal :=
  run (.cflush h d a b) s (fun s =>
    let space := match h.mmod with | some p => p.space.toNat | none => 0
    let lo := (s.sreg a.toNat).toNat
    let n := min (s.sreg b.toNat).toNat (0x10000 - lo % 0x10000)
    if space == 2 && !s.supHere then s.trap h vPrivilege 0x0C
    else if n == 0 then (s.setSreg d.toNat 0).advance h
    else s.runAccess h space accRead lo n (fun s ps => s.cflushLines h d.toNat n (dedup (partLines ps))))

/-- CFLUSH_COMPLETE (R305). A parked CFLUSH completes and writes s[d] once every write-back it caused has
been accepted by its memory controller, or completed by the host agent. -/
def execCflushComplete (s : State) : Host.Outcome State Fault Refusal :=
  .next (match s.thread? s.arg.a with
    | some t =>
      match t.park with
      | .cflush d n lines =>
        if !lines.all (fun l => (s.pends l).isEmpty) || s.locked t d then s
        else
          (s.flushed lines).setThread
            { t.setSreg d (BitVec.ofNat 64 n) with pc := t.after, park := .run, relDone := false, only := none }
      | _ => s
    | none => s)

end Sys2Proof.Machine
end

