-- ==== Sys2Proof/Machine/Uniform.lean ====
section
/-! DEFINITION. Uniform instructions, OPs 0x20 to 0x3F (R217, R218): 64-bit values, once per group or
child, or on a proctor lane. No flag is set. -/

namespace Sys2Proof.Machine

/-- A result written to s[d], going on to the next instruction. -/
def uniWrite (i : Instr) (h : Hdr) (d : Nat) (s : State) (f : State → W64) :
    Host.Outcome State Fault Refusal :=
  run i s (fun s => (s.setSreg d (f s)).advance h)

/-- An operation on s[a] and the register that supplies b (R217). -/
def uniOp (i : Instr) (h : Hdr) (d a : BitVec 7) (b : BitVec 6) (s : State) (f : W64 → W64 → W64) :
    Host.Outcome State Fault Refusal :=
  uniWrite i h d.toNat s (fun s => f (s.sreg a.toNat) (s.sreg (sourceB h b)))

/-- An operation on s[a] alone (R217). -/
def uniOne (i : Instr) (h : Hdr) (d a : BitVec 7) (s : State) (f : W64 → W64) :
    Host.Outcome State Fault Refusal :=
  uniWrite i h d.toNat s (fun s => f (s.sreg a.toNat))

/-- A 64-bit left shift by an unsigned amount; 0 from 64 up (R217). -/
def ushl64 (a b : W64) : W64 := BitVec.ofNat 64 (shiftL 64 a.toNat b.toNat)

/-- A 64-bit logical right shift; 0 from 64 up (R217). -/
def ushr64 (a b : W64) : W64 := BitVec.ofNat 64 (shiftR 64 a.toNat b.toNat)

/-- A 64-bit arithmetic right shift; every bit a copy of a[63] from 64 up (R217). -/
def usar64 (a b : W64) : W64 := BitVec.ofNat 64 (shiftA 64 a.toNat b.toNat)

/-- UBFX: (a >> pos) masked to len bits (R217). -/
def ubfx64 (a b : W64) : W64 :=
  let pos := bits b.toNat 0 6
  let len := min (bits b.toNat 8 7) (64 - pos)
  BitVec.ofNat 64 (a.toNat / 2 ^ pos % 2 ^ len)


/-- UADD (R217). Uniform add. -/
def execUadd (h : Hdr) (d : BitVec 7) (a : BitVec 7) (b : BitVec 6) (s : State) : Host.Outcome State Fault Refusal :=
  uniOp (.uadd h d a b) h d a b s (fun a b => a + b)

/-- USUB (R217). Uniform subtract. -/
def execUsub (h : Hdr) (d : BitVec 7) (a : BitVec 7) (b : BitVec 6) (s : State) : Host.Outcome State Fault Refusal :=
  uniOp (.usub h d a b) h d a b s (fun a b => a - b)

/-- UMUL (R217). Uniform multiply, low 64 bits. -/
def execUmul (h : Hdr) (d : BitVec 7) (a : BitVec 7) (b : BitVec 6) (s : State) : Host.Outcome State Fault Refusal :=
  uniOp (.umul h d a b) h d a b s (fun a b => a * b)

/-- UMULHS (R217). Uniform signed multiply, high 64 bits. -/
def execUmulhs (h : Hdr) (d : BitVec 7) (a : BitVec 7) (b : BitVec 6) (s : State) : Host.Outcome State Fault Refusal :=
  uniOp (.umulhs h d a b) h d a b s (fun a b => BitVec.ofInt 64 (a.toInt * b.toInt / 2 ^ 64))

/-- UMULHN (R217). Uniform unsigned multiply, high 64 bits. -/
def execUmulhn (h : Hdr) (d : BitVec 7) (a : BitVec 7) (b : BitVec 6) (s : State) : Host.Outcome State Fault Refusal :=
  uniOp (.umulhn h d a b) h d a b s (fun a b => BitVec.ofNat 64 (a.toNat * b.toNat / 2 ^ 64))

/-- UAND (R217). Uniform bitwise and. -/
def execUand (h : Hdr) (d : BitVec 7) (a : BitVec 7) (b : BitVec 6) (s : State) : Host.Outcome State Fault Refusal :=
  uniOp (.uand h d a b) h d a b s (fun a b => a &&& b)

/-- UOR (R217). Uniform bitwise or. -/
def execUor (h : Hdr) (d : BitVec 7) (a : BitVec 7) (b : BitVec 6) (s : State) : Host.Outcome State Fault Refusal :=
  uniOp (.uor h d a b) h d a b s (fun a b => a ||| b)

/-- UXOR (R217). Uniform bitwise exclusive or. -/
def execUxor (h : Hdr) (d : BitVec 7) (a : BitVec 7) (b : BitVec 6) (s : State) : Host.Outcome State Fault Refusal :=
  uniOp (.uxor h d a b) h d a b s (fun a b => a ^^^ b)

/-- USHL (R217). Uniform shift left. -/
def execUshl (h : Hdr) (d : BitVec 7) (a : BitVec 7) (b : BitVec 6) (s : State) : Host.Outcome State Fault Refusal :=
  uniOp (.ushl h d a b) h d a b s (fun a b => ushl64 a b)

/-- USHR (R217). Uniform logical shift right. -/
def execUshr (h : Hdr) (d : BitVec 7) (a : BitVec 7) (b : BitVec 6) (s : State) : Host.Outcome State Fault Refusal :=
  uniOp (.ushr h d a b) h d a b s (fun a b => ushr64 a b)

/-- USAR (R217). Uniform arithmetic shift right. -/
def execUsar (h : Hdr) (d : BitVec 7) (a : BitVec 7) (b : BitVec 6) (s : State) : Host.Outcome State Fault Refusal :=
  uniOp (.usar h d a b) h d a b s (fun a b => usar64 a b)

/-- UMINS (R217). Uniform signed minimum. -/
def execUmins (h : Hdr) (d : BitVec 7) (a : BitVec 7) (b : BitVec 6) (s : State) : Host.Outcome State Fault Refusal :=
  uniOp (.umins h d a b) h d a b s (fun a b => if b.slt a then b else a)

/-- UMINN (R217). Uniform unsigned minimum. -/
def execUminn (h : Hdr) (d : BitVec 7) (a : BitVec 7) (b : BitVec 6) (s : State) : Host.Outcome State Fault Refusal :=
  uniOp (.uminn h d a b) h d a b s (fun a b => if b.ult a then b else a)

/-- UMAXS (R217). Uniform signed maximum. -/
def execUmaxs (h : Hdr) (d : BitVec 7) (a : BitVec 7) (b : BitVec 6) (s : State) : Host.Outcome State Fault Refusal :=
  uniOp (.umaxs h d a b) h d a b s (fun a b => if a.slt b then b else a)

/-- UMAXN (R217). Uniform unsigned maximum. -/
def execUmaxn (h : Hdr) (d : BitVec 7) (a : BitVec 7) (b : BitVec 6) (s : State) : Host.Outcome State Fault Refusal :=
  uniOp (.umaxn h d a b) h d a b s (fun a b => if a.ult b then b else a)

/-- USEL (R217). Uniform select on the old destination value. -/
def execUsel (h : Hdr) (d : BitVec 7) (a : BitVec 7) (b : BitVec 6) (s : State) : Host.Outcome State Fault Refusal :=
  uniWrite (.usel h d a b) h d.toNat s (fun s =>
    if s.sreg d.toNat != 0 then s.sreg a.toNat else s.sreg (sourceB h b))

/-- UADDI (R217). Uniform add of a signed 6-bit immediate. -/
def execUaddi (h : Hdr) (d : BitVec 7) (a : BitVec 7) (i : BitVec 6) (s : State) : Host.Outcome State Fault Refusal :=
  uniOne (.uaddi h d a i) h d a s (fun a => a + imm6s i)

/-- UANDI (R217). Uniform and with an immediate. -/
def execUandi (h : Hdr) (d : BitVec 7) (a : BitVec 7) (i : BitVec 6) (s : State) : Host.Outcome State Fault Refusal :=
  uniOne (.uandi h d a i) h d a s (fun a => a &&& imm6s i)

/-- UORI (R217). Uniform or with an immediate. -/
def execUori (h : Hdr) (d : BitVec 7) (a : BitVec 7) (i : BitVec 6) (s : State) : Host.Outcome State Fault Refusal :=
  uniOne (.uori h d a i) h d a s (fun a => a ||| imm6s i)

/-- UXORI (R217). Uniform exclusive or with an immediate. -/
def execUxori (h : Hdr) (d : BitVec 7) (a : BitVec 7) (i : BitVec 6) (s : State) : Host.Outcome State Fault Refusal :=
  uniOne (.uxori h d a i) h d a s (fun a => a ^^^ imm6s i)

/-- USHLI (R217). Uniform shift left by an immediate. -/
def execUshli (h : Hdr) (d : BitVec 7) (a : BitVec 7) (i : BitVec 6) (s : State) : Host.Outcome State Fault Refusal :=
  uniOne (.ushli h d a i) h d a s (fun a => ushl64 a (i.zeroExtend 64))

/-- USHRI (R217). Uniform logical shift right by an immediate. -/
def execUshri (h : Hdr) (d : BitVec 7) (a : BitVec 7) (i : BitVec 6) (s : State) : Host.Outcome State Fault Refusal :=
  uniOne (.ushri h d a i) h d a s (fun a => ushr64 a (i.zeroExtend 64))

/-- USARI (R217). Uniform arithmetic shift right by an immediate. -/
def execUsari (h : Hdr) (d : BitVec 7) (a : BitVec 7) (i : BitVec 6) (s : State) : Host.Outcome State Fault Refusal :=
  uniOne (.usari h d a i) h d a s (fun a => usar64 a (i.zeroExtend 64))

/-- USEQ (R217). Uniform set on equal. -/
def execUseq (h : Hdr) (d : BitVec 7) (a : BitVec 7) (b : BitVec 6) (s : State) : Host.Outcome State Fault Refusal :=
  uniOp (.useq h d a b) h d a b s (fun a b => if a = b then 1 else 0)

/-- USNE (R217). Uniform set on not equal. -/
def execUsne (h : Hdr) (d : BitVec 7) (a : BitVec 7) (b : BitVec 6) (s : State) : Host.Outcome State Fault Refusal :=
  uniOp (.usne h d a b) h d a b s (fun a b => if a = b then 0 else 1)

/-- USLTS (R217). Uniform set on signed less than. -/
def execUslts (h : Hdr) (d : BitVec 7) (a : BitVec 7) (b : BitVec 6) (s : State) : Host.Outcome State Fault Refusal :=
  uniOp (.uslts h d a b) h d a b s (fun a b => if a.slt b then 1 else 0)

/-- USLTN (R217). Uniform set on unsigned less than. -/
def execUsltn (h : Hdr) (d : BitVec 7) (a : BitVec 7) (b : BitVec 6) (s : State) : Host.Outcome State Fault Refusal :=
  uniOp (.usltn h d a b) h d a b s (fun a b => if a.ult b then 1 else 0)

/-- UBFX (R217). Uniform bit-field extract. -/
def execUbfx (h : Hdr) (d : BitVec 7) (a : BitVec 7) (b : BitVec 6) (s : State) : Host.Outcome State Fault Refusal :=
  uniOp (.ubfx h d a b) h d a b s (fun a b => ubfx64 a b)

/-- UMOVI (R218). Writes a sign-extended immediate to a uniform register. -/
def execUmovi (h : Hdr) (d : BitVec 6) (i : BitVec 8) (s : State) : Host.Outcome State Fault Refusal :=
  uniWrite (.umovi h d i) h d.toNat s (fun _ => (imm32 h i).signExtend 64)

/-- URDLANE (R217). Reads one lane of a vector register into a uniform register. -/
def execUrdlane (h : Hdr) (d : BitVec 7) (a : BitVec 7) (b : BitVec 6) (s : State) : Host.Outcome State Fault Refusal :=
  run (.urdlane h d a b) s (fun s => s.withThread (fun t =>
    let l := (t.sreg (sourceB h b)).toNat % t.width
    (s.setSreg d.toNat ((t.vreg a.toNat l).zeroExtend 64)).advance h))

/-- UPOPC (R217). Uniform population count. -/
def execUpopc (h : Hdr) (d : BitVec 7) (a : BitVec 7) (s : State) : Host.Outcome State Fault Refusal :=
  uniOne (.upopc h d a) h d a s (fun a => BitVec.ofNat 64 (popcount 64 a.toNat))

/-- UCLZ (R217). Uniform count of leading zeros. -/
def execUclz (h : Hdr) (d : BitVec 7) (a : BitVec 7) (s : State) : Host.Outcome State Fault Refusal :=
  uniOne (.uclz h d a) h d a s (fun a => BitVec.ofNat 64 (64 - bitLen a.toNat))

end Sys2Proof.Machine
end

