-- ==== Sys2Proof/Machine/Dispatch.lean ====
section
/-! DEFINITION. One arm for each instruction and each step of the device: one direct call of its
meaning. -/

namespace Sys2Proof.Machine

def exec (i : Instr) (s : State) : Host.Outcome State Fault Refusal :=
  match i with
  | .deviceReset => Sys2Proof.Machine.execDeviceReset s
  | .stageLimitExceeded => Sys2Proof.Machine.execStageLimitExceeded s
  | .bootrepStore => Sys2Proof.Machine.execBootrepStore s
  | .startokWrite => Sys2Proof.Machine.execStartokWrite s
  | .measurementExtend => Sys2Proof.Machine.execMeasurementExtend s
  | .quoteRequest => Sys2Proof.Machine.execQuoteRequest s
  | .quoteComplete => Sys2Proof.Machine.execQuoteComplete s
  | .hostQuoteRequest => Sys2Proof.Machine.execHostQuoteRequest s
  | .standInClaim => Sys2Proof.Machine.execStandInClaim s
  | .standInRelease => Sys2Proof.Machine.execStandInRelease s
  | .maintWriteFlash => Sys2Proof.Machine.execMaintWriteFlash s
  | .maintResetCounter => Sys2Proof.Machine.execMaintResetCounter s
  | .fmodeWrite => Sys2Proof.Machine.execFmodeWrite s
  | .fmodeWriteComplete => Sys2Proof.Machine.execFmodeWriteComplete s
  | .powerLoss => Sys2Proof.Machine.execPowerLoss s
  | .powerCapExceeded => Sys2Proof.Machine.execPowerCapExceeded s
  | .pwrcapWrite => Sys2Proof.Machine.execPwrcapWrite s
  | .dieStop => Sys2Proof.Machine.execDieStop s
  | .dieStopHalt => Sys2Proof.Machine.execDieStopHalt s
  | .dieRestart => Sys2Proof.Machine.execDieRestart s
  | .plcstatUpdate => Sys2Proof.Machine.execPlcstatUpdate s
  | .ptpSyncExchange => Sys2Proof.Machine.execPtpSyncExchange s
  | .ptpboundWrite => Sys2Proof.Machine.execPtpboundWrite s
  | .registerWrite => Sys2Proof.Machine.execRegisterWrite s
  | .ctxCreate => Sys2Proof.Machine.execCtxCreate s
  | .ctxSetMemdef => Sys2Proof.Machine.execCtxSetMemdef s
  | .keySeal => Sys2Proof.Machine.execKeySeal s
  | .keyUnseal => Sys2Proof.Machine.execKeyUnseal s
  | .launchSubmit => Sys2Proof.Machine.execLaunchSubmit s
  | .launchChecks => Sys2Proof.Machine.execLaunchChecks s
  | .mailboxSend => Sys2Proof.Machine.execMailboxSend s
  | .mailboxConsumed => Sys2Proof.Machine.execMailboxConsumed s
  | .placementStep => Sys2Proof.Machine.execPlacementStep s
  | .clusterReserve => Sys2Proof.Machine.execClusterReserve s
  | .fetchBlockFill => Sys2Proof.Machine.execFetchBlockFill s
  | .pageWalkEnd => Sys2Proof.Machine.execPageWalkEnd s
  | .walkansWrite => Sys2Proof.Machine.execWalkansWrite s
  | .acqueryStore => Sys2Proof.Machine.execAcqueryStore s
  | .shootdownRequest => Sys2Proof.Machine.execShootdownRequest s
  | .shootdownComplete => Sys2Proof.Machine.execShootdownComplete s
  | .migrationStart => Sys2Proof.Machine.execMigrationStart s
  | .migrationCopy => Sys2Proof.Machine.execMigrationCopy s
  | .migrationRemap => Sys2Proof.Machine.execMigrationRemap s
  | .migrationReport => Sys2Proof.Machine.execMigrationReport s
  | .miglistWrite => Sys2Proof.Machine.execMiglistWrite s
  | .rbaseWrite => Sys2Proof.Machine.execRbaseWrite s
  | .spillFillDone => Sys2Proof.Machine.execSpillFillDone s
  | .hqbaseWrite => Sys2Proof.Machine.execHqbaseWrite s
  | .cpyansWrite => Sys2Proof.Machine.execCpyansWrite s
  | .pinstallWrite => Sys2Proof.Machine.execPinstallWrite s
  | .pdoneWrite => Sys2Proof.Machine.execPdoneWrite s
  | .loadReturn => Sys2Proof.Machine.execLoadReturn s
  | .storeAck => Sys2Proof.Machine.execStoreAck s
  | .atomReply => Sys2Proof.Machine.execAtomReply s
  | .writeArriveHome => Sys2Proof.Machine.execWriteArriveHome s
  | .writeVisible => Sys2Proof.Machine.execWriteVisible s
  | .lineFill => Sys2Proof.Machine.execLineFill s
  | .leaseExpiry => Sys2Proof.Machine.execLeaseExpiry s
  | .redMerge => Sys2Proof.Machine.execRedMerge s
  | .peerPacketExecute => Sys2Proof.Machine.execPeerPacketExecute s
  | .peerTimeout => Sys2Proof.Machine.execPeerTimeout s
  | .hostWrite => Sys2Proof.Machine.execHostWrite s
  | .hostRead => Sys2Proof.Machine.execHostRead s
  | .storageCompletion => Sys2Proof.Machine.execStorageCompletion s
  | .copyLineTransfer => Sys2Proof.Machine.execCopyLineTransfer s
  | .copyComplete => Sys2Proof.Machine.execCopyComplete s
  | .pressOperationCommit => Sys2Proof.Machine.execPressOperationCommit s
  | .gangPartReady => Sys2Proof.Machine.execGangPartReady s
  | .gangBoundExpiry => Sys2Proof.Machine.execGangBoundExpiry s
  | .mtileEnd => Sys2Proof.Machine.execMtileEnd s
  | .proofRecompute => Sys2Proof.Machine.execProofRecompute s
  | .releaseComplete => Sys2Proof.Machine.execReleaseComplete s
  | .sleepWake => Sys2Proof.Machine.execSleepWake s
  | .fuseWaitDeadline => Sys2Proof.Machine.execFuseWaitDeadline s
  | .groupRetire => Sys2Proof.Machine.execGroupRetire s
  | .completionRingSend => Sys2Proof.Machine.execCompletionRingSend s
  | .folioWrite => Sys2Proof.Machine.execFolioWrite s
  | .teardown => Sys2Proof.Machine.execTeardown s
  | .teardownKeyErase => Sys2Proof.Machine.execTeardownKeyErase s
  | .softError => Sys2Proof.Machine.execSoftError s
  | .bellRestart => Sys2Proof.Machine.execBellRestart s
  | .proctorTimerTick => Sys2Proof.Machine.execProctorTimerTick s
  | .proctorInterrupt => Sys2Proof.Machine.execProctorInterrupt s
  | .proctorRunWrite => Sys2Proof.Machine.execProctorRunWrite s
  | .nop => Sys2Proof.Machine.execNop s
  | .bra h o ss => Sys2Proof.Machine.execBra h o ss s
  | .brd h o ss => Sys2Proof.Machine.execBrd h o ss s
  | .join h => Sys2Proof.Machine.execJoin h s
  | .call h x o ss => Sys2Proof.Machine.execCall h x o ss s
  | .ret h => Sys2Proof.Machine.execRet h s
  | .exit h => Sys2Proof.Machine.execExit h s
  | .yield h => Sys2Proof.Machine.execYield h s
  | .sleep h a => Sys2Proof.Machine.execSleep h a s
  | .sleepUntil h a b => Sys2Proof.Machine.execSleepUntil h a b s
  | .brx h d a b => Sys2Proof.Machine.execBrx h d a b s
  | .callx h a b => Sys2Proof.Machine.execCallx h a b s
  | .brk h b => Sys2Proof.Machine.execBrk h b s
  | .sysc h => Sys2Proof.Machine.execSysc h s
  | .tret h => Sys2Proof.Machine.execTret h s
  | .suspend h d a => Sys2Proof.Machine.execSuspend h d a s
  | .resume h d a => Sys2Proof.Machine.execResume h d a s
  | .resumeTry h d a => Sys2Proof.Machine.execResumeTry h d a s
  | .fcopy h d a b => Sys2Proof.Machine.execFcopy h d a b s
  | .fdrop h d a => Sys2Proof.Machine.execFdrop h d a s
  | .getsr h d b => Sys2Proof.Machine.execGetsr h d b s
  | .setsr h a b => Sys2Proof.Machine.execSetsr h a b s
  | .svcstart h d a => Sys2Proof.Machine.execSvcstart h d a s
  | .svcpark h d a b => Sys2Proof.Machine.execSvcpark h d a b s
  | .launch h d a => Sys2Proof.Machine.execLaunch h d a s
  | .spawn h d a => Sys2Proof.Machine.execSpawn h d a s
  | .mbsend h d a b => Sys2Proof.Machine.execMbsend h d a b s
  | .mbrecv h d a => Sys2Proof.Machine.execMbrecv h d a s
  | .mbrecvW h d a => Sys2Proof.Machine.execMbrecvW h d a s
  | .place h d a b => Sys2Proof.Machine.execPlace h d a b s
  | .hqtake h d a b => Sys2Proof.Machine.execHqtake h d a b s
  | .hqtakeW h d a b => Sys2Proof.Machine.execHqtakeW h d a b s
  | .hqdone h d a => Sys2Proof.Machine.execHqdone h d a s
  | .uadd h d a b => Sys2Proof.Machine.execUadd h d a b s
  | .usub h d a b => Sys2Proof.Machine.execUsub h d a b s
  | .umul h d a b => Sys2Proof.Machine.execUmul h d a b s
  | .umulhs h d a b => Sys2Proof.Machine.execUmulhs h d a b s
  | .umulhn h d a b => Sys2Proof.Machine.execUmulhn h d a b s
  | .uand h d a b => Sys2Proof.Machine.execUand h d a b s
  | .uor h d a b => Sys2Proof.Machine.execUor h d a b s
  | .uxor h d a b => Sys2Proof.Machine.execUxor h d a b s
  | .ushl h d a b => Sys2Proof.Machine.execUshl h d a b s
  | .ushr h d a b => Sys2Proof.Machine.execUshr h d a b s
  | .usar h d a b => Sys2Proof.Machine.execUsar h d a b s
  | .umins h d a b => Sys2Proof.Machine.execUmins h d a b s
  | .uminn h d a b => Sys2Proof.Machine.execUminn h d a b s
  | .umaxs h d a b => Sys2Proof.Machine.execUmaxs h d a b s
  | .umaxn h d a b => Sys2Proof.Machine.execUmaxn h d a b s
  | .usel h d a b => Sys2Proof.Machine.execUsel h d a b s
  | .uaddi h d a im => Sys2Proof.Machine.execUaddi h d a im s
  | .uandi h d a im => Sys2Proof.Machine.execUandi h d a im s
  | .uori h d a im => Sys2Proof.Machine.execUori h d a im s
  | .uxori h d a im => Sys2Proof.Machine.execUxori h d a im s
  | .ushli h d a im => Sys2Proof.Machine.execUshli h d a im s
  | .ushri h d a im => Sys2Proof.Machine.execUshri h d a im s
  | .usari h d a im => Sys2Proof.Machine.execUsari h d a im s
  | .useq h d a b => Sys2Proof.Machine.execUseq h d a b s
  | .usne h d a b => Sys2Proof.Machine.execUsne h d a b s
  | .uslts h d a b => Sys2Proof.Machine.execUslts h d a b s
  | .usltn h d a b => Sys2Proof.Machine.execUsltn h d a b s
  | .ubfx h d a b => Sys2Proof.Machine.execUbfx h d a b s
  | .umovi h d im => Sys2Proof.Machine.execUmovi h d im s
  | .urdlane h d a b => Sys2Proof.Machine.execUrdlane h d a b s
  | .upopc h d a => Sys2Proof.Machine.execUpopc h d a s
  | .uclz h d a => Sys2Proof.Machine.execUclz h d a s
  | .iadd h d a b t => Sys2Proof.Machine.execIadd h d a b t s
  | .isub h d a b t => Sys2Proof.Machine.execIsub h d a b t s
  | .imul h d a b t => Sys2Proof.Machine.execImul h d a b t s
  | .imulhs h d a b t => Sys2Proof.Machine.execImulhs h d a b t s
  | .imulhn h d a b t => Sys2Proof.Machine.execImulhn h d a b t s
  | .imad h d a b t => Sys2Proof.Machine.execImad h d a b t s
  | .iaddss h d a b t => Sys2Proof.Machine.execIaddss h d a b t s
  | .iaddsn h d a b t => Sys2Proof.Machine.execIaddsn h d a b t s
  | .isubss h d a b t => Sys2Proof.Machine.execIsubss h d a b t s
  | .isubsn h d a b t => Sys2Proof.Machine.execIsubsn h d a b t s
  | .imins h d a b t => Sys2Proof.Machine.execImins h d a b t s
  | .iminn h d a b t => Sys2Proof.Machine.execIminn h d a b t s
  | .imaxs h d a b t => Sys2Proof.Machine.execImaxs h d a b t s
  | .imaxn h d a b t => Sys2Proof.Machine.execImaxn h d a b t s
  | .iabs h d a t => Sys2Proof.Machine.execIabs h d a t s
  | .ineg h d a t => Sys2Proof.Machine.execIneg h d a t s
  | .andV h d a b t => Sys2Proof.Machine.execAndV h d a b t s
  | .orV h d a b t => Sys2Proof.Machine.execOrV h d a b t s
  | .xorV h d a b t => Sys2Proof.Machine.execXorV h d a b t s
  | .andn h d a b t => Sys2Proof.Machine.execAndn h d a b t s
  | .notV h d a t => Sys2Proof.Machine.execNotV h d a t s
  | .bfn h d a b t => Sys2Proof.Machine.execBfn h d a b t s
  | .shlV h d a b t => Sys2Proof.Machine.execShlV h d a b t s
  | .shrV h d a b t => Sys2Proof.Machine.execShrV h d a b t s
  | .sarV h d a b t => Sys2Proof.Machine.execSarV h d a b t s
  | .rotl h d a b t => Sys2Proof.Machine.execRotl h d a b t s
  | .bfx h d a b t => Sys2Proof.Machine.execBfx h d a b t s
  | .bfi h d a b t => Sys2Proof.Machine.execBfi h d a b t s
  | .popc h d a t => Sys2Proof.Machine.execPopc h d a t s
  | .clz h d a t => Sys2Proof.Machine.execClz h d a t s
  | .brev h d a t => Sys2Proof.Machine.execBrev h d a t s
  | .bperm h d a b t => Sys2Proof.Machine.execBperm h d a b t s
  | .iseteq h d a b t => Sys2Proof.Machine.execIseteq h d a b t s
  | .isetne h d a b t => Sys2Proof.Machine.execIsetne h d a b t s
  | .isetlts h d a b t => Sys2Proof.Machine.execIsetlts h d a b t s
  | .isetltn h d a b t => Sys2Proof.Machine.execIsetltn h d a b t s
  | .isetles h d a b t => Sys2Proof.Machine.execIsetles h d a b t s
  | .isetlen h d a b t => Sys2Proof.Machine.execIsetlen h d a b t s
  | .selV h d a b t => Sys2Proof.Machine.execSelV h d a b t s
  | .movV h d a t => Sys2Proof.Machine.execMovV h d a t s
  | .iaddu h d a b => Sys2Proof.Machine.execIaddu h d a b s
  | .isubu h d a b => Sys2Proof.Machine.execIsubu h d a b s
  | .imulu h d a b => Sys2Proof.Machine.execImulu h d a b s
  | .shlu h d a b => Sys2Proof.Machine.execShlu h d a b s
  | .shru h d a b => Sys2Proof.Machine.execShru h d a b s
  | .andu h d a b => Sys2Proof.Machine.execAndu h d a b s
  | .oru h d a b => Sys2Proof.Machine.execOru h d a b s
  | .xoru h d a b => Sys2Proof.Machine.execXoru h d a b s
  | .pand h d a b => Sys2Proof.Machine.execPand h d a b s
  | .por h d a b => Sys2Proof.Machine.execPor h d a b s
  | .pxor h d a b => Sys2Proof.Machine.execPxor h d a b s
  | .pnot h d a => Sys2Proof.Machine.execPnot h d a s
  | .pmov h d a b => Sys2Proof.Machine.execPmov h d a b s
  | .lea h d a b => Sys2Proof.Machine.execLea h d a b s
  | .imovi h d im => Sys2Proof.Machine.execImovi h d im s
  | .iaddi h d a im => Sys2Proof.Machine.execIaddi h d a im s
  | .andi h d a im => Sys2Proof.Machine.execAndi h d a im s
  | .ori h d a im => Sys2Proof.Machine.execOri h d a im s
  | .shli h d a im => Sys2Proof.Machine.execShli h d a im s
  | .shri h d a im => Sys2Proof.Machine.execShri h d a im s
  | .sari h d a im => Sys2Proof.Machine.execSari h d a im s
  | .iseteqi h d a im => Sys2Proof.Machine.execIseteqi h d a im s
  | .isetlti h d a im => Sys2Proof.Machine.execIsetlti h d a im s
  | .fadd h d a b t => Sys2Proof.Machine.execFadd h d a b t s
  | .fsub h d a b t => Sys2Proof.Machine.execFsub h d a b t s
  | .fmul h d a b t => Sys2Proof.Machine.execFmul h d a b t s
  | .fma h d a b t => Sys2Proof.Machine.execFma h d a b t s
  | .fms h d a b t => Sys2Proof.Machine.execFms h d a b t s
  | .fnma h d a b t => Sys2Proof.Machine.execFnma h d a b t s
  | .fdiv h d a b t => Sys2Proof.Machine.execFdiv h d a b t s
  | .fsqrt h d a t => Sys2Proof.Machine.execFsqrt h d a t s
  | .frsq h d a t => Sys2Proof.Machine.execFrsq h d a t s
  | .frcp h d a t => Sys2Proof.Machine.execFrcp h d a t s
  | .fmin h d a b t => Sys2Proof.Machine.execFmin h d a b t s
  | .fmax h d a b t => Sys2Proof.Machine.execFmax h d a b t s
  | .fminnum h d a b t => Sys2Proof.Machine.execFminnum h d a b t s
  | .fmaxnum h d a b t => Sys2Proof.Machine.execFmaxnum h d a b t s
  | .fabs h d a t => Sys2Proof.Machine.execFabs h d a t s
  | .fneg h d a t => Sys2Proof.Machine.execFneg h d a t s
  | .fseteq h d a b t => Sys2Proof.Machine.execFseteq h d a b t s
  | .fsetne h d a b t => Sys2Proof.Machine.execFsetne h d a b t s
  | .fsetlt h d a b t => Sys2Proof.Machine.execFsetlt h d a b t s
  | .fsetle h d a b t => Sys2Proof.Machine.execFsetle h d a b t s
  | .fsetun h d a b t => Sys2Proof.Machine.execFsetun h d a b t s
  | .fclass h d a t => Sys2Proof.Machine.execFclass h d a t s
  | .fclassGetfx h d => Sys2Proof.Machine.execFclassGetfx h d s
  | .fclassSetfx h a => Sys2Proof.Machine.execFclassSetfx h a s
  | .fexp2 h d a t => Sys2Proof.Machine.execFexp2 h d a t s
  | .flog2 h d a t => Sys2Proof.Machine.execFlog2 h d a t s
  | .fsin h d a t => Sys2Proof.Machine.execFsin h d a t s
  | .fcos h d a t => Sys2Proof.Machine.execFcos h d a t s
  | .ftanh h d a t => Sys2Proof.Machine.execFtanh h d a t s
  | .fscale h d a b t => Sys2Proof.Machine.execFscale h d a b t s
  | .frint h d a t => Sys2Proof.Machine.execFrint h d a t s
  | .fcopysign h d a b t => Sys2Proof.Machine.execFcopysign h d a b t s
  | .faddu h d a b => Sys2Proof.Machine.execFaddu h d a b s
  | .fmulu h d a b => Sys2Proof.Machine.execFmulu h d a b s
  | .cadd h d a b => Sys2Proof.Machine.execCadd h d a b s
  | .csub h d a b => Sys2Proof.Machine.execCsub h d a b s
  | .cmul h d a b => Sys2Proof.Machine.execCmul h d a b s
  | .cfma h d a b => Sys2Proof.Machine.execCfma h d a b s
  | .cconj h d a => Sys2Proof.Machine.execCconj h d a s
  | .cnorm h d a => Sys2Proof.Machine.execCnorm h d a s
  | .hadd2 h d a b t => Sys2Proof.Machine.execHadd2 h d a b t s
  | .hmul2 h d a b t => Sys2Proof.Machine.execHmul2 h d a b t s
  | .hfma2 h d a b t => Sys2Proof.Machine.execHfma2 h d a b t s
  | .hmin2 h d a b t => Sys2Proof.Machine.execHmin2 h d a b t s
  | .hmax2 h d a b t => Sys2Proof.Machine.execHmax2 h d a b t s
  | .fdot2 h d a b t => Sys2Proof.Machine.execFdot2 h d a b t s
  | .fdot4 h d a b t => Sys2Proof.Machine.execFdot4 h d a b t s
  | .fmau h d a b => Sys2Proof.Machine.execFmau h d a b s
  | .fmovi h d im => Sys2Proof.Machine.execFmovi h d im s
  | .cvt h d a n m => Sys2Proof.Machine.execCvt h d a n m s
  | .cvtf2i h d a n m => Sys2Proof.Machine.execCvtf2i h d a n m s
  | .cvti2f h d a n m => Sys2Proof.Machine.execCvti2f h d a n m s
  | .cvti2i h d a n m => Sys2Proof.Machine.execCvti2i h d a n m s
  | .cvtpack h d a n m => Sys2Proof.Machine.execCvtpack h d a n m s
  | .cvtunpack h d a n m => Sys2Proof.Machine.execCvtunpack h d a n m s
  | .cvtmx h d a n m => Sys2Proof.Machine.execCvtmx h d a n m s
  | .cvtsort h d a n m => Sys2Proof.Machine.execCvtsort h d a n m s
  | .cvtdq h d a n m => Sys2Proof.Machine.execCvtdq h d a n m s
  | .xli h d a b t => Sys2Proof.Machine.execXli h d a b t s
  | .xlr h d a t => Sys2Proof.Machine.execXlr h d a t s
  | .xlf h d a t => Sys2Proof.Machine.execXlf h d a t s
  | .xlb h d a t => Sys2Proof.Machine.execXlb h d a t s
  | .pcnt h d a b => Sys2Proof.Machine.execPcnt h d a b s
  | .pmask h a => Sys2Proof.Machine.execPmask h a s
  | .pfirst h d a => Sys2Proof.Machine.execPfirst h d a s
  | .redadd h d a t => Sys2Proof.Machine.execRedadd h d a t s
  | .redmin h d a t => Sys2Proof.Machine.execRedmin h d a t s
  | .redmax h d a t => Sys2Proof.Machine.execRedmax h d a t s
  | .scanadd h d a t => Sys2Proof.Machine.execScanadd h d a t s
  | .xleq h d a t => Sys2Proof.Machine.execXleq h d a t s
  | .split h d k => Sys2Proof.Machine.execSplit h d k s
  | .fuse h d => Sys2Proof.Machine.execFuse h d s
  | .fuseWait h d a => Sys2Proof.Machine.execFuseWait h d a s
  | .wait h l ss m a => Sys2Proof.Machine.execWait h l ss m a s
  | .tbar h a n => Sys2Proof.Machine.execTbar h a n s
  | .ld h d b x z => Sys2Proof.Machine.execLd h d b x z s
  | .st h d b x z => Sys2Proof.Machine.execSt h d b x z s
  | .ldu h d b z => Sys2Proof.Machine.execLdu h d b z s
  | .stu h d b z => Sys2Proof.Machine.execStu h d b z s
  | .atom h d b x z => Sys2Proof.Machine.execAtom h d b x z s
  | .red h d b x z => Sys2Proof.Machine.execRed h d b x z s
  | .cas h d b x z => Sys2Proof.Machine.execCas h d b x z s
  | .pfetch h b x z => Sys2Proof.Machine.execPfetch h b x z s
  | .fenceRel h => Sys2Proof.Machine.execFenceRel h s
  | .fenceAcq h => Sys2Proof.Machine.execFenceAcq h s
  | .cflush h d a b => Sys2Proof.Machine.execCflush h d a b s
  | .mma h d a ss z j k => Sys2Proof.Machine.execMma h d a ss z j k s
  | .mmaGang h d a ss z j k => Sys2Proof.Machine.execMmaGang h d a ss z j k s
  | .mtileZero h d => Sys2Proof.Machine.execMtileZero h d s
  | .mtileSt h d a ss f => Sys2Proof.Machine.execMtileSt h d a ss f s
  | .mtileLd h d a f => Sys2Proof.Machine.execMtileLd h d a f s
  | .mstat h d => Sys2Proof.Machine.execMstat h d s
  | .mstatClr h d => Sys2Proof.Machine.execMstatClr h d s
  | .cpy h a k => Sys2Proof.Machine.execCpy h a k s
  | .cpyPromise h d a k => Sys2Proof.Machine.execCpyPromise h d a k s
  | .waitk h m => Sys2Proof.Machine.execWaitk h m s
  | .barx h x a r => Sys2Proof.Machine.execBarx h x a r s
  | .barw h d a => Sys2Proof.Machine.execBarw h d a s
  | .preg h d a => Sys2Proof.Machine.execPreg h d a s
  | .pdrop h d a => Sys2Proof.Machine.execPdrop h d a s
  | .pstamp h d a => Sys2Proof.Machine.execPstamp h d a s
  | .proctorLanesStart => Sys2Proof.Machine.execProctorLanesStart s
  | .fusedMinimumRaise => Sys2Proof.Machine.execFusedMinimumRaise s
  | .cflushComplete => Sys2Proof.Machine.execCflushComplete s
  | .maintenanceRequestDone => Sys2Proof.Machine.execMaintenanceRequestDone s

end Sys2Proof.Machine
end

