-- ==== Sys2Proof/Machine/Step.lean ====
section
/-! DEFINITION. One step of the device: time moves on, and the next step of the schedule is taken, an
instruction or a step of the device. Everything it calls stands in Sys2Proof/Machine/Issue.lean. -/

namespace Sys2Proof.Machine

/-- The first of some steps of the device that changes something. -/
def firstDue (s : State) : List (Instr × EvArg) → Option State
  | [] => none
  | (i, a) :: es =>
    match exec i { s with arg := a } with
    | .next s' => if s' = { s with arg := a } then firstDue s es else some s'.wakeAll
    | _ => firstDue s es

/-- An instruction, and the second of its pair where the first completes (R143). -/
def issue (i : Instr) (second : Option Instr) (s : State) : Host.Outcome State Fault Refusal :=
  match exec i s with
  | .next s₁ =>
    match second with
    | none => .next (s₁.settle s)
    | some j =>
      if s₁.pairGoesOn s i then
        match exec j (s₁.withFx s i) with
        | .next s₂ => .next ((s₂.joinFx s₁ i j).settle s)
        | r => r
      else .next (s₁.settle s)
  | r => r

/-- An instruction or a step as it was picked; with none to pick, what is due comes about. -/
def follow (p : Pick × State) : Host.Outcome State Fault Refusal :=
  match p with
  | (.issue i second, s) => issue i second s
  | (.event i, s) =>
    match exec i s with
    | .next s' => .next s'.wakeAll
    | r => r
  | (.done, s) => .next s.wakeAll
  | (.none, s) => .next ((firstDue s s.due).getD s.wakeAll)

/-- One step of the device. It stops only when its hold-up supply has ended, until it is powered up again (R17,
R27). -/
def step (s : State) : Host.Outcome State Fault Refusal :=
  let s := s.tick
  if s.poweredOff && !s.powersUp then .fault .powerOff
  else if s.deviceTurn then
    match firstDue { s with rr := s.rr + 1 } s.due with
    | some s' => .next s'
    | none => follow s.pick
  else follow s.pick

/-- The state in which the next step executes an instruction, given by its bits (log entry 2). -/
def State.withFetchWord (s : State) (nbits w : Nat) : State :=
  s.placed (tableWords (tableBits nbits w))

end Sys2Proof.Machine
end

