-- ==== Sys2Proof/WellFormed.lean ====
section
/-! DEFINITION. Well-formed instructions: those a packet can hold (R136 to R138). The checks
themselves stand in Sys2Proof/Decode.lean. -/

namespace Sys2Proof

/-- No check of R137 and R138 rejects the instruction. -/
def wellFormed (i : Instr) : Bool := (checkInstr i).isNone

end Sys2Proof
end

