-- ==== Sys2Proof/Safety.lean ====
section
/-! DEFINITION. What counts as a safe run, in the terms that statements use. -/

namespace Sys2Proof.Machine

/-- A sparse map is in its canonical form: keys strictly rising, no entry equal to the default. -/
def Sparse.wf {α : Type} [DecidableEq α] (d : α) : Sparse α → Bool
  | [] => true
  | (k, v) :: m => decide (v ≠ d) && m.all (fun e => k < e.1) && Sparse.wf d m

/-- Memory is in its canonical form (log entry 4). -/
def Memory.wf (m : List Host.Cell) : Bool := Sparse.wf memDefault m

/-- The sparse parts of memory are in their canonical forms (log entry 4): bytes, tags, poison and dirty lines. -/
def State.memWf (s : State) : Prop :=
  Memory.wf s.mem = true ∧ Sparse.wf (0, 0) s.tags = true ∧ Sparse.wf 0 s.memPoison = true
    ∧ Sparse.wf false s.dirty = true

/-- A step that neither faults nor is refused. -/
def goesOn (s : State) : Prop := ∃ s', step s = .next s'

/-- A run of n steps that stays clear of faults and refusals. -/
def safeRun (n : Nat) (s : State) : Prop := ∃ s', Host.Core.run Sys2Proof.core n s = .next s'

/-! ## When an instruction has its effect -/

/-- Major opcode of an instruction, 0 for a step of the device with no encoding. -/
def opcode (i : Instr) : Nat := opOf ((mainWord i).getD 0)

/-- The registers that an instruction names. -/
def uses (i : Instr) : Use := useOf ((mainWord i).getD 0) (hdrOf i).x

/-- Group or child t is the one that issues, and nothing keeps instruction i from its effect: it is
well formed (R136 to R138) and the mode may run it (R159), no register it writes is locked (R184), no
register it names is the destination of an outstanding load or atomic (R185), its counter is not full
(R188), and no source word is poisoned (R374). -/
structure Ready (i : Instr) (s : State) (t : Thread) : Prop where
  cur : s.cur = .thread t.id
  here : s.thread? t.id = some t
  onTime : t.lateNow = false
  legal : wellFormed i = true
  mode : privileged (opcode i) = true → t.sup = true
  unlocked : (uses i).sw.any (s.locked t) = false
  clear : s.scoreboard t (uses i) = false
  room : s.counterFull t.id (opcode i) = false
  sound : poisonedLanes t (readLanes i t) (uses i) = 0

/-- The proctor lane of core c is the one that issues, and nothing keeps instruction i from its
effect: it is well formed and one the lane accepts, without LMOD (R197, R213), and no register it names is the
destination of an LDU under way. -/
structure ReadyProctor (i : Instr) (s : State) (c : Nat) : Prop where
  cur : s.cur = .proctor c
  here : c < s.cores.length
  legal : wellFormed i = true
  accepted : proctorAccepts (opcode i) = true
  plain : (hdrOf i).lmod = none
  clear : s.proctorBusy c (uses i) = false

/-- The proctor lane gone on to an address. -/
def Proctor.wentOn (p : Proctor) (pc : W64) : Proctor :=
  { p with pc := pc, park := .run, relDone := false, wake := none }

/-- Every byte of memory reads as before, under every key slot. -/
def sameMemory (s s' : State) : Prop := ∀ pa slot, s'.homeByte pa slot = s.homeByte pa slot

/-- Instruction i completes for the present thread, which becomes t'. All else of the state is as it
was: every other thread, every core with its galley and formes, the special registers of the device,
and every byte of memory. -/
def completes (i : Instr) (s : State) (t' : Thread) : Prop :=
  exec i s = .next (s.setThread t') ∧ sameMemory s (s.setThread t')

/-- A thread that has gone on to its next instruction with nothing changed but vector registers rs of
its active lanes, whose poison ends (R139, R374). -/
structure VectorFrame (h : Hdr) (rs : List Nat) (t t' : Thread) : Prop where
  rest : t' = { t.wentOn (nextPc t.pc h) with store := t'.store, storePoison := t'.storePoison }
  kept : ∀ k, (∀ l r, (active t h).getLsbD l = true → r ∈ rs → k ≠ t.vkey r l) →
    Sparse.get t'.store 0 k = Sparse.get t.store 0 k ∧
    Sparse.get t'.storePoison false k = Sparse.get t.storePoison false k
  sound : ∀ l r, (active t h).getLsbD l = true → r ∈ rs →
    Sparse.get t'.storePoison false (t.vkey r l) = false

/-- As VectorFrame, but the sticky flags of active lanes only grow (R59), and the SR counter counts an
instruction that rounds by SR (R62, R229). -/
structure FloatFrame (h : Hdr) (rs : List Nat) (t t' : Thread) : Prop where
  rest : t' = { t.wentOn (nextPc t.pc h) with
    store := t'.store, storePoison := t'.storePoison, fx := t'.fx
    srcnt := if regxRnd h = 5 then t.srcnt + 1 else t.srcnt }
  kept : ∀ k, (∀ l r, (active t h).getLsbD l = true → r ∈ rs → k ≠ t.vkey r l) →
    Sparse.get t'.store 0 k = Sparse.get t.store 0 k ∧
    Sparse.get t'.storePoison false k = Sparse.get t.storePoison false k
  flags : ∀ l, l < 64 → (active t h).getLsbD l = false → t'.flags l = t.flags l

/-- A thread that has gone on to its next instruction with nothing changed but predicate d in its
active lanes. -/
structure PredFrame (h : Hdr) (d : Nat) (t t' : Thread) : Prop where
  rest : t' = { t.wentOn (nextPc t.pc h) with preds := t'.preds }
  kept : ∀ n l, l < 64 → ¬ (n = d ∧ (active t h).getLsbD l = true) → t'.pred n l = t.pred n l

/-- Vector registers of an operand: one, or a pair (R48). -/
def opRegs (pair : Bool) (r : Nat) : List Nat := if pair then [r, r + 1] else [r]

/-- Sub-element e of w bits of an operand, as a bit vector (R219). -/
def subElem (w v e : Nat) : BitVec w := BitVec.ofNat w (v / 2 ^ (w * e))

/-- A signed value of w bits clamped to its range (R220). -/
def clampSigned (w : Nat) (i : Int) : BitVec w :=
  BitVec.ofInt w (max (-(2 ^ (w - 1))) (min (2 ^ (w - 1) - 1) i))

/-- Position and length of a bit field that y holds, for elements of w bits (R221). -/
def fieldPos {w : Nat} (y : BitVec w) : Nat := y.toNat % w
def fieldLen {w : Nat} (y : BitVec w) : Nat :=
  min (y.toNat / 2 ^ Nat.log2 w % 2 ^ (Nat.log2 w + 1)) (w - fieldPos y)

/-- A floating-point pattern stands in a lane's register, or pair for .f64 (R228). -/
def Thread.holds (t : Thread) (c r l pat : Nat) : Prop :=
  if c = 4 then t.vpair r l = BitVec.ofNat 64 pat else t.vreg r l = BitVec.ofNat 32 pat

/-! ## Accesses -/

/-- An instruction that issues on a group or on a proctor lane, with nothing in its way. -/
def CanRun (i : Instr) (s : State) : Prop := (∃ t, Ready i s t) ∨ (∃ c, ReadyProctor i s c)

/-- Where the next message of an inbox lies in its frame (R87; log entry 52). -/
def inboxEntry (c : Ctx) : Nat := c.inboxFrame + 64 * ((c.nextIn - 1) % 64)

/-- Nothing of a thread's own stands open: no blocked write (R128), and no hand-in record (R358). -/
def State.clearOf (s : State) (id : Nat) : Prop := (∀ x ∈ s.held, x.who ≠ id) ∧ s.recsOf id = []

/-- No group whose register write waits for a lock has an acquire still to come (R184, R346). -/
def State.noLateAcquire (s : State) : Prop := ∀ t ∈ s.threads, ∀ d v, t.park ≠ .lock d v true

/-- No group that waits for its acquire to end has answered records to free then (R346, R365). -/
def State.acquiresClear (s : State) : Prop := ∀ t ∈ s.threads, t.park = .acquire → s.recsOf t.id = []

/-- The loads and atomics of an operation have their replies in time (R298, R343). -/
def State.inTime (s : State) (o : Out) : Prop := o.late = [] ∧ s.overdue o = false

/-- Nothing that came before an operation holds back its fill of a line (R293, R314). -/
def State.mayFill (s : State) (o : Out) (line : Nat) : Prop :=
  o.fills line = true ∧ s.ownedOver o.owners o.id line = false ∧ s.ownFlight o.owners o.id line = false ∧
    ∀ w ∈ s.flight, w.line = line → w.out ≠ o.id

/-- The lanes of an access reach memory, at the places ls (R114 to R117, R124): they are aligned and
translated, in no control block, no peer's window, no proof region and no poisoned line, on pages whose
accesses are not counted; reductions of this device have left their buffers. -/
structure Reaches (s : State) (m : Mods) (kind size : Nat) (reqs : List (Nat × Nat)) (ls : List OkLane) :
    Prop where
  some : ls ≠ []
  space : m.space = 0 ∨ (m.space = 2 ∧ s.supHere = true)
  aligned : ∀ r ∈ reqs, r.2 % size = 0
  placed : reqs.map (fun (r : Nat × Nat) => (r.1, r.2, s.transIn m.space r.2 kind))
    = ls.map (fun (l : OkLane) => (l.lane, l.va, Trans.ok l.pa l.key l.mt))
  memory : ∀ l ∈ ls, isCtl l.pa = false ∧ isPeer l.pa = false
  plain : m.space = 0 → ∀ l ∈ ls, s.proofAt s.ctxHere l.va size = none
  sound : ∀ l ∈ ls, Sparse.get s.memPoison 0 (lineOf l.pa) = 0
  uncounted : m.space = 0 → ∀ e ∈ s.tlb, e.ace = false
  fresh : ∀ o ∈ s.outs, o.id < s.nextId

/-- The lanes of an access reach their team's windows, at ls, where no engine holds the bytes (R116,
R274). -/
structure InGalley (s : State) (t : Thread) (size : Nat) (reqs : List (Nat × Nat)) (ls : List GalLane) :
    Prop where
  aligned : ∀ r ∈ reqs, r.2 % size = 0
  placed : reqs.map (fun (r : Nat × Nat) => (r.1, r.2, s.galleyAt t.gang t.team r.2 size))
    = ls.map (fun (l : GalLane) => (l.lane, l.va, some (l.team, l.off)))
  free : ∀ l ∈ ls, s.reserved l.team.id l.off size = false

/-- A thread that has gone on after an access, acquiring where acq says so: the acquire waits for
outstanding loads and atomics (R346). -/
def Thread.wentOnAcq (t : Thread) (pc : W64) (acq : Bool) : Thread :=
  if acq then { t.wentOn pc with park := .acquire } else t.wentOn pc

/-- A run of bytes of a context that the present agent reads or writes, page by page (R124). -/
def State.partsOf (s : State) (ctx : W32) (kind va len : Nat) : List Span :=
  (pagesIn va len).filterMap (fun (a : Nat) =>
    match s.translate s.here ctx s.supHere a kind with
    | .ok pa key mt => some (Span.mk a (min (va + len) ((a / 4096 + 1) * 4096) - a) pa key mt)
    | _ => none)

/-- Every page of a run is translated for the access. -/
def State.mapped (s : State) (ctx : W32) (kind va len : Nat) : Prop :=
  ∀ a ∈ pagesIn va len, ∃ pa key mt, s.translate s.here ctx s.supHere a kind = .ok pa key mt

/-- s[a] and s[a + 1] name a folio at an address (R392). -/
def State.namesFolio (s : State) (a va : Nat) (name : FolioName) : Prop :=
  va = (s.sreg a).toNat ∧ va % 128 = 0 ∧
  ((s.supHere = false ∧ ((s.sreg (a + 1)).setWidth 32 = (0 : W32) ∨ (s.sreg (a + 1)).setWidth 32 = s.ctxHere) ∧
      name = .virt s.ctxHere) ∨
    (s.supHere = true ∧ (s.sreg (a + 1)).setWidth 32 = (0 : W32) ∧ name = .virt 0x1000) ∨
    (s.supHere = true ∧ s.sreg (a + 1) = 0xFFFFFFFF ∧ s.inPool va = true ∧ name = .phys) ∨
    (s.supHere = true ∧ ∃ c who, who = (s.sreg (a + 1)).setWidth 32 ∧ who ≠ (0 : W32) ∧ who ≠ 0xFFFFFFFF ∧
      s.ctx? who = some c ∧ c.dead = false ∧ name = .virt who))

/-- The bytes of a named folio can be read, and f says where they lie; none of them has a soft error of its
own. -/
def State.reads (s : State) (name : FolioName) (va len : Nat) (f : FolioSrc) : Prop :=
  s.srcError f len = none ∧
  match name with
  | .phys => f = ⟨[(va, len)], none⟩
  | .virt ctx => s.mapped ctx accRead va len ∧
      f = ⟨(s.partsOf ctx accRead va len).map (fun p => (p.pa, p.len)), some (keyFor ctx va)⟩

end Sys2Proof.Machine
end

