-- ==== Sys2Proof/Certificates/Slice0/Obligations.lean ====
section
/-! DEFINITION. The statements for the provers. A group or child means a Thread of the model; times
and schedules are those of log entry 1, free values those of log entry 6. -/

open Sys2Proof Sys2Proof.Machine

/-! ## Encoding -/

/-- R135 to R159. The words of a well-formed instruction decode to it, and to as many words as were
written: no operand, prefix or extension is lost. -/
def Obligations.DecodeOfEncodeIsTheInstruction : Prop :=
  ∀ i : Instr, wellFormed i = true → decodeWords (encode i) = .ok (i, (encode i).length)

/-- R135 to R159. Words that decode to an instruction are the very words of that instruction, so every
bit of them counts, the reserved ones too; and what decodes is well formed. -/
def Obligations.EncodeOfDecodeIsTheWords : Prop :=
  ∀ (ws : List W32) (i : Instr) (n : Nat), decodeWords ws = .ok (i, n) →
    wellFormed i = true ∧ encode i = ws.take n

/-- R137, R138. A word that begins an instruction and has an OP that the map leaves unassigned, a
reserved prefix or OP 0xFF is rejected with cause 0x01; an extension word that begins an instruction,
with cause 0x05; words that end before a main word, with cause 0x04. -/
def Obligations.WordsThatBeginNoInstructionAreRejected : Prop :=
  (∀ (w : W32) (ws : List W32),
    (assigned (opOf w) = false ∧ ¬ (0xF8 ≤ opOf w ∧ opOf w ≤ 0xFE)) ∨ opOf w = 0xFA ∨ opOf w = 0xFB →
      decodeWords (w :: ws) = .error .unassigned) ∧
  (∀ (w : W32) (ws : List W32), 0xFC ≤ opOf w ∧ opOf w ≤ 0xFE → decodeWords (w :: ws) = .error .extension) ∧
  decodeWords [] = .error .prefixed ∧
  (∀ p : Mmod, mmodReserved p = false → decodeWords [mmodWord p] = .error .prefixed) ∧
  (∀ p : Lmod, lmodReserved p = false → decodeWords [lmodWord p] = .error .prefixed)

/-- R144 to R150. Words written out from the formats B, S, V, I, M and the prefixes decode to what they
stand for: a NOP, BRA 1.2, UADD s5, s1, s2, IADD v4, v2, v3 (.b32), UMOVI s3, -2, LD v8, [s1 + v2] and an
LD whose MMOD says acquire at scope .dev. -/
def Obligations.WordsOfTheFormatsDecode : Prop :=
  decodeWords [0x70000000#32] = .ok (.nop, 1) ∧
  decodeWords [0x70100006#32] = .ok (.bra ⟨false, 7, none, none, .none⟩ 1 2, 1) ∧
  decodeWords [0x7200A042#32] = .ok (.uadd ⟨false, 7, none, none, .none⟩ 5 1 2, 1) ∧
  decodeWords [0x7401020E#32] = .ok (.iadd ⟨false, 7, none, none, .none⟩ 4 2 3 2, 1) ∧
  decodeWords [0x73C0C0FE#32] = .ok (.umovi ⟨false, 7, none, none, .none⟩ 3 0xFE, 1) ∧
  decodeWords [0x7E02010A#32] = .ok (.ld ⟨false, 7, none, none, .none⟩ 8 1 2 2, 1) ∧
  decodeWords [0x0F830000#32, 0x7E02010A#32] =
    .ok (.ld ⟨false, 7, none, some ⟨1, 4, 0, 0, false⟩, .none⟩ 8 1 2 2, 2) ∧
  decodeWords [0x00000000#32] = .error .guarded

/-! ## Steps -/

/-- R105, R135, R137, R142. Device time moves on, and the unit named by the schedule issues. On a
partition whose group t alone could issue, with the words ws at its program counter decoding to i
without the chain bit, the step is exec of i, in the state in which t is the one that issues and has
issued now; then those who wait look again. On a proctor lane that runs with no interrupt to take it is
exec of the instruction decoded from its packet, where its words make one that the lane executes. -/
def Obligations.StepExecutesTheDecodedInstruction : Prop :=
  (∀ (s s₂ s₃ : State) (rest : List Unit_) (t : Thread) (ws : List W32) (i : Instr) (n : Nat),
    s.tick.poweredOff = false → s.tick.agenda = [] → s.tick.turns = .part t.core t.part :: rest →
    s₂ = { s.tick with turns := rest } →
    s₂.threads.filter (fun u => u.core == t.core && u.part == t.part && s₂.awake u) = [t] →
    s₂.fetched t = .words ws [] → decodeWords ws = .ok (i, n) → (hdrOf i).c = false →
    s₃ = (match s₂.blockFind t.core t.part t.ctx t.sup (blockOf t.pc.toNat) with
      | some b => { s₂ with cur := .thread t.id }.blockPut b
      | none => { s₂ with cur := .thread t.id }).setThread { t with lastIssue := s₂.time } →
    step s = (match exec i s₃ with
      | .next s₄ => .next (s₄.settle s₃)
      | r => r)) ∧
  (∀ (s s₂ s₃ : State) (rest : List Unit_) (c : Nat) (ws : List W32) (i : Instr) (n : Nat) (f : Option (Nat × Trans)),
    s.tick.poweredOff = false → s.tick.agenda = [] → s.tick.turns = .proctor c :: rest →
    s₂ = { s.tick with turns := rest, cur := .proctor c } →
    s₂.powerLost = none → (s₂.die (dieOf c)).stopped = false →
    (s₂.core c).interrupted = false → (s₂.core c).laneReady = true →
    s₂.fetchPacket c 0x1000 true (packetOf (s₂.core c).proctor.pc.toNat) = (s₃, f, some ws) →
    proctorRefuses (ws.drop ((s₂.core c).proctor.pc.toNat % 12 / 4)) = false →
    decodeWords (ws.drop ((s₂.core c).proctor.pc.toNat % 12 / 4)) = .ok (i, n) → (hdrOf i).c = false →
    step s = (match exec i s₃ with
      | .next s₄ => .next (s₄.settle s₃)
      | r => r))

/-- R142, R143. The words at a program counter, and those of the next packet where the first instruction ends its own.
A legal pair stands in one packet: the first instruction executes, and where it has completed and gone on, the second
does, reading the sticky flags of before. Words that are no legal pair trap: a second that is no instruction, with its
own cause; two of one pipe, with 0x10; a pair across packets, with 0x11; the other causes of the table. -/
def Obligations.PairsIssueTogetherOrTrap : Prop :=
  ∀ (s : State) (ws next : List W32) (i : Instr) (n : Nat),
    s.decodeFor ws = .ok (i, n) → (hdrOf i).c = true →
    (ws.drop n = [] → next = [] → s.decodeHere ws next = (.done, s.badWords vChain 0x11)) ∧
    (∀ c, ws.drop n = [] → next ≠ [] → s.decodeFor next = .error c →
      s.decodeHere ws next = (.done, s.badWords vIllegal c.code)) ∧
    (∀ j m, ws.drop n = [] → s.decodeFor next = .ok (j, m) →
      s.decodeHere ws next = (.done, s.badWords vChain (if chainCheck i j = some 0x10 then 0x10 else 0x11))) ∧
    (∀ c, ws.drop n ≠ [] → s.decodeFor (ws.drop n) = .error c →
      s.decodeHere ws next = (.done, s.badWords vIllegal c.code)) ∧
    (∀ j m c, ws.drop n ≠ [] → s.decodeFor (ws.drop n) = .ok (j, m) → chainCheck i j = some c →
      s.decodeHere ws next = (.done, s.badWords vChain c)) ∧
    (∀ j m, ws.drop n ≠ [] → s.decodeFor (ws.drop n) = .ok (j, m) → chainCheck i j = none →
      s.decodeHere ws next = (.issue i (some j), s)) ∧
    (∀ j s₁ s₂, exec i s = .next s₁ → s₁.pairGoesOn s i = true → exec j (s₁.withFx s i) = .next s₂ →
      issue i (some j) s = .next ((s₂.joinFx s₁ i j).settle s)) ∧
    (∀ j s₁, exec i s = .next s₁ → s₁.pairGoesOn s i = false →
      issue i (some j) s = .next (s₁.settle s))

/-- R105, R106. Of the groups it chooses from, a partition takes one of the greatest rank; a
supervisor-mode group outranks a user group unless one has starved. -/
def Obligations.PartitionTakesTheGreatestRank : Prop :=
  (∀ (s : State) (ts : List Thread) (t : Thread), s.best ts = some t →
    t ∈ ts ∧ ∀ u ∈ ts, s.rank u ≤ s.rank t) ∧
  (∀ (s : State) (ts : List Thread), ts ≠ [] → s.best ts ≠ none) ∧
  (∀ (s : State) (t u : Thread), t.sup = true → u.sup = false → u.prio < 100 →
    s.rank u ≠ 1000 → s.rank u < s.rank t)

/-- No instruction and no step of the device is refused or faults: whatever the spec does not let it do
it traps on, waits for or ignores, and that is a next state. -/
def Obligations.EveryInstructionAnswersANextState : Prop :=
  ∀ (i : Instr) (s : State), ∃ s', exec i s = .next s'

/-- R17, R27. The machine stops only when its hold-up supply has ended, one second after input power was
lost (the length is the model's choice, log entry 45), and goes on when it is powered up again. -/
def Obligations.StepStopsOnlyWithoutPower : Prop :=
  ∀ s : State, (s.tick.poweredOff = true → s.tick.powersUp = false → step s = .fault .powerOff) ∧
    (s.tick.poweredOff = false ∨ s.tick.powersUp = true → ∃ s', step s = .next s')

/-! ## Reset and the invariant -/

/-- R14, R23, R130, R132, R198, R279, R359, R370. What the spec says of the state after reset: the
measurement registers and FMODE read zero, ACTHRESH, GANGBND and BELLCTL have their values, the
shootdown counters are 0, no core has a hand-in queue, PTICK is 1,000 and PIEN bit 5 reads 1. -/
def Obligations.ResetLeavesWhatTheSpecSays : Prop :=
  (∀ n, Sparse.get State.reset.meas 0 n = 0) ∧
  (∀ d, d < 4 → (State.reset.die d).fmode = 0 ∧ (State.reset.die d).acThresh = 0x100 ∧
    (State.reset.die d).gangBnd = 200000 ∧ (State.reset.die d).bellCtl = 1000000 ∧
    (State.reset.die d).shootAcc = 0 ∧ (State.reset.die d).shootDone = 0) ∧
  (∀ c, c < 48 → (State.reset.core c).hq.base = 0 ∧ (State.reset.core c).proctor.ptick = 1000 ∧
    (State.reset.core c).proctor.pien = 0x20) ∧
  State.reset.dies.length = 4 ∧ State.reset.cores.length = 48

/-- The memory of the machine after reset has its canonical form (log entry 4: what an unlisted byte
reads as is the model's choice). -/
def Obligations.ResetMemoryIsCanonical : Prop := State.reset.memWf

/-- Every step keeps the canonical form of memory: its bytes, the key tags of its lines, their poison
and the record of dirty lines (log entry 4). -/
def Obligations.EveryStepKeepsMemoryCanonical : Prop :=
  ∀ s s' : State, s.memWf → step s = .next s' → s'.memWf

/-! ## Uniform instructions -/

/-- R217, R218. The two-source uniform instructions in a group: s[d] takes the result on s[a] and on the register that
supplies b (field b, or X of REGX), the group goes on to the next instruction, and nothing else changes. The uniform
instructions with an immediate or one source, UMOVI, and URDLANE, which reads lane s[b] mod the width of v[a]: s[d]
takes the result, the group goes on, and nothing else changes. -/
def Obligations.UniformResults : Prop :=
  (∀ (h : Hdr) (d a : BitVec 7) (b : BitVec 6) (s : State) (t : Thread),
    ∀ p ∈ ([(.uadd h d a b, fun x y => x + y), (.usub h d a b, fun x y => x - y),
      (.umul h d a b, fun x y => x * y),
      (.umulhs h d a b, fun x y => BitVec.ofInt 64 (x.toInt * y.toInt / 2 ^ 64)),
      (.umulhn h d a b, fun x y => BitVec.ofNat 64 (x.toNat * y.toNat / 2 ^ 64)),
      (.uand h d a b, fun x y => x &&& y), (.uor h d a b, fun x y => x ||| y),
      (.uxor h d a b, fun x y => x ^^^ y), (.ushl h d a b, fun x y => x <<< y.toNat),
      (.ushr h d a b, fun x y => x >>> y.toNat), (.usar h d a b, fun x y => x.sshiftRight y.toNat),
      (.umins h d a b, fun x y => if x.slt y then x else y),
      (.uminn h d a b, fun x y => if x.ult y then x else y),
      (.umaxs h d a b, fun x y => if x.slt y then y else x),
      (.umaxn h d a b, fun x y => if x.ult y then y else x),
      (.usel h d a b, fun x y => if t.sreg d.toNat = 0 then y else x),
      (.useq h d a b, fun x y => if x = y then 1 else 0), (.usne h d a b, fun x y => if x = y then 0 else 1),
      (.uslts h d a b, fun x y => if x.toInt < y.toInt then 1 else 0),
      (.usltn h d a b, fun x y => if x.toNat < y.toNat then 1 else 0),
      (.ubfx h d a b, fun x y => (x >>> (y.toNat % 64)) &&&
        BitVec.ofNat 64 (2 ^ min (y.toNat / 256 % 128) (64 - y.toNat % 64) - 1))] :
      List (Instr × (W64 → W64 → W64))),
    Ready p.1 s t → completes p.1 s
      ((t.setSreg d.toNat (p.2 (t.sreg a.toNat) (t.sreg (sourceB h b)))).wentOn (nextPc t.pc h))) ∧
  (∀ (h : Hdr) (d a : BitVec 7) (i : BitVec 6) (s : State) (t : Thread),
    ∀ p ∈ ([(.uaddi h d a i, fun x => x + i.signExtend 64), (.uandi h d a i, fun x => x &&& i.signExtend 64),
      (.uori h d a i, fun x => x ||| i.signExtend 64), (.uxori h d a i, fun x => x ^^^ i.signExtend 64),
      (.ushli h d a i, fun x => x <<< i.toNat), (.ushri h d a i, fun x => x >>> i.toNat),
      (.usari h d a i, fun x => x.sshiftRight i.toNat),
      (.upopc h d a, fun x => BitVec.ofNat 64 ((List.range 64).filter (fun k => x.getLsbD k)).length),
      (.uclz h d a, fun x => BitVec.ofNat 64 (if x = 0 then 64 else 63 - Nat.log2 x.toNat))] :
      List (Instr × (W64 → W64))),
    Ready p.1 s t → completes p.1 s
      ((t.setSreg d.toNat (p.2 (t.sreg a.toNat))).wentOn (nextPc t.pc h))) ∧
  (∀ (h : Hdr) (d : BitVec 6) (i : BitVec 8) (s : State) (t : Thread), Ready (.umovi h d i) s t →
    completes (.umovi h d i) s
      ((t.setSreg d.toNat ((imm32 h i).signExtend 64)).wentOn (nextPc t.pc h))) ∧
  (∀ (h : Hdr) (d a : BitVec 7) (b : BitVec 6) (s : State) (t : Thread), Ready (.urdlane h d a b) s t →
    completes (.urdlane h d a b) s
      ((t.setSreg d.toNat
        ((t.vreg a.toNat ((t.sreg (sourceB h b)).toNat % t.width)).zeroExtend 64)).wentOn (nextPc t.pc h)))

/-- R197, R213, R217. On a proctor lane UADD, USUB, UAND, UOR, UXOR and UADDI write the lane's own
register s[d], and nothing else of the state changes but the lane's program counter and its waiting. -/
def Obligations.UniformResultsOnAProctorLane : Prop :=
  ∀ (h : Hdr) (d a : BitVec 7) (b : BitVec 6) (s : State) (c : Nat) (q : Proctor),
    q = (s.core c).proctor →
    ∀ p ∈ ([(.uadd h d a b, fun x y => x + y), (.usub h d a b, fun x y => x - y),
      (.uand h d a b, fun x y => x &&& y), (.uor h d a b, fun x y => x ||| y),
      (.uxor h d a b, fun x y => x ^^^ y), (.uaddi h d a b, fun x _ => x + b.signExtend 64)] :
      List (Instr × (W64 → W64 → W64))),
    ReadyProctor p.1 s c → exec p.1 s = .next (s.setProctor c { q.wentOn (nextPc q.pc h) with
      sregs := Sparse.set q.sregs 0 d.toNat
        (p.2 (Sparse.get q.sregs 0 a.toNat) (Sparse.get q.sregs 0 (sourceB h b))) })

/-! ## Vector integer instructions -/

/-- R139, R158, R219 to R221. The two-source vector instructions in every element type: each sub-element of v[d], in each
active lane, is the result on the sub-elements of v[a], v[b] and the old v[d]; inactive lanes and all else stay. A .64
operand is a pair (R48); a window of one slot, which no group has (R179), would make the two halves one register. IABS
and INEG on sub-elements, BPERM, which picks sub-elements of v[a] by the numbers in v[b], and NOT, POPC, CLZ, BREV and
MOV on whole registers or pairs. -/
def Obligations.VectorResults : Prop :=
  (∀ (h : Hdr) (d a b : BitVec 6) (ty : BitVec 2) (s : State) (t : Thread),
    ∀ p ∈ ([(.iadd h d a b ty, fun _ x y _ => x + y), (.isub h d a b ty, fun _ x y _ => x - y),
      (.imul h d a b ty, fun _ x y _ => x * y),
      (.imulhs h d a b ty, fun w x y _ => BitVec.ofInt w (x.toInt * y.toInt / 2 ^ w)),
      (.imulhn h d a b ty, fun w x y _ => BitVec.ofNat w (x.toNat * y.toNat / 2 ^ w)),
      (.imad h d a b ty, fun _ x y z => x * y + z),
      (.iaddss h d a b ty, fun w x y _ => clampSigned w (x.toInt + y.toInt)),
      (.iaddsn h d a b ty, fun w x y _ => BitVec.ofNat w (min (2 ^ w - 1) (x.toNat + y.toNat))),
      (.isubss h d a b ty, fun w x y _ => clampSigned w (x.toInt - y.toInt)),
      (.isubsn h d a b ty, fun w x y _ => BitVec.ofNat w (x.toNat - y.toNat)),
      (.imins h d a b ty, fun _ x y _ => if y.slt x then y else x),
      (.iminn h d a b ty, fun _ x y _ => if y.ult x then y else x),
      (.imaxs h d a b ty, fun _ x y _ => if x.slt y then y else x),
      (.imaxn h d a b ty, fun _ x y _ => if x.ult y then y else x),
      (.andV h d a b ty, fun _ x y _ => x &&& y), (.orV h d a b ty, fun _ x y _ => x ||| y),
      (.xorV h d a b ty, fun _ x y _ => x ^^^ y), (.andn h d a b ty, fun _ x y _ => x &&& ~~~y),
      (.shlV h d a b ty, fun _ x y _ => x <<< y.toNat), (.shrV h d a b ty, fun _ x y _ => x >>> y.toNat),
      (.sarV h d a b ty, fun _ x y _ => x.sshiftRight y.toNat),
      (.rotl h d a b ty, fun w x y _ => x.rotateLeft (y.toNat % w)),
      (.bfx h d a b ty, fun w x y _ => BitVec.ofNat w (x.toNat / 2 ^ fieldPos y % 2 ^ fieldLen y)),
      (.bfi h d a b ty, fun w x y z =>
        (z &&& ~~~(BitVec.ofNat w (2 ^ fieldLen y - 1) <<< fieldPos y)) |||
          ((x &&& BitVec.ofNat w (2 ^ fieldLen y - 1)) <<< fieldPos y))] :
      List (Instr × ((w : Nat) → BitVec w → BitVec w → BitVec w → BitVec w))),
    Ready p.1 s t → t.dres ≠ 1 →
    ∃ t', completes p.1 s t' ∧ VectorFrame h (opRegs (ty == 3) d.toNat) t t' ∧
      ∀ l e, l < 64 → (active t h).getLsbD l = true → e * viWidth ty < (if ty = 3 then 64 else 32) →
        subElem (viWidth ty) (t'.vval (ty == 3) d.toNat l) e =
          p.2 (viWidth ty) (subElem (viWidth ty) (t.vval (ty == 3) a.toNat l) e)
            (subElem (viWidth ty) (t.vval (ty == 3) b.toNat l) e)
            (subElem (viWidth ty) (t.vval (ty == 3) d.toNat l) e)) ∧
  (∀ (h : Hdr) (d a b : BitVec 6) (ty : BitVec 2) (s : State) (t : Thread),
    ∀ p ∈ ([(.iabs h d a ty, fun w v _ e => if (subElem w v e).slt 0 then -subElem w v e else subElem w v e),
      (.ineg h d a ty, fun w v _ e => -subElem w v e),
      (.bperm h d a b ty, fun w v u e =>
        subElem w v ((subElem w u e).toNat % ((if ty = 3 then 64 else 32) / w)))] :
      List (Instr × ((w : Nat) → Nat → Nat → Nat → BitVec w))),
    Ready p.1 s t → t.dres ≠ 1 →
    ∃ t', completes p.1 s t' ∧ VectorFrame h (opRegs (ty == 3) d.toNat) t t' ∧
      ∀ l e, l < 64 → (active t h).getLsbD l = true → e * viWidth ty < (if ty = 3 then 64 else 32) →
        subElem (viWidth ty) (t'.vval (ty == 3) d.toNat l) e =
          p.2 (viWidth ty) (t.vval (ty == 3) a.toNat l) (t.vval (ty == 3) b.toNat l) e) ∧
  (∀ (h : Hdr) (d a : BitVec 6) (ty : BitVec 2) (s : State) (t : Thread),
    ∀ p ∈ ([(.notV h d a ty, fun _ x => ~~~x),
      (.popc h d a ty, fun w x => BitVec.ofNat w ((List.range w).filter (fun k => x.getLsbD k)).length),
      (.clz h d a ty, fun w x => BitVec.ofNat w (if x.toNat = 0 then w else w - 1 - Nat.log2 x.toNat)),
      (.brev h d a ty, fun _ x => x.reverse), (.movV h d a ty, fun _ x => x)] :
      List (Instr × ((w : Nat) → BitVec w → BitVec w))),
    Ready p.1 s t → t.dres ≠ 1 →
    ∃ t', completes p.1 s t' ∧ VectorFrame h (opRegs (ty == 1) d.toNat) t t' ∧
      ∀ l, l < 64 → (active t h).getLsbD l = true →
        (ty = 1 → t'.vpair d.toNat l = p.2 64 (t.vpair a.toNat l)) ∧
        (ty ≠ 1 → t'.vreg d.toNat l = p.2 32 (t.vreg a.toNat l)))

/-- R222, R224, R226, R227. BFN forms each bit of v[d] from the three source bits by the function selected in s[Y]: the
high code where the third source's bit is 1, the low code where it is 0, each a truth table indexed by 2a + b; SEL
takes a where p[X] holds, else b; LEA adds the index, sign-extended and shifted by X mod 4, to the base pair. With a
uniform operand, of which arithmetic and logic use the low 32 bits and shifts all of s[b], or an immediate: v[d] takes
the result in each active lane; all else stays. -/
def Obligations.SelectAndUniformOperandResults : Prop :=
  (∀ (h : Hdr) (d a b : BitVec 6) (ty : BitVec 2) (s : State) (t : Thread),
    Ready (.bfn h d a b ty) s t → t.dres ≠ 1 →
    ∃ t', completes (.bfn h d a b ty) s t' ∧ VectorFrame h (opRegs (ty == 3) d.toNat) t t' ∧
      ∀ l k, l < 64 → (active t h).getLsbD l = true → k < (if ty = 3 then 64 else 32) →
        (t'.vval (ty == 3) d.toNat l).testBit k = (t.sreg (regxY h)).getLsbD
          ((if (t.vval (ty == 3) (regxX h) l).testBit k then 4 else 0)
            + (if (t.vval (ty == 3) a.toNat l).testBit k then 2 else 0)
            + (if (t.vval (ty == 3) b.toNat l).testBit k then 1 else 0))) ∧
  (∀ (h : Hdr) (d a b : BitVec 6) (ty : BitVec 2) (s : State) (t : Thread),
    Ready (.selV h d a b ty) s t → t.dres ≠ 1 →
    ∃ t', completes (.selV h d a b ty) s t' ∧ VectorFrame h (opRegs (ty == 3) d.toNat) t t' ∧
      ∀ l, l < 64 → (active t h).getLsbD l = true →
        t'.vval (ty == 3) d.toNat l =
          if t.pred (regxX h) l then t.vval (ty == 3) a.toNat l else t.vval (ty == 3) b.toNat l) ∧
  (∀ (h : Hdr) (d a b : BitVec 6) (s : State) (t : Thread), Ready (.lea h d a b) s t → t.dres ≠ 1 →
    ∃ t', completes (.lea h d a b) s t' ∧ VectorFrame h (opRegs true d.toNat) t t' ∧
      ∀ l, l < 64 → (active t h).getLsbD l = true →
        t'.vpair d.toNat l =
          t.vpair b.toNat l + ((t.vreg a.toNat l).signExtend 64 <<< (regxX h % 4))) ∧
  (∀ (h : Hdr) (d a : BitVec 6) (b : BitVec 7) (s : State) (t : Thread),
    ∀ p ∈ ([(.iaddu h d a b, fun x y => x + y.setWidth 32), (.isubu h d a b, fun x y => x - y.setWidth 32),
      (.imulu h d a b, fun x y => x * y.setWidth 32), (.shlu h d a b, fun x y => x <<< y.toNat),
      (.shru h d a b, fun x y => x >>> y.toNat), (.andu h d a b, fun x y => x &&& y.setWidth 32),
      (.oru h d a b, fun x y => x ||| y.setWidth 32), (.xoru h d a b, fun x y => x ^^^ y.setWidth 32)] :
      List (Instr × (W32 → W64 → W32))),
    Ready p.1 s t → ∃ t', completes p.1 s t' ∧ VectorFrame h [d.toNat] t t' ∧
      ∀ l, l < 64 → (active t h).getLsbD l = true →
        t'.vreg d.toNat l = p.2 (t.vreg a.toNat l) (t.sreg b.toNat)) ∧
  (∀ (h : Hdr) (d a : BitVec 6) (i : BitVec 8) (s : State) (t : Thread),
    ∀ p ∈ ([(.imovi h d i, fun _ => imm32 h i), (.iaddi h d a i, fun x => x + imm32 h i),
      (.andi h d a i, fun x => x &&& imm32 h i), (.ori h d a i, fun x => x ||| imm32 h i),
      (.shli h d a i, fun x => x <<< (imm32z h i).toNat), (.shri h d a i, fun x => x >>> (imm32z h i).toNat),
      (.sari h d a i, fun x => x.sshiftRight (imm32z h i).toNat)] :
      List (Instr × (W32 → W32))),
    Ready p.1 s t → ∃ t', completes p.1 s t' ∧ VectorFrame h [d.toNat] t t' ∧
      ∀ l, l < 64 → (active t h).getLsbD l = true → t'.vreg d.toNat l = p.2 (t.vreg a.toNat l))

/-- R223, R227. A comparison sets p[d], one of p0 to p6, in each active lane where its condition holds of every
sub-element, or of v[a] and the immediate; all else stays. A d field from 7 to 63 is rejected with cause 0x03. -/
def Obligations.IntegerComparisonResults : Prop :=
  (∀ (h : Hdr) (d a b : BitVec 6) (ty : BitVec 2) (s : State) (t : Thread),
    ∀ p ∈ ([(.iseteq h d a b ty, fun _ x y => decide (x = y)), (.isetne h d a b ty, fun _ x y => decide (x ≠ y)),
      (.isetlts h d a b ty, fun _ x y => x.slt y), (.isetltn h d a b ty, fun _ x y => x.ult y),
      (.isetles h d a b ty, fun _ x y => x.sle y), (.isetlen h d a b ty, fun _ x y => x.ule y)] :
      List (Instr × ((w : Nat) → BitVec w → BitVec w → Bool))),
    Ready p.1 s t → ∃ t', completes p.1 s t' ∧ PredFrame h d.toNat t t' ∧
      ∀ l, l < 64 → (active t h).getLsbD l = true →
        t'.pred d.toNat l = (List.range ((if ty = 3 then 64 else 32) / viWidth ty)).all (fun e =>
          p.2 (viWidth ty) (subElem (viWidth ty) (t.vval (ty == 3) a.toNat l) e)
            (subElem (viWidth ty) (t.vval (ty == 3) b.toNat l) e))) ∧
  (∀ (h : Hdr) (d a : BitVec 6) (i : BitVec 8) (s : State) (t : Thread),
    ∀ p ∈ ([(.iseteqi h d a i, fun x => decide (x = imm32 h i)), (.isetlti h d a i, fun x => x.slt (imm32 h i))] :
      List (Instr × (W32 → Bool))),
    Ready p.1 s t → ∃ t', completes p.1 s t' ∧ PredFrame h d.toNat t t' ∧
      ∀ l, l < 64 → (active t h).getLsbD l = true → t'.pred d.toNat l = p.2 (t.vreg a.toNat l)) ∧
  (∀ (h : Hdr) (d a b : BitVec 6) (ty : BitVec 2),
    ∀ p ∈ ([(.iseteq h d a b ty, .iseteq h 0 a b ty), (.isetne h d a b ty, .isetne h 0 a b ty),
      (.isetlts h d a b ty, .isetlts h 0 a b ty), (.isetltn h d a b ty, .isetltn h 0 a b ty),
      (.isetles h d a b ty, .isetles h 0 a b ty), (.isetlen h d a b ty, .isetlen h 0 a b ty)] : List (Instr × Instr)),
    checkInstr p.2 = none → checkInstr p.1 = if 7 ≤ d.toNat then some .register else none)

/-- R183, R225. The predicate instructions: p[d] takes the result in each active lane, p7 reading true as a
source; all else stays. A d outside p0 to p6, or a source outside p0 to p7, is rejected with cause 0x03. -/
def Obligations.PredicateResults : Prop :=
  (∀ (h : Hdr) (d a b : BitVec 6) (s : State) (t : Thread),
    ∀ p ∈ ([(.pand h d a b, fun l => t.pred a.toNat l && t.pred b.toNat l),
      (.por h d a b, fun l => t.pred a.toNat l || t.pred b.toNat l),
      (.pxor h d a b, fun l => t.pred a.toNat l ^^ t.pred b.toNat l), (.pnot h d a, fun l => !t.pred a.toNat l),
      (.pmov h d a b, fun l => t.pred a.toNat l && (t.sreg b.toNat).getLsbD l)] :
      List (Instr × (Nat → Bool))),
    Ready p.1 s t → ∃ t', completes p.1 s t' ∧ PredFrame h d.toNat t t' ∧ (∀ l, t.pred 7 l = true) ∧
      ∀ l, l < 64 → (active t h).getLsbD l = true → t'.pred d.toNat l = p.2 l) ∧
  (∀ (h : Hdr) (d a b : BitVec 6),
    (∀ p ∈ ([(.pand h d a b, .pand h 0 0 0), (.por h d a b, .por h 0 0 0), (.pxor h d a b, .pxor h 0 0 0)] :
      List (Instr × Instr)), checkInstr p.2 = none →
      checkInstr p.1 = if 7 ≤ d.toNat ∨ 8 ≤ a.toNat ∨ 8 ≤ b.toNat then some .register else none) ∧
    (∀ p ∈ ([(.pnot h d a, .pnot h 0 0), (.pmov h d a b, .pmov h 0 0 0)] : List (Instr × Instr)),
      checkInstr p.2 = none → checkInstr p.1 = if 7 ≤ d.toNat ∨ 8 ≤ a.toNat then some .register else none))

/-! ## Vector floating point -/

/-- R59, R228, R232 to R234. The scalar floating-point instructions in every format: v[d], or its pair, takes
the rounded result in each active lane, the flags that the operation raises are added to the lane's fx,
the SR counter counts an instruction that rounds by SR (R62), and all else stays. -/
def Obligations.FloatArithmeticResults : Prop :=
  ∀ (h : Hdr) (d a b : BitVec 6) (ty : BitVec 2) (s : State) (t : Thread) (c : Nat), c = fmtOfT ty.toNat →
    ∀ p ∈ ([(.fadd h d a b ty, fun q x y _ => fpAdd q x y), (.fsub h d a b ty, fun q x y _ => fpAdd q x y.negate),
      (.fmul h d a b ty, fun q x y _ => fpMul q x y), (.fdiv h d a b ty, fun q x y _ => fpDiv q x y),
      (.fma h d a b ty, fun q x y z => fpFma q false false x y z),
      (.fms h d a b ty, fun q x y z => fpFma q false true x y z),
      (.fnma h d a b ty, fun q x y z => fpFma q true false x y z),
      (.fsqrt h d a ty, fun q x _ _ => fpSqrt q x), (.frsq h d a ty, fun q x _ _ => fpRsq q x),
      (.frcp h d a ty, fun q x _ _ => fpRcp q x), (.frint h d a ty, fun q x _ _ => fpRint q x),
      (.fmin h d a b ty, fun q x y _ => fpMinMax q false false x y),
      (.fmax h d a b ty, fun q x y _ => fpMinMax q true false x y),
      (.fminnum h d a b ty, fun q x y _ => fpMinMax q false true x y),
      (.fmaxnum h d a b ty, fun q x y _ => fpMinMax q true true x y)] :
      List (Instr × (Dest → Val → Val → Val → Nat × Flags))),
    Ready p.1 s t → t.dres ≠ 1 →
    ∃ t', completes p.1 s t' ∧ FloatFrame h (opRegs (c == 4) d.toNat) t t' ∧
      ∀ l, l < 64 → (active t h).getLsbD l = true →
        t'.holds c d.toNat l (p.2 (destOf t h c l 0) (t.fval c a.toNat l) (t.fval c b.toNat l)
          (t.fval c (sourceC h d) l)).1 ∧
        t'.flags l = t.flags l ||| (p.2 (destOf t h c l 0) (t.fval c a.toNat l) (t.fval c b.toNat l)
          (t.fval c (sourceC h d) l)).2

/-- R232, R233, R237. FSCALE by the integer in v[b]; the elementary functions; and the operations with the
.f32 value in the low half of s[b], FMAU adding the old v[d]; FMOVI writes its immediate. -/
def Obligations.FloatFunctionAndUniformResults : Prop :=
  (∀ (h : Hdr) (d a b : BitVec 6) (ty : BitVec 2) (s : State) (t : Thread) (c : Nat), c = fmtOfT ty.toNat →
    ∀ p ∈ ([(.fscale h d a b ty, fun q v l => fpScale q (srcOf t c v) (t.vreg b.toNat l).toInt),
      (.fexp2 h d a ty, fun q v _ => fpElementary q 0x96 v (srcOf t c v)),
      (.flog2 h d a ty, fun q v _ => fpElementary q 0x97 v (srcOf t c v)),
      (.fsin h d a ty, fun q v _ => fpElementary q 0x98 v (srcOf t c v)),
      (.fcos h d a ty, fun q v _ => fpElementary q 0x99 v (srcOf t c v)),
      (.ftanh h d a ty, fun q v _ => fpElementary q 0x9A v (srcOf t c v))] :
      List (Instr × (Dest → Nat → Nat → Nat × Flags))),
    Ready p.1 s t → t.dres ≠ 1 →
    ∃ t', completes p.1 s t' ∧ FloatFrame h (opRegs (c == 4) d.toNat) t t' ∧
      ∀ l, l < 64 → (active t h).getLsbD l = true →
        t'.holds c d.toNat l (p.2 (destOf t h c l 0) (t.fpat c a.toNat l) l).1 ∧
        t'.flags l = t.flags l ||| (p.2 (destOf t h c l 0) (t.fpat c a.toNat l) l).2) ∧
  (∀ (h : Hdr) (d a : BitVec 6) (b : BitVec 7) (s : State) (t : Thread) (u : Val),
    u = srcOf t 3 ((t.sreg b.toNat).toNat % 2 ^ 32) →
    ∀ p ∈ ([(.faddu h d a b, fun q x _ => fpAdd q x u), (.fmulu h d a b, fun q x _ => fpMul q x u),
      (.fmau h d a b, fun q x z => fpFma q false false x u z)] :
      List (Instr × (Dest → Val → Val → Nat × Flags))),
    Ready p.1 s t → ∃ t', completes p.1 s t' ∧ FloatFrame h [d.toNat] t t' ∧
      ∀ l, l < 64 → (active t h).getLsbD l = true →
        t'.holds 3 d.toNat l (p.2 (destOf t h 3 l 0) (t.fval 3 a.toNat l) (t.fval 3 d.toNat l)).1 ∧
        t'.flags l = t.flags l |||
          (p.2 (destOf t h 3 l 0) (t.fval 3 a.toNat l) (t.fval 3 d.toNat l)).2) ∧
  (∀ (h : Hdr) (d : BitVec 6) (i : BitVec 8) (s : State) (t : Thread), Ready (.fmovi h d i) s t →
    ∃ t', completes (.fmovi h d i) s t' ∧ FloatFrame h [d.toNat] t t' ∧
      ∀ l, l < 64 → (active t h).getLsbD l = true → t'.vreg d.toNat l = imm32 h i)

/-- R231, R232, R236, R240. FABS, FNEG, FCOPYSIGN and CCONJ change the sign bit alone, without regard to NaNs or flush
bits, and set no flag. FCLASS writes the class mask of each lane's operand and sets no flag; FCLASS.GETFX copies fx
into v[d]; FCLASS.SETFX takes fx from the low 5 bits of v[a]. -/
def Obligations.SignAndClassResults : Prop :=
  (∀ (h : Hdr) (d a b : BitVec 6) (ty : BitVec 2) (s : State) (t : Thread) (c : Nat), c = fmtOfT ty.toNat →
    ∀ p ∈ ([(.fabs h d a ty, fun _ _ => false), (.fneg h d a ty, fun x _ => !x),
      (.fcopysign h d a b ty, fun _ y => y)] : List (Instr × (Bool → Bool → Bool))),
    Ready p.1 s t → t.dres ≠ 1 →
    ∃ t', completes p.1 s t' ∧ FloatFrame h (opRegs (c == 4) d.toNat) t t' ∧
      ∀ l, l < 64 → (active t h).getLsbD l = true →
        t'.flags l = t.flags l ∧
        (t'.fpat c d.toNat l).testBit (fmtBits c - 1) =
          p.2 ((t.fpat c a.toNat l).testBit (fmtBits c - 1)) ((t.fpat c b.toNat l).testBit (fmtBits c - 1)) ∧
        ∀ k, k < fmtBits c - 1 → (t'.fpat c d.toNat l).testBit k = (t.fpat c a.toNat l).testBit k) ∧
  (∀ (h : Hdr) (d a : BitVec 6) (s : State) (t : Thread), Ready (.cconj h d a) s t → 4 ≤ t.dres →
    ∃ t', completes (.cconj h d a) s t' ∧ FloatFrame h [d.toNat, d.toNat + 1, d.toNat + 2, d.toNat + 3] t t' ∧
      ∀ l, l < 64 → (active t h).getLsbD l = true →
        t'.flags l = t.flags l ∧ t'.vpair d.toNat l = t.vpair a.toNat l ∧
        t'.vpair (d.toNat + 2) l = t.vpair (a.toNat + 2) l ^^^ 0x8000000000000000) ∧
  (∀ (h : Hdr) (d a : BitVec 6) (ty : BitVec 2) (s : State) (t : Thread), Ready (.fclass h d a ty) s t →
    ∃ t', completes (.fclass h d a ty) s t' ∧ FloatFrame h [d.toNat] t t' ∧
      ∀ l, l < 64 → (active t h).getLsbD l = true → t'.flags l = t.flags l ∧
        t'.vreg d.toNat l = BitVec.ofNat 32 (fpClass (fmtOfT ty.toNat) (t.fpat (fmtOfT ty.toNat) a.toNat l))) ∧
  (∀ (h : Hdr) (d : BitVec 6) (s : State) (t : Thread), Ready (.fclassGetfx h d) s t →
    ∃ t', completes (.fclassGetfx h d) s t' ∧ FloatFrame h [d.toNat] t t' ∧
      ∀ l, l < 64 → (active t h).getLsbD l = true → t'.flags l = t.flags l ∧
        t'.vreg d.toNat l = (t.flags l).zeroExtend 32) ∧
  (∀ (h : Hdr) (a : BitVec 6) (s : State) (t : Thread), Ready (.fclassSetfx h a) s t →
    ∃ t', completes (.fclassSetfx h a) s t' ∧ FloatFrame h [] t t' ∧
      ∀ l, l < 64 → (active t h).getLsbD l = true → t'.flags l = (t.vreg a.toNat l).setWidth 5)

/-- R235. The floating-point comparisons: p[d] takes the condition, which NaN operands decide as the table
says; FSETLT and FSETLE raise NV on any NaN, the others on a signalling one alone; −0 and +0 compare equal. A d
field from 7 to 63 is rejected with cause 0x03. -/
def Obligations.FloatComparisonResults : Prop :=
  (∀ (h : Hdr) (d a b : BitVec 6) (ty : BitVec 2) (s : State) (t : Thread) (c : Nat), c = fmtOfT ty.toNat →
    ∀ p ∈ ([(.fseteq h d a b ty, false, fun x y => !(x.isNan || y.isNan) && numEq x y),
      (.fsetne h d a b ty, false, fun x y => (x.isNan || y.isNan) || !numEq x y),
      (.fsetlt h d a b ty, true, fun x y => !(x.isNan || y.isNan) && numLt x y),
      (.fsetle h d a b ty, true, fun x y => !(x.isNan || y.isNan) && (numLt x y || numEq x y)),
      (.fsetun h d a b ty, false, fun x y => x.isNan || y.isNan)] :
      List (Instr × Bool × (Val → Val → Bool))),
    Ready p.1 s t → ∃ t' u, completes p.1 s t' ∧ t' = { u with fx := t'.fx, srcnt := t'.srcnt } ∧
      PredFrame h d.toNat t u ∧ t'.srcnt = (if regxRnd h = 5 then t.srcnt + 1 else t.srcnt) ∧
      (∀ l, l < 64 → (active t h).getLsbD l = false → t'.flags l = t.flags l) ∧
      ∀ l, l < 64 → (active t h).getLsbD l = true →
        t'.pred d.toNat l = p.2.2 (t.fval c a.toNat l) (t.fval c b.toNat l) ∧
        t'.flags l = t.flags l ||| (if p.2.1 && ((t.fval c a.toNat l).isNan || (t.fval c b.toNat l).isNan) then flNV
          else sigFlags [t.fval c a.toNat l, t.fval c b.toNat l])) ∧
  (∀ e e' : Int, numEq (.fin true 0 e) (.fin false 0 e') = true ∧ numLt (.fin true 0 e) (.fin false 0 e') = false) ∧
  (∀ (h : Hdr) (d a b : BitVec 6) (ty : BitVec 2),
    ∀ p ∈ ([(.fseteq h d a b ty, .fseteq h 0 a b ty), (.fsetne h d a b ty, .fsetne h 0 a b ty),
      (.fsetlt h d a b ty, .fsetlt h 0 a b ty), (.fsetle h d a b ty, .fsetle h 0 a b ty),
      (.fsetun h d a b ty, .fsetun h 0 a b ty)] : List (Instr × Instr)),
    checkInstr p.2 = none → checkInstr p.1 = if 7 ≤ d.toNat then some .register else none)

/-- R238, R239. The packed 16-bit operations act on each half by itself, and FDOT2 and FDOT4 add the exact
products of their elements to the .f32 third source with one rounding; flags of all elements are added to
the lane's fx. -/
def Obligations.PackedAndDotProductResults : Prop :=
  (∀ (h : Hdr) (d a b : BitVec 6) (ty : BitVec 2) (s : State) (t : Thread),
    ∀ p ∈ ([(.hadd2 h d a b ty, fun q x y _ => fpAdd q x y), (.hmul2 h d a b ty, fun q x y _ => fpMul q x y),
      (.hfma2 h d a b ty, fun q x y z => fpFma q false false x y z),
      (.hmin2 h d a b ty, fun q x y _ => fpMinMax q false false x y),
      (.hmax2 h d a b ty, fun q x y _ => fpMinMax q true false x y)] :
      List (Instr × (Dest → Val → Val → Val → Nat × Flags))),
    Ready p.1 s t → ∃ t', completes p.1 s t' ∧ FloatFrame h [d.toNat] t t' ∧
      ∀ l, l < 64 → (active t h).getLsbD l = true → ∃ r : Nat → Nat × Flags,
        (∀ e, r e = p.2 (destOf t h ty.toNat l e)
          (srcOf t ty.toNat (elem 16 (t.vreg a.toNat l).toNat e))
          (srcOf t ty.toNat (elem 16 (t.vreg b.toNat l).toNat e))
          (srcOf t ty.toNat (elem 16 (t.vreg (sourceC h d) l).toNat e))) ∧
        t'.vreg d.toNat l = BitVec.ofNat 32 ((r 0).1 + (r 1).1 * 2 ^ 16) ∧
        t'.flags l = t.flags l ||| ((r 0).2 ||| (r 1).2)) ∧
  (∀ (h : Hdr) (d a b : BitVec 6) (ty : BitVec 2) (s : State) (t : Thread),
    ∀ p ∈ ([(.fdot2 h d a b ty, ty.toNat, 2, 16), (.fdot4 h d a b ty, 5 + ty.toNat, 4, 8)] :
      List (Instr × Nat × Nat × Nat)),
    Ready p.1 s t → ∃ t', completes p.1 s t' ∧ FloatFrame h [d.toNat] t t' ∧
      ∀ l, l < 64 → (active t h).getLsbD l = true → ∃ (r : Nat × Flags) (x y : Nat → Val),
        (∀ e, x e = srcOf t p.2.1 (elem p.2.2.2 (t.vreg a.toNat l).toNat e)) ∧
        (∀ e, y e = srcOf t p.2.1 (elem p.2.2.2 (t.vreg b.toNat l).toNat e)) ∧
        r = fpDot (destOf t h 3 l 0)
          ((List.range p.2.2.1).flatMap (fun e => [x e, y e]) ++ [t.fval 3 (sourceC h d) l])
          ((List.range p.2.2.1).map (fun e => (x e, y e, false))) [t.fval 3 (sourceC h d) l] ∧
        t'.vreg d.toNat l = BitVec.ofNat 32 r.1 ∧ t'.flags l = t.flags l ||| r.2)

/-- R240. The complex instructions on .c64 values of four registers: CADD and CSUB by parts, CMUL and CFMA
with each part an exact sum rounded once, CNORM the squared magnitude into a pair. -/
def Obligations.ComplexResults : Prop :=
  (∀ (h : Hdr) (d a b : BitVec 6) (s : State) (t : Thread),
    ∀ p ∈ ([(.cadd h d a b, fun q x y _ => (fpAdd q x.1 y.1, fpAdd q x.2 y.2)),
      (.csub h d a b, fun q x y _ => (fpAdd q x.1 y.1.negate, fpAdd q x.2 y.2.negate)),
      (.cmul h d a b, fun q x y _ => (fpDot q [x.1, x.2, y.1, y.2] [(x.1, y.1, false), (x.2, y.2, true)] [],
        fpDot q [x.1, x.2, y.1, y.2] [(x.1, y.2, false), (x.2, y.1, false)] [])),
      (.cfma h d a b, fun q x y z =>
        (fpDot q [x.1, x.2, y.1, y.2, z.1] [(x.1, y.1, false), (x.2, y.2, true)] [z.1],
         fpDot q [x.1, x.2, y.1, y.2, z.2] [(x.1, y.2, false), (x.2, y.1, false)] [z.2]))] :
      List (Instr × (Dest → Val × Val → Val × Val → Val × Val → (Nat × Flags) × (Nat × Flags)))),
    Ready p.1 s t → 4 ≤ t.dres →
    ∃ t', completes p.1 s t' ∧ FloatFrame h [d.toNat, d.toNat + 1, d.toNat + 2, d.toNat + 3] t t' ∧
      ∀ l, l < 64 → (active t h).getLsbD l = true → ∃ r,
        r = p.2 (destOf t h 4 l 0) (t.fval 4 a.toNat l, t.fval 4 (a.toNat + 2) l)
          (t.fval 4 b.toNat l, t.fval 4 (b.toNat + 2) l)
          (t.fval 4 (sourceC h d) l, t.fval 4 (sourceC h d + 2) l) ∧
        t'.vpair d.toNat l = BitVec.ofNat 64 r.1.1 ∧ t'.vpair (d.toNat + 2) l = BitVec.ofNat 64 r.2.1 ∧
        t'.flags l = t.flags l ||| r.1.2 ||| r.2.2) ∧
  (∀ (h : Hdr) (d a : BitVec 6) (s : State) (t : Thread), Ready (.cnorm h d a) s t → t.dres ≠ 1 →
    ∃ t', completes (.cnorm h d a) s t' ∧ FloatFrame h (opRegs true d.toNat) t t' ∧
      ∀ l, l < 64 → (active t h).getLsbD l = true → ∃ r x y,
        x = t.fval 4 a.toNat l ∧ y = t.fval 4 (a.toNat + 2) l ∧
        r = fpDot (destOf t h 4 l 0) [x, y] [(x, x, false), (y, y, false)] [] ∧
        t'.vpair d.toNat l = BitVec.ofNat 64 r.1 ∧ t'.flags l = t.flags l ||| r.2)

/-! ## Conversions -/

/-- R241 to R244, R245, R247, R248. Conversions of one value: float to float, float to integer with its saturation and
flags, integer to float, and integer to integer, which wraps or, with SAT, clamps. CVTPACK converts .f32 registers
into the sub-elements of one register, CVTUNPACK the sub-elements into .f32 registers, CVTSORT 24 values into a sorted
block of four registers, CVTDQ decodes one block-scaled element. -/
def Obligations.ConversionResults : Prop :=
  (∀ (h : Hdr) (d a : BitVec 6) (n m : BitVec 4) (s : State) (t : Thread),
    ∀ p ∈ ([(.cvt h d a n m, fun q l => fpConvert q (t.fval m.toNat a.toNat l)),
      (.cvti2f h d a n m, fun q l => roundInt q false (intValue m.toNat (t.ipat m.toNat a.toNat l)) 0)] :
      List (Instr × (Dest → Nat → Nat × Flags))),
    Ready p.1 s t → t.dres ≠ 1 →
    ∃ t', completes p.1 s t' ∧ FloatFrame h (opRegs (n == 4) d.toNat) t t' ∧
      ∀ l, l < 64 → (active t h).getLsbD l = true →
        t'.holds n.toNat d.toNat l (p.2 (destOf t h n.toNat l 0) l).1 ∧
        t'.flags l = t.flags l ||| (p.2 (destOf t h n.toNat l 0) l).2) ∧
  (∀ (h : Hdr) (d a : BitVec 6) (n m : BitVec 4) (s : State) (t : Thread),
    ∀ p ∈ ([(.cvtf2i h d a n m, fun l => fpToInt n.toNat (rmOf t (regxRnd h) l 0) (t.fval m.toNat a.toNat l)),
      (.cvti2i h d a n m, fun l => (if regxSat h then clampInt n.toNat (intValue m.toNat (t.ipat m.toNat a.toNat l))
        else intValue n.toNat (wrap (intWidth n.toNat) (intValue m.toNat (t.ipat m.toNat a.toNat l))), 0))] :
      List (Instr × (Nat → Int × Flags))),
    Ready p.1 s t → t.dres ≠ 1 →
    ∃ t', completes p.1 s t' ∧ FloatFrame h (opRegs (n.toNat % 4 == 3) d.toNat) t t' ∧
      ∀ l, l < 64 → (active t h).getLsbD l = true →
        (n.toNat % 4 = 3 → t'.vpair d.toNat l = BitVec.ofInt 64 (p.2 l).1) ∧
        (n.toNat % 4 ≠ 3 → t'.vreg d.toNat l = BitVec.ofNat 32 (intResult n.toNat (p.2 l).1)) ∧
        t'.flags l = t.flags l ||| (p.2 l).2) ∧
  (∀ (h : Hdr) (d a : BitVec 6) (n m : BitVec 4) (s : State) (t : Thread), Ready (.cvtpack h d a n m) s t →
    ∃ t', completes (.cvtpack h d a n m) s t' ∧ FloatFrame h [d.toNat] t t' ∧
      ∀ l, l < 64 → (active t h).getLsbD l = true → ∃ xs,
        xs = (List.range (packedShape n.toNat).1).map (fun e =>
          fpConvert (destOf t h n.toNat l e) (t.fval 3 (a.toNat + e) l)) ∧
        t'.vreg d.toNat l = BitVec.ofNat 32
          ((xs.mapIdx (fun e x => x.1 * 2 ^ ((packedShape n.toNat).2 * e))).foldl (· + ·) 0) ∧
        t'.flags l = t.flags l ||| orFlags xs) ∧
  (∀ (h : Hdr) (d a : BitVec 6) (n m : BitVec 4) (s : State) (t : Thread), Ready (.cvtunpack h d a n m) s t →
    8 ≤ t.dres → ∃ t', completes (.cvtunpack h d a n m) s t' ∧
      FloatFrame h ((List.range (packedShape m.toNat).1).map (d.toNat + ·)) t t' ∧
      ∀ l, l < 64 → (active t h).getLsbD l = true → ∃ xs,
        xs = (List.range (packedShape m.toNat).1).map (fun e => fpConvert (destOf t h 3 l e)
          (srcOf t m.toNat (bits (t.vreg a.toNat l).toNat ((packedShape m.toNat).2 * e) (fmtBits m.toNat)))) ∧
        (∀ e x, xs[e]? = some x → t'.vreg (d.toNat + e) l = BitVec.ofNat 32 x.1) ∧
        t'.flags l = t.flags l ||| (orFlags xs &&& flNV)) ∧
  (∀ (h : Hdr) (d a : BitVec 6) (n m : BitVec 4) (s : State) (t : Thread), Ready (.cvtsort h d a n m) s t →
    4 ≤ t.dres → ∃ t', completes (.cvtsort h d a n m) s t' ∧
      FloatFrame h [d.toNat, d.toNat + 1, d.toNat + 2, d.toNat + 3] t t' ∧
      ∀ l, l < 64 → (active t h).getLsbD l = true → ∃ r,
        r = sortQuantise (fun i => rmOf t (regxRnd h) l i) ((List.range 24).map (fun i =>
          srcOf t m.toNat (elem 16 (t.vreg (a.toNat + i / 2) l).toNat (i % 2)))) ∧
        (∀ k, k < 3 → t'.vreg (d.toNat + k) l = BitVec.ofNat 32 (((List.range 8).map (fun i =>
          (r.2.2.getD (8 * k + i) (0, 0)).1 * 2 ^ (4 * i))).foldl (· + ·) 0)) ∧
        t'.vreg (d.toNat + 3) l = BitVec.ofNat 32 (r.1 + r.2.1 * 2 ^ 8) ∧
        t'.flags l = t.flags l ||| orFlags r.2.2) ∧
  (∀ (h : Hdr) (d a : BitVec 6) (n m : BitVec 4) (s : State) (t : Thread), Ready (.cvtdq h d a n m) s t →
    t.dres ≠ 1 → ∃ t', completes (.cvtdq h d a n m) s t' ∧ FloatFrame h (opRegs (n == 4) d.toNat) t t' ∧
      ∀ l, l < 64 → (active t h).getLsbD l = true → ∃ r v,
        v = (t.vreg a.toNat l).toNat ∧
        r = fpConvert (destOf t h n.toNat l 0)
          (if m = 0xB then sortedValue (bits v 0 4) (bits v 8 8) (bits v 16 8)
           else mxValue m.toNat (bits v 0 (if m = 7 ∨ m = 8 then 6 else if m = 9 then 4 else 8)) (bits v 8 8)) ∧
        t'.holds n.toNat d.toNat l r.1 ∧ t'.flags l = t.flags l ||| r.2)

/-! ## Cross-lane instructions -/

/-- R249, R250, R253. Where the membership mask is that of the active lanes, each active lane of an exchange
takes the value that its source lane held before: XLI the lane v[b] mod W, XLR the lane l + s[X] mod W, XLF
the lane l xor (s[X] mod W), XLB the lane s[X] mod W. -/
def Obligations.LaneExchangeResults : Prop :=
  ∀ (h : Hdr) (d a b : BitVec 6) (ty : BitVec 2) (s : State) (t : Thread),
    ∀ p ∈ ([(.xli h d a b ty, fun l => (t.vreg b.toNat l).toNat % t.width),
      (.xlr h d a ty, fun l => (((l : Int) + (t.sreg (regxX h)).toInt) % (t.width : Int)).toNat),
      (.xlf h d a ty, fun l => l ^^^ ((t.sreg (regxX h)).toNat % t.width)),
      (.xlb h d a ty, fun _ => (t.sreg (regxX h)).toNat % t.width)] : List (Instr × (Nat → Nat))),
    Ready p.1 s t → t.sreg (regxY h) = active t h → t.dres ≠ 1 →
    ∃ t', completes p.1 s t' ∧ FloatFrame h (opRegs (ty == 1) d.toNat) t t' ∧
      ∀ l, l < 64 → (active t h).getLsbD l = true → t'.flags l = t.flags l ∧
        t'.vval (ty == 1) d.toNat l = t.vval (ty == 1) a.toNat (p.2 l)

/-- R251, R253. PCNT, PMASK and PFIRST: s[X], unless X is 0x7F, takes the number of active lanes whose source
is true, their mask, or the lowest of them, 64 without one; p[d] of the active lanes says of PCNT whether
the quorum is met, all of them for b = 0, and of PFIRST which lane is the lowest. -/
def Obligations.LaneCountResults : Prop :=
  ∀ (h : Hdr) (d a b : BitVec 6) (s : State) (t : Thread) (yes : Mask),
    yes = maskOf (fun l => (active t h).getLsbD l && t.source a.toNat l) → t.sreg (regxY h) = active t h →
    ∀ p ∈ ([(.pcnt h d a b, BitVec.ofNat 64 (lanesIn yes), some (fun _ => if b = 0 then decide (yes = active t h)
        else decide (b.toNat ≤ lanesIn yes))),
      (.pmask h a, yes, none),
      (.pfirst h d a, BitVec.ofNat 64 (((lanesOf yes).head?).getD 64),
        some (fun l => decide ((lanesOf yes).head? = some l)))] :
      List (Instr × W64 × Option (Nat → Bool))),
    Ready p.1 s t → ∃ t', completes p.1 s t' ∧
      t' = { t.wentOn (nextPc t.pc h) with
        preds := t'.preds, sregs := t'.sregs
        srcnt := if regxRnd h = 5 then t.srcnt + 1 else t.srcnt } ∧
      (∀ r, t'.sreg r = if r = regxX h ∧ regxX h ≠ 0x7F then p.2.1 else t.sreg r) ∧
      (∀ n l, l < 64 → t'.pred n l = match p.2.2 with
        | some f => if n = d.toNat ∧ n ≠ 7 ∧ (active t h).getLsbD l = true then f l else t.pred n l
        | none => t.pred n l)

/-- R252. REDADD, REDMIN and REDMAX on integers give every active lane the sum modulo 2^32 of the active lanes' values, or
the least or greatest of them, signed for type 0 and unsigned for type 1; SCANADD gives each the sum of the active
lanes up to it. No flag is set. On .f32 and .f64 the reductions put neighbours together level by level over all lanes
of the group, an inactive lane giving way, each operation rounded by itself; every active lane takes the value and the
flags of the whole tree. SCANADD adds in ascending order of lanes. A signalling NaN that meets no operation is quieted
and sets NV (R53); a subnormal that meets none stays as it is, the model's choice (log entry 86). -/
def Obligations.ReductionResults : Prop :=
  (∀ (h : Hdr) (d a : BitVec 6) (ty : BitVec 2) (s : State) (t : Thread) (v : Nat → Nat) (key : Nat → Int),
    ty = 0 ∨ ty = 1 → v = (fun l => (t.vreg a.toNat l).toNat) →
    key = (fun l => if ty = 0 then (t.vreg a.toNat l).toInt else ((t.vreg a.toNat l).toNat : Int)) →
    t.sreg (regxY h) = active t h → t.width ≤ 64 →
    ∀ p ∈ ([(.redadd h d a ty, fun _ x => x = ((lanesOf (active t h)).map v).sum % 2 ^ 32),
      (.redmin h d a ty, fun _ x => ∃ k ∈ lanesOf (active t h), x = v k ∧ ∀ j ∈ lanesOf (active t h), key k ≤ key j),
      (.redmax h d a ty, fun _ x => ∃ k ∈ lanesOf (active t h), x = v k ∧ ∀ j ∈ lanesOf (active t h), key j ≤ key k),
      (.scanadd h d a ty, fun l x => x = (((lanesOf (active t h)).filter (· ≤ l)).map v).sum % 2 ^ 32)] :
      List (Instr × (Nat → Nat → Prop))),
    Ready p.1 s t → ∃ t', completes p.1 s t' ∧ FloatFrame h [d.toNat] t t' ∧
      ∀ l, l < 64 → (active t h).getLsbD l = true →
        t'.flags l = t.flags l ∧ p.2 l (t'.vreg d.toNat l).toNat) ∧
  (∀ (h : Hdr) (d a : BitVec 6) (ty : BitVec 2) (s : State) (t : Thread), ty = 2 ∨ ty = 3 →
    t.sreg (regxY h) = active t h → t.dres ≠ 1 →
    ∀ p ∈ ([(.redadd h d a ty, fun x y => fpAdd (destOf t h (ty.toNat + 1) 0 0) x y),
      (.redmin h d a ty, fun x y => fpMinMax (destOf t h (ty.toNat + 1) 0 0) false false x y),
      (.redmax h d a ty, fun x y => fpMinMax (destOf t h (ty.toNat + 1) 0 0) true false x y)] :
      List (Instr × (Val → Val → Nat × Flags))),
    Ready p.1 s t → ∃ t', completes p.1 s t' ∧ FloatFrame h (opRegs (ty == 3) d.toNat) t t' ∧
      ∀ r, (iter (pairUp (fun x y => p.2 (srcOf t (ty.toNat + 1) x) (srcOf t (ty.toNat + 1) y))) 6
          ((List.range t.width).map (fun l => if (active t h).getLsbD l then
            some (t.vval (ty == 3) a.toNat l, (0 : Flags)) else none))).headD none = some r →
        ∀ l, l < 64 → (active t h).getLsbD l = true →
          t'.holds (ty.toNat + 1) d.toNat l (quieted ty.toNat r.1).1 ∧
            t'.flags l = t.flags l ||| (r.2 ||| (quieted ty.toNat r.1).2)) ∧
  (∀ (ty v : Nat), 2 ≤ ty → quieted ty v = if (decodeFp (ty + 1) v).isSig
    then (((firstNan (ty + 1) [decodeFp (ty + 1) v]).getD (v, 0)).1, flNV) else (v, 0)) ∧
  (∀ (h : Hdr) (d a : BitVec 6) (ty : BitVec 2) (s : State) (t : Thread), ty = 2 ∨ ty = 3 →
    t.sreg (regxY h) = active t h → t.dres ≠ 1 → Ready (.scanadd h d a ty) s t →
    ∃ t', completes (.scanadd h d a ty) s t' ∧ FloatFrame h (opRegs (ty == 3) d.toNat) t t' ∧
      ∀ l x fl, (l, x, fl) ∈ scanUp (fun x y => fpAdd (destOf t h (ty.toNat + 1) 0 0)
          (srcOf t (ty.toNat + 1) x) (srcOf t (ty.toNat + 1) y)) (quieted ty.toNat)
          (fun l => t.vval (ty == 3) a.toNat l) none (lanesOf (active t h)) →
        t'.holds (ty.toNat + 1) d.toNat l x ∧ t'.flags l = t.flags l ||| fl)

/-- R246, R253, R254. XLEQ divides the active lanes into classes of equal value: each takes the lowest lane of its class,
the number of its lanes and their mask. CVTMX quantises one block for each 32 lanes, an inactive lane counting as
zero. A membership mask that is not that of the active lanes raises the membership fault, with cause 0x51 where it
names a lane beyond the group and 0x50 otherwise; nothing is written. -/
def Obligations.LaneClassAndMembershipResults : Prop :=
  (∀ (h : Hdr) (d a : BitVec 6) (ty : BitVec 2) (s : State) (t : Thread), Ready (.xleq h d a ty) s t →
    t.sreg (regxY h) = active t h → 4 ≤ t.dres →
    ∃ t', completes (.xleq h d a ty) s t' ∧ FloatFrame h [d.toNat, d.toNat + 1, d.toNat + 2, d.toNat + 3] t t' ∧
      ∀ l, l < 64 → (active t h).getLsbD l = true → ∃ e : Mask,
        (∀ k, k < 64 → e.getLsbD k = ((active t h).getLsbD k &&
          decide (t.vval (ty == 1) a.toNat k = t.vval (ty == 1) a.toNat l))) ∧
        t'.vreg d.toNat l = BitVec.ofNat 32 (lowLane e) ∧ t'.vreg (d.toNat + 1) l = BitVec.ofNat 32 (lanesIn e) ∧
        t'.vpair (d.toNat + 2) l = e ∧ t'.flags l = t.flags l) ∧
  (∀ (h : Hdr) (d a : BitVec 6) (n m : BitVec 4) (s : State) (t : Thread), Ready (.cvtmx h d a n m) s t →
    t.sreg (regxY h) = active t h →
    ∃ t', completes (.cvtmx h d a n m) s t' ∧ FloatFrame h [d.toNat] t t' ∧
      ∀ j i, j < 2 → i < 32 → (active t h).getLsbD (32 * j + i) = true → ∃ r,
        r = mxQuantise n.toNat (fun k => rmOf t (regxRnd h) (32 * j + k) 0) ((List.range 32).map (fun k =>
          if (active t h).getLsbD (32 * j + k) then t.fval m.toNat a.toNat (32 * j + k) else .fin false 0 0)) ∧
        t'.vreg d.toNat (32 * j + i) = BitVec.ofNat 32 ((r.2.getD i (0, 0)).1 + r.1 * 2 ^ 8) ∧
        t'.flags (32 * j + i) = t.flags (32 * j + i) ||| (r.2.getD i (0, 0)).2) ∧
  (∀ (h : Hdr) (d a b : BitVec 6) (ty : BitVec 2) (n m : BitVec 4) (s : State) (t : Thread),
    t.sreg (regxY h) ≠ active t h →
    ∀ i ∈ [Instr.xli h d a b ty, .xlr h d a ty, .xlf h d a ty, .xlb h d a ty, .pcnt h d a b, .pmask h a,
      .pfirst h d a, .redadd h d a ty, .redmin h d a ty, .redmax h d a ty, .scanadd h d a ty, .xleq h d a ty,
      .cvtmx h d a n m],
    Ready i s t → exec i s = .next (s.trapThread t (plainTrap vMembership
      (if t.sreg (regxY h) &&& ~~~(maskBelow t.width) ≠ 0 then 0x51 else 0x50) t.exec) t.pc (nextPc t.pc h)))

/-! ## Control flow -/

/-- R144, R149, R201, R209. NOP, BRA, which is taken when its guard holds in any lane of the path, and BRX, taken
always or on s[b] being non-zero or zero: the group goes on at the next instruction or at the target, and
nothing else changes. A taken BRX whose target is not a multiple of 4 traps with the misalignment cause
0x08 and the target as its address. -/
def Obligations.BranchAndJumpResults : Prop :=
  (∀ (s : State) (t : Thread), Ready .nop s t → completes .nop s (t.wentOn (t.pc + 4))) ∧
  (∀ (h : Hdr) (o : BitVec 15) (k : BitVec 2) (s : State) (t : Thread), Ready (.bra h o k) s t →
    completes (.bra h o k) s (t.wentOn
      (if ∃ l, l < 64 ∧ t.exec.getLsbD l = true ∧ (h.g = 7 ∨ t.pred h.g.toNat l = true) then
        t.pc - BitVec.ofNat 64 (t.pc.toNat % 12) + 12 * o.signExtend 64 + BitVec.ofNat 64 (4 * k.toNat)
       else nextPc t.pc h))) ∧
  (∀ (h : Hdr) (d a : BitVec 7) (b : BitVec 6) (s : State) (t : Thread) (c : W64), c = t.sreg b.toNat →
    Ready (.brx h d a b) s t →
    ((d = 0 ∨ d = 1 ∧ c ≠ 0 ∨ d = 2 ∧ c = 0) → (t.sreg a.toNat).toNat % 4 = 0 →
      completes (.brx h d a b) s (t.wentOn (t.sreg a.toNat))) ∧
    ((d = 1 ∧ c = 0 ∨ d = 2 ∧ c ≠ 0) → completes (.brx h d a b) s (t.wentOn (nextPc t.pc h))) ∧
    ((d = 0 ∨ d = 1 ∧ c ≠ 0 ∨ d = 2 ∧ c = 0) → (t.sreg a.toNat).toNat % 4 ≠ 0 →
      exec (.brx h d a b) s = .next (s.trapThread t
        ⟨vMisalign, 0x08, t.exec, (t.sreg a.toNat).toNat, 0⟩ t.pc (nextPc t.pc h))))

/-- R187, R202, R203. BRD divides the path: lanes in which the guard does not hold go on, the others wait at the
target on the reconvergence stack; a branch that all lanes or none take pushes an empty entry; a full stack
of 32 entries traps with cause 0x32. JOIN with its own address on top takes the waiting lanes in and goes on;
an empty entry is dropped; else it changes over to the waiting lanes and leaves its own; an empty stack
traps with cause 0x39. -/
def Obligations.DivisionAndReconvergence : Prop :=
  (∀ (h : Hdr) (o : BitVec 15) (k : BitVec 2) (s : State) (t : Thread) (yes no : Mask),
    yes = t.guardLanes h.g → no = t.exec &&& ~~~yes → Ready (.brd h o k) s t →
    (t.rstack.length ≠ 32 →
      (yes ≠ 0 → no ≠ 0 → completes (.brd h o k) s { t.wentOn (nextPc t.pc h) with
        exec := no, rstack := (branchTarget t.pc o k, yes) :: t.rstack }) ∧
      (no = 0 → completes (.brd h o k) s { t.wentOn (branchTarget t.pc o k) with
        exec := yes, rstack := (nextPc t.pc h, 0) :: t.rstack }) ∧
      (yes = 0 → no ≠ 0 → completes (.brd h o k) s { t.wentOn (nextPc t.pc h) with
        exec := no, rstack := (branchTarget t.pc o k, 0) :: t.rstack })) ∧
    (t.rstack.length = 32 → exec (.brd h o k) s = .next (s.trapThread t
      (plainTrap vSpill 0x32 t.exec) t.pc (nextPc t.pc h)))) ∧
  (∀ (h : Hdr) (s : State) (t : Thread), Ready (.join h) s t →
    (t.rstack = [] → exec (.join h) s = .next (s.trapThread t
      (plainTrap vFill 0x39 t.exec) t.pc (nextPc t.pc h))) ∧
    (∀ epc m rest, t.rstack = (epc, m) :: rest →
      (epc = mainPc t.pc h → completes (.join h) s { t.wentOn (nextPc t.pc h) with
        exec := t.exec ||| m, rstack := rest }) ∧
      (epc ≠ mainPc t.pc h → m = 0 → completes (.join h) s { t.wentOn (nextPc t.pc h) with rstack := rest }) ∧
      (epc ≠ mainPc t.pc h → m ≠ 0 → completes (.join h) s { t.wentOn epc with
        exec := m, rstack := (mainPc t.pc h, t.exec) :: rest })))

/-- R204, R205. EXIT ends the active lanes: they leave the execution mask, the live mask and every entry of the
reconvergence stack. Where lanes of the path are left they go on at the next instruction; else the first
entry with lanes left does, the entries above it dropped; with no active lane nothing is ended. RET with
WP 0 ends all lanes of the path. Memory stays as it is. -/
def Obligations.ExitEndsLanes : Prop :=
  (∀ (h : Hdr) (s : State) (t : Thread), Ready (.exit h) s t → active t h = 0 →
    completes (.exit h) s (t.wentOn (nextPc t.pc h))) ∧
  (∀ (h : Hdr) (s : State) (t u : Thread) (i : Instr) (m : Mask),
    (i = .exit h ∧ m = active t h ∧ m ≠ 0 ∨ i = .ret h ∧ m = t.exec ∧ t.wp = 0) → Ready i s t →
    u = { t with exec := t.exec &&& ~~~m, live := t.live &&& ~~~m
                 rstack := t.rstack.map (fun e => (e.1, e.2 &&& ~~~m)) } →
    ∃ t', exec i s = .next (s.setThread t').afterExit ∧ sameMemory s (s.setThread t').afterExit ∧
      (u.exec ≠ 0 → t' = u.wentOn (nextPc t.pc h)) ∧
      (u.exec = 0 → ∀ above pc k rest, u.rstack = above ++ (pc, k) :: rest → k ≠ 0 → (∀ e ∈ above, e.2 = 0) →
        t' = { u.wentOn pc with exec := k, rstack := (pc, 0) :: rest }) ∧
      (u.exec = 0 → (∀ e ∈ u.rstack, e.2 = 0) → t'.exec = 0 ∧ t'.rstack = [] ∧ t'.live = u.live))

/-- R210, R211. YIELD makes the whole group as recent as if it had become resident now, and goes on, though not in the
cycle after it (a cycle counts in whole nanoseconds, log entry 93). SLEEP and
SLEEP.UNTIL go on where the wake time has passed or the named token is idle, and else park until then. -/
def Obligations.YieldAndSleepResults : Prop :=
  (∀ (h : Hdr) (s : State) (t : Thread), Ready (.yield h) s t → ∃ s', exec (.yield h) s = .next s' ∧
    s' = { s with threads := s'.threads } ∧
    s'.threads = s.threads.map (fun u =>
      let u := if sameGroup t u then { u with resident := s.time } else u
      if u.id = t.id then { t.wentOn (nextPc t.pc h) with
        resident := s.time, idleTill := s.time + cycleTime (s.die (dieOf t.core)).clockMHz + 1 } else u)) ∧
  (∀ (s : State) (t : Thread), s.time < t.idleTill → s.awake t = false) ∧
  (∀ (h : Hdr) (a : BitVec 7) (s : State) (t : Thread) (wake : Nat), Ready (.sleep h a) s t →
    wake = min (s.time + (t.sreg a.toNat).toNat) (2 ^ 64 - 1) →
    (wake ≤ s.time → completes (.sleep h a) s { t with pc := t.pc + 4, park := .run, relDone := false, only := none }) ∧
    (s.time < wake → completes (.sleep h a) s { t with park := .sleep wake none, after := nextPc t.pc h })) ∧
  (∀ (h : Hdr) (a : BitVec 7) (b : BitVec 6) (s : State) (t : Thread) (k : Option Nat),
    Ready (.sleepUntil h a b) s t → k = (if b = 0 then none else some (b.toNat - 8)) →
    (s.time < (t.sreg a.toNat).toNat → (∀ n, k = some n → t.tok n ≠ .idle) →
      completes (.sleepUntil h a b) s
        { t with park := .sleep (t.sreg a.toNat).toNat k, after := nextPc t.pc h }) ∧
    (((t.sreg a.toNat).toNat ≤ s.time ∧ (k = none ∨ ∃ n, k = some n ∧ t.tok n = .idle)) ∨
        (∃ n, k = some n ∧ t.tok n = .idle) →
      completes (.sleepUntil h a b) s
        { t with pc := t.pc + 4, park := .run, relDone := false, only := none }))

/-- R176 to R178, R180, R207, R208, R357. CALL (when its guard holds in a lane) and CALLX, where the stack limit allows
the new window and no position moves between store and spill area: WP slides by n, the link of the return address
stands in the last two positions before the new window, the positions that enter the window are zero, every other
resident position stays, and the group goes on at the target. Where a CALL or CALLX would pass the stack limit it
traps with the spill class and cause 0x31; with a guard that holds nowhere a CALL goes on. CALLX to an address that is
no multiple of 4 traps with the misalignment class. -/
def Obligations.CallResults : Prop :=
  (∀ (s : State) (t : Thread) (h : Hdr) (i : Instr) (n : Nat) (target : W64),
    (∃ x o k, i = .call h x o k ∧ n = 8 * x.toNat ∧ target = branchTarget t.pc o k ∧ t.guardLanes h.g ≠ 0) ∨
      (∃ a b, i = .callx h a b ∧ n = b.toNat ∧ target = t.sreg a.toNat ∧ target.toNat % 4 = 0) →
    Ready i s t → t.wp + n + 64 ≤ t.lim → s.mode (dieOf t.core) 1 = false →
    t.rbase = t.rbaseFor (t.wp + n) → t.width ≤ 64 → t.wp + n + 64 ≤ t.rbase + t.dres →
    ∃ t', completes i s t' ∧ t' = { t.wentOn target with
        store := t'.store, storePoison := t'.storePoison, wp := t.wp + n, after := nextPc t.pc h } ∧
      ∀ q l, t.rbase ≤ q → q < t.wp + n + 64 → l < t.width →
        Sparse.get t'.store 0 (t.storeKey q l) =
          if q = t.wp + n - 2 then (linkOf n (nextPc t.pc h)).extractLsb' 0 32
          else if q = t.wp + n - 1 then (linkOf n (nextPc t.pc h)).extractLsb' 32 32
          else if t.wp + 64 ≤ q then 0 else Sparse.get t.store 0 (t.storeKey q l)) ∧
  (∀ (s : State) (t : Thread) (h : Hdr) (i : Instr) (n : Nat),
    (∃ x o k, i = .call h x o k ∧ n = 8 * x.toNat ∧ t.guardLanes h.g ≠ 0) ∨
      (∃ a b, i = .callx h a b ∧ n = b.toNat) →
    Ready i s t → t.lim < t.wp + n + 64 →
    exec i s = .next (s.trapThread t (plainTrap vSpill 0x31 t.exec) t.pc (nextPc t.pc h))) ∧
  (∀ (s : State) (t : Thread) (h : Hdr) (x : BitVec 3) (o : BitVec 15) (k : BitVec 2),
    Ready (.call h x o k) s t → t.guardLanes h.g = 0 →
    completes (.call h x o k) s (t.wentOn (nextPc t.pc h))) ∧
  (∀ (s : State) (t : Thread) (h : Hdr) (a : BitVec 7) (b : BitVec 6), Ready (.callx h a b) s t →
    t.wp + b.toNat + 64 ≤ t.lim → s.mode (dieOf t.core) 1 = false → (t.sreg a.toNat).toNat % 4 ≠ 0 →
    exec (.callx h a b) s = .next (s.trapThread t ⟨vMisalign, 0x08, t.exec, (t.sreg a.toNat).toNat, 0⟩ t.pc
      (nextPc t.pc h)))

/-- R178, R205, R208. RET takes the link from the two positions before the window, in the store or the spill
area, and where no position moves goes on at the address it holds with the window slid back; where positions
move, CALL and RET park for the spill engine, and SPILL_FILL_DONE then moves them: those that leave the
resident range are stored in the spill area in ascending order, those that enter it are read back. -/
def Obligations.ReturnAndSpillEngine : Prop :=
  (∀ (s : State) (t : Thread) (h : Hdr) (link : W64) (nw : Nat), Ready (.ret h) s t → t.wp ≠ 0 →
    link = s.position t (t.wp - 1) 0 ++ s.position t (t.wp - 2) 0 → nw = t.wp - 8 * bits link.toNat 61 3 →
    s.mode (dieOf t.core) 1 = false →
    ((t.moved nw) = ([], []) → completes (.ret h) s
      { t.wentOn (linkPc link) with wp := nw, rbase := t.rbaseFor nw, after := nextPc t.pc h }) ∧
    ((t.moved nw) ≠ ([], []) → s.slotsBusy t ((t.moved nw).1 ++ (t.moved nw).2) = false →
      completes (.ret h) s { t with park := .spill nw (linkPc link) 0, after := nextPc t.pc h })) ∧
  (∀ (s : State) (t : Thread) (wp : Nat) (pc : W64) (opened : Nat), s.thread? s.arg.a = some t → t.id = s.arg.a →
    t.park = .spill wp pc opened → s.mode (dieOf t.core) 1 = false → s.fillPoison t (t.moved wp).2 = none →
    ∃ t' s₁, exec .spillFillDone s = .next (s₁.setThread t') ∧ s₁ = (t.moved wp).1.foldl (fun s q => s.spillOne t q) s ∧
      t' = { t.wentOn pc with store := t'.store, storePoison := t'.storePoison, wp := wp, rbase := t.rbaseFor wp } ∧
      (opened = 0 → t.width ≤ 64 → (t.moved wp).2.length ≤ t.dres →
        ∀ q l, q ∈ (t.moved wp).2 → l < t.width →
          Sparse.get t'.store 0 (t.storeKey q l) =
            BitVec.ofNat 32 (s₁.loadNat (t.spillAddr q l) (slotOfCtx t.ctx) 4)))

/-- R8, R55, R62, R187, R188, R195, R214, R215. What GETSR reads in a group, register by register: device time, the
LCTs, MATHCTL, the MEMDEF latch, WP with RBASE, WLIMIT, the SR counter, the execution and live masks, first lane,
width and reconvergence depth, the code base, the next program counter, the context, the outstanding-operation
counters and the mode bit; a register of the proctor lane raises the privilege trap. -/
def Obligations.GetsrReadsSpecialRegisters : Prop :=
  ∀ (h : Hdr) (d : BitVec 7) (b : BitVec 6) (s : State) (t : Thread), Ready (.getsr h d b) s t →
    (∀ p ∈ ([(0x00, s.time), (0x01, t.lct.clus), (0x02, t.lct.die), (0x03, t.lct.dev), (0x04, t.lct.sys),
      (0x05, t.mathctl.toNat), (0x06, t.memdef.toNat), (0x07, t.wp % 2 ^ 32 + t.rbase * 2 ^ 32),
      (0x08, if t.sup then t.spillbase else 0), (0x09, t.wlimit), (0x0A, t.srcnt.toNat), (0x0B, t.exec.toNat),
      (0x0C, t.live.toNat), (0x0D, t.f + t.width * 2 ^ 8 + t.rstack.length * 2 ^ 16), (0x0E, t.codebase.toNat),
      (0x0F, (nextPc t.pc h).toNat), (0x10, t.ctx.toNat),
      (0x11, min 63 (s.countOuts t.id 0) + min 63 (s.countOuts t.id 1) * 2 ^ 8 + min 63 (s.countMx t.id) * 2 ^ 16
        + min 63 (s.countOuts t.id 2) * 2 ^ 24),
      (0x13, if t.sup then 1 else 0)] : List (Nat × Nat)), b.toNat = p.1 →
      completes (.getsr h d b) s
        ((t.setSreg d.toNat (BitVec.ofNat 64 p.2)).wentOn (nextPc t.pc h))) ∧
    (0x20 ≤ b.toNat → exec (.getsr h d b) s = .next (s.trapThread t (plainTrap vPrivilege 0x0C t.exec) t.pc
      (nextPc t.pc h)))

/-- R55, R195, R198, R214, R215. SETSR in a group: MATHCTL keeps its reserved bits 0, and its RM where the value is
reserved; WLIMIT takes a power of two up to the kernel's width, and ignores another value; a register of the
proctor lane raises the privilege trap. On a proctor lane: writing 1 clears edge bits of PIPEND, PIEN bit 5 reads
1, PTICK takes 100 to 1,000,000 and starts anew, PTMISS takes 0, IE the low bit. -/
def Obligations.SetsrWritesSpecialRegisters : Prop :=
  (∀ (h : Hdr) (a : BitVec 7) (b : BitVec 6) (s : State) (t : Thread) (v : W64), v = t.sreg a.toNat →
    Ready (.setsr h a b) s t →
    (b = 0x05 → ∃ m : W32, completes (.setsr h a b) s { t.wentOn (nextPc t.pc h) with mathctl := m } ∧
      m.extractLsb' 8 24 = 0 ∧ m.getLsbD 3 = false ∧ m.extractLsb' 4 4 = v.extractLsb' 4 4 ∧
      m.extractLsb' 0 3 = (if (v.extractLsb' 0 3).toNat < 4 then v.extractLsb' 0 3 else t.mathctl.extractLsb' 0 3)) ∧
    (b = 0x09 → completes (.setsr h a b) s { t.wentOn (nextPc t.pc h) with
      wlimit := if (∃ k, k < 7 ∧ v.toNat = 2 ^ k) ∧ v.toNat ≤ t.maxWidth then v.toNat else t.wlimit }) ∧
    (0x20 ≤ b.toNat → exec (.setsr h a b) s = .next (s.trapThread t (plainTrap vPrivilege 0x0C t.exec) t.pc
      (nextPc t.pc h)))) ∧
  (∀ (h : Hdr) (a : BitVec 7) (b : BitVec 6) (s : State) (c : Nat) (q : Proctor) (v : W64),
    q = (s.core c).proctor → v = Sparse.get q.sregs 0 a.toNat → ReadyProctor (.setsr h a b) s c →
    ∀ p ∈ ([(0x20, { q with pipend := q.pipend &&& ~~~(v.setWidth 6 &&& 0x3D) }),
      (0x21, { q with pien := v.setWidth 6 ||| 0x20 }),
      (0x22, if 100 ≤ v.toNat % 2 ^ 32 ∧ v.toNat % 2 ^ 32 ≤ 1000000 then
        { q with ptick := v.toNat % 2 ^ 32, tickT0 := s.time } else q),
      (0x23, if v = 0 then { q with ptmiss := 0 } else q), (0x24, { q with ie := v.getLsbD 0 })] :
      List (Nat × Proctor)), b.toNat = p.1 →
      exec (.setsr h a b) s = .next (s.setProctor c (p.2.wentOn (nextPc q.pc h))))

/-- R190 to R192, R193, R194, R352. SPLIT: with no locked register and no child of the group at a barrier it writes status 1 where the
group is narrower than k, status 2 where its reconvergence stack is not empty, and else divides it into k children, in
order of lanes, each with its lanes of masks and registers, a copy of the rest, its status word, and the next program
counter; the children take the parent's place among the threads, and the first issues on. FUSE writes the code of its
check where it is 1, 2, 4 or 5 and goes on unjoined; codes 3 and 6 go to every sibling that waits at this FUSE as
well. FUSE.WAIT with code 1 or 4 parks until min(now + s[a], 2^64 − 1); FUSE_WAIT_DEADLINE releases it above that time
with the code of a fresh check. A FUSE or FUSE.WAIT whose check gives 0 joins the siblings into one thread of the
parent's first lane and width, which issues on at the next instruction with 0 in s[d]: uniform registers and MATHCTL
are those of the lowest child, the SR counter and the LCTs the greatest. -/
def Obligations.SplitAndFuseResults : Prop :=
  (∀ (h : Hdr) (d : BitVec 7) (k : BitVec 6) (s : State) (t : Thread), Ready (.split h d k) s t →
    s.anyLock t = false → s.groupAtTbar t = false →
    (t.width < k.toNat → completes (.split h d k) s ((t.setSreg d.toNat (0x01 <<< 56)).wentOn (nextPc t.pc h))) ∧
    (k.toNat ≤ t.width → t.rstack ≠ [] →
      completes (.split h d k) s ((t.setSreg d.toNat (0x02 <<< 56)).wentOn (nextPc t.pc h))) ∧
    (k.toNat ≤ t.width → t.rstack = [] → (∀ u ∈ s.threads, u.id < s.nextId) →
      ∃ s' w, exec (.split h d k) s = .next s' ∧ w = t.width / k.toNat ∧ s'.cur = .thread s.nextId ∧
        s'.nextId = s.nextId + k.toNat ∧ sameMemory s s' ∧ s'.thread? t.id = none ∧
        ∀ c, c < k.toNat → ∃ u, s'.thread? (s.nextId + c) = some u ∧ u.f = t.f + c * w ∧ u.width = w ∧
          u.pc = nextPc t.pc h ∧ u.rstack = [] ∧ u.mathctl = t.mathctl ∧ u.srcnt = t.srcnt ∧ u.lct = t.lct ∧
          u.toks = t.toks ∧ u.wp = t.wp ∧ u.rbase = t.rbase ∧ u.wlimit = t.wlimit ∧ u.sup = t.sup ∧
          (∀ r, u.sreg r = if r = d.toNat then BitVec.ofNat 64 (c + w * 2 ^ 8 + (t.f + c * w) * 2 ^ 16) else t.sreg r) ∧
          (∀ l, l < w → w ≤ 64 → u.exec.getLsbD l = t.exec.getLsbD (c * w + l) ∧
            u.live.getLsbD l = t.live.getLsbD (c * w + l) ∧
            (∀ r, (t.f + c * w + l) < 64 → t.dres ≠ 0 → u.vreg r l = t.vreg r (c * w + l)) ∧
            (∀ p, p < 7 → u.pred p l = t.pred p (c * w + l)) ∧ u.flags l = t.flags (c * w + l)))) ∧
  (∀ (h : Hdr) (d : BitVec 7) (s : State) (t : Thread), Ready (.fuse h d) s t → s.groupAtTbar t = false →
    s.fuseCheck t ∈ [1, 2, 4, 5] →
    completes (.fuse h d) s { t.setSreg d.toNat (BitVec.ofNat 64 (s.fuseCheck t)) with pc := t.pc + 4, park := .run }) ∧
  (∀ (h : Hdr) (d a : BitVec 7) (s : State) (t : Thread), Ready (.fuseWait h d a) s t →
    s.groupAtTbar t = false →
    (s.fuseCheck t ∈ [2, 5] → completes (.fuseWait h d a) s
      { t.setSreg d.toNat (BitVec.ofNat 64 (s.fuseCheck t)) with pc := t.pc + 4, park := .run }) ∧
    (s.fuseCheck t ∈ [1, 4] → completes (.fuseWait h d a) s
      { t with park := .fuse d.toNat (min (s.time + (t.sreg a.toNat).toNat) (2 ^ 64 - 1)), after := t.pc + 4 })) ∧
  (∀ (s : State) (t : Thread) (d dl : Nat), s.thread? s.arg.a = some t → t.park = .fuse d dl →
    (dl < s.time → s.locked t d = false → completes .fuseWaitDeadline s
      { t.setSreg d (BitVec.ofNat 64 (s.fuseCheck t)) with pc := t.pc + 4, park := .run }) ∧
    (s.time ≤ dl → exec .fuseWaitDeadline s = .next s)) ∧
  (∀ (h : Hdr) (d a : BitVec 7) (s : State) (t low : Thread) (i : Instr), i = .fuse h d ∨ i = .fuseWait h d a →
    Ready i s t → s.groupAtTbar t = false → s.fuseCheck t = 0 → (s.siblings t).head? = some low →
    s.locked low d.toNat = false → (∀ u ∈ s.threads, u.id < s.nextId) →
    ∃ s' j, exec i s = .next s' ∧ s'.thread? s.nextId = some j ∧ s'.cur = .thread s.nextId ∧ sameMemory s s' ∧
      (∀ pf pw k rest, t.splits = (pf, pw, k) :: rest → j.f = pf ∧ j.width = pw ∧ j.splits = rest) ∧
      j.pc = t.pc + 4 ∧ j.park = .run ∧ j.mathctl = low.mathctl ∧ j.wp = low.wp ∧
      (∀ r, j.sreg r = if r = d.toNat then 0 else low.sreg r) ∧
      (∀ u ∈ s.siblings t, u.srcnt.toNat ≤ j.srcnt.toNat ∧ u.lct.clus ≤ j.lct.clus ∧ u.lct.die ≤ j.lct.die ∧
        u.lct.dev ≤ j.lct.dev ∧ u.lct.sys ≤ j.lct.sys ∧ s'.thread? u.id = none))

/-! ## Traps -/

/-- R138, R197, R356, R358. An instruction that a check rejects raises the illegal-instruction trap with that check's
cause, and nothing else of it happens; a privileged one in user mode raises the privilege trap with cause 0x0C.
A poisoned source word raises the soft-error trap with cause 0x90 and the lanes that would read it. On a proctor lane
an OP that it does not execute, or LMOD, raises cause 0x01, whatever else is wrong with the instruction. -/
def Obligations.IllegalAndPrivilegedInstructionsTrap : Prop :=
  (∀ (i : Instr) (s : State) (t : Thread) (c : Cause), s.cur = .thread t.id → s.thread? t.id = some t →
    t.lateNow = false → mainWord i ≠ none → checkInstr i = some c →
    exec i s = .next (s.trapThread t (plainTrap vIllegal c.code t.exec) t.pc (nextPc t.pc (hdrOf i)))) ∧
  (∀ (i : Instr) (s : State) (t : Thread), s.cur = .thread t.id → s.thread? t.id = some t →
    t.lateNow = false → wellFormed i = true → privileged (opcode i) = true → t.sup = false →
    exec i s = .next (s.trapThread t (plainTrap vPrivilege 0x0C t.exec) t.pc (nextPc t.pc (hdrOf i)))) ∧
  (∀ (i : Instr) (s : State) (t : Thread), s.cur = .thread t.id → s.thread? t.id = some t →
    t.lateNow = false → wellFormed i = true → (privileged (opcode i) = true → t.sup = true) →
    (uses i).sw.any (s.locked t) = false → s.scoreboard t (uses i) = false → s.counterFull t.id (opcode i) = false →
    poisonedLanes t (readLanes i t) (uses i) ≠ 0 →
    exec i s = .next (s.trapThread t ⟨vSoftError, 0x90, poisonedLanes t (readLanes i t) (uses i), 0, 0⟩ t.pc
      (nextPc t.pc (hdrOf i)))) ∧
  (∀ (i : Instr) (s : State) (c : Nat) (k : Cause), s.cur = .proctor c → mainWord i ≠ none →
    proctorAccepts (opcode i) = true → (hdrOf i).lmod = none → checkInstr i = some k →
    exec i s = .next (s.trapProctor c vIllegal k.code 0 (s.core c).proctor.pc false)) ∧
  (∀ (i : Instr) (s : State) (c : Nat), s.cur = .proctor c → mainWord i ≠ none →
    proctorAccepts (opcode i) = false ∨ (hdrOf i).lmod ≠ none →
    exec i s = .next (s.trapProctor c vIllegal 0x01 0 (s.core c).proctor.pc false))

/-- R358 to R362. Taking a trap in a group: where the hand-in queue of its core has a free place, one record is
posted at TAIL, with the kind, tag, lane and payload of the trap, the group parks with the saved program counter,
and PIPEND of the core's proctor lane reads bit 1; a full queue leaves the group to issue again. -/
def Obligations.TrapPostsARecordAndParks : Prop :=
  (∀ (s : State) (t : Thread) (i : TrapInfo) (pc after : W64), 0 < (s.core t.core).hq.free →
    t.core < s.cores.length → (s.core t.core).hq.tail < 4096 →
    ∃ (s' : State) (r : HqRec), s.trapThread t i pc after = s'.setThread { t with pc := pc, park := .records, after := after } ∧
      s'.threads = s.threads ∧ (s'.core t.core).hq.recs = (s.core t.core).hq.recs ++ [r] ∧
      (s'.core t.core).hq.tail = ((s.core t.core).hq.tail + 1) % 4096 ∧ (s'.core t.core).hq.posted = true ∧
      r.place = (s.core t.core).hq.tail ∧ r.kind = 0x01 ∧ r.state = 1 ∧ r.poster = some t.id ∧
      r.mask = i.lanes ∧ r.lane = t.f + lowLane i.lanes ∧ r.bytes.length = 64 ∧ r.bytes.drop 8 = trapPayload i pc ++
        List.replicate (56 - (trapPayload i pc).length) 0 ∧
      (s'.core t.core).pipend.getLsbD 1 = true) ∧
  (∀ (s : State) (t : Thread) (i : TrapInfo) (pc after : W64), (s.core t.core).hq.free = 0 →
    s.trapThread t i pc after = s.setThread { t with park := .poll })

/-- R376, R377. Taking a trap or interrupt on a proctor lane: EVEC, ECAUSE, EADDR and EPC are written, IE cleared,
and the lane goes on at PVBASE + 192 × vector. A trap with IE clear stops the lane, with RUN 0 and DBL 1, and raises
the inter-core signal on core d.0.0, or for that core on the next die's. TRET goes on at EPC and sets IE; an EPC that
is no multiple of 4 traps. In a supervisor group TRET raises the illegal-instruction trap with cause 0x06, in a user
group the privilege trap. -/
def Obligations.ProctorTrapEntryAndReturn : Prop :=
  (∀ (s : State) (c v k a : Nat) (epc : W64) (int : Bool), int = true ∨ (s.core c).proctor.ie = true →
    s.trapProctor c v k a epc int = s.setProctor c { (s.core c).proctor with
      evec := BitVec.ofNat 16 v, ecause := BitVec.ofNat 16 k, eaddr := BitVec.ofNat 64 a, epc := epc, ie := false
      pc := (s.core c).proctor.pvbase + BitVec.ofNat 64 (192 * v), park := .run, relDone := false, wake := none }) ∧
  (∀ (s : State) (c v k a : Nat) (epc : W64) (other : Nat), (s.core c).proctor.ie = false →
    other = (if c % 12 = 0 then 12 * ((c / 12 + 1) % 4) else 12 * (c / 12)) → c < 48 → s.cores.length = 48 →
    ∃ (s' : State), s.trapProctor c v k a epc false = s' ∧
      (s'.core c).proctor = { (s.core c).proctor with run := false, dbl := true, park := .run } ∧
      (s'.core other).proctor.pipend.getLsbD 4 = true ∧
      ∀ j, j ≠ c → j ≠ other → s'.core j = s.core j) ∧
  (∀ (h : Hdr) (s : State) (c : Nat) (q : Proctor), q = (s.core c).proctor → ReadyProctor (.tret h) s c →
    (q.epc.toNat % 4 = 0 → exec (.tret h) s = .next (s.setProctor c
      { q with pc := q.epc, ie := true, park := .run })) ∧
    (q.epc.toNat % 4 ≠ 0 → exec (.tret h) s = .next (s.trapProctor c vMisalign 0x08 q.epc.toNat q.pc false))) ∧
  (∀ (h : Hdr) (s : State) (t : Thread), Ready (.tret h) s t →
    exec (.tret h) s = .next (s.trapThread t (plainTrap vIllegal 0x06 t.exec) t.pc (nextPc t.pc h))) ∧
  (∀ (h : Hdr) (s : State) (t : Thread), s.cur = .thread t.id → s.thread? t.id = some t → t.lateNow = false →
    wellFormed (.tret h) = true → t.sup = false →
    exec (.tret h) s = .next (s.trapThread t (plainTrap vPrivilege 0x0C t.exec) t.pc (nextPc t.pc h))) ∧
  encode (.tret ⟨false, 7, none, none, .none⟩) = [0x70E00000]

/-- R212, R368. BRK posts its breakpoint record with the code, the saved program counter that of the next
instruction. SYSC, once its release at .sys scope is done, posts one record for each active lane in ascending
order, and parks; with no active lane it posts nothing and goes on. -/
def Obligations.BreakpointAndSystemCall : Prop :=
  (∀ (h : Hdr) (b : BitVec 6) (s : State) (t : Thread), Ready (.brk h b) s t → 0 < (s.core t.core).hq.free →
    exec (.brk h b) s = .next (s.trapThread t (plainTrap vBreakpoint b.toNat t.exec) (nextPc t.pc h) (nextPc t.pc h))) ∧
  (∀ (h : Hdr) (b : BitVec 6) (s : State) (c : Nat), ReadyProctor (.brk h b) s c →
    exec (.brk h b) s = .next (s.trapProctor c vBreakpoint b.toNat 0
      (nextPc (s.core c).proctor.pc h) false)) ∧
  (∀ (h : Hdr) (s : State) (t : Thread), Ready (.sysc h) s t → active t h = 0 →
    completes (.sysc h) s (t.wentOn (nextPc t.pc h))) ∧
  (∀ (h : Hdr) (s : State) (t : Thread), Ready (.sysc h) s t → active t h ≠ 0 → t.relDone = true →
    lanesIn (active t h) ≤ (s.core t.core).hq.free →
    exec (.sysc h) s = .next (((lanesOf (active t h)).foldl (fun s l => s.post1 t.core
      (threadPost t 0x03 (t.f + l) (laneBit l) (syscPayload t l))) s).setThread
        { t with park := .records, after := nextPc t.pc h, relDone := false }))

/-! ## Memory -/

/-- R150 to R152, R188, R293, R294 to R296, R300, R301, R302, R303, R334, R335, R346, R347. LD and LDU of lanes that reach
memory: one outstanding load counted in ld, which keeps each lane's place, size and destination words bound at issue,
and the group goes on at once; with an acquire it parks until its loads and atomics have taken their values. ST and
STU of lanes that reach memory: one outstanding store counted in st, and writes on their way to their homes which hold
every byte of every lane, of the highest lane where lanes overlap; nothing in memory has changed yet, and the group
goes on. ATOM and CAS of lanes that reach memory leave one outstanding atomic with each lane's place, operands and
destination words, and the group goes on, with an acquire as a load does. RED issues once earlier loads and atomics
have taken their values: a lane of a deterministic reduction, or of memory that is not cached, is a write of its own;
one of normal memory, to whose line no write is under way, enters its core's reduction buffer. A store's writes wait
for the loads and atomics before them before their cluster sees them (R339). -/
def Obligations.MemoryAccessesIssue : Prop :=
  (∀ (h : Hdr) (d b x : BitVec 6) (z : BitVec 2) (s : State) (t : Thread) (ls : List OkLane) (size : Nat) (m : Mods),
    Ready (.ld h d b x z) s t → size = sizeOf' h z.toNat → m = s.mods h →
    Reaches s m accRead size (t.requests h b.toNat x.toNat size) ls →
    exec (.ld h d b x z) s = .next (({ s with
      nextId := s.nextId + 1
      outs := s.outs ++ [{ id := s.nextId, owners := [t.id], cls := 0, kind := .load (sxOf h) none, issuer := t.id
                           ctx := if m.space = 2 then none else some t.ctx, core := t.core
                           scope := m.scope, cache := m.cache, issued := s.time
                           lanes := ls.map (fun l => ⟨l.lane, .mem l.pa l.key l.mt, size,
                             (List.range (wordsOf size)).map (fun k => t.vkey (d.toNat + k) l.lane), 0, 0, l.va⟩)
                           report := Lct.zero, late := [], olds := none }] } : State).setThread (t.wentOnAcq (nextPc t.pc h) (m.ord == 1)))) ∧
  (∀ (h : Hdr) (d b : BitVec 6) (z : BitVec 2) (s : State) (ls : List OkLane) (size : Nat) (m : Mods) (s₁ : State),
    CanRun (.ldu h d b z) s → size = sizeOf' h z.toNat → m = s.mods h →
    Reaches s m accRead size [(0, s.uniAddr h b.toNat)] ls →
    s₁ = { s with
      nextId := s.nextId + 1
      outs := s.outs ++ [{ id := s.nextId, owners := [s.self], cls := 0, kind := .load (sxOf h) (some d.toNat)
                           issuer := s.self, ctx := if m.space = 2 then none else some s.ctxHere
                           core := s.here, scope := m.scope, cache := m.cache, issued := s.time
                           lanes := ls.map (fun l => ⟨0, .mem l.pa l.key l.mt, size, [], 0, 0, l.va⟩)
                           report := Lct.zero, late := [], olds := none }] } →
    (m.ord ≠ 1 → exec (.ldu h d b z) s = .next (s₁.advance h)) ∧
    (m.ord = 1 → exec (.ldu h d b z) s = .next ((s₁.advance h).acquireOn))) ∧
  (∀ (h : Hdr) (d b x : BitVec 6) (z : BitVec 2) (s : State) (t : Thread) (ls : List OkLane) (size : Nat) (m : Mods),
    Ready (.st h d b x z) s t → size = sizeOf' h z.toNat → m = s.mods h → m.ord ≠ 2 ∨ t.relDone = true →
    Reaches s m accWrite size (t.requests h b.toNat x.toNat size) ls →
    ∃ (s' : State) (ws : List Write), exec (.st h d b x z) s = .next s' ∧ s'.flight = s.flight ++ ws ∧
      sameMemory s s' ∧ s'.threads = (s.setThread (t.wentOn (nextPc t.pc h))).threads ∧ s'.cores = s.cores ∧
      s'.redBuf = s.redBuf ∧
      s'.outs = s.outs ++ [{ id := s.nextId, owners := [t.id], cls := 1, kind := .store, issuer := t.id
                             ctx := if m.space = 2 then none else some t.ctx, core := t.core
                             scope := m.scope, cache := m.cache, issued := s.time
                             lanes := ls.map (fun l => ⟨l.lane, .mem l.pa l.key l.mt, size, [],
                               t.words d.toNat (wordsOf size) l.lane, 0, l.va⟩)
                             report := Lct.zero, late := [], olds := none }] ∧
      (∀ w ∈ ws, w.out = s.nextId ∧ w.hists = [t.id] ∧ w.core = t.core ∧ w.scope = m.scope ∧
        (w.queued = true ↔ w.mt = 0 ∧ s.readsOpen = true)) ∧
      (∀ l ∈ ls, ∀ i, i < size → (∀ l' ∈ ls, l.lane < l'.lane → l'.pa + size ≤ l.pa + i ∨ l.pa + i < l'.pa) →
        ∃ w ∈ ws, ∃ bs, w.line = lineOf l.pa ∧ w.key = l.key ∧ w.mt = l.mt ∧ w.act = .bytes bs ∧
          lookup bs (l.pa + i - lineOf l.pa) =
            some ((leBytes size (t.words d.toNat (wordsOf size) l.lane)).getD i 0))) ∧
  (∀ (h : Hdr) (d b : BitVec 6) (z : BitVec 2) (s : State) (l : OkLane) (size v : Nat) (m : Mods),
    CanRun (.stu h d b z) s → size = sizeOf' h z.toNat → m = s.mods h → m.ord ≠ 2 ∨ s.relDoneHere = true →
    Reaches s m accWrite size [(0, s.uniAddr h b.toNat)] [l] →
    v = (s.sreg d.toNat).toNat + (if size = 16 then (s.sreg (d.toNat + 1)).toNat * 2 ^ 64 else 0) →
    ∃ (s' : State) (w : Write), exec (.stu h d b z) s = .next s' ∧ s'.flight = s.flight ++ [w] ∧ sameMemory s s' ∧
      s'.threads = (s.advance h).threads ∧ s'.cores = (s.advance h).cores ∧ s'.redBuf = s.redBuf ∧
      s'.outs = s.outs ++ [{ id := s.nextId, owners := [s.self], cls := 1, kind := .store, issuer := s.self
                             ctx := if m.space = 2 then none else some s.ctxHere, core := s.here
                             scope := m.scope, cache := m.cache, issued := s.time
                             lanes := [⟨0, .mem l.pa l.key l.mt, size, [], v, 0, l.va⟩], report := Lct.zero
                             late := [], olds := none }] ∧
      w.out = s.nextId ∧ w.hists = [s.self] ∧ w.core = s.here ∧ w.scope = m.scope ∧ w.line = lineOf l.pa ∧
      w.key = l.key ∧ w.mt = l.mt ∧
      w.act = .bytes ((leBytes size v).mapIdx (fun i y => (l.pa + i - lineOf l.pa, y)))) ∧
  (∀ (h : Hdr) (d b x : BitVec 6) (z : BitVec 2) (c : BitVec 1) (s : State) (t : Thread) (ls : List OkLane)
    (i : Instr) (size n : Nat) (m : Mods) (kind : OutKind) (keys : Nat → List Nat) (d1 d2 : Nat → Nat),
    ((i = .atom h d b x z ∧ size = 2 ^ z.toNat ∧ n = wordsOf size ∧ (t.sreg (regxY h)).toNat ≤ 9 ∧
        kind = .atom (t.sreg (regxY h)).toNat ∧ keys = t.keysOf (regxX h) n ∧ d1 = t.words d.toNat n ∧
        d2 = fun _ => 0) ∨
      (i = .cas h d b x c ∧ size = sizeOf' h (2 + c.toNat) ∧ n = wordsOf size ∧ kind = .cas ∧
        keys = t.keysOf d.toNat n ∧ d1 = t.words d.toNat n ∧ d2 = t.words (d.toNat + n) n)) →
    Ready i s t → m = s.mods h → m.ord < 2 ∨ t.relDone = true →
    Reaches s m accAtomic size (t.requests h b.toNat x.toNat size) ls →
    ∃ (s' : State), exec i s = .next s' ∧ sameMemory s s' ∧ s'.cores = s.cores ∧ s'.flight = s.flight ∧
      s'.redBuf = s.redBuf ∧
      s'.threads = (s.setThread (t.wentOnAcq (nextPc t.pc h) (m.ord % 2 == 1))).threads ∧
      s'.outs = s.outs ++ [{ id := s.nextId, owners := [t.id], cls := 2, kind := kind, issuer := t.id
                             ctx := if m.space = 2 then none else some t.ctx, core := t.core
                             scope := m.scope, cache := m.cache, issued := s.time
                             lanes := ls.map (fun l =>
                               ⟨l.lane, .mem l.pa l.key l.mt, size, keys l.lane, d1 l.lane, d2 l.lane, l.va⟩)
                             report := Lct.zero, late := [], olds := none }]) ∧
  (∀ (h : Hdr) (d b x : BitVec 6) (z : BitVec 2) (s : State) (t : Thread) (ls : List OkLane) (size op : Nat)
    (m : Mods), Ready (.red h d b x z) s t → size = 2 ^ z.toNat → m = s.mods h → op = (t.sreg (regxY h)).toNat →
    1 ≤ op → op ≤ 9 → m.ord ≠ 2 ∨ t.relDone = true → s.readsOpen = false → (∀ r ∈ s.redBuf, r.core ≠ t.core) →
    Reaches s m accAtomic size (t.requests h b.toNat x.toNat size) ls →
    ((∀ l ∈ ls, m.det = true ∨ l.mt ≠ 0) →
      ∃ (s' : State) (ws : List Write), exec (.red h d b x z) s = .next s' ∧ s'.flight = s.flight ++ ws ∧
        sameMemory s s' ∧ s'.threads = (s.setThread (t.wentOn (nextPc t.pc h))).threads ∧ s'.cores = s.cores ∧
        s'.redBuf = s.redBuf ∧ (∀ w ∈ ws, w.out = s.nextId ∧ w.hists = [t.id] ∧ w.scope = m.scope) ∧
        ws.map (fun w => (w.line, w.key, w.act)) = ls.map (fun l => (lineOf l.pa, l.key,
          WAct.red op (l.pa - lineOf l.pa) size (t.words d.toNat (wordsOf size) l.lane)))) ∧
    (∀ l, ls = [l] → m.det = false → l.mt = 0 → homedHere l.pa = true →
      (∀ w ∈ s.flight, w.line ≠ lineOf l.pa) →
      ∃ (s' : State), exec (.red h d b x z) s = .next s' ∧ s'.flight = s.flight ∧ sameMemory s s' ∧
        s'.threads = (s.setThread (t.wentOn (nextPc t.pc h))).threads ∧ s'.cores = s.cores ∧
        s'.redBuf = s.redBuf ++ [{ core := t.core, line := lineOf l.pa, key := l.key, scope := m.scope
                                   slots := [(l.pa - lineOf l.pa, op, size,
                                     t.words d.toNat (wordsOf size) l.lane)]
                                   threads := [t.id], outs := [s.nextId] }]))

/-- R116, R124, R274, R293, R300, R301, R339, R366. LD and ST in a galley act at once, ST once the loads and atomics
before it have taken their values: LD takes the bytes of the window, extended, into the lanes' registers; ST leaves the
lanes' bytes there, of the highest lane where lanes overlap, and every LCT of the group covers them. A window byte that an engine holds makes the access wait. What stops an access: a
misaligned lane traps with cause 0x08, the lanes misaligned and the address of the lowest, before anything else; a
lane whose page denies it traps with the protection vector and its cause; a lane outside a window with cause 0x0A.
Nothing is performed for any lane. -/
def Obligations.GalleyAndAccessTrapResults : Prop :=
  (∀ (h : Hdr) (d b x : BitVec 6) (z : BitVec 2) (s : State) (t : Thread) (ls : List GalLane) (size : Nat),
    Ready (.ld h d b x z) s t → size = sizeOf' h z.toNat → (s.mods h).space = 1 →
    InGalley s t size (t.requests h b.toNat x.toNat size) ls →
    (∀ l ∈ ls, s.galPoisoned l.team l.off size = false) → wordsOf size ≤ t.dres →
    ∃ t', completes (.ld h d b x z) s t' ∧
      VectorFrame h ((List.range (wordsOf size)).map (d.toNat + ·)) t t' ∧
      ∀ l ∈ ls, ∀ k, k < wordsOf size →
        t'.vreg (d.toNat + k) l.lane = BitVec.ofNat 32
          (extendLoad (sxOf h) size 32 (leNat (s.galRead l.team l.off size)) / 2 ^ (32 * k))) ∧
  (∀ (h : Hdr) (d b x : BitVec 6) (z : BitVec 2) (s : State) (t : Thread) (l : GalLane) (size : Nat),
    Ready (.st h d b x z) s t → size = sizeOf' h z.toNat → (s.mods h).space = 1 → (s.mods h).ord ≠ 2 →
    s.readsOpen = false → InGalley s t size (t.requests h b.toNat x.toNat size) [l] →
    (∀ i, i < size → (l.team.place (l.off + i)).1 < s.cores.length) →
    (∀ i j, i < size → j < size → l.team.place (l.off + i) = l.team.place (l.off + j) → i = j) →
    ∃ (s' : State) (t' : Thread), exec (.st h d b x z) s = .next s' ∧ sameMemory s s' ∧
      s'.threads = (s.setThread t').threads ∧
      t' = { t.wentOn (nextPc t.pc h) with lct := ⟨max t.lct.clus s.time, max t.lct.die s.time, max t.lct.dev s.time,
        max t.lct.sys s.time⟩ } ∧
      (∀ i, i < size → s'.galByte l.team (l.off + i) =
        (leBytes size (t.words d.toNat (wordsOf size) l.lane)).getD i 0) ∧
      (∀ c o, (∀ i, i < size → l.team.place (l.off + i) ≠ (c, o)) →
        Sparse.get (s'.core c).galley 0 o = Sparse.get (s.core c).galley 0 o)) ∧
  (∀ (h : Hdr) (d b x : BitVec 6) (z : BitVec 2) (s : State) (t : Thread) (l : GalLane) (ls : List GalLane) (size : Nat),
    Ready (.ld h d b x z) s t → size = sizeOf' h z.toNat → (s.mods h).space = 1 →
    (∀ r ∈ t.requests h b.toNat x.toNat size, r.2 % size = 0) →
    (t.requests h b.toNat x.toNat size).map (fun (r : Nat × Nat) => (r.1, r.2, s.galleyAt t.gang t.team r.2 size))
      = ls.map (fun (l : GalLane) => (l.lane, l.va, some (l.team, l.off))) →
    l ∈ ls → s.reserved l.team.id l.off size = true →
    exec (.ld h d b x z) s = .next (s.setThread { t with park := .poll })) ∧
  (∀ (h : Hdr) (d b x : BitVec 6) (z : BitVec 2) (s : State) (t : Thread) (i : Instr) (size : Nat)
    (bad : List (Nat × Nat)) (l va : Nat) (rest : List (Nat × Nat)), i = .ld h d b x z ∨ i = .st h d b x z →
    Ready i s t → size = sizeOf' h z.toNat → ((s.mods h).space = 2 → t.sup = true) → (s.mods h).ord ≠ 2 →
    (i = .ld h d b x z ∨ (s.mods h).space ≠ 1 ∨ s.readsOpen = false) →
    bad = (t.requests h b.toNat x.toNat size).filter (fun r => r.2 % size != 0) → bad = (l, va) :: rest →
    exec i s = .next (s.trapThread t ⟨vMisalign, 0x08, maskOf (fun n => bad.any (fun r => r.1 == n)), va, 0⟩ t.pc
      (nextPc t.pc h))) ∧
  (∀ (h : Hdr) (d b x : BitVec 6) (z : BitVec 2) (s : State) (t : Thread) (i : Instr) (size : Nat)
    (bad : List (Nat × Nat)) (l va : Nat) (rest : List (Nat × Nat)), i = .ld h d b x z ∨ i = .st h d b x z →
    Ready i s t → size = sizeOf' h z.toNat → (s.mods h).space = 1 → (s.mods h).ord ≠ 2 →
    (i = .ld h d b x z ∨ s.readsOpen = false) →
    (∀ r ∈ t.requests h b.toNat x.toNat size, r.2 % size = 0) →
    bad = (t.requests h b.toNat x.toNat size).filter (fun r => (s.galleyAt t.gang t.team r.2 size).isNone) →
    bad = (l, va) :: rest →
    exec i s = .next (s.trapThread t ⟨vGalley, 0x0A, maskOf (fun n => bad.any (fun r => r.1 == n)), va, 0⟩ t.pc
      (nextPc t.pc h)))

/-- R289, R304, R305. PFETCH of lanes that reach memory goes on and changes no byte; a line of the die's own memory is
then present in the cluster's L1 where the policy fills that, and nothing stays outstanding but the fills that wait: for
a host or a peer, for a copy that owns the line, or for writes still pending. CFLUSH of an empty range writes 0; of a translated range it waits for its write-backs, and
CFLUSH_COMPLETE then writes the count of bytes to s[d]. -/
def Obligations.PrefetchAndFlushResults : Prop :=
  (∀ (h : Hdr) (b x : BitVec 6) (z : BitVec 2) (s : State) (t : Thread) (m : Mods) (ls : List OkLane),
    Ready (.pfetch h b x z) s t → m = s.mods h → m.cache ≠ 3 → m.space ≠ 1 → (m.space = 2 → t.sup = true) →
    s.redBuf = [] →
    (t.requests h b.toNat x.toNat (sizeOf' h z.toNat)).map (fun (r : Nat × Nat) => (r.1, r.2, s.transIn m.space r.2 accRead))
      = ls.map (fun (l : OkLane) => (l.lane, l.va, Trans.ok l.pa l.key l.mt)) →
    ∃ (s' : State), exec (.pfetch h b x z) s = .next s' ∧ sameMemory s s' ∧ s'.cores = s.cores ∧
      s'.threads = (s.setThread (t.wentOn (nextPc t.pc h))).threads ∧
      ((∀ l ∈ ls, isOutside (lineOf l.pa) = false ∧ s.owned (lineOf l.pa) = false ∧
        (leasedHere t.core (lineOf l.pa) = true → s.pends (lineOf l.pa) = [])) → s'.outs = s.outs) ∧
      (fillsL1 m.cache = true → ls ≠ [] → ∀ line,
        (∀ l ∈ ls, lineOf l.pa = line ∧ l.mt = 0 ∧ isCtl l.pa = false) → leasedHere t.core line = false →
        s.owned line = false → s'.present (clusterOf t.core) line = true)) ∧
  (∀ (h : Hdr) (d a : BitVec 7) (b : BitVec 6) (s : State), CanRun (.cflush h d a b) s → s.sreg b.toNat = 0 →
    (match h.mmod with | some p => p.space ≠ 2 | none => True) →
    exec (.cflush h d a b) s = .next ((s.setSreg d.toNat 0).advance h)) ∧
  (∀ (h : Hdr) (d a : BitVec 7) (b : BitVec 6) (s : State) (t : Thread) (lo n : Nat), Ready (.cflush h d a b) s t →
    (match h.mmod with | some p => p.space = 0 | none => True) → lo = (s.sreg a.toNat).toNat →
    n = min (s.sreg b.toNat).toNat (0x10000 - lo % 0x10000) → n ≠ 0 → s.mapped t.ctx accRead lo n →
    s.redBuf = [] → s.countOuts t.id 1 = 0 →
    exec (.cflush h d a b) s = .next (s.setThread { t with
      park := .cflush d.toNat n (dedup (partLines (s.partsOf t.ctx accRead lo n))), after := nextPc t.pc h })) ∧
  (∀ (s : State) (t : Thread) (d n : Nat) (lines : List Nat), s.thread? s.arg.a = some t →
    t.park = .cflush d n lines → s.locked t d = false → (∀ l ∈ lines, s.pends l = []) →
    ∃ (s' : State), exec .cflushComplete s = .next s' ∧ sameMemory s s' ∧
      s'.thread? t.id = some ((t.setSreg d (BitVec.ofNat 64 n)).wentOn t.after) ∧
      ∀ l ∈ lines, ∀ e ∈ s'.dirty, e.1 ≠ l)

/-! ## Order -/

/-- R189, R296, R345, R346, R349, R350, R351. WAIT goes on once every counter is within its bound, and polls until
then, its group's reduction lines merged where it waits on stores.
FENCE.REL goes on once the release is complete: nothing contributed is left to merge, no store or atomic is
outstanding, and device time has reached the LCT of the scope; where only the time is missing it parks until then, and
RELEASE_COMPLETE lets it go on. FENCE.ACQ goes on once no load or atomic is outstanding, and that is its acquire time.
A TBAR whose release is complete ends at once where its mask names only its own group and that group is this one
thread: the thread goes on with an acquire. Where a named group has a thread that has not arrived, it parks at the
barrier, arrived. A mask that does not name the group traps with cause 0x53, one that names a group beyond the team's
with 0x52. -/
def Obligations.WaitAndTeamBarrierResults : Prop :=
  (∀ (h : Hdr) (l ss m a : BitVec 5) (s : State) (t : Thread), Ready (.wait h l ss m a) s t →
    ss = 31 ∨ t.peerLate = false →
    ((l = 31 ∨ s.countOuts t.id 0 ≤ l.toNat) ∧ (ss = 31 ∨ s.countOuts t.id 1 ≤ ss.toNat) ∧
        (m = 31 ∨ s.countMx t.id ≤ m.toNat) ∧ (a = 31 ∨ s.countOuts t.id 2 ≤ a.toNat) →
      completes (.wait h l ss m a) s (t.wentOn (nextPc t.pc h))) ∧
    (¬ ((l = 31 ∨ s.countOuts t.id 0 ≤ l.toNat) ∧ (ss = 31 ∨ s.countOuts t.id 1 ≤ ss.toNat) ∧
        (m = 31 ∨ s.countMx t.id ≤ m.toNat) ∧ (a = 31 ∨ s.countOuts t.id 2 ≤ a.toNat)) →
      (ss = 31 ∨ s.countOuts t.id 1 ≤ ss.toNat ∨ ∀ r ∈ s.redBuf, t.id ∉ r.threads) →
      exec (.wait h l ss m a) s = .next (s.setThread { t with park := .poll })) ∧
    (ss ≠ 31 → ss.toNat < s.countOuts t.id 1 →
      exec (.wait h l ss m a) s = .next (s.mergeOwn t.id).poll)) ∧
  (∀ (h : Hdr) (s : State), CanRun (.fenceRel h) s → s.relDoneHere = true →
    exec (.fenceRel h) s = .next (s.advance h)) ∧
  (∀ (h : Hdr) (s : State) (t : Thread) (n : Nat), Ready (.fenceRel h) s t → n = scopeOf h → t.relDone = false →
    t.peerLate = false → t.marked = [] → (∀ r ∈ s.redBuf, t.id ∉ r.threads) →
    (n = 0 ∨ (s.writesOpen = false ∧ t.lct.at n ≤ s.time) →
      completes (.fenceRel h) s (t.wentOn (nextPc t.pc h))) ∧
    (n ≠ 0 → s.writesOpen = false → s.time < t.lct.at n →
      completes (.fenceRel h) s { t with park := .release (t.lct.at n) }) ∧
    (n ≠ 0 → s.writesOpen = true → completes (.fenceRel h) s { t with park := .poll })) ∧
  (∀ (s : State) (t : Thread) (u : Nat), s.thread? s.arg.a = some t → t.park = .release u → t.marked = [] →
    (u ≤ s.time → completes .releaseComplete s { t with park := .run, relDone := true }) ∧
    (s.time < u → exec .releaseComplete s = .next s)) ∧
  (∀ (h : Hdr) (s : State) (t : Thread), Ready (.fenceAcq h) s t →
    (s.readsOpen = false → completes (.fenceAcq h) s { t.wentOn (nextPc t.pc h) with acq := s.time }) ∧
    (s.readsOpen = true → completes (.fenceAcq h) s { t with park := .poll })) ∧
  (∀ (h : Hdr) (s : State) (c : Nat), ReadyProctor (.fenceAcq h) s c → s.readsOpen = false →
    exec (.fenceAcq h) s = .next (s.advance h)) ∧
  (∀ (h : Hdr) (a : BitVec 7) (n : BitVec 3) (s : State) (t : Thread) (tm : Team) (v : W64), Ready (.tbar h a n) s t →
    s.team? t.team = some tm → v = t.sreg a.toNat → tbarCause tm t.grp v = 0 → t.relDone = true → t.live ≠ 0 →
    (∀ x ∈ s.teams, x.bars = []) → (∀ g, v.getLsbD g = true → g < 16 → tm.gone g = false) →
    ((∀ g, g < 16 → v.getLsbD g = true → g = t.grp) → (∀ o ∈ s.outs, o.cls = 1 ∨ t.id ∉ o.owners) →
      (∀ u ∈ s.threads, u.team = t.team → u.grp = t.grp → u.live ≠ 0 → u.id = t.id) →
      (∀ e ∈ s.folios, ¬ (e.team = t.team ∧ e.grp = t.grp)) →
      ∃ (s' : State), exec (.tbar h a n) s = .next s' ∧ sameMemory s s' ∧
        s'.thread? t.id = some { t.wentOn (nextPc t.pc h) with after := nextPc t.pc h, acq := s.time }) ∧
    (∀ u g, u ∈ s.threads → g < 16 → v.getLsbD g = true → u.team = t.team → u.grp = g → u.live ≠ 0 → u.id ≠ t.id →
      ∃ (s' : State), exec (.tbar h a n) s = .next s' ∧ sameMemory s s' ∧
        s'.thread? t.id = some { t with park := .tbar n.toNat, after := nextPc t.pc h } ∧
        ∃ tm', s'.team? t.team = some tm' ∧ tm'.bars = [⟨n.toNat, v.extractLsb' 0 16, [t.id]⟩])) ∧
  (∀ (h : Hdr) (a : BitVec 7) (n : BitVec 3) (s : State) (t : Thread) (tm : Team) (v : W64), Ready (.tbar h a n) s t →
    s.team? t.team = some tm → v = t.sreg a.toNat → tm.groups ≤ 16 → t.grp < 16 →
    ((∃ g, tm.groups ≤ g ∧ g < 64 ∧ v.getLsbD g = true) → exec (.tbar h a n) s =
      .next (s.trapThread t (plainTrap vMembership 0x52 t.exec) t.pc (nextPc t.pc h))) ∧
    ((∀ g, tm.groups ≤ g → g < 64 → v.getLsbD g = false) → v.getLsbD t.grp = false → exec (.tbar h a n) s =
      .next (s.trapThread t (plainTrap vMembership 0x53 t.exec) t.pc (nextPc t.pc h))))

/-! ## Messages, launches and hand-in -/

/-- R88 to R91. MBRECV and MBRECV.W take the oldest message of the inbox: its eight words in s[d] to s[d+7], the count
still waiting in bits 15:8 of s[a]; of an empty inbox MBRECV writes code 0x03 to s[a], and MBRECV.W parks. MBSEND
puts its seven words with the next number on the ring, or, in supervisor mode, in an inbox (whose place in its frame is
the model's choice, log entry 52), and writes number, free entries and code to s[d]. A host's MAILBOX_SEND enters its message or gives it to the group that has waited longest,
and MAILBOX_CONSUMED advances the count of consumed messages, never beyond those sent. -/
def Obligations.MailboxResults : Prop :=
  (∀ (h : Hdr) (d a : BitVec 7) (s : State) (t : Thread) (c : Ctx), Ready (.mbrecv h d a) s t →
    s.ctx? t.ctx = some c → c.inbox = [] →
    completes (.mbrecv h d a) s ((t.setSreg a.toNat 3).wentOn (nextPc t.pc h))) ∧
  (∀ (h : Hdr) (d a : BitVec 7) (s : State) (t : Thread) (c : Ctx), Ready (.mbrecvW h d a) s t →
    s.ctx? t.ctx = some c → c.inbox = [] →
    exec (.mbrecvW h d a) s = .next (({ s with nextId := s.nextId + 1 } : State).setThread
      { t with park := .inbox d.toNat a.toNat s.nextId, after := nextPc t.pc h })) ∧
  (∀ (h : Hdr) (d a : BitVec 7) (i : Instr) (s : State) (t : Thread) (c : Ctx) (m : List Byte)
    (rest : List (List Byte)), i = .mbrecv h d a ∨ i = .mbrecvW h d a → Ready i s t →
    s.ctx? t.ctx = some c → c.inbox = m :: rest →
    ∃ (s' : State) (t' : Thread), exec i s = .next s' ∧ sameMemory s s' ∧ s'.thread? t.id = some t' ∧
      t' = { t.wentOn (nextPc t.pc h) with sregs := t'.sregs } ∧
      t'.sreg a.toNat = BitVec.ofNat 64 (rest.length * 2 ^ 8) ∧
      (∀ k, k < 8 → d.toNat + k ≠ a.toNat →
        t'.sreg (d.toNat + k) = BitVec.ofNat 64 (leNat ((m.drop (8 * k)).take 8))) ∧
      (∀ r, r ≠ a.toNat → r < d.toNat ∨ d.toNat + 8 ≤ r → t'.sreg r = t.sreg r) ∧
      s'.ctx? t.ctx = some { c with inbox := rest }) ∧
  (∀ (h : Hdr) (d a : BitVec 7) (b : BitVec 6) (s : State) (t : Thread) (c : Ctx) (w : W64) (at_ : Nat),
    Ready (.mbsend h d a b) s t → w = t.sreg b.toNat → w.toNat < 2 ^ 32 →
    t.sup = true ∨ w.setWidth 32 = t.ctx → s.ctx? (w.setWidth 32) = some c → c.dead = false → c.ringBase ≠ 0 →
    c.ringBase % 4096 = 0 → c.sent < c.consumed + 64 → at_ = c.ringBase + 64 * (c.sent % 64) →
    regionOf at_ = .host → regionOf (at_ + 8) = .host →
    ∃ (s' : State), exec (.mbsend h d a b) s = .next s' ∧ s'.ctx? (w.setWidth 32) = some { c with sent := c.sent + 1 } ∧
      s'.thread? t.id = some ((t.setSreg d.toNat (BitVec.ofNat 64
        ((c.sent + 1) % 2 ^ 48 * 2 ^ 16 + (64 - (c.sent + 1 - c.consumed)) * 2 ^ 8))).wentOn (nextPc t.pc h)) ∧
      s'.loadNat at_ 0 8 = (c.sent + 1) % 2 ^ 64 ∧
      ∀ i, i < 7 → s'.loadNat (at_ + 8 + 8 * i) 0 8 = (t.sreg (a.toNat + 1 + i)).toNat) ∧
  (∀ (h : Hdr) (d a : BitVec 7) (b : BitVec 6) (s : State) (t : Thread) (c : Ctx) (w : W64) (m : List Byte) (x : Nat),
    Ready (.mbsend h d a b) s t → w = t.sreg b.toNat → w.toNat / 2 ^ 32 = 1 → t.sup = true →
    s.ctx? (w.setWidth 32) = some c → c.dead = false → c.inbox.length < 64 → s.inboxWaiter c.ident = none →
    s.redBuf = [] → m = leBytes 8 c.nextIn ++ (List.range 7).flatMap (fun i =>
      leBytes 8 (t.sreg (a.toNat + 1 + i)).toNat) →
    c.inboxFrame % 4096 = 0 → regionOf (inboxEntry c) = .hbm x →
    ∃ (s' : State), exec (.mbsend h d a b) s = .next s' ∧
      (∀ pa slot, lineOf pa ≠ lineOf (inboxEntry c) → s'.homeByte pa slot = s.homeByte pa slot) ∧
      (slotOfCtx c.ident ≠ 0 → ∀ k, k < 64 → s'.latest (inboxEntry c + k) (slotOfCtx c.ident) = m.getD k 0) ∧
      s'.ctx? (w.setWidth 32) = some { c with inbox := c.inbox ++ [m], nextIn := c.nextIn + 1 } ∧
      s'.thread? t.id = some ((t.setSreg d.toNat (BitVec.ofNat 64
        (c.nextIn % 2 ^ 48 * 2 ^ 16 + (63 - c.inbox.length) * 2 ^ 8))).wentOn (nextPc t.pc h))) ∧
  (∀ (s : State) (c : Ctx), s.pageOwner s.arg.a = some (c, false) → s.ctx? c.ident = some c → s.arg.b = 0 →
    s.arg.bytes.length = 64 → leNat (s.arg.bytes.take 8) = c.nextIn → c.dead = false → c.inbox.length < 64 →
    s.redBuf = [] →
    (s.inboxWaiter c.ident = none → ∃ (s' : State), exec .mailboxSend s = .next s' ∧
      s'.ctx? c.ident = some { c with inbox := c.inbox ++ [s.arg.bytes], nextIn := c.nextIn + 1 } ∧
      s'.hostLog = s.hostLog ++ [.status 0] ∧ s'.threads = s.threads) ∧
    (∀ t d a, s.inboxWaiter c.ident = some (t, d, a) → s.thread? t.id = some t →
      ∃ (s' : State), exec .mailboxSend s = .next s' ∧ s'.hostLog = s.hostLog ++ [.status 0] ∧
        s'.ctx? c.ident = some { c with nextIn := c.nextIn + 1 } ∧
        s'.thread? t.id = some { t.takeMessage d a s.arg.bytes 0 with pc := t.after, park := .run })) ∧
  (∀ (s : State) (c : Ctx), s.pageOwner s.arg.a = some (c, false) → (∀ l ∈ s.launches, l.ringWait = false) →
    exec .mailboxConsumed s = .next (s.setCtx { c with consumed := max c.consumed (min s.arg.v.toNat c.sent) }))

/-- R78 to R86, R92, R94, R95, R103, R104, R108, R184, R206, R390, R414 to R416. LAUNCH and SPAWN whose release is complete write
the status that the front end gives the 128 bytes at s[a], and a record that is refused leaves the launches as they
were. Such a status is written as the group goes on, or, where the press has locked its register, once the lock is
released (the effect before the write is the model's reading of R184 and R387, log entry 47). PLACE on a die whose
supervisor places answers 0 and the gang placed. A host's record on a submission page becomes a live launch,
Accepted, or is answered with retry; its checks reject it with a code or pass it on, and answer the host's write (log
entry 88); a record whose first 56 bytes are stored takes its magic, and
one that waited for the ring is sent: its launch is over (R414). A placement step takes up a pool that was
written, places a gang that has a candidate, and lets what still waits reserve; a gang that has waited 500 µs reserves
a cluster, and a group without lanes retires once nothing of it is outstanding. -/
def Obligations.LaunchAndPlacementResults : Prop :=
  (∀ (h : Hdr) (d a : BitVec 7) (i : Instr) (spawn : Bool) (s s₁ s₂ : State) (t₁ : Thread) (st : W64) (va : Nat),
    (i = .launch h d a ∧ spawn = false) ∨ (i = .spawn h d a ∧ spawn = true) → CanRun i s → s.relDoneHere = true →
    va = (s.sreg a.toNat).toNat → va % 128 = 0 → s.mapped s.ctxHere accRead va 128 →
    s.runReady (s.partsOf s.ctxHere accRead va 128) = (s₁, true) →
    t₁ = (match s₁.cur with
      | .thread id => (s₁.thread? id).getD (proctorThread s₁.here s₁)
      | .proctor c => proctorThread c s₁) →
    s₁.runPoison (s.partsOf s.ctxHere accRead va 128) = 0 → (∀ l ∈ s₁.launches, l.order < s₁.nextId) →
    s₁.frontEnd t₁ spawn (s₁.runBytes (s.partsOf s.ctxHere accRead va 128)) = (s₂, some st) →
    exec i s = .next (s₂.finish h d.toNat st) ∧ (st ≠ 0 → s₂.launches = s₁.launches)) ∧
  (∀ (s : State) (h : Hdr) (d : Nat) (v : W64) (t : Thread), s.cur = .thread t.id → s.thread? t.id = some t →
    (s.locked t d = false → s.finish h d v = s.setThread ((t.setSreg d v).wentOn (nextPc t.pc h))) ∧
    (s.locked t d = true → s.finish h d v = s.setThread { t.wentOn (nextPc t.pc h) with park := .lock d v false })) ∧
  (∀ (h : Hdr) (d a : BitVec 7) (b : BitVec 6) (s s' : State) (l : Launch) (slots : List Nat) (n : Nat),
    CanRun (.place h d a b) s → s.mode (dieOf s.here) 2 = true → s.launch? (s.sreg a.toNat) = some l →
    s.livesCtx l.ctx = true → n = (s.sreg b.toNat).toNat → n < 64 → n / 12 = dieOf s.here →
    l.kd.shapeOk (n % 4) = true → s.halting (dieOf s.here) = false → l.state = .ready →
    s.placeNew l n = .yes s' slots →
    exec (.place h d a b) s = .next (s'.finish h d.toNat (BitVec.ofNat 64 (l.cursor % 2 ^ 48)))) ∧
  (∀ (s : State) (c : Ctx), s.pageOwner s.arg.a = some (c, true) → s.arg.bytes.length = 128 → s.arg.b % 128 = 0 →
    s.arg.b < 4096 → c.dead = false →
    leNat ((s.arg.bytes.drop 48).take 8) ≠ 0 ∨ c.ringBase ≠ 0 →
    (s.mustRetry c = false → ∃ (s' : State) (l : Launch), exec .launchSubmit s = .next s' ∧
      s'.launches = s.launches ++ [l] ∧ l.state = .accepted ∧ l.ctx = c.ident ∧ l.record = s.arg.bytes ∧
      l.ident = c.ident ++ BitVec.ofNat 32 (leNat ((s.arg.bytes.drop 60).take 4)) ∧ l.acceptT = s.time ∧
      l.hostSlot = some (s.arg.b / 128) ∧ s'.hostLog = s.hostLog ∧ sameMemory s s') ∧
    (s.mustRetry c = true → exec .launchSubmit s = .next { s with hostLog := s.hostLog ++ [.status 1] })) ∧
  (∀ (s s' : State) (l : Launch), s.launches.find? (fun l => l.ident == s.arg.v && l.state == .accepted) = some l →
    (∀ c lim v b, s.checkLaunch 0 l false = (s', .reject c lim v b) → exec .launchChecks s = .next
      ((s'.answerWrite 0).setLive
        { l with state := .retired, outRec := rejectionRecord l c lim v b s'.time }).settleLaunches) ∧
    (∀ kd args, s.checkLaunch 0 l false = (s', .pass kd args) →
      exec .launchChecks s = .next ((s'.answerWrite 0).launchPassed l kd args))) ∧
  (∀ (s : State) (l : Launch) (c : Ctx) (pa key : Nat) (x : Nat), s.launches = [l] → l.ident = s.arg.v →
    l.half = some (pa, key) → s.ctx? l.ctx = some c → c.dead = false → s.redBuf = [] → l.outRec.length = 64 →
    pa % 64 = 0 → regionOf pa = .hbm x →
    ∃ (s' : State), exec .completionRingSend s = .next s' ∧ s'.launches = [] ∧ s'.hostLog = (s.interruptFor l).hostLog ∧
      ∀ k, k < 8 → s'.latest (pa + k) key = l.outRec.getD k 0) ∧
  (∀ (s : State) (l : Launch) (c : Ctx), s.launches = [l] → l.ident = s.arg.v → l.ringWait = true → l.half = none →
    l.state = .retired → l.completion = 0 → s.ctx? l.ctx = some c → c.dead = false → c.sent < c.consumed + 64 →
    ∃ (s' : State), exec .completionRingSend s = .next s' ∧ s'.launches = [] ∧
      s'.ctx? l.ctx = some { c with sent := c.sent + 1 }) ∧
  (∀ (s u s' : State) (w : Waiting), u = s.newPools s.arg.a → u.hwPlaces s.arg.a = true → u.powerLost = none →
    u.waiting = [w] → u.refresh w = some w → u.choose s.arg.a w = some s' → s'.refresh w = none →
    w.launch.gangs ≠ 0 → exec .placementStep s = .next (s'.waiting.foldl State.reserveFor s')) ∧
  (∀ (s : State) (d b n : Nat), d < s.dies.length → (s.die d).poolNew = some (b, n) →
    ((s.newPools d).die d).poolBase = b ∧ ((s.newPools d).die d).poolSize = n ∧
      ((s.newPools d).die d).poolNew = none) ∧
  (∀ (s : State) (w : Waiting) (c : Nat), s.waiting = [w] → w.launch.ident = s.arg.v → w.linear = s.arg.a →
    w.since + 500000 ≤ s.time → (∀ r ∈ s.reserves, ¬ (r.launch = w.launch.ident ∧ r.linear = w.linear)) →
    s.leastShort w (s.reservable w) = some c →
    exec .clusterReserve s = .next { s with reserves := s.reserves.filter (fun r => r.cluster != c) ++
      [⟨c, w.launch.ident, w.linear, w.prio⟩] }) ∧
  (∀ (s : State) (t : Thread), s.thread? s.arg.a = some t → t.live = 0 → (∀ r ∈ s.redBuf, t.id ∉ r.threads) →
    s.finished t = true → t.peerLate = false → t.lct.sys ≤ s.time → s.strandedBars t.team t.grp = [] →
    ({ s with threads := s.threads.filter (fun x => x.id != t.id) } : State).strandedBars t.team t.grp = [] →
    ∃ (s' : State), exec .groupRetire s = .next s' ∧ s'.thread? t.id = none ∧
      (s.inSlot t.core t.slot = [t] → ∀ g ∈ s'.grants, ¬ (g.core = t.core ∧ g.slot = t.slot)))

/-- R359, R363 to R365, R367, R370, R371, R378 to R380. HQTAKE gives an active lane a posted record of the chosen kinds:
its bytes in sixteen registers, its state taken by this group, its lane in s[a]; with none, 0 in s[a] and v[d], where
HQTAKE.W waits. HQDONE frees a device record that it names and marks its lane in s[d], and an answer with action 3 lets
the group that posted the record go on at its address. SVCSTART starts a service group and answers with its slot, or
with a code; SVCPARK stops and releases one. The bell restarts a stuck service group, with the count and PIPEND bit 5.
A supervisor's write gives an empty queue its base. -/
def Obligations.HandInAndServiceResults : Prop :=
  (∀ (h : Hdr) (d : BitVec 6) (a : BitVec 7) (b : BitVec 6) (s : State) (t : Thread), Ready (.hqtake h d a b) s t →
    (s.core t.core).hq.matching (t.sreg b.toNat) = [] → s.readsOpen = false → s.clearOf t.id →
    ∃ t', completes (.hqtake h d a b) s t' ∧
      t' = { (t.setSreg a.toNat 0).wentOn (nextPc t.pc h) with
        bellT := s.time, acq := s.time, store := t'.store, storePoison := t'.storePoison } ∧
      ∀ l, l < 64 → (active t h).getLsbD l = true → t'.vreg d.toNat l = 0) ∧
  (∀ (h : Hdr) (d : BitVec 6) (a : BitVec 7) (b : BitVec 6) (s : State) (t : Thread), Ready (.hqtakeW h d a b) s t →
    (s.core t.core).hq.matching (t.sreg b.toNat) = [] →
    exec (.hqtakeW h d a b) s = .next (s.setThread { t with park := .poll })) ∧
  (∀ (h : Hdr) (d : BitVec 6) (a : BitVec 7) (b : BitVec 6) (i : Instr) (s : State) (t : Thread) (l : Nat) (r : HqRec)
    (rs : List HqRec), i = .hqtake h d a b ∨ i = .hqtakeW h d a b → Ready i s t → lanesOf (active t h) = [l] →
    (s.core t.core).hq.matching (t.sreg b.toNat) = r :: rs → s.readsOpen = false → s.clearOf t.id →
    16 ≤ t.dres →
    ∃ (s' : State) (t' : Thread), exec i s = .next s' ∧ s'.thread? t.id = some t' ∧
      t' = { (t.setSreg a.toNat (laneBit l)).wentOn (nextPc t.pc h) with
        bellT := s.time, acq := s.time, store := t'.store, storePoison := t'.storePoison } ∧
      (∀ k, 2 ≤ k → k < 16 → t'.vreg (d.toNat + k) l = BitVec.ofNat 32 (leNat ((r.bytes.drop (4 * k)).take 4))) ∧
      ∀ x ∈ (s'.core t.core).hq.recs, x.place = r.place → x.state = 2 ∧ x.taker = some t.slot) ∧
  (∀ (h : Hdr) (d a : BitVec 7) (s : State) (t : Thread), Ready (.hqdone h d a) s t → t.relDone = true →
    (∀ l, l < 64 → (active t h).getLsbD l = true →
      (s.core t.core).hq.named t.slot (t.replyOf a.toNat l) = none) →
    completes (.hqdone h d a) s ((t.setSreg d.toNat 0).wentOn (nextPc t.pc h))) ∧
  (∀ (h : Hdr) (d a : BitVec 7) (s : State) (t : Thread) (l : Nat) (r : HqRec), Ready (.hqdone h d a) s t →
    t.relDone = true → lanesOf (active t h) = [l] →
    (s.core t.core).hq.named t.slot (t.replyOf a.toNat l) = some r → (t.replyOf a.toNat l).fits r.kind = true →
    (s.core t.core).hq.overflow = [] →
    (r.ofThread = false → r.copyFault = false → r.kind ≠ 0x11 →
      ∃ (s' : State), exec (.hqdone h d a) s = .next s' ∧
        s'.thread? t.id = some { (t.setSreg d.toNat (laneBit l)).wentOn (nextPc t.pc h) with bellT := s.time } ∧
        ∀ x ∈ (s'.core t.core).hq.recs, ¬ (x.place = r.place ∧ x.kind = r.kind)) ∧
    (∀ u, r.kind = 0x01 → r.poster = some u.id → u.id ≠ t.id → (t.replyOf a.toNat l).action = 3 →
      s.thread? u.id = some u → u.park = .records → u.susp = none → u.exec ≠ 0 → s.recsOf u.id = [(t.core, r)] →
      (∀ x ∈ (s.core t.core).hq.recs, x.place = r.place → x = r) → (∀ o ∈ s.outs, u.id ∉ o.owners) →
      ∃ (s' : State), exec (.hqdone h d a) s = .next s' ∧
        s'.thread? u.id = some { u.wentOn (t.replyOf a.toNat l).aux with acq := s.time } ∧
        s'.thread? t.id = some { (t.setSreg d.toNat (laneBit l)).wentOn (nextPc t.pc h) with bellT := s.time })) ∧
  (∀ (h : Hdr) (d a : BitVec 7) (s : State), CanRun (.svcstart h d a) s →
    (svcMalformed (s.sreg a.toNat).toNat (s.sreg (a.toNat + 1)).toNat (s.sreg (a.toNat + 2)).toNat = true →
      exec (.svcstart h d a) s = .next ((s.setSreg d.toNat (0x01 <<< 56)).advance h)) ∧
    (∀ s' slots, svcMalformed (s.sreg a.toNat).toNat (s.sreg (a.toNat + 1)).toNat (s.sreg (a.toNat + 2)).toNat = false →
      s.startService s.here (svcDesc s.here (s.sreg a.toNat) (s.sreg (a.toNat + 1)) (s.sreg (a.toNat + 2))
        (s.sreg (a.toNat + 3))) = .yes s' slots →
      exec (.svcstart h d a) s = .next (s'.finish h d.toNat
        (BitVec.ofNat 64 (slots.headD 0 + slots.headD 0 / 8 * 2 ^ 8))))) ∧
  (∀ (h : Hdr) (d a : BitVec 7) (b : BitVec 6) (s : State) (slot : Nat), CanRun (.svcpark h d a b) s →
    slot = (s.sreg a.toNat).toNat → slot < 64 →
    (∃ t ∈ s.threads, t.core = s.here ∧ t.slot = slot ∧ t.service = true) →
    (∀ op, (s.sreg b.toNat).toNat = op → op < 2 →
      (∃ t ∈ s.threads, t.core = s.here ∧ t.slot = slot ∧ t.service = true ∧ t.stopped = (op == 1)) →
      (∀ t ∈ s.threads, t.core = s.here → t.slot = slot → t.service = true) →
      (∀ t ∈ s.threads, ∀ u ∈ s.threads, t.id = u.id → t = u) →
      exec (.svcpark h d a b) s = .next ((({ s with threads := s.threads.map (fun (t : Thread) =>
        if t.core == s.here && t.slot == slot then { t with stopped := op == 0 } else t) } : State).setSreg
          d.toNat 0).advance h)) ∧
    (2 < (s.sreg b.toNat).toNat →
      exec (.svcpark h d a b) s = .next ((s.setSreg d.toNat (0x03 <<< 56)).advance h))) ∧
  (∀ (s : State) (t : Thread), s.thread? s.arg.a = some t → s.stuck t = true → t.core < s.cores.length →
    dieOf t.core < s.dies.length → t.id < s.nextId →
    ∃ (s' : State), exec .bellRestart s = .next s' ∧ s'.thread? t.id = none ∧
      (s'.die (dieOf t.core)).bellCnt = (s.die (dieOf t.core)).bellCnt + 1 ∧
      (s'.core t.core).proctor.pipend.getLsbD 5 = true) ∧
  (∀ (s : State) (q : Hq) (v : Nat), isSupervisor s.arg.w = true → q = (s.core s.arg.a).hq → v = s.arg.v.toNat →
    q.recs = [] → q.overflow = [] → q.base = 0 → v % 4096 = 0 → v ≠ 0 → regionOf v = .hbm (dieOf s.arg.a) →
    exec .hqbaseWrite s = .next (s.setHq s.arg.a { q with base := v, head := 0, tail := 0 }))

/-! ## The press -/

/-- R266 to R284. MMA, MMA.GANG and the MTILE instructions whose descriptor passes its checks, with room in the queues of
their presses, enter them with the descriptor captured, and the group goes on; MSTAT reads the status register once
nothing of the group is in flight, MSTAT.CLR clears it. The commit of a product leaves each element of the tile as
the element product gives it and takes the operation out of its queue; the parts of a gang become ready one by one,
commit together, and abort with class 4 once the bound has passed; MTILE.ZERO ends with a tile of zeros. -/
def Obligations.PressResults : Prop :=
  (∀ (h : Hdr) (d a : BitVec 7) (ss z j k : BitVec 1) (s : State) (t : Thread) (ds : PressDesc) (gal : Nat),
    Ready (.mma h d a ss z j k) s t → ds = pressDesc (t.regsFrom a.toNat 8) →
    gal = (match s.team? t.team with | some tm => tm.galley | none => 0) →
    descBad (t.regsFrom a.toNat 8) (j == 1 || k == 1) = false → ds.mem = 0 → t.grants d.toNat = true →
    descMisaligned ds = none → (∀ r ∈ rangesA ds ++ rangesB ds, r.1 + r.2 ≤ gal) →
    (ds.ben = true → ds.bar + 8 ≤ gal) → s.pressLoad t.core < 8 →
    exec (.mma h d a ss z j k) s = .next (({ s with
      nextId := s.nextId + 1
      pressOps := s.pressOps ++ [{ id := s.nextId, kind := .mma (ss == 1) (z == 1) (j == 1) (k == 1), issuer := t.id
                                   owners := [t.id], desc := t.regsFrom a.toNat 8, areg := a.toNat
                                   parts := [⟨t.team, t.id, t.core, d.toNat, false⟩], issued := s.time
                                   firstReady := none, bound := (s.die (dieOf t.core)).gangBnd }] } : State).setThread
        (t.wentOn (nextPc t.pc h)))) ∧
  (∀ (h : Hdr) (d a : BitVec 7) (ss z j k : BitVec 1) (s : State) (t : Thread) (ds : PressDesc) (own : Nat)
    (ps : List (Part × Thread)), Ready (.mmaGang h d a ss z j k) s t → ds = pressDesc (t.regsFrom a.toNat 8) →
    own = (match s.team? t.team with | some tm => tm.galley | none => 0) →
    descBad (t.regsFrom a.toNat 8) (j == 1 || k == 1) = false → bit ds.mem t.teamIdx = true → 2 ≤ popcount 4 ds.mem →
    ds.mem / 2 ^ s.gangTeams t = 0 → s.gangParts t d.toNat ds.mem = ps.map some →
    t.grants d.toNat = true → (∀ p ∈ ps, p.2.grants p.1.tile = true) →
    (∀ m, m < 4 → bit ds.mem m = true → s.partnerAway t m = false) → descMisaligned ds = none →
    (∀ r ∈ rangesB ds, r.1 + r.2 ≤ own) →
    (∀ p ∈ ps, ∀ tm, s.team? p.1.team = some tm → (∀ r ∈ rangesA ds, r.1 + r.2 ≤ tm.galley) ∧
      (ds.ben = true → ds.bar + 8 ≤ tm.galley)) →
    (∀ p ∈ ps, s.pressLoad p.1.core < 8) →
    exec (.mmaGang h d a ss z j k) s = .next (({ s with
      nextId := s.nextId + 1
      pressOps := s.pressOps ++ [{ id := s.nextId, kind := .gang (ss == 1) (z == 1) (j == 1) (k == 1), issuer := t.id
                                   owners := [t.id], desc := t.regsFrom a.toNat 8, areg := a.toNat
                                   parts := ps.map (·.1), issued := s.time
                                   firstReady := none, bound := (s.die (dieOf t.core)).gangBnd }] } : State).setThread
        (t.wentOn (nextPc t.pc h)))) ∧
  (∀ (h : Hdr) (d a : BitVec 7) (ss : BitVec 1) (f : BitVec 3) (s : State) (t : Thread) (w : W64) (l : Layout)
    (size gal : Nat) (x : Instr × PressKind × List W64), w = t.sreg a.toNat → l = layoutOf w.toNat →
    size = mtileBytes f.toNat → gal = (match s.team? t.team with | some tm => tm.galley | none => 0) →
    x = (.mtileZero h d, .mtileZero, []) ∨
      ((x = (.mtileSt h d a ss f, .mtileSt (ss == 1) f, [w]) ∨ x = (.mtileLd h d a f, .mtileLd f, [w])) ∧
        bits w.toNat 23 9 = 0 ∧ 1 ≤ l.cols ∧ l.cols ≤ (kindShape (mtileKind f)).2.1 ∧ 1 ≤ l.rows ∧
        l.rows ≤ (kindShape (mtileKind f)).1 ∧ l.cols * size ≤ l.stride ∧ l.off % size = 0 ∧ l.stride % size = 0 ∧
        l.off + l.span size ≤ gal) →
    Ready x.1 s t → t.grants d.toNat = true → s.pressLoad t.core < 8 →
    exec x.1 s = .next (({ s with
      nextId := s.nextId + 1
      pressOps := s.pressOps ++ [{ id := s.nextId, kind := x.2.1, issuer := t.id
                                   owners := [t.id], desc := x.2.2, areg := 200
                                   parts := [⟨t.team, t.id, t.core, d.toNat, false⟩], issued := s.time
                                   firstReady := none, bound := (s.die (dieOf t.core)).gangBnd }] } : State).setThread
        (t.wentOn (nextPc t.pc h)))) ∧
  (∀ (h : Hdr) (d : BitVec 7) (s : State) (t : Thread), (∀ p ∈ s.pressOps, t.id ∉ p.owners) →
    (Ready (.mstat h d) s t → completes (.mstat h d) s ((t.setSreg d.toNat t.pstat).wentOn (nextPc t.pc h))) ∧
    (Ready (.mstatClr h d) s t → completes (.mstatClr h d) s
      { (t.setSreg d.toNat t.pstat).wentOn (nextPc t.pc h) with pstat := 0 })) ∧
  (∀ (s : State) (p : PressOp) (q : Part) (a b : Operand) (sat zc cja cjb : Bool) (rows cols es : Nat),
    s.pressOps.find? (fun p => p.id == s.arg.a) = some p → p.kind = .mma sat zc cja cjb → p.parts = [q] →
    s.pressReady p q = true → s.partPoison p q zc = none → s.operands p q cja cjb = some (a, b) → s.noLateAcquire →
    kindShape (kindOf a.d.fmt) = (rows, cols, es) → a.d.n ≤ cols → q.core < s.cores.length →
    ∃ (s' : State), exec .pressOperationCommit s = .next s' ∧ sameMemory s s' ∧ (∀ x ∈ s'.pressOps, x.id ≠ p.id) ∧
      ∀ i j, i < a.d.m → j < a.d.n → s'.tileNat q.core q.tile ((cols * i + j) * es) es =
        (s.pressElem a b sat (if zc then 0 else s.tileNat q.core q.tile ((cols * i + j) * es) es) i j).1
          % 2 ^ (8 * es)) ∧
  (∀ (s : State) (p : PressOp) (q : Part) (sat zc cja cjb : Bool),
    s.pressOps.find? (fun p => p.id == s.arg.a) = some p → p.kind = .gang sat zc cja cjb →
    p.parts[s.arg.b]? = some q → q.ready = false → (∀ f, p.firstReady = some f → s.time ≤ f + p.bound) →
    s.pressReady p q = true → s.partPoison p q zc = none → s.noLateAcquire →
    ∃ (s' : State), exec .gangPartReady s = .next s' ∧ sameMemory s s' ∧
      ((∃ n r, n ≠ s.arg.b ∧ p.parts[n]? = some r ∧ r.ready = false) →
        ∃ p' ∈ s'.pressOps, p'.id = p.id ∧ p'.parts[s.arg.b]? = some { q with ready := true } ∧
          p'.firstReady = some (p.firstReady.getD s.time)) ∧
      ((∀ n r, n ≠ s.arg.b → p.parts[n]? = some r → r.ready = true) → ∀ x ∈ s'.pressOps, x.id ≠ p.id)) ∧
  (∀ (s : State) (p : PressOp) (sat zc cja cjb : Bool) (f : Nat),
    s.pressOps.find? (fun p => p.id == s.arg.a) = some p → p.kind = .gang sat zc cja cjb → p.firstReady = some f →
    (∃ q ∈ p.parts, q.ready = false) → f + p.bound < s.time →
    ∃ (s' : State), exec .gangBoundExpiry s = .next s' ∧ (∀ x ∈ s'.pressOps, x.id ≠ p.id) ∧
      ((p.parts.map Part.thread).Nodup → ∀ q ∈ p.parts, ∀ u, s.thread? q.thread = some u →
        ∃ u', s'.thread? q.thread = some u' ∧ u'.pstat.toNat / 2 ^ 16 % 2 ^ 8 = 4)) ∧
  (∀ (s : State) (p : PressOp) (q : Part), s.pressOps.find? (fun p => p.id == s.arg.a) = some p → p.parts = [q] →
    s.pressReady p q = true → p.kind = .mtileZero → q.core < s.cores.length → s.noLateAcquire →
    ∃ (s' : State), exec .mtileEnd s = .next s' ∧ sameMemory s s' ∧ (∀ x ∈ s'.pressOps, x.id ≠ p.id) ∧
      s'.tilePoisoned q.core q.tile = false ∧ ∀ off n, off + n ≤ 65536 → s'.tileNat q.core q.tile off n = 0)

/-! ## Copies, tokens, barriers and proofs -/

/-- R310 to R319. CPY and CPY.PROMISE whose descriptor passes its checks enter the issue journal with it, every unit of
the destination still to be written, and make an idle token busy; the promise is a later time. A unit between galleys
leaves the destination's bytes as the copy gives them; a copy with no unit left idles its token. WAITK goes on when the
named tokens are idle. BARX sets the expected count of a barrier, and clears the rest with RST; BARW reads a barrier
that has completed or aborted, and waits for another. -/
def Obligations.CopyAndBarrierResults : Prop :=
  (∀ (h : Hdr) (d a : BitVec 7) (k : BitVec 3) (s : State) (t : Thread) (i : Instr) (dc : CpyDesc),
    i = .cpy h a k ∨ i = .cpyPromise h d a k → Ready i s t → dc = cpyDesc (t.regsFrom a.toNat 8) →
    cpyMalformed (t.regsFrom a.toNat 8) = false →
    t.sup = true ∨ (dc.ssp ≠ 2 ∧ dc.dsp ≠ 2 ∧ dc.kov = false) → s.srcKeyless dc = false → s.dstKeyless dc = false →
    cpyMisaligned dc = none → s.copyBeyond t dc = none → t.tok k.toNat = .idle → (∀ x ∈ s.cpys, x.id < s.nextId) →
    dc.dsp = 1 ∨ s.redBuf = [] →
    ∃ (s' : State) (c : Cpy) (n : Nat), exec i s = .next s' ∧ sameMemory s s' ∧ s'.cpys = s.cpys ++ [c] ∧
      c.id = s.nextId ∧ c.owners = [t.id] ∧ c.tok = k.toNat ∧ c.desc = t.regsFrom a.toNat 8 ∧ c.ctx = t.ctx ∧
      c.left = List.range dc.units.length ∧ c.since = s.time ∧ c.pc = t.pc ∧ s.time < n ∧
      s'.thread? t.id = some ((if i = .cpy h a k then t.setTok k.toNat (.busy s.nextId)
        else (t.setTok k.toNat (.busy s.nextId)).setSreg d.toNat (BitVec.ofNat 64 n)).wentOn (nextPc t.pc h))) ∧
  (∀ (s : State) (c : Cpy) (d : CpyDesc) (u : CopyUnit) (n : Nat) (rest : List Nat) (src dst : Team),
    s.cpys = [c] → c.id = s.arg.a → d = cpyDesc c.desc → c.waiting = false → c.replay = none →
    (s.die (dieOf c.core)).stopped = false → c.left = n :: rest → d.units[n]? = some u → d.ssp = 1 → d.dsp = 1 →
    d.ga = false → d.ben = false → c.owned = [] → s.windowOf c.gang c.team d.src = some src →
    s.windowOf c.gang c.team d.dst = some dst →
    (∀ e ∈ d.needs u, d.src % 2 ^ 23 + e.1 * d.sstride + e.2.1 + e.2.2 ≤ src.galley ∧
      s.galPoisoned src (d.src % 2 ^ 23 + e.1 * d.sstride + e.2.1) e.2.2 = false) →
    s.pressOps = [] → s.earlierLoads c.owners c.id = false →
    (∀ i, i < (d.unitAt u).2 → (dst.place ((d.unitAt u).1 + i)).1 < s.cores.length) →
    (∀ i j, i < (d.unitAt u).2 → j < (d.unitAt u).2 →
      dst.place ((d.unitAt u).1 + i) = dst.place ((d.unitAt u).1 + j) → i = j) →
    (d.bytes (fun r o => s.galByte src (d.src % 2 ^ 23 + r * d.sstride + o)) u).length = (d.unitAt u).2 →
    ∃ (s' : State) (c' : Cpy), exec .copyLineTransfer s = .next s' ∧ sameMemory s s' ∧ s'.cpys = [c'] ∧
      c' = { c with left := rest.filter (· != n), since := s.time, report := c.report.join (Lct.all s.time) } ∧
      ∀ i, i < (d.unitAt u).2 → s'.galByte dst ((d.unitAt u).1 + i) =
        (d.bytes (fun r o => s.galByte src (d.src % 2 ^ 23 + r * d.sstride + o)) u).getD i 0) ∧
  (∀ (s : State) (c : Cpy) (t : Thread), s.cpy? s.arg.a = some c → c.left = [] → c.replay = none →
    s.timesOpen c.id = false →
    s.thread? t.id = some t → t.id ∈ c.owners → t.tok c.tok = .busy c.id →
    ∃ (s' : State), exec .copyComplete s = .next s' ∧ sameMemory s s' ∧ (∀ x ∈ s'.cpys, x.id ≠ c.id) ∧
      s'.thread? t.id = some { t.setTok c.tok .idle with
        lct := ⟨max t.lct.clus c.report.clus, max t.lct.die c.report.die, max t.lct.dev c.report.dev,
          max t.lct.sys c.report.sys⟩ }) ∧
  (∀ (h : Hdr) (m : BitVec 8) (s : State) (t : Thread), Ready (.waitk h m) s t →
    ((∀ k, k < 8 → m.getLsbD k = true → t.tok k = .idle) →
      completes (.waitk h m) s (t.wentOn (nextPc t.pc h))) ∧
    ((∃ k c, k < 8 ∧ m.getLsbD k = true ∧ t.tok k = .busy c) →
      completes (.waitk h m) s { t with park := .poll })) ∧
  (∀ (h : Hdr) (x a : BitVec 7) (r : BitVec 1) (s : State) (t : Thread) (tm : Team) (off v : Nat),
    Ready (.barx h x a r) s t → (t.sreg x.toNat).toNat < 2 ^ 31 → (t.sreg a.toNat).toNat % 8 = 0 →
    s.galleyAt t.gang t.team (t.sreg a.toNat).toNat 8 = some (tm, off) → v = leNat (s.galRead tm off 8) →
    (∀ i, i < 8 → (tm.place (off + i)).1 < s.cores.length) →
    (∀ i j, i < 8 → j < 8 → tm.place (off + i) = tm.place (off + j) → i = j) →
    ∃ (s' : State), exec (.barx h x a r) s = .next s' ∧ sameMemory s s' ∧
      s'.thread? t.id = some (t.wentOn (nextPc t.pc h)) ∧ leNat (s'.galRead tm off 8) =
        (t.sreg x.toNat).toNat * 2 ^ 32 + (if r = 1 then 0 else v / 2 ^ 63 * 2 ^ 63 + v % 2 ^ 31)) ∧
  (∀ (h : Hdr) (d a : BitVec 7) (s : State) (t : Thread) (tm : Team) (off v : Nat),
    Ready (.barw h d a) s t → (t.sreg a.toNat).toNat % 8 = 0 →
    s.galleyAt t.gang t.team (t.sreg a.toNat).toNat 8 = some (tm, off) → v = leNat (s.galRead tm off 8) →
    (v / 2 ^ 63 = 1 → completes (.barw h d a) s ((t.setSreg d.toNat 1).wentOn (nextPc t.pc h))) ∧
    (v / 2 ^ 63 = 0 → v / 2 ^ 32 % 2 ^ 31 ≤ v % 2 ^ 31 →
      completes (.barw h d a) s ((t.setSreg d.toNat 0).wentOn (nextPc t.pc h))) ∧
    (v / 2 ^ 63 = 0 → v % 2 ^ 31 < v / 2 ^ 32 % 2 ^ 31 →
      completes (.barw h d a) s { t with park := .poll }))

/-- R132, R133, R323, R326 to R331. PREG of a good declaration whose regions are usable registers a proof under a free
number, stamped with the present time, and parks for its shootdown; PDROP takes a proof away, and parks likewise; a
shootdown that completes sets SHOOTDONE, drops what it covers from the TLBs, and lets them go on with their status.
PSTAMP reads the stamp of the block at an address, or all ones outside every proof. A recompute installs the block it
has quantised; a service group's installs and ends of requests do as the engine's do. -/
def Obligations.ProofAndShootdownResults : Prop :=
  (∀ (h : Hdr) (d a : BitVec 7) (s : State) (t : Thread) (l : Launch) (hd b : List Byte) (dc : Decl) (n : Nat)
    (master base idx : Nat) (fr fr' : List (Nat × Nat)) (p : Proof), Ready (.preg h d a) s t → s.launch? t.launch = some l →
    idx = (t.sreg a.toNat).toNat → idx < 2 ^ 16 → s.engineRead t.core t.ctx t.sup l.codeVa 32 = (s, .ok hd) →
    idx < leNat ((hd.drop 26).take 2) →
    s.engineRead t.core t.ctx t.sup (l.codeVa + leNat ((hd.drop 28).take 4) + 32 * idx) 32 = (s, .ok b) →
    declMalformed b l.kd.argSize = false → dc = declOf b →
    master = s.loadNat (argPa l.ident + dc.masterArg) (slotOfCtx l.ctx) 8 →
    base = s.loadNat (argPa l.ident + dc.baseArg) (slotOfCtx l.ctx) 8 →
    p = proofOf t dc s.nextId n (homeDie ((lookup fr (pageBase 0 master)).getD 0)) s.time master base fr →
    s.freeProof t.ctx = some n → (s.proofs.filter (fun q => q.ctx == t.ctx && q.master == master)).length < 4 →
    master % 128 = 0 → base % 128 = 0 →
    s.pagesUsable t.core t.ctx t.sup master p.masterSize [accRead, accWrite] = (s, ⟨false, false, fr⟩) →
    s.pagesUsable t.core t.ctx t.sup base p.size [accWrite] = (s, ⟨false, false, fr'⟩) →
    rangesMeet base p.size master p.masterSize = false → s.meetsProof t.ctx base p.size = false →
    s.shootRoom = true →
    ∃ (s' : State) (q : Proof) (seq : Nat), exec (.preg h d a) s = .next s' ∧ q ∈ s'.proofs ∧
      q = { p with triggers := q.triggers } ∧ s'.thread? t.id = some { t with
        park := .shootdown d.toNat (dieOf t.core) seq (BitVec.ofNat 64 n), after := nextPc t.pc h }) ∧
  (∀ (h : Hdr) (d a : BitVec 7) (s : State) (t : Thread), Ready (.pdrop h d a) s t →
    (∀ p, s.proofs.find? (fun p => p.ctx == t.ctx && p.num == (t.sreg a.toNat).toNat && (t.sreg a.toNat).toNat < 64) =
        some p → s.shootRoom = true → dieOf t.core < s.dies.length →
      ∃ (s' : State), exec (.pdrop h d a) s = .next s' ∧ sameMemory s s' ∧
        s'.proofs = s.proofs.filter (fun q => q.id != p.id) ∧
        s'.thread? t.id = some { t with
          park := .shootdown d.toNat (dieOf t.core) ((s.die (dieOf t.core)).shootAcc + 1) 0
          after := nextPc t.pc h } ∧
        ∃ r, (s'.die (dieOf t.core)).shootQ = (s.die (dieOf t.core)).shootQ ++ [r] ∧ r.ctx = p.ctx ∧
          r.base = p.base / 4096 * 4096 ∧ r.seq = (s.die (dieOf t.core)).shootAcc + 1) ∧
    ((∀ p ∈ s.proofs, p.ctx = t.ctx → p.num ≠ (t.sreg a.toNat).toNat) →
      completes (.pdrop h d a) s ((t.setSreg d.toNat (0x01 <<< 56)).wentOn (nextPc t.pc h)))) ∧
  (∀ (h : Hdr) (d a : BitVec 7) (s : State) (t : Thread), Ready (.pstamp h d a) s t →
    (s.proofAt t.ctx (t.sreg a.toNat).toNat 1 = none →
      completes (.pstamp h d a) s ((t.setSreg d.toNat (BitVec.allOnes 64)).wentOn (nextPc t.pc h))) ∧
    (∀ p b, s.proofAt t.ctx (t.sreg a.toNat).toNat 1 = some p → p.faulted = none →
      p.blockAt ((t.sreg a.toNat).toNat - p.base) = some b →
      completes (.pstamp h d a) s ((t.setSreg d.toNat (BitVec.ofNat 64 (Sparse.get p.stamps p.regT b))).wentOn
        (nextPc t.pc h)))) ∧
  (∀ (s : State) (r : Shoot) (rest : List Shoot), (s.die s.arg.a).shootQ = r :: rest → r.ops = none →
    s.outs = [] → s.arg.a < s.dies.length →
    ∃ (s' : State), exec .shootdownComplete s = .next s' ∧ sameMemory s s' ∧
      (s'.die s.arg.a).shootDone = r.seq ∧ (s'.die s.arg.a).shootQ = rest ∧
      (∀ e ∈ s'.tlb, r.covers e.ctx e.va (2 ^ pageBits e.size) = false) ∧
      (∀ e ∈ s'.wcache, r.covers e.ctx e.base (2 ^ levelShift e.level) = false) ∧
      (∀ x, x ∈ s'.held ↔ x ∈ s.held ∧ r.covers x.ctx x.page 4096 = false) ∧
      (∀ t, s.thread? t.id = some t → t.park = .blocked →
        (∀ x ∈ s.held, x.who = t.id → r.covers x.ctx x.page 4096 = true) →
        s'.thread? t.id = some { t with park := .run }) ∧
      ∀ t d st, s.thread? t.id = some t → t.park = .shootdown d s.arg.a r.seq st →
        s'.thread? t.id = some { t.setSreg d st with pc := t.after, park := .run }) ∧
  (∀ (s : State) (x : Die), isSupervisor s.arg.w = true → x = s.die s.arg.a → s.arg.a < s.dies.length →
    (shootRefused (leNat ((s.arg.bytes.drop 4).take 4)) (leNat ((s.arg.bytes.drop 8).take 8))
        (leNat ((s.arg.bytes.drop 16).take 8)) (leNat ((s.arg.bytes.drop 24).take 8)) = true →
      exec .shootdownRequest s = .next (s.setDie s.arg.a { x with shootBad := x.shootBad + 1 })) ∧
    (shootRefused (leNat ((s.arg.bytes.drop 4).take 4)) (leNat ((s.arg.bytes.drop 8).take 8))
        (leNat ((s.arg.bytes.drop 16).take 8)) (leNat ((s.arg.bytes.drop 24).take 8)) = false →
      x.shootQ.length < 16 →
      ∃ (s' : State) (r : Shoot), exec .shootdownRequest s = .next s' ∧ sameMemory s s' ∧
        (s'.die s.arg.a).shootAcc = x.shootAcc + 1 ∧ (s'.die s.arg.a).shootQ = x.shootQ ++ [r] ∧
        r.seq = x.shootAcc + 1 ∧ r.base = leNat ((s.arg.bytes.drop 8).take 8) ∧
        r.pages = leNat ((s.arg.bytes.drop 16).take 8))) ∧
  (∀ (s s₁ s₂ : State) (p : Proof) (tr : Trigger) (trs : List Trigger) (b : Nat) (bs : List Nat) (bytes : List Byte)
    (t : Nat), s.proofs = [p] → p.id = s.arg.a → p.triggers = tr :: trs → tr.blocks = b :: bs → p.faulted = none →
    s.gather p b = (s₁, .ok bytes t) →
    s₁.install p b (p.image b (p.quantise b (max p.regT t) bytes).2.2 (p.quantise b (max p.regT t) bytes).1
      (p.quantise b (max p.regT t) bytes).2.1 (max p.regT t)) (max p.regT t) = (s₂, true) →
    ∃ (s' : State), exec .proofRecompute s = .next s' ∧
      s' = { s₂ with proofs := s₂.proofs.map (fun (q : Proof) =>
        if q.id == p.id then { q with triggers := dropBlock q.triggers b } else q) }) ∧
  (∀ (s s' : State), s.mayAnswer s.arg.w = true → s.pinstall s.arg.bytes = some s' →
    exec .pinstallWrite s = .next s') ∧
  (∀ (s : State) (r : HqRec), s.mayAnswer s.arg.w = true → r.state ≠ 0 →
    (s.core (12 * s.arg.a)).hq.recs.find? (fun r => r.kind == 0x08 && r.tag == s.arg.v.toNat) = some r →
    (s.core (12 * s.arg.a)).hq.overflow = [] →
    ∃ (s' : State), exec .pdoneWrite s = .next s' ∧
      (∀ x ∈ (s'.core (12 * s.arg.a)).hq.recs, ¬ (x.kind = 0x08 ∧ x.tag = s.arg.v.toNat)) ∧
      ∀ q ∈ s'.proofs, q.faulted = none → ∀ tr ∈ q.triggers, ∀ x ∈ tr.tags, some x ≠ r.poster) ∧
  (∀ (s : State) (r : HqRec), s.arg.w = .host → s.standsIn = true → r.state = 0 → 12 * s.arg.a < s.cores.length →
    (s.core (12 * s.arg.a)).hq.recs.find? (fun r => r.kind == 0x08 && r.tag == s.arg.v.toNat) = none →
    (s.core (12 * s.arg.a)).hq.overflow.find? (fun r => r.kind == 0x08 && r.poster.getD 0 % 65536 == s.arg.v.toNat) =
      some r →
    ∃ (s' : State), exec .pdoneWrite s = .next s' ∧ sameMemory s s' ∧ r ∉ (s'.core (12 * s.arg.a)).hq.overflow ∧
      ∀ q ∈ s'.proofs, q.faulted = none → ∀ tr ∈ q.triggers, ∀ x ∈ tr.tags, some x ≠ r.poster)

/-! ## Folios -/

/-- R383, R387, R391 to R398. SUSPEND of a translated address begins the suspension of its group, at the next program
counter; FOLIO_WRITE, when nothing of the group is outstanding and its LCT is reached, first writes the folio under a
new serial and, once all of it is visible, enters it in the directory and takes the group away. RESUME and RESUME.TRY of a live folio that passes its checks restore its group and
write the claim's new sequence with the core; FCOPY first writes a copy under a new serial, and once the copy is visible enters it and
writes the serial to s[d], or code 0x06 where the source is no more; FDROP
writes 0 and the folio is no more in the directory. -/
def Obligations.FolioResults : Prop :=
  (∀ (h : Hdr) (d a : BitVec 7) (s : State) (t : Thread) (va n : Nat), Ready (.suspend h d a) s t →
    va = (t.sreg a.toNat).toNat → va % 128 = 0 → t.peerLate = false → n = s.largestFolio t →
    s.mapped t.ctx accWrite va n → s.directoryUsed < 65536 → (∀ x ∈ s.held, x.who ≠ t.id) →
    exec (.suspend h d a) s = .next (((({ s with
      fcopies := s.fcopies.filter (fun c => c.who != t.id) } : State).tbarWithdraw t.id).unhold t.id).setThread { t with
        susp := some { origin := 0, addr := BitVec.ofNat 64 va
                       frames := (s.partsOf t.ctx accWrite va n).map (fun p => (p.pa, p.len))
                       key := keyFor t.ctx va, pc := nextPc t.pc h, dest := some d.toNat, holder := false
                       journaled := false, journal := [], tags := [], withdrawn := [], serial := 0
                       section_ := false }
        park := t.park.stopped, relDone := false })) ∧
  (∀ (s : State) (t : Thread) (u : Susp), s.thread? s.arg.a = some t → t.susp = some u → s.drained t = true →
    (∀ r ∈ s.redBuf, t.id ∉ r.threads) → u.origin = 0 → t.peerLate = false → u.journaled = true →
    t.lct.sys ≤ s.time → s.writeWaits t u = false →
    (u.serial = 0 → ∃ (s' : State), exec .folioWrite s = .next s' ∧ s'.nextSerial = s.nextSerial + 1 ∧
      s'.folios = s.folios ∧ s'.thread? t.id = some { t with
        susp := some { u with serial := s.nextSerial, section_ := s.writesSection t u } }) ∧
    (u.serial ≠ 0 → s.piecesVisible u.frames
        ((s.folioArgs t u).2.folioSize (s.folioArgs t u).1.section_ (s.folioArgs t u).1.galley) = true →
      ∃ (s' : State), exec .folioWrite s = .next s' ∧ s'.thread? t.id = none ∧
        ∃ e ∈ s'.folios, e.serial = u.serial ∧ e.addr = u.addr ∧ e.ctx = t.ctx ∧ e.f = t.f ∧ e.width = t.width ∧
          e.shadow.pc = u.pc)) ∧
  (∀ (h : Hdr) (d a : BitVec 7) (i : Instr) (try_ : Bool) (s s' : State) (va core core' : Nat) (name : FolioName)
    (f g : FolioSrc) (e : FolioEnt) (cores : Option (List Nat)) (base : Option Nat),
    (i = .resume h d a ∧ try_ = false) ∨ (i = .resumeTry h d a ∧ try_ = true) → CanRun i s →
    s.namesFolio a.toNat va name → s.reads name va folioHead f → s.resumeCheck f va name try_ = .ok e →
    s.resumeTarget e = some (core, cores, base) →
    (∀ c ∈ cores.getD [core], s.halting (dieOf c) = false) → s.reads name va (s.srcNat f 36 4) g →
    s.resumeOn e g core cores = .yes s' core' →
    exec i s = .next ((s'.gangResumed e.shadow.gang base).finish h d.toNat
      (BitVec.ofNat 64 ((e.seq + 1) % 2 ^ 30 * 2 ^ 16 + core'))) ∧
    (∀ x ∈ s'.folios, x.serial ≠ e.serial)) ∧
  (∀ (h : Hdr) (d a : BitVec 7) (b : BitVec 6) (s : State) (va dst total : Nat) (ctx : W32) (f g : FolioSrc)
    (e : FolioEnt), CanRun (.fcopy h d a b) s → s.copyOf va dst = none → (∀ x ∈ s.held, x.who ≠ s.self) → s.namesFolio a.toNat va (.virt ctx) → dst = (s.sreg b.toNat).toNat →
    dst % 128 = 0 → s.reads (.virt ctx) va folioHead f → (s.claimOf f).1 = 1 → s.folioEntry f va = some e →
    total = s.srcNat f 36 4 → s.folioDenied f (.virt ctx) = false → s.srcNat f 117 1 = 0 →
    s.srcNat f 34 1 / 4 % 2 = 0 → s.directoryUsed < 65536 → va + total ≤ dst ∨ dst + total ≤ va →
    s.reads (.virt ctx) va total g → s.mapped ctx accWrite dst total →
    exec (.fcopy h d a b) s = .next ((({ s with fcopies := s.fcopies.filter (fun c => c.who != s.self) } : State).copyFolio
      e g va dst ((s.partsOf ctx accWrite dst total).map (fun p => (p.pa, p.len))) (keyFor ctx dst) total).poll)) ∧
  (∀ (h : Hdr) (d a : BitVec 7) (b : BitVec 6) (s : State) (va : Nat) (name : FolioName) (c : FolioCopy),
    CanRun (.fcopy h d a b) s → s.namesFolio a.toNat va name → (s.sreg b.toNat).toNat % 128 = 0 →
    s.copyOf va (s.sreg b.toNat).toNat = some c → s.piecesVisible c.pieces c.total = true →
    (∀ e, s.folios.find? (fun e => e.serial == c.serial && e.addr.toNat == c.src && e.seq == c.seq) = some e →
      ∃ (s₁ s' : State) (e' : FolioEnt), exec (.fcopy h d a b) s = .next s' ∧
        s' = s₁.finish h d.toNat (BitVec.ofNat 64 c.copy) ∧ s₁.folios = s.folios ++ [e'] ∧ e'.serial = c.copy ∧
        e'.addr = BitVec.ofNat 64 c.dst ∧ e'.pool = false) ∧
    (s.folios.find? (fun e => e.serial == c.serial && e.addr.toNat == c.src && e.seq == c.seq) = none →
      exec (.fcopy h d a b) s = .next (({ s with
        fcopies := s.fcopies.filter (fun x => x.who != s.self) } : State).finish h d.toNat (0x06 <<< 56)))) ∧
  (∀ (h : Hdr) (d a : BitVec 7) (s : State) (va : Nat) (name : FolioName) (f : FolioSrc) (e : FolioEnt),
    CanRun (.fdrop h d a) s → s.namesFolio a.toNat va name → s.reads name va folioHead f → (s.claimOf f).1 = 1 →
    s.folioEntry f va = some e → s.folioDenied f name = false →
    ({ s with folios := s.folios.filter (fun x => x.serial != e.serial) } : State).roomForStranded e.team e.grp = true →
    ∃ (s₁ s' : State), exec (.fdrop h d a) s = .next s' ∧ s' = s₁.finish h d.toNat 0 ∧
      ∀ x ∈ s₁.folios, x.serial ≠ e.serial)

/-! ## Steps of accesses in flight -/

/-- R287, R288, R295, R296, R300, R302, R303, R334 to R337, R341. What stands in the way apart: a returning load writes its
destination words, or its s register, with what a reader sees, extended, and is outstanding no more; an acknowledged
store raises the LCT values to the times it reported; an ATOM or CAS leaves its result at the home and its old value
in its destination; a write that arrives is last in coherence order, and one that is visible to all stands at its
home; a buffered reduction merges; a fill that an outstanding operation asks for installs a copy of the line, under a
lease whose length follows R288 and which moves the horizon, or under the one that the peer sends, and a lease that
ends within the guard is dropped. -/
def Obligations.MemoryStepResults : Prop :=
  (∀ (s : State) (o : Out) (sx : Bool) (t : Thread) (l : LaneAcc) (pa key mt i k : Nat), s.redBuf = [] →
    s.acquiresClear → s.inTime o → s.out? s.arg.a = some o → o.kind = .load sx none → o.lanes.all (s.laneReady o) = true → s.loadOrder o = false →
    s.thread? t.id = some t → t.id ∈ o.owners → l ∈ o.lanes → l.place = .mem pa key mt →
    isHost pa = false → isPeer pa = false → l.dest.Nodup → (∀ l' ∈ o.lanes, k ∈ l'.dest → l' = l) →
    l.dest[i]? = some k → (∀ x ∈ l.dest, t.f ≤ x % 64 ∧ x % 64 < t.f + t.width) →
    ∃ (s' : State) (t' : Thread), exec .loadReturn s = .next s' ∧ s'.out? o.id = none ∧ sameMemory s s' ∧
      s'.thread? t.id = some t' ∧ Sparse.get t'.storePoison false k = false ∧ Sparse.get t'.store 0 k = BitVec.ofNat 32
        (extendLoad sx l.size 32 (leNat (s.readAt o.core (s.histsOf o.owners) pa key mt l.size)) / 2 ^ (32 * i))) ∧
  (∀ (s : State) (o : Out) (sx : Bool) (t : Thread) (l : LaneAcc) (pa key mt n : Nat), s.redBuf = [] →
    s.acquiresClear → s.inTime o → s.out? s.arg.a = some o → o.kind = .load sx (some n) → o.lanes = [l] → s.laneReady o l = true →
    s.loadOrder o = false → s.thread? t.id = some t → t.id ∈ o.owners → l.place = .mem pa key mt →
    isHost pa = false → isPeer pa = false → l.size ≤ 8 →
    (∀ id ∈ o.owners, ∀ u, s.thread? id = some u → s.locked u n = false) →
    ∃ (s' : State) (t' : Thread), exec .loadReturn s = .next s' ∧ s'.out? o.id = none ∧ sameMemory s s' ∧
      s'.thread? t.id = some t' ∧ t'.sreg n = BitVec.ofNat 64
        (extendLoad sx l.size 64 (leNat (s.readAt o.core (s.histsOf o.owners) pa key mt l.size)))) ∧
  (∀ (s : State) (o : Out) (t : Thread), s.out? s.arg.a = some o → o.cls = 1 → (∀ w ∈ s.flight, w.out ≠ o.id) →
    (∀ r ∈ s.redBuf, o.id ∉ r.outs) → s.timesOpen o.id = false → s.acquiresClear → s.thread? t.id = some t →
    t.id ∈ o.owners → ∃ (s' : State) (t' : Thread), exec .storeAck s = .next s' ∧ s'.out? o.id = none ∧ sameMemory s s' ∧
      s'.thread? t.id = some t' ∧ t'.lct = ⟨max t.lct.clus o.report.clus, max t.lct.die o.report.die,
        max t.lct.dev o.report.dev, max t.lct.sys o.report.sys⟩) ∧
  (∀ (s : State) (o : Out) (t : Thread) (l : LaneAcc) (pa key mt old i k : Nat), s.redBuf = [] →
    s.acquiresClear → s.inTime o → s.out? s.arg.a = some o → o.cls = 2 → o.olds = none → o.lanes = [l] →
    l.place = .mem pa key mt → isPeer pa = false → (isHost pa = true → s.arg.bytes.length < l.size) →
    l.size = 4 ∨ l.size = 8 → pa % l.size = 0 → s.earlierLoads o.owners o.id = false →
    s.atomWaits o (lineOf pa) = false → (∀ w ∈ s.flight, w.line ≠ lineOf pa) →
    (∀ p ∈ s.pends (lineOf pa), p.probes = []) → s.timesOpen o.id = false → s.tagReads (lineOf pa) key = true →
    s.thread? t.id = some t → t.id ∈ o.owners → l.dest.Nodup → l.dest[i]? = some k →
    (∀ x ∈ l.dest, t.f ≤ x % 64 ∧ x % 64 < t.f + t.width) → old = s.loadNat pa key l.size →
    ∃ (s' : State) (t' : Thread), exec .atomReply s = .next s' ∧ s'.out? o.id = none ∧ s'.thread? t.id = some t' ∧
      Sparse.get t'.store 0 k = BitVec.ofNat 32 (old / 2 ^ (32 * i)) ∧
      (∀ op, o.kind = .atom op →
        s'.loadNat pa key l.size = atomResult op l.size old l.data % 2 ^ (8 * l.size)) ∧
      (o.kind = .cas → s'.loadNat pa key l.size = if old = l.data then l.data2 % 2 ^ (8 * l.size) else old)) ∧
  (∀ (s : State) (w : Write) (bs : List (Nat × Byte)), s.redBuf = [] →
    s.flight.find? (fun x => x.id == s.arg.a) = some w → s.mayArrive w = true → isPeer w.line = false →
    w.line % 128 = 0 → w.act = .bytes bs → (bs.map (·.1)).Nodup → (∀ e ∈ bs, e.1 < 128) →
    ∃ (s' : State), exec .writeArriveHome s = .next s' ∧ s'.flight = s.flight.filter (fun x => x.id != w.id) ∧
      ∀ e ∈ bs, s'.latest (w.line + e.1) w.key = e.2) ∧
  (∀ (s : State) (line : Nat) (l : LineInfo) (w : Pend) (rest : List Pend), line = s.arg.a → line % 128 = 0 →
    lookup s.lines line = some l → l.pend = w :: rest → (w.bytes.map (·.1)).Nodup → (∀ e ∈ w.bytes, e.1 < 128) →
    (w.cfar ≤ s.time → w.probes = [] → ∃ (s' : State) (l' : LineInfo), exec .writeVisible s = .next s' ∧
      lookup s'.lines line = some l' ∧ l'.pend = rest ∧
      ∀ e ∈ w.bytes, s'.homeByte (line + e.1) (s.tagSlot line) = e.2) ∧
    (s.time < w.cfar ∨ w.probes ≠ [] → exec .writeVisible s = .next s)) ∧
  (∀ (s : State) (r : RedLine) (off op size v : Nat), s.redBuf = [r] → r.core = s.arg.a → r.line = s.arg.b →
    s.mergeable r = true → r.line % 128 = 0 → r.slots = [(off, op, size, v)] → off + size ≤ 128 →
    s.tagReads r.line r.key = true → s.acquiresClear →
    ∃ (s' : State), exec .redMerge s = .next s' ∧ s'.redBuf = [] ∧ s'.loadNat (r.line + off) r.key size =
      atomResult op size (s.loadNat (r.line + off) r.key size) v % 2 ^ (8 * size)) ∧
  (∀ (s : State) (o : Out) (line : Nat), s.redBuf = [] → line = lineOf s.arg.b → s.out? s.arg.a = some o →
    s.mayFill o line →
    (leasedHere o.core line = false → fillsL1 o.cache = true → ∃ (s' : State), exec .lineFill s = .next s' ∧
      sameMemory s s' ∧ s'.present (clusterOf o.core) line = true) ∧
    (leasedHere o.core line = true → isPeer line = false → s.fillable o.core line = true → s.arg.bytes.length ≠ 128 →
      ∃ (s' : State) (c : Copy) (le : Lease) (l l' : LineInfo), exec .lineFill s = .next s' ∧ sameMemory s s' ∧
        c ∈ s'.caches ∧ c.place = rlcOf (dieOf o.core) ∧ c.line = line ∧ c.lease = some le ∧ le.filled = s.time ∧
        le.bytes = (List.range 128).map (fun i =>
          s.seenByte o.core [] line (Sparse.get s.tags (0, 0) line).1 i) ∧
        l = s.lineInfo line ∧ le.ends = s.time + l'.leaseLen ∧ lookup s'.lines line = some l' ∧
        l'.horizon = max l.horizon le.ends ∧ l'.leaseLen = if o.kind = .prefetch then l.leaseLen
          else if l.waited then max 256 (l.leaseLen / 2)
          else if l.lastEnd ≠ 0 ∧ l.lastEnd ≤ s.time then min 16384 (2 * l.leaseLen) else l.leaseLen) ∧
    (isPeer line = true → s.fillable o.core line = true → s.arg.bytes.length = 128 →
      ∃ (s' : State) (c : Copy) (le : Lease), exec .lineFill s = .next s' ∧ sameMemory s s' ∧ s'.lines = s.lines ∧
        c ∈ s'.caches ∧ c.place = rlcOf (dieOf o.core) ∧ c.line = line ∧ c.lease = some le ∧ le.filled = s.time ∧
        le.bytes = s.arg.bytes ∧ le.ends = s.arg.c)) ∧
  (∀ (s : State), ∃ (s' : State), exec .leaseExpiry s = .next s' ∧ sameMemory s s' ∧
    (∀ c ∈ s.caches, ∀ le, c.place = s.arg.a → c.line = s.arg.b → c.lease = some le →
      le.ends ≤ s.time + s.guardOf (dieOfCache c.place) c.line → c ∉ s'.caches) ∧
    ∀ c, c.place ≠ s.arg.a ∨ c.line ≠ s.arg.b → (c ∈ s'.caches ↔ c ∈ s.caches))

/-- R110 to R112, R119 to R123, R126, R127, R131, R323. A hardware walk that ends at a leaf sets A, and D for a write that
may proceed, and installs the translation; one that faults keeps its cause, unless it is a prefetch's; a service
group's answer at WALKANS installs its leaf, or gives it to a mapping check, which installs nothing; a query at ACQUERY
leaves the entry of its region in the result; a fetch block of translated words that a group needs stands in its
partition's buffer, word for word. (Which leaves take D again after their frame changed is the model's choice, log
entry 82.) -/
def Obligations.TranslationStepResults : Prop :=
  (∀ (s : State) (w : Walk), s.walks.find? (fun x => x.id == s.arg.a) = some w → w.svmode = false → w.open_ = true →
    w.use ≠ .check → w.stale = false →
    (∀ v at_ size mask, s.walkOn (dieOf w.core) w.ctx w.va = .leaf v at_ size →
      mask = 256 + (if s.setsD w (tlbOf w.core w.ctx w.va v size) then 512 else 0) →
      ∃ (s' : State), exec .pageWalkEnd s = .next s' ∧ s'.loadNat at_ 0 8 = v ||| mask ∧
        s'.tlbFind w.core w.ctx w.va = some (tlbOf w.core w.ctx w.va (v ||| mask) size) ∧
        ∀ x ∈ s'.walks, x.id ≠ w.id) ∧
    (∀ c, s.walkOn (dieOf w.core) w.ctx w.va = .fault c → ∃ (s' : State), exec .pageWalkEnd s = .next s' ∧ sameMemory s s' ∧
      (w.use = .demand → { w with fault := some (4, c) } ∈ s'.walks) ∧
      (w.use = .prefetch → w.others = [] → ∀ x ∈ s'.walks, x.id ≠ w.id))) ∧
  (∀ (s : State) (r : HqRec) (w : Walk) (word leaf : Nat), s.mayAnswer s.arg.w = true →
    word = leNat (s.arg.bytes.take 8) → leaf = leNat ((s.arg.bytes.drop 8).take 8) →
    s.request (12 * s.arg.a) 0x04 (bits word 0 16) = some r →
    s.walks.find? (fun x => some x.id == r.poster) = some w → w.stale = false → bits word 26 38 = 0 →
    bits word 24 2 < 3 → bits word 16 8 ≤ 2 →
    (s.answerFault w (bits word 16 8) (bits word 24 2) leaf = none → ∃ (s' : State),
      exec .walkansWrite s = .next s' ∧
      (w.use ≠ .check → s'.tlbFind w.core w.ctx w.va = some (tlbOf w.core w.ctx w.va leaf (bits word 24 2)) ∧
        ∀ x ∈ s'.walks, x.id ≠ w.id) ∧
      (w.use = .check → s'.tlb = s.tlb ∧ { w with found := some (leaf, bits word 24 2) } ∈ s'.walks)) ∧
    (∀ f, s.answerFault w (bits word 16 8) (bits word 24 2) leaf = some f → ∃ (s' : State),
      exec .walkansWrite s = .next s' ∧ (w.use ≠ .prefetch → { w with fault := some f } ∈ s'.walks))) ∧
  (∀ (s : State) (ctx : W32) (region : Nat) (x : Die), isSupervisor s.arg.w = true → x = s.die s.arg.a →
    ctx = BitVec.ofNat 32 (leNat (s.arg.bytes.take 4)) → region = leNat ((s.arg.bytes.drop 8).take 8) →
    (∀ c, x.counters.find? (fun c => c.ctx == ctx && c.region == region) = some c →
      exec .acqueryStore s = .next (s.setDie s.arg.a { x with
        acResult := BitVec.ofNat 64 (2 ^ 63 + (if c.notified then 2 ^ 62 else 0) + c.count) })) ∧
    ((∀ c ∈ x.counters, c.ctx ≠ ctx ∨ c.region ≠ region) →
      exec .acqueryStore s = .next (s.setDie s.arg.a { x with acResult := 0 }))) ∧
  (∀ (s : State) (ctx : W32) (f : Nat → Nat × Nat × Nat), ctx = s.arg.v.setWidth 32 → s.redBuf = [] →
    s.wantsBlock s.arg.a s.arg.b ctx s.arg.flag (192 * s.arg.c) = true →
    (∀ i < 48, s.translate s.arg.a ctx s.arg.flag (192 * s.arg.c + 4 * i) accFetch =
        .ok (f i).1 (f i).2.1 (f i).2.2 ∧ s.owned (lineOf (f i).1) = false) →
    ∃ (s' : State) (b : Block), exec .fetchBlockFill s = .next s' ∧ sameMemory s s' ∧
      s'.blockFind s.arg.a s.arg.b ctx s.arg.flag (192 * s.arg.c) = some b ∧
      ∀ n < 16, lookup b.packets n = some ((List.range 3).map (fun j =>
        BitVec.ofNat 32 (leNat ((List.range 4).map (fun i => s.seenByte s.arg.a [] (lineOf (f (3 * n + j)).1)
          (f (3 * n + j)).2.1 ((f (3 * n + j)).1 - lineOf (f (3 * n + j)).1 + i)))))))

/-- R30, R78, R88, R117, R298, R312, R342, R343, R418. A host write that lies in one line is last in its coherence order,
and a host read answers with the bytes a reader outside sees, with those of the management window, or with zeros in
the launch window; a peer's loads of exported frames are answered with data, under a lease where they fill a copy, a
store and an ATOM of one lane with the time they are visible and the ATOM's old value, and a packet executed before,
or that names no exported frame, is not executed (the latter is the model's choice, log entry 84); a peer packet
without a reply after 12 µs traps the lanes that wait for it once the others have their replies, marks a store's
group, or fails its copy (from its last progress on: log entry 90); a storage completion sets PIPEND bit 3, or for a dead context is counted in STDISC. -/
def Obligations.OutsideAccessResults : Prop :=
  (∀ (s : State) (i : Nat) (b : Byte), s.redBuf = [] → s.proofs = [] → s.reachable (lineOf s.arg.a) = true →
    s.homeReady (lineOf s.arg.a) = true → s.arg.a % 128 + s.arg.bytes.length ≤ 128 → s.arg.bytes[i]? = some b →
    ∃ (s' : State), exec .hostWrite s = .next s' ∧
      s'.latest (s.arg.a + i) (s'.outsideKey (lineOf s.arg.a)) = b) ∧
  (∀ (s : State),
    (s.arg.c = 1 → exec .hostRead s = .next { s with hostLog := s.hostLog ++ [.readData (List.replicate s.arg.b 0)] }) ∧
    (s.arg.c ≠ 1 → s.arg.flag = true → s.portRefuses = false → exec .hostRead s = .next { s with
      hostLog := s.hostLog ++ [.readData ((List.range s.arg.b).map (fun i => s.mgmtByte (s.arg.a + i)))] }) ∧
    (s.arg.c ≠ 1 → s.arg.flag = true → s.portRefuses = true → exec .hostRead s = .next { s with
      hostLog := s.hostLog ++ [.status 2] }) ∧
    (s.arg.c ≠ 1 → s.arg.flag = false → s.redBuf = [] →
      (∀ l ∈ linesOfRange s.arg.a s.arg.b, s.reachable l = true ∧ s.homeReady l = true) →
      exec .hostRead s = .next { s with
        hostLog := s.hostLog ++ [.readData (s.outsideRead s.arg.a s.arg.b)] })) ∧
  (∀ (s : State) (p : PeerPacket), p = s.arg.pkt → s.exported p.lanes = none → exec .peerPacketExecute s = .next s) ∧
  (∀ (s : State) (p : PeerPacket) (lanes : List (Nat × Nat × Nat)), p = s.arg.pkt → s.redBuf = [] →
    s.boot.minimal = false → s.exported p.lanes = some lanes →
    (∀ l ∈ lanes, s.reachable (lineOf l.1) = true ∧ s.homeReady (lineOf l.1) = true) →
    ((p.peer, p.seq) ∈ s.peerSeen → exec .peerPacketExecute s = .next s) ∧
    ((p.peer, p.seq) ∉ s.peerSeen → p.kind = 0 → s.arg.flag = false → exec .peerPacketExecute s = .next { s with
      peerSeen := s.peerSeen ++ [(p.peer, p.seq)]
      hostLog := s.hostLog ++ [.peerReply p.peer p.seq
        (lanes.map (fun l => leNat (s.outsideRead l.1 p.size))) s.time 0] }) ∧
    (∀ pa d1 d2 s₂ ends, (p.peer, p.seq) ∉ s.peerSeen → p.kind = 0 → s.arg.flag = true → lanes = [(pa, d1, d2)] →
      s.fillable outside (lineOf pa) = true → s.grantLease (lineOf pa) true = (s₂, ends) →
      exec .peerPacketExecute s = .next { s₂ with
        peerSeen := s₂.peerSeen ++ [(p.peer, p.seq)]
        hostLog := s₂.hostLog ++ [.peerReply p.peer p.seq [leNat (s.outsideRead pa p.size)] s₂.time ends] }) ∧
    (∀ pa d1 d2, (p.peer, p.seq) ∉ s.peerSeen → p.kind = 1 → lanes = [(pa, d1, d2)] → s.proofs = [] →
      pa % 128 + p.size ≤ 128 →
      ∃ (s' : State), exec .peerPacketExecute s = .next s' ∧
        s'.hostLog = s.hostLog ++ [.peerReply p.peer p.seq [] (s'.visibleAt [lineOf pa]) 0] ∧
        ∀ i b, (leBytes p.size d1)[i]? = some b → s'.latest (pa + i) (s'.outsideKey (lineOf pa)) = b) ∧
    (∀ pa d1 d2 key old, (p.peer, p.seq) ∉ s.peerSeen → p.kind = 2 → lanes = [(pa, d1, d2)] → s.proofs = [] →
      p.size = 4 ∨ p.size = 8 → pa % p.size = 0 → key = s.outsideKey (lineOf pa) →
      s.tagReads (lineOf pa) key = true → old = s.loadNat pa key p.size →
      ∃ (s' : State), exec .peerPacketExecute s = .next s' ∧
        s'.hostLog = s.hostLog ++ [.peerReply p.peer p.seq [old] (s'.visibleAt [lineOf pa]) 0] ∧
        s'.loadNat pa key p.size = atomResult p.op.toNat p.size old d1 % 2 ^ (8 * p.size))) ∧
  (∀ (s : State) (o o' : Out) (line : Nat), s.cpy? s.arg.a = none → s.out? s.arg.a = some o → line = lineOf s.arg.b →
    o' = { o with late := o.late ++ [line] } →
    (s.time < o.issued + 12000 ∨ isPeer line = false → exec .peerTimeout s = .next s) ∧
    (o.issued + 12000 ≤ s.time → isPeer line = true → line ∉ o.late → o.cls = 0 ∨ o.cls = 2 → o.olds = none →
      line ∈ o.linesOf → (o.cls = 0 → s.leaseFor o.core line = none) →
      (o'.answered ≠ [] → exec .peerTimeout s = .next { s with outs := s.outs.map (fun (x : Out) =>
        if x.id == o.id then { x with late := x.late ++ [line] } else x) }) ∧
      (∀ t acq, o'.answered = [] → t ∈ s.threads → t.park = .peer o.id acq →
        (∀ u ∈ s.threads, u ≠ t → u.id ∉ o.owners ∧ ∀ q, u.park ≠ .peer o.id q) → t.susp = none →
        0 < (s.core t.core).hq.free → exec .peerTimeout s = .next
          ((({ s with outs := s.outs.filter (fun x => x.id != o.id) } : State).dequeue).trapThread { t with park := .run }
            ⟨vPeerTimeout, 0x80, maskOf (fun l => o.lanes.any (fun p => p.lane == l)), 0, 0⟩ t.pc t.after))) ∧
    (∀ t, o.issued + 12000 ≤ s.time → isPeer line = true → line ∉ o.late → o.cls = 1 →
      (∃ w ∈ s.flight, w.out = o.id ∧ w.line = line) → (∀ id ∈ o.owners, id < laneNumber) → s.acquiresClear →
      s.thread? t.id = some t → t.id ∈ o.owners →
      ∃ (s' : State) (t' : Thread), exec .peerTimeout s = .next s' ∧ sameMemory s s' ∧
        s'.thread? t.id = some t' ∧ t'.peerLate = true)) ∧
  (∀ (s : State) (c : Cpy), s.cpy? s.arg.a = some c → c.since + 12000 ≤ s.time → c.replay = none →
    c.waiting = false → s.copyPeer c = true → exec .peerTimeout s = .next (s.copyFail c vPeerTimeout 0x80 0)) ∧
  (∀ (s : State) (c : Ctx), s.ctx? (s.arg.v.setWidth 32) = some c →
    (c.dead = false → s.arg.a < s.cores.length → ∃ (s' : State), exec .storageCompletion s = .next s' ∧
      sameMemory s s' ∧ (s'.core s.arg.a).proctor.pipend = (s.core s.arg.a).proctor.pipend ||| 8) ∧
    (c.dead = true → exec .storageCompletion s = .next (s.setDie (dieOf s.arg.a) { s.die (dieOf s.arg.a) with
      stDisc := (s.die (dieOf s.arg.a)).stDisc + 1 })))

/-! ## Registers, keys and contexts -/

/-- R10, R13, R22 to R24, R26, R28, R31, R33, R130, R181, R322, R373, R375. A store by one who may write the register
takes its effect, and another's none: FMODE keeps its new value apart until what its die accepted under the old
modes has finished; PWRCAP and PTPBOUND take the values of their ranges; RBASE moves a trapped child's resident range
where R181 allows it; RUN restarts a stopped lane at EPC; MIGLIST, STARTOK and the fused minimum (whose request is
signed or not: a free value, log entry 6) are as their rules say; CPYANS ends a replay; other registers take their
writable fields. (That the first stage's first store begins stage 1 is the model's choice, log entry 55.) -/
def Obligations.RegisterStoreResults : Prop :=
  (∀ (s s₁ : State) (d : Nat), d = s.arg.a → s₁ = (if s.arg.w = .firstStage then s.stageOne else s) →
    (s.mayFmode s.arg.w d = false → exec .fmodeWrite s = .next s) ∧
    (s.mayFmode s.arg.w d = true → (s.die d).fmodeNew ≠ none → exec .fmodeWrite s = .next s₁) ∧
    (s.mayFmode s.arg.w d = true → (s.die d).fmodeNew = none → exec .fmodeWrite s = .next (s₁.setDie d { s.die d with
      fmodeNew := some (s.arg.v.setWidth 32 &&& 0x3F) }))) ∧
  (∀ (s : State) (d : Nat) (v : W32), d = s.arg.a → (s.die d).fmodeNew = some v →
    ((∃ fn < 6, (s.die d).fmode.getLsbD fn ≠ v.getLsbD fn ∧ s.modeBusy d fn = true) →
      exec .fmodeWriteComplete s = .next s) ∧
    ((∀ fn < 6, (s.die d).fmode.getLsbD fn ≠ v.getLsbD fn → s.modeBusy d fn = false) →
      (v.getLsbD 2 = false ∨ (s.die d).fmode.getLsbD 2 = true → exec .fmodeWriteComplete s = .next
        (s.setDie d { s.die d with fmode := v, fmodeNew := none })) ∧
      (v.getLsbD 2 = true → (s.die d).fmode.getLsbD 2 = false → exec .fmodeWriteComplete s = .next
        ((s.setDie d { s.die d with fmode := v, fmodeNew := none }).placeRequests d)))) ∧
  (∀ (s : State), isSupervisor s.arg.w = false → ∀ i ∈ ([.pwrcapWrite, .ptpboundWrite, .miglistWrite, .startokWrite,
    .rbaseWrite, .proctorRunWrite] : List Instr), exec i s = .next s) ∧
  (∀ (s : State), isSupervisor s.arg.w = true →
    (1200 ≤ s.arg.v.toNat % 4096 → s.arg.v.toNat % 4096 ≤ 2600 →
      exec .pwrcapWrite s = .next { s with pwrCap := s.arg.v.toNat % 4096 }) ∧
    (¬ (1200 ≤ s.arg.v.toNat % 4096 ∧ s.arg.v.toNat % 4096 ≤ 2600) → exec .pwrcapWrite s = .next s) ∧
    (50 ≤ s.arg.v.toNat % 2 ^ 32 → s.arg.v.toNat % 2 ^ 32 ≤ 1000000 →
      exec .ptpboundWrite s = .next { s with ptpBound := s.arg.v.toNat % 2 ^ 32 }) ∧
    (¬ (50 ≤ s.arg.v.toNat % 2 ^ 32 ∧ s.arg.v.toNat % 2 ^ 32 ≤ 1000000) → exec .ptpboundWrite s = .next s) ∧
    exec .miglistWrite s = .next (s.setDie s.arg.a { s.die s.arg.a with
      migAddr := leNat (s.arg.bytes.take 8), migCount := leNat ((s.arg.bytes.drop 8).take 8) }) ∧
    (s.arg.v = 1 → s.boot.startok = false → s.boot.minimal = false → exec .startokWrite s = .next { s with
      boot := { s.boot with startok := true, failCount := 0 }, mw := { s.mw with standIn := false } }) ∧
    (s.arg.v ≠ 1 ∨ s.boot.startok = true ∨ s.boot.minimal = true → exec .startokWrite s = .next s)) ∧
  (∀ (s : State) (t : Thread) (v : Nat), isSupervisor s.arg.w = true → s.stackEntry s.arg.a s.arg.b = some t →
    v = s.arg.v.toNat →
    (s.atStackTrap t = true → v % 8 = 0 → v + t.dres ≤ t.lim → v ≤ t.wpNext → t.wpNext + 64 ≤ v + t.dres →
      exec .rbaseWrite s = .next (s.setThread { t with rbase := v })) ∧
    (s.atStackTrap t = false ∨ v % 8 ≠ 0 ∨ t.lim < v + t.dres ∨ t.wpNext < v ∨ v + t.dres < t.wpNext + 64 →
      exec .rbaseWrite s = .next s)) ∧
  (∀ (s : State) (p : Proctor), isSupervisor s.arg.w = true → p = (s.core s.arg.a).proctor →
    (s.arg.v.getLsbD 0 = true → p.run = false → p.started = true → exec .proctorRunWrite s = .next
      (s.setProctor s.arg.a { p with run := true, dbl := false, pc := p.epc, park := .run })) ∧
    (s.arg.v.getLsbD 0 = false ∨ p.run = true → exec .proctorRunWrite s = .next s)) ∧
  (∀ (s : State) (r : HqRec) (c : Cpy), s.mayAnswer s.arg.w = true →
    s.request (12 * s.arg.a) 0x07 (leNat (s.arg.bytes.take 8)) = some r → leNat ((s.arg.bytes.drop 8).take 1) ≤ 1 → leNat ((s.arg.bytes.drop 9).take 7) = 0 →
    s.cpys.find? (fun c => r.poster == some c.id && c.replay.isSome) = some c →
    ∃ (s' : State), exec .cpyansWrite s = .next s' ∧ (∀ x ∈ s'.cpys, x.id ≠ c.id) ∧
      ∀ x ∈ s.cpys, x.id ≠ c.id → x ∈ s'.cpys) ∧
  (∀ (s : State), (isSupervisor s.arg.w = true → s.arg.b = 0x1240 → s.arg.bytes.length = 8 →
      1 ≤ leNat s.arg.bytes % 256 → exec .registerWrite s = .next (s.setDie s.arg.a { s.die s.arg.a with
        droopBnd := leNat s.arg.bytes % 256 })) ∧
    (isSupervisor s.arg.w = true → s.arg.b = 0x240 → s.arg.bytes.length = 8 → 1 ≤ leNat s.arg.bytes % 65536 →
      exec .registerWrite s = .next (s.setDie s.arg.a { s.die s.arg.a with
        acThresh := leNat s.arg.bytes % 65536 })) ∧
    (s.arg.w = .host → s.portRefuses = true → exec .registerWrite s = .next s) ∧
    (s.arg.w = .host → s.portRefuses = false → 0x100000 ≤ s.arg.b → s.arg.b + s.arg.bytes.length ≤ 0x200000 →
      exec .registerWrite s = .next { s with mw := { s.mw with
        staging := Sparse.write s.mw.staging (s.arg.b - 0x100000) s.arg.bytes } }) ∧
    (s.arg.w = .user → exec .registerWrite s = .next s)) ∧
  (∀ (s : State) (v : W32), v = s.arg.v.setWidth 32 →
    (s.boot.proctorsStarted = true → s.boot.fusedMin.ult v = true → exec .fusedMinimumRaise s = .next
      (if Config.raiseSigned v s.arg.bytes then { s with boot := { s.boot with fusedMin := v } } else s)) ∧
    (s.boot.proctorsStarted = false ∨ s.boot.fusedMin.ult v = false → exec .fusedMinimumRaise s = .next s))

/-- R14 to R16, R18, R29, R30, R73 to R77, R152, R292, R417, R418. MEASCMD extends the register that it names, which is
locked after STARTOK below 6; a quote over a nonce is asked for and written; a boot record takes the start's sequence
number; the stand-in claim and the maintenance requests do what R30 says, and are refused outside minimal mode; CTXCTL
creates a context with a key and an incarnation of its slot and sets MEMDEF; KEYSEAL seals and unseals; TEARDOWN makes
a context dead and removes what belongs to it, and its key is erased at the end. -/
def Obligations.SecurityAndContextResults : Prop :=
  (∀ (s s₁ : State) (v : Nat), v = s.arg.v.toNat → s.mayMeasure s.arg.w = true →
    s₁ = (if s.arg.w = .firstStage ∧ 2 ≤ v then s.stageOne else s) →
    (v < 8 → (s.boot.startok = false ∨ 6 ≤ v) → exec .measurementExtend s = .next { s₁ with
      meas := Sparse.set s.meas 0 v
        (digestOf (sha3 (leBytes 64 (s.measReg v).toNat ++ leBytes 64 s.measDig.toNat)))
      measStat := 0 }) ∧
    (v < 6 → s.boot.startok = true → exec .measurementExtend s = .next { s₁ with measStat := 1 }) ∧
    (8 ≤ v → exec .measurementExtend s = .next { s₁ with measStat := 2 })) ∧
  (∀ (s : State) (a : Nat), a = s.arg.v.toNat → s.mayMeasure s.arg.w = true →
    (s.qPending ≠ none → exec .quoteRequest s = .next s) ∧
    (s.qPending = none → a % 64 ≠ 0 → exec .quoteRequest s = .next { s with qStat := 3 }) ∧
    (s.qPending = none → a % 64 = 0 → exec .quoteRequest s = .next { s with
      qStat := 1, qPending := some (a, s.qNonce) })) ∧
  (∀ (s : State),
    (s.arg.v = 1 → s.mw.quoteNonce = none → exec .hostQuoteRequest s = .next { s with
      mw := { s.mw with quoteStat := 1, quoteNonce := some s.mw.nonce } }) ∧
    (s.arg.v ≠ 1 ∨ s.mw.quoteNonce ≠ none → exec .hostQuoteRequest s = .next s)) ∧
  (∀ (s : State) (nonce : BitVec 512),
    (s.mw.quoteNonce = some nonce → s.qPending = none ∨ s.arg.flag = true → ∃ (s' : State),
      exec .quoteComplete s = .next s' ∧ s'.mw.quoteNonce = none ∧ s'.mw.quoteStat = 2 ∧ s'.qPending = s.qPending ∧
      Sparse.read s'.mw.staging 0 5419 = s.quote nonce) ∧
    (∀ a, s.qPending = some (a, nonce) → s.mw.quoteNonce = none ∨ s.arg.flag = false → inMemory a = true →
      ∃ (s' : State), exec .quoteComplete s = .next s' ∧ s'.qPending = none ∧ s'.qStat = 2 ∧
      s'.mw = s.mw ∧ s'.load a 0 5419 = s.quote nonce)) ∧
  (∀ (s s₁ : State) (b : List Byte), b = s.arg.bytes → s.mayMeasure s.arg.w = true → b.length = 64 →
    s₁ = (if s.arg.w = .firstStage then s.stageOne else s) →
    (leNat ((b.drop 6).take 1) ≠ 0 → leNat (b.take 4) = 0x42524B44 → leNat ((b.drop 4).take 2) = 1 →
      s.boot.startok = false → s.boot.reported = false → ∃ (s' : State) (r : List Byte),
      exec .bootrepStore s = .next s' ∧ s'.boot.failed = true ∧ s'.boot.reported = true ∧ r ∈ s'.boot.ring ∧
      r = b.take 8 ++ leBytes 8 s.boot.startSeq.toNat ++ b.drop 16) ∧
    (leNat ((b.drop 6).take 1) = 0 ∨ s.boot.startok = true ∨ s.boot.reported = true →
      exec .bootrepStore s = .next s₁)) ∧
  (∀ (s : State), (s.hostMayClaim = true →
      exec .standInClaim s = .next { s with mw := { s.mw with standIn := true } } ∧
      exec .standInRelease s = .next { s with mw := { s.mw with standIn := false } }) ∧
    (s.hostMayClaim = false → exec .standInClaim s = .next s ∧ exec .standInRelease s = .next s)) ∧
  (∀ (s : State), s.mw.maintStat ≠ 1 →
    (s.boot.minimal = true → s.mw.maintOff.toNat % 4096 = 0 → s.mw.maintLen.toNat % 4096 = 0 →
      s.mw.maintLen.toNat ≤ 0x100000 → inSlots s.mw.maintOff.toNat s.mw.maintLen.toNat = true →
      exec .maintWriteFlash s = .next { s with
        flash := Sparse.write s.flash s.mw.maintOff.toNat (Sparse.read s.mw.staging 0 s.mw.maintLen.toNat)
        mw := { s.mw with maintStat := 1 } }) ∧
    (s.boot.minimal = false → exec .maintWriteFlash s = .next { s with mw := { s.mw with maintStat := 3 } } ∧
      exec .maintResetCounter s = .next { s with mw := { s.mw with maintStat := 3 } }) ∧
    (s.boot.minimal = true → ∃ (s' : State), exec .maintResetCounter s = .next s' ∧ s'.boot.failCount = 1 ∧
      s'.boot.minimal = false ∧ s'.threads = [] ∧ s'.flash = s.flash)) ∧
  (∀ (s : State), s.mw.maintStat = 1 →
    exec .maintenanceRequestDone s = .next { s with mw := { s.mw with maintStat := 2 } }) ∧
  (∀ (s : State) (b : List Byte) (u : Nat → Nat → Nat) (slot inc : Nat), b = s.arg.bytes →
    isSupervisor s.arg.w = true → u = (fun o n => leNat ((b.drop o).take n)) → u 0 1 = 1 → slot = u 4 4 % 4096 →
    createMalformed b = false → slot ≠ 0 → (∀ c ∈ s.ctxs, slotOfCtx c.ident ≠ slot) →
    inc = (match lookup s.keys slot with | some k => k.incarnation | none => 0) → inc < 0xFFFFF →
    s.pageTaken (u 48 2) = false → s.pageTaken (u 50 2) = false → (u 48 2 ≠ u 50 2 ∨ u 48 2 = 0xFFFF) →
    u 40 8 % 4096 = 0 → (∃ d, regionOf (u 40 8) = .hbm d) → u 56 8 = 0 →
    ∃ (s' : State) (c : Ctx) (k : Key), exec .ctxCreate s = .next s' ∧ s'.mem = s.mem ∧ s'.ctxs = s.ctxs ++ [c] ∧
      c.ident = BitVec.ofNat 32 ((inc + 1) * 4096 + slot) ∧ c.dead = false ∧ c.maxPrio = u 1 1 ∧
      c.liveLimit = u 8 4 ∧ c.ringBase = u 16 8 ∧ c.sendStatus = u 24 8 ∧ c.inboxFrame = u 40 8 ∧ c.inbox = [] ∧
      s'.ctxStat = c.ident.setWidth 64 ∧ lookup s'.keys slot = some k ∧ k.held = true ∧ k.incarnation = inc + 1 ∧
      k.epoch = s.newEpoch (inc + 1)) ∧
  (∀ (s : State) (b : List Byte) (c : Ctx), b = s.arg.bytes → isSupervisor s.arg.w = true →
    leNat (b.take 1) = 2 → leNat ((b.drop 1).take 3) = 0 → leNat ((b.drop 8).take 4) = 0 →
    leNat ((b.drop 16).take 48) = 0 → s.ctx? (BitVec.ofNat 32 (leNat ((b.drop 4).take 4))) = some c →
    (∀ c', c.dead = false → c' = { c with
        memdef := memdefWrite c.memdef (BitVec.ofNat 32 (leNat ((b.drop 12).take 4))) (slotOfCtx c.ident) } →
      exec .ctxSetMemdef s = .next { s.setCtx c' with ctxStat := c.ident.setWidth 64 }) ∧
    (c.dead = true → exec .ctxSetMemdef s = .next { s with ctxStat := 0x600000000 })) ∧
  (∀ (s : State) (b : List Byte) (ident : W32) (k : Key) (a : Nat), b = s.arg.bytes →
    s.mayMeasure s.arg.w = true → leNat ((b.drop 4).take 1) = 1 → sealMalformed b = false →
    ident = BitVec.ofNat 32 (leNat (b.take 4)) → s.liveCtx ident = true →
    lookup s.keys (slotOfCtx ident) = some k → a = leNat ((b.drop 8).take 8) → inMemory a = true →
    ∃ (s' : State), exec .keySeal s = .next s' ∧ s'.keySealSt = 0 ∧
      s'.load a 0 64 = s.keyBlob (slotOfCtx ident) k) ∧
  (∀ (s : State) (b : List Byte), b = s.arg.bytes → s.mayMeasure s.arg.w = true →
    leNat ((b.drop 4).take 1) = 2 → sealMalformed b = false →
    (∀ k, s.boot.proctorsStarted = false → lookup s.keys 0 = some k →
      exec .keyUnseal s = .next (match s.unsealBlob 0 (s.load (leNat ((b.drop 8).take 8)) 0 64) with
        | some (key, epoch) => { s with
            keys := put s.keys 0 { k with key := key, epoch := epoch, held := true }, keySealSt := 0 }
        | none => { s with keySealSt := 3 })) ∧
    (s.boot.proctorsStarted = true → exec .keyUnseal s = .next { s with keySealSt := 4 })) ∧
  (∀ (s : State) (ident : W32) (c : Ctx), isSupervisor s.arg.w = true → ident = s.arg.v.setWidth 32 →
    s.arg.v.toNat < 2 ^ 32 → slotOfCtx ident ≠ 0 →
    (1 ≤ s.tdStep → s.tdStep ≤ 6 → exec .teardown s = .next { s with tdWait := s.tdWait ++ [ident] }) ∧
    (s.tdStep = 0 ∨ s.tdStep = 7 → s.ctx? ident = some c → c.dead = false →
      ∃ (s' : State), exec .teardown s = .next s' ∧ s'.tdId = ident ∧ s'.tdStep = 1 ∧
        s'.ctx? ident = some { c with dead := true })) ∧
  (∀ (s : State) (c : Ctx), s.ctx? s.tdId = some c →
    (s.tdStep = 1 → ∃ (s' : State), exec .teardownKeyErase s = .next s' ∧ s'.tdStep = 2 ∧ s'.queuedOf s.tdId = [] ∧
      (∀ l ∈ s'.launches, l ∈ s.launches) ∧ (∀ l ∈ s.launches, l.ctx ≠ s.tdId → l ∈ s'.launches) ∧
      s'.threads = s.threads ∧ ∀ g ∈ s'.gangs, g.state = .requeued → ctxOfLaunch g.launch ≠ s.tdId) ∧
    (s.tdStep = 2 → ∃ (s' : State), exec .teardownKeyErase s = .next s' ∧ s'.tdStep = 3 ∧
      (∀ t ∈ s'.threads, t.ctx ≠ s.tdId) ∧ (∀ l ∈ s'.launches, l.ctx ≠ s.tdId) ∧
      (∀ e ∈ s'.folios, e.ctx ≠ s.tdId) ∧ ∀ w ∈ s'.walks, w.ctx ≠ s.tdId) ∧
    (s.tdStep = 3 → s.redBuf = [] → (∀ w ∈ s.flight, w.key ≠ slotOfCtx s.tdId) →
      exec .teardownKeyErase s = .next { s.setCtx { c with inbox := [], mbPage := none, subPage := none } with
        tdStep := 4 }) ∧
    (s.tdStep = 4 → exec .teardownKeyErase s = .next { s with tdStep := 5 })) ∧
  (∀ (s : State), s.tdStep = 5 → s.redBuf = [] → (∀ w ∈ s.flight, w.key ≠ slotOfCtx s.tdId) → s.tdWait = [] →
    exec .teardownKeyErase s = .next { s with
      keys := s.keys.map (fun e => if e.1 == slotOfCtx s.tdId then (e.1, { e.2 with held := false, key := 0 }) else e)
      ctxs := s.ctxs.filter (fun c => c.ident != s.tdId), tdStep := 7 })

/-! ## The device and its dies -/

/-- R11, R17, R26 to R28, R32, R33, R99, R197, R198, R211, R319, R374, R376. A reset keeps device time, the flash and
what the second tier held unless it may have been lost with the L2, ends every group and empties the dies' memory, and
counts failed starts; a stage that overruns fails; the proctor lanes start with IE clear. Power loss is noted; above
the cap the clock is lowered. A hot die begins to stop, and halts when no group on it is being suspended; a restarted
die runs at its full clock. The skew is kept, and beyond the bound reported. Timer, interrupt and wake of a lane or
group, status updates and soft errors do what their rules say. -/
def Obligations.DeviceStepResults : Prop :=
  (∀ (s : State) (rom : BitVec 512), rom = digestOf (sha3 (leBytes 64 0 ++
      leBytes 64 (Config.romDigest s.boot.fusedMin).toNat)) →
    ∃ (s' : State), exec .deviceReset s = .next s' ∧ s'.time = s.time ∧ s'.flash = s.flash ∧
    s'.threads = [] ∧ s'.outs = [] ∧ s'.flight = [] ∧ s'.launches = [] ∧ s'.pwrCap = 2600 ∧
    (3 ≤ s.boot.failCount.toNat ∨ s.imageReason 0 = none ∨ s.imageReason 1 = none → s'.measReg 0 = rom) ∧
    (∀ slot, s.boot.failCount.toNat < 3 → slot = (if s.imageReason 0 = none then 0 else 1) →
      s.imageReason slot = none → s'.boot.failed = false ∧ s'.boot.slot = slot ∧ s'.measReg 1 = digestOf (sha3
        (leBytes 64 0 ++ leBytes 64 (digestOf (sha3 (Config.imageBody s.flash slot))).toNat))) ∧
    (s.boot.failCount.toNat < 3 → s.imageReason 0 ≠ none → s.imageReason 1 ≠ none →
      s'.boot.failed = true ∧ s'.boot.reported = true ∧ s'.meas = []) ∧ (∀ i, 2 ≤ i → s'.measReg i = 0) ∧
    s'.boot.startSeq = s.boot.startSeq + 1 ∧ s'.boot.startok = false ∧
    (s.boot.failCount.toNat < 3 → s'.boot.minimal = false ∧ s'.boot.failCount = s.boot.failCount + 1) ∧
    (3 ≤ s.boot.failCount.toNat → s'.boot.minimal = true ∧ s'.boot.failCount = s.boot.failCount) ∧
    (∀ pa < 0x6000000000, Sparse.get s'.mem 0 pa = 0) ∧
    ∀ pa d, regionOf pa = .tier2 d → (∀ e ∈ s.dirty, pa < e.1 ∨ e.1 + 128 ≤ pa) →
      (∀ l ∈ s.lines, pa < l.1 ∨ l.1 + 128 ≤ pa) → Sparse.get s'.mem 0 pa = Sparse.get s.mem 0 pa) ∧
  (∀ (s : State) (b : Boot), b = s.boot → b.failed = false → b.minimal = false → b.startok = false → b.startSeq ≠ 0 →
    (b.stageStart + stageLimit b.stage < s.time → ∃ (s' : State), exec .stageLimitExceeded s = .next s' ∧
      s'.boot.failed = true ∧ s'.boot.stage = b.stage) ∧
    (s.time ≤ b.stageStart + stageLimit b.stage → exec .stageLimitExceeded s = .next s)) ∧
  (∀ (s : State),
    (s.boot.stage = 1 → s.boot.firstStageRuns = true → exec .proctorLanesStart s = .next { s with
      boot := { s.boot with proctorsStarted := true, stage := 2, stageStart := s.time }
      cores := s.cores.map (fun (k : Core) => { k with proctor := { k.proctor with
        started := true, run := true, ie := false, pc := s.arg.v, tickT0 := s.time } }) }) ∧
    (s.boot.stage ≠ 1 ∨ s.boot.firstStageRuns = false → exec .proctorLanesStart s = .next s)) ∧
  (∀ (s : State), s.powerLost = none → exec .powerLoss s = .next { s with powerLost := some s.time }) ∧
  (∀ (s : State), (s.arg.a ≤ s.pwrCap → s.clockLow = false →
      exec .powerCapExceeded s = .next { s with pwrIn := s.arg.a % 4096 }) ∧
    (s.arg.a ≤ s.pwrCap → s.clockLow = true → ∃ (s' : State), exec .powerCapExceeded s = .next s' ∧
      sameMemory s s' ∧ s'.clockLow = false ∧ s'.pwrIn = s.arg.a % 4096 ∧ ∀ d < s.dies.length,
        (s.die d).stopping = 0 → (s'.die d).clockMHz = s.fullClock) ∧
    (s.pwrCap < s.arg.a → ∃ (s' : State), exec .powerCapExceeded s = .next s' ∧ sameMemory s s' ∧
      s'.clockLow = true ∧ s'.pwrIn = s.arg.a % 4096 ∧ ∀ d < s.dies.length, (s.die d).stopping = 0 →
        1 ≤ (s'.die d).clockMHz ∧ (s'.die d).clockMHz ≤ max 1 ((s.die d).clockMHz - 1))) ∧
  (∀ (s : State) (d : Nat) (x : Die) (temp : BitVec 12), d = s.arg.a → x = s.die d → temp = s.arg.v.setWidth 12 →
    (temp.toInt < 920 → exec .dieStop s = .next s) ∧
    (920 ≤ temp.toInt → x.stopped = false → x.stopping = 0 → (∀ g ∈ s.gangs, g.state = .live → dieOf g.base ≠ d) →
      exec .dieStop s = .next (s.setDie d { x with stopping := 1, stopTemp := temp, clockMHz := 275 })) ∧
    (x.stopping = 1 → (∃ t ∈ s.threads, dieOf t.core = d ∧ t.susp ≠ none) → exec .dieStopHalt s = .next s) ∧
    (∀ e < 4, x.stopping = 1 → d < s.dies.length → (∀ t ∈ s.threads, dieOf t.core = d → t.susp = none) → e ≠ d →
      (s.die e).stopped = false → (∀ e' < e, e' = d ∨ (s.die e').stopped = true) →
      (∀ p ∈ s.pressOps, p.multiplies = true → ∀ q ∈ p.parts, dieOf q.core ≠ d) →
      exec .dieStopHalt s = .next ((s.setDie d { x with stopping := 2, stopped := true, clockMHz := 0 }).postDevice
        (12 * e) (stoppedPost d x.stopTemp)))) ∧
  (∀ (s : State) (d : Nat), d = s.arg.a → isSupervisor s.arg.w = true → s.arg.v = 0x100 →
    ((s.die d).cool = false → exec .dieRestart s = .next s) ∧
    ((s.die d).stopped = true → (s.die d).cool = true → d < s.dies.length → (∀ t ∈ s.threads, dieOf t.core ≠ d) →
      ∃ (s' : State), exec .dieRestart s = .next s' ∧ sameMemory s s' ∧ s'.threads = s.threads ∧
        (s'.die d).stopped = false ∧ (s'.die d).stopping = 0 ∧ (s'.die d).clockMHz = s.fullClock)) ∧
  (∀ (s : State) (skew : Nat), skew = s.arg.v.toNat % 2 ^ 32 →
    (skew ≤ s.ptpBound → exec .ptpSyncExchange s = .next { s with ptpSkew := skew }) ∧
    (s.ptpBound < skew → skew ≤ s.ptpReported → exec .ptpSyncExchange s = .next { s with ptpSkew := skew }) ∧
    (s.ptpBound < skew → s.ptpReported < skew → exec .ptpSyncExchange s = .next
      (({ s with ptpSkew := skew, ptpReported := skew } : State).postDevice 0
        (devicePost 0x0E 0 none (leBytes 8 skew ++ leBytes 8 s.ptpBound))))) ∧
  (∀ (s : State) (c : Nat) (p : Proctor), c = s.arg.a → p = (s.core c).proctor → p.tickT0 + p.ptick ≤ s.time →
    (p.pipend.getLsbD 0 = false → exec .proctorTimerTick s = .next
      (s.setProctor c { p with tickT0 := p.tickT0 + p.ptick, pipend := p.pipend ||| 1 })) ∧
    (p.pipend.getLsbD 0 = true → exec .proctorTimerTick s = .next
      (s.setProctor c { p with tickT0 := p.tickT0 + p.ptick, ptmiss := min 0xFFFF (p.ptmiss + 1) }))) ∧
  (∀ (s : State) (c : Nat) (k : Core) (p : Proctor), c = s.arg.a → k = s.core c → p = k.proctor → p.run = true →
    p.started = true → p.park = .run →
    (∀ n, takenInput (k.pipend &&& p.pien &&& (if p.ie then 0x3F else 0x20)) = some n →
      exec .proctorInterrupt s = .next (s.setProctor c { p with
        evec := if n = 0 then 0x14 else 0x15
        ecause := if n = 0 then 0 else BitVec.ofNat 16 n
        eaddr := 0, epc := p.pc, ie := false
        pc := p.pvbase + BitVec.ofNat 64 (192 * (if n = 0 then 0x14 else 0x15))
        park := .run, relDone := false, wake := none })) ∧
    (k.pipend &&& p.pien &&& (if p.ie then 0x3F else 0x20) = 0 → exec .proctorInterrupt s = .next s)) ∧
  (∀ (s : State) (t : Thread) (wake : Nat) (k : Option Nat), s.thread? s.arg.a = some t → t.park = .sleep wake k →
    (s.time < wake → k = none → exec .sleepWake s = .next s) ∧
    (wake ≤ s.time → k = none → exec .sleepWake s = .next (s.setThread (t.wentOn (t.pc + 4)))) ∧
    (∀ n, k = some n → t.tok n = .idle → exec .sleepWake s = .next (s.setThread (t.wentOn (t.pc + 4)))) ∧
    (∀ n c, k = some n → t.tok n = .busy c → s.time < wake → exec .sleepWake s = .next s) ∧
    (∀ n c, k = some n → t.tok n = .busy c → wake ≤ s.time → ∃ promise, s.time < promise ∧
      exec .sleepWake s = .next (({ s with fresh := s.fresh + 1 } : State).trapThread { t with park := .run }
        ⟨vPromise, 0x40, t.exec, promise, n⟩ t.pc (t.pc + 4)))) ∧
  (∀ (s : State), s.time < (s.die s.arg.a).plcAt + 10000 → exec .plcstatUpdate s = .next s) ∧
  (∀ (s : State) (i c droop : Nat) (temp : BitVec 12), (s.die s.arg.a).plcAt + 10000 ≤ s.time → i < 12 → c = 12 * s.arg.a + i → c < s.cores.length →
    s.arg.readings[i]? = some (temp, droop) → ∃ (s' : State), exec .plcstatUpdate s = .next s' ∧ sameMemory s s' ∧
      s'.threads = s.threads ∧ (s'.core c).temp = temp ∧ (s'.core c).droop = min 255 droop ∧
      (s'.core c).plcStopped = (s.die s.arg.a).stopped ∧
      (760 < temp.toInt ∨ (s.die s.arg.a).droopBnd < min 255 droop → (s'.core c).avoid = true) ∧
      (temp.toInt < 704 → min 255 droop ≤ (s.die s.arg.a).droopBnd →
        (∀ t, (s.core c).calmSince = some t → t + 200000 ≤ s.time → (s'.core c).avoid = false) ∧
        ((s.core c).calmSince = none → (s'.core c).avoid = (s.core c).avoid))) ∧
  (∀ (s : State) (x : Nat),
    (∀ id t, s.arg.err = .store id x → s.thread? id = some t → ∃ (s' : State) (t' : Thread),
      exec .softError s = .next s' ∧ s'.thread? id = some t' ∧ Sparse.get t'.storePoison false x = true) ∧
    (∀ c, s.arg.err = .galley c x → c < s.cores.length → ∃ (s' : State), exec .softError s = .next s' ∧
      Sparse.get (s'.core c).galPoison false (x / 128) = true) ∧
    (s.arg.err = .l2 x → ∃ (s' : State), exec .softError s = .next s' ∧
      Sparse.get s'.memPoison 0 (lineOf x) = 0x92) ∧
    (s.arg.err = .mem x → homeDie x < s.dies.length → ∃ (s' : State), exec .softError s = .next s' ∧
      Sparse.get s'.memPoison 0 (lineOf x) = 0x93 ∧
      (s'.die (homeDie x)).seUnc = ((s.die (homeDie x)).seUnc + 1) % 2 ^ 64) ∧
    (∀ c, s.arg.err = .forme c x → c < s.cores.length → ∃ (s' : State), exec .softError s = .next s' ∧
      Sparse.get (s'.core c).tilePoison false x = true) ∧
    (∀ p, s.arg.err = .clean p x → ∃ (s' : State), exec .softError s = .next s' ∧ s'.threads = s.threads ∧
      ((s.core (12 * homeDie x)).hq.base = 0 → sameMemory s s') ∧
      ∀ k, k ∈ s'.caches ↔ k ∈ s.caches ∧ ¬(k.place = p ∧ k.line = lineOf x)) ∧
    (s.arg.err = .directory x → s.flight = [] → ∃ (s' : State), exec .softError s = .next s' ∧ sameMemory s s' ∧
      ∀ l ∈ regionLines x, ∀ c ∈ s.dirClusters l, s'.present c l = false) ∧
    (s.arg.err = .horizon x → ∃ (s' : State) (l : LineInfo), exec .softError s = .next s' ∧ sameMemory s s' ∧
      lookup s'.lines (lineOf x) = some l ∧ l.horizon = s.time + 16384) ∧
    (∀ c, s.errorCore s.arg.err = some c → s.boot.stage = 0 → s.boot.firstStageRuns = true →
      ∃ (s' : State), exec .softError s = .next s' ∧ s'.boot.failed = true ∧ s'.boot.reported = true) ∧
    (∀ d, s.arg.err = .corrected d → exec .softError s =
      .next (s.setDie d { s.die d with seCorr := ((s.die d).seCorr + 1) % 2 ^ 64 })))

/-- R361, R372, R373. A die takes the first region that waits: one whose leaves do not allow the move is reported
without it, and one without a frame too; otherwise the last frame of MIGLIST is taken, WBLK is set in all sixteen
leaves and the region is shot down. Once that has completed its lines are copied under the context's key; the leaves,
unchanged, then name the new frame, or the move is abandoned and the frame given back; the report follows the second
shootdown. -/
def Obligations.MigrationResults : Prop :=
  (∀ (s : State) (d : Nat) (x : Die) (ctx : W32) (region core : Nat) (rest : List (W32 × Nat × Nat)), d = s.arg.a →
    x = s.die d → d < s.dies.length → x.migCur = none → x.migWait = (ctx, region, core) :: rest →
    x.shootQ.length < 16 → ∃ (s' : State) (m : Mig), exec .migrationStart s = .next s' ∧
      (s'.die d).migCur = some m ∧ (s'.die d).migWait = rest ∧ m.ctx = ctx ∧ m.region = region ∧ m.core = core ∧
      (s.regionLeaves ctx region = none → m.step = 7 ∧ m.status = 2 ∧ sameMemory s s') ∧
      (∀ ls, s.regionLeaves ctx region = some ls → (∃ i < 16, s.isPinned (oldPage ls i) = true) →
        m.step = 7 ∧ m.status = 2 ∧ sameMemory s s') ∧
      (∀ ls, s.regionLeaves ctx region = some ls → (∀ i < 16, s.isPinned (oldPage ls i) = false) → x.migCount = 0 → m.step = 7 ∧ m.status = 1 ∧ sameMemory s s') ∧
      (∀ ls, s.regionLeaves ctx region = some ls → (∀ i < 16, s.isPinned (oldPage ls i) = false) → x.migCount ≠ 0 →
        m.step = 3 ∧ m.status = 0 ∧
        m.newPa = s.loadNat (x.migAddr + 8 * (x.migCount - 1)) 0 8 ∧ (s'.die d).migCount = x.migCount - 1 ∧
        m.seq = x.shootAcc + 1 ∧ (s'.die d).shootAcc = x.shootAcc + 1 ∧
        ∀ e ∈ ls, bit (s'.loadNat e.1 0 8) 55 = true ∧ unblockLeaf (s'.loadNat e.1 0 8) = unblockLeaf e.2)) ∧
  (∀ (s : State) (d : Nat) (m : Mig), d = s.arg.a → d < s.dies.length → s.migAt d 3 = some m →
    (s.migShot d m = false → exec .migrationCopy s = .next s) ∧
    (s.migShot d m = true → ∃ (s' : State), exec .migrationCopy s = .next s' ∧
      (s'.die d).migCur = some { m with step := 4 })) ∧
  (∀ (s : State) (m : Mig) (n i : Nat), s.redBuf = [] → n < 512 → i < 128 → m.newPa % 65536 = 0 →
    (s.migrateLine m [] n).latest (m.newPa + 128 * n + i) (keyFor m.ctx m.region) =
      s.latest (oldPage m.leaves (n / 32) + 128 * (n % 32) + i) (keyFor m.ctx m.region)) ∧
  (∀ (s : State) (d : Nat) (m : Mig), d = s.arg.a → d < s.dies.length → s.migAt d 4 = some m →
    (s.die d).shootQ.length < 16 →
    ((∀ e ∈ m.leaves, s.loadNat e.1 0 8 = e.2) → ∃ (s' : State) (m' : Mig), exec .migrationRemap s = .next s' ∧
      (s'.die d).migCur = some m' ∧ m' = { m with
        step := 6
        seq := (s.die d).shootAcc + 1
        status := 0 } ∧ (s'.die d).shootAcc = (s.die d).shootAcc + 1) ∧
    ((∃ e ∈ m.leaves, s.loadNat e.1 0 8 ≠ e.2) → ∃ (s' : State) (m' : Mig), exec .migrationRemap s = .next s' ∧
      (s'.die d).migCur = some m' ∧ m'.step = 6 ∧ m'.status = 3 ∧ m'.newPa = 0 ∧
      (s'.die d).migCount = (s.die d).migCount + 1)) ∧
  (∀ (s : State) (d : Nat) (m : Mig), d = s.arg.a → (s.die d).migCur = some m →
    (m.step = 7 ∨ (m.step = 6 ∧ s.migShot d m = true) → exec .migrationReport s = .next
      ((s.setDie d { s.die d with migCur := none }).postDevice m.core (migReport m))) ∧
    (m.step ≠ 7 → m.step ≠ 6 ∨ s.migShot d m = false → exec .migrationReport s = .next s))
end

