-- ==== Sys2Proof/Laws/Sparse.lean ====
section
/-! SUPPORT. Sparse maps: what a read gives after a write, and that every write keeps the canonical
form. -/

namespace Sys2Proof.Machine

variable {α : Type}

@[simp] theorem Sparse.get_nil (d : α) (k : Nat) : Sparse.get ([] : Sparse α) d k = d := rfl

theorem Sparse.get_cons (d : α) (k a : Nat) (v : α) (m : Sparse α) :
    Sparse.get ((a, v) :: m) d k = if a = k then v else Sparse.get m d k := rfl

/-- Leaving keys out: those read as the default, the others as before. -/
theorem Sparse.get_filter (m : Sparse α) (d : α) (p : Nat → Bool) (k : Nat) :
    Sparse.get (m.filter (fun e => p e.1)) d k = if p k then Sparse.get m d k else d := by
  induction m with
  | nil => simp
  | cons x m ih =>
    obtain ⟨a, w⟩ := x
    by_cases hp : p a
    · rw [List.filter_cons_of_pos (by simpa using hp), Sparse.get_cons, Sparse.get_cons, ih]
      by_cases hk : a = k
      · subst hk; simp [hp]
      · simp [hk]
    · rw [List.filter_cons_of_neg (by simpa using hp), ih, Sparse.get_cons]
      by_cases hk : a = k
      · subst hk; simp [hp]
      · simp [hk]

/-- An inserted entry is found unless the map has an entry of its key already. -/
theorem Sparse.get_insert (m : Sparse α) (d : α) (k j : Nat) (v : α) (h : ∀ e ∈ m, e.1 ≠ k) :
    Sparse.get (Sparse.insert m k v) d j = if k = j then v else Sparse.get m d j := by
  induction m with
  | nil => rfl
  | cons x m ih =>
    obtain ⟨a, w⟩ := x
    have ih := ih (fun e he => h e (List.mem_cons_of_mem _ he))
    have ha : a ≠ k := h (a, w) (List.mem_cons_self ..)
    simp only [Sparse.insert]
    split
    · rw [Sparse.get_cons]
    · rw [Sparse.get_cons, ih, Sparse.get_cons]
      by_cases h1 : a = j
      · subst h1; simp [Ne.symm ha]
      · simp [h1]

variable [DecidableEq α]

/-- A read after a write: the value written at its key, every other key as before. -/
theorem Sparse.get_set (m : Sparse α) (d : α) (k j : Nat) (v : α) :
    Sparse.get (Sparse.set m d k v) d j = if j = k then v else Sparse.get m d j := by
  unfold Sparse.set
  dsimp only
  split
  · rename_i hv
    rw [Sparse.get_filter m d (fun e => e != k)]
    by_cases h : j = k <;> simp [h, hv]
  · rw [Sparse.get_insert _ _ _ _ _ (fun e he => by simpa using (List.mem_filter.1 he).2),
      Sparse.get_filter m d (fun e => e != k)]
    by_cases h : j = k
    · simp [h]
    · simp [h, Ne.symm h]

/-- The key written reads as the value written. -/
@[simp] theorem Sparse.get_set_self (m : Sparse α) (d : α) (k : Nat) (v : α) :
    Sparse.get (Sparse.set m d k v) d k = v := by
  rw [Sparse.get_set, if_pos rfl]

/-- Every other key reads as before. -/
theorem Sparse.get_set_other (m : Sparse α) (d : α) (k j : Nat) (v : α) (h : j ≠ k) :
    Sparse.get (Sparse.set m d k v) d j = Sparse.get m d j := by
  rw [Sparse.get_set, if_neg h]

omit [DecidableEq α] in
/-- A map without the keys that p holds of: those read as the default, the others as before. -/
theorem Sparse.get_drop (m : Sparse α) (d : α) (p : Nat → Bool) (k : Nat) :
    Sparse.get (Sparse.drop m p) d k = if p k then d else Sparse.get m d k := by
  unfold Sparse.drop
  rw [Sparse.get_filter m d (fun e => !p e)]
  cases p k <;> rfl

/-- What the canonical form says of a map with a first entry. -/
theorem Sparse.wf_cons (d : α) (k : Nat) (v : α) (m : Sparse α) :
    Sparse.wf d ((k, v) :: m) = true ↔ v ≠ d ∧ (∀ e ∈ m, k < e.1) ∧ Sparse.wf d m = true := by
  simp [Sparse.wf, and_assoc]

omit [DecidableEq α] in
/-- The entries of a map after an insertion. -/
theorem Sparse.mem_insert (m : Sparse α) (k : Nat) (v : α) (e : Nat × α)
    (h : e ∈ Sparse.insert m k v) : e ∈ m ∨ e = (k, v) := by
  induction m with
  | nil => exact .inr (by simpa [Sparse.insert] using h)
  | cons x m ih =>
    obtain ⟨a, w⟩ := x
    simp only [Sparse.insert] at h
    split at h
    · rcases List.mem_cons.1 h with h | h
      · exact .inr h
      · exact .inl h
    · rcases List.mem_cons.1 h with rfl | h
      · exact .inl (List.mem_cons_self ..)
      · rcases ih h with h | h
        · exact .inl (List.mem_cons_of_mem _ h)
        · exact .inr h

/-- Leaving entries out keeps the canonical form. -/
theorem Sparse.wf_filter (m : Sparse α) (d : α) (p : Nat × α → Bool) (h : Sparse.wf d m = true) :
    Sparse.wf d (m.filter p) = true := by
  induction m with
  | nil => rfl
  | cons x m ih =>
    obtain ⟨a, w⟩ := x
    rw [Sparse.wf_cons] at h
    obtain ⟨hw, hlt, hm⟩ := h
    by_cases hp : p (a, w)
    · rw [List.filter_cons_of_pos hp]
      exact (Sparse.wf_cons ..).2 ⟨hw, fun e he => hlt e (List.mem_filter.1 he).1, ih hm⟩
    · rw [List.filter_cons_of_neg hp]
      exact ih hm

/-- An insertion of a new key keeps the canonical form. -/
theorem Sparse.wf_insert (m : Sparse α) (d : α) (k : Nat) (v : α) (h : Sparse.wf d m = true)
    (hv : v ≠ d) (hk : ∀ e ∈ m, e.1 ≠ k) : Sparse.wf d (Sparse.insert m k v) = true := by
  induction m with
  | nil => simp [Sparse.insert, Sparse.wf, hv]
  | cons x m ih =>
    obtain ⟨a, w⟩ := x
    have h0 := h
    rw [Sparse.wf_cons] at h
    obtain ⟨hw, hlt, hm⟩ := h
    have ha : a ≠ k := hk (a, w) (List.mem_cons_self ..)
    simp only [Sparse.insert]
    split
    · rename_i h1
      refine (Sparse.wf_cons ..).2 ⟨hv, fun e he => ?_, h0⟩
      rcases List.mem_cons.1 he with rfl | he
      · exact h1
      · have := hlt e he; omega
    · rename_i h1
      refine (Sparse.wf_cons ..).2 ⟨hw, fun e he => ?_,
        ih hm (fun e he => hk e (List.mem_cons_of_mem _ he))⟩
      rcases Sparse.mem_insert m k v e he with he | rfl
      · exact hlt e he
      · show a < k; omega

/-- A write keeps the canonical form. -/
theorem Sparse.wf_set (m : Sparse α) (d : α) (k : Nat) (v : α) (h : Sparse.wf d m = true) :
    Sparse.wf d (Sparse.set m d k v) = true := by
  unfold Sparse.set
  dsimp only
  split
  · exact Sparse.wf_filter m d _ h
  · rename_i hv
    exact Sparse.wf_insert _ d k v (Sparse.wf_filter m d _ h) hv
      (fun e he => by simpa using (List.mem_filter.1 he).2)

/-- Dropping keys keeps the canonical form. -/
theorem Sparse.wf_drop (m : Sparse α) (d : α) (p : Nat → Bool) (h : Sparse.wf d m = true) :
    Sparse.wf d (Sparse.drop m p) = true := Sparse.wf_filter m d _ h

/-- Bytes written one after another keep the canonical form. -/
theorem Sparse.wf_write (m : Sparse Byte) (k : Nat) (bs : List Byte) (h : Sparse.wf 0 m = true) :
    Sparse.wf 0 (Sparse.write m k bs) = true := by
  induction bs generalizing m k with
  | nil => exact h
  | cons b bs ih => exact ih _ _ (Sparse.wf_set m 0 k b h)

/-- A fold of writes keeps the canonical form. -/
theorem Sparse.wf_foldl {β : Type} (d : α) (f : Sparse α → β → Sparse α) (l : List β)
    (hf : ∀ m x, Sparse.wf d m = true → Sparse.wf d (f m x) = true) (m : Sparse α)
    (h : Sparse.wf d m = true) : Sparse.wf d (l.foldl f m) = true := by
  induction l generalizing m with
  | nil => exact h
  | cons x l ih => exact ih _ (hf m x h)

end Sys2Proof.Machine
end

