-- ==== Sys2Proof/Laws/State.lean ====
section
/-! SUPPORT. What each update of the state and of a thread leaves of every other field, so that no
proof has to unfold a record update. -/

namespace Sys2Proof.Machine

section
variable (s : State) (t : Thread)
@[simp] theorem setThread_time : (s.setThread t).time = s.time := rfl
@[simp] theorem setThread_agenda : (s.setThread t).agenda = s.agenda := rfl
@[simp] theorem setThread_arg : (s.setThread t).arg = s.arg := rfl
@[simp] theorem setThread_turns : (s.setThread t).turns = s.turns := rfl
@[simp] theorem setThread_dts : (s.setThread t).dts = s.dts := rfl
@[simp] theorem setThread_rr : (s.setThread t).rr = s.rr := rfl
@[simp] theorem setThread_cur : (s.setThread t).cur = s.cur := rfl
@[simp] theorem setThread_nextId : (s.setThread t).nextId = s.nextId := rfl
@[simp] theorem setThread_fresh : (s.setThread t).fresh = s.fresh := rfl
@[simp] theorem setThread_boot : (s.setThread t).boot = s.boot := rfl
@[simp] theorem setThread_flash : (s.setThread t).flash = s.flash := rfl
@[simp] theorem setThread_meas : (s.setThread t).meas = s.meas := rfl
@[simp] theorem setThread_measDig : (s.setThread t).measDig = s.measDig := rfl
@[simp] theorem setThread_measStat : (s.setThread t).measStat = s.measStat := rfl
@[simp] theorem setThread_qNonce : (s.setThread t).qNonce = s.qNonce := rfl
@[simp] theorem setThread_qStat : (s.setThread t).qStat = s.qStat := rfl
@[simp] theorem setThread_qPending : (s.setThread t).qPending = s.qPending := rfl
@[simp] theorem setThread_mw : (s.setThread t).mw = s.mw := rfl
@[simp] theorem setThread_pwrCap : (s.setThread t).pwrCap = s.pwrCap := rfl
@[simp] theorem setThread_pwrIn : (s.setThread t).pwrIn = s.pwrIn := rfl
@[simp] theorem setThread_clockLow : (s.setThread t).clockLow = s.clockLow := rfl
@[simp] theorem setThread_powerLost : (s.setThread t).powerLost = s.powerLost := rfl
@[simp] theorem setThread_ptpBound : (s.setThread t).ptpBound = s.ptpBound := rfl
@[simp] theorem setThread_ptpSkew : (s.setThread t).ptpSkew = s.ptpSkew := rfl
@[simp] theorem setThread_ptpReported : (s.setThread t).ptpReported = s.ptpReported := rfl
@[simp] theorem setThread_keySealSt : (s.setThread t).keySealSt = s.keySealSt := rfl
@[simp] theorem setThread_keys : (s.setThread t).keys = s.keys := rfl
@[simp] theorem setThread_ctxRoot : (s.setThread t).ctxRoot = s.ctxRoot := rfl
@[simp] theorem setThread_ctxStat : (s.setThread t).ctxStat = s.ctxStat := rfl
@[simp] theorem setThread_tdId : (s.setThread t).tdId = s.tdId := rfl
@[simp] theorem setThread_tdStep : (s.setThread t).tdStep = s.tdStep := rfl
@[simp] theorem setThread_tdWait : (s.setThread t).tdWait = s.tdWait := rfl
@[simp] theorem setThread_ctxs : (s.setThread t).ctxs = s.ctxs := rfl
@[simp] theorem setThread_dies : (s.setThread t).dies = s.dies := rfl
@[simp] theorem setThread_cores : (s.setThread t).cores = s.cores := rfl
@[simp] theorem setThread_grants : (s.setThread t).grants = s.grants := rfl
@[simp] theorem setThread_teams : (s.setThread t).teams = s.teams := rfl
@[simp] theorem setThread_gangs : (s.setThread t).gangs = s.gangs := rfl
@[simp] theorem setThread_launches : (s.setThread t).launches = s.launches := rfl
@[simp] theorem setThread_reserves : (s.setThread t).reserves = s.reserves := rfl
@[simp] theorem setThread_outs : (s.setThread t).outs = s.outs := rfl
@[simp] theorem setThread_flight : (s.setThread t).flight = s.flight := rfl
@[simp] theorem setThread_lines : (s.setThread t).lines = s.lines := rfl
@[simp] theorem setThread_caches : (s.setThread t).caches = s.caches := rfl
@[simp] theorem setThread_dirs : (s.setThread t).dirs = s.dirs := rfl
@[simp] theorem setThread_redBuf : (s.setThread t).redBuf = s.redBuf := rfl
@[simp] theorem setThread_mem : (s.setThread t).mem = s.mem := rfl
@[simp] theorem setThread_tags : (s.setThread t).tags = s.tags := rfl
@[simp] theorem setThread_memPoison : (s.setThread t).memPoison = s.memPoison := rfl
@[simp] theorem setThread_dirty : (s.setThread t).dirty = s.dirty := rfl
@[simp] theorem setThread_tlb : (s.setThread t).tlb = s.tlb := rfl
@[simp] theorem setThread_walks : (s.setThread t).walks = s.walks := rfl
@[simp] theorem setThread_held : (s.setThread t).held = s.held := rfl
@[simp] theorem setThread_wcache : (s.setThread t).wcache = s.wcache := rfl
@[simp] theorem setThread_blocks : (s.setThread t).blocks = s.blocks := rfl
@[simp] theorem setThread_cpys : (s.setThread t).cpys = s.cpys := rfl
@[simp] theorem setThread_pressOps : (s.setThread t).pressOps = s.pressOps := rfl
@[simp] theorem setThread_proofs : (s.setThread t).proofs = s.proofs := rfl
@[simp] theorem setThread_folios : (s.setThread t).folios = s.folios := rfl
@[simp] theorem setThread_fcopies : (s.setThread t).fcopies = s.fcopies := rfl
@[simp] theorem setThread_nextSerial : (s.setThread t).nextSerial = s.nextSerial := rfl
@[simp] theorem setThread_peerSeen : (s.setThread t).peerSeen = s.peerSeen := rfl
@[simp] theorem setThread_exports : (s.setThread t).exports = s.exports := rfl
@[simp] theorem setThread_peerNext : (s.setThread t).peerNext = s.peerNext := rfl
@[simp] theorem setThread_hostLog : (s.setThread t).hostLog = s.hostLog := rfl
@[simp] theorem setThread_hostTime : (s.setThread t).hostTime = s.hostTime := rfl
end

section
variable (s : State) (c : Nat) (k : Core)
@[simp] theorem setCore_time : (s.setCore c k).time = s.time := rfl
@[simp] theorem setCore_agenda : (s.setCore c k).agenda = s.agenda := rfl
@[simp] theorem setCore_arg : (s.setCore c k).arg = s.arg := rfl
@[simp] theorem setCore_turns : (s.setCore c k).turns = s.turns := rfl
@[simp] theorem setCore_dts : (s.setCore c k).dts = s.dts := rfl
@[simp] theorem setCore_rr : (s.setCore c k).rr = s.rr := rfl
@[simp] theorem setCore_cur : (s.setCore c k).cur = s.cur := rfl
@[simp] theorem setCore_nextId : (s.setCore c k).nextId = s.nextId := rfl
@[simp] theorem setCore_fresh : (s.setCore c k).fresh = s.fresh := rfl
@[simp] theorem setCore_boot : (s.setCore c k).boot = s.boot := rfl
@[simp] theorem setCore_flash : (s.setCore c k).flash = s.flash := rfl
@[simp] theorem setCore_meas : (s.setCore c k).meas = s.meas := rfl
@[simp] theorem setCore_measDig : (s.setCore c k).measDig = s.measDig := rfl
@[simp] theorem setCore_measStat : (s.setCore c k).measStat = s.measStat := rfl
@[simp] theorem setCore_qNonce : (s.setCore c k).qNonce = s.qNonce := rfl
@[simp] theorem setCore_qStat : (s.setCore c k).qStat = s.qStat := rfl
@[simp] theorem setCore_qPending : (s.setCore c k).qPending = s.qPending := rfl
@[simp] theorem setCore_mw : (s.setCore c k).mw = s.mw := rfl
@[simp] theorem setCore_pwrCap : (s.setCore c k).pwrCap = s.pwrCap := rfl
@[simp] theorem setCore_pwrIn : (s.setCore c k).pwrIn = s.pwrIn := rfl
@[simp] theorem setCore_clockLow : (s.setCore c k).clockLow = s.clockLow := rfl
@[simp] theorem setCore_powerLost : (s.setCore c k).powerLost = s.powerLost := rfl
@[simp] theorem setCore_ptpBound : (s.setCore c k).ptpBound = s.ptpBound := rfl
@[simp] theorem setCore_ptpSkew : (s.setCore c k).ptpSkew = s.ptpSkew := rfl
@[simp] theorem setCore_ptpReported : (s.setCore c k).ptpReported = s.ptpReported := rfl
@[simp] theorem setCore_keySealSt : (s.setCore c k).keySealSt = s.keySealSt := rfl
@[simp] theorem setCore_keys : (s.setCore c k).keys = s.keys := rfl
@[simp] theorem setCore_ctxRoot : (s.setCore c k).ctxRoot = s.ctxRoot := rfl
@[simp] theorem setCore_ctxStat : (s.setCore c k).ctxStat = s.ctxStat := rfl
@[simp] theorem setCore_tdId : (s.setCore c k).tdId = s.tdId := rfl
@[simp] theorem setCore_tdStep : (s.setCore c k).tdStep = s.tdStep := rfl
@[simp] theorem setCore_tdWait : (s.setCore c k).tdWait = s.tdWait := rfl
@[simp] theorem setCore_ctxs : (s.setCore c k).ctxs = s.ctxs := rfl
@[simp] theorem setCore_dies : (s.setCore c k).dies = s.dies := rfl
@[simp] theorem setCore_threads : (s.setCore c k).threads = s.threads := rfl
@[simp] theorem setCore_grants : (s.setCore c k).grants = s.grants := rfl
@[simp] theorem setCore_teams : (s.setCore c k).teams = s.teams := rfl
@[simp] theorem setCore_gangs : (s.setCore c k).gangs = s.gangs := rfl
@[simp] theorem setCore_launches : (s.setCore c k).launches = s.launches := rfl
@[simp] theorem setCore_reserves : (s.setCore c k).reserves = s.reserves := rfl
@[simp] theorem setCore_outs : (s.setCore c k).outs = s.outs := rfl
@[simp] theorem setCore_flight : (s.setCore c k).flight = s.flight := rfl
@[simp] theorem setCore_lines : (s.setCore c k).lines = s.lines := rfl
@[simp] theorem setCore_caches : (s.setCore c k).caches = s.caches := rfl
@[simp] theorem setCore_dirs : (s.setCore c k).dirs = s.dirs := rfl
@[simp] theorem setCore_redBuf : (s.setCore c k).redBuf = s.redBuf := rfl
@[simp] theorem setCore_mem : (s.setCore c k).mem = s.mem := rfl
@[simp] theorem setCore_tags : (s.setCore c k).tags = s.tags := rfl
@[simp] theorem setCore_memPoison : (s.setCore c k).memPoison = s.memPoison := rfl
@[simp] theorem setCore_dirty : (s.setCore c k).dirty = s.dirty := rfl
@[simp] theorem setCore_tlb : (s.setCore c k).tlb = s.tlb := rfl
@[simp] theorem setCore_walks : (s.setCore c k).walks = s.walks := rfl
@[simp] theorem setCore_held : (s.setCore c k).held = s.held := rfl
@[simp] theorem setCore_wcache : (s.setCore c k).wcache = s.wcache := rfl
@[simp] theorem setCore_blocks : (s.setCore c k).blocks = s.blocks := rfl
@[simp] theorem setCore_cpys : (s.setCore c k).cpys = s.cpys := rfl
@[simp] theorem setCore_pressOps : (s.setCore c k).pressOps = s.pressOps := rfl
@[simp] theorem setCore_proofs : (s.setCore c k).proofs = s.proofs := rfl
@[simp] theorem setCore_folios : (s.setCore c k).folios = s.folios := rfl
@[simp] theorem setCore_fcopies : (s.setCore c k).fcopies = s.fcopies := rfl
@[simp] theorem setCore_nextSerial : (s.setCore c k).nextSerial = s.nextSerial := rfl
@[simp] theorem setCore_peerSeen : (s.setCore c k).peerSeen = s.peerSeen := rfl
@[simp] theorem setCore_exports : (s.setCore c k).exports = s.exports := rfl
@[simp] theorem setCore_peerNext : (s.setCore c k).peerNext = s.peerNext := rfl
@[simp] theorem setCore_hostLog : (s.setCore c k).hostLog = s.hostLog := rfl
@[simp] theorem setCore_hostTime : (s.setCore c k).hostTime = s.hostTime := rfl
end

section
variable (s : State) (c : Nat) (p : Proctor)
@[simp] theorem setProctor_time : (s.setProctor c p).time = s.time := rfl
@[simp] theorem setProctor_agenda : (s.setProctor c p).agenda = s.agenda := rfl
@[simp] theorem setProctor_arg : (s.setProctor c p).arg = s.arg := rfl
@[simp] theorem setProctor_turns : (s.setProctor c p).turns = s.turns := rfl
@[simp] theorem setProctor_dts : (s.setProctor c p).dts = s.dts := rfl
@[simp] theorem setProctor_rr : (s.setProctor c p).rr = s.rr := rfl
@[simp] theorem setProctor_cur : (s.setProctor c p).cur = s.cur := rfl
@[simp] theorem setProctor_nextId : (s.setProctor c p).nextId = s.nextId := rfl
@[simp] theorem setProctor_fresh : (s.setProctor c p).fresh = s.fresh := rfl
@[simp] theorem setProctor_boot : (s.setProctor c p).boot = s.boot := rfl
@[simp] theorem setProctor_flash : (s.setProctor c p).flash = s.flash := rfl
@[simp] theorem setProctor_meas : (s.setProctor c p).meas = s.meas := rfl
@[simp] theorem setProctor_measDig : (s.setProctor c p).measDig = s.measDig := rfl
@[simp] theorem setProctor_measStat : (s.setProctor c p).measStat = s.measStat := rfl
@[simp] theorem setProctor_qNonce : (s.setProctor c p).qNonce = s.qNonce := rfl
@[simp] theorem setProctor_qStat : (s.setProctor c p).qStat = s.qStat := rfl
@[simp] theorem setProctor_qPending : (s.setProctor c p).qPending = s.qPending := rfl
@[simp] theorem setProctor_mw : (s.setProctor c p).mw = s.mw := rfl
@[simp] theorem setProctor_pwrCap : (s.setProctor c p).pwrCap = s.pwrCap := rfl
@[simp] theorem setProctor_pwrIn : (s.setProctor c p).pwrIn = s.pwrIn := rfl
@[simp] theorem setProctor_clockLow : (s.setProctor c p).clockLow = s.clockLow := rfl
@[simp] theorem setProctor_powerLost : (s.setProctor c p).powerLost = s.powerLost := rfl
@[simp] theorem setProctor_ptpBound : (s.setProctor c p).ptpBound = s.ptpBound := rfl
@[simp] theorem setProctor_ptpSkew : (s.setProctor c p).ptpSkew = s.ptpSkew := rfl
@[simp] theorem setProctor_ptpReported : (s.setProctor c p).ptpReported = s.ptpReported := rfl
@[simp] theorem setProctor_keySealSt : (s.setProctor c p).keySealSt = s.keySealSt := rfl
@[simp] theorem setProctor_keys : (s.setProctor c p).keys = s.keys := rfl
@[simp] theorem setProctor_ctxRoot : (s.setProctor c p).ctxRoot = s.ctxRoot := rfl
@[simp] theorem setProctor_ctxStat : (s.setProctor c p).ctxStat = s.ctxStat := rfl
@[simp] theorem setProctor_tdId : (s.setProctor c p).tdId = s.tdId := rfl
@[simp] theorem setProctor_tdStep : (s.setProctor c p).tdStep = s.tdStep := rfl
@[simp] theorem setProctor_tdWait : (s.setProctor c p).tdWait = s.tdWait := rfl
@[simp] theorem setProctor_ctxs : (s.setProctor c p).ctxs = s.ctxs := rfl
@[simp] theorem setProctor_dies : (s.setProctor c p).dies = s.dies := rfl
@[simp] theorem setProctor_threads : (s.setProctor c p).threads = s.threads := rfl
@[simp] theorem setProctor_grants : (s.setProctor c p).grants = s.grants := rfl
@[simp] theorem setProctor_teams : (s.setProctor c p).teams = s.teams := rfl
@[simp] theorem setProctor_gangs : (s.setProctor c p).gangs = s.gangs := rfl
@[simp] theorem setProctor_launches : (s.setProctor c p).launches = s.launches := rfl
@[simp] theorem setProctor_reserves : (s.setProctor c p).reserves = s.reserves := rfl
@[simp] theorem setProctor_outs : (s.setProctor c p).outs = s.outs := rfl
@[simp] theorem setProctor_flight : (s.setProctor c p).flight = s.flight := rfl
@[simp] theorem setProctor_lines : (s.setProctor c p).lines = s.lines := rfl
@[simp] theorem setProctor_caches : (s.setProctor c p).caches = s.caches := rfl
@[simp] theorem setProctor_dirs : (s.setProctor c p).dirs = s.dirs := rfl
@[simp] theorem setProctor_redBuf : (s.setProctor c p).redBuf = s.redBuf := rfl
@[simp] theorem setProctor_mem : (s.setProctor c p).mem = s.mem := rfl
@[simp] theorem setProctor_tags : (s.setProctor c p).tags = s.tags := rfl
@[simp] theorem setProctor_memPoison : (s.setProctor c p).memPoison = s.memPoison := rfl
@[simp] theorem setProctor_dirty : (s.setProctor c p).dirty = s.dirty := rfl
@[simp] theorem setProctor_tlb : (s.setProctor c p).tlb = s.tlb := rfl
@[simp] theorem setProctor_walks : (s.setProctor c p).walks = s.walks := rfl
@[simp] theorem setProctor_held : (s.setProctor c p).held = s.held := rfl
@[simp] theorem setProctor_wcache : (s.setProctor c p).wcache = s.wcache := rfl
@[simp] theorem setProctor_blocks : (s.setProctor c p).blocks = s.blocks := rfl
@[simp] theorem setProctor_cpys : (s.setProctor c p).cpys = s.cpys := rfl
@[simp] theorem setProctor_pressOps : (s.setProctor c p).pressOps = s.pressOps := rfl
@[simp] theorem setProctor_proofs : (s.setProctor c p).proofs = s.proofs := rfl
@[simp] theorem setProctor_folios : (s.setProctor c p).folios = s.folios := rfl
@[simp] theorem setProctor_fcopies : (s.setProctor c p).fcopies = s.fcopies := rfl
@[simp] theorem setProctor_nextSerial : (s.setProctor c p).nextSerial = s.nextSerial := rfl
@[simp] theorem setProctor_peerSeen : (s.setProctor c p).peerSeen = s.peerSeen := rfl
@[simp] theorem setProctor_exports : (s.setProctor c p).exports = s.exports := rfl
@[simp] theorem setProctor_peerNext : (s.setProctor c p).peerNext = s.peerNext := rfl
@[simp] theorem setProctor_hostLog : (s.setProctor c p).hostLog = s.hostLog := rfl
@[simp] theorem setProctor_hostTime : (s.setProctor c p).hostTime = s.hostTime := rfl
end

section
variable (s : State) (c : Nat) (q : Hq)
@[simp] theorem setHq_time : (s.setHq c q).time = s.time := rfl
@[simp] theorem setHq_agenda : (s.setHq c q).agenda = s.agenda := rfl
@[simp] theorem setHq_arg : (s.setHq c q).arg = s.arg := rfl
@[simp] theorem setHq_turns : (s.setHq c q).turns = s.turns := rfl
@[simp] theorem setHq_dts : (s.setHq c q).dts = s.dts := rfl
@[simp] theorem setHq_rr : (s.setHq c q).rr = s.rr := rfl
@[simp] theorem setHq_cur : (s.setHq c q).cur = s.cur := rfl
@[simp] theorem setHq_nextId : (s.setHq c q).nextId = s.nextId := rfl
@[simp] theorem setHq_fresh : (s.setHq c q).fresh = s.fresh := rfl
@[simp] theorem setHq_boot : (s.setHq c q).boot = s.boot := rfl
@[simp] theorem setHq_flash : (s.setHq c q).flash = s.flash := rfl
@[simp] theorem setHq_meas : (s.setHq c q).meas = s.meas := rfl
@[simp] theorem setHq_measDig : (s.setHq c q).measDig = s.measDig := rfl
@[simp] theorem setHq_measStat : (s.setHq c q).measStat = s.measStat := rfl
@[simp] theorem setHq_qNonce : (s.setHq c q).qNonce = s.qNonce := rfl
@[simp] theorem setHq_qStat : (s.setHq c q).qStat = s.qStat := rfl
@[simp] theorem setHq_qPending : (s.setHq c q).qPending = s.qPending := rfl
@[simp] theorem setHq_mw : (s.setHq c q).mw = s.mw := rfl
@[simp] theorem setHq_pwrCap : (s.setHq c q).pwrCap = s.pwrCap := rfl
@[simp] theorem setHq_pwrIn : (s.setHq c q).pwrIn = s.pwrIn := rfl
@[simp] theorem setHq_clockLow : (s.setHq c q).clockLow = s.clockLow := rfl
@[simp] theorem setHq_powerLost : (s.setHq c q).powerLost = s.powerLost := rfl
@[simp] theorem setHq_ptpBound : (s.setHq c q).ptpBound = s.ptpBound := rfl
@[simp] theorem setHq_ptpSkew : (s.setHq c q).ptpSkew = s.ptpSkew := rfl
@[simp] theorem setHq_ptpReported : (s.setHq c q).ptpReported = s.ptpReported := rfl
@[simp] theorem setHq_keySealSt : (s.setHq c q).keySealSt = s.keySealSt := rfl
@[simp] theorem setHq_keys : (s.setHq c q).keys = s.keys := rfl
@[simp] theorem setHq_ctxRoot : (s.setHq c q).ctxRoot = s.ctxRoot := rfl
@[simp] theorem setHq_ctxStat : (s.setHq c q).ctxStat = s.ctxStat := rfl
@[simp] theorem setHq_tdId : (s.setHq c q).tdId = s.tdId := rfl
@[simp] theorem setHq_tdStep : (s.setHq c q).tdStep = s.tdStep := rfl
@[simp] theorem setHq_tdWait : (s.setHq c q).tdWait = s.tdWait := rfl
@[simp] theorem setHq_ctxs : (s.setHq c q).ctxs = s.ctxs := rfl
@[simp] theorem setHq_dies : (s.setHq c q).dies = s.dies := rfl
@[simp] theorem setHq_threads : (s.setHq c q).threads = s.threads := rfl
@[simp] theorem setHq_grants : (s.setHq c q).grants = s.grants := rfl
@[simp] theorem setHq_teams : (s.setHq c q).teams = s.teams := rfl
@[simp] theorem setHq_gangs : (s.setHq c q).gangs = s.gangs := rfl
@[simp] theorem setHq_launches : (s.setHq c q).launches = s.launches := rfl
@[simp] theorem setHq_reserves : (s.setHq c q).reserves = s.reserves := rfl
@[simp] theorem setHq_outs : (s.setHq c q).outs = s.outs := rfl
@[simp] theorem setHq_flight : (s.setHq c q).flight = s.flight := rfl
@[simp] theorem setHq_lines : (s.setHq c q).lines = s.lines := rfl
@[simp] theorem setHq_caches : (s.setHq c q).caches = s.caches := rfl
@[simp] theorem setHq_dirs : (s.setHq c q).dirs = s.dirs := rfl
@[simp] theorem setHq_redBuf : (s.setHq c q).redBuf = s.redBuf := rfl
@[simp] theorem setHq_mem : (s.setHq c q).mem = s.mem := rfl
@[simp] theorem setHq_tags : (s.setHq c q).tags = s.tags := rfl
@[simp] theorem setHq_memPoison : (s.setHq c q).memPoison = s.memPoison := rfl
@[simp] theorem setHq_dirty : (s.setHq c q).dirty = s.dirty := rfl
@[simp] theorem setHq_tlb : (s.setHq c q).tlb = s.tlb := rfl
@[simp] theorem setHq_walks : (s.setHq c q).walks = s.walks := rfl
@[simp] theorem setHq_held : (s.setHq c q).held = s.held := rfl
@[simp] theorem setHq_wcache : (s.setHq c q).wcache = s.wcache := rfl
@[simp] theorem setHq_blocks : (s.setHq c q).blocks = s.blocks := rfl
@[simp] theorem setHq_cpys : (s.setHq c q).cpys = s.cpys := rfl
@[simp] theorem setHq_pressOps : (s.setHq c q).pressOps = s.pressOps := rfl
@[simp] theorem setHq_proofs : (s.setHq c q).proofs = s.proofs := rfl
@[simp] theorem setHq_folios : (s.setHq c q).folios = s.folios := rfl
@[simp] theorem setHq_fcopies : (s.setHq c q).fcopies = s.fcopies := rfl
@[simp] theorem setHq_nextSerial : (s.setHq c q).nextSerial = s.nextSerial := rfl
@[simp] theorem setHq_peerSeen : (s.setHq c q).peerSeen = s.peerSeen := rfl
@[simp] theorem setHq_exports : (s.setHq c q).exports = s.exports := rfl
@[simp] theorem setHq_peerNext : (s.setHq c q).peerNext = s.peerNext := rfl
@[simp] theorem setHq_hostLog : (s.setHq c q).hostLog = s.hostLog := rfl
@[simp] theorem setHq_hostTime : (s.setHq c q).hostTime = s.hostTime := rfl
end

section
variable (s : State) (d : Nat) (x : Die)
@[simp] theorem setDie_time : (s.setDie d x).time = s.time := rfl
@[simp] theorem setDie_agenda : (s.setDie d x).agenda = s.agenda := rfl
@[simp] theorem setDie_arg : (s.setDie d x).arg = s.arg := rfl
@[simp] theorem setDie_turns : (s.setDie d x).turns = s.turns := rfl
@[simp] theorem setDie_dts : (s.setDie d x).dts = s.dts := rfl
@[simp] theorem setDie_rr : (s.setDie d x).rr = s.rr := rfl
@[simp] theorem setDie_cur : (s.setDie d x).cur = s.cur := rfl
@[simp] theorem setDie_nextId : (s.setDie d x).nextId = s.nextId := rfl
@[simp] theorem setDie_fresh : (s.setDie d x).fresh = s.fresh := rfl
@[simp] theorem setDie_boot : (s.setDie d x).boot = s.boot := rfl
@[simp] theorem setDie_flash : (s.setDie d x).flash = s.flash := rfl
@[simp] theorem setDie_meas : (s.setDie d x).meas = s.meas := rfl
@[simp] theorem setDie_measDig : (s.setDie d x).measDig = s.measDig := rfl
@[simp] theorem setDie_measStat : (s.setDie d x).measStat = s.measStat := rfl
@[simp] theorem setDie_qNonce : (s.setDie d x).qNonce = s.qNonce := rfl
@[simp] theorem setDie_qStat : (s.setDie d x).qStat = s.qStat := rfl
@[simp] theorem setDie_qPending : (s.setDie d x).qPending = s.qPending := rfl
@[simp] theorem setDie_mw : (s.setDie d x).mw = s.mw := rfl
@[simp] theorem setDie_pwrCap : (s.setDie d x).pwrCap = s.pwrCap := rfl
@[simp] theorem setDie_pwrIn : (s.setDie d x).pwrIn = s.pwrIn := rfl
@[simp] theorem setDie_clockLow : (s.setDie d x).clockLow = s.clockLow := rfl
@[simp] theorem setDie_powerLost : (s.setDie d x).powerLost = s.powerLost := rfl
@[simp] theorem setDie_ptpBound : (s.setDie d x).ptpBound = s.ptpBound := rfl
@[simp] theorem setDie_ptpSkew : (s.setDie d x).ptpSkew = s.ptpSkew := rfl
@[simp] theorem setDie_ptpReported : (s.setDie d x).ptpReported = s.ptpReported := rfl
@[simp] theorem setDie_keySealSt : (s.setDie d x).keySealSt = s.keySealSt := rfl
@[simp] theorem setDie_keys : (s.setDie d x).keys = s.keys := rfl
@[simp] theorem setDie_ctxRoot : (s.setDie d x).ctxRoot = s.ctxRoot := rfl
@[simp] theorem setDie_ctxStat : (s.setDie d x).ctxStat = s.ctxStat := rfl
@[simp] theorem setDie_tdId : (s.setDie d x).tdId = s.tdId := rfl
@[simp] theorem setDie_tdStep : (s.setDie d x).tdStep = s.tdStep := rfl
@[simp] theorem setDie_tdWait : (s.setDie d x).tdWait = s.tdWait := rfl
@[simp] theorem setDie_ctxs : (s.setDie d x).ctxs = s.ctxs := rfl
@[simp] theorem setDie_cores : (s.setDie d x).cores = s.cores := rfl
@[simp] theorem setDie_threads : (s.setDie d x).threads = s.threads := rfl
@[simp] theorem setDie_grants : (s.setDie d x).grants = s.grants := rfl
@[simp] theorem setDie_teams : (s.setDie d x).teams = s.teams := rfl
@[simp] theorem setDie_gangs : (s.setDie d x).gangs = s.gangs := rfl
@[simp] theorem setDie_launches : (s.setDie d x).launches = s.launches := rfl
@[simp] theorem setDie_reserves : (s.setDie d x).reserves = s.reserves := rfl
@[simp] theorem setDie_outs : (s.setDie d x).outs = s.outs := rfl
@[simp] theorem setDie_flight : (s.setDie d x).flight = s.flight := rfl
@[simp] theorem setDie_lines : (s.setDie d x).lines = s.lines := rfl
@[simp] theorem setDie_caches : (s.setDie d x).caches = s.caches := rfl
@[simp] theorem setDie_dirs : (s.setDie d x).dirs = s.dirs := rfl
@[simp] theorem setDie_redBuf : (s.setDie d x).redBuf = s.redBuf := rfl
@[simp] theorem setDie_mem : (s.setDie d x).mem = s.mem := rfl
@[simp] theorem setDie_tags : (s.setDie d x).tags = s.tags := rfl
@[simp] theorem setDie_memPoison : (s.setDie d x).memPoison = s.memPoison := rfl
@[simp] theorem setDie_dirty : (s.setDie d x).dirty = s.dirty := rfl
@[simp] theorem setDie_tlb : (s.setDie d x).tlb = s.tlb := rfl
@[simp] theorem setDie_walks : (s.setDie d x).walks = s.walks := rfl
@[simp] theorem setDie_held : (s.setDie d x).held = s.held := rfl
@[simp] theorem setDie_wcache : (s.setDie d x).wcache = s.wcache := rfl
@[simp] theorem setDie_blocks : (s.setDie d x).blocks = s.blocks := rfl
@[simp] theorem setDie_cpys : (s.setDie d x).cpys = s.cpys := rfl
@[simp] theorem setDie_pressOps : (s.setDie d x).pressOps = s.pressOps := rfl
@[simp] theorem setDie_proofs : (s.setDie d x).proofs = s.proofs := rfl
@[simp] theorem setDie_folios : (s.setDie d x).folios = s.folios := rfl
@[simp] theorem setDie_fcopies : (s.setDie d x).fcopies = s.fcopies := rfl
@[simp] theorem setDie_nextSerial : (s.setDie d x).nextSerial = s.nextSerial := rfl
@[simp] theorem setDie_peerSeen : (s.setDie d x).peerSeen = s.peerSeen := rfl
@[simp] theorem setDie_exports : (s.setDie d x).exports = s.exports := rfl
@[simp] theorem setDie_peerNext : (s.setDie d x).peerNext = s.peerNext := rfl
@[simp] theorem setDie_hostLog : (s.setDie d x).hostLog = s.hostLog := rfl
@[simp] theorem setDie_hostTime : (s.setDie d x).hostTime = s.hostTime := rfl
end

section
variable (s : State) (x : Ctx)
@[simp] theorem setCtx_time : (s.setCtx x).time = s.time := rfl
@[simp] theorem setCtx_agenda : (s.setCtx x).agenda = s.agenda := rfl
@[simp] theorem setCtx_arg : (s.setCtx x).arg = s.arg := rfl
@[simp] theorem setCtx_turns : (s.setCtx x).turns = s.turns := rfl
@[simp] theorem setCtx_dts : (s.setCtx x).dts = s.dts := rfl
@[simp] theorem setCtx_rr : (s.setCtx x).rr = s.rr := rfl
@[simp] theorem setCtx_cur : (s.setCtx x).cur = s.cur := rfl
@[simp] theorem setCtx_nextId : (s.setCtx x).nextId = s.nextId := rfl
@[simp] theorem setCtx_fresh : (s.setCtx x).fresh = s.fresh := rfl
@[simp] theorem setCtx_boot : (s.setCtx x).boot = s.boot := rfl
@[simp] theorem setCtx_flash : (s.setCtx x).flash = s.flash := rfl
@[simp] theorem setCtx_meas : (s.setCtx x).meas = s.meas := rfl
@[simp] theorem setCtx_measDig : (s.setCtx x).measDig = s.measDig := rfl
@[simp] theorem setCtx_measStat : (s.setCtx x).measStat = s.measStat := rfl
@[simp] theorem setCtx_qNonce : (s.setCtx x).qNonce = s.qNonce := rfl
@[simp] theorem setCtx_qStat : (s.setCtx x).qStat = s.qStat := rfl
@[simp] theorem setCtx_qPending : (s.setCtx x).qPending = s.qPending := rfl
@[simp] theorem setCtx_mw : (s.setCtx x).mw = s.mw := rfl
@[simp] theorem setCtx_pwrCap : (s.setCtx x).pwrCap = s.pwrCap := rfl
@[simp] theorem setCtx_pwrIn : (s.setCtx x).pwrIn = s.pwrIn := rfl
@[simp] theorem setCtx_clockLow : (s.setCtx x).clockLow = s.clockLow := rfl
@[simp] theorem setCtx_powerLost : (s.setCtx x).powerLost = s.powerLost := rfl
@[simp] theorem setCtx_ptpBound : (s.setCtx x).ptpBound = s.ptpBound := rfl
@[simp] theorem setCtx_ptpSkew : (s.setCtx x).ptpSkew = s.ptpSkew := rfl
@[simp] theorem setCtx_ptpReported : (s.setCtx x).ptpReported = s.ptpReported := rfl
@[simp] theorem setCtx_keySealSt : (s.setCtx x).keySealSt = s.keySealSt := rfl
@[simp] theorem setCtx_keys : (s.setCtx x).keys = s.keys := rfl
@[simp] theorem setCtx_ctxRoot : (s.setCtx x).ctxRoot = s.ctxRoot := rfl
@[simp] theorem setCtx_ctxStat : (s.setCtx x).ctxStat = s.ctxStat := rfl
@[simp] theorem setCtx_tdId : (s.setCtx x).tdId = s.tdId := rfl
@[simp] theorem setCtx_tdStep : (s.setCtx x).tdStep = s.tdStep := rfl
@[simp] theorem setCtx_tdWait : (s.setCtx x).tdWait = s.tdWait := rfl
@[simp] theorem setCtx_dies : (s.setCtx x).dies = s.dies := rfl
@[simp] theorem setCtx_cores : (s.setCtx x).cores = s.cores := rfl
@[simp] theorem setCtx_threads : (s.setCtx x).threads = s.threads := rfl
@[simp] theorem setCtx_grants : (s.setCtx x).grants = s.grants := rfl
@[simp] theorem setCtx_teams : (s.setCtx x).teams = s.teams := rfl
@[simp] theorem setCtx_gangs : (s.setCtx x).gangs = s.gangs := rfl
@[simp] theorem setCtx_launches : (s.setCtx x).launches = s.launches := rfl
@[simp] theorem setCtx_reserves : (s.setCtx x).reserves = s.reserves := rfl
@[simp] theorem setCtx_outs : (s.setCtx x).outs = s.outs := rfl
@[simp] theorem setCtx_flight : (s.setCtx x).flight = s.flight := rfl
@[simp] theorem setCtx_lines : (s.setCtx x).lines = s.lines := rfl
@[simp] theorem setCtx_caches : (s.setCtx x).caches = s.caches := rfl
@[simp] theorem setCtx_dirs : (s.setCtx x).dirs = s.dirs := rfl
@[simp] theorem setCtx_redBuf : (s.setCtx x).redBuf = s.redBuf := rfl
@[simp] theorem setCtx_mem : (s.setCtx x).mem = s.mem := rfl
@[simp] theorem setCtx_tags : (s.setCtx x).tags = s.tags := rfl
@[simp] theorem setCtx_memPoison : (s.setCtx x).memPoison = s.memPoison := rfl
@[simp] theorem setCtx_dirty : (s.setCtx x).dirty = s.dirty := rfl
@[simp] theorem setCtx_tlb : (s.setCtx x).tlb = s.tlb := rfl
@[simp] theorem setCtx_walks : (s.setCtx x).walks = s.walks := rfl
@[simp] theorem setCtx_held : (s.setCtx x).held = s.held := rfl
@[simp] theorem setCtx_wcache : (s.setCtx x).wcache = s.wcache := rfl
@[simp] theorem setCtx_blocks : (s.setCtx x).blocks = s.blocks := rfl
@[simp] theorem setCtx_cpys : (s.setCtx x).cpys = s.cpys := rfl
@[simp] theorem setCtx_pressOps : (s.setCtx x).pressOps = s.pressOps := rfl
@[simp] theorem setCtx_proofs : (s.setCtx x).proofs = s.proofs := rfl
@[simp] theorem setCtx_folios : (s.setCtx x).folios = s.folios := rfl
@[simp] theorem setCtx_fcopies : (s.setCtx x).fcopies = s.fcopies := rfl
@[simp] theorem setCtx_nextSerial : (s.setCtx x).nextSerial = s.nextSerial := rfl
@[simp] theorem setCtx_peerSeen : (s.setCtx x).peerSeen = s.peerSeen := rfl
@[simp] theorem setCtx_exports : (s.setCtx x).exports = s.exports := rfl
@[simp] theorem setCtx_peerNext : (s.setCtx x).peerNext = s.peerNext := rfl
@[simp] theorem setCtx_hostLog : (s.setCtx x).hostLog = s.hostLog := rfl
@[simp] theorem setCtx_hostTime : (s.setCtx x).hostTime = s.hostTime := rfl
end

section
variable (s : State) (x : Launch)
@[simp] theorem setLaunch_time : (s.setLaunch x).time = s.time := rfl
@[simp] theorem setLaunch_agenda : (s.setLaunch x).agenda = s.agenda := rfl
@[simp] theorem setLaunch_arg : (s.setLaunch x).arg = s.arg := rfl
@[simp] theorem setLaunch_turns : (s.setLaunch x).turns = s.turns := rfl
@[simp] theorem setLaunch_dts : (s.setLaunch x).dts = s.dts := rfl
@[simp] theorem setLaunch_rr : (s.setLaunch x).rr = s.rr := rfl
@[simp] theorem setLaunch_cur : (s.setLaunch x).cur = s.cur := rfl
@[simp] theorem setLaunch_nextId : (s.setLaunch x).nextId = s.nextId := rfl
@[simp] theorem setLaunch_fresh : (s.setLaunch x).fresh = s.fresh := rfl
@[simp] theorem setLaunch_boot : (s.setLaunch x).boot = s.boot := rfl
@[simp] theorem setLaunch_flash : (s.setLaunch x).flash = s.flash := rfl
@[simp] theorem setLaunch_meas : (s.setLaunch x).meas = s.meas := rfl
@[simp] theorem setLaunch_measDig : (s.setLaunch x).measDig = s.measDig := rfl
@[simp] theorem setLaunch_measStat : (s.setLaunch x).measStat = s.measStat := rfl
@[simp] theorem setLaunch_qNonce : (s.setLaunch x).qNonce = s.qNonce := rfl
@[simp] theorem setLaunch_qStat : (s.setLaunch x).qStat = s.qStat := rfl
@[simp] theorem setLaunch_qPending : (s.setLaunch x).qPending = s.qPending := rfl
@[simp] theorem setLaunch_mw : (s.setLaunch x).mw = s.mw := rfl
@[simp] theorem setLaunch_pwrCap : (s.setLaunch x).pwrCap = s.pwrCap := rfl
@[simp] theorem setLaunch_pwrIn : (s.setLaunch x).pwrIn = s.pwrIn := rfl
@[simp] theorem setLaunch_clockLow : (s.setLaunch x).clockLow = s.clockLow := rfl
@[simp] theorem setLaunch_powerLost : (s.setLaunch x).powerLost = s.powerLost := rfl
@[simp] theorem setLaunch_ptpBound : (s.setLaunch x).ptpBound = s.ptpBound := rfl
@[simp] theorem setLaunch_ptpSkew : (s.setLaunch x).ptpSkew = s.ptpSkew := rfl
@[simp] theorem setLaunch_ptpReported : (s.setLaunch x).ptpReported = s.ptpReported := rfl
@[simp] theorem setLaunch_keySealSt : (s.setLaunch x).keySealSt = s.keySealSt := rfl
@[simp] theorem setLaunch_keys : (s.setLaunch x).keys = s.keys := rfl
@[simp] theorem setLaunch_ctxRoot : (s.setLaunch x).ctxRoot = s.ctxRoot := rfl
@[simp] theorem setLaunch_ctxStat : (s.setLaunch x).ctxStat = s.ctxStat := rfl
@[simp] theorem setLaunch_tdId : (s.setLaunch x).tdId = s.tdId := rfl
@[simp] theorem setLaunch_tdStep : (s.setLaunch x).tdStep = s.tdStep := rfl
@[simp] theorem setLaunch_tdWait : (s.setLaunch x).tdWait = s.tdWait := rfl
@[simp] theorem setLaunch_ctxs : (s.setLaunch x).ctxs = s.ctxs := rfl
@[simp] theorem setLaunch_dies : (s.setLaunch x).dies = s.dies := rfl
@[simp] theorem setLaunch_cores : (s.setLaunch x).cores = s.cores := rfl
@[simp] theorem setLaunch_threads : (s.setLaunch x).threads = s.threads := rfl
@[simp] theorem setLaunch_grants : (s.setLaunch x).grants = s.grants := rfl
@[simp] theorem setLaunch_teams : (s.setLaunch x).teams = s.teams := rfl
@[simp] theorem setLaunch_gangs : (s.setLaunch x).gangs = s.gangs := rfl
@[simp] theorem setLaunch_reserves : (s.setLaunch x).reserves = s.reserves := rfl
@[simp] theorem setLaunch_outs : (s.setLaunch x).outs = s.outs := rfl
@[simp] theorem setLaunch_flight : (s.setLaunch x).flight = s.flight := rfl
@[simp] theorem setLaunch_lines : (s.setLaunch x).lines = s.lines := rfl
@[simp] theorem setLaunch_caches : (s.setLaunch x).caches = s.caches := rfl
@[simp] theorem setLaunch_dirs : (s.setLaunch x).dirs = s.dirs := rfl
@[simp] theorem setLaunch_redBuf : (s.setLaunch x).redBuf = s.redBuf := rfl
@[simp] theorem setLaunch_mem : (s.setLaunch x).mem = s.mem := rfl
@[simp] theorem setLaunch_tags : (s.setLaunch x).tags = s.tags := rfl
@[simp] theorem setLaunch_memPoison : (s.setLaunch x).memPoison = s.memPoison := rfl
@[simp] theorem setLaunch_dirty : (s.setLaunch x).dirty = s.dirty := rfl
@[simp] theorem setLaunch_tlb : (s.setLaunch x).tlb = s.tlb := rfl
@[simp] theorem setLaunch_walks : (s.setLaunch x).walks = s.walks := rfl
@[simp] theorem setLaunch_held : (s.setLaunch x).held = s.held := rfl
@[simp] theorem setLaunch_wcache : (s.setLaunch x).wcache = s.wcache := rfl
@[simp] theorem setLaunch_blocks : (s.setLaunch x).blocks = s.blocks := rfl
@[simp] theorem setLaunch_cpys : (s.setLaunch x).cpys = s.cpys := rfl
@[simp] theorem setLaunch_pressOps : (s.setLaunch x).pressOps = s.pressOps := rfl
@[simp] theorem setLaunch_proofs : (s.setLaunch x).proofs = s.proofs := rfl
@[simp] theorem setLaunch_folios : (s.setLaunch x).folios = s.folios := rfl
@[simp] theorem setLaunch_fcopies : (s.setLaunch x).fcopies = s.fcopies := rfl
@[simp] theorem setLaunch_nextSerial : (s.setLaunch x).nextSerial = s.nextSerial := rfl
@[simp] theorem setLaunch_peerSeen : (s.setLaunch x).peerSeen = s.peerSeen := rfl
@[simp] theorem setLaunch_exports : (s.setLaunch x).exports = s.exports := rfl
@[simp] theorem setLaunch_peerNext : (s.setLaunch x).peerNext = s.peerNext := rfl
@[simp] theorem setLaunch_hostLog : (s.setLaunch x).hostLog = s.hostLog := rfl
@[simp] theorem setLaunch_hostTime : (s.setLaunch x).hostTime = s.hostTime := rfl
end

section
variable (s : State) (x : Team)
@[simp] theorem setTeam_time : (s.setTeam x).time = s.time := rfl
@[simp] theorem setTeam_agenda : (s.setTeam x).agenda = s.agenda := rfl
@[simp] theorem setTeam_arg : (s.setTeam x).arg = s.arg := rfl
@[simp] theorem setTeam_turns : (s.setTeam x).turns = s.turns := rfl
@[simp] theorem setTeam_dts : (s.setTeam x).dts = s.dts := rfl
@[simp] theorem setTeam_rr : (s.setTeam x).rr = s.rr := rfl
@[simp] theorem setTeam_cur : (s.setTeam x).cur = s.cur := rfl
@[simp] theorem setTeam_nextId : (s.setTeam x).nextId = s.nextId := rfl
@[simp] theorem setTeam_fresh : (s.setTeam x).fresh = s.fresh := rfl
@[simp] theorem setTeam_boot : (s.setTeam x).boot = s.boot := rfl
@[simp] theorem setTeam_flash : (s.setTeam x).flash = s.flash := rfl
@[simp] theorem setTeam_meas : (s.setTeam x).meas = s.meas := rfl
@[simp] theorem setTeam_measDig : (s.setTeam x).measDig = s.measDig := rfl
@[simp] theorem setTeam_measStat : (s.setTeam x).measStat = s.measStat := rfl
@[simp] theorem setTeam_qNonce : (s.setTeam x).qNonce = s.qNonce := rfl
@[simp] theorem setTeam_qStat : (s.setTeam x).qStat = s.qStat := rfl
@[simp] theorem setTeam_qPending : (s.setTeam x).qPending = s.qPending := rfl
@[simp] theorem setTeam_mw : (s.setTeam x).mw = s.mw := rfl
@[simp] theorem setTeam_pwrCap : (s.setTeam x).pwrCap = s.pwrCap := rfl
@[simp] theorem setTeam_pwrIn : (s.setTeam x).pwrIn = s.pwrIn := rfl
@[simp] theorem setTeam_clockLow : (s.setTeam x).clockLow = s.clockLow := rfl
@[simp] theorem setTeam_powerLost : (s.setTeam x).powerLost = s.powerLost := rfl
@[simp] theorem setTeam_ptpBound : (s.setTeam x).ptpBound = s.ptpBound := rfl
@[simp] theorem setTeam_ptpSkew : (s.setTeam x).ptpSkew = s.ptpSkew := rfl
@[simp] theorem setTeam_ptpReported : (s.setTeam x).ptpReported = s.ptpReported := rfl
@[simp] theorem setTeam_keySealSt : (s.setTeam x).keySealSt = s.keySealSt := rfl
@[simp] theorem setTeam_keys : (s.setTeam x).keys = s.keys := rfl
@[simp] theorem setTeam_ctxRoot : (s.setTeam x).ctxRoot = s.ctxRoot := rfl
@[simp] theorem setTeam_ctxStat : (s.setTeam x).ctxStat = s.ctxStat := rfl
@[simp] theorem setTeam_tdId : (s.setTeam x).tdId = s.tdId := rfl
@[simp] theorem setTeam_tdStep : (s.setTeam x).tdStep = s.tdStep := rfl
@[simp] theorem setTeam_tdWait : (s.setTeam x).tdWait = s.tdWait := rfl
@[simp] theorem setTeam_ctxs : (s.setTeam x).ctxs = s.ctxs := rfl
@[simp] theorem setTeam_dies : (s.setTeam x).dies = s.dies := rfl
@[simp] theorem setTeam_cores : (s.setTeam x).cores = s.cores := rfl
@[simp] theorem setTeam_threads : (s.setTeam x).threads = s.threads := rfl
@[simp] theorem setTeam_grants : (s.setTeam x).grants = s.grants := rfl
@[simp] theorem setTeam_gangs : (s.setTeam x).gangs = s.gangs := rfl
@[simp] theorem setTeam_launches : (s.setTeam x).launches = s.launches := rfl
@[simp] theorem setTeam_reserves : (s.setTeam x).reserves = s.reserves := rfl
@[simp] theorem setTeam_outs : (s.setTeam x).outs = s.outs := rfl
@[simp] theorem setTeam_flight : (s.setTeam x).flight = s.flight := rfl
@[simp] theorem setTeam_lines : (s.setTeam x).lines = s.lines := rfl
@[simp] theorem setTeam_caches : (s.setTeam x).caches = s.caches := rfl
@[simp] theorem setTeam_dirs : (s.setTeam x).dirs = s.dirs := rfl
@[simp] theorem setTeam_redBuf : (s.setTeam x).redBuf = s.redBuf := rfl
@[simp] theorem setTeam_mem : (s.setTeam x).mem = s.mem := rfl
@[simp] theorem setTeam_tags : (s.setTeam x).tags = s.tags := rfl
@[simp] theorem setTeam_memPoison : (s.setTeam x).memPoison = s.memPoison := rfl
@[simp] theorem setTeam_dirty : (s.setTeam x).dirty = s.dirty := rfl
@[simp] theorem setTeam_tlb : (s.setTeam x).tlb = s.tlb := rfl
@[simp] theorem setTeam_walks : (s.setTeam x).walks = s.walks := rfl
@[simp] theorem setTeam_held : (s.setTeam x).held = s.held := rfl
@[simp] theorem setTeam_wcache : (s.setTeam x).wcache = s.wcache := rfl
@[simp] theorem setTeam_blocks : (s.setTeam x).blocks = s.blocks := rfl
@[simp] theorem setTeam_cpys : (s.setTeam x).cpys = s.cpys := rfl
@[simp] theorem setTeam_pressOps : (s.setTeam x).pressOps = s.pressOps := rfl
@[simp] theorem setTeam_proofs : (s.setTeam x).proofs = s.proofs := rfl
@[simp] theorem setTeam_folios : (s.setTeam x).folios = s.folios := rfl
@[simp] theorem setTeam_fcopies : (s.setTeam x).fcopies = s.fcopies := rfl
@[simp] theorem setTeam_nextSerial : (s.setTeam x).nextSerial = s.nextSerial := rfl
@[simp] theorem setTeam_peerSeen : (s.setTeam x).peerSeen = s.peerSeen := rfl
@[simp] theorem setTeam_exports : (s.setTeam x).exports = s.exports := rfl
@[simp] theorem setTeam_peerNext : (s.setTeam x).peerNext = s.peerNext := rfl
@[simp] theorem setTeam_hostLog : (s.setTeam x).hostLog = s.hostLog := rfl
@[simp] theorem setTeam_hostTime : (s.setTeam x).hostTime = s.hostTime := rfl
end

section
variable (s : State) (x : Gang)
@[simp] theorem setGang_time : (s.setGang x).time = s.time := rfl
@[simp] theorem setGang_agenda : (s.setGang x).agenda = s.agenda := rfl
@[simp] theorem setGang_arg : (s.setGang x).arg = s.arg := rfl
@[simp] theorem setGang_turns : (s.setGang x).turns = s.turns := rfl
@[simp] theorem setGang_dts : (s.setGang x).dts = s.dts := rfl
@[simp] theorem setGang_rr : (s.setGang x).rr = s.rr := rfl
@[simp] theorem setGang_cur : (s.setGang x).cur = s.cur := rfl
@[simp] theorem setGang_nextId : (s.setGang x).nextId = s.nextId := rfl
@[simp] theorem setGang_fresh : (s.setGang x).fresh = s.fresh := rfl
@[simp] theorem setGang_boot : (s.setGang x).boot = s.boot := rfl
@[simp] theorem setGang_flash : (s.setGang x).flash = s.flash := rfl
@[simp] theorem setGang_meas : (s.setGang x).meas = s.meas := rfl
@[simp] theorem setGang_measDig : (s.setGang x).measDig = s.measDig := rfl
@[simp] theorem setGang_measStat : (s.setGang x).measStat = s.measStat := rfl
@[simp] theorem setGang_qNonce : (s.setGang x).qNonce = s.qNonce := rfl
@[simp] theorem setGang_qStat : (s.setGang x).qStat = s.qStat := rfl
@[simp] theorem setGang_qPending : (s.setGang x).qPending = s.qPending := rfl
@[simp] theorem setGang_mw : (s.setGang x).mw = s.mw := rfl
@[simp] theorem setGang_pwrCap : (s.setGang x).pwrCap = s.pwrCap := rfl
@[simp] theorem setGang_pwrIn : (s.setGang x).pwrIn = s.pwrIn := rfl
@[simp] theorem setGang_clockLow : (s.setGang x).clockLow = s.clockLow := rfl
@[simp] theorem setGang_powerLost : (s.setGang x).powerLost = s.powerLost := rfl
@[simp] theorem setGang_ptpBound : (s.setGang x).ptpBound = s.ptpBound := rfl
@[simp] theorem setGang_ptpSkew : (s.setGang x).ptpSkew = s.ptpSkew := rfl
@[simp] theorem setGang_ptpReported : (s.setGang x).ptpReported = s.ptpReported := rfl
@[simp] theorem setGang_keySealSt : (s.setGang x).keySealSt = s.keySealSt := rfl
@[simp] theorem setGang_keys : (s.setGang x).keys = s.keys := rfl
@[simp] theorem setGang_ctxRoot : (s.setGang x).ctxRoot = s.ctxRoot := rfl
@[simp] theorem setGang_ctxStat : (s.setGang x).ctxStat = s.ctxStat := rfl
@[simp] theorem setGang_tdId : (s.setGang x).tdId = s.tdId := rfl
@[simp] theorem setGang_tdStep : (s.setGang x).tdStep = s.tdStep := rfl
@[simp] theorem setGang_tdWait : (s.setGang x).tdWait = s.tdWait := rfl
@[simp] theorem setGang_ctxs : (s.setGang x).ctxs = s.ctxs := rfl
@[simp] theorem setGang_dies : (s.setGang x).dies = s.dies := rfl
@[simp] theorem setGang_cores : (s.setGang x).cores = s.cores := rfl
@[simp] theorem setGang_threads : (s.setGang x).threads = s.threads := rfl
@[simp] theorem setGang_grants : (s.setGang x).grants = s.grants := rfl
@[simp] theorem setGang_teams : (s.setGang x).teams = s.teams := rfl
@[simp] theorem setGang_launches : (s.setGang x).launches = s.launches := rfl
@[simp] theorem setGang_reserves : (s.setGang x).reserves = s.reserves := rfl
@[simp] theorem setGang_outs : (s.setGang x).outs = s.outs := rfl
@[simp] theorem setGang_flight : (s.setGang x).flight = s.flight := rfl
@[simp] theorem setGang_lines : (s.setGang x).lines = s.lines := rfl
@[simp] theorem setGang_caches : (s.setGang x).caches = s.caches := rfl
@[simp] theorem setGang_dirs : (s.setGang x).dirs = s.dirs := rfl
@[simp] theorem setGang_redBuf : (s.setGang x).redBuf = s.redBuf := rfl
@[simp] theorem setGang_mem : (s.setGang x).mem = s.mem := rfl
@[simp] theorem setGang_tags : (s.setGang x).tags = s.tags := rfl
@[simp] theorem setGang_memPoison : (s.setGang x).memPoison = s.memPoison := rfl
@[simp] theorem setGang_dirty : (s.setGang x).dirty = s.dirty := rfl
@[simp] theorem setGang_tlb : (s.setGang x).tlb = s.tlb := rfl
@[simp] theorem setGang_walks : (s.setGang x).walks = s.walks := rfl
@[simp] theorem setGang_held : (s.setGang x).held = s.held := rfl
@[simp] theorem setGang_wcache : (s.setGang x).wcache = s.wcache := rfl
@[simp] theorem setGang_blocks : (s.setGang x).blocks = s.blocks := rfl
@[simp] theorem setGang_cpys : (s.setGang x).cpys = s.cpys := rfl
@[simp] theorem setGang_pressOps : (s.setGang x).pressOps = s.pressOps := rfl
@[simp] theorem setGang_proofs : (s.setGang x).proofs = s.proofs := rfl
@[simp] theorem setGang_folios : (s.setGang x).folios = s.folios := rfl
@[simp] theorem setGang_fcopies : (s.setGang x).fcopies = s.fcopies := rfl
@[simp] theorem setGang_nextSerial : (s.setGang x).nextSerial = s.nextSerial := rfl
@[simp] theorem setGang_peerSeen : (s.setGang x).peerSeen = s.peerSeen := rfl
@[simp] theorem setGang_exports : (s.setGang x).exports = s.exports := rfl
@[simp] theorem setGang_peerNext : (s.setGang x).peerNext = s.peerNext := rfl
@[simp] theorem setGang_hostLog : (s.setGang x).hostLog = s.hostLog := rfl
@[simp] theorem setGang_hostTime : (s.setGang x).hostTime = s.hostTime := rfl
end

section
variable (t : Thread) (n : Nat) (v : W64)
@[simp] theorem thread_setSreg_id : (t.setSreg n v).id = t.id := rfl
@[simp] theorem thread_setSreg_core : (t.setSreg n v).core = t.core := rfl
@[simp] theorem thread_setSreg_part : (t.setSreg n v).part = t.part := rfl
@[simp] theorem thread_setSreg_slot : (t.setSreg n v).slot = t.slot := rfl
@[simp] theorem thread_setSreg_f : (t.setSreg n v).f = t.f := rfl
@[simp] theorem thread_setSreg_width : (t.setSreg n v).width = t.width := rfl
@[simp] theorem thread_setSreg_kwidth : (t.setSreg n v).kwidth = t.kwidth := rfl
@[simp] theorem thread_setSreg_splits : (t.setSreg n v).splits = t.splits := rfl
@[simp] theorem thread_setSreg_hists : (t.setSreg n v).hists = t.hists := rfl
@[simp] theorem thread_setSreg_ctx : (t.setSreg n v).ctx = t.ctx := rfl
@[simp] theorem thread_setSreg_sup : (t.setSreg n v).sup = t.sup := rfl
@[simp] theorem thread_setSreg_memdef : (t.setSreg n v).memdef = t.memdef := rfl
@[simp] theorem thread_setSreg_launch : (t.setSreg n v).launch = t.launch := rfl
@[simp] theorem thread_setSreg_gang : (t.setSreg n v).gang = t.gang := rfl
@[simp] theorem thread_setSreg_team : (t.setSreg n v).team = t.team := rfl
@[simp] theorem thread_setSreg_grp : (t.setSreg n v).grp = t.grp := rfl
@[simp] theorem thread_setSreg_teamIdx : (t.setSreg n v).teamIdx = t.teamIdx := rfl
@[simp] theorem thread_setSreg_linear : (t.setSreg n v).linear = t.linear := rfl
@[simp] theorem thread_setSreg_pc : (t.setSreg n v).pc = t.pc := rfl
@[simp] theorem thread_setSreg_after : (t.setSreg n v).after = t.after := rfl
@[simp] theorem thread_setSreg_exec : (t.setSreg n v).exec = t.exec := rfl
@[simp] theorem thread_setSreg_live : (t.setSreg n v).live = t.live := rfl
@[simp] theorem thread_setSreg_rstack : (t.setSreg n v).rstack = t.rstack := rfl
@[simp] theorem thread_setSreg_preds : (t.setSreg n v).preds = t.preds := rfl
@[simp] theorem thread_setSreg_fx : (t.setSreg n v).fx = t.fx := rfl
@[simp] theorem thread_setSreg_store : (t.setSreg n v).store = t.store := rfl
@[simp] theorem thread_setSreg_storePoison : (t.setSreg n v).storePoison = t.storePoison := rfl
@[simp] theorem thread_setSreg_wp : (t.setSreg n v).wp = t.wp := rfl
@[simp] theorem thread_setSreg_rbase : (t.setSreg n v).rbase = t.rbase := rfl
@[simp] theorem thread_setSreg_dres : (t.setSreg n v).dres = t.dres := rfl
@[simp] theorem thread_setSreg_lim : (t.setSreg n v).lim = t.lim := rfl
@[simp] theorem thread_setSreg_stkbase : (t.setSreg n v).stkbase = t.stkbase := rfl
@[simp] theorem thread_setSreg_spillbase : (t.setSreg n v).spillbase = t.spillbase := rfl
@[simp] theorem thread_setSreg_mathctl : (t.setSreg n v).mathctl = t.mathctl := rfl
@[simp] theorem thread_setSreg_srcnt : (t.setSreg n v).srcnt = t.srcnt := rfl
@[simp] theorem thread_setSreg_wlimit : (t.setSreg n v).wlimit = t.wlimit := rfl
@[simp] theorem thread_setSreg_maxWidth : (t.setSreg n v).maxWidth = t.maxWidth := rfl
@[simp] theorem thread_setSreg_pstat : (t.setSreg n v).pstat = t.pstat := rfl
@[simp] theorem thread_setSreg_toks : (t.setSreg n v).toks = t.toks := rfl
@[simp] theorem thread_setSreg_lct : (t.setSreg n v).lct = t.lct := rfl
@[simp] theorem thread_setSreg_acq : (t.setSreg n v).acq = t.acq := rfl
@[simp] theorem thread_setSreg_resident : (t.setSreg n v).resident = t.resident := rfl
@[simp] theorem thread_setSreg_lastIssue : (t.setSreg n v).lastIssue = t.lastIssue := rfl
@[simp] theorem thread_setSreg_idleTill : (t.setSreg n v).idleTill = t.idleTill := rfl
@[simp] theorem thread_setSreg_prio : (t.setSreg n v).prio = t.prio := rfl
@[simp] theorem thread_setSreg_codebase : (t.setSreg n v).codebase = t.codebase := rfl
@[simp] theorem thread_setSreg_tile0 : (t.setSreg n v).tile0 = t.tile0 := rfl
@[simp] theorem thread_setSreg_tiles : (t.setSreg n v).tiles = t.tiles := rfl
@[simp] theorem thread_setSreg_park : (t.setSreg n v).park = t.park := rfl
@[simp] theorem thread_setSreg_relDone : (t.setSreg n v).relDone = t.relDone := rfl
@[simp] theorem thread_setSreg_only : (t.setSreg n v).only = t.only := rfl
@[simp] theorem thread_setSreg_desc : (t.setSreg n v).desc = t.desc := rfl
@[simp] theorem thread_setSreg_lineage : (t.setSreg n v).lineage = t.lineage := rfl
@[simp] theorem thread_setSreg_claimSeq : (t.setSreg n v).claimSeq = t.claimSeq := rfl
@[simp] theorem thread_setSreg_susp : (t.setSreg n v).susp = t.susp := rfl
@[simp] theorem thread_setSreg_marked : (t.setSreg n v).marked = t.marked := rfl
@[simp] theorem thread_setSreg_stopped : (t.setSreg n v).stopped = t.stopped := rfl
@[simp] theorem thread_setSreg_peerLate : (t.setSreg n v).peerLate = t.peerLate := rfl
@[simp] theorem thread_setSreg_lateNow : (t.setSreg n v).lateNow = t.lateNow := rfl
@[simp] theorem thread_setSreg_wpNext : (t.setSreg n v).wpNext = t.wpNext := rfl
@[simp] theorem thread_setSreg_bellT : (t.setSreg n v).bellT = t.bellT := rfl
end

section
variable (t : Thread) (k : Nat) (v : W32)
@[simp] theorem thread_setStore_id : (t.setStore k v).id = t.id := rfl
@[simp] theorem thread_setStore_core : (t.setStore k v).core = t.core := rfl
@[simp] theorem thread_setStore_part : (t.setStore k v).part = t.part := rfl
@[simp] theorem thread_setStore_slot : (t.setStore k v).slot = t.slot := rfl
@[simp] theorem thread_setStore_f : (t.setStore k v).f = t.f := rfl
@[simp] theorem thread_setStore_width : (t.setStore k v).width = t.width := rfl
@[simp] theorem thread_setStore_kwidth : (t.setStore k v).kwidth = t.kwidth := rfl
@[simp] theorem thread_setStore_splits : (t.setStore k v).splits = t.splits := rfl
@[simp] theorem thread_setStore_hists : (t.setStore k v).hists = t.hists := rfl
@[simp] theorem thread_setStore_ctx : (t.setStore k v).ctx = t.ctx := rfl
@[simp] theorem thread_setStore_sup : (t.setStore k v).sup = t.sup := rfl
@[simp] theorem thread_setStore_memdef : (t.setStore k v).memdef = t.memdef := rfl
@[simp] theorem thread_setStore_launch : (t.setStore k v).launch = t.launch := rfl
@[simp] theorem thread_setStore_gang : (t.setStore k v).gang = t.gang := rfl
@[simp] theorem thread_setStore_team : (t.setStore k v).team = t.team := rfl
@[simp] theorem thread_setStore_grp : (t.setStore k v).grp = t.grp := rfl
@[simp] theorem thread_setStore_teamIdx : (t.setStore k v).teamIdx = t.teamIdx := rfl
@[simp] theorem thread_setStore_linear : (t.setStore k v).linear = t.linear := rfl
@[simp] theorem thread_setStore_pc : (t.setStore k v).pc = t.pc := rfl
@[simp] theorem thread_setStore_after : (t.setStore k v).after = t.after := rfl
@[simp] theorem thread_setStore_exec : (t.setStore k v).exec = t.exec := rfl
@[simp] theorem thread_setStore_live : (t.setStore k v).live = t.live := rfl
@[simp] theorem thread_setStore_rstack : (t.setStore k v).rstack = t.rstack := rfl
@[simp] theorem thread_setStore_sregs : (t.setStore k v).sregs = t.sregs := rfl
@[simp] theorem thread_setStore_preds : (t.setStore k v).preds = t.preds := rfl
@[simp] theorem thread_setStore_fx : (t.setStore k v).fx = t.fx := rfl
@[simp] theorem thread_setStore_wp : (t.setStore k v).wp = t.wp := rfl
@[simp] theorem thread_setStore_rbase : (t.setStore k v).rbase = t.rbase := rfl
@[simp] theorem thread_setStore_dres : (t.setStore k v).dres = t.dres := rfl
@[simp] theorem thread_setStore_lim : (t.setStore k v).lim = t.lim := rfl
@[simp] theorem thread_setStore_stkbase : (t.setStore k v).stkbase = t.stkbase := rfl
@[simp] theorem thread_setStore_spillbase : (t.setStore k v).spillbase = t.spillbase := rfl
@[simp] theorem thread_setStore_mathctl : (t.setStore k v).mathctl = t.mathctl := rfl
@[simp] theorem thread_setStore_srcnt : (t.setStore k v).srcnt = t.srcnt := rfl
@[simp] theorem thread_setStore_wlimit : (t.setStore k v).wlimit = t.wlimit := rfl
@[simp] theorem thread_setStore_maxWidth : (t.setStore k v).maxWidth = t.maxWidth := rfl
@[simp] theorem thread_setStore_pstat : (t.setStore k v).pstat = t.pstat := rfl
@[simp] theorem thread_setStore_toks : (t.setStore k v).toks = t.toks := rfl
@[simp] theorem thread_setStore_lct : (t.setStore k v).lct = t.lct := rfl
@[simp] theorem thread_setStore_acq : (t.setStore k v).acq = t.acq := rfl
@[simp] theorem thread_setStore_resident : (t.setStore k v).resident = t.resident := rfl
@[simp] theorem thread_setStore_lastIssue : (t.setStore k v).lastIssue = t.lastIssue := rfl
@[simp] theorem thread_setStore_idleTill : (t.setStore k v).idleTill = t.idleTill := rfl
@[simp] theorem thread_setStore_prio : (t.setStore k v).prio = t.prio := rfl
@[simp] theorem thread_setStore_codebase : (t.setStore k v).codebase = t.codebase := rfl
@[simp] theorem thread_setStore_tile0 : (t.setStore k v).tile0 = t.tile0 := rfl
@[simp] theorem thread_setStore_tiles : (t.setStore k v).tiles = t.tiles := rfl
@[simp] theorem thread_setStore_park : (t.setStore k v).park = t.park := rfl
@[simp] theorem thread_setStore_relDone : (t.setStore k v).relDone = t.relDone := rfl
@[simp] theorem thread_setStore_only : (t.setStore k v).only = t.only := rfl
@[simp] theorem thread_setStore_desc : (t.setStore k v).desc = t.desc := rfl
@[simp] theorem thread_setStore_lineage : (t.setStore k v).lineage = t.lineage := rfl
@[simp] theorem thread_setStore_claimSeq : (t.setStore k v).claimSeq = t.claimSeq := rfl
@[simp] theorem thread_setStore_susp : (t.setStore k v).susp = t.susp := rfl
@[simp] theorem thread_setStore_marked : (t.setStore k v).marked = t.marked := rfl
@[simp] theorem thread_setStore_stopped : (t.setStore k v).stopped = t.stopped := rfl
@[simp] theorem thread_setStore_peerLate : (t.setStore k v).peerLate = t.peerLate := rfl
@[simp] theorem thread_setStore_lateNow : (t.setStore k v).lateNow = t.lateNow := rfl
@[simp] theorem thread_setStore_wpNext : (t.setStore k v).wpNext = t.wpNext := rfl
@[simp] theorem thread_setStore_bellT : (t.setStore k v).bellT = t.bellT := rfl
end

section
variable (t : Thread) (i l : Nat) (v : W32)
@[simp] theorem thread_setVreg_id : (t.setVreg i l v).id = t.id := rfl
@[simp] theorem thread_setVreg_core : (t.setVreg i l v).core = t.core := rfl
@[simp] theorem thread_setVreg_part : (t.setVreg i l v).part = t.part := rfl
@[simp] theorem thread_setVreg_slot : (t.setVreg i l v).slot = t.slot := rfl
@[simp] theorem thread_setVreg_f : (t.setVreg i l v).f = t.f := rfl
@[simp] theorem thread_setVreg_width : (t.setVreg i l v).width = t.width := rfl
@[simp] theorem thread_setVreg_kwidth : (t.setVreg i l v).kwidth = t.kwidth := rfl
@[simp] theorem thread_setVreg_splits : (t.setVreg i l v).splits = t.splits := rfl
@[simp] theorem thread_setVreg_hists : (t.setVreg i l v).hists = t.hists := rfl
@[simp] theorem thread_setVreg_ctx : (t.setVreg i l v).ctx = t.ctx := rfl
@[simp] theorem thread_setVreg_sup : (t.setVreg i l v).sup = t.sup := rfl
@[simp] theorem thread_setVreg_memdef : (t.setVreg i l v).memdef = t.memdef := rfl
@[simp] theorem thread_setVreg_launch : (t.setVreg i l v).launch = t.launch := rfl
@[simp] theorem thread_setVreg_gang : (t.setVreg i l v).gang = t.gang := rfl
@[simp] theorem thread_setVreg_team : (t.setVreg i l v).team = t.team := rfl
@[simp] theorem thread_setVreg_grp : (t.setVreg i l v).grp = t.grp := rfl
@[simp] theorem thread_setVreg_teamIdx : (t.setVreg i l v).teamIdx = t.teamIdx := rfl
@[simp] theorem thread_setVreg_linear : (t.setVreg i l v).linear = t.linear := rfl
@[simp] theorem thread_setVreg_pc : (t.setVreg i l v).pc = t.pc := rfl
@[simp] theorem thread_setVreg_after : (t.setVreg i l v).after = t.after := rfl
@[simp] theorem thread_setVreg_exec : (t.setVreg i l v).exec = t.exec := rfl
@[simp] theorem thread_setVreg_live : (t.setVreg i l v).live = t.live := rfl
@[simp] theorem thread_setVreg_rstack : (t.setVreg i l v).rstack = t.rstack := rfl
@[simp] theorem thread_setVreg_sregs : (t.setVreg i l v).sregs = t.sregs := rfl
@[simp] theorem thread_setVreg_preds : (t.setVreg i l v).preds = t.preds := rfl
@[simp] theorem thread_setVreg_fx : (t.setVreg i l v).fx = t.fx := rfl
@[simp] theorem thread_setVreg_wp : (t.setVreg i l v).wp = t.wp := rfl
@[simp] theorem thread_setVreg_rbase : (t.setVreg i l v).rbase = t.rbase := rfl
@[simp] theorem thread_setVreg_dres : (t.setVreg i l v).dres = t.dres := rfl
@[simp] theorem thread_setVreg_lim : (t.setVreg i l v).lim = t.lim := rfl
@[simp] theorem thread_setVreg_stkbase : (t.setVreg i l v).stkbase = t.stkbase := rfl
@[simp] theorem thread_setVreg_spillbase : (t.setVreg i l v).spillbase = t.spillbase := rfl
@[simp] theorem thread_setVreg_mathctl : (t.setVreg i l v).mathctl = t.mathctl := rfl
@[simp] theorem thread_setVreg_srcnt : (t.setVreg i l v).srcnt = t.srcnt := rfl
@[simp] theorem thread_setVreg_wlimit : (t.setVreg i l v).wlimit = t.wlimit := rfl
@[simp] theorem thread_setVreg_maxWidth : (t.setVreg i l v).maxWidth = t.maxWidth := rfl
@[simp] theorem thread_setVreg_pstat : (t.setVreg i l v).pstat = t.pstat := rfl
@[simp] theorem thread_setVreg_toks : (t.setVreg i l v).toks = t.toks := rfl
@[simp] theorem thread_setVreg_lct : (t.setVreg i l v).lct = t.lct := rfl
@[simp] theorem thread_setVreg_acq : (t.setVreg i l v).acq = t.acq := rfl
@[simp] theorem thread_setVreg_resident : (t.setVreg i l v).resident = t.resident := rfl
@[simp] theorem thread_setVreg_lastIssue : (t.setVreg i l v).lastIssue = t.lastIssue := rfl
@[simp] theorem thread_setVreg_idleTill : (t.setVreg i l v).idleTill = t.idleTill := rfl
@[simp] theorem thread_setVreg_prio : (t.setVreg i l v).prio = t.prio := rfl
@[simp] theorem thread_setVreg_codebase : (t.setVreg i l v).codebase = t.codebase := rfl
@[simp] theorem thread_setVreg_tile0 : (t.setVreg i l v).tile0 = t.tile0 := rfl
@[simp] theorem thread_setVreg_tiles : (t.setVreg i l v).tiles = t.tiles := rfl
@[simp] theorem thread_setVreg_park : (t.setVreg i l v).park = t.park := rfl
@[simp] theorem thread_setVreg_relDone : (t.setVreg i l v).relDone = t.relDone := rfl
@[simp] theorem thread_setVreg_only : (t.setVreg i l v).only = t.only := rfl
@[simp] theorem thread_setVreg_desc : (t.setVreg i l v).desc = t.desc := rfl
@[simp] theorem thread_setVreg_lineage : (t.setVreg i l v).lineage = t.lineage := rfl
@[simp] theorem thread_setVreg_claimSeq : (t.setVreg i l v).claimSeq = t.claimSeq := rfl
@[simp] theorem thread_setVreg_susp : (t.setVreg i l v).susp = t.susp := rfl
@[simp] theorem thread_setVreg_marked : (t.setVreg i l v).marked = t.marked := rfl
@[simp] theorem thread_setVreg_stopped : (t.setVreg i l v).stopped = t.stopped := rfl
@[simp] theorem thread_setVreg_peerLate : (t.setVreg i l v).peerLate = t.peerLate := rfl
@[simp] theorem thread_setVreg_lateNow : (t.setVreg i l v).lateNow = t.lateNow := rfl
@[simp] theorem thread_setVreg_wpNext : (t.setVreg i l v).wpNext = t.wpNext := rfl
@[simp] theorem thread_setVreg_bellT : (t.setVreg i l v).bellT = t.bellT := rfl
end

section
variable (t : Thread) (i l : Nat) (v : W64)
@[simp] theorem thread_setVpair_id : (t.setVpair i l v).id = t.id := rfl
@[simp] theorem thread_setVpair_core : (t.setVpair i l v).core = t.core := rfl
@[simp] theorem thread_setVpair_part : (t.setVpair i l v).part = t.part := rfl
@[simp] theorem thread_setVpair_slot : (t.setVpair i l v).slot = t.slot := rfl
@[simp] theorem thread_setVpair_f : (t.setVpair i l v).f = t.f := rfl
@[simp] theorem thread_setVpair_width : (t.setVpair i l v).width = t.width := rfl
@[simp] theorem thread_setVpair_kwidth : (t.setVpair i l v).kwidth = t.kwidth := rfl
@[simp] theorem thread_setVpair_splits : (t.setVpair i l v).splits = t.splits := rfl
@[simp] theorem thread_setVpair_hists : (t.setVpair i l v).hists = t.hists := rfl
@[simp] theorem thread_setVpair_ctx : (t.setVpair i l v).ctx = t.ctx := rfl
@[simp] theorem thread_setVpair_sup : (t.setVpair i l v).sup = t.sup := rfl
@[simp] theorem thread_setVpair_memdef : (t.setVpair i l v).memdef = t.memdef := rfl
@[simp] theorem thread_setVpair_launch : (t.setVpair i l v).launch = t.launch := rfl
@[simp] theorem thread_setVpair_gang : (t.setVpair i l v).gang = t.gang := rfl
@[simp] theorem thread_setVpair_team : (t.setVpair i l v).team = t.team := rfl
@[simp] theorem thread_setVpair_grp : (t.setVpair i l v).grp = t.grp := rfl
@[simp] theorem thread_setVpair_teamIdx : (t.setVpair i l v).teamIdx = t.teamIdx := rfl
@[simp] theorem thread_setVpair_linear : (t.setVpair i l v).linear = t.linear := rfl
@[simp] theorem thread_setVpair_pc : (t.setVpair i l v).pc = t.pc := rfl
@[simp] theorem thread_setVpair_after : (t.setVpair i l v).after = t.after := rfl
@[simp] theorem thread_setVpair_exec : (t.setVpair i l v).exec = t.exec := rfl
@[simp] theorem thread_setVpair_live : (t.setVpair i l v).live = t.live := rfl
@[simp] theorem thread_setVpair_rstack : (t.setVpair i l v).rstack = t.rstack := rfl
@[simp] theorem thread_setVpair_sregs : (t.setVpair i l v).sregs = t.sregs := rfl
@[simp] theorem thread_setVpair_preds : (t.setVpair i l v).preds = t.preds := rfl
@[simp] theorem thread_setVpair_fx : (t.setVpair i l v).fx = t.fx := rfl
@[simp] theorem thread_setVpair_wp : (t.setVpair i l v).wp = t.wp := rfl
@[simp] theorem thread_setVpair_rbase : (t.setVpair i l v).rbase = t.rbase := rfl
@[simp] theorem thread_setVpair_dres : (t.setVpair i l v).dres = t.dres := rfl
@[simp] theorem thread_setVpair_lim : (t.setVpair i l v).lim = t.lim := rfl
@[simp] theorem thread_setVpair_stkbase : (t.setVpair i l v).stkbase = t.stkbase := rfl
@[simp] theorem thread_setVpair_spillbase : (t.setVpair i l v).spillbase = t.spillbase := rfl
@[simp] theorem thread_setVpair_mathctl : (t.setVpair i l v).mathctl = t.mathctl := rfl
@[simp] theorem thread_setVpair_srcnt : (t.setVpair i l v).srcnt = t.srcnt := rfl
@[simp] theorem thread_setVpair_wlimit : (t.setVpair i l v).wlimit = t.wlimit := rfl
@[simp] theorem thread_setVpair_maxWidth : (t.setVpair i l v).maxWidth = t.maxWidth := rfl
@[simp] theorem thread_setVpair_pstat : (t.setVpair i l v).pstat = t.pstat := rfl
@[simp] theorem thread_setVpair_toks : (t.setVpair i l v).toks = t.toks := rfl
@[simp] theorem thread_setVpair_lct : (t.setVpair i l v).lct = t.lct := rfl
@[simp] theorem thread_setVpair_acq : (t.setVpair i l v).acq = t.acq := rfl
@[simp] theorem thread_setVpair_resident : (t.setVpair i l v).resident = t.resident := rfl
@[simp] theorem thread_setVpair_lastIssue : (t.setVpair i l v).lastIssue = t.lastIssue := rfl
@[simp] theorem thread_setVpair_idleTill : (t.setVpair i l v).idleTill = t.idleTill := rfl
@[simp] theorem thread_setVpair_prio : (t.setVpair i l v).prio = t.prio := rfl
@[simp] theorem thread_setVpair_codebase : (t.setVpair i l v).codebase = t.codebase := rfl
@[simp] theorem thread_setVpair_tile0 : (t.setVpair i l v).tile0 = t.tile0 := rfl
@[simp] theorem thread_setVpair_tiles : (t.setVpair i l v).tiles = t.tiles := rfl
@[simp] theorem thread_setVpair_park : (t.setVpair i l v).park = t.park := rfl
@[simp] theorem thread_setVpair_relDone : (t.setVpair i l v).relDone = t.relDone := rfl
@[simp] theorem thread_setVpair_only : (t.setVpair i l v).only = t.only := rfl
@[simp] theorem thread_setVpair_desc : (t.setVpair i l v).desc = t.desc := rfl
@[simp] theorem thread_setVpair_lineage : (t.setVpair i l v).lineage = t.lineage := rfl
@[simp] theorem thread_setVpair_claimSeq : (t.setVpair i l v).claimSeq = t.claimSeq := rfl
@[simp] theorem thread_setVpair_susp : (t.setVpair i l v).susp = t.susp := rfl
@[simp] theorem thread_setVpair_marked : (t.setVpair i l v).marked = t.marked := rfl
@[simp] theorem thread_setVpair_stopped : (t.setVpair i l v).stopped = t.stopped := rfl
@[simp] theorem thread_setVpair_peerLate : (t.setVpair i l v).peerLate = t.peerLate := rfl
@[simp] theorem thread_setVpair_lateNow : (t.setVpair i l v).lateNow = t.lateNow := rfl
@[simp] theorem thread_setVpair_wpNext : (t.setVpair i l v).wpNext = t.wpNext := rfl
@[simp] theorem thread_setVpair_bellT : (t.setVpair i l v).bellT = t.bellT := rfl
end

section
variable (t : Thread) (n l : Nat) (v : Bool)
@[simp] theorem thread_setPred_id : (t.setPred n l v).id = t.id := rfl
@[simp] theorem thread_setPred_core : (t.setPred n l v).core = t.core := rfl
@[simp] theorem thread_setPred_part : (t.setPred n l v).part = t.part := rfl
@[simp] theorem thread_setPred_slot : (t.setPred n l v).slot = t.slot := rfl
@[simp] theorem thread_setPred_f : (t.setPred n l v).f = t.f := rfl
@[simp] theorem thread_setPred_width : (t.setPred n l v).width = t.width := rfl
@[simp] theorem thread_setPred_kwidth : (t.setPred n l v).kwidth = t.kwidth := rfl
@[simp] theorem thread_setPred_splits : (t.setPred n l v).splits = t.splits := rfl
@[simp] theorem thread_setPred_hists : (t.setPred n l v).hists = t.hists := rfl
@[simp] theorem thread_setPred_ctx : (t.setPred n l v).ctx = t.ctx := rfl
@[simp] theorem thread_setPred_sup : (t.setPred n l v).sup = t.sup := rfl
@[simp] theorem thread_setPred_memdef : (t.setPred n l v).memdef = t.memdef := rfl
@[simp] theorem thread_setPred_launch : (t.setPred n l v).launch = t.launch := rfl
@[simp] theorem thread_setPred_gang : (t.setPred n l v).gang = t.gang := rfl
@[simp] theorem thread_setPred_team : (t.setPred n l v).team = t.team := rfl
@[simp] theorem thread_setPred_grp : (t.setPred n l v).grp = t.grp := rfl
@[simp] theorem thread_setPred_teamIdx : (t.setPred n l v).teamIdx = t.teamIdx := rfl
@[simp] theorem thread_setPred_linear : (t.setPred n l v).linear = t.linear := rfl
@[simp] theorem thread_setPred_pc : (t.setPred n l v).pc = t.pc := rfl
@[simp] theorem thread_setPred_after : (t.setPred n l v).after = t.after := rfl
@[simp] theorem thread_setPred_exec : (t.setPred n l v).exec = t.exec := rfl
@[simp] theorem thread_setPred_live : (t.setPred n l v).live = t.live := rfl
@[simp] theorem thread_setPred_rstack : (t.setPred n l v).rstack = t.rstack := rfl
@[simp] theorem thread_setPred_sregs : (t.setPred n l v).sregs = t.sregs := rfl
@[simp] theorem thread_setPred_fx : (t.setPred n l v).fx = t.fx := rfl
@[simp] theorem thread_setPred_store : (t.setPred n l v).store = t.store := rfl
@[simp] theorem thread_setPred_storePoison : (t.setPred n l v).storePoison = t.storePoison := rfl
@[simp] theorem thread_setPred_wp : (t.setPred n l v).wp = t.wp := rfl
@[simp] theorem thread_setPred_rbase : (t.setPred n l v).rbase = t.rbase := rfl
@[simp] theorem thread_setPred_dres : (t.setPred n l v).dres = t.dres := rfl
@[simp] theorem thread_setPred_lim : (t.setPred n l v).lim = t.lim := rfl
@[simp] theorem thread_setPred_stkbase : (t.setPred n l v).stkbase = t.stkbase := rfl
@[simp] theorem thread_setPred_spillbase : (t.setPred n l v).spillbase = t.spillbase := rfl
@[simp] theorem thread_setPred_mathctl : (t.setPred n l v).mathctl = t.mathctl := rfl
@[simp] theorem thread_setPred_srcnt : (t.setPred n l v).srcnt = t.srcnt := rfl
@[simp] theorem thread_setPred_wlimit : (t.setPred n l v).wlimit = t.wlimit := rfl
@[simp] theorem thread_setPred_maxWidth : (t.setPred n l v).maxWidth = t.maxWidth := rfl
@[simp] theorem thread_setPred_pstat : (t.setPred n l v).pstat = t.pstat := rfl
@[simp] theorem thread_setPred_toks : (t.setPred n l v).toks = t.toks := rfl
@[simp] theorem thread_setPred_lct : (t.setPred n l v).lct = t.lct := rfl
@[simp] theorem thread_setPred_acq : (t.setPred n l v).acq = t.acq := rfl
@[simp] theorem thread_setPred_resident : (t.setPred n l v).resident = t.resident := rfl
@[simp] theorem thread_setPred_lastIssue : (t.setPred n l v).lastIssue = t.lastIssue := rfl
@[simp] theorem thread_setPred_idleTill : (t.setPred n l v).idleTill = t.idleTill := rfl
@[simp] theorem thread_setPred_prio : (t.setPred n l v).prio = t.prio := rfl
@[simp] theorem thread_setPred_codebase : (t.setPred n l v).codebase = t.codebase := rfl
@[simp] theorem thread_setPred_tile0 : (t.setPred n l v).tile0 = t.tile0 := rfl
@[simp] theorem thread_setPred_tiles : (t.setPred n l v).tiles = t.tiles := rfl
@[simp] theorem thread_setPred_park : (t.setPred n l v).park = t.park := rfl
@[simp] theorem thread_setPred_relDone : (t.setPred n l v).relDone = t.relDone := rfl
@[simp] theorem thread_setPred_only : (t.setPred n l v).only = t.only := rfl
@[simp] theorem thread_setPred_desc : (t.setPred n l v).desc = t.desc := rfl
@[simp] theorem thread_setPred_lineage : (t.setPred n l v).lineage = t.lineage := rfl
@[simp] theorem thread_setPred_claimSeq : (t.setPred n l v).claimSeq = t.claimSeq := rfl
@[simp] theorem thread_setPred_susp : (t.setPred n l v).susp = t.susp := rfl
@[simp] theorem thread_setPred_marked : (t.setPred n l v).marked = t.marked := rfl
@[simp] theorem thread_setPred_stopped : (t.setPred n l v).stopped = t.stopped := rfl
@[simp] theorem thread_setPred_peerLate : (t.setPred n l v).peerLate = t.peerLate := rfl
@[simp] theorem thread_setPred_lateNow : (t.setPred n l v).lateNow = t.lateNow := rfl
@[simp] theorem thread_setPred_wpNext : (t.setPred n l v).wpNext = t.wpNext := rfl
@[simp] theorem thread_setPred_bellT : (t.setPred n l v).bellT = t.bellT := rfl
end

section
variable (t : Thread) (l : Nat) (v : BitVec 5)
@[simp] theorem thread_setFlags_id : (t.setFlags l v).id = t.id := rfl
@[simp] theorem thread_setFlags_core : (t.setFlags l v).core = t.core := rfl
@[simp] theorem thread_setFlags_part : (t.setFlags l v).part = t.part := rfl
@[simp] theorem thread_setFlags_slot : (t.setFlags l v).slot = t.slot := rfl
@[simp] theorem thread_setFlags_f : (t.setFlags l v).f = t.f := rfl
@[simp] theorem thread_setFlags_width : (t.setFlags l v).width = t.width := rfl
@[simp] theorem thread_setFlags_kwidth : (t.setFlags l v).kwidth = t.kwidth := rfl
@[simp] theorem thread_setFlags_splits : (t.setFlags l v).splits = t.splits := rfl
@[simp] theorem thread_setFlags_hists : (t.setFlags l v).hists = t.hists := rfl
@[simp] theorem thread_setFlags_ctx : (t.setFlags l v).ctx = t.ctx := rfl
@[simp] theorem thread_setFlags_sup : (t.setFlags l v).sup = t.sup := rfl
@[simp] theorem thread_setFlags_memdef : (t.setFlags l v).memdef = t.memdef := rfl
@[simp] theorem thread_setFlags_launch : (t.setFlags l v).launch = t.launch := rfl
@[simp] theorem thread_setFlags_gang : (t.setFlags l v).gang = t.gang := rfl
@[simp] theorem thread_setFlags_team : (t.setFlags l v).team = t.team := rfl
@[simp] theorem thread_setFlags_grp : (t.setFlags l v).grp = t.grp := rfl
@[simp] theorem thread_setFlags_teamIdx : (t.setFlags l v).teamIdx = t.teamIdx := rfl
@[simp] theorem thread_setFlags_linear : (t.setFlags l v).linear = t.linear := rfl
@[simp] theorem thread_setFlags_pc : (t.setFlags l v).pc = t.pc := rfl
@[simp] theorem thread_setFlags_after : (t.setFlags l v).after = t.after := rfl
@[simp] theorem thread_setFlags_exec : (t.setFlags l v).exec = t.exec := rfl
@[simp] theorem thread_setFlags_live : (t.setFlags l v).live = t.live := rfl
@[simp] theorem thread_setFlags_rstack : (t.setFlags l v).rstack = t.rstack := rfl
@[simp] theorem thread_setFlags_sregs : (t.setFlags l v).sregs = t.sregs := rfl
@[simp] theorem thread_setFlags_preds : (t.setFlags l v).preds = t.preds := rfl
@[simp] theorem thread_setFlags_store : (t.setFlags l v).store = t.store := rfl
@[simp] theorem thread_setFlags_storePoison : (t.setFlags l v).storePoison = t.storePoison := rfl
@[simp] theorem thread_setFlags_wp : (t.setFlags l v).wp = t.wp := rfl
@[simp] theorem thread_setFlags_rbase : (t.setFlags l v).rbase = t.rbase := rfl
@[simp] theorem thread_setFlags_dres : (t.setFlags l v).dres = t.dres := rfl
@[simp] theorem thread_setFlags_lim : (t.setFlags l v).lim = t.lim := rfl
@[simp] theorem thread_setFlags_stkbase : (t.setFlags l v).stkbase = t.stkbase := rfl
@[simp] theorem thread_setFlags_spillbase : (t.setFlags l v).spillbase = t.spillbase := rfl
@[simp] theorem thread_setFlags_mathctl : (t.setFlags l v).mathctl = t.mathctl := rfl
@[simp] theorem thread_setFlags_srcnt : (t.setFlags l v).srcnt = t.srcnt := rfl
@[simp] theorem thread_setFlags_wlimit : (t.setFlags l v).wlimit = t.wlimit := rfl
@[simp] theorem thread_setFlags_maxWidth : (t.setFlags l v).maxWidth = t.maxWidth := rfl
@[simp] theorem thread_setFlags_pstat : (t.setFlags l v).pstat = t.pstat := rfl
@[simp] theorem thread_setFlags_toks : (t.setFlags l v).toks = t.toks := rfl
@[simp] theorem thread_setFlags_lct : (t.setFlags l v).lct = t.lct := rfl
@[simp] theorem thread_setFlags_acq : (t.setFlags l v).acq = t.acq := rfl
@[simp] theorem thread_setFlags_resident : (t.setFlags l v).resident = t.resident := rfl
@[simp] theorem thread_setFlags_lastIssue : (t.setFlags l v).lastIssue = t.lastIssue := rfl
@[simp] theorem thread_setFlags_idleTill : (t.setFlags l v).idleTill = t.idleTill := rfl
@[simp] theorem thread_setFlags_prio : (t.setFlags l v).prio = t.prio := rfl
@[simp] theorem thread_setFlags_codebase : (t.setFlags l v).codebase = t.codebase := rfl
@[simp] theorem thread_setFlags_tile0 : (t.setFlags l v).tile0 = t.tile0 := rfl
@[simp] theorem thread_setFlags_tiles : (t.setFlags l v).tiles = t.tiles := rfl
@[simp] theorem thread_setFlags_park : (t.setFlags l v).park = t.park := rfl
@[simp] theorem thread_setFlags_relDone : (t.setFlags l v).relDone = t.relDone := rfl
@[simp] theorem thread_setFlags_only : (t.setFlags l v).only = t.only := rfl
@[simp] theorem thread_setFlags_desc : (t.setFlags l v).desc = t.desc := rfl
@[simp] theorem thread_setFlags_lineage : (t.setFlags l v).lineage = t.lineage := rfl
@[simp] theorem thread_setFlags_claimSeq : (t.setFlags l v).claimSeq = t.claimSeq := rfl
@[simp] theorem thread_setFlags_susp : (t.setFlags l v).susp = t.susp := rfl
@[simp] theorem thread_setFlags_marked : (t.setFlags l v).marked = t.marked := rfl
@[simp] theorem thread_setFlags_stopped : (t.setFlags l v).stopped = t.stopped := rfl
@[simp] theorem thread_setFlags_peerLate : (t.setFlags l v).peerLate = t.peerLate := rfl
@[simp] theorem thread_setFlags_lateNow : (t.setFlags l v).lateNow = t.lateNow := rfl
@[simp] theorem thread_setFlags_wpNext : (t.setFlags l v).wpNext = t.wpNext := rfl
@[simp] theorem thread_setFlags_bellT : (t.setFlags l v).bellT = t.bellT := rfl
end

section
variable (t : Thread) (k : Nat) (v : Tok)
@[simp] theorem thread_setTok_id : (t.setTok k v).id = t.id := rfl
@[simp] theorem thread_setTok_core : (t.setTok k v).core = t.core := rfl
@[simp] theorem thread_setTok_part : (t.setTok k v).part = t.part := rfl
@[simp] theorem thread_setTok_slot : (t.setTok k v).slot = t.slot := rfl
@[simp] theorem thread_setTok_f : (t.setTok k v).f = t.f := rfl
@[simp] theorem thread_setTok_width : (t.setTok k v).width = t.width := rfl
@[simp] theorem thread_setTok_kwidth : (t.setTok k v).kwidth = t.kwidth := rfl
@[simp] theorem thread_setTok_splits : (t.setTok k v).splits = t.splits := rfl
@[simp] theorem thread_setTok_hists : (t.setTok k v).hists = t.hists := rfl
@[simp] theorem thread_setTok_ctx : (t.setTok k v).ctx = t.ctx := rfl
@[simp] theorem thread_setTok_sup : (t.setTok k v).sup = t.sup := rfl
@[simp] theorem thread_setTok_memdef : (t.setTok k v).memdef = t.memdef := rfl
@[simp] theorem thread_setTok_launch : (t.setTok k v).launch = t.launch := rfl
@[simp] theorem thread_setTok_gang : (t.setTok k v).gang = t.gang := rfl
@[simp] theorem thread_setTok_team : (t.setTok k v).team = t.team := rfl
@[simp] theorem thread_setTok_grp : (t.setTok k v).grp = t.grp := rfl
@[simp] theorem thread_setTok_teamIdx : (t.setTok k v).teamIdx = t.teamIdx := rfl
@[simp] theorem thread_setTok_linear : (t.setTok k v).linear = t.linear := rfl
@[simp] theorem thread_setTok_pc : (t.setTok k v).pc = t.pc := rfl
@[simp] theorem thread_setTok_after : (t.setTok k v).after = t.after := rfl
@[simp] theorem thread_setTok_exec : (t.setTok k v).exec = t.exec := rfl
@[simp] theorem thread_setTok_live : (t.setTok k v).live = t.live := rfl
@[simp] theorem thread_setTok_rstack : (t.setTok k v).rstack = t.rstack := rfl
@[simp] theorem thread_setTok_sregs : (t.setTok k v).sregs = t.sregs := rfl
@[simp] theorem thread_setTok_preds : (t.setTok k v).preds = t.preds := rfl
@[simp] theorem thread_setTok_fx : (t.setTok k v).fx = t.fx := rfl
@[simp] theorem thread_setTok_store : (t.setTok k v).store = t.store := rfl
@[simp] theorem thread_setTok_storePoison : (t.setTok k v).storePoison = t.storePoison := rfl
@[simp] theorem thread_setTok_wp : (t.setTok k v).wp = t.wp := rfl
@[simp] theorem thread_setTok_rbase : (t.setTok k v).rbase = t.rbase := rfl
@[simp] theorem thread_setTok_dres : (t.setTok k v).dres = t.dres := rfl
@[simp] theorem thread_setTok_lim : (t.setTok k v).lim = t.lim := rfl
@[simp] theorem thread_setTok_stkbase : (t.setTok k v).stkbase = t.stkbase := rfl
@[simp] theorem thread_setTok_spillbase : (t.setTok k v).spillbase = t.spillbase := rfl
@[simp] theorem thread_setTok_mathctl : (t.setTok k v).mathctl = t.mathctl := rfl
@[simp] theorem thread_setTok_srcnt : (t.setTok k v).srcnt = t.srcnt := rfl
@[simp] theorem thread_setTok_wlimit : (t.setTok k v).wlimit = t.wlimit := rfl
@[simp] theorem thread_setTok_maxWidth : (t.setTok k v).maxWidth = t.maxWidth := rfl
@[simp] theorem thread_setTok_pstat : (t.setTok k v).pstat = t.pstat := rfl
@[simp] theorem thread_setTok_lct : (t.setTok k v).lct = t.lct := rfl
@[simp] theorem thread_setTok_acq : (t.setTok k v).acq = t.acq := rfl
@[simp] theorem thread_setTok_resident : (t.setTok k v).resident = t.resident := rfl
@[simp] theorem thread_setTok_lastIssue : (t.setTok k v).lastIssue = t.lastIssue := rfl
@[simp] theorem thread_setTok_idleTill : (t.setTok k v).idleTill = t.idleTill := rfl
@[simp] theorem thread_setTok_prio : (t.setTok k v).prio = t.prio := rfl
@[simp] theorem thread_setTok_codebase : (t.setTok k v).codebase = t.codebase := rfl
@[simp] theorem thread_setTok_tile0 : (t.setTok k v).tile0 = t.tile0 := rfl
@[simp] theorem thread_setTok_tiles : (t.setTok k v).tiles = t.tiles := rfl
@[simp] theorem thread_setTok_park : (t.setTok k v).park = t.park := rfl
@[simp] theorem thread_setTok_relDone : (t.setTok k v).relDone = t.relDone := rfl
@[simp] theorem thread_setTok_only : (t.setTok k v).only = t.only := rfl
@[simp] theorem thread_setTok_desc : (t.setTok k v).desc = t.desc := rfl
@[simp] theorem thread_setTok_lineage : (t.setTok k v).lineage = t.lineage := rfl
@[simp] theorem thread_setTok_claimSeq : (t.setTok k v).claimSeq = t.claimSeq := rfl
@[simp] theorem thread_setTok_susp : (t.setTok k v).susp = t.susp := rfl
@[simp] theorem thread_setTok_marked : (t.setTok k v).marked = t.marked := rfl
@[simp] theorem thread_setTok_stopped : (t.setTok k v).stopped = t.stopped := rfl
@[simp] theorem thread_setTok_peerLate : (t.setTok k v).peerLate = t.peerLate := rfl
@[simp] theorem thread_setTok_lateNow : (t.setTok k v).lateNow = t.lateNow := rfl
@[simp] theorem thread_setTok_wpNext : (t.setTok k v).wpNext = t.wpNext := rfl
@[simp] theorem thread_setTok_bellT : (t.setTok k v).bellT = t.bellT := rfl
end

section
variable (t : Thread) (v : W64)
@[simp] theorem thread_parkRecords_id : (t.parkRecords v).id = t.id := rfl
@[simp] theorem thread_parkRecords_core : (t.parkRecords v).core = t.core := rfl
@[simp] theorem thread_parkRecords_part : (t.parkRecords v).part = t.part := rfl
@[simp] theorem thread_parkRecords_slot : (t.parkRecords v).slot = t.slot := rfl
@[simp] theorem thread_parkRecords_f : (t.parkRecords v).f = t.f := rfl
@[simp] theorem thread_parkRecords_width : (t.parkRecords v).width = t.width := rfl
@[simp] theorem thread_parkRecords_kwidth : (t.parkRecords v).kwidth = t.kwidth := rfl
@[simp] theorem thread_parkRecords_splits : (t.parkRecords v).splits = t.splits := rfl
@[simp] theorem thread_parkRecords_hists : (t.parkRecords v).hists = t.hists := rfl
@[simp] theorem thread_parkRecords_ctx : (t.parkRecords v).ctx = t.ctx := rfl
@[simp] theorem thread_parkRecords_sup : (t.parkRecords v).sup = t.sup := rfl
@[simp] theorem thread_parkRecords_memdef : (t.parkRecords v).memdef = t.memdef := rfl
@[simp] theorem thread_parkRecords_launch : (t.parkRecords v).launch = t.launch := rfl
@[simp] theorem thread_parkRecords_gang : (t.parkRecords v).gang = t.gang := rfl
@[simp] theorem thread_parkRecords_team : (t.parkRecords v).team = t.team := rfl
@[simp] theorem thread_parkRecords_grp : (t.parkRecords v).grp = t.grp := rfl
@[simp] theorem thread_parkRecords_teamIdx : (t.parkRecords v).teamIdx = t.teamIdx := rfl
@[simp] theorem thread_parkRecords_linear : (t.parkRecords v).linear = t.linear := rfl
@[simp] theorem thread_parkRecords_pc : (t.parkRecords v).pc = t.pc := rfl
@[simp] theorem thread_parkRecords_exec : (t.parkRecords v).exec = t.exec := rfl
@[simp] theorem thread_parkRecords_live : (t.parkRecords v).live = t.live := rfl
@[simp] theorem thread_parkRecords_rstack : (t.parkRecords v).rstack = t.rstack := rfl
@[simp] theorem thread_parkRecords_sregs : (t.parkRecords v).sregs = t.sregs := rfl
@[simp] theorem thread_parkRecords_preds : (t.parkRecords v).preds = t.preds := rfl
@[simp] theorem thread_parkRecords_fx : (t.parkRecords v).fx = t.fx := rfl
@[simp] theorem thread_parkRecords_store : (t.parkRecords v).store = t.store := rfl
@[simp] theorem thread_parkRecords_storePoison : (t.parkRecords v).storePoison = t.storePoison := rfl
@[simp] theorem thread_parkRecords_wp : (t.parkRecords v).wp = t.wp := rfl
@[simp] theorem thread_parkRecords_rbase : (t.parkRecords v).rbase = t.rbase := rfl
@[simp] theorem thread_parkRecords_dres : (t.parkRecords v).dres = t.dres := rfl
@[simp] theorem thread_parkRecords_lim : (t.parkRecords v).lim = t.lim := rfl
@[simp] theorem thread_parkRecords_stkbase : (t.parkRecords v).stkbase = t.stkbase := rfl
@[simp] theorem thread_parkRecords_spillbase : (t.parkRecords v).spillbase = t.spillbase := rfl
@[simp] theorem thread_parkRecords_mathctl : (t.parkRecords v).mathctl = t.mathctl := rfl
@[simp] theorem thread_parkRecords_srcnt : (t.parkRecords v).srcnt = t.srcnt := rfl
@[simp] theorem thread_parkRecords_wlimit : (t.parkRecords v).wlimit = t.wlimit := rfl
@[simp] theorem thread_parkRecords_maxWidth : (t.parkRecords v).maxWidth = t.maxWidth := rfl
@[simp] theorem thread_parkRecords_pstat : (t.parkRecords v).pstat = t.pstat := rfl
@[simp] theorem thread_parkRecords_toks : (t.parkRecords v).toks = t.toks := rfl
@[simp] theorem thread_parkRecords_lct : (t.parkRecords v).lct = t.lct := rfl
@[simp] theorem thread_parkRecords_acq : (t.parkRecords v).acq = t.acq := rfl
@[simp] theorem thread_parkRecords_resident : (t.parkRecords v).resident = t.resident := rfl
@[simp] theorem thread_parkRecords_lastIssue : (t.parkRecords v).lastIssue = t.lastIssue := rfl
@[simp] theorem thread_parkRecords_idleTill : (t.parkRecords v).idleTill = t.idleTill := rfl
@[simp] theorem thread_parkRecords_prio : (t.parkRecords v).prio = t.prio := rfl
@[simp] theorem thread_parkRecords_codebase : (t.parkRecords v).codebase = t.codebase := rfl
@[simp] theorem thread_parkRecords_tile0 : (t.parkRecords v).tile0 = t.tile0 := rfl
@[simp] theorem thread_parkRecords_tiles : (t.parkRecords v).tiles = t.tiles := rfl
@[simp] theorem thread_parkRecords_relDone : (t.parkRecords v).relDone = t.relDone := rfl
@[simp] theorem thread_parkRecords_only : (t.parkRecords v).only = t.only := rfl
@[simp] theorem thread_parkRecords_desc : (t.parkRecords v).desc = t.desc := rfl
@[simp] theorem thread_parkRecords_lineage : (t.parkRecords v).lineage = t.lineage := rfl
@[simp] theorem thread_parkRecords_claimSeq : (t.parkRecords v).claimSeq = t.claimSeq := rfl
@[simp] theorem thread_parkRecords_susp : (t.parkRecords v).susp = t.susp := rfl
@[simp] theorem thread_parkRecords_marked : (t.parkRecords v).marked = t.marked := rfl
@[simp] theorem thread_parkRecords_stopped : (t.parkRecords v).stopped = t.stopped := rfl
@[simp] theorem thread_parkRecords_peerLate : (t.parkRecords v).peerLate = t.peerLate := rfl
@[simp] theorem thread_parkRecords_lateNow : (t.parkRecords v).lateNow = t.lateNow := rfl
@[simp] theorem thread_parkRecords_wpNext : (t.parkRecords v).wpNext = t.wpNext := rfl
@[simp] theorem thread_parkRecords_bellT : (t.parkRecords v).bellT = t.bellT := rfl
end

end Sys2Proof.Machine
end

