-- ==== Sys2Proof/Laws/Memory.lean ====
section
/-! SUPPORT. Memory at its home: every operation over it keeps the canonical form, and what a read
gives after a write. -/

namespace Sys2Proof.Machine

theorem reset_memWf : State.reset.memWf := ⟨rfl, rfl, rfl, rfl⟩

/-- A state with the same memory keeps its form. -/
theorem State.memWf_of_eq {s s' : State} (h : s.memWf) (h1 : s'.mem = s.mem) (h2 : s'.tags = s.tags)
    (h3 : s'.memPoison = s.memPoison) (h4 : s'.dirty = s.dirty) : s'.memWf := by
  unfold State.memWf
  rw [h1, h2, h3, h4]
  exact h

theorem State.retag_wf (s : State) (line slot : Nat) (h : s.memWf) : (s.retag line slot).memWf := by
  unfold State.retag
  split
  · exact h
  · split
    · exact h
    · exact ⟨Sparse.wf_drop s.mem _ (fun a => line ≤ a && a < line + 128) h.1, Sparse.wf_set _ _ _ _ h.2.1, h.2.2.1, h.2.2.2⟩

theorem State.setByte_wf (s : State) (pa slot : Nat) (b : Byte) (h : s.memWf) :
    (s.setByte pa slot b).memWf := by
  have h := s.retag_wf (lineOf pa) slot h
  refine ⟨Sparse.wf_set _ _ _ _ h.1, h.2.1, h.2.2.1, ?_⟩
  simp only [State.setByte]
  split
  · exact Sparse.wf_set _ _ _ _ h.2.2.2
  · exact h.2.2.2

theorem State.foldl_wf {β : Type} (f : State → β → State) (l : List β)
    (hf : ∀ s x, s.memWf → (f s x).memWf) (s : State) (h : s.memWf) : (l.foldl f s).memWf := by
  induction l generalizing s with
  | nil => exact h
  | cons x l ih => exact ih _ (hf s x h)

theorem State.setLine_wf (s : State) (line slot : Nat) (bs : List (Nat × Byte)) (h : s.memWf) :
    (s.setLine line slot bs).memWf := by
  have h := State.foldl_wf (fun s (e : Nat × Byte) => s.setByte (line + e.1) slot e.2) bs
    (fun s x h => s.setByte_wf _ _ _ h) s h
  unfold State.setLine
  dsimp only
  split
  · exact ⟨h.1, h.2.1, Sparse.wf_set _ _ line 0 h.2.2.1, h.2.2.2⟩
  · exact h

theorem State.storeByte_wf (s : State) (pa slot : Nat) (b : Byte) (h : s.memWf) :
    (s.storeByte pa slot b).memWf := by
  unfold State.storeByte
  dsimp only
  split
  · split
    · exact h
    · exact s.setByte_wf _ _ _ h
  · exact s.setByte_wf _ _ _ h

theorem State.store_wf (s : State) (pa slot : Nat) (bs : List Byte) (h : s.memWf) :
    (s.store pa slot bs).memWf := by
  induction bs generalizing s pa with
  | nil => exact h
  | cons b bs ih => exact ih _ _ (s.storeByte_wf _ _ _ h)

/-! ## Reads after writes -/

@[simp] theorem State.retag_keys (s : State) (line slot : Nat) : (s.retag line slot).keys = s.keys := by
  unfold State.retag
  split
  · rfl
  · split <;> rfl

@[simp] theorem State.setByte_keys (s : State) (pa slot : Nat) (b : Byte) :
    (s.setByte pa slot b).keys = s.keys := by
  simp [State.setByte]

/-- A tag depends on the key slots alone. -/
theorem State.keyTag_of_keys {s s' : State} (h : s'.keys = s.keys) (slot : Nat) :
    s'.keyTag slot = s.keyTag slot := by
  simp [State.keyTag, State.epochOf, h]

/-- A line retagged for a slot reads as plaintext under it. -/
theorem State.retag_reads (s : State) (line slot : Nat) :
    (s.retag line slot).tagReads line slot = true := by
  unfold State.tagReads
  rw [State.keyTag_of_keys (s.retag_keys line slot)]
  unfold State.retag
  by_cases he : encrypted line
  · simp only [he, Bool.not_true, Bool.false_eq_true, if_false, Bool.false_or]
    split
    · rename_i hr
      simpa [State.tagReads, he] using hr
    · show (Sparse.get (Sparse.set s.tags (0, 0) line (s.keyTag slot)) (0, 0) line == s.keyTag slot) = true
      rw [Sparse.get_set_self]
      simp
  · simp [he]

/-- The byte stored reads back under the slot it was stored under (R290). -/
theorem State.homeByte_setByte_self (s : State) (pa slot : Nat) (b : Byte) :
    (s.setByte pa slot b).homeByte pa slot = b := by
  have ht : (s.setByte pa slot b).tagReads (lineOf pa) slot = true := by
    have := s.retag_reads (lineOf pa) slot
    unfold State.tagReads at this ⊢
    rw [State.keyTag_of_keys (s.setByte_keys pa slot b)]
    rw [State.keyTag_of_keys (s.retag_keys _ slot)] at this
    exact this
  unfold State.homeByte
  rw [if_pos ht]
  exact Sparse.get_set_self _ _ _ _

/-- A byte at its home depends on its line's tag, on the byte and on the key slots alone. -/
theorem State.homeByte_congr {s s' : State} (pa k : Nat)
    (ht : Sparse.get s'.tags (0, 0) (lineOf pa) = Sparse.get s.tags (0, 0) (lineOf pa))
    (hm : Sparse.get s'.mem 0 pa = Sparse.get s.mem 0 pa) (hk : s'.keys = s.keys) :
    s'.homeByte pa k = s.homeByte pa k := by
  unfold State.homeByte State.tagReads
  rw [State.keyTag_of_keys hk, ht, hm]

/-- Retagging a line leaves the bytes of every other line. -/
theorem State.homeByte_retag_other (s : State) (line pa slot k : Nat)
    (hl : line % 128 = 0) (hp : lineOf pa ≠ line) :
    (s.retag line slot).homeByte pa k = s.homeByte pa k := by
  unfold State.retag
  split
  · rfl
  · split
    · rfl
    · refine State.homeByte_congr pa k ?_ ?_ rfl
      · exact Sparse.get_set_other _ _ _ _ _ hp
      · refine (Sparse.get_drop s.mem _ (fun a => line ≤ a && a < line + 128) pa).trans (if_neg ?_)
        unfold lineOf at hp
        simp only [Bool.and_eq_true, decide_eq_true_eq]
        omega

/-- A store to a byte leaves the bytes of every other line as they read, under any slot. -/
theorem State.homeByte_setByte_other (s : State) (pa q slot k : Nat) (b : Byte)
    (hp : lineOf q ≠ lineOf pa) : (s.setByte pa slot b).homeByte q k = s.homeByte q k := by
  rw [← s.homeByte_retag_other (lineOf pa) q slot k (by unfold lineOf; omega) hp]
  exact State.homeByte_congr q k rfl
    (Sparse.get_set_other _ _ _ _ _ (fun e => hp (by rw [e]))) rfl

/-- A store to a byte of a line that already reads under the slot leaves every other byte of it. -/
theorem State.homeByte_setByte_line (s : State) (pa q slot : Nat) (b : Byte)
    (hr : s.tagReads (lineOf pa) slot = true) (hq : q ≠ pa) (k : Nat) :
    (s.setByte pa slot b).homeByte q k = s.homeByte q k := by
  have he : s.retag (lineOf pa) slot = s := by
    unfold State.retag
    rw [if_pos hr]
    split <;> rfl
  refine State.homeByte_congr q k ?_ ?_ (s.setByte_keys _ _ _)
  · show Sparse.get (s.retag (lineOf pa) slot).tags _ _ = _
    rw [he]
  · show Sparse.get (Sparse.set (s.retag (lineOf pa) slot).mem 0 pa b) 0 q = _
    rw [he]
    exact Sparse.get_set_other _ _ _ _ _ hq

end Sys2Proof.Machine
end

