-- ==== Sys2Proof/Laws/Cache.lean ====
section
/-! SUPPORT. What the caches' operations can do: they change the copies, the directories, the counter `fresh`, and
take lines off the record of dirty lines; nothing else. And what an instruction's late status write leaves. -/

namespace Sys2Proof.Machine

/-- Nothing but the caches has changed, and the record of dirty lines has at most lost some. -/
def State.cachesOnly (s s' : State) : Prop :=
  ∃ (cs : List Copy) (ds : List DirEntry) (fr : Nat) (p : Nat × Bool → Bool),
    s' = { s with caches := cs, dirs := ds, fresh := fr, dirty := s.dirty.filter p }

theorem State.cachesOnly_refl (s : State) : s.cachesOnly s :=
  ⟨s.caches, s.dirs, s.fresh, fun _ => true, by rw [List.filter_eq_self.2 (fun _ _ => rfl)]⟩

theorem State.cachesOnly_trans {s t u : State} (h : s.cachesOnly t) (g : t.cachesOnly u) : s.cachesOnly u := by
  obtain ⟨_, _, _, p, rfl⟩ := h
  obtain ⟨cs, ds, fr, q, rfl⟩ := g
  exact ⟨cs, ds, fr, fun e => q e && p e, by simp [List.filter_filter]⟩

theorem State.cachesOnly_foldl {β : Type} (f : State → β → State) (h : ∀ s b, State.cachesOnly s (f s b))
    (l : List β) (s : State) : s.cachesOnly (l.foldl f s) := by
  induction l generalizing s with
  | nil => exact s.cachesOnly_refl
  | cons b l ih => exact State.cachesOnly_trans (h s b) (ih _)

/-- A change of copies and directories alone. -/
theorem State.cachesOnly_with (s : State) (cs : List Copy) (ds : List DirEntry) (fr : Nat) :
    s.cachesOnly { s with caches := cs, dirs := ds, fresh := fr } :=
  ⟨cs, ds, fr, fun _ => true, by rw [List.filter_eq_self.2 (fun _ _ => rfl)]⟩

theorem State.touch_caches (s : State) (place line : Nat) : s.cachesOnly (s.touch place line) :=
  s.cachesOnly_with _ s.dirs s.fresh

theorem State.evict_caches (s : State) (c : Copy) : s.cachesOnly (s.evict c) := by
  by_cases h : c.place < 52
  · simp only [State.evict, h, if_true]
    exact s.cachesOnly_with _ s.dirs s.fresh
  · simp only [State.evict, h, if_false]
    exact ⟨_, s.dirs, s.fresh, _, rfl⟩

theorem State.cacheRoom_caches (s : State) (place line : Nat) : s.cachesOnly (s.cacheRoom place line) := by
  unfold State.cacheRoom
  split
  · exact s.cachesOnly_refl
  · dsimp only
    generalize List.find? _ _ = v
    cases v with
    | none => exact s.cachesOnly_refl
    | some c => exact s.evict_caches c

theorem State.enter_caches (s : State) (place line : Nat) (lease : Option Lease) (cache : Nat) :
    s.cachesOnly (s.enter place line lease cache) :=
  State.cachesOnly_trans (s.cachesOnly_with _ s.dirs s.fresh)
    (State.cachesOnly_trans (State.cacheRoom_caches _ place line) (State.cachesOnly_with _ _ _ _))

theorem State.invalidate1_caches (s : State) (cluster line : Nat) : s.cachesOnly (s.invalidate1 cluster line) := by
  unfold State.invalidate1
  split
  · exact s.cachesOnly_refl
  · exact s.cachesOnly_with _ s.dirs s.fresh

theorem State.invalidate_caches (s : State) (clusters : List Nat) (line : Nat) :
    s.cachesOnly (s.invalidate clusters line) :=
  State.cachesOnly_trans (State.cachesOnly_foldl _ (fun s c => s.invalidate1_caches c line) clusters s)
    (State.cachesOnly_with _ _ _ _)

theorem State.dirEvict_caches (s : State) (e : DirEntry) : s.cachesOnly (s.dirEvict e) :=
  State.cachesOnly_trans (State.cachesOnly_foldl _ (fun s l =>
    State.cachesOnly_foldl _ (fun s c => s.invalidate1_caches c l) e.clusters s) (regionLines e.region) s)
    (State.cachesOnly_with _ _ _ _)

theorem State.dirRoom_caches (s : State) (line : Nat) : s.cachesOnly (s.dirRoom line) := by
  unfold State.dirRoom
  split
  · exact s.cachesOnly_refl
  · dsimp only
    generalize List.filter s.dirIdle _ = es
    cases es with
    | nil => exact s.cachesOnly_refl
    | cons e es =>
      simp only [State.freeValue]
      split
      · exact State.cachesOnly_trans (s.cachesOnly_with s.caches s.dirs (s.fresh + 1)) (State.dirEvict_caches _ _)
      · exact s.cachesOnly_with s.caches s.dirs (s.fresh + 1)

theorem State.dirNote_caches (s : State) (cluster line : Nat) : s.cachesOnly (s.dirNote cluster line) := by
  unfold State.dirNote
  split
  · exact s.cachesOnly_with _ _ s.fresh
  · exact State.cachesOnly_trans (s.dirRoom_caches line) (State.cachesOnly_with _ _ _ _)

theorem State.useL2_caches (s : State) (line cache : Nat) : s.cachesOnly (s.useL2 line cache) := by
  unfold State.useL2
  repeat' split
  · exact s.cachesOnly_refl
  · exact s.touch_caches _ _
  · exact s.enter_caches _ _ _ _
  · exact s.cachesOnly_refl

/-- A load, store or prefetch on its line's home die changes nothing but the caches. -/
theorem State.useHome_caches (s : State) (core line cache : Nat) : s.cachesOnly (s.useHome core line cache) := by
  unfold State.useHome
  split
  · exact s.touch_caches _ _
  · dsimp only
    split
    · exact State.cachesOnly_trans (s.useL2_caches line cache)
        (State.cachesOnly_trans (State.dirNote_caches _ _ _) (State.enter_caches _ _ _ _ _))
    · exact s.useL2_caches line cache

/-- What changes the caches alone keeps the canonical forms of memory. -/
theorem State.memWf_of_cachesOnly {s s' : State} (h : s.cachesOnly s') (hw : s.memWf) : s'.memWf := by
  obtain ⟨_, _, _, p, rfl⟩ := h
  exact ⟨hw.1, hw.2.1, hw.2.2.1, Sparse.wf_filter _ _ p hw.2.2.2⟩

/-- A status write of the present thread: at once, or kept with the thread until its register's lock is released. -/
theorem State.finish_cases (s : State) (h : Hdr) (d : Nat) (v : W64) {t : Thread} (hc : s.cur = .thread t.id)
    (ht : s.thread? t.id = some t) :
    (s.locked t d = false ∧ s.finish h d v = (s.setSreg d v).advance h)
      ∨ (s.locked t d = true
        ∧ s.finish h d v = (s.advance h).setThread { t.wentOn (nextPc t.pc h) with park := .lock d v false }) := by
  cases hl : s.locked t d <;> simp [State.finish, hc, ht, hl]

end Sys2Proof.Machine
end

