-- ==== Sys2Proof/Laws/Ops.lean ====
section
/-! SUPPORT. What the shared operations do: replacing a thread, going on to an address, the gate, and
taking a trap. -/

namespace Sys2Proof.Machine

/-! ## Replacing a thread -/

theorem find_map_id (l : List Thread) (t u : Thread) (h : l.find? (fun x => x.id == t.id) = some u) :
    (l.map (fun x => if x.id == t.id then t else x)).find? (fun x => x.id == t.id) = some t := by
  induction l with
  | nil => simp at h
  | cons x l ih =>
    rw [List.map_cons, List.find?_cons]
    by_cases hx : x.id == t.id
    · simp [hx]
    · rw [List.find?_cons] at h
      simp only [hx] at h
      simp only [hx, Bool.false_eq_true, if_false]
      exact ih h

/-- A thread that is there and is replaced reads as its replacement. -/
theorem thread_setThread (s : State) (t u : Thread) (h : s.thread? t.id = some u) :
    (s.setThread t).thread? t.id = some t := find_map_id s.threads t u h

/-- A thread of another number is as before. -/
theorem thread_setThread_other (s : State) (t : Thread) (n : Nat) (h : n ≠ t.id) :
    (s.setThread t).thread? n = s.thread? n := by
  unfold State.thread? State.setThread
  induction s.threads with
  | nil => rfl
  | cons x l ih =>
    simp only [List.map_cons, List.find?_cons]
    rw [ih]
    by_cases hx : x.id = t.id
    · have h1 : (t.id == n) = false := by simpa using Ne.symm h
      simp [hx, h1]
    · simp [hx]

/-- Of two replacements the later one counts. -/
theorem setThread_setThread (s : State) (t u : Thread) (h : t.id = u.id) :
    (s.setThread t).setThread u = s.setThread u := by
  unfold State.setThread
  simp only [List.map_map]
  congr 1
  apply List.map_congr_left
  intro x _
  simp only [Function.comp]
  by_cases hx : x.id = t.id
  · simp [hx, h]
  · have : ¬ x.id = u.id := fun e => hx (e.trans h.symm)
    simp [hx, this]

theorem sameMemory_setThread (s : State) (t : Thread) : sameMemory s (s.setThread t) :=
  fun _ _ => rfl

/-! ## The present thread -/

theorem goto_thread {s : State} {t : Thread} (hc : s.cur = .thread t.id) (ht : s.thread? t.id = some t)
    (pc : W64) : s.goto pc = s.setThread (t.wentOn pc) := by
  unfold State.goto
  rw [hc]
  simp only [ht]

theorem pc_thread {s : State} {t : Thread} (hc : s.cur = .thread t.id) (ht : s.thread? t.id = some t) :
    s.pc = t.pc := by
  unfold State.pc
  rw [hc]
  simp only [ht]

theorem sreg_thread {s : State} {t : Thread} (hc : s.cur = .thread t.id)
    (ht : s.thread? t.id = some t) (n : Nat) : s.sreg n = t.sreg n := by
  unfold State.sreg
  rw [hc]
  simp only [ht]

theorem setSreg_thread {s : State} {t : Thread} (hc : s.cur = .thread t.id)
    (ht : s.thread? t.id = some t) (n : Nat) (v : W64) :
    s.setSreg n v = s.setThread (t.setSreg n v) := by
  unfold State.setSreg
  rw [hc]
  simp only [ht]

/-- A thread replaced, going on to the next instruction. -/
theorem advance_setThread {s : State} {t : Thread} (hc : s.cur = .thread t.id)
    (ht : s.thread? t.id = some t) (u : Thread) (hu : u.id = t.id) (h : Hdr) :
    (s.setThread u).advance h = s.setThread (u.wentOn (nextPc u.pc h)) := by
  have hc' : (s.setThread u).cur = .thread u.id := by rw [hu]; exact hc
  have ht' : (s.setThread u).thread? u.id = some u := thread_setThread s u t (by rw [hu]; exact ht)
  unfold State.advance
  rw [pc_thread hc' ht', goto_thread hc' ht', setThread_setThread]
  rfl

theorem advance_thread {s : State} {t : Thread} (hc : s.cur = .thread t.id)
    (ht : s.thread? t.id = some t) (h : Hdr) :
    s.advance h = s.setThread (t.wentOn (nextPc t.pc h)) := by
  unfold State.advance
  rw [pc_thread hc ht, goto_thread hc ht]

theorem withThread_thread {s : State} {t : Thread} (hc : s.cur = .thread t.id)
    (ht : s.thread? t.id = some t) (f : Thread → State) : s.withThread f = f t := by
  unfold State.withThread
  rw [hc]
  simp only [ht]

/-! ## The gate -/

theorem checkInstr_of_wellFormed {i : Instr} (h : wellFormed i = true) : checkInstr i = none := by
  unfold wellFormed at h
  exact Option.isNone_iff_eq_none.1 h

/-- An instruction that nothing keeps from its effect passes the gate. -/
theorem gate_ready {i : Instr} {s : State} {t : Thread} (h : Ready i s t) : gate i s = none := by
  unfold gate
  have hl := checkInstr_of_wellFormed h.legal
  have hm := h.mode
  have hs := h.sound
  unfold opcode at hm
  have h1 := h.unlocked
  have h2 := h.clear
  have h3 := h.room
  unfold uses at h1 h2 hs
  unfold opcode at h3
  simp only [h.cur, h.here, h.onTime, hl, Bool.false_eq_true, if_false]
  by_cases hp : privileged (opOf ((mainWord i).getD 0)) = true
  · simp only [hp, hm hp, h1, h2, h3, hs, Bool.not_true, Bool.and_false, Bool.or_self,
      Bool.false_eq_true, if_false, bne_self_eq_false]
  · simp only [hp, h1, h2, h3, hs, Bool.false_and, Bool.and_false, Bool.or_self, Bool.false_eq_true, if_false,
      bne_self_eq_false]

theorem gate_readyProctor {i : Instr} {s : State} {c : Nat} (h : ReadyProctor i s c) :
    gate i s = none := by
  unfold gate
  have hl := checkInstr_of_wellFormed h.legal
  have h1 := h.accepted
  have h2 := h.clear
  unfold opcode at h1
  unfold uses at h2
  simp only [h.cur, hl, h1, h2, h.plain, Bool.not_true, Option.isSome_none, Bool.or_self, Bool.false_eq_true,
    if_false]

/-- Past its gate an instruction has its effect. -/
theorem run_ready {i : Instr} {s : State} (h : gate i s = none) (f : State → State) :
    run i s f = .next (f s) := by
  unfold run
  rw [h]

/-- An instruction always goes on to a next state. -/
theorem run_next (i : Instr) (s : State) (f : State → State) : ∃ s', run i s f = .next s' := by
  unfold run
  cases gate i s <;> exact ⟨_, rfl⟩

/-! ## Traps -/

/-- A group's trap either posts one record and parks the group on it, or leaves the group to issue
again, where its queue has no free place (R358, R362). -/
theorem trapThread_cases (s : State) (t : Thread) (i : TrapInfo) (pc after : W64) :
    (∃ s₁, s.postAll t.core [threadPost t 0x01 (t.f + lowLane i.lanes) i.lanes (trapPayload i pc)]
        = some s₁ ∧ s.trapThread t i pc after = s₁.setThread ({ t with pc := pc }.parkRecords after)) ∨
    (s.postAll t.core [threadPost t 0x01 (t.f + lowLane i.lanes) i.lanes (trapPayload i pc)] = none ∧
      s.trapThread t i pc after = s.setThread { t with park := .poll }) := by
  unfold State.trapThread
  split
  · rename_i s₁ h1
    exact .inl ⟨s₁, h1, rfl⟩
  · rename_i h1
    exact .inr ⟨h1, rfl⟩

/-- A proctor lane's trap while IE is set (R376): the saved registers, the mode and the new pc. -/
theorem trapProctor_enters (s : State) (c v k a : Nat) (epc : W64) (int : Bool)
    (h : int = true ∨ (s.core c).proctor.ie = true) :
    s.trapProctor c v k a epc int = s.setProctor c
      { (s.core c).proctor with
        evec := BitVec.ofNat 16 v, ecause := BitVec.ofNat 16 k, eaddr := BitVec.ofNat 64 a, epc := epc
        ie := false, pc := (s.core c).proctor.pvbase + BitVec.ofNat 64 (192 * v), park := .run
        relDone := false, wake := none } := by
  unfold State.trapProctor
  rcases h with h | h <;> simp [h]

end Sys2Proof.Machine
end

