-- ==== Sys2Proof/Laws/PerInstr.lean ====
section
/-! SUPPORT. The round trip of each instruction's main word (R135, R145 to R150, R157), one lemma for
each constructor. -/

namespace Sys2Proof.Laws

/-! ## Fields of concatenated words -/

theorem extract_low {n m : Nat} (a : BitVec n) (b : BitVec m) (lo w : Nat) (h : lo + w ≤ m) :
    (a ++ b).extractLsb' lo w = b.extractLsb' lo w := by
  apply BitVec.eq_of_getLsbD_eq
  intro i hi
  simp only [BitVec.getLsbD_extractLsb', BitVec.getLsbD_append]
  rw [if_pos (by omega)]

theorem extract_high {n m : Nat} (a : BitVec n) (b : BitVec m) (lo w : Nat) (h : m ≤ lo) :
    (a ++ b).extractLsb' lo w = a.extractLsb' (lo - m) w := by
  apply BitVec.eq_of_getLsbD_eq
  intro i hi
  simp only [BitVec.getLsbD_extractLsb', BitVec.getLsbD_append]
  rw [if_neg (by omega), show lo + i - m = lo - m + i by omega]

theorem extract_all {n : Nat} (a : BitVec n) : a.extractLsb' 0 n = a := by
  apply BitVec.eq_of_getLsbD_eq
  intro i hi
  simp [hi]

theorem getLsbD_low {n m : Nat} (a : BitVec n) (b : BitVec m) (i : Nat) (h : i < m) :
    (a ++ b).getLsbD i = b.getLsbD i := by
  rw [BitVec.getLsbD_append, if_pos h]

theorem getLsbD_high {n m : Nat} (a : BitVec n) (b : BitVec m) (i : Nat) (h : m ≤ i) :
    (a ++ b).getLsbD i = a.getLsbD (i - m) := by
  rw [BitVec.getLsbD_append, if_neg (by omega)]

/-! ## Main words -/

theorem mainOf_op (h : Hdr) (op : BitVec 8) (low : BitVec 20) : opOf (mainOf h op low) = op.toNat := by
  unfold opOf field mainOf
  rw [extract_high _ low 20 8 (by omega), extract_low _ op _ 8 (by omega)]
  simp

theorem mainOf_low (h : Hdr) (op : BitVec 8) (low : BitVec 20) (lo w : Nat) (hw : lo + w ≤ 20) :
    (mainOf h op low).extractLsb' lo w = low.extractLsb' lo w := extract_low _ low lo w hw

theorem mainOf_bit (h : Hdr) (op : BitVec 8) (low : BitVec 20) (i : Nat) (hi : i < 20) :
    (mainOf h op low).getLsbD i = low.getLsbD i := getLsbD_low _ low i hi

theorem mainOf_c (h : Hdr) (op : BitVec 8) (low : BitVec 20) : (mainOf h op low).getLsbD 31 = h.c := by
  unfold mainOf
  rw [getLsbD_high _ low 31 (by omega), getLsbD_high _ op _ (by omega), getLsbD_high _ h.g _ (by omega)]
  simp

theorem mainOf_g (h : Hdr) (op : BitVec 8) (low : BitVec 20) :
    (mainOf h op low).extractLsb' 28 3 = h.g := by
  unfold mainOf
  rw [extract_high _ low 28 3 (by omega), extract_high _ op _ 3 (by omega),
    extract_low _ h.g _ 3 (by omega)]
  exact extract_all h.g

/-- The main word of an instruction holds its chain bit and guard, and builds the instruction: no
field of it is dropped or moved. A step of the device that has no encoding has no main word. -/
def Encoding.Statement (i : Instr) : Prop :=
  ∀ m, mainWord i = some m → orderAgrees i = true →
    m.getLsbD 31 = (hdrOf i).c ∧ m.extractLsb' 28 3 = (hdrOf i).g ∧ buildInstr (hdrOf i) m = some i

theorem Encoding.of_build (i : Instr) (h : Hdr) (op : BitVec 8) (low : BitVec 20)
    (hm : mainWord i = some (mainOf h op low)) (hh : hdrOf i = h)
    (hb : buildInstr h (mainOf h op low) = some i) : Encoding.Statement i := by
  intro m h1 _
  rw [hm] at h1
  cases h1
  rw [hh]
  exact ⟨mainOf_c h op low, mainOf_g h op low, hb⟩

theorem Encoding.of_event (i : Instr) (hm : mainWord i = none) : Encoding.Statement i := by
  intro m h1 _
  rw [hm] at h1
  cases h1

theorem low_0c3_15_2 (b : BitVec 15) (c : BitVec 2) :
    (0#3 ++ b ++ c : BitVec 20).extractLsb' 2 15 = b ∧
    (0#3 ++ b ++ c : BitVec 20).extractLsb' 0 2 = c :=
  ⟨(extract_high (0#3 ++ b) (c) 2 15 (by omega)).trans ((extract_low (0#3) (b) 0 15 (by omega)).trans (extract_all (b))),
    (extract_low (0#3 ++ b) (c) 0 2 (by omega)).trans (extract_all (c))⟩
theorem low_3_15_2 (a : BitVec 3) (b : BitVec 15) (c : BitVec 2) :
    (a ++ b ++ c : BitVec 20).extractLsb' 17 3 = a ∧
    (a ++ b ++ c : BitVec 20).extractLsb' 2 15 = b ∧
    (a ++ b ++ c : BitVec 20).extractLsb' 0 2 = c :=
  ⟨(extract_high (a ++ b) (c) 17 3 (by omega)).trans ((extract_high (a) (b) 15 3 (by omega)).trans (extract_all (a))),
    (extract_high (a ++ b) (c) 2 15 (by omega)).trans ((extract_low (a) (b) 0 15 (by omega)).trans (extract_all (b))),
    (extract_low (a ++ b) (c) 0 2 (by omega)).trans (extract_all (c))⟩
theorem low_0c7_7_0c6 (b : BitVec 7) :
    (0#7 ++ b ++ 0#6 : BitVec 20).extractLsb' 6 7 = b :=
  (extract_high (0#7 ++ b) (0#6) 6 7 (by omega)).trans ((extract_low (0#7) (b) 0 7 (by omega)).trans (extract_all (b)))
theorem low_0c7_7_6 (b : BitVec 7) (c : BitVec 6) :
    (0#7 ++ b ++ c : BitVec 20).extractLsb' 6 7 = b ∧
    (0#7 ++ b ++ c : BitVec 20).extractLsb' 0 6 = c :=
  ⟨(extract_high (0#7 ++ b) (c) 6 7 (by omega)).trans ((extract_low (0#7) (b) 0 7 (by omega)).trans (extract_all (b))),
    (extract_low (0#7 ++ b) (c) 0 6 (by omega)).trans (extract_all (c))⟩
theorem low_7_7_6 (a : BitVec 7) (b : BitVec 7) (c : BitVec 6) :
    (a ++ b ++ c : BitVec 20).extractLsb' 13 7 = a ∧
    (a ++ b ++ c : BitVec 20).extractLsb' 6 7 = b ∧
    (a ++ b ++ c : BitVec 20).extractLsb' 0 6 = c :=
  ⟨(extract_high (a ++ b) (c) 13 7 (by omega)).trans ((extract_high (a) (b) 7 7 (by omega)).trans (extract_all (a))),
    (extract_high (a ++ b) (c) 6 7 (by omega)).trans ((extract_low (a) (b) 0 7 (by omega)).trans (extract_all (b))),
    (extract_low (a ++ b) (c) 0 6 (by omega)).trans (extract_all (c))⟩
theorem low_0c14_6 (b : BitVec 6) :
    (0#14 ++ b : BitVec 20).extractLsb' 0 6 = b :=
  (extract_low (0#14) (b) 0 6 (by omega)).trans (extract_all (b))
theorem low_7_7_0c6 (a : BitVec 7) (b : BitVec 7) :
    (a ++ b ++ 0#6 : BitVec 20).extractLsb' 13 7 = a ∧
    (a ++ b ++ 0#6 : BitVec 20).extractLsb' 6 7 = b ∧
    (a ++ b ++ 0#6 : BitVec 20).getLsbD 0 = (0#6).getLsbD 0 ∧
    (a ++ b ++ 0#6 : BitVec 20).extractLsb' 0 2 = (0#6).extractLsb' 0 2 :=
  ⟨(extract_high (a ++ b) (0#6) 13 7 (by omega)).trans ((extract_high (a) (b) 7 7 (by omega)).trans (extract_all (a))),
    (extract_high (a ++ b) (0#6) 6 7 (by omega)).trans ((extract_low (a) (b) 0 7 (by omega)).trans (extract_all (b))),
    getLsbD_low (a ++ b) (0#6) 0 (by omega),
    extract_low (a ++ b) (0#6) 0 2 (by omega)⟩
theorem low_7_7_1c6 (a : BitVec 7) (b : BitVec 7) :
    (a ++ b ++ 1#6 : BitVec 20).getLsbD 0 = (1#6).getLsbD 0 ∧
    (a ++ b ++ 1#6 : BitVec 20).extractLsb' 13 7 = a ∧
    (a ++ b ++ 1#6 : BitVec 20).extractLsb' 6 7 = b ∧
    (a ++ b ++ 1#6 : BitVec 20).extractLsb' 1 1 = (1#6).extractLsb' 1 1 ∧
    (a ++ b ++ 1#6 : BitVec 20).extractLsb' 0 2 = (1#6).extractLsb' 0 2 :=
  ⟨getLsbD_low (a ++ b) (1#6) 0 (by omega),
    (extract_high (a ++ b) (1#6) 13 7 (by omega)).trans ((extract_high (a) (b) 7 7 (by omega)).trans (extract_all (a))),
    (extract_high (a ++ b) (1#6) 6 7 (by omega)).trans ((extract_low (a) (b) 0 7 (by omega)).trans (extract_all (b))),
    extract_low (a ++ b) (1#6) 1 1 (by omega),
    extract_low (a ++ b) (1#6) 0 2 (by omega)⟩
theorem low_7_0c7_6 (a : BitVec 7) (c : BitVec 6) :
    (a ++ 0#7 ++ c : BitVec 20).extractLsb' 13 7 = a ∧
    (a ++ 0#7 ++ c : BitVec 20).extractLsb' 0 6 = c :=
  ⟨(extract_high (a ++ 0#7) (c) 13 7 (by omega)).trans ((extract_high (a) (0#7) 7 7 (by omega)).trans (extract_all (a))),
    (extract_low (a ++ 0#7) (c) 0 6 (by omega)).trans (extract_all (c))⟩
theorem low_6_0c1_7_6 (a : BitVec 6) (c : BitVec 7) (d : BitVec 6) :
    (a ++ 0#1 ++ c ++ d : BitVec 20).getLsbD 13 = (0#1).getLsbD 0 ∧
    (a ++ 0#1 ++ c ++ d : BitVec 20).extractLsb' 14 6 = a ∧
    (a ++ 0#1 ++ c ++ d : BitVec 20).extractLsb' 6 7 = c ∧
    (a ++ 0#1 ++ c ++ d : BitVec 20).extractLsb' 0 6 = d :=
  ⟨(getLsbD_high (a ++ 0#1 ++ c) (d) 13 (by omega)).trans ((getLsbD_high (a ++ 0#1) (c) 7 (by omega)).trans (getLsbD_low (a) (0#1) 0 (by omega))),
    (extract_high (a ++ 0#1 ++ c) (d) 14 6 (by omega)).trans ((extract_high (a ++ 0#1) (c) 8 6 (by omega)).trans ((extract_high (a) (0#1) 1 6 (by omega)).trans (extract_all (a)))),
    (extract_high (a ++ 0#1 ++ c) (d) 6 7 (by omega)).trans ((extract_low (a ++ 0#1) (c) 0 7 (by omega)).trans (extract_all (c))),
    (extract_low (a ++ 0#1 ++ c) (d) 0 6 (by omega)).trans (extract_all (d))⟩
theorem low_6_1c1_7_6 (a : BitVec 6) (c : BitVec 7) (d : BitVec 6) :
    (a ++ 1#1 ++ c ++ d : BitVec 20).getLsbD 13 = (1#1).getLsbD 0 ∧
    (a ++ 1#1 ++ c ++ d : BitVec 20).extractLsb' 14 6 = a ∧
    (a ++ 1#1 ++ c ++ d : BitVec 20).extractLsb' 6 7 = c ∧
    (a ++ 1#1 ++ c ++ d : BitVec 20).extractLsb' 0 6 = d :=
  ⟨(getLsbD_high (a ++ 1#1 ++ c) (d) 13 (by omega)).trans ((getLsbD_high (a ++ 1#1) (c) 7 (by omega)).trans (getLsbD_low (a) (1#1) 0 (by omega))),
    (extract_high (a ++ 1#1 ++ c) (d) 14 6 (by omega)).trans ((extract_high (a ++ 1#1) (c) 8 6 (by omega)).trans ((extract_high (a) (1#1) 1 6 (by omega)).trans (extract_all (a)))),
    (extract_high (a ++ 1#1 ++ c) (d) 6 7 (by omega)).trans ((extract_low (a ++ 1#1) (c) 0 7 (by omega)).trans (extract_all (c))),
    (extract_low (a ++ 1#1 ++ c) (d) 0 6 (by omega)).trans (extract_all (d))⟩
theorem low_6_0c6_8 (a : BitVec 6) (c : BitVec 8) :
    (a ++ 0#6 ++ c : BitVec 20).extractLsb' 14 6 = a ∧
    (a ++ 0#6 ++ c : BitVec 20).extractLsb' 0 8 = c :=
  ⟨(extract_high (a ++ 0#6) (c) 14 6 (by omega)).trans ((extract_high (a) (0#6) 6 6 (by omega)).trans (extract_all (a))),
    (extract_low (a ++ 0#6) (c) 0 8 (by omega)).trans (extract_all (c))⟩
theorem low_6_6_6_2 (a : BitVec 6) (b : BitVec 6) (c : BitVec 6) (d : BitVec 2) :
    (a ++ b ++ c ++ d : BitVec 20).extractLsb' 14 6 = a ∧
    (a ++ b ++ c ++ d : BitVec 20).extractLsb' 8 6 = b ∧
    (a ++ b ++ c ++ d : BitVec 20).extractLsb' 2 6 = c ∧
    (a ++ b ++ c ++ d : BitVec 20).extractLsb' 0 2 = d :=
  ⟨(extract_high (a ++ b ++ c) (d) 14 6 (by omega)).trans ((extract_high (a ++ b) (c) 12 6 (by omega)).trans ((extract_high (a) (b) 6 6 (by omega)).trans (extract_all (a)))),
    (extract_high (a ++ b ++ c) (d) 8 6 (by omega)).trans ((extract_high (a ++ b) (c) 6 6 (by omega)).trans ((extract_low (a) (b) 0 6 (by omega)).trans (extract_all (b)))),
    (extract_high (a ++ b ++ c) (d) 2 6 (by omega)).trans ((extract_low (a ++ b) (c) 0 6 (by omega)).trans (extract_all (c))),
    (extract_low (a ++ b ++ c) (d) 0 2 (by omega)).trans (extract_all (d))⟩
theorem low_6_6_0c6_2 (a : BitVec 6) (b : BitVec 6) (d : BitVec 2) :
    (a ++ b ++ 0#6 ++ d : BitVec 20).extractLsb' 14 6 = a ∧
    (a ++ b ++ 0#6 ++ d : BitVec 20).extractLsb' 8 6 = b ∧
    (a ++ b ++ 0#6 ++ d : BitVec 20).extractLsb' 0 2 = d ∧
    (a ++ b ++ 0#6 ++ d : BitVec 20).extractLsb' 2 6 = 0#6 :=
  ⟨(extract_high (a ++ b ++ 0#6) (d) 14 6 (by omega)).trans ((extract_high (a ++ b) (0#6) 12 6 (by omega)).trans ((extract_high (a) (b) 6 6 (by omega)).trans (extract_all (a)))),
    (extract_high (a ++ b ++ 0#6) (d) 8 6 (by omega)).trans ((extract_high (a ++ b) (0#6) 6 6 (by omega)).trans ((extract_low (a) (b) 0 6 (by omega)).trans (extract_all (b)))),
    (extract_low (a ++ b ++ 0#6) (d) 0 2 (by omega)).trans (extract_all (d)),
    (extract_high (a ++ b ++ 0#6) (d) 2 6 (by omega)).trans ((extract_low (a ++ b) (0#6) 0 6 (by omega)).trans (extract_all (0#6)))⟩
theorem low_6_6_0c1_7 (a : BitVec 6) (b : BitVec 6) (d : BitVec 7) :
    (a ++ b ++ 0#1 ++ d : BitVec 20).extractLsb' 14 6 = a ∧
    (a ++ b ++ 0#1 ++ d : BitVec 20).extractLsb' 8 6 = b ∧
    (a ++ b ++ 0#1 ++ d : BitVec 20).extractLsb' 0 7 = d :=
  ⟨(extract_high (a ++ b ++ 0#1) (d) 14 6 (by omega)).trans ((extract_high (a ++ b) (0#1) 7 6 (by omega)).trans ((extract_high (a) (b) 6 6 (by omega)).trans (extract_all (a)))),
    (extract_high (a ++ b ++ 0#1) (d) 8 6 (by omega)).trans ((extract_high (a ++ b) (0#1) 1 6 (by omega)).trans ((extract_low (a) (b) 0 6 (by omega)).trans (extract_all (b)))),
    (extract_low (a ++ b ++ 0#1) (d) 0 7 (by omega)).trans (extract_all (d))⟩
theorem low_6_6_6_0c2 (a : BitVec 6) (b : BitVec 6) (c : BitVec 6) :
    (a ++ b ++ c ++ 0#2 : BitVec 20).extractLsb' 14 6 = a ∧
    (a ++ b ++ c ++ 0#2 : BitVec 20).extractLsb' 8 6 = b ∧
    (a ++ b ++ c ++ 0#2 : BitVec 20).extractLsb' 2 6 = c :=
  ⟨(extract_high (a ++ b ++ c) (0#2) 14 6 (by omega)).trans ((extract_high (a ++ b) (c) 12 6 (by omega)).trans ((extract_high (a) (b) 6 6 (by omega)).trans (extract_all (a)))),
    (extract_high (a ++ b ++ c) (0#2) 8 6 (by omega)).trans ((extract_high (a ++ b) (c) 6 6 (by omega)).trans ((extract_low (a) (b) 0 6 (by omega)).trans (extract_all (b)))),
    (extract_high (a ++ b ++ c) (0#2) 2 6 (by omega)).trans ((extract_low (a ++ b) (c) 0 6 (by omega)).trans (extract_all (c)))⟩
theorem low_6_6_0c8 (a : BitVec 6) (b : BitVec 6) :
    (a ++ b ++ 0#8 : BitVec 20).extractLsb' 14 6 = a ∧
    (a ++ b ++ 0#8 : BitVec 20).extractLsb' 8 6 = b :=
  ⟨(extract_high (a ++ b) (0#8) 14 6 (by omega)).trans ((extract_high (a) (b) 6 6 (by omega)).trans (extract_all (a))),
    (extract_high (a ++ b) (0#8) 8 6 (by omega)).trans ((extract_low (a) (b) 0 6 (by omega)).trans (extract_all (b)))⟩
theorem low_6_6_8 (a : BitVec 6) (b : BitVec 6) (c : BitVec 8) :
    (a ++ b ++ c : BitVec 20).extractLsb' 14 6 = a ∧
    (a ++ b ++ c : BitVec 20).extractLsb' 8 6 = b ∧
    (a ++ b ++ c : BitVec 20).extractLsb' 0 8 = c :=
  ⟨(extract_high (a ++ b) (c) 14 6 (by omega)).trans ((extract_high (a) (b) 6 6 (by omega)).trans (extract_all (a))),
    (extract_high (a ++ b) (c) 8 6 (by omega)).trans ((extract_low (a) (b) 0 6 (by omega)).trans (extract_all (b))),
    (extract_low (a ++ b) (c) 0 8 (by omega)).trans (extract_all (c))⟩
theorem low_6_6c14 (a : BitVec 6) :
    (a ++ 6#14 : BitVec 20).extractLsb' 2 6 = (6#14).extractLsb' 2 6 ∧
    (a ++ 6#14 : BitVec 20).extractLsb' 14 6 = a ∧
    (a ++ 6#14 : BitVec 20).extractLsb' 8 6 = (6#14).extractLsb' 8 6 ∧
    (a ++ 6#14 : BitVec 20).extractLsb' 0 2 = (6#14).extractLsb' 0 2 :=
  ⟨extract_low (a) (6#14) 2 6 (by omega),
    (extract_high (a) (6#14) 14 6 (by omega)).trans (extract_all (a)),
    extract_low (a) (6#14) 8 6 (by omega),
    extract_low (a) (6#14) 0 2 (by omega)⟩
theorem low_0c6_6_10c8 (b : BitVec 6) :
    (0#6 ++ b ++ 10#8 : BitVec 20).extractLsb' 2 6 = (10#8).extractLsb' 2 6 ∧
    (0#6 ++ b ++ 10#8 : BitVec 20).extractLsb' 14 6 = 0#6 ∧
    (0#6 ++ b ++ 10#8 : BitVec 20).extractLsb' 8 6 = b ∧
    (0#6 ++ b ++ 10#8 : BitVec 20).extractLsb' 0 2 = (10#8).extractLsb' 0 2 :=
  ⟨extract_low (0#6 ++ b) (10#8) 2 6 (by omega),
    (extract_high (0#6 ++ b) (10#8) 14 6 (by omega)).trans ((extract_high (0#6) (b) 6 6 (by omega)).trans (extract_all (0#6))),
    (extract_high (0#6 ++ b) (10#8) 8 6 (by omega)).trans ((extract_low (0#6) (b) 0 6 (by omega)).trans (extract_all (b))),
    extract_low (0#6 ++ b) (10#8) 0 2 (by omega)⟩
theorem low_6_6_4_4 (a : BitVec 6) (b : BitVec 6) (c : BitVec 4) (d : BitVec 4) :
    (a ++ b ++ c ++ d : BitVec 20).extractLsb' 14 6 = a ∧
    (a ++ b ++ c ++ d : BitVec 20).extractLsb' 8 6 = b ∧
    (a ++ b ++ c ++ d : BitVec 20).extractLsb' 4 4 = c ∧
    (a ++ b ++ c ++ d : BitVec 20).extractLsb' 0 4 = d :=
  ⟨(extract_high (a ++ b ++ c) (d) 14 6 (by omega)).trans ((extract_high (a ++ b) (c) 10 6 (by omega)).trans ((extract_high (a) (b) 6 6 (by omega)).trans (extract_all (a)))),
    (extract_high (a ++ b ++ c) (d) 8 6 (by omega)).trans ((extract_high (a ++ b) (c) 4 6 (by omega)).trans ((extract_low (a) (b) 0 6 (by omega)).trans (extract_all (b)))),
    (extract_high (a ++ b ++ c) (d) 4 4 (by omega)).trans ((extract_low (a ++ b) (c) 0 4 (by omega)).trans (extract_all (c))),
    (extract_low (a ++ b ++ c) (d) 0 4 (by omega)).trans (extract_all (d))⟩
theorem low_0c6_6_0c8 (b : BitVec 6) :
    (0#6 ++ b ++ 0#8 : BitVec 20).extractLsb' 8 6 = b :=
  (extract_high (0#6 ++ b) (0#8) 8 6 (by omega)).trans ((extract_low (0#6) (b) 0 6 (by omega)).trans (extract_all (b)))
theorem low_7_0c13 (a : BitVec 7) :
    (a ++ 0#13 : BitVec 20).getLsbD 0 = (0#13).getLsbD 0 ∧
    (a ++ 0#13 : BitVec 20).extractLsb' 13 7 = a ∧
    (a ++ 0#13 : BitVec 20).extractLsb' 6 7 = (0#13).extractLsb' 6 7 ∧
    (a ++ 0#13 : BitVec 20).extractLsb' 3 2 = (0#13).extractLsb' 3 2 ∧
    (a ++ 0#13 : BitVec 20).extractLsb' 5 1 = (0#13).extractLsb' 5 1 ∧
    (a ++ 0#13 : BitVec 20).extractLsb' 0 3 = (0#13).extractLsb' 0 3 :=
  ⟨getLsbD_low (a) (0#13) 0 (by omega),
    (extract_high (a) (0#13) 13 7 (by omega)).trans (extract_all (a)),
    extract_low (a) (0#13) 6 7 (by omega),
    extract_low (a) (0#13) 3 2 (by omega),
    extract_low (a) (0#13) 5 1 (by omega),
    extract_low (a) (0#13) 0 3 (by omega)⟩
theorem low_5_5_5_5 (a : BitVec 5) (b : BitVec 5) (c : BitVec 5) (d : BitVec 5) :
    (a ++ b ++ c ++ d : BitVec 20).extractLsb' 15 5 = a ∧
    (a ++ b ++ c ++ d : BitVec 20).extractLsb' 10 5 = b ∧
    (a ++ b ++ c ++ d : BitVec 20).extractLsb' 5 5 = c ∧
    (a ++ b ++ c ++ d : BitVec 20).extractLsb' 0 5 = d :=
  ⟨(extract_high (a ++ b ++ c) (d) 15 5 (by omega)).trans ((extract_high (a ++ b) (c) 10 5 (by omega)).trans ((extract_high (a) (b) 5 5 (by omega)).trans (extract_all (a)))),
    (extract_high (a ++ b ++ c) (d) 10 5 (by omega)).trans ((extract_high (a ++ b) (c) 5 5 (by omega)).trans ((extract_low (a) (b) 0 5 (by omega)).trans (extract_all (b)))),
    (extract_high (a ++ b ++ c) (d) 5 5 (by omega)).trans ((extract_low (a ++ b) (c) 0 5 (by omega)).trans (extract_all (c))),
    (extract_low (a ++ b ++ c) (d) 0 5 (by omega)).trans (extract_all (d))⟩
theorem low_0c7_7_0c3_3 (b : BitVec 7) (d : BitVec 3) :
    (0#7 ++ b ++ 0#3 ++ d : BitVec 20).extractLsb' 6 7 = b ∧
    (0#7 ++ b ++ 0#3 ++ d : BitVec 20).extractLsb' 0 3 = d ∧
    (0#7 ++ b ++ 0#3 ++ d : BitVec 20).getLsbD 5 = (0#3).getLsbD 2 ∧
    (0#7 ++ b ++ 0#3 ++ d : BitVec 20).extractLsb' 13 7 = 0#7 :=
  ⟨(extract_high (0#7 ++ b ++ 0#3) (d) 6 7 (by omega)).trans ((extract_high (0#7 ++ b) (0#3) 3 7 (by omega)).trans ((extract_low (0#7) (b) 0 7 (by omega)).trans (extract_all (b)))),
    (extract_low (0#7 ++ b ++ 0#3) (d) 0 3 (by omega)).trans (extract_all (d)),
    (getLsbD_high (0#7 ++ b ++ 0#3) (d) 5 (by omega)).trans (getLsbD_low (0#7 ++ b) (0#3) 2 (by omega)),
    (extract_high (0#7 ++ b ++ 0#3) (d) 13 7 (by omega)).trans ((extract_high (0#7 ++ b) (0#3) 10 7 (by omega)).trans ((extract_high (0#7) (b) 7 7 (by omega)).trans (extract_all (0#7))))⟩
theorem low_6_6_6_1c1_1 (a : BitVec 6) (b : BitVec 6) (c : BitVec 6) (e : BitVec 1) :
    (a ++ b ++ c ++ 1#1 ++ e : BitVec 20).extractLsb' 14 6 = a ∧
    (a ++ b ++ c ++ 1#1 ++ e : BitVec 20).extractLsb' 8 6 = b ∧
    (a ++ b ++ c ++ 1#1 ++ e : BitVec 20).extractLsb' 2 6 = c ∧
    (a ++ b ++ c ++ 1#1 ++ e : BitVec 20).extractLsb' 0 1 = e :=
  ⟨(extract_high (a ++ b ++ c ++ 1#1) (e) 14 6 (by omega)).trans ((extract_high (a ++ b ++ c) (1#1) 13 6 (by omega)).trans ((extract_high (a ++ b) (c) 12 6 (by omega)).trans ((extract_high (a) (b) 6 6 (by omega)).trans (extract_all (a))))),
    (extract_high (a ++ b ++ c ++ 1#1) (e) 8 6 (by omega)).trans ((extract_high (a ++ b ++ c) (1#1) 7 6 (by omega)).trans ((extract_high (a ++ b) (c) 6 6 (by omega)).trans ((extract_low (a) (b) 0 6 (by omega)).trans (extract_all (b))))),
    (extract_high (a ++ b ++ c ++ 1#1) (e) 2 6 (by omega)).trans ((extract_high (a ++ b ++ c) (1#1) 1 6 (by omega)).trans ((extract_low (a ++ b) (c) 0 6 (by omega)).trans (extract_all (c)))),
    (extract_low (a ++ b ++ c ++ 1#1) (e) 0 1 (by omega)).trans (extract_all (e))⟩
theorem low_0c6_6_6_2 (b : BitVec 6) (c : BitVec 6) (d : BitVec 2) :
    (0#6 ++ b ++ c ++ d : BitVec 20).extractLsb' 8 6 = b ∧
    (0#6 ++ b ++ c ++ d : BitVec 20).extractLsb' 2 6 = c ∧
    (0#6 ++ b ++ c ++ d : BitVec 20).extractLsb' 0 2 = d :=
  ⟨(extract_high (0#6 ++ b ++ c) (d) 8 6 (by omega)).trans ((extract_high (0#6 ++ b) (c) 6 6 (by omega)).trans ((extract_low (0#6) (b) 0 6 (by omega)).trans (extract_all (b)))),
    (extract_high (0#6 ++ b ++ c) (d) 2 6 (by omega)).trans ((extract_low (0#6 ++ b) (c) 0 6 (by omega)).trans (extract_all (c))),
    (extract_low (0#6 ++ b ++ c) (d) 0 2 (by omega)).trans (extract_all (d))⟩
theorem low_7_7_1_1_1_1_0c2 (a : BitVec 7) (b : BitVec 7) (c : BitVec 1) (d : BitVec 1) (e : BitVec 1) (f : BitVec 1) :
    (a ++ b ++ c ++ d ++ e ++ f ++ 0#2 : BitVec 20).extractLsb' 13 7 = a ∧
    (a ++ b ++ c ++ d ++ e ++ f ++ 0#2 : BitVec 20).extractLsb' 6 7 = b ∧
    (a ++ b ++ c ++ d ++ e ++ f ++ 0#2 : BitVec 20).extractLsb' 5 1 = c ∧
    (a ++ b ++ c ++ d ++ e ++ f ++ 0#2 : BitVec 20).extractLsb' 4 1 = d ∧
    (a ++ b ++ c ++ d ++ e ++ f ++ 0#2 : BitVec 20).extractLsb' 3 1 = e ∧
    (a ++ b ++ c ++ d ++ e ++ f ++ 0#2 : BitVec 20).extractLsb' 2 1 = f :=
  ⟨(extract_high (a ++ b ++ c ++ d ++ e ++ f) (0#2) 13 7 (by omega)).trans ((extract_high (a ++ b ++ c ++ d ++ e) (f) 11 7 (by omega)).trans ((extract_high (a ++ b ++ c ++ d) (e) 10 7 (by omega)).trans ((extract_high (a ++ b ++ c) (d) 9 7 (by omega)).trans ((extract_high (a ++ b) (c) 8 7 (by omega)).trans ((extract_high (a) (b) 7 7 (by omega)).trans (extract_all (a))))))),
    (extract_high (a ++ b ++ c ++ d ++ e ++ f) (0#2) 6 7 (by omega)).trans ((extract_high (a ++ b ++ c ++ d ++ e) (f) 4 7 (by omega)).trans ((extract_high (a ++ b ++ c ++ d) (e) 3 7 (by omega)).trans ((extract_high (a ++ b ++ c) (d) 2 7 (by omega)).trans ((extract_high (a ++ b) (c) 1 7 (by omega)).trans ((extract_low (a) (b) 0 7 (by omega)).trans (extract_all (b))))))),
    (extract_high (a ++ b ++ c ++ d ++ e ++ f) (0#2) 5 1 (by omega)).trans ((extract_high (a ++ b ++ c ++ d ++ e) (f) 3 1 (by omega)).trans ((extract_high (a ++ b ++ c ++ d) (e) 2 1 (by omega)).trans ((extract_high (a ++ b ++ c) (d) 1 1 (by omega)).trans ((extract_low (a ++ b) (c) 0 1 (by omega)).trans (extract_all (c)))))),
    (extract_high (a ++ b ++ c ++ d ++ e ++ f) (0#2) 4 1 (by omega)).trans ((extract_high (a ++ b ++ c ++ d ++ e) (f) 2 1 (by omega)).trans ((extract_high (a ++ b ++ c ++ d) (e) 1 1 (by omega)).trans ((extract_low (a ++ b ++ c) (d) 0 1 (by omega)).trans (extract_all (d))))),
    (extract_high (a ++ b ++ c ++ d ++ e ++ f) (0#2) 3 1 (by omega)).trans ((extract_high (a ++ b ++ c ++ d ++ e) (f) 1 1 (by omega)).trans ((extract_low (a ++ b ++ c ++ d) (e) 0 1 (by omega)).trans (extract_all (e)))),
    (extract_high (a ++ b ++ c ++ d ++ e ++ f) (0#2) 2 1 (by omega)).trans ((extract_low (a ++ b ++ c ++ d ++ e) (f) 0 1 (by omega)).trans (extract_all (f)))⟩
theorem low_7_7_1_1c2_3 (a : BitVec 7) (b : BitVec 7) (c : BitVec 1) (e : BitVec 3) :
    (a ++ b ++ c ++ 1#2 ++ e : BitVec 20).extractLsb' 3 2 = 1#2 ∧
    (a ++ b ++ c ++ 1#2 ++ e : BitVec 20).extractLsb' 13 7 = a ∧
    (a ++ b ++ c ++ 1#2 ++ e : BitVec 20).extractLsb' 6 7 = b ∧
    (a ++ b ++ c ++ 1#2 ++ e : BitVec 20).extractLsb' 5 1 = c ∧
    (a ++ b ++ c ++ 1#2 ++ e : BitVec 20).extractLsb' 0 3 = e :=
  ⟨(extract_high (a ++ b ++ c ++ 1#2) (e) 3 2 (by omega)).trans ((extract_low (a ++ b ++ c) (1#2) 0 2 (by omega)).trans (extract_all (1#2))),
    (extract_high (a ++ b ++ c ++ 1#2) (e) 13 7 (by omega)).trans ((extract_high (a ++ b ++ c) (1#2) 10 7 (by omega)).trans ((extract_high (a ++ b) (c) 8 7 (by omega)).trans ((extract_high (a) (b) 7 7 (by omega)).trans (extract_all (a))))),
    (extract_high (a ++ b ++ c ++ 1#2) (e) 6 7 (by omega)).trans ((extract_high (a ++ b ++ c) (1#2) 3 7 (by omega)).trans ((extract_high (a ++ b) (c) 1 7 (by omega)).trans ((extract_low (a) (b) 0 7 (by omega)).trans (extract_all (b))))),
    (extract_high (a ++ b ++ c ++ 1#2) (e) 5 1 (by omega)).trans ((extract_high (a ++ b ++ c) (1#2) 2 1 (by omega)).trans ((extract_low (a ++ b) (c) 0 1 (by omega)).trans (extract_all (c)))),
    (extract_low (a ++ b ++ c ++ 1#2) (e) 0 3 (by omega)).trans (extract_all (e))⟩
theorem low_7_7_2c3_3 (a : BitVec 7) (b : BitVec 7) (d : BitVec 3) :
    (a ++ b ++ 2#3 ++ d : BitVec 20).extractLsb' 3 2 = (2#3).extractLsb' 0 2 ∧
    (a ++ b ++ 2#3 ++ d : BitVec 20).extractLsb' 13 7 = a ∧
    (a ++ b ++ 2#3 ++ d : BitVec 20).extractLsb' 6 7 = b ∧
    (a ++ b ++ 2#3 ++ d : BitVec 20).extractLsb' 5 1 = (2#3).extractLsb' 2 1 ∧
    (a ++ b ++ 2#3 ++ d : BitVec 20).extractLsb' 0 3 = d :=
  ⟨(extract_high (a ++ b ++ 2#3) (d) 3 2 (by omega)).trans (extract_low (a ++ b) (2#3) 0 2 (by omega)),
    (extract_high (a ++ b ++ 2#3) (d) 13 7 (by omega)).trans ((extract_high (a ++ b) (2#3) 10 7 (by omega)).trans ((extract_high (a) (b) 7 7 (by omega)).trans (extract_all (a)))),
    (extract_high (a ++ b ++ 2#3) (d) 6 7 (by omega)).trans ((extract_high (a ++ b) (2#3) 3 7 (by omega)).trans ((extract_low (a) (b) 0 7 (by omega)).trans (extract_all (b)))),
    (extract_high (a ++ b ++ 2#3) (d) 5 1 (by omega)).trans (extract_low (a ++ b) (2#3) 2 1 (by omega)),
    (extract_low (a ++ b ++ 2#3) (d) 0 3 (by omega)).trans (extract_all (d))⟩
theorem low_7_1c13 (a : BitVec 7) :
    (a ++ 1#13 : BitVec 20).getLsbD 0 = (1#13).getLsbD 0 ∧
    (a ++ 1#13 : BitVec 20).extractLsb' 13 7 = a :=
  ⟨getLsbD_low (a) (1#13) 0 (by omega),
    (extract_high (a) (1#13) 13 7 (by omega)).trans (extract_all (a))⟩
theorem low_7_7_4c3_3 (a : BitVec 7) (b : BitVec 7) (d : BitVec 3) :
    (a ++ b ++ 4#3 ++ d : BitVec 20).getLsbD 5 = (4#3).getLsbD 2 ∧
    (a ++ b ++ 4#3 ++ d : BitVec 20).extractLsb' 13 7 = a ∧
    (a ++ b ++ 4#3 ++ d : BitVec 20).extractLsb' 6 7 = b ∧
    (a ++ b ++ 4#3 ++ d : BitVec 20).extractLsb' 0 3 = d :=
  ⟨(getLsbD_high (a ++ b ++ 4#3) (d) 5 (by omega)).trans (getLsbD_low (a ++ b) (4#3) 2 (by omega)),
    (extract_high (a ++ b ++ 4#3) (d) 13 7 (by omega)).trans ((extract_high (a ++ b) (4#3) 10 7 (by omega)).trans ((extract_high (a) (b) 7 7 (by omega)).trans (extract_all (a)))),
    (extract_high (a ++ b ++ 4#3) (d) 6 7 (by omega)).trans ((extract_high (a ++ b) (4#3) 3 7 (by omega)).trans ((extract_low (a) (b) 0 7 (by omega)).trans (extract_all (b)))),
    (extract_low (a ++ b ++ 4#3) (d) 0 3 (by omega)).trans (extract_all (d))⟩
theorem low_0c12_8 (b : BitVec 8) :
    (0#12 ++ b : BitVec 20).extractLsb' 0 8 = b :=
  (extract_low (0#12) (b) 0 8 (by omega)).trans (extract_all (b))
theorem low_7_7_0c4_1_0c1 (a : BitVec 7) (b : BitVec 7) (d : BitVec 1) :
    (a ++ b ++ 0#4 ++ d ++ 0#1 : BitVec 20).getLsbD 0 = (0#1).getLsbD 0 ∧
    (a ++ b ++ 0#4 ++ d ++ 0#1 : BitVec 20).extractLsb' 13 7 = a ∧
    (a ++ b ++ 0#4 ++ d ++ 0#1 : BitVec 20).extractLsb' 6 7 = b ∧
    (a ++ b ++ 0#4 ++ d ++ 0#1 : BitVec 20).extractLsb' 1 1 = d :=
  ⟨getLsbD_low (a ++ b ++ 0#4 ++ d) (0#1) 0 (by omega),
    (extract_high (a ++ b ++ 0#4 ++ d) (0#1) 13 7 (by omega)).trans ((extract_high (a ++ b ++ 0#4) (d) 12 7 (by omega)).trans ((extract_high (a ++ b) (0#4) 11 7 (by omega)).trans ((extract_high (a) (b) 7 7 (by omega)).trans (extract_all (a))))),
    (extract_high (a ++ b ++ 0#4 ++ d) (0#1) 6 7 (by omega)).trans ((extract_high (a ++ b ++ 0#4) (d) 5 7 (by omega)).trans ((extract_high (a ++ b) (0#4) 4 7 (by omega)).trans ((extract_low (a) (b) 0 7 (by omega)).trans (extract_all (b))))),
    (extract_high (a ++ b ++ 0#4 ++ d) (0#1) 1 1 (by omega)).trans ((extract_low (a ++ b ++ 0#4) (d) 0 1 (by omega)).trans (extract_all (d)))⟩
theorem low_7_7_2c6 (a : BitVec 7) (b : BitVec 7) :
    (a ++ b ++ 2#6 : BitVec 20).extractLsb' 0 2 = (2#6).extractLsb' 0 2 ∧
    (a ++ b ++ 2#6 : BitVec 20).extractLsb' 13 7 = a ∧
    (a ++ b ++ 2#6 : BitVec 20).extractLsb' 6 7 = b :=
  ⟨extract_low (a ++ b) (2#6) 0 2 (by omega),
    (extract_high (a ++ b) (2#6) 13 7 (by omega)).trans ((extract_high (a) (b) 7 7 (by omega)).trans (extract_all (a))),
    (extract_high (a ++ b) (2#6) 6 7 (by omega)).trans ((extract_low (a) (b) 0 7 (by omega)).trans (extract_all (b)))⟩
theorem Encoding.deviceReset : Encoding.Statement .deviceReset := Encoding.of_event _ rfl
theorem Encoding.stageLimitExceeded : Encoding.Statement .stageLimitExceeded := Encoding.of_event _ rfl
theorem Encoding.bootrepStore : Encoding.Statement .bootrepStore := Encoding.of_event _ rfl
theorem Encoding.startokWrite : Encoding.Statement .startokWrite := Encoding.of_event _ rfl
theorem Encoding.measurementExtend : Encoding.Statement .measurementExtend := Encoding.of_event _ rfl
theorem Encoding.quoteRequest : Encoding.Statement .quoteRequest := Encoding.of_event _ rfl
theorem Encoding.quoteComplete : Encoding.Statement .quoteComplete := Encoding.of_event _ rfl
theorem Encoding.hostQuoteRequest : Encoding.Statement .hostQuoteRequest := Encoding.of_event _ rfl
theorem Encoding.standInClaim : Encoding.Statement .standInClaim := Encoding.of_event _ rfl
theorem Encoding.standInRelease : Encoding.Statement .standInRelease := Encoding.of_event _ rfl
theorem Encoding.maintWriteFlash : Encoding.Statement .maintWriteFlash := Encoding.of_event _ rfl
theorem Encoding.maintResetCounter : Encoding.Statement .maintResetCounter := Encoding.of_event _ rfl
theorem Encoding.fmodeWrite : Encoding.Statement .fmodeWrite := Encoding.of_event _ rfl
theorem Encoding.fmodeWriteComplete : Encoding.Statement .fmodeWriteComplete := Encoding.of_event _ rfl
theorem Encoding.powerLoss : Encoding.Statement .powerLoss := Encoding.of_event _ rfl
theorem Encoding.powerCapExceeded : Encoding.Statement .powerCapExceeded := Encoding.of_event _ rfl
theorem Encoding.pwrcapWrite : Encoding.Statement .pwrcapWrite := Encoding.of_event _ rfl
theorem Encoding.dieStop : Encoding.Statement .dieStop := Encoding.of_event _ rfl
theorem Encoding.dieStopHalt : Encoding.Statement .dieStopHalt := Encoding.of_event _ rfl
theorem Encoding.dieRestart : Encoding.Statement .dieRestart := Encoding.of_event _ rfl
theorem Encoding.plcstatUpdate : Encoding.Statement .plcstatUpdate := Encoding.of_event _ rfl
theorem Encoding.ptpSyncExchange : Encoding.Statement .ptpSyncExchange := Encoding.of_event _ rfl
theorem Encoding.ptpboundWrite : Encoding.Statement .ptpboundWrite := Encoding.of_event _ rfl
theorem Encoding.registerWrite : Encoding.Statement .registerWrite := Encoding.of_event _ rfl
theorem Encoding.ctxCreate : Encoding.Statement .ctxCreate := Encoding.of_event _ rfl
theorem Encoding.ctxSetMemdef : Encoding.Statement .ctxSetMemdef := Encoding.of_event _ rfl
theorem Encoding.keySeal : Encoding.Statement .keySeal := Encoding.of_event _ rfl
theorem Encoding.keyUnseal : Encoding.Statement .keyUnseal := Encoding.of_event _ rfl
theorem Encoding.launchSubmit : Encoding.Statement .launchSubmit := Encoding.of_event _ rfl
theorem Encoding.launchChecks : Encoding.Statement .launchChecks := Encoding.of_event _ rfl
theorem Encoding.mailboxSend : Encoding.Statement .mailboxSend := Encoding.of_event _ rfl
theorem Encoding.mailboxConsumed : Encoding.Statement .mailboxConsumed := Encoding.of_event _ rfl
theorem Encoding.placementStep : Encoding.Statement .placementStep := Encoding.of_event _ rfl
theorem Encoding.clusterReserve : Encoding.Statement .clusterReserve := Encoding.of_event _ rfl
theorem Encoding.fetchBlockFill : Encoding.Statement .fetchBlockFill := Encoding.of_event _ rfl
theorem Encoding.pageWalkEnd : Encoding.Statement .pageWalkEnd := Encoding.of_event _ rfl
theorem Encoding.walkansWrite : Encoding.Statement .walkansWrite := Encoding.of_event _ rfl
theorem Encoding.acqueryStore : Encoding.Statement .acqueryStore := Encoding.of_event _ rfl
theorem Encoding.shootdownRequest : Encoding.Statement .shootdownRequest := Encoding.of_event _ rfl
theorem Encoding.shootdownComplete : Encoding.Statement .shootdownComplete := Encoding.of_event _ rfl
theorem Encoding.migrationStart : Encoding.Statement .migrationStart := Encoding.of_event _ rfl
theorem Encoding.migrationCopy : Encoding.Statement .migrationCopy := Encoding.of_event _ rfl
theorem Encoding.migrationRemap : Encoding.Statement .migrationRemap := Encoding.of_event _ rfl
theorem Encoding.migrationReport : Encoding.Statement .migrationReport := Encoding.of_event _ rfl
theorem Encoding.miglistWrite : Encoding.Statement .miglistWrite := Encoding.of_event _ rfl
theorem Encoding.rbaseWrite : Encoding.Statement .rbaseWrite := Encoding.of_event _ rfl
theorem Encoding.spillFillDone : Encoding.Statement .spillFillDone := Encoding.of_event _ rfl
theorem Encoding.hqbaseWrite : Encoding.Statement .hqbaseWrite := Encoding.of_event _ rfl
theorem Encoding.cpyansWrite : Encoding.Statement .cpyansWrite := Encoding.of_event _ rfl
theorem Encoding.pinstallWrite : Encoding.Statement .pinstallWrite := Encoding.of_event _ rfl
theorem Encoding.pdoneWrite : Encoding.Statement .pdoneWrite := Encoding.of_event _ rfl
theorem Encoding.loadReturn : Encoding.Statement .loadReturn := Encoding.of_event _ rfl
theorem Encoding.storeAck : Encoding.Statement .storeAck := Encoding.of_event _ rfl
theorem Encoding.atomReply : Encoding.Statement .atomReply := Encoding.of_event _ rfl
theorem Encoding.writeArriveHome : Encoding.Statement .writeArriveHome := Encoding.of_event _ rfl
theorem Encoding.writeVisible : Encoding.Statement .writeVisible := Encoding.of_event _ rfl
theorem Encoding.lineFill : Encoding.Statement .lineFill := Encoding.of_event _ rfl
theorem Encoding.leaseExpiry : Encoding.Statement .leaseExpiry := Encoding.of_event _ rfl
theorem Encoding.redMerge : Encoding.Statement .redMerge := Encoding.of_event _ rfl
theorem Encoding.peerPacketExecute : Encoding.Statement .peerPacketExecute := Encoding.of_event _ rfl
theorem Encoding.peerTimeout : Encoding.Statement .peerTimeout := Encoding.of_event _ rfl
theorem Encoding.hostWrite : Encoding.Statement .hostWrite := Encoding.of_event _ rfl
theorem Encoding.hostRead : Encoding.Statement .hostRead := Encoding.of_event _ rfl
theorem Encoding.storageCompletion : Encoding.Statement .storageCompletion := Encoding.of_event _ rfl
theorem Encoding.copyLineTransfer : Encoding.Statement .copyLineTransfer := Encoding.of_event _ rfl
theorem Encoding.copyComplete : Encoding.Statement .copyComplete := Encoding.of_event _ rfl
theorem Encoding.pressOperationCommit : Encoding.Statement .pressOperationCommit := Encoding.of_event _ rfl
theorem Encoding.gangPartReady : Encoding.Statement .gangPartReady := Encoding.of_event _ rfl
theorem Encoding.gangBoundExpiry : Encoding.Statement .gangBoundExpiry := Encoding.of_event _ rfl
theorem Encoding.mtileEnd : Encoding.Statement .mtileEnd := Encoding.of_event _ rfl
theorem Encoding.proofRecompute : Encoding.Statement .proofRecompute := Encoding.of_event _ rfl
theorem Encoding.releaseComplete : Encoding.Statement .releaseComplete := Encoding.of_event _ rfl
theorem Encoding.sleepWake : Encoding.Statement .sleepWake := Encoding.of_event _ rfl
theorem Encoding.fuseWaitDeadline : Encoding.Statement .fuseWaitDeadline := Encoding.of_event _ rfl
theorem Encoding.groupRetire : Encoding.Statement .groupRetire := Encoding.of_event _ rfl
theorem Encoding.completionRingSend : Encoding.Statement .completionRingSend := Encoding.of_event _ rfl
theorem Encoding.folioWrite : Encoding.Statement .folioWrite := Encoding.of_event _ rfl
theorem Encoding.teardown : Encoding.Statement .teardown := Encoding.of_event _ rfl
theorem Encoding.teardownKeyErase : Encoding.Statement .teardownKeyErase := Encoding.of_event _ rfl
theorem Encoding.softError : Encoding.Statement .softError := Encoding.of_event _ rfl
theorem Encoding.bellRestart : Encoding.Statement .bellRestart := Encoding.of_event _ rfl
theorem Encoding.proctorTimerTick : Encoding.Statement .proctorTimerTick := Encoding.of_event _ rfl
theorem Encoding.proctorInterrupt : Encoding.Statement .proctorInterrupt := Encoding.of_event _ rfl
theorem Encoding.proctorRunWrite : Encoding.Statement .proctorRunWrite := Encoding.of_event _ rfl
theorem Encoding.nop : Encoding.Statement .nop := by
  intro m h1 _
  cases h1
  exact ⟨by decide, by decide, by decide⟩
theorem Encoding.bra (h : Hdr) (o : BitVec 15) (s : BitVec 2) : Encoding.Statement (.bra h o s) :=
  Encoding.of_build _ h 0x01 _ rfl rfl (by simp [buildInstr, build0, mainOf_op, mainOf_low, low_0c3_15_2])
theorem Encoding.brd (h : Hdr) (o : BitVec 15) (s : BitVec 2) : Encoding.Statement (.brd h o s) :=
  Encoding.of_build _ h 0x02 _ rfl rfl (by simp [buildInstr, build0, mainOf_op, mainOf_low, low_0c3_15_2])
theorem Encoding.join (h : Hdr) : Encoding.Statement (.join h) :=
  Encoding.of_build _ h 0x03 _ rfl rfl (by simp [buildInstr, build0, mainOf_op])
theorem Encoding.call (h : Hdr) (x : BitVec 3) (o : BitVec 15) (s : BitVec 2) : Encoding.Statement (.call h x o s) :=
  Encoding.of_build _ h 0x04 _ rfl rfl (by simp [buildInstr, build0, mainOf_op, mainOf_low, low_3_15_2])
theorem Encoding.ret (h : Hdr) : Encoding.Statement (.ret h) :=
  Encoding.of_build _ h 0x05 _ rfl rfl (by simp [buildInstr, build0, mainOf_op])
theorem Encoding.exit (h : Hdr) : Encoding.Statement (.exit h) :=
  Encoding.of_build _ h 0x06 _ rfl rfl (by simp [buildInstr, build0, mainOf_op])
theorem Encoding.yield (h : Hdr) : Encoding.Statement (.yield h) :=
  Encoding.of_build _ h 0x07 _ rfl rfl (by simp [buildInstr, build0, mainOf_op])
theorem Encoding.sleep (h : Hdr) (a : BitVec 7) : Encoding.Statement (.sleep h a) :=
  Encoding.of_build _ h 0x08 _ rfl rfl (by simp [buildInstr, build0, mainOf_op, mainOf_low, low_0c7_7_0c6])
theorem Encoding.sleepUntil (h : Hdr) (a : BitVec 7) (b : BitVec 6) : Encoding.Statement (.sleepUntil h a b) :=
  Encoding.of_build _ h 0x09 _ rfl rfl (by simp [buildInstr, build0, mainOf_op, mainOf_low, low_0c7_7_6])
theorem Encoding.brx (h : Hdr) (d : BitVec 7) (a : BitVec 7) (b : BitVec 6) : Encoding.Statement (.brx h d a b) :=
  Encoding.of_build _ h 0x0A _ rfl rfl (by simp [buildInstr, build0, mainOf_op, mainOf_low, low_7_7_6])
theorem Encoding.callx (h : Hdr) (a : BitVec 7) (b : BitVec 6) : Encoding.Statement (.callx h a b) :=
  Encoding.of_build _ h 0x0B _ rfl rfl (by simp [buildInstr, build0, mainOf_op, mainOf_low, low_0c7_7_6])
theorem Encoding.brk (h : Hdr) (b : BitVec 6) : Encoding.Statement (.brk h b) :=
  Encoding.of_build _ h 0x0C _ rfl rfl (by simp [buildInstr, build0, mainOf_op, mainOf_low, low_0c14_6])
theorem Encoding.sysc (h : Hdr) : Encoding.Statement (.sysc h) :=
  Encoding.of_build _ h 0x0D _ rfl rfl (by simp [buildInstr, build0, mainOf_op])
theorem Encoding.tret (h : Hdr) : Encoding.Statement (.tret h) :=
  Encoding.of_build _ h 0x0E _ rfl rfl (by simp [buildInstr, build0, mainOf_op])
theorem Encoding.suspend (h : Hdr) (d : BitVec 7) (a : BitVec 7) : Encoding.Statement (.suspend h d a) :=
  Encoding.of_build _ h 0x10 _ rfl rfl (by simp [buildInstr, build1, mainOf_op, mainOf_low, low_7_7_0c6])
theorem Encoding.resume (h : Hdr) (d : BitVec 7) (a : BitVec 7) : Encoding.Statement (.resume h d a) :=
  Encoding.of_build _ h 0x11 _ rfl rfl (by simp [-BitVec.getLsbD_eq_getElem, buildInstr, build1, mainOf_op, mainOf_low, mainOf_bit, low_7_7_0c6])
theorem Encoding.resumeTry (h : Hdr) (d : BitVec 7) (a : BitVec 7) : Encoding.Statement (.resumeTry h d a) :=
  Encoding.of_build _ h 0x11 _ rfl rfl (by simp [-BitVec.getLsbD_eq_getElem, buildInstr, build1, mainOf_op, mainOf_low, mainOf_bit, low_7_7_1c6])
theorem Encoding.fcopy (h : Hdr) (d : BitVec 7) (a : BitVec 7) (b : BitVec 6) : Encoding.Statement (.fcopy h d a b) :=
  Encoding.of_build _ h 0x12 _ rfl rfl (by simp [buildInstr, build1, mainOf_op, mainOf_low, low_7_7_6])
theorem Encoding.fdrop (h : Hdr) (d : BitVec 7) (a : BitVec 7) : Encoding.Statement (.fdrop h d a) :=
  Encoding.of_build _ h 0x13 _ rfl rfl (by simp [buildInstr, build1, mainOf_op, mainOf_low, low_7_7_0c6])
theorem Encoding.getsr (h : Hdr) (d : BitVec 7) (b : BitVec 6) : Encoding.Statement (.getsr h d b) :=
  Encoding.of_build _ h 0x14 _ rfl rfl (by simp [buildInstr, build1, mainOf_op, mainOf_low, low_7_0c7_6])
theorem Encoding.setsr (h : Hdr) (a : BitVec 7) (b : BitVec 6) : Encoding.Statement (.setsr h a b) :=
  Encoding.of_build _ h 0x15 _ rfl rfl (by simp [buildInstr, build1, mainOf_op, mainOf_low, low_0c7_7_6])
theorem Encoding.svcstart (h : Hdr) (d : BitVec 7) (a : BitVec 7) : Encoding.Statement (.svcstart h d a) :=
  Encoding.of_build _ h 0x16 _ rfl rfl (by simp [buildInstr, build1, mainOf_op, mainOf_low, low_7_7_0c6])
theorem Encoding.svcpark (h : Hdr) (d : BitVec 7) (a : BitVec 7) (b : BitVec 6) : Encoding.Statement (.svcpark h d a b) :=
  Encoding.of_build _ h 0x17 _ rfl rfl (by simp [buildInstr, build1, mainOf_op, mainOf_low, low_7_7_6])
theorem Encoding.launch (h : Hdr) (d : BitVec 7) (a : BitVec 7) : Encoding.Statement (.launch h d a) :=
  Encoding.of_build _ h 0x18 _ rfl rfl (by simp [buildInstr, build1, mainOf_op, mainOf_low, low_7_7_0c6])
theorem Encoding.spawn (h : Hdr) (d : BitVec 7) (a : BitVec 7) : Encoding.Statement (.spawn h d a) :=
  Encoding.of_build _ h 0x19 _ rfl rfl (by simp [buildInstr, build1, mainOf_op, mainOf_low, low_7_7_0c6])
theorem Encoding.mbsend (h : Hdr) (d : BitVec 7) (a : BitVec 7) (b : BitVec 6) : Encoding.Statement (.mbsend h d a b) :=
  Encoding.of_build _ h 0x1A _ rfl rfl (by simp [buildInstr, build1, mainOf_op, mainOf_low, low_7_7_6])
theorem Encoding.mbrecv (h : Hdr) (d : BitVec 7) (a : BitVec 7) : Encoding.Statement (.mbrecv h d a) :=
  Encoding.of_build _ h 0x1B _ rfl rfl (by simp [-BitVec.getLsbD_eq_getElem, buildInstr, build1, mainOf_op, mainOf_low, mainOf_bit, low_7_7_0c6])
theorem Encoding.mbrecvW (h : Hdr) (d : BitVec 7) (a : BitVec 7) : Encoding.Statement (.mbrecvW h d a) :=
  Encoding.of_build _ h 0x1B _ rfl rfl (by simp [-BitVec.getLsbD_eq_getElem, buildInstr, build1, mainOf_op, mainOf_low, mainOf_bit, low_7_7_1c6])
theorem Encoding.place (h : Hdr) (d : BitVec 7) (a : BitVec 7) (b : BitVec 6) : Encoding.Statement (.place h d a b) :=
  Encoding.of_build _ h 0x1C _ rfl rfl (by simp [buildInstr, build1, mainOf_op, mainOf_low, low_7_7_6])
theorem Encoding.hqtake (h : Hdr) (d : BitVec 6) (a : BitVec 7) (b : BitVec 6) : Encoding.Statement (.hqtake h d a b) :=
  Encoding.of_build _ h 0x1D _ rfl rfl (by simp [-BitVec.getLsbD_eq_getElem, buildInstr, build1, mainOf_op, mainOf_low, mainOf_bit, low_6_0c1_7_6])
theorem Encoding.hqtakeW (h : Hdr) (d : BitVec 6) (a : BitVec 7) (b : BitVec 6) : Encoding.Statement (.hqtakeW h d a b) :=
  Encoding.of_build _ h 0x1D _ rfl rfl (by simp [-BitVec.getLsbD_eq_getElem, buildInstr, build1, mainOf_op, mainOf_low, mainOf_bit, low_6_1c1_7_6])
theorem Encoding.hqdone (h : Hdr) (d : BitVec 7) (a : BitVec 7) : Encoding.Statement (.hqdone h d a) :=
  Encoding.of_build _ h 0x1E _ rfl rfl (by simp [buildInstr, build1, mainOf_op, mainOf_low, low_7_7_0c6])
theorem Encoding.uadd (h : Hdr) (d : BitVec 7) (a : BitVec 7) (b : BitVec 6) : Encoding.Statement (.uadd h d a b) :=
  Encoding.of_build _ h 0x20 _ rfl rfl (by simp [buildInstr, build2, mainOf_op, mainOf_low, low_7_7_6])
theorem Encoding.usub (h : Hdr) (d : BitVec 7) (a : BitVec 7) (b : BitVec 6) : Encoding.Statement (.usub h d a b) :=
  Encoding.of_build _ h 0x21 _ rfl rfl (by simp [buildInstr, build2, mainOf_op, mainOf_low, low_7_7_6])
theorem Encoding.umul (h : Hdr) (d : BitVec 7) (a : BitVec 7) (b : BitVec 6) : Encoding.Statement (.umul h d a b) :=
  Encoding.of_build _ h 0x22 _ rfl rfl (by simp [buildInstr, build2, mainOf_op, mainOf_low, low_7_7_6])
theorem Encoding.umulhs (h : Hdr) (d : BitVec 7) (a : BitVec 7) (b : BitVec 6) : Encoding.Statement (.umulhs h d a b) :=
  Encoding.of_build _ h 0x23 _ rfl rfl (by simp [buildInstr, build2, mainOf_op, mainOf_low, low_7_7_6])
theorem Encoding.umulhn (h : Hdr) (d : BitVec 7) (a : BitVec 7) (b : BitVec 6) : Encoding.Statement (.umulhn h d a b) :=
  Encoding.of_build _ h 0x24 _ rfl rfl (by simp [buildInstr, build2, mainOf_op, mainOf_low, low_7_7_6])
theorem Encoding.uand (h : Hdr) (d : BitVec 7) (a : BitVec 7) (b : BitVec 6) : Encoding.Statement (.uand h d a b) :=
  Encoding.of_build _ h 0x25 _ rfl rfl (by simp [buildInstr, build2, mainOf_op, mainOf_low, low_7_7_6])
theorem Encoding.uor (h : Hdr) (d : BitVec 7) (a : BitVec 7) (b : BitVec 6) : Encoding.Statement (.uor h d a b) :=
  Encoding.of_build _ h 0x26 _ rfl rfl (by simp [buildInstr, build2, mainOf_op, mainOf_low, low_7_7_6])
theorem Encoding.uxor (h : Hdr) (d : BitVec 7) (a : BitVec 7) (b : BitVec 6) : Encoding.Statement (.uxor h d a b) :=
  Encoding.of_build _ h 0x27 _ rfl rfl (by simp [buildInstr, build2, mainOf_op, mainOf_low, low_7_7_6])
theorem Encoding.ushl (h : Hdr) (d : BitVec 7) (a : BitVec 7) (b : BitVec 6) : Encoding.Statement (.ushl h d a b) :=
  Encoding.of_build _ h 0x28 _ rfl rfl (by simp [buildInstr, build2, mainOf_op, mainOf_low, low_7_7_6])
theorem Encoding.ushr (h : Hdr) (d : BitVec 7) (a : BitVec 7) (b : BitVec 6) : Encoding.Statement (.ushr h d a b) :=
  Encoding.of_build _ h 0x29 _ rfl rfl (by simp [buildInstr, build2, mainOf_op, mainOf_low, low_7_7_6])
theorem Encoding.usar (h : Hdr) (d : BitVec 7) (a : BitVec 7) (b : BitVec 6) : Encoding.Statement (.usar h d a b) :=
  Encoding.of_build _ h 0x2A _ rfl rfl (by simp [buildInstr, build2, mainOf_op, mainOf_low, low_7_7_6])
theorem Encoding.umins (h : Hdr) (d : BitVec 7) (a : BitVec 7) (b : BitVec 6) : Encoding.Statement (.umins h d a b) :=
  Encoding.of_build _ h 0x2B _ rfl rfl (by simp [buildInstr, build2, mainOf_op, mainOf_low, low_7_7_6])
theorem Encoding.uminn (h : Hdr) (d : BitVec 7) (a : BitVec 7) (b : BitVec 6) : Encoding.Statement (.uminn h d a b) :=
  Encoding.of_build _ h 0x2C _ rfl rfl (by simp [buildInstr, build2, mainOf_op, mainOf_low, low_7_7_6])
theorem Encoding.umaxs (h : Hdr) (d : BitVec 7) (a : BitVec 7) (b : BitVec 6) : Encoding.Statement (.umaxs h d a b) :=
  Encoding.of_build _ h 0x2D _ rfl rfl (by simp [buildInstr, build2, mainOf_op, mainOf_low, low_7_7_6])
theorem Encoding.umaxn (h : Hdr) (d : BitVec 7) (a : BitVec 7) (b : BitVec 6) : Encoding.Statement (.umaxn h d a b) :=
  Encoding.of_build _ h 0x2E _ rfl rfl (by simp [buildInstr, build2, mainOf_op, mainOf_low, low_7_7_6])
theorem Encoding.usel (h : Hdr) (d : BitVec 7) (a : BitVec 7) (b : BitVec 6) : Encoding.Statement (.usel h d a b) :=
  Encoding.of_build _ h 0x2F _ rfl rfl (by simp [buildInstr, build2, mainOf_op, mainOf_low, low_7_7_6])
theorem Encoding.uaddi (h : Hdr) (d : BitVec 7) (a : BitVec 7) (i : BitVec 6) : Encoding.Statement (.uaddi h d a i) :=
  Encoding.of_build _ h 0x30 _ rfl rfl (by simp [buildInstr, build3, mainOf_op, mainOf_low, low_7_7_6])
theorem Encoding.uandi (h : Hdr) (d : BitVec 7) (a : BitVec 7) (i : BitVec 6) : Encoding.Statement (.uandi h d a i) :=
  Encoding.of_build _ h 0x31 _ rfl rfl (by simp [buildInstr, build3, mainOf_op, mainOf_low, low_7_7_6])
theorem Encoding.uori (h : Hdr) (d : BitVec 7) (a : BitVec 7) (i : BitVec 6) : Encoding.Statement (.uori h d a i) :=
  Encoding.of_build _ h 0x32 _ rfl rfl (by simp [buildInstr, build3, mainOf_op, mainOf_low, low_7_7_6])
theorem Encoding.uxori (h : Hdr) (d : BitVec 7) (a : BitVec 7) (i : BitVec 6) : Encoding.Statement (.uxori h d a i) :=
  Encoding.of_build _ h 0x33 _ rfl rfl (by simp [buildInstr, build3, mainOf_op, mainOf_low, low_7_7_6])
theorem Encoding.ushli (h : Hdr) (d : BitVec 7) (a : BitVec 7) (i : BitVec 6) : Encoding.Statement (.ushli h d a i) :=
  Encoding.of_build _ h 0x34 _ rfl rfl (by simp [buildInstr, build3, mainOf_op, mainOf_low, low_7_7_6])
theorem Encoding.ushri (h : Hdr) (d : BitVec 7) (a : BitVec 7) (i : BitVec 6) : Encoding.Statement (.ushri h d a i) :=
  Encoding.of_build _ h 0x35 _ rfl rfl (by simp [buildInstr, build3, mainOf_op, mainOf_low, low_7_7_6])
theorem Encoding.usari (h : Hdr) (d : BitVec 7) (a : BitVec 7) (i : BitVec 6) : Encoding.Statement (.usari h d a i) :=
  Encoding.of_build _ h 0x36 _ rfl rfl (by simp [buildInstr, build3, mainOf_op, mainOf_low, low_7_7_6])
theorem Encoding.useq (h : Hdr) (d : BitVec 7) (a : BitVec 7) (b : BitVec 6) : Encoding.Statement (.useq h d a b) :=
  Encoding.of_build _ h 0x37 _ rfl rfl (by simp [buildInstr, build3, mainOf_op, mainOf_low, low_7_7_6])
theorem Encoding.usne (h : Hdr) (d : BitVec 7) (a : BitVec 7) (b : BitVec 6) : Encoding.Statement (.usne h d a b) :=
  Encoding.of_build _ h 0x38 _ rfl rfl (by simp [buildInstr, build3, mainOf_op, mainOf_low, low_7_7_6])
theorem Encoding.uslts (h : Hdr) (d : BitVec 7) (a : BitVec 7) (b : BitVec 6) : Encoding.Statement (.uslts h d a b) :=
  Encoding.of_build _ h 0x39 _ rfl rfl (by simp [buildInstr, build3, mainOf_op, mainOf_low, low_7_7_6])
theorem Encoding.usltn (h : Hdr) (d : BitVec 7) (a : BitVec 7) (b : BitVec 6) : Encoding.Statement (.usltn h d a b) :=
  Encoding.of_build _ h 0x3A _ rfl rfl (by simp [buildInstr, build3, mainOf_op, mainOf_low, low_7_7_6])
theorem Encoding.ubfx (h : Hdr) (d : BitVec 7) (a : BitVec 7) (b : BitVec 6) : Encoding.Statement (.ubfx h d a b) :=
  Encoding.of_build _ h 0x3B _ rfl rfl (by simp [buildInstr, build3, mainOf_op, mainOf_low, low_7_7_6])
theorem Encoding.umovi (h : Hdr) (d : BitVec 6) (i : BitVec 8) : Encoding.Statement (.umovi h d i) :=
  Encoding.of_build _ h 0x3C _ rfl rfl (by simp [buildInstr, build3, mainOf_op, mainOf_low, low_6_0c6_8])
theorem Encoding.urdlane (h : Hdr) (d : BitVec 7) (a : BitVec 7) (b : BitVec 6) : Encoding.Statement (.urdlane h d a b) :=
  Encoding.of_build _ h 0x3D _ rfl rfl (by simp [buildInstr, build3, mainOf_op, mainOf_low, low_7_7_6])
theorem Encoding.upopc (h : Hdr) (d : BitVec 7) (a : BitVec 7) : Encoding.Statement (.upopc h d a) :=
  Encoding.of_build _ h 0x3E _ rfl rfl (by simp [buildInstr, build3, mainOf_op, mainOf_low, low_7_7_0c6])
theorem Encoding.uclz (h : Hdr) (d : BitVec 7) (a : BitVec 7) : Encoding.Statement (.uclz h d a) :=
  Encoding.of_build _ h 0x3F _ rfl rfl (by simp [buildInstr, build3, mainOf_op, mainOf_low, low_7_7_0c6])
theorem Encoding.iadd (h : Hdr) (d : BitVec 6) (a : BitVec 6) (b : BitVec 6) (t : BitVec 2) : Encoding.Statement (.iadd h d a b t) :=
  Encoding.of_build _ h 0x40 _ rfl rfl (by simp [buildInstr, build4, mainOf_op, mainOf_low, low_6_6_6_2])
theorem Encoding.isub (h : Hdr) (d : BitVec 6) (a : BitVec 6) (b : BitVec 6) (t : BitVec 2) : Encoding.Statement (.isub h d a b t) :=
  Encoding.of_build _ h 0x41 _ rfl rfl (by simp [buildInstr, build4, mainOf_op, mainOf_low, low_6_6_6_2])
theorem Encoding.imul (h : Hdr) (d : BitVec 6) (a : BitVec 6) (b : BitVec 6) (t : BitVec 2) : Encoding.Statement (.imul h d a b t) :=
  Encoding.of_build _ h 0x42 _ rfl rfl (by simp [buildInstr, build4, mainOf_op, mainOf_low, low_6_6_6_2])
theorem Encoding.imulhs (h : Hdr) (d : BitVec 6) (a : BitVec 6) (b : BitVec 6) (t : BitVec 2) : Encoding.Statement (.imulhs h d a b t) :=
  Encoding.of_build _ h 0x43 _ rfl rfl (by simp [buildInstr, build4, mainOf_op, mainOf_low, low_6_6_6_2])
theorem Encoding.imulhn (h : Hdr) (d : BitVec 6) (a : BitVec 6) (b : BitVec 6) (t : BitVec 2) : Encoding.Statement (.imulhn h d a b t) :=
  Encoding.of_build _ h 0x44 _ rfl rfl (by simp [buildInstr, build4, mainOf_op, mainOf_low, low_6_6_6_2])
theorem Encoding.imad (h : Hdr) (d : BitVec 6) (a : BitVec 6) (b : BitVec 6) (t : BitVec 2) : Encoding.Statement (.imad h d a b t) :=
  Encoding.of_build _ h 0x45 _ rfl rfl (by simp [buildInstr, build4, mainOf_op, mainOf_low, low_6_6_6_2])
theorem Encoding.iaddss (h : Hdr) (d : BitVec 6) (a : BitVec 6) (b : BitVec 6) (t : BitVec 2) : Encoding.Statement (.iaddss h d a b t) :=
  Encoding.of_build _ h 0x46 _ rfl rfl (by simp [buildInstr, build4, mainOf_op, mainOf_low, low_6_6_6_2])
theorem Encoding.iaddsn (h : Hdr) (d : BitVec 6) (a : BitVec 6) (b : BitVec 6) (t : BitVec 2) : Encoding.Statement (.iaddsn h d a b t) :=
  Encoding.of_build _ h 0x47 _ rfl rfl (by simp [buildInstr, build4, mainOf_op, mainOf_low, low_6_6_6_2])
theorem Encoding.isubss (h : Hdr) (d : BitVec 6) (a : BitVec 6) (b : BitVec 6) (t : BitVec 2) : Encoding.Statement (.isubss h d a b t) :=
  Encoding.of_build _ h 0x48 _ rfl rfl (by simp [buildInstr, build4, mainOf_op, mainOf_low, low_6_6_6_2])
theorem Encoding.isubsn (h : Hdr) (d : BitVec 6) (a : BitVec 6) (b : BitVec 6) (t : BitVec 2) : Encoding.Statement (.isubsn h d a b t) :=
  Encoding.of_build _ h 0x49 _ rfl rfl (by simp [buildInstr, build4, mainOf_op, mainOf_low, low_6_6_6_2])
theorem Encoding.imins (h : Hdr) (d : BitVec 6) (a : BitVec 6) (b : BitVec 6) (t : BitVec 2) : Encoding.Statement (.imins h d a b t) :=
  Encoding.of_build _ h 0x4A _ rfl rfl (by simp [buildInstr, build4, mainOf_op, mainOf_low, low_6_6_6_2])
theorem Encoding.iminn (h : Hdr) (d : BitVec 6) (a : BitVec 6) (b : BitVec 6) (t : BitVec 2) : Encoding.Statement (.iminn h d a b t) :=
  Encoding.of_build _ h 0x4B _ rfl rfl (by simp [buildInstr, build4, mainOf_op, mainOf_low, low_6_6_6_2])
theorem Encoding.imaxs (h : Hdr) (d : BitVec 6) (a : BitVec 6) (b : BitVec 6) (t : BitVec 2) : Encoding.Statement (.imaxs h d a b t) :=
  Encoding.of_build _ h 0x4C _ rfl rfl (by simp [buildInstr, build4, mainOf_op, mainOf_low, low_6_6_6_2])
theorem Encoding.imaxn (h : Hdr) (d : BitVec 6) (a : BitVec 6) (b : BitVec 6) (t : BitVec 2) : Encoding.Statement (.imaxn h d a b t) :=
  Encoding.of_build _ h 0x4D _ rfl rfl (by simp [buildInstr, build4, mainOf_op, mainOf_low, low_6_6_6_2])
theorem Encoding.iabs (h : Hdr) (d : BitVec 6) (a : BitVec 6) (t : BitVec 2) : Encoding.Statement (.iabs h d a t) :=
  Encoding.of_build _ h 0x4E _ rfl rfl (by simp [buildInstr, build4, mainOf_op, mainOf_low, low_6_6_0c6_2])
theorem Encoding.ineg (h : Hdr) (d : BitVec 6) (a : BitVec 6) (t : BitVec 2) : Encoding.Statement (.ineg h d a t) :=
  Encoding.of_build _ h 0x4F _ rfl rfl (by simp [buildInstr, build4, mainOf_op, mainOf_low, low_6_6_0c6_2])
theorem Encoding.andV (h : Hdr) (d : BitVec 6) (a : BitVec 6) (b : BitVec 6) (t : BitVec 2) : Encoding.Statement (.andV h d a b t) :=
  Encoding.of_build _ h 0x50 _ rfl rfl (by simp [buildInstr, build5, mainOf_op, mainOf_low, low_6_6_6_2])
theorem Encoding.orV (h : Hdr) (d : BitVec 6) (a : BitVec 6) (b : BitVec 6) (t : BitVec 2) : Encoding.Statement (.orV h d a b t) :=
  Encoding.of_build _ h 0x51 _ rfl rfl (by simp [buildInstr, build5, mainOf_op, mainOf_low, low_6_6_6_2])
theorem Encoding.xorV (h : Hdr) (d : BitVec 6) (a : BitVec 6) (b : BitVec 6) (t : BitVec 2) : Encoding.Statement (.xorV h d a b t) :=
  Encoding.of_build _ h 0x52 _ rfl rfl (by simp [buildInstr, build5, mainOf_op, mainOf_low, low_6_6_6_2])
theorem Encoding.andn (h : Hdr) (d : BitVec 6) (a : BitVec 6) (b : BitVec 6) (t : BitVec 2) : Encoding.Statement (.andn h d a b t) :=
  Encoding.of_build _ h 0x53 _ rfl rfl (by simp [buildInstr, build5, mainOf_op, mainOf_low, low_6_6_6_2])
theorem Encoding.notV (h : Hdr) (d : BitVec 6) (a : BitVec 6) (t : BitVec 2) : Encoding.Statement (.notV h d a t) :=
  Encoding.of_build _ h 0x54 _ rfl rfl (by simp [buildInstr, build5, mainOf_op, mainOf_low, low_6_6_0c6_2])
theorem Encoding.bfn (h : Hdr) (d : BitVec 6) (a : BitVec 6) (b : BitVec 6) (t : BitVec 2) : Encoding.Statement (.bfn h d a b t) :=
  Encoding.of_build _ h 0x55 _ rfl rfl (by simp [buildInstr, build5, mainOf_op, mainOf_low, low_6_6_6_2])
theorem Encoding.shlV (h : Hdr) (d : BitVec 6) (a : BitVec 6) (b : BitVec 6) (t : BitVec 2) : Encoding.Statement (.shlV h d a b t) :=
  Encoding.of_build _ h 0x56 _ rfl rfl (by simp [buildInstr, build5, mainOf_op, mainOf_low, low_6_6_6_2])
theorem Encoding.shrV (h : Hdr) (d : BitVec 6) (a : BitVec 6) (b : BitVec 6) (t : BitVec 2) : Encoding.Statement (.shrV h d a b t) :=
  Encoding.of_build _ h 0x57 _ rfl rfl (by simp [buildInstr, build5, mainOf_op, mainOf_low, low_6_6_6_2])
theorem Encoding.sarV (h : Hdr) (d : BitVec 6) (a : BitVec 6) (b : BitVec 6) (t : BitVec 2) : Encoding.Statement (.sarV h d a b t) :=
  Encoding.of_build _ h 0x58 _ rfl rfl (by simp [buildInstr, build5, mainOf_op, mainOf_low, low_6_6_6_2])
theorem Encoding.rotl (h : Hdr) (d : BitVec 6) (a : BitVec 6) (b : BitVec 6) (t : BitVec 2) : Encoding.Statement (.rotl h d a b t) :=
  Encoding.of_build _ h 0x59 _ rfl rfl (by simp [buildInstr, build5, mainOf_op, mainOf_low, low_6_6_6_2])
theorem Encoding.bfx (h : Hdr) (d : BitVec 6) (a : BitVec 6) (b : BitVec 6) (t : BitVec 2) : Encoding.Statement (.bfx h d a b t) :=
  Encoding.of_build _ h 0x5A _ rfl rfl (by simp [buildInstr, build5, mainOf_op, mainOf_low, low_6_6_6_2])
theorem Encoding.bfi (h : Hdr) (d : BitVec 6) (a : BitVec 6) (b : BitVec 6) (t : BitVec 2) : Encoding.Statement (.bfi h d a b t) :=
  Encoding.of_build _ h 0x5B _ rfl rfl (by simp [buildInstr, build5, mainOf_op, mainOf_low, low_6_6_6_2])
theorem Encoding.popc (h : Hdr) (d : BitVec 6) (a : BitVec 6) (t : BitVec 2) : Encoding.Statement (.popc h d a t) :=
  Encoding.of_build _ h 0x5C _ rfl rfl (by simp [buildInstr, build5, mainOf_op, mainOf_low, low_6_6_0c6_2])
theorem Encoding.clz (h : Hdr) (d : BitVec 6) (a : BitVec 6) (t : BitVec 2) : Encoding.Statement (.clz h d a t) :=
  Encoding.of_build _ h 0x5D _ rfl rfl (by simp [buildInstr, build5, mainOf_op, mainOf_low, low_6_6_0c6_2])
theorem Encoding.brev (h : Hdr) (d : BitVec 6) (a : BitVec 6) (t : BitVec 2) : Encoding.Statement (.brev h d a t) :=
  Encoding.of_build _ h 0x5E _ rfl rfl (by simp [buildInstr, build5, mainOf_op, mainOf_low, low_6_6_0c6_2])
theorem Encoding.bperm (h : Hdr) (d : BitVec 6) (a : BitVec 6) (b : BitVec 6) (t : BitVec 2) : Encoding.Statement (.bperm h d a b t) :=
  Encoding.of_build _ h 0x5F _ rfl rfl (by simp [buildInstr, build5, mainOf_op, mainOf_low, low_6_6_6_2])
theorem Encoding.iseteq (h : Hdr) (d : BitVec 6) (a : BitVec 6) (b : BitVec 6) (t : BitVec 2) : Encoding.Statement (.iseteq h d a b t) :=
  Encoding.of_build _ h 0x60 _ rfl rfl (by simp [buildInstr, build6, mainOf_op, mainOf_low, low_6_6_6_2])
theorem Encoding.isetne (h : Hdr) (d : BitVec 6) (a : BitVec 6) (b : BitVec 6) (t : BitVec 2) : Encoding.Statement (.isetne h d a b t) :=
  Encoding.of_build _ h 0x61 _ rfl rfl (by simp [buildInstr, build6, mainOf_op, mainOf_low, low_6_6_6_2])
theorem Encoding.isetlts (h : Hdr) (d : BitVec 6) (a : BitVec 6) (b : BitVec 6) (t : BitVec 2) : Encoding.Statement (.isetlts h d a b t) :=
  Encoding.of_build _ h 0x62 _ rfl rfl (by simp [buildInstr, build6, mainOf_op, mainOf_low, low_6_6_6_2])
theorem Encoding.isetltn (h : Hdr) (d : BitVec 6) (a : BitVec 6) (b : BitVec 6) (t : BitVec 2) : Encoding.Statement (.isetltn h d a b t) :=
  Encoding.of_build _ h 0x63 _ rfl rfl (by simp [buildInstr, build6, mainOf_op, mainOf_low, low_6_6_6_2])
theorem Encoding.isetles (h : Hdr) (d : BitVec 6) (a : BitVec 6) (b : BitVec 6) (t : BitVec 2) : Encoding.Statement (.isetles h d a b t) :=
  Encoding.of_build _ h 0x64 _ rfl rfl (by simp [buildInstr, build6, mainOf_op, mainOf_low, low_6_6_6_2])
theorem Encoding.isetlen (h : Hdr) (d : BitVec 6) (a : BitVec 6) (b : BitVec 6) (t : BitVec 2) : Encoding.Statement (.isetlen h d a b t) :=
  Encoding.of_build _ h 0x65 _ rfl rfl (by simp [buildInstr, build6, mainOf_op, mainOf_low, low_6_6_6_2])
theorem Encoding.selV (h : Hdr) (d : BitVec 6) (a : BitVec 6) (b : BitVec 6) (t : BitVec 2) : Encoding.Statement (.selV h d a b t) :=
  Encoding.of_build _ h 0x66 _ rfl rfl (by simp [buildInstr, build6, mainOf_op, mainOf_low, low_6_6_6_2])
theorem Encoding.movV (h : Hdr) (d : BitVec 6) (a : BitVec 6) (t : BitVec 2) : Encoding.Statement (.movV h d a t) :=
  Encoding.of_build _ h 0x67 _ rfl rfl (by simp [buildInstr, build6, mainOf_op, mainOf_low, low_6_6_0c6_2])
theorem Encoding.iaddu (h : Hdr) (d : BitVec 6) (a : BitVec 6) (b : BitVec 7) : Encoding.Statement (.iaddu h d a b) :=
  Encoding.of_build _ h 0x68 _ rfl rfl (by simp [buildInstr, build6, mainOf_op, mainOf_low, low_6_6_0c1_7])
theorem Encoding.isubu (h : Hdr) (d : BitVec 6) (a : BitVec 6) (b : BitVec 7) : Encoding.Statement (.isubu h d a b) :=
  Encoding.of_build _ h 0x69 _ rfl rfl (by simp [buildInstr, build6, mainOf_op, mainOf_low, low_6_6_0c1_7])
theorem Encoding.imulu (h : Hdr) (d : BitVec 6) (a : BitVec 6) (b : BitVec 7) : Encoding.Statement (.imulu h d a b) :=
  Encoding.of_build _ h 0x6A _ rfl rfl (by simp [buildInstr, build6, mainOf_op, mainOf_low, low_6_6_0c1_7])
theorem Encoding.shlu (h : Hdr) (d : BitVec 6) (a : BitVec 6) (b : BitVec 7) : Encoding.Statement (.shlu h d a b) :=
  Encoding.of_build _ h 0x6B _ rfl rfl (by simp [buildInstr, build6, mainOf_op, mainOf_low, low_6_6_0c1_7])
theorem Encoding.shru (h : Hdr) (d : BitVec 6) (a : BitVec 6) (b : BitVec 7) : Encoding.Statement (.shru h d a b) :=
  Encoding.of_build _ h 0x6C _ rfl rfl (by simp [buildInstr, build6, mainOf_op, mainOf_low, low_6_6_0c1_7])
theorem Encoding.andu (h : Hdr) (d : BitVec 6) (a : BitVec 6) (b : BitVec 7) : Encoding.Statement (.andu h d a b) :=
  Encoding.of_build _ h 0x6D _ rfl rfl (by simp [buildInstr, build6, mainOf_op, mainOf_low, low_6_6_0c1_7])
theorem Encoding.oru (h : Hdr) (d : BitVec 6) (a : BitVec 6) (b : BitVec 7) : Encoding.Statement (.oru h d a b) :=
  Encoding.of_build _ h 0x6E _ rfl rfl (by simp [buildInstr, build6, mainOf_op, mainOf_low, low_6_6_0c1_7])
theorem Encoding.xoru (h : Hdr) (d : BitVec 6) (a : BitVec 6) (b : BitVec 7) : Encoding.Statement (.xoru h d a b) :=
  Encoding.of_build _ h 0x6F _ rfl rfl (by simp [buildInstr, build6, mainOf_op, mainOf_low, low_6_6_0c1_7])
theorem Encoding.pand (h : Hdr) (d : BitVec 6) (a : BitVec 6) (b : BitVec 6) : Encoding.Statement (.pand h d a b) :=
  Encoding.of_build _ h 0x70 _ rfl rfl (by simp [buildInstr, build7, mainOf_op, mainOf_low, low_6_6_6_0c2])
theorem Encoding.por (h : Hdr) (d : BitVec 6) (a : BitVec 6) (b : BitVec 6) : Encoding.Statement (.por h d a b) :=
  Encoding.of_build _ h 0x71 _ rfl rfl (by simp [buildInstr, build7, mainOf_op, mainOf_low, low_6_6_6_0c2])
theorem Encoding.pxor (h : Hdr) (d : BitVec 6) (a : BitVec 6) (b : BitVec 6) : Encoding.Statement (.pxor h d a b) :=
  Encoding.of_build _ h 0x72 _ rfl rfl (by simp [buildInstr, build7, mainOf_op, mainOf_low, low_6_6_6_0c2])
theorem Encoding.pnot (h : Hdr) (d : BitVec 6) (a : BitVec 6) : Encoding.Statement (.pnot h d a) :=
  Encoding.of_build _ h 0x73 _ rfl rfl (by simp [buildInstr, build7, mainOf_op, mainOf_low, low_6_6_0c8])
theorem Encoding.pmov (h : Hdr) (d : BitVec 6) (a : BitVec 6) (b : BitVec 6) : Encoding.Statement (.pmov h d a b) :=
  Encoding.of_build _ h 0x74 _ rfl rfl (by simp [buildInstr, build7, mainOf_op, mainOf_low, low_6_6_6_0c2])
theorem Encoding.lea (h : Hdr) (d : BitVec 6) (a : BitVec 6) (b : BitVec 6) : Encoding.Statement (.lea h d a b) :=
  Encoding.of_build _ h 0x75 _ rfl rfl (by simp [buildInstr, build7, mainOf_op, mainOf_low, low_6_6_6_0c2])
theorem Encoding.imovi (h : Hdr) (d : BitVec 6) (i : BitVec 8) : Encoding.Statement (.imovi h d i) :=
  Encoding.of_build _ h 0x76 _ rfl rfl (by simp [buildInstr, build7, mainOf_op, mainOf_low, low_6_0c6_8])
theorem Encoding.iaddi (h : Hdr) (d : BitVec 6) (a : BitVec 6) (i : BitVec 8) : Encoding.Statement (.iaddi h d a i) :=
  Encoding.of_build _ h 0x77 _ rfl rfl (by simp [buildInstr, build7, mainOf_op, mainOf_low, low_6_6_8])
theorem Encoding.andi (h : Hdr) (d : BitVec 6) (a : BitVec 6) (i : BitVec 8) : Encoding.Statement (.andi h d a i) :=
  Encoding.of_build _ h 0x78 _ rfl rfl (by simp [buildInstr, build7, mainOf_op, mainOf_low, low_6_6_8])
theorem Encoding.ori (h : Hdr) (d : BitVec 6) (a : BitVec 6) (i : BitVec 8) : Encoding.Statement (.ori h d a i) :=
  Encoding.of_build _ h 0x79 _ rfl rfl (by simp [buildInstr, build7, mainOf_op, mainOf_low, low_6_6_8])
theorem Encoding.shli (h : Hdr) (d : BitVec 6) (a : BitVec 6) (i : BitVec 8) : Encoding.Statement (.shli h d a i) :=
  Encoding.of_build _ h 0x7A _ rfl rfl (by simp [buildInstr, build7, mainOf_op, mainOf_low, low_6_6_8])
theorem Encoding.shri (h : Hdr) (d : BitVec 6) (a : BitVec 6) (i : BitVec 8) : Encoding.Statement (.shri h d a i) :=
  Encoding.of_build _ h 0x7B _ rfl rfl (by simp [buildInstr, build7, mainOf_op, mainOf_low, low_6_6_8])
theorem Encoding.sari (h : Hdr) (d : BitVec 6) (a : BitVec 6) (i : BitVec 8) : Encoding.Statement (.sari h d a i) :=
  Encoding.of_build _ h 0x7C _ rfl rfl (by simp [buildInstr, build7, mainOf_op, mainOf_low, low_6_6_8])
theorem Encoding.iseteqi (h : Hdr) (d : BitVec 6) (a : BitVec 6) (i : BitVec 8) : Encoding.Statement (.iseteqi h d a i) :=
  Encoding.of_build _ h 0x7D _ rfl rfl (by simp [buildInstr, build7, mainOf_op, mainOf_low, low_6_6_8])
theorem Encoding.isetlti (h : Hdr) (d : BitVec 6) (a : BitVec 6) (i : BitVec 8) : Encoding.Statement (.isetlti h d a i) :=
  Encoding.of_build _ h 0x7E _ rfl rfl (by simp [buildInstr, build7, mainOf_op, mainOf_low, low_6_6_8])
theorem Encoding.fadd (h : Hdr) (d : BitVec 6) (a : BitVec 6) (b : BitVec 6) (t : BitVec 2) : Encoding.Statement (.fadd h d a b t) :=
  Encoding.of_build _ h 0x80 _ rfl rfl (by simp [buildInstr, build8, mainOf_op, mainOf_low, low_6_6_6_2])
theorem Encoding.fsub (h : Hdr) (d : BitVec 6) (a : BitVec 6) (b : BitVec 6) (t : BitVec 2) : Encoding.Statement (.fsub h d a b t) :=
  Encoding.of_build _ h 0x81 _ rfl rfl (by simp [buildInstr, build8, mainOf_op, mainOf_low, low_6_6_6_2])
theorem Encoding.fmul (h : Hdr) (d : BitVec 6) (a : BitVec 6) (b : BitVec 6) (t : BitVec 2) : Encoding.Statement (.fmul h d a b t) :=
  Encoding.of_build _ h 0x82 _ rfl rfl (by simp [buildInstr, build8, mainOf_op, mainOf_low, low_6_6_6_2])
theorem Encoding.fma (h : Hdr) (d : BitVec 6) (a : BitVec 6) (b : BitVec 6) (t : BitVec 2) : Encoding.Statement (.fma h d a b t) :=
  Encoding.of_build _ h 0x83 _ rfl rfl (by simp [buildInstr, build8, mainOf_op, mainOf_low, low_6_6_6_2])
theorem Encoding.fms (h : Hdr) (d : BitVec 6) (a : BitVec 6) (b : BitVec 6) (t : BitVec 2) : Encoding.Statement (.fms h d a b t) :=
  Encoding.of_build _ h 0x84 _ rfl rfl (by simp [buildInstr, build8, mainOf_op, mainOf_low, low_6_6_6_2])
theorem Encoding.fnma (h : Hdr) (d : BitVec 6) (a : BitVec 6) (b : BitVec 6) (t : BitVec 2) : Encoding.Statement (.fnma h d a b t) :=
  Encoding.of_build _ h 0x85 _ rfl rfl (by simp [buildInstr, build8, mainOf_op, mainOf_low, low_6_6_6_2])
theorem Encoding.fdiv (h : Hdr) (d : BitVec 6) (a : BitVec 6) (b : BitVec 6) (t : BitVec 2) : Encoding.Statement (.fdiv h d a b t) :=
  Encoding.of_build _ h 0x86 _ rfl rfl (by simp [buildInstr, build8, mainOf_op, mainOf_low, low_6_6_6_2])
theorem Encoding.fsqrt (h : Hdr) (d : BitVec 6) (a : BitVec 6) (t : BitVec 2) : Encoding.Statement (.fsqrt h d a t) :=
  Encoding.of_build _ h 0x87 _ rfl rfl (by simp [buildInstr, build8, mainOf_op, mainOf_low, low_6_6_0c6_2])
theorem Encoding.frsq (h : Hdr) (d : BitVec 6) (a : BitVec 6) (t : BitVec 2) : Encoding.Statement (.frsq h d a t) :=
  Encoding.of_build _ h 0x88 _ rfl rfl (by simp [buildInstr, build8, mainOf_op, mainOf_low, low_6_6_0c6_2])
theorem Encoding.frcp (h : Hdr) (d : BitVec 6) (a : BitVec 6) (t : BitVec 2) : Encoding.Statement (.frcp h d a t) :=
  Encoding.of_build _ h 0x89 _ rfl rfl (by simp [buildInstr, build8, mainOf_op, mainOf_low, low_6_6_0c6_2])
theorem Encoding.fmin (h : Hdr) (d : BitVec 6) (a : BitVec 6) (b : BitVec 6) (t : BitVec 2) : Encoding.Statement (.fmin h d a b t) :=
  Encoding.of_build _ h 0x8A _ rfl rfl (by simp [buildInstr, build8, mainOf_op, mainOf_low, low_6_6_6_2])
theorem Encoding.fmax (h : Hdr) (d : BitVec 6) (a : BitVec 6) (b : BitVec 6) (t : BitVec 2) : Encoding.Statement (.fmax h d a b t) :=
  Encoding.of_build _ h 0x8B _ rfl rfl (by simp [buildInstr, build8, mainOf_op, mainOf_low, low_6_6_6_2])
theorem Encoding.fminnum (h : Hdr) (d : BitVec 6) (a : BitVec 6) (b : BitVec 6) (t : BitVec 2) : Encoding.Statement (.fminnum h d a b t) :=
  Encoding.of_build _ h 0x8C _ rfl rfl (by simp [buildInstr, build8, mainOf_op, mainOf_low, low_6_6_6_2])
theorem Encoding.fmaxnum (h : Hdr) (d : BitVec 6) (a : BitVec 6) (b : BitVec 6) (t : BitVec 2) : Encoding.Statement (.fmaxnum h d a b t) :=
  Encoding.of_build _ h 0x8D _ rfl rfl (by simp [buildInstr, build8, mainOf_op, mainOf_low, low_6_6_6_2])
theorem Encoding.fabs (h : Hdr) (d : BitVec 6) (a : BitVec 6) (t : BitVec 2) : Encoding.Statement (.fabs h d a t) :=
  Encoding.of_build _ h 0x8E _ rfl rfl (by simp [buildInstr, build8, mainOf_op, mainOf_low, low_6_6_0c6_2])
theorem Encoding.fneg (h : Hdr) (d : BitVec 6) (a : BitVec 6) (t : BitVec 2) : Encoding.Statement (.fneg h d a t) :=
  Encoding.of_build _ h 0x8F _ rfl rfl (by simp [buildInstr, build8, mainOf_op, mainOf_low, low_6_6_0c6_2])
theorem Encoding.fseteq (h : Hdr) (d : BitVec 6) (a : BitVec 6) (b : BitVec 6) (t : BitVec 2) : Encoding.Statement (.fseteq h d a b t) :=
  Encoding.of_build _ h 0x90 _ rfl rfl (by simp [buildInstr, build9, mainOf_op, mainOf_low, low_6_6_6_2])
theorem Encoding.fsetne (h : Hdr) (d : BitVec 6) (a : BitVec 6) (b : BitVec 6) (t : BitVec 2) : Encoding.Statement (.fsetne h d a b t) :=
  Encoding.of_build _ h 0x91 _ rfl rfl (by simp [buildInstr, build9, mainOf_op, mainOf_low, low_6_6_6_2])
theorem Encoding.fsetlt (h : Hdr) (d : BitVec 6) (a : BitVec 6) (b : BitVec 6) (t : BitVec 2) : Encoding.Statement (.fsetlt h d a b t) :=
  Encoding.of_build _ h 0x92 _ rfl rfl (by simp [buildInstr, build9, mainOf_op, mainOf_low, low_6_6_6_2])
theorem Encoding.fsetle (h : Hdr) (d : BitVec 6) (a : BitVec 6) (b : BitVec 6) (t : BitVec 2) : Encoding.Statement (.fsetle h d a b t) :=
  Encoding.of_build _ h 0x93 _ rfl rfl (by simp [buildInstr, build9, mainOf_op, mainOf_low, low_6_6_6_2])
theorem Encoding.fsetun (h : Hdr) (d : BitVec 6) (a : BitVec 6) (b : BitVec 6) (t : BitVec 2) : Encoding.Statement (.fsetun h d a b t) :=
  Encoding.of_build _ h 0x94 _ rfl rfl (by simp [buildInstr, build9, mainOf_op, mainOf_low, low_6_6_6_2])
theorem Encoding.fclass (h : Hdr) (d : BitVec 6) (a : BitVec 6) (t : BitVec 2) : Encoding.Statement (.fclass h d a t) :=
  Encoding.of_build _ h 0x95 _ rfl rfl (by simp [buildInstr, build9, mainOf_op, mainOf_low, low_6_6_0c6_2, field])
theorem Encoding.fclassGetfx (h : Hdr) (d : BitVec 6) : Encoding.Statement (.fclassGetfx h d) :=
  Encoding.of_build _ h 0x95 _ rfl rfl (by simp [buildInstr, build9, mainOf_op, mainOf_low, low_6_6c14, field])
theorem Encoding.fclassSetfx (h : Hdr) (a : BitVec 6) : Encoding.Statement (.fclassSetfx h a) :=
  Encoding.of_build _ h 0x95 _ rfl rfl (by simp [buildInstr, build9, mainOf_op, mainOf_low, low_0c6_6_10c8, field])
theorem Encoding.fexp2 (h : Hdr) (d : BitVec 6) (a : BitVec 6) (t : BitVec 2) : Encoding.Statement (.fexp2 h d a t) :=
  Encoding.of_build _ h 0x96 _ rfl rfl (by simp [buildInstr, build9, mainOf_op, mainOf_low, low_6_6_0c6_2])
theorem Encoding.flog2 (h : Hdr) (d : BitVec 6) (a : BitVec 6) (t : BitVec 2) : Encoding.Statement (.flog2 h d a t) :=
  Encoding.of_build _ h 0x97 _ rfl rfl (by simp [buildInstr, build9, mainOf_op, mainOf_low, low_6_6_0c6_2])
theorem Encoding.fsin (h : Hdr) (d : BitVec 6) (a : BitVec 6) (t : BitVec 2) : Encoding.Statement (.fsin h d a t) :=
  Encoding.of_build _ h 0x98 _ rfl rfl (by simp [buildInstr, build9, mainOf_op, mainOf_low, low_6_6_0c6_2])
theorem Encoding.fcos (h : Hdr) (d : BitVec 6) (a : BitVec 6) (t : BitVec 2) : Encoding.Statement (.fcos h d a t) :=
  Encoding.of_build _ h 0x99 _ rfl rfl (by simp [buildInstr, build9, mainOf_op, mainOf_low, low_6_6_0c6_2])
theorem Encoding.ftanh (h : Hdr) (d : BitVec 6) (a : BitVec 6) (t : BitVec 2) : Encoding.Statement (.ftanh h d a t) :=
  Encoding.of_build _ h 0x9A _ rfl rfl (by simp [buildInstr, build9, mainOf_op, mainOf_low, low_6_6_0c6_2])
theorem Encoding.fscale (h : Hdr) (d : BitVec 6) (a : BitVec 6) (b : BitVec 6) (t : BitVec 2) : Encoding.Statement (.fscale h d a b t) :=
  Encoding.of_build _ h 0x9B _ rfl rfl (by simp [buildInstr, build9, mainOf_op, mainOf_low, low_6_6_6_2])
theorem Encoding.frint (h : Hdr) (d : BitVec 6) (a : BitVec 6) (t : BitVec 2) : Encoding.Statement (.frint h d a t) :=
  Encoding.of_build _ h 0x9C _ rfl rfl (by simp [buildInstr, build9, mainOf_op, mainOf_low, low_6_6_0c6_2])
theorem Encoding.fcopysign (h : Hdr) (d : BitVec 6) (a : BitVec 6) (b : BitVec 6) (t : BitVec 2) : Encoding.Statement (.fcopysign h d a b t) :=
  Encoding.of_build _ h 0x9D _ rfl rfl (by simp [buildInstr, build9, mainOf_op, mainOf_low, low_6_6_6_2])
theorem Encoding.faddu (h : Hdr) (d : BitVec 6) (a : BitVec 6) (b : BitVec 7) : Encoding.Statement (.faddu h d a b) :=
  Encoding.of_build _ h 0x9E _ rfl rfl (by simp [buildInstr, build9, mainOf_op, mainOf_low, low_6_6_0c1_7])
theorem Encoding.fmulu (h : Hdr) (d : BitVec 6) (a : BitVec 6) (b : BitVec 7) : Encoding.Statement (.fmulu h d a b) :=
  Encoding.of_build _ h 0x9F _ rfl rfl (by simp [buildInstr, build9, mainOf_op, mainOf_low, low_6_6_0c1_7])
theorem Encoding.cadd (h : Hdr) (d : BitVec 6) (a : BitVec 6) (b : BitVec 6) : Encoding.Statement (.cadd h d a b) :=
  Encoding.of_build _ h 0xA0 _ rfl rfl (by simp [buildInstr, buildA, mainOf_op, mainOf_low, low_6_6_6_0c2])
theorem Encoding.csub (h : Hdr) (d : BitVec 6) (a : BitVec 6) (b : BitVec 6) : Encoding.Statement (.csub h d a b) :=
  Encoding.of_build _ h 0xA1 _ rfl rfl (by simp [buildInstr, buildA, mainOf_op, mainOf_low, low_6_6_6_0c2])
theorem Encoding.cmul (h : Hdr) (d : BitVec 6) (a : BitVec 6) (b : BitVec 6) : Encoding.Statement (.cmul h d a b) :=
  Encoding.of_build _ h 0xA2 _ rfl rfl (by simp [buildInstr, buildA, mainOf_op, mainOf_low, low_6_6_6_0c2])
theorem Encoding.cfma (h : Hdr) (d : BitVec 6) (a : BitVec 6) (b : BitVec 6) : Encoding.Statement (.cfma h d a b) :=
  Encoding.of_build _ h 0xA3 _ rfl rfl (by simp [buildInstr, buildA, mainOf_op, mainOf_low, low_6_6_6_0c2])
theorem Encoding.cconj (h : Hdr) (d : BitVec 6) (a : BitVec 6) : Encoding.Statement (.cconj h d a) :=
  Encoding.of_build _ h 0xA4 _ rfl rfl (by simp [buildInstr, buildA, mainOf_op, mainOf_low, low_6_6_0c8])
theorem Encoding.cnorm (h : Hdr) (d : BitVec 6) (a : BitVec 6) : Encoding.Statement (.cnorm h d a) :=
  Encoding.of_build _ h 0xA5 _ rfl rfl (by simp [buildInstr, buildA, mainOf_op, mainOf_low, low_6_6_0c8])
theorem Encoding.hadd2 (h : Hdr) (d : BitVec 6) (a : BitVec 6) (b : BitVec 6) (t : BitVec 2) : Encoding.Statement (.hadd2 h d a b t) :=
  Encoding.of_build _ h 0xA6 _ rfl rfl (by simp [buildInstr, buildA, mainOf_op, mainOf_low, low_6_6_6_2])
theorem Encoding.hmul2 (h : Hdr) (d : BitVec 6) (a : BitVec 6) (b : BitVec 6) (t : BitVec 2) : Encoding.Statement (.hmul2 h d a b t) :=
  Encoding.of_build _ h 0xA7 _ rfl rfl (by simp [buildInstr, buildA, mainOf_op, mainOf_low, low_6_6_6_2])
theorem Encoding.hfma2 (h : Hdr) (d : BitVec 6) (a : BitVec 6) (b : BitVec 6) (t : BitVec 2) : Encoding.Statement (.hfma2 h d a b t) :=
  Encoding.of_build _ h 0xA8 _ rfl rfl (by simp [buildInstr, buildA, mainOf_op, mainOf_low, low_6_6_6_2])
theorem Encoding.hmin2 (h : Hdr) (d : BitVec 6) (a : BitVec 6) (b : BitVec 6) (t : BitVec 2) : Encoding.Statement (.hmin2 h d a b t) :=
  Encoding.of_build _ h 0xA9 _ rfl rfl (by simp [buildInstr, buildA, mainOf_op, mainOf_low, low_6_6_6_2])
theorem Encoding.hmax2 (h : Hdr) (d : BitVec 6) (a : BitVec 6) (b : BitVec 6) (t : BitVec 2) : Encoding.Statement (.hmax2 h d a b t) :=
  Encoding.of_build _ h 0xAA _ rfl rfl (by simp [buildInstr, buildA, mainOf_op, mainOf_low, low_6_6_6_2])
theorem Encoding.fdot2 (h : Hdr) (d : BitVec 6) (a : BitVec 6) (b : BitVec 6) (t : BitVec 2) : Encoding.Statement (.fdot2 h d a b t) :=
  Encoding.of_build _ h 0xAB _ rfl rfl (by simp [buildInstr, buildA, mainOf_op, mainOf_low, low_6_6_6_2])
theorem Encoding.fdot4 (h : Hdr) (d : BitVec 6) (a : BitVec 6) (b : BitVec 6) (t : BitVec 2) : Encoding.Statement (.fdot4 h d a b t) :=
  Encoding.of_build _ h 0xAC _ rfl rfl (by simp [buildInstr, buildA, mainOf_op, mainOf_low, low_6_6_6_2])
theorem Encoding.fmau (h : Hdr) (d : BitVec 6) (a : BitVec 6) (b : BitVec 7) : Encoding.Statement (.fmau h d a b) :=
  Encoding.of_build _ h 0xAD _ rfl rfl (by simp [buildInstr, buildA, mainOf_op, mainOf_low, low_6_6_0c1_7])
theorem Encoding.fmovi (h : Hdr) (d : BitVec 6) (i : BitVec 8) : Encoding.Statement (.fmovi h d i) :=
  Encoding.of_build _ h 0xAE _ rfl rfl (by simp [buildInstr, buildA, mainOf_op, mainOf_low, low_6_0c6_8])
theorem Encoding.cvt (h : Hdr) (d : BitVec 6) (a : BitVec 6) (n : BitVec 4) (m : BitVec 4) : Encoding.Statement (.cvt h d a n m) :=
  Encoding.of_build _ h 0xC0 _ rfl rfl (by simp [buildInstr, buildC, mainOf_op, mainOf_low, low_6_6_4_4])
theorem Encoding.cvtf2i (h : Hdr) (d : BitVec 6) (a : BitVec 6) (n : BitVec 4) (m : BitVec 4) : Encoding.Statement (.cvtf2i h d a n m) :=
  Encoding.of_build _ h 0xC1 _ rfl rfl (by simp [buildInstr, buildC, mainOf_op, mainOf_low, low_6_6_4_4])
theorem Encoding.cvti2f (h : Hdr) (d : BitVec 6) (a : BitVec 6) (n : BitVec 4) (m : BitVec 4) : Encoding.Statement (.cvti2f h d a n m) :=
  Encoding.of_build _ h 0xC2 _ rfl rfl (by simp [buildInstr, buildC, mainOf_op, mainOf_low, low_6_6_4_4])
theorem Encoding.cvti2i (h : Hdr) (d : BitVec 6) (a : BitVec 6) (n : BitVec 4) (m : BitVec 4) : Encoding.Statement (.cvti2i h d a n m) :=
  Encoding.of_build _ h 0xC3 _ rfl rfl (by simp [buildInstr, buildC, mainOf_op, mainOf_low, low_6_6_4_4])
theorem Encoding.cvtpack (h : Hdr) (d : BitVec 6) (a : BitVec 6) (n : BitVec 4) (m : BitVec 4) : Encoding.Statement (.cvtpack h d a n m) :=
  Encoding.of_build _ h 0xC4 _ rfl rfl (by simp [buildInstr, buildC, mainOf_op, mainOf_low, low_6_6_4_4])
theorem Encoding.cvtunpack (h : Hdr) (d : BitVec 6) (a : BitVec 6) (n : BitVec 4) (m : BitVec 4) : Encoding.Statement (.cvtunpack h d a n m) :=
  Encoding.of_build _ h 0xC5 _ rfl rfl (by simp [buildInstr, buildC, mainOf_op, mainOf_low, low_6_6_4_4])
theorem Encoding.cvtmx (h : Hdr) (d : BitVec 6) (a : BitVec 6) (n : BitVec 4) (m : BitVec 4) : Encoding.Statement (.cvtmx h d a n m) :=
  Encoding.of_build _ h 0xC6 _ rfl rfl (by simp [buildInstr, buildC, mainOf_op, mainOf_low, low_6_6_4_4])
theorem Encoding.cvtsort (h : Hdr) (d : BitVec 6) (a : BitVec 6) (n : BitVec 4) (m : BitVec 4) : Encoding.Statement (.cvtsort h d a n m) :=
  Encoding.of_build _ h 0xC7 _ rfl rfl (by simp [buildInstr, buildC, mainOf_op, mainOf_low, low_6_6_4_4])
theorem Encoding.cvtdq (h : Hdr) (d : BitVec 6) (a : BitVec 6) (n : BitVec 4) (m : BitVec 4) : Encoding.Statement (.cvtdq h d a n m) :=
  Encoding.of_build _ h 0xC8 _ rfl rfl (by simp [buildInstr, buildC, mainOf_op, mainOf_low, low_6_6_4_4])
theorem Encoding.xli (h : Hdr) (d : BitVec 6) (a : BitVec 6) (b : BitVec 6) (t : BitVec 2) : Encoding.Statement (.xli h d a b t) :=
  Encoding.of_build _ h 0xD0 _ rfl rfl (by simp [buildInstr, buildD, mainOf_op, mainOf_low, low_6_6_6_2])
theorem Encoding.xlr (h : Hdr) (d : BitVec 6) (a : BitVec 6) (t : BitVec 2) : Encoding.Statement (.xlr h d a t) :=
  Encoding.of_build _ h 0xD1 _ rfl rfl (by simp [buildInstr, buildD, mainOf_op, mainOf_low, low_6_6_0c6_2])
theorem Encoding.xlf (h : Hdr) (d : BitVec 6) (a : BitVec 6) (t : BitVec 2) : Encoding.Statement (.xlf h d a t) :=
  Encoding.of_build _ h 0xD2 _ rfl rfl (by simp [buildInstr, buildD, mainOf_op, mainOf_low, low_6_6_0c6_2])
theorem Encoding.xlb (h : Hdr) (d : BitVec 6) (a : BitVec 6) (t : BitVec 2) : Encoding.Statement (.xlb h d a t) :=
  Encoding.of_build _ h 0xD3 _ rfl rfl (by simp [buildInstr, buildD, mainOf_op, mainOf_low, low_6_6_0c6_2])
theorem Encoding.pcnt (h : Hdr) (d : BitVec 6) (a : BitVec 6) (b : BitVec 6) : Encoding.Statement (.pcnt h d a b) :=
  Encoding.of_build _ h 0xD4 _ rfl rfl (by simp [buildInstr, buildD, mainOf_op, mainOf_low, low_6_6_6_0c2])
theorem Encoding.pmask (h : Hdr) (a : BitVec 6) : Encoding.Statement (.pmask h a) :=
  Encoding.of_build _ h 0xD5 _ rfl rfl (by simp [buildInstr, buildD, mainOf_op, mainOf_low, low_0c6_6_0c8])
theorem Encoding.pfirst (h : Hdr) (d : BitVec 6) (a : BitVec 6) : Encoding.Statement (.pfirst h d a) :=
  Encoding.of_build _ h 0xD6 _ rfl rfl (by simp [buildInstr, buildD, mainOf_op, mainOf_low, low_6_6_0c8])
theorem Encoding.redadd (h : Hdr) (d : BitVec 6) (a : BitVec 6) (t : BitVec 2) : Encoding.Statement (.redadd h d a t) :=
  Encoding.of_build _ h 0xD7 _ rfl rfl (by simp [buildInstr, buildD, mainOf_op, mainOf_low, low_6_6_0c6_2])
theorem Encoding.redmin (h : Hdr) (d : BitVec 6) (a : BitVec 6) (t : BitVec 2) : Encoding.Statement (.redmin h d a t) :=
  Encoding.of_build _ h 0xD8 _ rfl rfl (by simp [buildInstr, buildD, mainOf_op, mainOf_low, low_6_6_0c6_2])
theorem Encoding.redmax (h : Hdr) (d : BitVec 6) (a : BitVec 6) (t : BitVec 2) : Encoding.Statement (.redmax h d a t) :=
  Encoding.of_build _ h 0xD9 _ rfl rfl (by simp [buildInstr, buildD, mainOf_op, mainOf_low, low_6_6_0c6_2])
theorem Encoding.scanadd (h : Hdr) (d : BitVec 6) (a : BitVec 6) (t : BitVec 2) : Encoding.Statement (.scanadd h d a t) :=
  Encoding.of_build _ h 0xDA _ rfl rfl (by simp [buildInstr, buildD, mainOf_op, mainOf_low, low_6_6_0c6_2])
theorem Encoding.xleq (h : Hdr) (d : BitVec 6) (a : BitVec 6) (t : BitVec 2) : Encoding.Statement (.xleq h d a t) :=
  Encoding.of_build _ h 0xDF _ rfl rfl (by simp [buildInstr, buildD, mainOf_op, mainOf_low, low_6_6_0c6_2])
theorem Encoding.split (h : Hdr) (d : BitVec 7) (k : BitVec 6) : Encoding.Statement (.split h d k) :=
  Encoding.of_build _ h 0xDB _ rfl rfl (by simp [buildInstr, buildD, mainOf_op, mainOf_low, low_7_0c7_6])
theorem Encoding.fuse (h : Hdr) (d : BitVec 7) : Encoding.Statement (.fuse h d) :=
  Encoding.of_build _ h 0xDC _ rfl rfl (by simp [-BitVec.getLsbD_eq_getElem, buildInstr, buildD, mainOf_op, mainOf_low, mainOf_bit, low_7_0c13])
theorem Encoding.fuseWait (h : Hdr) (d : BitVec 7) (a : BitVec 7) : Encoding.Statement (.fuseWait h d a) :=
  Encoding.of_build _ h 0xDC _ rfl rfl (by simp [-BitVec.getLsbD_eq_getElem, buildInstr, buildD, mainOf_op, mainOf_low, mainOf_bit, low_7_7_1c6])
theorem Encoding.wait (h : Hdr) (l : BitVec 5) (s : BitVec 5) (m : BitVec 5) (a : BitVec 5) : Encoding.Statement (.wait h l s m a) :=
  Encoding.of_build _ h 0xDD _ rfl rfl (by simp [buildInstr, buildD, mainOf_op, mainOf_low, low_5_5_5_5])
theorem Encoding.tbar (h : Hdr) (a : BitVec 7) (n : BitVec 3) : Encoding.Statement (.tbar h a n) :=
  Encoding.of_build _ h 0xDE _ rfl rfl (by simp [buildInstr, buildD, mainOf_op, mainOf_low, low_0c7_7_0c3_3])
theorem Encoding.ld (h : Hdr) (d : BitVec 6) (b : BitVec 6) (x : BitVec 6) (z : BitVec 2) : Encoding.Statement (.ld h d b x z) :=
  Encoding.of_build _ h 0xE0 _ rfl rfl (by simp [buildInstr, buildE, mainOf_op, mainOf_low, low_6_6_6_2])
theorem Encoding.st (h : Hdr) (d : BitVec 6) (b : BitVec 6) (x : BitVec 6) (z : BitVec 2) : Encoding.Statement (.st h d b x z) :=
  Encoding.of_build _ h 0xE1 _ rfl rfl (by simp [buildInstr, buildE, mainOf_op, mainOf_low, low_6_6_6_2])
theorem Encoding.ldu (h : Hdr) (d : BitVec 6) (b : BitVec 6) (z : BitVec 2) : Encoding.Statement (.ldu h d b z) :=
  Encoding.of_build _ h 0xE2 _ rfl rfl (by simp [buildInstr, buildE, mainOf_op, mainOf_low, low_6_6_0c6_2])
theorem Encoding.stu (h : Hdr) (d : BitVec 6) (b : BitVec 6) (z : BitVec 2) : Encoding.Statement (.stu h d b z) :=
  Encoding.of_build _ h 0xE3 _ rfl rfl (by simp [buildInstr, buildE, mainOf_op, mainOf_low, low_6_6_0c6_2])
theorem Encoding.atom (h : Hdr) (d : BitVec 6) (b : BitVec 6) (x : BitVec 6) (z : BitVec 2) : Encoding.Statement (.atom h d b x z) :=
  Encoding.of_build _ h 0xE4 _ rfl rfl (by simp [buildInstr, buildE, mainOf_op, mainOf_low, low_6_6_6_2])
theorem Encoding.red (h : Hdr) (d : BitVec 6) (b : BitVec 6) (x : BitVec 6) (z : BitVec 2) : Encoding.Statement (.red h d b x z) :=
  Encoding.of_build _ h 0xE5 _ rfl rfl (by simp [buildInstr, buildE, mainOf_op, mainOf_low, low_6_6_6_2])
theorem Encoding.cas (h : Hdr) (d : BitVec 6) (b : BitVec 6) (x : BitVec 6) (z : BitVec 1) : Encoding.Statement (.cas h d b x z) :=
  Encoding.of_build _ h 0xE6 _ rfl rfl (by simp [buildInstr, buildE, mainOf_op, mainOf_low, low_6_6_6_1c1_1])
theorem Encoding.pfetch (h : Hdr) (b : BitVec 6) (x : BitVec 6) (z : BitVec 2) : Encoding.Statement (.pfetch h b x z) :=
  Encoding.of_build _ h 0xE7 _ rfl rfl (by simp [buildInstr, buildE, mainOf_op, mainOf_low, low_0c6_6_6_2])
theorem Encoding.fenceRel (h : Hdr) : Encoding.Statement (.fenceRel h) := by
  intro m h1 h2
  cases h1
  refine ⟨mainOf_c h _ _, mainOf_g h _ _, ?_⟩
  simp only [orderAgrees] at h2
  split at h2
  · rename_i p hp
    simp [buildInstr, buildE, mainOf_op, hdrOf, hp, beq_iff_eq.1 h2]
  · cases h2
theorem Encoding.fenceAcq (h : Hdr) : Encoding.Statement (.fenceAcq h) := by
  intro m h1 h2
  cases h1
  refine ⟨mainOf_c h _ _, mainOf_g h _ _, ?_⟩
  simp only [orderAgrees] at h2
  split at h2
  · rename_i p hp
    simp [buildInstr, buildE, mainOf_op, hdrOf, hp, beq_iff_eq.1 h2]
  · cases h2
theorem Encoding.cflush (h : Hdr) (d : BitVec 7) (a : BitVec 7) (b : BitVec 6) : Encoding.Statement (.cflush h d a b) :=
  Encoding.of_build _ h 0xE9 _ rfl rfl (by simp [buildInstr, buildE, mainOf_op, mainOf_low, low_7_7_6])
theorem Encoding.mma (h : Hdr) (d : BitVec 7) (a : BitVec 7) (s : BitVec 1) (z : BitVec 1) (j : BitVec 1) (k : BitVec 1) : Encoding.Statement (.mma h d a s z j k) :=
  Encoding.of_build _ h 0xF0 _ rfl rfl (by simp [buildInstr, buildF, mainOf_op, mainOf_low, low_7_7_1_1_1_1_0c2])
theorem Encoding.mmaGang (h : Hdr) (d : BitVec 7) (a : BitVec 7) (s : BitVec 1) (z : BitVec 1) (j : BitVec 1) (k : BitVec 1) : Encoding.Statement (.mmaGang h d a s z j k) :=
  Encoding.of_build _ h 0xF1 _ rfl rfl (by simp [buildInstr, buildF, mainOf_op, mainOf_low, low_7_7_1_1_1_1_0c2])
theorem Encoding.mtileZero (h : Hdr) (d : BitVec 7) : Encoding.Statement (.mtileZero h d) :=
  Encoding.of_build _ h 0xF2 _ rfl rfl (by simp [buildInstr, buildF, mainOf_op, mainOf_low, low_7_0c13, field])
theorem Encoding.mtileSt (h : Hdr) (d : BitVec 7) (a : BitVec 7) (s : BitVec 1) (f : BitVec 3) : Encoding.Statement (.mtileSt h d a s f) :=
  Encoding.of_build _ h 0xF2 _ rfl rfl (by simp [buildInstr, buildF, mainOf_op, mainOf_low, low_7_7_1_1c2_3, field])
theorem Encoding.mtileLd (h : Hdr) (d : BitVec 7) (a : BitVec 7) (f : BitVec 3) : Encoding.Statement (.mtileLd h d a f) :=
  Encoding.of_build _ h 0xF2 _ rfl rfl (by simp [buildInstr, buildF, mainOf_op, mainOf_low, low_7_7_2c3_3, field])
theorem Encoding.mstat (h : Hdr) (d : BitVec 7) : Encoding.Statement (.mstat h d) :=
  Encoding.of_build _ h 0xF3 _ rfl rfl (by simp [-BitVec.getLsbD_eq_getElem, buildInstr, buildF, mainOf_op, mainOf_low, mainOf_bit, low_7_0c13])
theorem Encoding.mstatClr (h : Hdr) (d : BitVec 7) : Encoding.Statement (.mstatClr h d) :=
  Encoding.of_build _ h 0xF3 _ rfl rfl (by simp [-BitVec.getLsbD_eq_getElem, buildInstr, buildF, mainOf_op, mainOf_low, mainOf_bit, low_7_1c13])
theorem Encoding.cpy (h : Hdr) (a : BitVec 7) (k : BitVec 3) : Encoding.Statement (.cpy h a k) :=
  Encoding.of_build _ h 0xF4 _ rfl rfl (by simp [-BitVec.getLsbD_eq_getElem, buildInstr, buildF, mainOf_op, mainOf_low, mainOf_bit, low_0c7_7_0c3_3])
theorem Encoding.cpyPromise (h : Hdr) (d : BitVec 7) (a : BitVec 7) (k : BitVec 3) : Encoding.Statement (.cpyPromise h d a k) :=
  Encoding.of_build _ h 0xF4 _ rfl rfl (by simp [-BitVec.getLsbD_eq_getElem, buildInstr, buildF, mainOf_op, mainOf_low, mainOf_bit, low_7_7_4c3_3])
theorem Encoding.waitk (h : Hdr) (m : BitVec 8) : Encoding.Statement (.waitk h m) :=
  Encoding.of_build _ h 0xF5 _ rfl rfl (by simp [buildInstr, buildF, mainOf_op, mainOf_low, low_0c12_8])
theorem Encoding.barx (h : Hdr) (x : BitVec 7) (a : BitVec 7) (r : BitVec 1) : Encoding.Statement (.barx h x a r) :=
  Encoding.of_build _ h 0xF6 _ rfl rfl (by simp [-BitVec.getLsbD_eq_getElem, buildInstr, buildF, mainOf_op, mainOf_low, mainOf_bit, low_7_7_0c4_1_0c1])
theorem Encoding.barw (h : Hdr) (d : BitVec 7) (a : BitVec 7) : Encoding.Statement (.barw h d a) :=
  Encoding.of_build _ h 0xF6 _ rfl rfl (by simp [-BitVec.getLsbD_eq_getElem, buildInstr, buildF, mainOf_op, mainOf_low, mainOf_bit, low_7_7_1c6])
theorem Encoding.preg (h : Hdr) (d : BitVec 7) (a : BitVec 7) : Encoding.Statement (.preg h d a) :=
  Encoding.of_build _ h 0xF7 _ rfl rfl (by simp [buildInstr, buildF, mainOf_op, mainOf_low, low_7_7_0c6, field])
theorem Encoding.pdrop (h : Hdr) (d : BitVec 7) (a : BitVec 7) : Encoding.Statement (.pdrop h d a) :=
  Encoding.of_build _ h 0xF7 _ rfl rfl (by simp [buildInstr, buildF, mainOf_op, mainOf_low, low_7_7_1c6, field])
theorem Encoding.pstamp (h : Hdr) (d : BitVec 7) (a : BitVec 7) : Encoding.Statement (.pstamp h d a) :=
  Encoding.of_build _ h 0xF7 _ rfl rfl (by simp [buildInstr, buildF, mainOf_op, mainOf_low, low_7_7_2c6, field])
theorem Encoding.proctorLanesStart : Encoding.Statement .proctorLanesStart := Encoding.of_event _ rfl
theorem Encoding.fusedMinimumRaise : Encoding.Statement .fusedMinimumRaise := Encoding.of_event _ rfl
theorem Encoding.cflushComplete : Encoding.Statement .cflushComplete := Encoding.of_event _ rfl
theorem Encoding.maintenanceRequestDone : Encoding.Statement .maintenanceRequestDone := Encoding.of_event _ rfl

end Sys2Proof.Laws
end

