-- ==== Sys2Proof/Laws/Translate.lean ====
section
/-! SUPPORT. What a walker's cache and an installed translation leave as they were. -/

namespace Sys2Proof.Machine

/-- A walker with an empty cache reads every entry in memory. -/
theorem walkOn_of_empty (s : State) (die : Nat) (ctx : W32) (va : Nat) (h : s.wcache = []) :
    s.walkOn die ctx va = s.walk ctx va := by
  have : s.walkerRead die ctx va = s.entryRead := by
    funext level at_
    simp [State.walkerRead, State.walkerKept, h]
  simp [State.walkOn, State.walk, this]

/-- Keeping an entry changes the walkers' caches and the counter of free values alone. -/
theorem walkerKeep_frame (s : State) (x : WalkerEntry) :
    ∃ c n, s.walkerKeep x = { s with wcache := c, fresh := n } := by
  unfold State.walkerKeep
  dsimp only
  split
  · exact ⟨_, _, rfl⟩
  · exact ⟨_, _, rfl⟩

/-- So does a whole walk. -/
theorem walkerFill_frame (s : State) (die : Nat) (ctx : W32) (va : Nat) :
    ∃ c n, s.walkerFill die ctx va = { s with wcache := c, fresh := n } := by
  have fold (l : List (Nat × Nat)) (f : Nat × Nat → WalkerEntry) (r : State) :
      ∃ c n, l.foldl (fun (r : State) e => r.walkerKeep (f e)) r = { r with wcache := c, fresh := n } := by
    induction l generalizing r with
    | nil => exact ⟨_, _, rfl⟩
    | cons e l ih =>
      obtain ⟨c, n, h⟩ := walkerKeep_frame r (f e)
      obtain ⟨c', n', h'⟩ := ih (r.walkerKeep (f e))
      exact ⟨c', n', by rw [List.foldl_cons, h', h]⟩
  unfold State.walkerFill
  split
  · exact ⟨_, _, rfl⟩
  · obtain ⟨c, n, h⟩ := fold _ _ { s with fresh := s.fresh + 1 }
    exact ⟨c, n, h⟩

/-- Installing a translation changes the TLBs and the counter of free values alone. -/
theorem tlbInstall_frame (s : State) (e : TlbEntry) :
    ∃ c n, s.tlbInstall e = { s with tlb := c, fresh := n } := by
  unfold State.tlbInstall
  dsimp only
  split
  · exact ⟨_, _, rfl⟩
  · exact ⟨_, _, rfl⟩

/-- An installed translation is a member of the TLBs. -/
theorem tlbInstall_mem (s : State) (e : TlbEntry) : e ∈ (s.tlbInstall e).tlb := by
  unfold State.tlbInstall
  dsimp only
  split <;> simp

end Sys2Proof.Machine
end

