-- ==== Sys2Proof/Tests/Slice0.lean ====
section
/-! SUPPORT. Tests: ill-formed terms that each check refuses, words written out from the encodings, single steps
with results from the spec, and for every statement with hypotheses a state that meets them. -/

namespace Sys2Proof.Machine
set_option maxRecDepth 100000

/-! ## Small states -/

/-- A header without guard, prefix or extension, and one with REGX. -/
def h0 : Hdr := ⟨false, 7, none, none, .none⟩
def hx (x y : BitVec 7) (rnd : BitVec 3) (sat : Bool) : Hdr := ⟨false, 7, none, none, .regx x y rnd sat⟩

/-- A group of 16 lanes in a slot of core 0, in user or supervisor mode, at the first packet. -/
def t0 : Thread := { startThread 1 0 0 16 64 64 0 with ctx := 0x1001, sup := false }
def tS : Thread := { startThread 1 0 0 16 64 64 0 with sup := true }

/-- The device after reset with one thread, which issues. -/
def with1 (t : Thread) : State := { State.reset with threads := [t], cur := .thread t.id, nextId := 10 }

def s0 : State := with1 t0
def sS : State := with1 tS
/-- The proctor lane of core 0 issues. -/
def sP : State := { State.reset with cur := .proctor 0 }

/-- Ready, computed. -/
def readyB (i : Instr) (s : State) (t : Thread) : Bool :=
  decide (s.cur = .thread t.id) && decide (s.thread? t.id = some t) && !t.lateNow && wellFormed i
    && (!privileged (opcode i) || t.sup) && !(uses i).sw.any (s.locked t) && !s.scoreboard t (uses i)
    && !s.counterFull t.id (opcode i) && decide (poisonedLanes t (readLanes i t) (uses i) = 0)

theorem ready_of {i : Instr} {s : State} {t : Thread} (h : readyB i s t = true) : Ready i s t := by
  simp only [readyB, Bool.and_eq_true, Bool.or_eq_true, Bool.not_eq_true', decide_eq_true_eq] at h
  obtain ⟨⟨⟨⟨⟨⟨⟨⟨a, b⟩, c⟩, d⟩, e⟩, f⟩, g⟩, j⟩, k⟩ := h
  exact ⟨a, b, c, d, fun p => e.resolve_left (by simp [p]), f, g, j, k⟩

/-- ReadyProctor, computed. -/
def readyPB (i : Instr) (s : State) (c : Nat) : Bool :=
  decide (s.cur = .proctor c) && decide (c < s.cores.length) && wellFormed i && proctorAccepts (opcode i)
    && decide ((hdrOf i).lmod = none) && !s.proctorBusy c (uses i)

theorem readyP_of {i : Instr} {s : State} {c : Nat} (h : readyPB i s c = true) : ReadyProctor i s c := by
  simp only [readyPB, Bool.and_eq_true, Bool.not_eq_true', decide_eq_true_eq] at h
  obtain ⟨⟨⟨⟨⟨a, b⟩, c⟩, d⟩, e⟩, f⟩ := h
  exact ⟨a, b, c, d, e, f⟩

theorem ready_all {l : List Instr} {s : State} {t : Thread} (h : l.all (fun i => readyB i s t) = true) :
    ∀ i ∈ l, Ready i s t := fun i m => ready_of (List.all_eq_true.1 h i m)

theorem witness_UniformResults : ∀ i ∈ ([
    .uadd h0 5 1 2, .usub h0 5 1 2, .umul h0 5 1 2, .umulhs h0 5 1 2, .umulhn h0 5 1 2, .uand h0 5 1 2,
    .uor h0 5 1 2, .uxor h0 5 1 2, .ushl h0 5 1 2, .ushr h0 5 1 2, .usar h0 5 1 2, .umins h0 5 1 2,
    .uminn h0 5 1 2, .umaxs h0 5 1 2, .umaxn h0 5 1 2, .usel h0 5 1 2, .useq h0 5 1 2, .usne h0 5 1 2,
    .uslts h0 5 1 2, .usltn h0 5 1 2, .ubfx h0 5 1 2, .uadd (hx 95 0 0 false) 95 95 0,
    .uaddi h0 5 1 63, .uandi h0 5 1 63, .uori h0 5 1 63, .uxori h0 5 1 63, .ushli h0 5 1 63, .ushri h0 5 1 63,
    .usari h0 5 1 63, .upopc h0 95 0, .uclz h0 95 0, .umovi h0 63 255, .urdlane h0 95 63 63] : List Instr),
    Ready i s0 t0 := ready_all (by decide)


theorem witness_UniformResultsOnAProctorLane : ∀ i ∈ ([
    .uadd h0 5 1 2, .usub h0 5 1 2, .uand h0 5 1 2, .uor h0 5 1 2, .uxor h0 95 95 63, .uaddi h0 5 1 63] : List Instr),
    ReadyProctor i sP 0 := fun i m =>
  readyP_of (List.all_eq_true.1 (by decide : List.all _ (fun i => readyPB i sP 0) = true) i m)

/-- The integer instructions of format V without a prefix, for type ty and registers that every type allows. -/
def vectorTwo (ty : BitVec 2) : List Instr :=
  [.iadd h0 62 2 4 ty, .isub h0 62 2 4 ty, .imul h0 62 2 4 ty, .imad h0 62 2 4 ty, .imins h0 62 2 4 ty,
   .iminn h0 62 2 4 ty, .imaxs h0 62 2 4 ty, .imaxn h0 62 2 4 ty, .shlV h0 62 2 4 ty, .shrV h0 62 2 4 ty,
   .sarV h0 62 2 4 ty, .iaddss h0 62 2 4 ty, .iaddsn h0 62 2 4 ty, .isubss h0 62 2 4 ty, .isubsn h0 62 2 4 ty,
   .imulhs h0 62 2 4 ty, .imulhn h0 62 2 4 ty, .rotl h0 62 2 4 ty, .bfx h0 62 2 4 ty, .bfi h0 62 2 4 ty,
   .andV h0 62 2 4 ty, .orV h0 62 2 4 ty, .xorV h0 62 2 4 ty, .andn h0 62 2 4 ty,
   .iabs h0 62 2 ty, .ineg h0 62 2 ty, .bperm h0 62 2 4 ty]

/-- Instructions on whole registers or pairs. -/
def vectorOne (ty : BitVec 2) : List Instr :=
  [.notV h0 62 2 ty, .popc h0 62 2 ty, .clz h0 62 2 ty, .brev h0 62 2 ty, .movV h0 62 2 ty]

theorem witness_VectorResults : (∀ ty ∈ ([0, 1, 2, 3] : List (BitVec 2)), ∀ i ∈ vectorTwo ty, Ready i s0 t0) ∧
    (∀ ty ∈ ([0, 1] : List (BitVec 2)), ∀ i ∈ vectorOne ty, Ready i s0 t0) ∧ t0.dres ≠ 1 :=
  ⟨fun ty m => ready_all (List.all_eq_true.1 (by decide : List.all _ (fun ty => (vectorTwo ty).all
      (fun i => readyB i s0 t0)) = true) ty m),
   fun ty m => ready_all (List.all_eq_true.1 (by decide : List.all _ (fun ty => (vectorOne ty).all
      (fun i => readyB i s0 t0)) = true) ty m), by decide⟩

theorem witness_SelectAndUniformOperandResults : (∀ i ∈ ([
    .bfn (hx 6 95 0 false) 62 2 4 2, .bfn (hx 6 95 0 false) 62 2 4 3, .selV (hx 7 0 0 false) 62 2 4 2,
    .selV (hx 0 0 0 false) 62 2 4 3, .lea h0 62 63 4, .lea (hx 3 0 0 false) 62 63 4, .iaddu h0 63 0 95,
    .isubu h0 63 0 95, .imulu h0 63 0 95, .shlu h0 63 0 95, .shru h0 63 0 95, .andu h0 63 0 95, .oru h0 63 0 95,
    .xoru h0 63 0 95, .imovi h0 63 255, .iaddi h0 63 1 255, .andi h0 63 1 255, .ori h0 63 1 255, .shli h0 63 1 255,
    .shri h0 63 1 255, .sari h0 63 1 255, .iaddi { h0 with x := .immx 0xFFFFFF } 63 1 255] : List Instr),
    Ready i s0 t0) ∧ t0.dres ≠ 1 := ⟨ready_all (by decide), by decide⟩

theorem witness_IntegerComparisonResults : (∀ i ∈ ([
    .iseteq h0 6 2 4 0, .isetne h0 6 2 4 1, .isetlts h0 6 2 4 2, .isetltn h0 6 2 4 3, .isetles h0 0 2 4 2,
    .isetlen h0 0 2 4 2, .iseteqi h0 6 63 255, .isetlti h0 6 63 255] : List Instr), Ready i s0 t0) ∧
    checkInstr (.iseteq h0 0 2 4 3) = none ∧ checkInstr (.iseteq h0 6 2 4 3) = none ∧
    checkInstr (.iseteq h0 7 2 4 3) = some .register := ⟨ready_all (by decide), by decide⟩

theorem witness_PredicateResults : (∀ i ∈ ([
    .pand h0 6 7 0, .por h0 6 7 7, .pxor h0 0 7 7, .pnot h0 6 7, .pmov h0 6 7 63] : List Instr), Ready i s0 t0) ∧
    checkInstr (.pand h0 0 0 0) = none ∧ checkInstr (.pmov h0 0 0 0) = none ∧
    checkInstr (.pand h0 7 7 7) = some .register ∧ checkInstr (.pand h0 6 8 7) = some .register ∧
    checkInstr (.pand h0 6 7 8) = some .register ∧ checkInstr (.pmov h0 6 7 63) = none :=
  ⟨ready_all (by decide), by decide⟩

/-- Floating-point instructions of a format. -/
def floatOps (ty : BitVec 2) : List Instr :=
  [.fadd h0 62 2 4 ty, .fsub h0 62 2 4 ty, .fmul h0 62 2 4 ty, .fdiv h0 62 2 4 ty, .fma h0 62 2 4 ty,
   .fms h0 62 2 4 ty, .fnma h0 62 2 4 ty, .fsqrt h0 62 2 ty, .frsq h0 62 2 ty, .frcp h0 62 2 ty,
   .frint h0 62 2 ty, .fmin h0 62 2 4 ty, .fmax h0 62 2 4 ty, .fminnum h0 62 2 4 ty, .fmaxnum h0 62 2 4 ty,
   .fscale h0 62 2 4 ty, .fabs h0 62 2 ty, .fneg h0 62 2 ty, .fcopysign h0 62 2 4 ty, .fclass h0 62 2 ty,
   .fseteq h0 6 2 4 ty, .fsetne h0 6 2 4 ty, .fsetlt h0 6 2 4 ty, .fsetle h0 6 2 4 ty, .fsetun h0 6 2 4 ty]

theorem floats_ready : ∀ ty ∈ ([0, 1, 2, 3] : List (BitVec 2)), ∀ i ∈ floatOps ty, Ready i s0 t0 := fun ty m =>
  ready_all (List.all_eq_true.1 (by decide : List.all _ (fun ty => (floatOps ty).all
      (fun i => readyB i s0 t0)) = true) ty m)

theorem witness_FloatArithmeticResults : (∀ ty ∈ ([0, 1, 2, 3] : List (BitVec 2)), ∀ i ∈ floatOps ty, Ready i s0 t0) ∧
    Ready (.fma (hx 6 0 2 false) 62 2 4 3) s0 t0 ∧ t0.dres ≠ 1 ∧ fmtOfT 3 = 4 :=
  ⟨floats_ready, ready_of (by decide), by decide, by decide⟩

theorem witness_FloatFunctionAndUniformResults : (∀ i ∈ ([
    .fscale h0 63 2 4 2, .fexp2 h0 63 2 2, .flog2 h0 63 2 2, .fsin h0 63 2 2, .fcos h0 63 2 2, .ftanh h0 63 2 2,
    .faddu h0 63 2 95, .fmulu h0 63 2 95, .fmau h0 63 2 95, .fmovi { h0 with x := .immx 0x3E9999 } 63 0x9A] :
    List Instr), Ready i s0 t0) ∧ t0.dres ≠ 1 := ⟨ready_all (by decide), by decide⟩

theorem witness_SignAndClassResults : (∀ i ∈ ([
    .cconj h0 60 4, .fabs h0 62 2 3, .fneg h0 62 2 3, .fcopysign h0 62 2 4 3, .fclass h0 63 2 3,
    .fclassGetfx h0 63, .fclassSetfx h0 63] : List Instr), Ready i s0 t0) ∧ 4 ≤ t0.dres :=
  ⟨ready_all (by decide), by decide⟩

theorem witness_FloatComparisonResults : (∀ ty ∈ ([0, 1, 2, 3] : List (BitVec 2)), ∀ i ∈ floatOps ty, Ready i s0 t0) ∧
    checkInstr (.fsetle h0 0 2 4 3) = none ∧ checkInstr (.fsetle h0 6 2 4 3) = none ∧
    checkInstr (.fsetle h0 7 2 4 3) = some .register := ⟨floats_ready, by decide⟩

theorem witness_PackedAndDotProductResults : ∀ i ∈ ([
    .hadd2 h0 63 2 4 0, .hmul2 h0 63 2 4 1, .hfma2 (hx 63 0 3 false) 63 2 4 0, .hmin2 h0 63 2 4 1, .hmax2 h0 63 2 4 0,
    .fdot2 h0 63 2 4 0, .fdot2 h0 63 2 4 1, .fdot4 h0 63 2 4 0, .fdot4 h0 63 2 4 1] : List Instr), Ready i s0 t0 :=
  ready_all (by decide)

theorem witness_ComplexResults : (∀ i ∈ ([
    .cadd h0 60 4 8, .csub h0 60 4 8, .cmul h0 60 4 8, .cfma h0 60 4 8, .cfma (hx 60 0 1 false) 56 4 8,
    .cnorm h0 62 4] : List Instr), Ready i s0 t0) ∧ 4 ≤ t0.dres := ⟨ready_all (by decide), by decide⟩

theorem witness_ConversionResults : (∀ i ∈ ([
    .cvt h0 62 3 4 9, .cvt (hx 0 0 5 true) 62 3 5 3, .cvti2f h0 63 2 3 7, .cvtf2i h0 62 2 7 4, .cvtf2i h0 62 2 3 4,
    .cvti2i (hx 0 0 0 true) 62 3 3 0, .cvti2i h0 63 2 0 7, .cvtpack h0 63 56 9 3, .cvtpack (hx 0 0 5 false) 63 60 5 3,
    .cvtunpack h0 56 63 3 9, .cvtsort h0 60 24 11 1, .cvtdq h0 63 2 3 11, .cvtdq h0 63 2 0 10] : List Instr),
    Ready i s0 t0) ∧ 8 ≤ t0.dres := ⟨ready_all (by decide), by decide⟩

/-- A group whose s10 names all its lanes. -/
def tX : Thread := t0.setSreg 10 0xFFFF
def hX : Hdr := hx 3 10 0 false

theorem witness_LaneExchangeResults : (∀ i ∈ ([
    .xli (hx 0 10 0 false) 63 1 2 0, .xli (hx 0 10 0 false) 62 2 3 1, .xlr hX 62 2 1, .xlf hX 63 2 0, .xlb hX 62 2 1] :
    List Instr), Ready i (with1 tX) tX) ∧ tX.sreg (regxY hX) = active tX hX ∧
    tX.sreg (regxY (hx 0 10 0 false)) = active tX (hx 0 10 0 false) ∧ tX.dres ≠ 1 :=
  ⟨ready_all (by decide), by decide⟩

theorem witness_LaneCountResults : (∀ i ∈ ([
    .pcnt hX 6 7 0, .pcnt (hx 0x7F 10 0 false) 0 12 63, .pmask hX 12, .pfirst hX 6 0] : List Instr),
    Ready i (with1 tX) tX) ∧ tX.sreg (regxY hX) = active tX hX ∧
    tX.sreg (regxY (hx 0x7F 10 0 false)) = active tX (hx 0x7F 10 0 false) := ⟨ready_all (by decide), by decide⟩

/-- Reductions of a type. -/
def reductions (ty : BitVec 2) : List Instr :=
  [.redadd (hx 0 10 0 false) 62 2 ty, .redmin (hx 0 10 0 false) 62 2 ty, .redmax (hx 0 10 0 false) 62 2 ty,
   .scanadd (hx 0 10 0 false) 62 2 ty]

theorem witness_ReductionResults : (∀ ty ∈ ([0, 1, 2, 3] : List (BitVec 2)), ∀ i ∈ reductions ty, Ready i (with1 tX) tX) ∧
    tX.sreg (regxY (hx 0 10 0 false)) = active tX (hx 0 10 0 false) ∧ tX.width ≤ 64 ∧ tX.dres ≠ 1 ∧
    (iter (pairUp (fun _ y => (y, (0 : Flags)))) 6 ((List.range 16).map (fun l => some (l, (0 : Flags))))).headD none
      = some (15, 0) :=
  ⟨fun ty m => ready_all (List.all_eq_true.1 (by decide : List.all _ (fun ty => (reductions ty).all
      (fun i => readyB i (with1 tX) tX)) = true) ty m), by decide⟩

theorem witness_LaneClassAndMembershipResults : (∀ i ∈ ([
    .xleq (hx 0 10 0 false) 60 63 0, .xleq (hx 0 10 0 false) 60 62 1, .cvtmx (hx 0 10 0 false) 63 2 5 3] :
    List Instr), Ready i (with1 tX) tX) ∧ tX.sreg 10 = active tX (hx 0 10 0 false) ∧ 4 ≤ tX.dres ∧
    (∀ i ∈ ([.xli (hx 0 11 0 false) 63 1 2 0, .xlr (hx 3 11 0 false) 62 2 1, .xlf (hx 3 11 0 false) 63 2 0,
      .xlb (hx 3 11 0 false) 62 2 1, .pcnt (hx 3 11 0 false) 6 7 0, .pmask (hx 3 11 0 false) 12,
      .pfirst (hx 3 11 0 false) 6 0, .redadd (hx 0 11 0 false) 62 2 0, .redmin (hx 0 11 0 false) 62 2 0,
      .redmax (hx 0 11 0 false) 62 2 0, .scanadd (hx 0 11 0 false) 62 2 0, .xleq (hx 0 11 0 false) 60 63 0,
      .cvtmx (hx 0 11 0 false) 63 2 5 3] : List Instr), Ready i (with1 tX) tX) ∧
    tX.sreg 11 ≠ active tX (hx 0 11 0 false) :=
  ⟨ready_all (by decide), by decide, by decide, ready_all (by decide), by decide⟩

/-! ## Control flow, traps -/

/-- A group with addresses, conditions and a reconvergence stack. -/
def tJ : Thread := { (t0.setSreg 4 120).setSreg 5 121 with rstack := [(0, 0x3)] }
def sJ : State := with1 tJ

theorem witness_BranchAndJumpResults : (∀ i ∈ ([.nop, .bra h0 0x7FFF 0, .bra h0 1 2, .bra ⟨false, 0, none, none, .none⟩ 1 2,
    .brx h0 0 4 0, .brx h0 1 4 5, .brx h0 2 4 6, .brx h0 1 4 6, .brx h0 2 4 5, .brx h0 0 5 0] : List Instr), Ready i sJ tJ) ∧
    tJ.sreg 6 = 0 ∧ tJ.sreg 5 ≠ 0 ∧ (tJ.sreg 4).toNat % 4 = 0 ∧ (tJ.sreg 5).toNat % 4 ≠ 0 :=
  ⟨ready_all (by decide), by decide⟩

/-- Half of the lanes have p0; the stack is full or not. -/
def tB : Thread := { t0 with preds := [(0, 0xFF), (1, 0xFFFF)] }
def tBfull : Thread := { tB with rstack := List.replicate 32 (0, 0) }

theorem witness_DivisionAndReconvergence :
    (∀ i ∈ ([.brd ⟨false, 0, none, none, .none⟩ 1 2, .brd ⟨false, 1, none, none, .none⟩ 1 2,
      .brd ⟨false, 2, none, none, .none⟩ 0x7FFF 0, .join h0] : List Instr), Ready i (with1 tB) tB ∧
      Ready i (with1 tBfull) tBfull) ∧ tB.guardLanes 0 = 0xFF ∧ tB.exec &&& ~~~(tB.guardLanes 0) ≠ 0 ∧
    tB.exec &&& ~~~(tB.guardLanes 1) = 0 ∧ tB.guardLanes 2 = 0 ∧ tB.rstack.length ≠ 32 ∧ tBfull.rstack.length = 32 ∧
    tB.rstack = [] ∧ (∀ r ∈ ([(mainPc tB.pc h0, 1), (24, 0), (24, 1)] : List (W64 × Mask)),
      readyB (.join h0) (with1 { tB with rstack := [r] }) { tB with rstack := [r] } = true) :=
  ⟨fun i m => ⟨ready_all (by decide) i m, ready_all (by decide) i m⟩, by decide, by decide, by decide, by decide,
    by decide, by decide, rfl, List.all_eq_true.1 (by decide : List.all _ (fun r =>
      readyB (.join h0) (with1 { tB with rstack := [r] }) { tB with rstack := [r] }) = true)⟩

/-- Guarded EXIT, RET in the outermost frame, and stacks with and without lanes. -/
theorem witness_ExitEndsLanes :
    (∀ i ∈ ([.exit ⟨false, 2, none, none, .none⟩, .exit ⟨false, 0, none, none, .none⟩, .exit h0, .ret h0] : List Instr),
      Ready i (with1 tB) tB ∧ Ready i sJ tJ) ∧ active tB ⟨false, 2, none, none, .none⟩ = 0 ∧
    active tB ⟨false, 0, none, none, .none⟩ = 0xFF ∧ tB.exec ≠ 0xFF ∧ active tB h0 = tB.exec ∧ tB.exec ≠ 0 ∧ tB.wp = 0 ∧
    (let e : Thread := { tB with exec := 0x3, rstack := [(24, 0x1), (36, 0x1), (48, 0x8)] }
     readyB (.exit h0) (with1 e) e = true ∧ active e h0 ≠ 0 ∧
       e.rstack.map (fun r => (r.1, r.2 &&& ~~~(0x3 : Mask))) = [(24, 0), (36, 0)] ++ (48, 8) :: []) :=
  ⟨fun i m => ⟨ready_all (by decide) i m, ready_all (by decide) i m⟩, by decide⟩

theorem witness_YieldAndSleepResults : (∀ i ∈ ([.yield h0, .sleep h0 4, .sleep h0 6, .sleepUntil h0 4 0, .sleepUntil h0 4 8,
    .sleepUntil h0 4 15, .sleepUntil h0 6 0, .sleepUntil h0 6 15] : List Instr), Ready i sJ tJ) ∧
    (tJ.sreg 4).toNat = 120 ∧ (tJ.sreg 6).toNat = 0 ∧ sJ.time = 0 ∧ tJ.tok 7 = .idle ∧
    (let u : Thread := { tJ with toks := [(0, .busy 4)] }
     readyB (.sleepUntil h0 4 8) (with1 u) u = true ∧ u.tok 0 ≠ .idle ∧ (with1 u).time < (u.sreg 4).toNat) :=
  ⟨ready_all (by decide), by decide⟩

/-- A group whose store holds 96 positions and whose stack limit is 96 or 256. -/
def tC : Thread := { startThread 1 0 0 16 96 96 0 with ctx := 0x1001, sup := false, sregs := [(4, 120), (5, 121)] }
/-- The same in a window that has moved by 8, the link in its place. -/
def tR : Thread := { tC with wp := 8, store := [(7 * 64, 0x20000000)] }
def tD : Thread := { tC with wp := 40, rbase := 8, lim := 256 }

theorem witness_CallResults :
    (∀ i ∈ ([.call h0 1 1 2, .call h0 4 0x7FFF 0, .callx h0 4 8, .callx h0 4 32] : List Instr), Ready i (with1 tC) tC) ∧
    tC.wp + 32 + 64 ≤ tC.lim ∧ (with1 tC).mode 0 1 = false ∧ tC.rbase = tC.rbaseFor (tC.wp + 32) ∧ tC.width ≤ 64 ∧
    tC.wp + 32 + 64 ≤ tC.rbase + tC.dres ∧ tC.guardLanes 7 ≠ 0 ∧ (tC.sreg 4).toNat % 4 = 0 ∧
    Ready (.call h0 5 1 2) (with1 tC) tC ∧ Ready (.callx h0 4 40) (with1 tC) tC ∧ tC.lim < tC.wp + 40 + 64 ∧
    Ready (.call ⟨false, 0, none, none, .none⟩ 1 1 2) (with1 tC) tC ∧ tC.guardLanes 0 = 0 ∧
    Ready (.callx h0 5 8) (with1 tC) tC ∧ (tC.sreg 5).toNat % 4 ≠ 0 :=
  ⟨ready_all (by decide), by decide, by decide, by decide, by decide, by decide, by decide, by decide, ready_of (by decide),
   ready_of (by decide), by decide, ready_of (by decide), by decide, ready_of (by decide), by decide⟩

/-- The state in which the spill engine is asked about group 1, parked so that positions enter or leave. -/
def sSpill (wp : Nat) : State := { with1 { tD with park := .spill wp 240 0 } with arg := { State.reset.arg with a := 1 } }

theorem witness_ReturnAndSpillEngine : Ready (.ret h0) (with1 tR) tR ∧ tR.wp ≠ 0 ∧
    ((with1 tR).position tR 7 0 ++ (with1 tR).position tR 6 0 : W64) = 0x2000000000000000 ∧
    tR.moved (tR.wp - 8 * bits 0x2000000000000000 61 3) = ([], []) ∧ (with1 tR).mode 0 1 = false ∧
    Ready (.ret h0) (with1 { tD with store := [(39 * 64, 0x80000000)] }) { tD with store := [(39 * 64, 0x80000000)] } ∧
    tD.moved 8 = ([], [0, 1, 2, 3, 4, 5, 6, 7]) ∧ (with1 tD).slotsBusy tD (tD.moved 8).2 = false ∧
    (∀ wp ∈ ([8, 48] : List Nat), ∃ t, (sSpill wp).thread? (sSpill wp).arg.a = some t ∧ t.id = (sSpill wp).arg.a ∧
      t.park = .spill wp 240 0 ∧ (sSpill wp).mode (dieOf t.core) 1 = false ∧
      (sSpill wp).fillPoison t (t.moved wp).2 = none ∧ (t.moved wp).2.length ≤ t.dres) :=
  ⟨ready_of (by decide), by decide, by decide, by decide, by decide, ready_of (by decide), by decide, by decide,
   fun wp m => ⟨_, rfl, by
     have h : wp = 8 ∨ wp = 48 := by simpa using m
     obtain rfl | rfl := h <;> decide⟩⟩

theorem witness_GetsrReadsSpecialRegisters : ∀ b ∈ ([0x00, 0x01, 0x02, 0x03, 0x04, 0x05, 0x06, 0x07, 0x08, 0x09, 0x0A, 0x0B,
    0x0C, 0x0D, 0x0E, 0x0F, 0x10, 0x11, 0x13, 0x20, 0x24] : List (BitVec 6)),
    Ready (.getsr h0 95 b) sS tS ∨ Ready (.getsr h0 95 b) s0 t0 :=
  fun b m => (Bool.or_eq_true _ _ ▸ List.all_eq_true.1 (by decide : List.all _
    (fun b => readyB (.getsr h0 95 b) sS tS || readyB (.getsr h0 95 b) s0 t0) = true) b m).imp ready_of ready_of

theorem witness_SetsrWritesSpecialRegisters : (∀ i ∈ ([.setsr h0 4 0x05, .setsr h0 4 0x09, .setsr h0 4 0x20,
    .setsr h0 4 0x24] : List Instr), Ready i sJ tJ) ∧
    (∀ b ∈ ([0x20, 0x21, 0x22, 0x23, 0x24] : List (BitVec 6)), ReadyProctor (.setsr h0 4 b) sP 0) :=
  ⟨ready_all (by decide), fun b m => readyP_of (List.all_eq_true.1 (by decide : List.all _
    (fun b => readyPB (.setsr h0 4 b) sP 0) = true) b m)⟩

/-- Children of a group of 16 lanes divided by two, at a FUSE at address 0; the younger has come there or not. -/
def cA : Thread := { t0 with width := 8, splits := [(0, 16, 2)], exec := 0xFF, live := 0xFF }
def cB (p : Park) : Thread := { cA with id := 2, f := 8, hists := [2], park := p }
def sFuse (p : Park) : State := { with1 cA with threads := [cA, cB p] }

theorem witness_SplitAndFuseResults : (∀ i ∈ ([.split h0 40 2, .split h0 95 4] : List Instr), Ready i s0 t0) ∧ s0.anyLock t0 = false ∧ (s0.siblings t0).any (·.atTbar) = false ∧
    (let u : Thread := { t0 with width := 1, exec := 1, live := 1 }
     readyB (.split h0 40 2) (with1 u) u = true ∧ u.width < 2) ∧ t0.rstack = [] ∧
    Ready (.split h0 40 2) sJ tJ ∧ tJ.rstack ≠ [] ∧ (∀ u ∈ s0.threads, u.id < s0.nextId) ∧
    Ready (.fuse h0 40) s0 t0 ∧ s0.fuseCheck t0 ∈ [1, 2, 4, 5] ∧
    (let s := sFuse .run
     Ready (.fuse h0 40) s cA ∧ Ready (.fuseWait h0 40 4) s cA ∧ (s.siblings cA).any (·.atTbar) = false ∧
       s.fuseCheck cA ∈ [1, 4]) ∧
    (let s := sFuse (.fuse 40 99)
     Ready (.fuse h0 40) s cA ∧ Ready (.fuseWait h0 40 4) s cA ∧ (s.siblings cA).any (·.atTbar) = false ∧
       s.fuseCheck cA = 0 ∧ (s.siblings cA).head? = some cA ∧ s.locked cA 40 = false ∧
       (∀ u ∈ s.threads, u.id < s.nextId)) ∧
    (∀ n ∈ ([99, 100] : List Nat), let s := { sFuse (.fuse 40 99) with time := n, arg := { State.reset.arg with a := 2 } }
      s.thread? s.arg.a = some (cB (.fuse 40 99)) ∧ s.locked (cB (.fuse 40 99)) 40 = false) := by
  refine ⟨ready_all (by decide), by decide, by decide, by decide, by decide, ready_of (by decide), by decide, by decide, ready_of (by decide), by decide,
    ⟨ready_of (by decide), ready_of (by decide), by decide, by decide⟩,
    ⟨ready_of (by decide), ready_of (by decide), by decide, by decide, by decide, by decide, by decide⟩, by decide⟩

/-! ## Memory -/

/-- A header with MMOD: order, space and extension. -/
def hm (ord : BitVec 3) (space : BitVec 2) (x : Ext) : Hdr := ⟨false, 7, none, some ⟨ord, 4, space, 0, false⟩, x⟩

/-- A team with one page of galley at page 3 of core 0. -/
def team5 : Team := { id := 5, gang := 6, idx := 0, pair := false, cores := [0], galley := 4096, pages := [3], pages2 := []
                      bars := [], groups := 2, exited := [], folded := false, retired := false }

/-- s4 a mapped page, s5 past the window and misaligned, s10 the operation ADD; v0 the lane number. -/
def tM : Thread := { t0 with sregs := [(4, 0x10000), (5, 0x2001), (6, 0x1000), (7, 0x2000), (10, 1)], gang := 6, team := 5 }
/-- The same in supervisor mode, with physical addresses. -/
def tMS : Thread := { tM with ctx := 0x1000, sup := true }
/-- The same with one lane. -/
def tM1 : Thread := { tM with exec := 1, live := 1 }
def page (va pa : Nat) : TlbEntry :=
  { core := 0, ctx := 0x1001, size := 0, va := va, pa := pa, u := true, x := true, w := true, rd := true, d := true
    ace := false, wblk := false, mt := 0 }
def withMem (t : Thread) : State := { with1 t with tlb := [page 0x10000 0x1800020000], teams := [team5] }
def lanesAt (va pa size n key : Nat) : List OkLane := (List.range n).map (fun l => ⟨l, va + size * l, pa + size * l, key, 0⟩)

theorem reaches_ld : Reaches (withMem tM) ((withMem tM).mods h0) accRead 4 (tM.requests h0 4 0 4)
    (lanesAt 0x10000 0x1800020000 4 16 1) := by constructor <;> decide
theorem reaches_ldPhysical : Reaches (withMem tMS) ((withMem tMS).mods (hm 1 2 .none)) accRead 4
    (tMS.requests (hm 1 2 .none) 4 0 4) (lanesAt 0x10000 0x10000 4 16 0) := by constructor <;> decide
theorem reaches_st : Reaches (withMem tM) ((withMem tM).mods h0) accWrite 8 (tM.requests h0 4 0 8)
    (lanesAt 0x10000 0x1800020000 8 16 1) := by constructor <;> decide
theorem reaches_ldu : Reaches (withMem tM) ((withMem tM).mods h0) accRead 8 [(0, (withMem tM).uniAddr h0 4)]
    (lanesAt 0x10000 0x1800020000 8 1 1) := by constructor <;> decide
theorem reaches_stu : Reaches (withMem tM) ((withMem tM).mods h0) accWrite 8 [(0, (withMem tM).uniAddr h0 4)]
    [⟨0, 0x10000, 0x1800020000, 1, 0⟩] := by constructor <;> decide
theorem reaches_atom : Reaches (withMem tM) ((withMem tM).mods (hx 20 10 0 false)) accAtomic 4
    (tM.requests (hx 20 10 0 false) 4 0 4) (lanesAt 0x10000 0x1800020000 4 16 1) := by constructor <;> decide
theorem reaches_red : Reaches (withMem tM1) ((withMem tM1).mods (hx 20 10 0 false)) accAtomic 4
    (tM1.requests (hx 20 10 0 false) 4 0 4) [⟨0, 0x10000, 0x1800020000, 1, 0⟩] := by constructor <;> decide

/-- On a proctor lane, through supervisor memory that its TLB maps, or physically. -/
theorem reaches_lduProctor : Reaches sP (sP.mods (hm 0 2 .none)) accRead 16 [(0, sP.uniAddr (hm 0 2 .none) 4)]
    (lanesAt 0 0 16 1 0) := by constructor <;> decide

theorem witness_MemoryAccessesIssue :
    Ready (.ld h0 8 4 0 2) (withMem tM) tM ∧ Ready (.ld (hm 1 2 .none) 8 4 0 2) (withMem tMS) tMS ∧
    Ready (.ldu h0 20 4 3) (withMem tM) tM ∧
    ReadyProctor (.ldu (hm 0 2 (.memx false false false true 0)) 20 4 3) sP 0 ∧
    ReadyProctor (.stu (hm 0 2 .none) 20 4 3) sP 0 ∧
    Ready (.st h0 8 4 0 3) (withMem tM) tM ∧ ((withMem tM).mods h0).ord ≠ 2 ∧ Ready (.stu h0 20 4 3) (withMem tM) tM ∧
    Ready (.atom (hx 20 10 0 false) 8 4 0 2) (withMem tM) tM ∧ (tM.sreg (regxY (hx 20 10 0 false))).toNat ≤ 9 ∧
    Ready (.cas h0 8 4 0 0) (withMem tM) tM ∧ Ready (.cas h0 8 4 0 1) (withMem tM) tM ∧
    Ready (.red (hx 0 10 0 false) 8 4 0 2) (withMem tM1) tM1 ∧ 1 ≤ (tM1.sreg (regxY (hx 20 10 0 false))).toNat ∧
    (withMem tM1).readsOpen = false ∧ (withMem tM1).redBuf = [] ∧
    ((withMem tM1).mods (hx 20 10 0 false)).det = false ∧ homedHere 0x1800020000 = true :=
  ⟨ready_of (by decide), ready_of (by decide), ready_of (by decide), readyP_of (by decide), readyP_of (by decide),
   ready_of (by decide), by decide, ready_of (by decide), ready_of (by decide), by decide, ready_of (by decide),
   ready_of (by decide), ready_of (by decide), by decide⟩

/-- A header with MMOD: galley, scope .team. -/
def hg : Hdr := ⟨false, 7, none, some ⟨0, 1, 1, 0, false⟩, .none⟩

/-- A galley access at offset 0 of the window, by 16 lanes or one. -/
def tG : Thread := { tM with sregs := [(5, 0x2001), (6, 0xFC0), (7, 0x2000)] }
def tG1 : Thread := { tG with exec := 1, live := 1 }
theorem inGalley_ld : InGalley (withMem tG) tG 4 (tG.requests hg 6 0 4)
    ((List.range 16).map (fun l => ⟨l, 0xFC0 + 4 * l, team5, 0xFC0 + 4 * l⟩)) := by constructor <;> decide
theorem inGalley_st : InGalley (withMem tG1) tG1 8 (tG1.requests hg 6 0 8) [⟨0, 0xFC0, team5, 0xFC0⟩] := by
  constructor <;> decide

theorem witness_GalleyAndAccessTrapResults :
    Ready (.ld hg 8 6 0 2) (withMem tG) tG ∧ ((withMem tG).mods hg).space = 1 ∧
    (∀ o ∈ [0xFC0, 0xFFC], (withMem tG).galPoisoned team5 o 4 = false) ∧
    Ready (.st hg 8 6 0 3) (withMem tG1) tG1 ∧ ((withMem tG).mods hg).ord ≠ 2 ∧
    (∀ i < 8, (team5.place (0xFC0 + i)).1 < (withMem tG).cores.length) ∧
    (∀ i < 8, ∀ j < 8, team5.place (0xFC0 + i) = team5.place (0xFC0 + j) → i = j) ∧
    (∀ i ∈ ([.ld h0 8 5 0 2, .st h0 8 5 0 2, .ld hg 8 5 0 2, .st hg 8 7 0 2] : List Instr),
      Ready i (withMem tG) tG) ∧
    (tG.requests h0 5 0 4).filter (fun r => r.2 % 4 != 0) ≠ [] ∧
    (tG.requests hg 7 0 4).filter (fun r => r.2 % 4 != 0) = [] ∧
    (tG.requests hg 7 0 4).filter (fun r => ((withMem tG).galleyAt 6 5 r.2 4).isNone) ≠ [] ∧
    (let s := { withMem tG with pressOps := [⟨3, .mtileSt false 0, 1, [1], [0x0020080100000FC0], 200,
        [⟨5, 1, 0, 0, false⟩], 0, none, 0⟩] }
     readyB (.ld hg 8 6 0 2) s tG = true ∧ s.reserved 5 0xFC0 4 = true) :=
  ⟨ready_of (by decide), by decide, by decide, ready_of (by decide), by decide, by decide, by decide, ready_all (by decide),
   by decide, by decide, by decide, by decide⟩

/-- A CFLUSH that waits for the write-back of two lines. -/
def sFlush : State := { with1 { tM with park := .cflush 20 256 [0x1800020000, 0x1800020080] } with
  arg := { State.reset.arg with a := 1 } }

theorem witness_PrefetchAndFlushResults : Ready (.pfetch h0 4 0 2) (withMem tM) tM ∧
    ((withMem tM).mods h0).cache ≠ 3 ∧ ((withMem tM).mods h0).space = 0 ∧ (withMem tM).redBuf = [] ∧
    (tM.requests h0 4 0 4).map (fun r => (r.1, r.2, (withMem tM).transIn 0 r.2 accRead))
      = (lanesAt 0x10000 0x1800020000 4 16 1).map (fun l => (l.lane, l.va, Trans.ok l.pa l.key l.mt)) ∧
    leasedHere 0 0x20000 = false ∧
    Ready (.cflush h0 20 4 5) (withMem { tM with sregs := [(4, 0x10000)] }) { tM with sregs := [(4, 0x10000)] } ∧
    Ready (.cflush h0 20 4 6) (withMem tM) tM ∧ (tM.sreg 6).toNat ≠ 0 ∧ (withMem tM).countOuts 1 1 = 0 ∧
    pagesIn 0x10000 0x1000 = [0x10000] ∧ (withMem tM).translate 0 0x1001 false 0x10000 accRead = .ok 0x1800020000 1 0 ∧
    (∃ t, sFlush.thread? sFlush.arg.a = some t ∧ t.park = .cflush 20 256 [0x1800020000, 0x1800020080] ∧
      sFlush.locked t 20 = false) ∧ (∀ l ∈ [0x1800020000, 0x1800020080], sFlush.pends l = []) :=
  ⟨ready_of (by decide), by decide, by decide, by decide, by decide, by decide, ready_of (by decide), ready_of (by decide),
   by decide, by decide, by decide, by decide, ⟨_, rfl, rfl, by decide⟩, by decide⟩

/-! ## Order, messages, launches -/

/-- s4 names the group alone, s5 both groups of its team, s6 a group beyond it, s7 only the other. -/
def tT : Thread := { t0 with team := 5, sregs := [(4, 1), (5, 3), (6, 0x10001), (7, 2)], relDone := true }
def sT (t : Thread) : State := { with1 t with teams := [team5] }
/-- A release that waits for device time 100, and one whose write is under way. -/
def tRel : Thread := { t0 with lct := ⟨100, 100, 100, 100⟩ }
def outOf (id cls : Nat) : Out :=
  { id := id, owners := [1], cls := cls, kind := .store, issuer := 1, ctx := some 0x1001, core := 0, scope := 4, cache := 0
    issued := 0, lanes := [], report := Lct.zero, late := [], olds := none }
def writeOf (act : WAct) : Write :=
  { id := 4, out := 3, hists := [1], core := 0, scope := 4, line := 0x1000, key := 0, mt := 0, arr := none, queued := false
    prior := [], act := act }

def hRel : Hdr := ⟨false, 7, none, some ⟨2, 4, 0, 0, false⟩, .none⟩
def hAcq : Hdr := ⟨false, 7, none, some ⟨1, 4, 0, 0, false⟩, .none⟩

theorem witness_WaitAndTeamBarrierResults :
    (∀ i ∈ ([.wait h0 0 31 31 31, .wait h0 31 31 31 31, .wait h0 0 0 0 0, .fenceRel hRel, .fenceAcq hAcq, .tbar h0 4 7,
      .tbar h0 5 0, .tbar h0 6 0, .tbar h0 7 0] : List Instr), Ready i (sT tT) tT) ∧ tT.peerLate = false ∧
    (sT tT).countOuts 1 0 ≤ 0 ∧
    (let s := { with1 t0 with outs := [outOf 3 0] }
     readyB (.wait h0 0 31 31 31) s t0 = true ∧ 0 < s.countOuts 1 0 ∧ readyB (.fenceAcq hAcq) s t0 = true ∧
       s.readsOpen = true) ∧
    readyB (.fenceRel hRel) (with1 tRel) tRel = true ∧ scopeOf hRel ≠ 0 ∧ (with1 tRel).writesOpen = false ∧
    (with1 tRel).time < tRel.lct.at (scopeOf hRel) ∧ tRel.relDone = false ∧ tRel.marked = [] ∧
    (let s := { with1 t0 with outs := [outOf 3 1] }
     readyB (.fenceRel hRel) s t0 = true ∧ s.writesOpen = true ∧ s.redBuf = [] ∧
       readyB (.wait h0 31 0 31 31) s t0 = true ∧ (0 : BitVec 5).toNat < s.countOuts 1 1) ∧ (with1 t0).writesOpen = false ∧
    t0.lct.at (scopeOf hRel) ≤ s0.time ∧ (sT tT).relDoneHere = true ∧
    (∀ n ∈ [99, 100], let s := { with1 { tRel with park := .release 100 } with time := n, arg := { EvArg.zero with a := 1 } }
      ∃ t, s.thread? s.arg.a = some t ∧ t.park = .release 100 ∧ t.marked = []) ∧
    ReadyProctor (.fenceAcq hAcq) sP 0 ∧ sP.readsOpen = false ∧
    (sT tT).team? tT.team = some team5 ∧ tbarCause team5 tT.grp 1 = 0 ∧ tbarCause team5 tT.grp 3 = 0 ∧ tT.live ≠ 0 ∧
    (∀ g < 2, team5.gone g = false) ∧ team5.groups ≤ 16 ∧ tT.grp < 16 ∧
    ((0x10001 : W64).getLsbD 16 = true) ∧ ((2 : W64).getLsbD tT.grp = false) ∧ (sT tT).folios = [] ∧
    (let u : Thread := { tT with id := 2, slot := 1, grp := 1 }
     let s := { sT tT with threads := [tT, u] }
     readyB (.tbar h0 5 0) s tT = true ∧ u.team = tT.team ∧ u.grp = 1 ∧ u.live ≠ 0 ∧ u.id ≠ tT.id) := by
  refine ⟨ready_all (by decide), by decide, by decide, by decide, by decide, by decide, by decide, by decide, by decide,
    by decide, by decide, by decide, by decide, by decide, ?_, readyP_of (by decide), by decide⟩
  intro n m
  obtain rfl | rfl : n = 99 ∨ n = 100 := by simpa using m
  all_goals exact ⟨_, rfl, rfl, rfl⟩

/-- A context with a ring at the first address of the host window, its inbox page and submission page owned, and messages in its inbox. -/
def ctxA : Ctx := { Ctx.supervisor with ident := 0x1001, ringBase := 0x2000000000000, mbPage := some 8, subPage := some 9 }
def msgA : List Byte := (List.range 64).map (BitVec.ofNat 8)
def ctxM : Ctx := { ctxA with inbox := [msgA, msgA], nextIn := 3 }
def tMb : Thread := { t0 with sregs := [(4, 0x1001), (5, 0x100001001)] }
def tMbS : Thread := { tMb with sup := true, ctx := 0x1000 }
def sMb (t : Thread) (c : Ctx) : State := { with1 t with ctxs := [Ctx.supervisor, c] }
/-- A host's message for ctxA, at page 8; one group waits at the inbox or none does. -/
def sHost (t : Thread) : State :=
  { sMb t ctxA with arg := { EvArg.zero with a := 8, b := 0, bytes := (1 : Byte) :: List.replicate 63 0, v := 5 } }

theorem witness_MailboxResults :
    (∀ i ∈ ([.mbrecv h0 24 4, .mbrecvW h0 88 4] : List Instr), Ready i (sMb tMb ctxA) tMb ∧ Ready i (sMb tMb ctxM) tMb) ∧
    (sMb tMb ctxA).ctx? tMb.ctx = some ctxA ∧ ctxA.inbox = [] ∧ (sMb tMb ctxM).ctx? tMb.ctx = some ctxM ∧
    ctxM.inbox = msgA :: [msgA] ∧
    Ready (.mbsend h0 20 40 4) (sMb tMb ctxA) tMb ∧ (tMb.sreg 4).toNat < 2 ^ 32 ∧ (tMb.sreg 4).setWidth 32 = tMb.ctx ∧
    ctxA.dead = false ∧ ctxA.ringBase ≠ 0 ∧ ctxA.ringBase % 4096 = 0 ∧ ctxA.sent < ctxA.consumed + 64 ∧
    regionOf ctxA.ringBase = .host ∧ regionOf (ctxA.ringBase + 8) = .host ∧
    Ready (.mbsend h0 20 40 5) (sMb tMbS ctxM) tMbS ∧ (tMbS.sreg 5).toNat / 2 ^ 32 = 1 ∧
    (sMb tMbS ctxM).ctx? ((tMbS.sreg 5).setWidth 32) = some ctxM ∧ ctxM.inbox.length < 64 ∧
    (sMb tMbS ctxM).inboxWaiter ctxM.ident = none ∧ (sMb tMbS ctxM).redBuf = [] ∧ ctxM.inboxFrame % 4096 = 0 ∧
    regionOf (inboxEntry ctxM) = .hbm 0 ∧ slotOfCtx ctxM.ident ≠ 0 ∧
    (sHost t0).pageOwner 8 = some (ctxA, false) ∧ (sHost t0).arg.bytes.length = 64 ∧
    leNat ((sHost t0).arg.bytes.take 8) = ctxA.nextIn ∧ (sHost t0).inboxWaiter ctxA.ident = none ∧
    (let u : Thread := { t0 with park := .inbox 20 4 1 }
     (sHost u).inboxWaiter ctxA.ident = some (u, 20, 4) ∧ (sHost u).thread? u.id = some u) ∧
    (∀ l ∈ (sHost t0).launches, l.ringWait = false) :=
  ⟨fun i m => ⟨ready_all (by decide) i m, ready_all (by decide) i m⟩, by decide, by decide, by decide, by decide,
   ready_of (by decide), by decide, by decide, by decide, by decide, by decide, by decide, by decide, by decide,
   ready_of (by decide), by decide⟩

/-! ### Launches -/

/-- A launch whose record's fields are given, with a kernel of one gang of one team of one group of 16 lanes. -/
def kdA : KDesc := { size := 960, code := 192, entry := 0, widthCode := 0, maxCode := 0, groups := 1, pair := false, teams := 1
                     cls := 0, depth := 64, limit := 64, galley := 4096, tiles := 1, argSize := 0 }
def fieldBytes (n : Nat) (fs : List (Nat × Nat × Nat)) : List Byte :=
  (List.range n).map (fun i => match fs.find? (fun f => f.1 ≤ i && i < f.1 + f.2.1) with
    | some (o, _, v) => BitVec.ofNat 8 (v / 256 ^ (i - o)) | none => 0)
/-- Code object at 0x10000, one gang, completion record at 0x20000, number 7. -/
def recA : List Byte := fieldBytes 128 [(0, 8, 0x12000), (16, 4, 1), (20, 2, 1), (22, 2, 1), (48, 8, 0x20000), (60, 4, 7)]
def launchA (st : LState) : Launch :=
  { launchOf 0x1001 recA 0 1 1 7 none (some 0) false with kd := kdA, state := st }
def sL (l : Launch) : State := { sMb t0 ctxA with launches := [l], nextId := 10 }

/-- The same code object's header, at a mapped page, and its descriptor. -/
def objA : List Byte :=
  fieldBytes 192 [(0, 4, 0x4F435245), (4, 2, 1), (8, 4, 960), (12, 4, 192), (16, 4, 192), (20, 4, 384), (24, 2, 1)]
def descA : List Byte := fieldBytes 128 [(6, 1, 1), (8, 1, 1), (12, 2, 64), (16, 4, 64), (20, 4, 4096), (24, 1, 1)]

/-- Die 0 in supervisor walk and placement mode. -/
def modeDie (b : W32) (s : State) : State := s.setDie 0 { Die.reset with fmode := b }
def sObj : State := { modeDie 1 (sL (launchA .accepted)) with
  tlb := [page 0x12000 0x1800020000], tags := [(0x1800020000, (1, 1)), (0x1800020080, (1, 1)), (0x1800020180, (1, 1))]
  keys := [(0, ⟨0, 1, true, 1⟩), (1, ⟨5, 1, true, 1⟩)]
  mem := ((objA.mapIdx (fun i b => (0x1800020000 + i, b))).filter (fun e => e.2 != 0)) ++
    ((descA.mapIdx (fun i b => (0x1800020180 + i, b))).filter (fun e => e.2 != 0))
  arg := { EvArg.zero with v := 0x100100000007 } }

/-- Without argument copies addresses are translated by the halves of R115. -/
theorem argAt_none {s : State} (h : ∀ l ∈ s.launches, l.kd.argSize = 0) (ctx : W32) (va : Nat) : s.argAt ctx va = none := by
  simp only [State.argAt, Option.map_eq_none_iff, List.find?_eq_none]
  intro l m
  simp only [h l m, Nat.add_zero, Bool.and_eq_true, decide_eq_true_eq]
  omega

/-- Without buffered reductions nothing is recalled. -/
theorem recalls_none {s : State} (h : s.redBuf = []) (ls : List Nat) : ls.foldl State.recall s = s := by
  induction ls with
  | nil => rfl
  | cons l ls ih =>
    have e : s.recall l = s := by simp [State.recall, State.mergeWhere, h, sortBy]
    rw [List.foldl_cons, e, ih]

/-- Lines without buffered reductions or copies that own them can be read at once. -/
theorem lines_free {s : State} (h : s.redBuf = []) (hc : s.cpys = []) (ls : List Nat) :
    ls.any (fun l => s.owned l || s.buffered l) = false := by simp [State.owned, State.buffered, h, hc]

theorem engineRead_of {s : State} {core : Nat} {ctx : W32} {sup : Bool} {va len pa key mt : Nat} (hr : s.redBuf = [])
    (hc : s.cpys = []) (hp : pagesIn va len = [va]) (ht : s.engineTrans core ctx sup va accRead = (s, .ok pa key mt)) :
    s.engineRead core ctx sup va len = (s, .ok (s.load pa key (min (va + len) ((va / 4096 + 1) * 4096) - va))) := by
  simp only [State.engineRead, hp, List.foldl_cons, List.foldl_nil, ht, recalls_none hr, lines_free hr hc]
  simp

theorem engineRead_page {s : State} {core : Nat} {ctx : W32} {sup : Bool} {va len pa key mt : Nat} (hr : s.redBuf = [])
    (hc : s.cpys = []) (h : ∀ l ∈ s.launches, l.kd.argSize = 0) (hm : s.mode (dieOf core) 0 = true)
    (hp : pagesIn va len = [va]) (ht : s.translateHalf core ctx sup va accRead = .ok pa key mt) :
    s.engineRead core ctx sup va len = (s, .ok (s.load pa key (min (va + len) ((va / 4096 + 1) * 4096) - va))) :=
  engineRead_of hr hc hp (mt := mt) (by simp [State.engineTrans, hm, State.translate, argAt_none h, ht])

theorem checkLaunch_pass {s : State} {core : Nat} {l : Launch} {c : Ctx} {h b : List Byte} {kd : KDesc} {o : Nat}
    (hc : s.ctx? l.ctx = some c) (hm : l.malformed c false = none)
    (hg : firstBad [(16, l.field 16 4 != 0), (20, l.field 20 2 != 0), (22, l.field 22 2 != 0)] = none)
    (hp : ¬ l.cap < l.prio) (hd : l.dup = false)
    (h24 : l.field 24 8 = 0) (h32 : l.field 32 8 = 0) (hv : l.codeVa % 192 = 0)
    (h1 : s.engineRead core l.ctx (supervisorCtx l.ctx) l.codeVa 192 = (s, .ok h)) (hh : headerBad h (l.field 8 2) = none)
    (ho : leNat ((h.drop 20).take 4) + 128 * l.field 8 2 = o)
    (h2 : s.engineRead core l.ctx (supervisorCtx l.ctx) (l.codeVa + o) 128 = (s, .ok b))
    (hf : leNat ((h.drop 32).take 4) = 0) (hb : s.boot.minimal = false)
    (hk : kdescBad b (leNat ((h.drop 16).take 4)) = none)
    (hK : kdescOf b (leNat ((h.drop 8).take 4)) (leNat ((h.drop 12).take 4)) = kd) (hs : l.field 12 2 = 0)
    (ha : kd.argSize = 0) (hl : l.depth ≤ 4) (hx : kd.overLimit = none) :
    s.checkLaunch core l false = (s, .pass kd []) := by
  subst ho
  rw [← Nat.add_assoc] at h2
  have f : firstBad [(24, l.field 24 8 == 0 || l.field 24 8 / 2 ^ 32 == l.ctx.toNat),
      (32, l.field 32 8 == 0 || l.field 32 8 / 2 ^ 32 == l.ctx.toNat)] = none := by simp [firstBad, h24, h32]
  have hl' : ¬ 4 < l.depth := by omega
  simp [-Nat.reducePow, State.checkLaunch, hc, hm, hg, hp, hd, f, hv, h1, hh, State.checkObject, h2, hf, hb, hk, hK, State.checkRest, hs, ha,
    hl', hx, State.minimalRefuses]

theorem launch_passes : sObj.checkLaunch 0 (launchA .accepted) false = (sObj, .pass kdA []) := by
  have h1 : sObj.engineRead 0 0x1001 false 0x12000 192 = (sObj, .ok objA) := by
    rw [engineRead_page (pa := 0x1800020000) (key := 1) (mt := 0) rfl rfl (by decide) (by decide) (by decide) (by decide)]
    exact congrArg (fun b => (sObj, EngineRead.ok b)) (by decide)
  have h2 : sObj.engineRead 0 0x1001 false (0x12000 + 384) 128 = (sObj, .ok descA) := by
    rw [engineRead_page (pa := 0x1800020180) (key := 1) (mt := 0) rfl rfl (by decide) (by decide) (by decide) (by decide)]
    exact congrArg (fun b => (sObj, EngineRead.ok b)) (by decide)
  exact checkLaunch_pass (c := ctxA) (by decide) (by decide) (by decide) (by decide) (by decide) (by decide) (by decide)
    (by decide) h1 (by decide) (by decide) h2 (by decide) (by decide) (by decide) (by decide) (by decide) (by decide)
    (by decide) (by decide)

/-- A group whose s4 names a launch record of zeros at a mapped page; its release is done. -/
def tLa : Thread := { tM with relDone := true }
def sLa (c : Ctx) : State := { withMem tLa with ctxs := [Ctx.supervisor, c] }
/-- A supervisor group that places gang 0 of the launch at core 5, its s4 and s5. -/
def tPl : Thread := { tS with sregs := [(4, 0x100100000007), (5, 5)] }
def sPl : State := { modeDie 4 (sL (launchA .ready)) with threads := [tPl] }
def sSub : State := { sHost t0 with
  arg := { EvArg.zero with a := 9, b := 128, bytes := recA, v := 0 } }
def sRing : State := { sL { launchA .retired with ringWait := true, record := [] } with
  arg := { EvArg.zero with v := 0x100100000007 } }
def sGo : State := { sL (launchA .ready) with time := 500000, arg := { EvArg.zero with v := 0x100100000007 } }
def tEnd : Thread := { t0 with exec := 0, live := 0 }
def sEnd : State := { with1 tEnd with arg := { EvArg.zero with a := 1 }, redBuf := [] }
/-- A group with a product in flight, whose descriptor registers the press holds locked. -/
def sLock : State := { s0 with pressOps := [⟨3, .mma false false false false, 1, [1], List.replicate 8 0, 24,
  [⟨5, 1, 0, 2, false⟩], 0, none, 0⟩] }
def fits (f : Fit) : Bool := match f with | .yes _ _ => true | .no _ => false

theorem mapped_one {s : State} {ctx : W32} {kind va len pa key mt : Nat} (hp : pagesIn va len = [va])
    (ht : s.translate s.here ctx s.supHere va kind = .ok pa key mt) : s.mapped ctx kind va len := by
  intro a m
  rw [hp, List.mem_singleton] at m
  subst m
  exact ⟨_, _, _, ht⟩

/-- LAUNCH and SPAWN of a record of zeros, which is rejected, and at a full live limit, which is refused. -/
theorem witness_LaunchAndPlacementResults_launch :
    ∀ c ∈ [ctxA, { ctxA with liveLimit := 0 }], ∀ i ∈ ([.launch h0 20 4, .spawn h0 20 4] : List Instr),
      CanRun i (sLa c) ∧ (sLa c).relDoneHere = true ∧ ((sLa c).sreg 4).toNat = 0x10000 ∧ 0x10000 % 128 = 0 ∧
      (sLa c).mapped (sLa c).ctxHere accRead 0x10000 128 ∧
      (let ps := (sLa c).partsOf (sLa c).ctxHere accRead 0x10000 128
       let x := (sLa c).runReady ps
       x.2 = true ∧ x.1.cur = .thread 1 ∧ x.1.thread? 1 = some tLa ∧ x.1.runPoison ps = 0 ∧
       (∀ l ∈ x.1.launches, l.order < x.1.nextId) ∧
       ∃ st, (x.1.frontEnd tLa false (x.1.runBytes ps)).2 = some st ∧
        ∃ st, (x.1.frontEnd tLa true (x.1.runBytes ps)).2 = some st) := by
  intro c mc i mi
  obtain rfl | rfl : c = ctxA ∨ c = { ctxA with liveLimit := 0 } := by simpa using mc
  all_goals obtain rfl | rfl : i = .launch h0 20 4 ∨ i = .spawn h0 20 4 := by simpa using mi
  all_goals exact ⟨.inl ⟨tLa, ready_of (by decide)⟩, by decide, by decide, by decide,
    mapped_one (pa := 0x1800020000) (key := 1) (mt := 0) (by decide) (by decide),
    by decide, by decide, by decide, by decide, by decide, ⟨_, rfl, _, rfl⟩⟩

theorem witness_LaunchAndPlacementResults :
    (sPl.cur = .thread tPl.id ∧ sPl.thread? tPl.id = some tPl ∧ sPl.locked tPl 20 = false) ∧
    (let s := sLock
     s.cur = .thread t0.id ∧ s.thread? t0.id = some t0 ∧ s.locked t0 24 = true) ∧
    CanRun (.place h0 20 4 5) sPl ∧ sPl.mode (dieOf sPl.here) 2 = true ∧ sPl.launch? (sPl.sreg 4) = some (launchA .ready) ∧
    sPl.livesCtx (launchA .ready).ctx = true ∧ (sPl.sreg 5).toNat = 5 ∧ 5 < 64 ∧ 5 / 12 = dieOf sPl.here ∧
    (launchA .ready).kd.shapeOk (5 % 4) = true ∧ sPl.halting (dieOf sPl.here) = false ∧ (launchA .ready).state = .ready ∧
    fits (sPl.placeNew (launchA .ready) 5) = true ∧
    sSub.pageOwner sSub.arg.a = some (ctxA, true) ∧ sSub.arg.bytes.length = 128 ∧ sSub.arg.b % 128 = 0 ∧
    sSub.arg.b < 4096 ∧ ctxA.dead = false ∧ leNat ((sSub.arg.bytes.drop 48).take 8) ≠ 0 ∧ ctxA.ringBase ≠ 0 ∧
    sSub.mustRetry ctxA = false ∧
    (let c := { ctxA with liveLimit := 0 }
     let s := { sSub with ctxs := [c] }
     s.pageOwner s.arg.a = some (c, true) ∧ c.dead = false ∧ c.ringBase ≠ 0 ∧ s.mustRetry c = true) ∧
    sObj.launches.find? (fun l => l.ident == sObj.arg.v && l.state == .accepted) = some (launchA .accepted) ∧
    sObj.checkLaunch 0 (launchA .accepted) false = (sObj, .pass kdA []) ∧
    (let l := { launchA .accepted with record := [] }
     let s := { sObj with launches := [l] }
     s.launches.find? (fun l => l.ident == s.arg.v && l.state == .accepted) = some l ∧
       ∃ c lim v b, (s.checkLaunch 0 l false).2 = .reject c lim v b) ∧
    (let l := { launchA .retired with ringWait := true, record := [] }
     sRing.launches = [l] ∧ l.ident = sRing.arg.v ∧ l.ringWait = true ∧ l.half = none ∧ l.state = .retired ∧ l.completion = 0 ∧
      sRing.ctx? l.ctx = some ctxA) ∧ ctxA.sent < ctxA.consumed + 64 ∧
    (let l := { launchA .retired with half := some (0x40040, 1), outRec := List.replicate 64 1 }
     let s := { sRing with launches := [l] }
     l.ident = s.arg.v ∧ s.ctx? l.ctx = some ctxA ∧ ctxA.dead = false ∧ s.redBuf = [] ∧ l.outRec.length = 64 ∧
      regionOf 0x40040 = .hbm 0) ∧
    (let s := sL (launchA .ready)
     let u := s.newPools s.arg.a
     u.hwPlaces s.arg.a = true ∧ u.powerLost = none ∧ u.waiting = [.next (launchA .ready)] ∧
       u.refresh (.next (launchA .ready)) = some (.next (launchA .ready)) ∧
       (u.choose s.arg.a (.next (launchA .ready))).map (fun s' => s'.refresh (.next (launchA .ready))) = some none ∧
       (Waiting.next (launchA .ready)).launch.gangs ≠ 0) ∧
    (let s := State.reset.setDie 3 { Die.reset with poolNew := some (0x1000, 2) }
     3 < s.dies.length ∧ (s.die 3).poolNew = some (0x1000, 2)) ∧
    sGo.waiting = [.next (launchA .ready)] ∧ (Waiting.next (launchA .ready)).launch.ident = sGo.arg.v ∧
    (Waiting.next (launchA .ready)).linear = sGo.arg.a ∧ (Waiting.next (launchA .ready)).since + 500000 ≤ sGo.time ∧
    sGo.reserves = [] ∧ sGo.leastShort (.next (launchA .ready)) (sGo.reservable (.next (launchA .ready))) ≠ none ∧
    sEnd.thread? sEnd.arg.a = some tEnd ∧ tEnd.live = 0 ∧ sEnd.redBuf = [] ∧ sEnd.finished tEnd = true ∧
    tEnd.peerLate = false ∧ tEnd.lct.sys ≤ sEnd.time ∧ sEnd.strandedBars tEnd.team tEnd.grp = [] ∧
    ({ sEnd with threads := sEnd.threads.filter (fun x => x.id != tEnd.id) } : State).strandedBars tEnd.team tEnd.grp = [] ∧
    sEnd.inSlot tEnd.core tEnd.slot = [tEnd] := by
  refine ⟨by decide, by decide, .inl ⟨tPl, ready_of (by decide)⟩, by decide, by decide, by decide, by decide, by decide,
    by decide, by decide, by decide, by decide, by decide, by decide, by decide, by decide, by decide, by decide, by decide,
    by decide, by decide, by decide, by decide, launch_passes, ⟨by decide, _, _, _, _, rfl⟩, by decide⟩

/-! ## Hand-in and service groups -/

/-- A service group in slot 0 of core 0 with its descriptor, lane 0 active: s4 the kinds taken, s12 to s15 and s16 to s19
descriptors of SVCSTART, v8 to v11 an answer with tag 9. -/
def tH : Thread :=
  { tS with exec := 1, live := 1, desc := some ⟨0, 0xFF00000000000000, 64, 64, 0, 0, 0⟩, relDone := true
            sregs := [(4, 0xFFFFFFFF), (5, 1), (6, 2), (7, 3), (12, 0xFF00000000000000), (13, 0x40004000)]
            store := [(8 * 64, 0x00030009), (10 * 64, 0x100)] }
/-- A record of a group's trap, posted, taken by slot 0, or done. -/
def recH (kind state : Nat) (taker poster : Option Nat) : HqRec :=
  { place := 3, bytes := fieldBytes 64 [(4, 2, 9), (2, 1, kind)], kind := kind, state := state, taker := taker, poster := poster, lane := 0
    mask := 1, answer := none, order := 0 }
def hqA (rs : List HqRec) : Hq := { base := 0x4000, head := 3, tail := 4, recs := rs, posts := [], overflow := [] }
def withHq (ts : List Thread) (q : Hq) : State :=
  { with1 tH with threads := ts, cores := { Core.reset with hq := q } :: List.replicate 47 Core.reset }
def sHq (rs : List HqRec) : State := withHq [tH] (hqA rs)
/-- An answer that does nothing, with tag 9. -/
def tH0 : Thread := { tH with store := [(8 * 64, 9)] }
/-- A user group parked on its trap record. -/
def tWait : Thread := { t0 with id := 2, slot := 1, park := .records }

theorem clear_of {s : State} {id : Nat} (h : s.held = []) (r : s.recsOf id = []) : s.clearOf id :=
  ⟨by simp [h], r⟩

theorem witness_HandInAndServiceResults :
    (sHq []).clearOf tH.id ∧ (sHq [recH 1 1 none (some 2)]).clearOf tH.id ∧
    (∀ i ∈ ([.hqtake h0 16 9 4, .hqtakeW h0 48 9 4, .hqdone h0 10 8, .svcstart h0 20 12, .svcstart h0 20 16,
      .svcpark h0 20 6 5, .svcpark h0 20 0 6, .svcpark h0 20 0 0, .svcpark h0 20 0 7] : List Instr), Ready i (sHq []) tH) ∧
    (hqA []).matching 0xFFFFFFFF = [] ∧ (sHq []).readsOpen = false ∧ lanesOf (active tH h0) = [0] ∧ 16 ≤ tH.dres ∧
    Ready (.hqtake h0 16 9 4) (sHq [recH 1 1 none (some 2)]) tH ∧ Ready (.hqtakeW h0 16 9 4) (sHq [recH 1 1 none (some 2)]) tH ∧
    (hqA [recH 1 1 none (some 2)]).matching 0xFFFFFFFF = [recH 1 1 none (some 2)] ∧
    (sHq [recH 1 1 none (some 2)]).readsOpen = false ∧ tH.relDone = true ∧ (∀ l < 64, (active tH h0).getLsbD l = true → (hqA []).named 0 (tH.replyOf 8 l) = none) ∧
    (let s := withHq [tH0] (hqA [recH 6 2 (some 0) none])
     tH0.relDone = true ∧ lanesOf (active tH0 h0) = [0] ∧ (recH 6 2 (some 0) none).kind ≠ 0x11 ∧ readyB (.hqdone h0 10 8) s tH0 = true ∧
       (s.core 0).hq.named 0 (tH0.replyOf 8 0) = some (recH 6 2 (some 0) none) ∧ (tH0.replyOf 8 0).fits 6 = true ∧
       (s.core 0).hq.overflow = [] ∧ (recH 6 2 (some 0) none).ofThread = false ∧
       (recH 6 2 (some 0) none).copyFault = false) ∧
    (let r := recH 1 2 (some 0) (some 2)
     let s := withHq [tH, tWait] (hqA [r])
     readyB (.hqdone h0 10 8) s tH = true ∧ (s.core 0).hq.named 0 (tH.replyOf 8 0) = some r ∧
       (tH.replyOf 8 0).fits r.kind = true ∧ (s.core 0).hq.overflow = [] ∧ r.kind = 1 ∧ r.poster = some tWait.id ∧
       tWait.id ≠ tH.id ∧ (tH.replyOf 8 0).action = 3 ∧ s.thread? tWait.id = some tWait ∧ tWait.park = .records ∧
       tWait.susp = none ∧ tWait.exec ≠ 0 ∧ s.recsOf tWait.id = [(tH.core, r)] ∧
       (∀ x ∈ (s.core 0).hq.recs, x.place = r.place → x = r) ∧ s.outs = []) ∧
    svcMalformed (tH.sreg 12).toNat (tH.sreg 13).toNat (tH.sreg 14).toNat = false ∧
    svcMalformed (tH.sreg 16).toNat (tH.sreg 17).toNat (tH.sreg 18).toNat = true ∧
    fits ((sHq []).startService 0 (svcDesc 0 (tH.sreg 12) (tH.sreg 13) (tH.sreg 14) (tH.sreg 15))) = true ∧
    (tH.sreg 0).toNat = tH.slot ∧ tH.core = (sHq []).here ∧ tH.service = true ∧ tH.stopped = ((1 : Nat) == 0) ∧
    (tH.sreg 0).toNat = 0 ∧ 2 < (tH.sreg 7).toNat ∧
    (sHq []).threads = [tH] ∧
    (let u : Thread := { tH with id := 2, slot := 1, stopped := true, sregs := [] }
     let s := withHq [tH, u] (hqA [])
     readyB (.svcpark h0 20 5 5) s tH = true ∧ (s.sreg 5).toNat = 1 ∧ s.here = u.core ∧ u.slot = 1 ∧ u.service = true ∧
       u.stopped = ((1 : Nat) == 1) ∧ (∀ t ∈ s.threads, t.core = s.here → t.slot = 1 → t.service = true) ∧
       ∀ t ∈ s.threads, ∀ u ∈ s.threads, t.id = u.id → t = u) ∧
    (let s := { sHq [recH 3 2 (some 0) none] with time := 1000000, arg := { EvArg.zero with a := 1 } }
     s.thread? s.arg.a = some tH ∧ s.stuck tH = true ∧ tH.core < s.cores.length ∧ dieOf tH.core < s.dies.length ∧
       tH.id < s.nextId) ∧
    (let s := { State.reset with arg := { EvArg.zero with w := .sup 0, a := 0, v := 0x4000 } }
     isSupervisor s.arg.w = true ∧ (s.core 0).hq.recs = [] ∧ (s.core 0).hq.overflow = [] ∧ (s.core 0).hq.base = 0 ∧
       s.arg.v.toNat % 4096 = 0 ∧ s.arg.v.toNat ≠ 0 ∧ regionOf 0x4000 = .hbm (dieOf 0)) :=
  ⟨clear_of rfl (by decide), clear_of rfl (by decide), ready_all (by decide), by decide, by decide, by decide, by decide, ready_of (by decide), ready_of (by decide), by decide,
   by decide, by decide, by decide, by decide, by decide, by decide, by decide, by decide, by decide, by decide, by decide,
   by decide, by decide, by decide, by decide, by decide, by decide⟩

/-! ## The press -/

/-- A team with two pages of galley; a group with tile 2 that holds an .f32 product of 8 terms from s24 on, and a layout
word in s8; the gang's two teams and their groups. -/
def team2 (id idx core : Nat) : Team := { team5 with id := id, idx := idx, cores := [core], galley := 8192, pages := [0, 1] }
def tP (mem : W64) : Thread :=
  { t0 with gang := 6, team := 5, tile0 := 2, tiles := 1
            sregs := [(8, 0x0020080100000000), (25, 4096), (26, 0x80101), (27, 12), (31, mem)] }
def tQ : Thread := { tP 3 with id := 2, core := 1, team := 7, teamIdx := 1, tile0 := 4 }
def gangA : Gang :=
  { id := 6, launch := 0, linear := 0, prio := 0, state := .live, base := 0, teamIds := [5, 7], liveSince := 0, waitSince := 0
    order := 0, block := none, folios := [] }
def sPr (mem : W64) (ops : List PressOp) : State :=
  { with1 (tP mem) with threads := [tP mem, tQ], teams := [team2 5 0 0, team2 7 1 1], gangs := [gangA], pressOps := ops
                        arg := { EvArg.zero with a := 3, b := 1 }, time := 300000 }
def opA (k : PressKind) (parts : List Part) (first : Option Nat) : PressOp :=
  { id := 3, kind := k, issuer := 1, owners := [1], desc := (tP 0).regsFrom 24 8, areg := 24, parts := parts, issued := 0
    firstReady := first, bound := 200000 }
def part1 (r : Bool) : Part := ⟨5, 1, 0, 2, r⟩
def part2 (r : Bool) : Part := ⟨7, 2, 1, 4, r⟩

theorem noLate_of {s : State} (h : s.threads.all (fun t => decide (t.park = .run)) = true) : s.noLateAcquire := by
  intro t m d v e
  have r := of_decide_eq_true (List.all_eq_true.1 h t m)
  rw [r] at e
  exact Park.noConfusion e

theorem witness_PressResults :
    (∀ mem ops, (sPr mem ops).noLateAcquire) ∧
    (∀ i ∈ ([.mma h0 2 24 0 0 0 0, .mma h0 2 24 1 1 0 0, .mtileZero h0 2, .mtileSt h0 2 8 0 0, .mtileLd h0 2 8 0, .mstat h0 20,
      .mstatClr h0 20] : List Instr), Ready i (sPr 0 []) (tP 0)) ∧
    descBad ((tP 0).regsFrom 24 8) false = false ∧ (pressDesc ((tP 0).regsFrom 24 8)).mem = 0 ∧ (tP 0).grants 2 = true ∧
    descMisaligned (pressDesc ((tP 0).regsFrom 24 8)) = none ∧
    (∀ r ∈ rangesA (pressDesc ((tP 0).regsFrom 24 8)) ++ rangesB (pressDesc ((tP 0).regsFrom 24 8)), r.1 + r.2 ≤ 8192) ∧
    (sPr 0 []).team? (tP 0).team = some (team2 5 0 0) ∧ (team2 5 0 0).galley = 8192 ∧
    (pressDesc ((tP 0).regsFrom 24 8)).ben = false ∧ (sPr 0 []).pressLoad 0 < 8 ∧
    descBad ((tP 3).regsFrom 24 8) false = false ∧ (pressDesc ((tP 3).regsFrom 24 8)).mem = 3 ∧ (tP 3).grants 2 = true ∧
    descMisaligned (pressDesc ((tP 3).regsFrom 24 8)) = none ∧
    (∀ r ∈ rangesA (pressDesc ((tP 3).regsFrom 24 8)) ++ rangesB (pressDesc ((tP 3).regsFrom 24 8)), r.1 + r.2 ≤ 8192) ∧
    (pressDesc ((tP 3).regsFrom 24 8)).ben = false ∧ (sPr 3 []).team? 7 = some (team2 7 1 1) ∧
    (∀ c ∈ [0, 1], (sPr 3 []).pressLoad c < 8) ∧ (∀ m < 4, bit 3 m = true → (sPr 3 []).partnerAway (tP 3) m = false) ∧
    Ready (.mmaGang h0 2 24 0 0 0 0) (sPr 3 []) (tP 3) ∧ bit 3 (tP 3).teamIdx = true ∧ 2 ≤ popcount 4 3 ∧
    3 / 2 ^ (sPr 3 []).gangTeams (tP 3) = 0 ∧
    (sPr 3 []).gangParts (tP 3) 2 3 = [(part1 false, tP 3), (part2 false, tQ)].map some ∧ tQ.grants 4 = true ∧
    (let l := layoutOf 0x0020080100000000
     bits 0x0020080100000000 23 9 = 0 ∧ 1 ≤ l.cols ∧ l.cols ≤ (kindShape (mtileKind 0)).2.1 ∧ 1 ≤ l.rows ∧
       l.rows ≤ (kindShape (mtileKind 0)).1 ∧ l.off % mtileBytes 0 = 0 ∧ l.cols * mtileBytes 0 ≤ l.stride ∧ l.stride % mtileBytes 0 = 0 ∧ l.off + l.span (mtileBytes 0) ≤ 8192) ∧
    (let p := opA (.mma false false false false) [part1 false] none
     let s := sPr 0 [p]
     s.pressOps.find? (fun p => p.id == s.arg.a) = some p ∧ p.parts = [part1 false] ∧ s.pressReady p (part1 false) = true ∧
       s.partPoison p (part1 false) false = none ∧
       (s.operands p (part1 false) false false).map (fun o => decide (o.1.d.n ≤ (kindShape (kindOf o.1.d.fmt)).2.1)) = some true ∧
       (part1 false).core < s.cores.length) ∧
    (∀ r1 ∈ [false, true], let p := opA (.gang false false false false) [part1 r1, part2 false] (if r1 then some 100000 else none)
     let s := sPr 3 [p]
     s.pressOps.find? (fun p => p.id == s.arg.a) = some p ∧ p.parts[s.arg.b]? = some (part2 false) ∧
       (part2 false).ready = false ∧ (∀ f ∈ p.firstReady, s.time ≤ f + p.bound) ∧ s.pressReady p (part2 false) = true ∧ s.partPoison p (part2 false) false = none ∧ p.parts[0]? = some (part1 r1)) ∧
    (let p := opA (.gang false false false false) [part1 true, part2 false] (some 99999)
     let s := sPr 3 [p]
     s.pressOps.find? (fun p => p.id == s.arg.a) = some p ∧ p.firstReady = some 99999 ∧
       (∃ q ∈ p.parts, q.ready = false) ∧ 99999 + p.bound < s.time ∧ (p.parts.map Part.thread).Nodup) ∧
    (let p := opA .mtileZero [part1 false] none
     let s := sPr 0 [p]
     s.pressOps.find? (fun p => p.id == s.arg.a) = some p ∧ p.parts = [part1 false] ∧ s.pressReady p (part1 false) = true ∧
       (part1 false).core < s.cores.length) :=
  ⟨fun _ _ => noLate_of rfl, ready_all (by decide), by decide, by decide, by decide, by decide, by decide, by decide, by decide, by decide, by decide, 
   by decide, by decide, by decide, by decide, by decide, by decide, by decide, by decide, by decide, ready_of (by decide),
   by decide⟩

/-! ## Copies and barriers -/

/-- A copy of a row of 8 .f32 elements inside the window, its descriptor in s24 on; s4 a barrier's address, s5 a count. -/
def tCp : Thread :=
  { t0 with gang := 6, team := 5
            sregs := [(4, 0x100), (5, 0x7FFFFFFF), (25, 2048), (26, 0x100000008), (27, 32), (28, 32), (29, 0xC5)] }
def cpA (left : List Nat) : Cpy :=
  { id := 3, owners := [1], core := 0, slot := 0, f := 0, tok := 0, desc := tCp.regsFrom 24 8, promise := false, left := left
    delivered := 0, ctx := 0x1001, sup := false, gang := 6, team := 5, hist := 1, issued := 0, since := 0, waiting := false, replay := none
    report := ⟨7, 7, 7, 7⟩, owned := [], pc := 0 }
def sCp (ts : List Thread) (cs : List Cpy) : State :=
  { with1 tCp with threads := ts, teams := [team5], cpys := cs, arg := { EvArg.zero with a := 3 } }
def tBusy : Thread := { tCp with toks := [(0, .busy 3)] }
/-- The word of the barrier at 0x100: phase or abort bit, expected count and count. -/
def sBar (v : Nat) : State := { sCp [tCp] [] with
  cores := { Core.reset with galley := ((leBytes 8 v).mapIdx (fun i b => (3 * 4096 + 0x100 + i, b))).filter (fun e => e.2 != 0) } ::
    List.replicate 47 Core.reset }

theorem witness_CopyAndBarrierResults :
    (∀ i ∈ ([.cpy h0 24 0, .cpyPromise h0 30 24 7, .waitk h0 1, .waitk h0 0xFF, .barx h0 5 4 0, .barx h0 0 4 1,
      .barw h0 30 4] : List Instr), readyB i (sCp [tCp] []) tCp = true) ∧
    cpyMalformed (tCp.regsFrom 24 8) = false ∧
    (let d := cpyDesc (tCp.regsFrom 24 8)
     d.ssp ≠ 2 ∧ d.dsp ≠ 2 ∧ d.kov = false ∧ (sCp [tCp] []).srcKeyless d = false ∧ (sCp [tCp] []).dstKeyless d = false ∧ d.dsp = 1 ∧
       (sCp [tCp] []).cpys = [] ∧ cpyMisaligned d = none ∧
       (sCp [tCp] []).copyBeyond tCp d = none) ∧ tCp.tok 0 = .idle ∧ tCp.tok 7 = .idle ∧
    (let s := sCp [tBusy] [cpA [0]]
     let d := cpyDesc (cpA [0]).desc
     s.cpys = [cpA [0]] ∧ (cpA [0]).id = s.arg.a ∧ (cpA [0]).waiting = false ∧ (cpA [0]).replay = none ∧
       (s.die (dieOf (cpA [0]).core)).stopped = false ∧ (cpA [0]).left = [0] ∧ (cpA [0]).owned = [] ∧ s.pressOps = [] ∧
       s.earlierLoads (cpA [0]).owners (cpA [0]).id = false ∧
       (∀ i < 32, (team5.place ((d.unitAt (.row 0 0 32)).1 + i)).1 < s.cores.length) ∧ d.ssp = 1 ∧ d.dsp = 1 ∧
       d.ga = false ∧ d.ben = false ∧ s.windowOf 6 5 d.src = some team5 ∧ s.windowOf 6 5 d.dst = some team5 ∧
       (∀ e ∈ d.needs (.row 0 0 32), d.src % 2 ^ 23 + e.1 * d.sstride + e.2.1 + e.2.2 ≤ team5.galley ∧
         s.galPoisoned team5 (d.src % 2 ^ 23 + e.1 * d.sstride + e.2.1) e.2.2 = false) ∧
       (∀ i < 32, ∀ j < 32, team5.place ((d.unitAt (.row 0 0 32)).1 + i) = team5.place ((d.unitAt (.row 0 0 32)).1 + j) → i = j) ∧
       (d.unitAt (.row 0 0 32)).2 = 32 ∧
       (d.bytes (fun r o => s.galByte team5 (d.src % 2 ^ 23 + r * d.sstride + o)) (.row 0 0 32)).length = 32) ∧
    (let s := sCp [tBusy] [cpA []]
     s.cpy? s.arg.a = some (cpA []) ∧ (cpA []).left = [] ∧ (cpA []).replay = none ∧ s.timesOpen (cpA []).id = false ∧
       1 ∈ (cpA []).owners ∧ tBusy.id = 1 ∧ s.thread? 1 = some tBusy ∧ tBusy.tok 0 = .busy 3) ∧
    readyB (.waitk h0 1) (sCp [tBusy] []) tBusy = true ∧
    (tCp.sreg 5).toNat < 2 ^ 31 ∧ (tCp.sreg 4).toNat % 8 = 0 ∧ (sCp [tCp] []).galleyAt 6 5 0x100 8 = some (team5, 0x100) ∧
    (∀ i < 8, ∀ j < 8, team5.place (0x100 + i) = team5.place (0x100 + j) → i = j) ∧
    (∀ i < 8, (team5.place (0x100 + i)).1 < (sCp [tCp] []).cores.length) ∧
    (∀ v ∈ [2 ^ 63, 2 ^ 32, 2 ^ 32 + 1, 2 ^ 33 + 1], readyB (.barw h0 30 4) (sBar v) tCp = true ∧
      leNat ((sBar v).galRead team5 0x100 8) = v) ∧
    (cpyDesc (cpA [0]).desc).units[0]? = some (.row 0 0 32) :=
  ⟨by decide, by decide, by decide, by decide, by decide, by decide, by decide, by decide, by decide, by decide, by decide,
   by decide, by decide, by decide, rfl⟩

/-! ## Proofs -/

/-- Argument copies lie at multiples of 64 KiB, and hide nothing above their size. -/
theorem argAt_above {s : State} {va : Nat} (h : ∀ l ∈ s.launches, l.kd.argSize ≤ va % 65536) (ctx : W32) :
    s.argAt ctx va = none := by
  simp only [State.argAt, Option.map_eq_none_iff, List.find?_eq_none]
  intro l m
  have := h l m
  simp only [Bool.and_eq_true, decide_eq_true_eq]
  unfold argVa
  omega

theorem engineTrans_above {s : State} {core : Nat} {ctx : W32} {sup : Bool} {va access pa key mt : Nat}
    (h : ∀ l ∈ s.launches, l.kd.argSize ≤ va % 65536) (hm : s.mode (dieOf core) 0 = true)
    (ht : s.translateHalf core ctx sup va access = .ok pa key mt) :
    s.engineTrans core ctx sup va access = (s, .ok pa key mt) := by
  simp [State.engineTrans, hm, State.translate, argAt_above h, ht]

/-- A launch with 16 bytes of arguments, master and base of a proof, whose code object holds one declaration: .f32 master,
one row of 32 elements, to E4M3. -/
def launchP : Launch := { launchA .dispensed with kd := { kdA with argSize := 16 } }
def hdP : List Byte := fieldBytes 32 [(26, 2, 1), (28, 4, 192)]
def declP : List Byte := fieldBytes 32 [(1, 1, 2), (8, 4, 8), (12, 4, 1), (16, 4, 32)]
def tPr : Thread := { t0 with launch := 0x100100000007, sregs := [(5, 0x14000), (6, 1)] }
def listed (a : Nat) (bs : List Byte) : List Host.Cell := (bs.mapIdx (fun i b => (a + i, b))).filter (fun e => e.2 != 0)
/-- A mapping check that the supervisor has answered with a leaf for a user's normal memory, read and written. -/
def found (va pa : Nat) : Walk :=
  { id := 9, core := 0, ctx := 0x1001, sup := false, va := va, access := 0, others := [], svmode := true, stale := false
    fault := none, use := .check, found := some (pa + 0x2D9, 0) }
def sProof : State := { modeDie 1 (sMb tPr ctxA) with
  launches := [launchP], nextId := 10
  tlb := [page 0x12000 0x1800020000, page 0x13000 0x21000, page 0x14000 0x22000]
  walks := [found 0x13000 0x21000, found 0x14000 0x22000]
  keys := [(0, ⟨0, 1, true, 1⟩), (1, ⟨5, 1, true, 1⟩)]
  tags := [(0x1800020000, (1, 1)), (0x1800020080, (1, 1))]
  mem := listed 0x1800020000 hdP ++ listed 0x18000200C0 declP ++
    listed (argPa 0x100100000007) (leBytes 8 0x13000 ++ leBytes 8 0x14000) }

/-- The proof of that declaration, registered. -/
def proofA : Proof := proofOf tPr (declOf declP) 10 0 0 0 0x13000 0x14000 [(0x13000, 0x21000)]
def proofT : Proof := { proofA with triggers := [⟨0, [0], []⟩] }
def sProofs (p : Proof) : State := { modeDie 1 (sMb tPr ctxA) with
  proofs := [p], nextId := 11, keys := [(0, ⟨0, 1, true, 1⟩), (1, ⟨5, 1, true, 1⟩)]
  tlb := [page 0x13000 0x21000, page 0x14000 0x22000], tags := [(0x21000, (1, 1)), (0x22000, (1, 1)), (0x22080, (1, 1)), (0x22100, (1, 1))]
  arg := { EvArg.zero with a := 10 } }

theorem checkTrans_found {s : State} {core va access leaf size : Nat} {ctx : W32} {sup half : Bool} {w : Walk}
    (ha : s.argAt ctx va = none) (hh : halfOf va = some half) (hs : (half && !sup) = false)
    (hm : s.mode (dieOf core) 0 = true) (hf : s.checkFind core ctx va = some w) (hw : w.fault = none)
    (hv : w.found = some (leaf, size)) (hd : leafDenies sup leaf access = none) :
    s.checkTrans core ctx sup va access = (s, leafPlace ctx va leaf size) := by
  simp [State.checkTrans, ha, hh, hs, hm, hf, hw, hv, hd]

/-- A range of one page of this device's normal memory that passes the check for one access or two. -/
theorem pagesUsable_one {s : State} {core va len pa k : Nat} {ctx : W32} {sup : Bool} {ks : List Nat}
    (hp : pagesIn va len = [va]) (hh : homedHere pa = true) (hk : ks = [k] ∨ ∃ j, ks = [j, k])
    (h : ∀ k ∈ ks, s.checkTrans core ctx sup va k = (s, .ok pa 1 0)) :
    s.pagesUsable core ctx sup va len ks = (s, ⟨false, false, [(pageBase 0 va, pageBase 0 pa)]⟩) := by
  obtain rfl | ⟨j, rfl⟩ := hk
  · simp [State.pagesUsable, hp, h, hh, put]
  · simp [State.pagesUsable, hp, h, hh, put]

theorem checked (k : Nat) (hk : k = accRead ∨ k = accWrite) :
    sProof.checkTrans 0 0x1001 false 0x13000 k = (sProof, .ok 0x21000 1 0) := by
  have f : ∀ l ∈ sProof.launches, l.kd.argSize ≤ 0x13000 % 65536 := by decide
  obtain rfl | rfl := hk
  all_goals
    refine (checkTrans_found (half := false) (w := found 0x13000 0x21000) (argAt_above f _) (by decide) rfl (by decide)
      (by decide) rfl rfl (by decide)).trans ?_
    exact congrArg (fun b => (sProof, b)) (by decide)

theorem checkedBase : sProof.checkTrans 0 0x1001 false 0x14000 accWrite = (sProof, .ok 0x22000 1 0) := by
  have f : ∀ l ∈ sProof.launches, l.kd.argSize ≤ 0x14000 % 65536 := by decide
  refine (checkTrans_found (half := false) (w := found 0x14000 0x22000) (argAt_above f _) (by decide) rfl (by decide)
    (by decide) rfl rfl (by decide)).trans ?_
  exact congrArg (fun b => (sProof, b)) (by decide)

theorem witness_Registration : Ready (.preg h0 20 4) sProof tPr ∧ sProof.launch? tPr.launch = some launchP ∧
    (tPr.sreg 4).toNat = 0 ∧ (0 : Nat) < 2 ^ 16 ∧
    sProof.engineRead tPr.core tPr.ctx tPr.sup launchP.codeVa 32 = (sProof, .ok hdP) ∧ 0 < leNat ((hdP.drop 26).take 2) ∧
    sProof.engineRead tPr.core tPr.ctx tPr.sup (launchP.codeVa + leNat ((hdP.drop 28).take 4) + 32 * 0) 32
      = (sProof, .ok declP) ∧
    declMalformed declP launchP.kd.argSize = false ∧
    sProof.loadNat (argPa launchP.ident + (declOf declP).masterArg) (slotOfCtx launchP.ctx) 8 = 0x13000 ∧
    sProof.loadNat (argPa launchP.ident + (declOf declP).baseArg) (slotOfCtx launchP.ctx) 8 = 0x14000 ∧
    proofA = proofOf tPr (declOf declP) sProof.nextId 0 (homeDie ((lookup [(0x13000, 0x21000)] (pageBase 0 0x13000)).getD 0))
      sProof.time 0x13000 0x14000 [(0x13000, 0x21000)] ∧
    sProof.freeProof tPr.ctx = some 0 ∧
    (sProof.proofs.filter (fun q => q.ctx == tPr.ctx && q.master == 0x13000)).length < 4 ∧
    0x13000 % 128 = 0 ∧ 0x14000 % 128 = 0 ∧ proofA.masterSize = 128 ∧ proofA.size = 384 ∧
    sProof.pagesUsable 0 0x1001 false 0x13000 128 [accRead, accWrite] = (sProof, ⟨false, false, [(0x13000, 0x21000)]⟩) ∧
    sProof.pagesUsable 0 0x1001 false 0x14000 384 [accWrite] = (sProof, ⟨false, false, [(0x14000, 0x22000)]⟩) ∧
    rangesMeet 0x14000 384 0x13000 128 = false ∧ sProof.meetsProof 0x1001 0x14000 384 = false ∧ sProof.shootRoom = true := by
  have hm : sProof.mode (dieOf 0) 0 = true := by decide
  have f : ∀ va ∈ [0x12000, 0x120C0], ∀ l ∈ sProof.launches, l.kd.argSize ≤ va % 65536 := by decide
  have e (va pa : Nat) (hv : va ∈ [0x12000, 0x120C0]) (ht : sProof.translateHalf 0 0x1001 false va accRead = .ok pa 1 0) :
      sProof.engineTrans 0 0x1001 false va accRead = (sProof, .ok pa 1 0) := engineTrans_above (f _ hv) hm ht
  refine ⟨ready_of (by decide), by decide, by decide, by decide, ?_, by decide, ?_, by decide, by decide, by decide, rfl,
    by decide, by decide, by decide, by decide, by decide, by decide, ?_, ?_, by decide, by decide, by decide⟩
  · refine (engineRead_of rfl rfl (by decide) (e 0x12000 0x1800020000 (by decide) (by decide))).trans ?_
    exact congrArg (fun b => (sProof, EngineRead.ok b)) (by decide)
  · refine (congrArg (fun va => sProof.engineRead 0 0x1001 false va 32) (by decide : _ = 0x120C0)).trans ?_
    refine (engineRead_of rfl rfl (by decide) (e 0x120C0 0x18000200C0 (by decide) (by decide))).trans ?_
    exact congrArg (fun b => (sProof, EngineRead.ok b)) (by decide)
  · exact pagesUsable_one (va := 0x13000) (pa := 0x21000) (by decide) (by decide) (.inr ⟨_, rfl⟩) (fun k m => checked k (by simpa using m))
  · exact pagesUsable_one (va := 0x14000) (pa := 0x22000) (by decide) (by decide) (.inl rfl) (fun k m => by
      obtain rfl : k = accWrite := by simpa using m
      exact checkedBase)

/-- A group that waits for a shootdown, and one blocked by the page that it covers. -/
def tShoot : Thread := { tPr with park := .shootdown 20 0 1 0 }
def tHeld : Thread := { t0 with id := 2, slot := 1, park := .blocked }
def sShoot : State :=
  let s : State := { sProofs proofA with threads := [tShoot, tHeld], held := [⟨2, 0x1001, 0x14000⟩], arg := { EvArg.zero with a := 0 } }
  s.shoot 0 0x1001 false 0x14000 1
/-- A supervisor's store of bytes to a register of die 0. -/
def sBytes (bs : List Byte) : State := { sProofs proofA with arg := { EvArg.zero with w := .sup 0, bytes := bs } }
/-- A request of a stand-in host's work that waits on chip. -/
def sStand : State := { withHq [] { hqA [] with overflow := [recH 8 0 none (some 5)] } with
  mw := { State.reset.mw with standIn := true }, arg := { EvArg.zero with w := .host, a := 0, v := 5 } }

theorem witness_ProofAndShootdownResults :
    (∀ i ∈ ([.pdrop h0 20 4, .pdrop h0 20 6, .pstamp h0 20 5, .pstamp h0 20 6] : List Instr), Ready i (sProofs proofA) tPr) ∧
    (sProofs proofA).proofs.find? (fun p => p.ctx == tPr.ctx && p.num == (tPr.sreg 4).toNat && (tPr.sreg 4).toNat < 64)
      = some proofA ∧ (sProofs proofA).shootRoom = true ∧ dieOf tPr.core < (sProofs proofA).dies.length ∧
    (tPr.sreg 6).toNat = 1 ∧ (∀ p ∈ (sProofs proofA).proofs, p.ctx = tPr.ctx → p.num ≠ 1) ∧
    (sProofs proofA).proofAt tPr.ctx 1 1 = none ∧ (tPr.sreg 5).toNat = 0x14000 ∧
    (sProofs proofA).proofAt tPr.ctx 0x14000 1 = some proofA ∧
    proofA.faulted = none ∧ proofA.blockAt (0x14000 - proofA.base) = some 0 ∧
    (∃ r, (sShoot.die sShoot.arg.a).shootQ = [r] ∧ r.ops = none ∧ sShoot.outs = [] ∧ sShoot.arg.a < sShoot.dies.length ∧
      sShoot.thread? 1 = some tShoot ∧ tShoot.park = .shootdown 20 sShoot.arg.a r.seq 0 ∧
      sShoot.thread? 2 = some tHeld ∧ tHeld.park = .blocked ∧
      ∀ x ∈ sShoot.held, x.who = 2 → r.covers x.ctx x.page 4096 = true) ∧
    (∀ b ∈ [1, 2 ^ 46], let s := sBytes (fieldBytes 32 [(0, 4, 0x1001), (8, 8, 0x14000), (16, 8, b)])
      isSupervisor s.arg.w = true ∧ s.arg.a < s.dies.length ∧ (s.die s.arg.a).shootQ.length < 16 ∧
        shootRefused (leNat ((s.arg.bytes.drop 4).take 4)) (leNat ((s.arg.bytes.drop 8).take 8))
          (leNat ((s.arg.bytes.drop 16).take 8)) (leNat ((s.arg.bytes.drop 24).take 8)) = decide (b ≠ 1)) ∧
    shootRefused 0 0x14000 1 0 = false ∧ shootRefused 2 0x14000 1 0 = true ∧
    shootRefused 0 0x1FFFFFFFFFFF000 1 0 = false ∧ shootRefused 0 0x1FFFFFFFFFFF000 2 0 = true ∧
    (let s := sProofs proofT
     s.proofs = [proofT] ∧ proofT.id = s.arg.a ∧ proofT.triggers = [⟨0, [0], []⟩] ∧ proofT.faulted = none ∧
     ∃ bytes t, (s.gather proofT 0).2 = .ok bytes t ∧
       ((s.gather proofT 0).1.install proofT 0 (proofT.image 0 (proofT.quantise 0 (max proofT.regT t) bytes).2.2
         (proofT.quantise 0 (max proofT.regT t) bytes).1 (proofT.quantise 0 (max proofT.regT t) bytes).2.1
         (max proofT.regT t)) (max proofT.regT t)).2 = true) ∧
    (let s := sBytes (fieldBytes 32 [(0, 4, 0x1001), (16, 8, 0x1000), (24, 8, 9)])
     s.mayAnswer s.arg.w = true ∧ (s.pinstall s.arg.bytes).isSome = true) ∧
    (let s := { withHq [tH] (hqA [recH 8 1 none (some 5)]) with arg := { EvArg.zero with w := .sup 0, a := 0, v := 9 } }
     s.mayAnswer s.arg.w = true ∧ (recH 8 1 none (some 5)).state ≠ 0 ∧ (s.core (12 * s.arg.a)).hq.overflow = [] ∧
     (s.core (12 * s.arg.a)).hq.recs.find? (fun r => r.kind == 0x08 && r.tag == s.arg.v.toNat)
       = some (recH 8 1 none (some 5))) ∧
    sStand.arg.w = .host ∧ sStand.standsIn = true ∧ 12 * sStand.arg.a < sStand.cores.length ∧
    (recH 8 0 none (some 5)).state = 0 ∧
    (sStand.core (12 * sStand.arg.a)).hq.recs.find? (fun r => r.kind == 0x08 && r.tag == sStand.arg.v.toNat) = none ∧
    (sStand.core (12 * sStand.arg.a)).hq.overflow.find? (fun r => r.kind == 0x08 && r.poster.getD 0 % 65536 == sStand.arg.v.toNat)
      = some (recH 8 0 none (some 5)) := by
  refine ⟨ready_all (by decide), by decide, by decide, by decide, by decide, by decide, by decide, by decide, by decide,
    by decide, by decide, ⟨_, rfl, by decide⟩, by decide, by decide, by decide, by decide, by decide,
    ⟨by decide, by decide, by decide, by decide, _, _, rfl, by decide⟩,
    by decide, by decide⟩

/-! ## Traps -/

/-- A poisoned word of v2 in lane 3. -/
def tPoison : Thread := { t0 with storePoison := [(2 * 64 + 3, true)] }
/-- A core whose hand-in queue has one free place left, and one that has none. -/
def hqFree (tail : Nat) : Hq := { base := 0x4000, head := 0, tail := tail, recs := [], posts := [], overflow := [] }
def sFree (t : Thread) (tail : Nat) : State :=
  { with1 t with cores := { Core.reset with hq := hqFree tail } :: List.replicate 47 Core.reset }
/-- Proctor lanes with their return address and IE as given. -/
def sEpc (c : Nat) (epc : W64) (ie : Bool) : State :=
  { State.reset with cur := .proctor c
                     cores := List.replicate 48 { Core.reset with proctor := { Proctor.reset with epc := epc, ie := ie } } }

theorem witness_IllegalAndPrivilegedInstructionsTrap :
    s0.cur = .thread t0.id ∧ s0.thread? t0.id = some t0 ∧ t0.lateNow = false ∧
    (∀ p ∈ ([(.iadd h0 62 2 4 0, none), (.iadd h0 63 2 4 3, some .register), (.call h0 0 0 0, some .combination)] :
      List (Instr × Option Cause)), mainWord p.1 ≠ none ∧ checkInstr p.1 = p.2) ∧
    wellFormed (.tret h0) = true ∧ privileged (opcode (.tret h0)) = true ∧ t0.sup = false ∧
    (with1 tPoison).thread? 1 = some tPoison ∧ wellFormed (.iadd h0 62 2 4 2) = true ∧
    privileged (opcode (.iadd h0 62 2 4 2)) = false ∧ (uses (.iadd h0 62 2 4 2)).sw.any ((with1 tPoison).locked tPoison) = false ∧
    (with1 tPoison).scoreboard tPoison (uses (.iadd h0 62 2 4 2)) = false ∧
    (with1 tPoison).counterFull 1 (opcode (.iadd h0 62 2 4 2)) = false ∧
    poisonedLanes tPoison (readLanes (.iadd h0 62 2 4 2) tPoison) (uses (.iadd h0 62 2 4 2)) = 0x8 ∧
    sP.cur = .proctor 0 ∧ wellFormed (.bra h0 0 0) = true ∧ proctorAccepts (opcode (.iadd h0 62 2 4 2)) = false := by decide

theorem witness_TrapPostsARecordAndParks :
    0 < ((sFree t0 4094).core t0.core).hq.free ∧ ((sFree t0 4094).core 0).hq.tail < 4096 ∧ 0 < ((sFree t0 0).core 0).hq.free ∧
    ((sFree t0 4095).core 0).hq.free = 0 ∧ (s0.core 0).hq.free = 0 ∧ t0.core < (sFree t0 4094).cores.length := by decide

theorem witness_ProctorTrapEntryAndReturn :
    (∀ c ∈ [0, 36, 47], ((sEpc c 12 true).core c).proctor.ie = true ∧ ((sEpc c 12 false).core c).proctor.ie = false ∧
      c < 48 ∧ (sEpc c 12 false).cores.length = 48 ∧ readyPB (.tret h0) (sEpc c 12 true) c = true ∧
      readyPB (.tret h0) (sEpc c 14 true) c = true) ∧ (12 : W64).toNat % 4 = 0 ∧ (14 : W64).toNat % 4 ≠ 0 ∧
    readyB (.tret h0) sS tS = true ∧ s0.cur = .thread t0.id ∧ s0.thread? t0.id = some t0 ∧ t0.lateNow = false ∧
    wellFormed (.tret h0) = true ∧ t0.sup = false := by decide

theorem witness_BreakpointAndSystemCall :
    (∀ b ∈ ([0, 63] : List (BitVec 6)), readyB (.brk h0 b) (sFree t0 4094) t0 = true ∧ readyPB (.brk h0 b) sP 0 = true) ∧
    readyB (.sysc ⟨false, 0, none, none, .none⟩) s0 t0 = true ∧ active t0 ⟨false, 0, none, none, .none⟩ = 0 ∧
    (let t : Thread := { t0 with relDone := true }
     readyB (.sysc h0) (sFree t 4079) t = true ∧ active t h0 ≠ 0 ∧ t.relDone = true ∧
       lanesIn (active t h0) = ((sFree t 4079).core 0).hq.free) := by decide

/-! ## Folios -/

/-- The group of a live folio at 0x40000 and the folio's header, at two mapped pages; s4 its address, s6 that of a copy. -/
def shadowA : Thread := { t0 with id := 9, team := 5, gang := 6, lineage := 7 }
def folioA : FolioEnt :=
  { serial := 1, addr := 0x40000, ctx := 0x1001, seq := 0, lineage := 7, team := 5, grp := 0, f := 0, width := 16, pool := false
    section_ := false, shadow := shadowA, dest := none, withdrawn := [] }
def headA : List Byte := fieldBytes 192
  [(0, 8, 0x00014F494C4F4644), (8, 4, 1), (12, 4, 0x40000000), (16, 8, 0x40000), (24, 4, 0x1001), (28, 4, 1), (36, 4, 0x1B80),
   (40, 1, 16), (42, 1, 16), (43, 1, 16), (80, 4, 7), (92, 4, 64), (96, 4, 64), (168, 8, 0xB80), (176, 8, 0x1B80)]
def tF : Thread := { t0 with sregs := [(4, 0x40000), (6, 0x50000)], lineage := 3 }
def sF : State := { with1 tF with
  teams := [team5], folios := [folioA], nextSerial := 2, keys := [(0, ⟨0, 1, true, 1⟩), (1, ⟨5, 1, true, 1⟩)]
  tlb := [page 0x40000 0x30000, page 0x41000 0x31000, page 0x50000 0x32000, page 0x51000 0x33000]
  mem := listed 0x30000 headA, tags := (List.range 55).map (fun i => (0x30000 + 128 * i, (1, 1))) }
def srcA (len : Nat) : FolioSrc := ⟨(sF.partsOf 0x1001 accRead 0x40000 len).map (fun p => (p.pa, p.len)), some 1⟩

/-- A group that suspends to 0x50000, its suspension under way with nothing outstanding, its folio written as serial n or
to be written. -/
def tSus (n : Nat) : Thread :=
  { tF with susp := some { origin := 0, addr := 0x50000, frames := [(0x32000, 4096), (0x33000, 4096)], key := 1, pc := 12
                           dest := some 20, holder := false, journaled := true, journal := [], tags := [], withdrawn := []
                           serial := n, section_ := false } }
def sSus (n : Nat) : State := { sF with threads := [tSus n], arg := { EvArg.zero with a := 1 } }
/-- An FCOPY from 0x40000 to 0x50000 whose copy is written, of the folio with a serial. -/
def sCopy (n : Nat) : State := { sF with
  fcopies := [⟨sF.self, 0x40000, n, 0, 0x50000, [(0x32000, 4096), (0x33000, 4096)], 1, 0x1B80, 3⟩] }

theorem mapped_two {s : State} {ctx : W32} {kind va len : Nat} {p q : Nat × Nat} (hp : pagesIn va len = [p.1, q.1])
    (h : ∀ x ∈ [p, q], s.translate s.here ctx s.supHere x.1 kind = .ok x.2 1 0) : s.mapped ctx kind va len := by
  intro a m
  rw [hp] at m
  obtain rfl | rfl : a = p.1 ∨ a = q.1 := by simpa using m
  · exact ⟨_, _, _, h p (by simp)⟩
  · exact ⟨_, _, _, h q (by simp)⟩

theorem sF_reads : sF.namesFolio 4 0x40000 (.virt 0x1001) ∧ sF.reads (.virt 0x1001) 0x40000 folioHead (srcA folioHead) ∧
    sF.reads (.virt 0x1001) 0x40000 0x1B80 (srcA 0x1B80) :=
  ⟨⟨by decide, by decide, .inl ⟨by decide, .inl (by decide), by decide⟩⟩,
   ⟨by decide, mapped_one (pa := 0x30000) (key := 1) (mt := 0) (by decide) (by decide), rfl⟩,
   ⟨by decide, mapped_two (p := (0x40000, 0x30000)) (q := (0x41000, 0x31000)) (by decide) (by decide), rfl⟩⟩

theorem witness_FolioResults :
    (∀ i ∈ ([.suspend h0 20 6, .resume h0 20 4, .resumeTry h0 20 4, .fcopy h0 20 4 6, .fdrop h0 20 4] : List Instr),
      Ready i sF tF) ∧ (tF.sreg 6).toNat = 0x50000 ∧ 0x50000 % 128 = 0 ∧ tF.peerLate = false ∧ sF.largestFolio tF = 0x1C80 ∧
    sF.mapped tF.ctx accWrite 0x50000 0x1C80 ∧ sF.directoryUsed < 65536 ∧ sF.held = [] ∧
    (∀ n ∈ [0, 2], (sSus n).thread? (sSus n).arg.a = some (tSus n) ∧ (∃ u, (tSus n).susp = some u ∧ u.origin = 0 ∧
        u.journaled = true ∧ u.serial = n ∧ (sSus n).writeWaits (tSus n) u = false ∧
        (sSus n).piecesVisible u.frames (((sSus n).folioArgs (tSus n) u).2.folioSize
          ((sSus n).folioArgs (tSus n) u).1.section_ ((sSus n).folioArgs (tSus n) u).1.galley) = true) ∧
      (sSus n).drained (tSus n) = true ∧ (sSus n).redBuf = [] ∧ (tSus n).peerLate = false ∧
      (tSus n).lct.sys ≤ (sSus n).time) ∧
    sF.namesFolio 4 0x40000 (.virt 0x1001) ∧ sF.reads (.virt 0x1001) 0x40000 folioHead (srcA folioHead) ∧
    sF.reads (.virt 0x1001) 0x40000 0x1B80 (srcA 0x1B80) ∧ sF.srcNat (srcA folioHead) 36 4 = 0x1B80 ∧
    sF.folioEntry (srcA folioHead) 0x40000 = some folioA ∧ (sF.claimOf (srcA folioHead)).1 = 1 ∧
    (∀ b ∈ [false, true], sF.resumeCheck (srcA folioHead) 0x40000 (.virt 0x1001) b = .ok folioA) ∧
    sF.resumeTarget folioA = some (0, none, none) ∧ sF.halting (dieOf 0) = false ∧
    (match sF.resumeOn folioA (srcA 0x1B80) 0 none with | .yes _ _ => true | .no _ => false | .wait => false) = true ∧
    sF.copyOf 0x40000 0x50000 = none ∧ sF.folioDenied (srcA folioHead) (.virt 0x1001) = false ∧
    sF.srcNat (srcA folioHead) 117 1 = 0 ∧ sF.srcNat (srcA folioHead) 34 1 / 4 % 2 = 0 ∧
    0x40000 + 0x1B80 ≤ 0x50000 ∧ sF.mapped 0x1001 accWrite 0x50000 0x1B80 ∧
    (∀ n ∈ [1, 5], readyB (.fcopy h0 20 4 6) (sCopy n) tF = true ∧
      (∃ c, (sCopy n).copyOf 0x40000 0x50000 = some c ∧ (sCopy n).piecesVisible c.pieces c.total = true ∧
        (sCopy n).folios.find? (fun e => e.serial == c.serial && e.addr.toNat == c.src && e.seq == c.seq)
          = if n = 1 then some folioA else none)) ∧
    (sCopy 1).namesFolio 4 0x40000 (.virt 0x1001) ∧
    { sF with folios := [] }.roomForStranded folioA.team folioA.grp = true := by
  refine ⟨ready_all (by decide), by decide, by decide, by decide, by decide,
    mapped_two (p := (0x50000, 0x32000)) (q := (0x51000, 0x33000)) (by decide) (by decide), by decide, rfl, ?_,
    sF_reads.1, sF_reads.2.1, sF_reads.2.2, by decide, by decide, by decide, by decide, by decide, by decide, by decide,
    by decide, by decide, by decide, by decide, by decide,
    mapped_two (p := (0x50000, 0x32000)) (q := (0x51000, 0x33000)) (by decide) (by decide), ?_,
    ⟨by decide, by decide, .inl ⟨by decide, .inl (by decide), by decide⟩⟩, by decide⟩
  · intro n m
    obtain rfl | rfl : n = 0 ∨ n = 2 := by simpa using m
    all_goals exact ⟨by decide, ⟨_, rfl, by decide⟩, by decide⟩
  · intro n m
    obtain rfl | rfl : n = 1 ∨ n = 5 := by simpa using m
    all_goals exact ⟨by decide, _, rfl, by decide, by decide⟩

/-! ## Accesses in flight -/

def accAt (pa size : Nat) (dest : List Nat) : LaneAcc := ⟨0, .mem pa 1 0, size, dest, 7, 9, pa⟩
def opOf' (cls : Nat) (k : OutKind) (l : LaneAcc) : Out := { outOf 3 cls with kind := k, lanes := [l], report := ⟨5, 5, 5, 5⟩ }
/-- A group with one operation outstanding at a line tagged by its key, the step asked about it. -/
def sOut (o : Out) : State := { with1 t0 with
  outs := [o], keys := [(0, ⟨0, 1, true, 1⟩), (1, ⟨5, 1, true, 1⟩)], tags := [(0x1000, (1, 1))]
  arg := { EvArg.zero with a := 3 } }
/-- A write under way, and a write at its home that is visible to all at device time 50. -/
def sFly : State := { with1 t0 with
  outs := [outOf 3 1], flight := [writeOf (.bytes [(4, 1), (5, 2)])], arg := { EvArg.zero with a := 4 } }
def lineA : LineInfo :=
  { pend := [{ bytes := [(4, 1), (127, 2)], hists := [1], core := 0, scope := 4, chome := 40, cfar := 50, arr := none, outs := [], probes := [] }], horizon := 0
    leaseLen := 512, lastEnd := 0, waited := false, times := [] }
def sPend (n : Nat) : State := { State.reset with lines := [(0x1000, lineA)], time := n, arg := { EvArg.zero with a := 0x1000 } }
def redA : RedLine :=
  { core := 0, line := 0x1000, key := 1, scope := 4, slots := [(124, 1, 4, 5)], threads := [1], outs := [3] }
def sRed : State := { sOut (outOf 3 2) with redBuf := [redA], arg := { EvArg.zero with a := 0, b := 0x1000 } }

/-- A pending write whose probes wait for a write on its way. -/
def lineP : LineInfo := { lineA with pend := lineA.pend.map (fun (p : Pend) => { p with probes := [4] }) }
/-- A load of a line, whose fill is asked about: on its home die, on another, or in a peer's window. -/
def fillOp (core line : Nat) : Out := { opOf' 0 (.load false none) (accAt line 4 [0]) with core := core }
def sLine (core line : Nat) (bs : List Byte) : State := { sOut (fillOp core line) with
  arg := { EvArg.zero with a := 3, b := line, c := 600, bytes := bs } }

theorem acquiresClear_of {s : State} (h : s.threads.all (fun t => decide (t.park = .run)) = true) : s.acquiresClear := by
  intro t m e
  rw [of_decide_eq_true (List.all_eq_true.1 h t m)] at e
  exact Park.noConfusion e

theorem mayFill_of {s : State} {o : Out} {line : Nat} (h : o.fills line = true)
    (a : s.ownedOver o.owners o.id line = false) (b : s.ownFlight o.owners o.id line = false) (f : s.flight = []) :
    s.mayFill o line := ⟨h, a, b, by simp [f]⟩

theorem witness_MemoryStepResults :
    (∀ o, (sOut o).acquiresClear) ∧ sRed.acquiresClear ∧
    (∀ p ∈ ([(OutKind.load false none, [0]), (.load true none, [0, 64])] : List (OutKind × List Nat)),
      let l := accAt 0x1000 (4 * p.2.length) p.2
      let o := opOf' 0 p.1 l
      let s := sOut o
      s.redBuf = [] ∧ o.late = [] ∧ s.overdue o = false ∧ s.out? s.arg.a = some o ∧ o.lanes.all (s.laneReady o) = true ∧
        s.loadOrder o = false ∧ s.thread? 1 = some t0 ∧ 1 ∈ o.owners ∧ o.lanes = [l] ∧ l.place = .mem 0x1000 1 0 ∧
        isHost 0x1000 = false ∧ isPeer 0x1000 = false ∧ p.2.Nodup ∧ l.dest[0]? = some 0 ∧
        (∀ x ∈ p.2, t0.f ≤ x % 64 ∧ x % 64 < t0.f + t0.width)) ∧
    (let l := accAt 0x1000 8 []
     let o := opOf' 0 (.load true (some 20)) l
     let s := sOut o
     s.redBuf = [] ∧ o.late = [] ∧ s.overdue o = false ∧ s.out? s.arg.a = some o ∧ o.lanes = [l] ∧ s.laneReady o l = true ∧
       s.loadOrder o = false ∧ s.thread? 1 = some t0 ∧ o.owners = [1] ∧ l.size ≤ 8 ∧ s.locked t0 20 = false) ∧
    (let o := opOf' 1 .store (accAt 0x1000 4 [])
     let s := sOut o
     s.out? s.arg.a = some o ∧ o.cls = 1 ∧ s.flight = [] ∧ s.redBuf = [] ∧ s.timesOpen o.id = false ∧
       s.thread? 1 = some t0 ∧ 1 ∈ o.owners) ∧
    (∀ k ∈ [OutKind.atom 9, .cas], let l := accAt 0x1004 4 [64]
     let o := opOf' 2 k l
     let s := sOut o
     s.redBuf = [] ∧ o.late = [] ∧ s.overdue o = false ∧ s.out? s.arg.a = some o ∧ o.cls = 2 ∧ o.olds = none ∧ o.lanes = [l] ∧
       l.place = .mem 0x1004 1 0 ∧ isPeer 0x1004 = false ∧ isHost 0x1004 = false ∧ l.size = 4 ∧ 0x1004 % 4 = 0 ∧
       s.earlierLoads o.owners o.id = false ∧ s.atomWaits o (lineOf 0x1004) = false ∧ s.flight = [] ∧
       s.pends (lineOf 0x1004) = [] ∧ s.timesOpen o.id = false ∧ s.tagReads (lineOf 0x1004) 1 = true ∧
       s.thread? 1 = some t0 ∧ o.owners = [1] ∧ l.dest = [64] ∧ t0.f = 0 ∧ 0 < t0.width) ∧
    sFly.redBuf = [] ∧ sFly.flight.find? (fun x => x.id == sFly.arg.a) = some (writeOf (.bytes [(4, 1), (5, 2)])) ∧
    sFly.mayArrive (writeOf (.bytes [(4, 1), (5, 2)])) = true ∧ isPeer 0x1000 = false ∧ 0x1000 % 128 = 0 ∧
    (∀ x ∈ [(lineA, 49), (lineA, 50), (lineP, 50)], let s := { sPend x.2 with lines := [(0x1000, x.1)] }
      lookup s.lines s.arg.a = some x.1 ∧ (x.1.pend.flatMap (fun w => w.bytes.map (·.1))).Nodup ∧
        (∀ w ∈ x.1.pend, ∀ e ∈ w.bytes, e.1 < 128) ∧ x.1.pend.map (fun w => decide (w.cfar ≤ s.time)) = [decide (x.2 = 50)] ∧
        x.1.pend.map (·.probes) = [if x.1 = lineP then [4] else []]) ∧
    sRed.redBuf = [redA] ∧ redA.core = sRed.arg.a ∧ redA.line = sRed.arg.b ∧ redA.line % 128 = 0 ∧
    sRed.mergeable redA = true ∧ sRed.tagReads 0x1000 1 = true ∧ 124 + 4 ≤ 128 ∧
    (∀ x ∈ [(0, 0x1000, 0), (12, 0x1000, 0), (0, 0x8000000000000, 128)], let s := sLine x.1 x.2.1 (List.replicate x.2.2 0)
      s.redBuf = [] ∧ x.2.1 = lineOf s.arg.b ∧ s.out? s.arg.a = some (fillOp x.1 x.2.1) ∧ s.mayFill (fillOp x.1 x.2.1) x.2.1 ∧
        s.fillable x.1 x.2.1 = true ∧ fillsL1 (fillOp x.1 x.2.1).cache = true ∧
        leasedHere x.1 x.2.1 = decide (x.1 = 12 ∨ x.2.2 = 128) ∧ isPeer x.2.1 = decide (x.2.2 = 128) ∧
        s.arg.bytes.length = x.2.2) := by
  refine ⟨fun _ => acquiresClear_of rfl, acquiresClear_of rfl, by decide, by decide, by decide, by decide, by decide, by decide,
    by decide, by decide, by decide, by decide, by decide, by decide, by decide, by decide, by decide, by decide, by decide, ?_⟩
  intro x m
  obtain rfl | rfl | rfl : x = (0, 0x1000, 0) ∨ x = (12, 0x1000, 0) ∨ x = (0, 0x8000000000000, 128) := by simpa using m
  all_goals exact ⟨by decide, by decide, by decide, mayFill_of (by decide) (by decide) (by decide) rfl, by decide⟩

/-- The table of context 0x1001: the sixteen leaves of the region at 0x10000, with U, R and W. -/
def leafA (i : Nat) : Nat := 0x600D9 + 0x1000 * i
def sTab : State := { State.reset with
  ctxRoot := 0x8000, time := 10, arg := { EvArg.zero with a := 3 }
  tags := [(0x8000, (0, 1)), (0x40000, (0, 1)), (0x48000, (0, 1)), (0x50000, (0, 1)), (0x58080, (0, 1))]
  mem := listed 0x8008 (leBytes 8 0x40001) ++ listed 0x40000 (leBytes 8 0x48001) ++ listed 0x48000 (leBytes 8 0x50001) ++
    listed 0x50000 (leBytes 8 0x58001) ++ listed 0x58080 ((List.range 16).flatMap (fun i => leBytes 8 (leafA i))) }
def walkA (va access : Nat) : Walk :=
  { id := 3, core := 0, ctx := 0x1001, sup := false, va := va, access := access, others := [], svmode := false, stale := false, fault := none
    use := .demand, found := none }
def sWalk (w : Walk) : State := { sTab with walks := [w] }
/-- A request of a walk at its queue, tag 9, and an answer with leaf v. -/
def sAns (use : WalkUse) (status leaf : Nat) : State := { sHq [recH 4 2 (some 0) (some 3)] with
  walks := [{ walkA 0x10000 1 with use := use }], arg := { EvArg.zero with w := .sup 0, bytes := leBytes 8 (9 + status * 2 ^ 16) ++ leBytes 8 leaf } }
/-- The state of a query for region 5 of a context, while the counter of context 0x1001 stands. -/
def sQuery (ctx : Nat) : State := { State.reset.setDie 0 { Die.reset with counters := [⟨0x1001, 5, 77, true⟩] } with
  arg := { EvArg.zero with w := .sup 0, bytes := fieldBytes 16 [(0, 4, ctx), (8, 8, 5)] } }
def sFill : State := { with1 { t0 with pc := 0x10080 } with
  tlb := [{ page 0x10000 0x60000 with mt := 0 }], arg := { EvArg.zero with a := 0, b := 0, c := 342, v := 0x1001 } }

theorem witness_TranslationStepResults :
    (∀ p ∈ [(0x10000, 0, 0), (0x1FFFF, 1, 15)], let w := walkA p.1 p.2.1
      let s := sWalk w
      s.walks.find? (fun x => x.id == s.arg.a) = some w ∧ w.svmode = false ∧ w.open_ = true ∧ w.use ≠ .check ∧ w.stale = false ∧
        s.walkOn (dieOf w.core) w.ctx w.va = .leaf (leafA p.2.2) (0x58080 + 8 * p.2.2) 0) ∧
    (∀ u ∈ [WalkUse.demand, .prefetch], let w := { walkA 0x20000 0 with use := u }
      let s := sWalk w
      s.walks.find? (fun x => x.id == s.arg.a) = some w ∧ w.svmode = false ∧ w.open_ = true ∧ w.use ≠ .check ∧ w.stale = false ∧
        s.walkOn (dieOf w.core) w.ctx w.va = .fault 1 ∧ w.others = []) ∧
    (∀ u ∈ [WalkUse.demand, .check], ∀ p ∈ [(0, 0x600D9), (1, 0), (2, 0), (0, 0)], let s := sAns u p.1 p.2
      let w : Walk := { walkA 0x10000 1 with use := u }
      let word := leNat (s.arg.bytes.take 8)
      s.mayAnswer s.arg.w = true ∧ s.request (12 * s.arg.a) 0x04 (bits word 0 16) = some (recH 4 2 (some 0) (some 3)) ∧
        s.walks.find? (fun x => some x.id == (recH 4 2 (some 0) (some 3)).poster) = some w ∧ w.stale = false ∧
        bits word 26 38 = 0 ∧ bits word 24 2 < 3 ∧ bits word 16 8 ≤ 2 ∧ leNat ((s.arg.bytes.drop 8).take 8) = p.2 ∧
        ((s.answerFault w (bits word 16 8) (bits word 24 2) p.2).isNone = (p.2 != 0))) ∧
    (∀ c ∈ [0x1001, 0x1002], let s := sQuery c
     isSupervisor s.arg.w = true ∧ leNat (s.arg.bytes.take 4) = c ∧ leNat ((s.arg.bytes.drop 8).take 8) = 5 ∧
       (s.die s.arg.a).counters.find? (fun x => x.ctx == BitVec.ofNat 32 c && x.region == 5)
         = if c = 0x1001 then some ⟨0x1001, 5, 77, true⟩ else none) ∧
    (∀ c ∈ ((sQuery 0x1002).die 0).counters, c.ctx ≠ 0x1002 ∨ c.region ≠ 5) ∧
    sFill.redBuf = [] ∧ sFill.arg.c = 342 ∧ sFill.arg.v.setWidth 32 = (0x1001 : W32) ∧
    sFill.wantsBlock sFill.arg.a sFill.arg.b 0x1001 sFill.arg.flag (192 * 342) = true ∧
    (∀ i < 48, sFill.translate sFill.arg.a 0x1001 sFill.arg.flag (192 * 342 + 4 * i) accFetch
        = .ok (0x60000 + (192 * 342 - 0x10000) + 4 * i) 1 0 ∧
      sFill.owned (lineOf (0x60000 + (192 * 342 - 0x10000) + 4 * i)) = false) := by decide

/-- Packets of a peer, a frame of the device exported at page 1 of its window, and a host's bytes at the end of a line. -/
def pktA (kind : BitVec 3) (lanes : List (Nat × Nat × Nat)) : PeerPacket := ⟨2, 6, kind, 1, 4, lanes⟩
def sOutside (p : PeerPacket) (fill : Bool) (seen : List (Nat × Nat)) : State := { State.reset with
  exports := [(1, 0x1000)], peerSeen := seen, tags := [(0x1000, (0, 1))]
  arg := { EvArg.zero with a := 0x107E, b := 2, bytes := [1, 2], pkt := p, flag := fill } }
/-- A host's read of BAR 0 or, where port is set, through the port path; of memory; of the launch window. -/
def sRead (window : Nat) (bar port : Bool) : State := { State.reset with
  arg := { EvArg.zero with a := 0x107E, b := 4, c := window, flag := bar, flag2 := port } }
/-- Operations on lines of a peer's window, issued at 0; the packet of the first has no reply. -/
def peerPa : Nat := 0x8000000000000
def peerOp (cls n : Nat) : Out :=
  { outOf 3 cls with lanes := (List.range n).map (fun i => ⟨2 + i, .mem (peerPa + 128 * i) 0 0, 4, [], 0, 0, 0⟩) }
def sPeer (cls n time : Nat) (t : Thread) : State := { sFree t 3 with
  outs := [peerOp cls n], time := time, arg := { EvArg.zero with a := 3, b := peerPa }
  flight := if cls = 1 then [{ writeOf (.bytes []) with line := peerPa }] else [] }
def tPeer : Thread := { t0 with park := .peer 3 false }
def sCpPeer : State :=
  { sCp [tBusy] [{ cpA [0] with desc := [peerPa, 2048, 0x100000008, 32, 32, 0xC6, 0, 0].map (BitVec.ofNat 64), sup := true }] with
    time := 12000 }

theorem witness_OutsideAccessResults :
    (let s := sOutside (pktA 0 []) false []
     s.redBuf = [] ∧ s.proofs = [] ∧ s.reachable (lineOf s.arg.a) = true ∧ s.homeReady (lineOf s.arg.a) = true ∧
       s.arg.a % 128 + s.arg.bytes.length = 128 ∧ s.arg.bytes[1]? = some 2) ∧
    (sRead 1 false false).arg.c = 1 ∧
    (∀ port ∈ [false, true], let s := sRead 0 true port
      s.arg.c ≠ 1 ∧ s.arg.flag = true ∧ s.portRefuses = port) ∧
    (let s := sRead 0 false false
     s.arg.c ≠ 1 ∧ s.arg.flag = false ∧ s.redBuf = [] ∧ linesOfRange s.arg.a s.arg.b = [0x1000, 0x1080] ∧
       ∀ l ∈ linesOfRange s.arg.a s.arg.b, s.reachable l = true ∧ s.homeReady l = true) ∧
    (let s := sOutside (pktA 0 [(0x2004, 5, 0)]) false []
     s.exported s.arg.pkt.lanes = none) ∧
    (∀ k ∈ ([0, 1, 2] : List (BitVec 3)), ∀ fill ∈ [false, true], ∀ seen ∈ [[], [(2, 6)]],
      let s := sOutside (pktA k [(0x1004, 5, 0)]) fill seen
      s.redBuf = [] ∧ s.boot.minimal = false ∧ s.exported s.arg.pkt.lanes = some [(0x1004, 5, 0)] ∧
        s.reachable (lineOf 0x1004) = true ∧ s.homeReady (lineOf 0x1004) = true ∧
        decide ((s.arg.pkt.peer, s.arg.pkt.seq) ∈ s.peerSeen) = (seen != []) ∧ s.arg.pkt.kind = k ∧ s.arg.flag = fill ∧
        s.fillable outside (lineOf 0x1004) = true ∧ s.proofs = [] ∧ s.arg.pkt.size = 4 ∧ 0x1004 % 128 + 4 ≤ 128 ∧ 0x1004 % 4 = 0 ∧
        s.tagReads (lineOf 0x1004) (s.outsideKey (lineOf 0x1004)) = true) ∧
    (let s := sPeer 0 1 11999 tPeer
     s.cpy? s.arg.a = none ∧ s.out? s.arg.a = some (peerOp 0 1) ∧ s.time < (peerOp 0 1).issued + 12000) ∧
    (∀ n ∈ [1, 2], let o := peerOp 0 n
     let s := sPeer 0 n 12000 tPeer
     s.cpy? s.arg.a = none ∧ s.out? s.arg.a = some o ∧ lineOf s.arg.b = peerPa ∧ o.issued + 12000 ≤ s.time ∧
       isPeer peerPa = true ∧ peerPa ∉ o.late ∧ o.cls = 0 ∧ o.olds = none ∧ peerPa ∈ o.linesOf ∧
       s.leaseFor o.core peerPa = none ∧ decide (({ o with late := o.late ++ [peerPa] } : Out).answered = []) = decide (n = 1) ∧
       s.threads = [tPeer] ∧ tPeer.park = .peer o.id false ∧ tPeer.susp = none ∧ 0 < (s.core tPeer.core).hq.free) ∧
    (let o := peerOp 1 1
     let s := sPeer 1 1 12000 t0
     s.cpy? s.arg.a = none ∧ s.out? s.arg.a = some o ∧ lineOf s.arg.b = peerPa ∧ o.issued + 12000 ≤ s.time ∧
       isPeer peerPa = true ∧ peerPa ∉ o.late ∧ o.cls = 1 ∧ (∃ w ∈ s.flight, w.out = o.id ∧ w.line = peerPa) ∧
       (∀ id ∈ o.owners, id < laneNumber) ∧ s.thread? 1 = some t0 ∧ 1 ∈ o.owners) ∧
    (sPeer 1 1 12000 t0).acquiresClear ∧
    (∃ c, sCpPeer.cpy? sCpPeer.arg.a = some c ∧ c.since + 12000 ≤ sCpPeer.time ∧ c.replay = none ∧ c.waiting = false ∧
      sCpPeer.copyPeer c = true) ∧
    (∀ c ∈ [ctxA, { ctxA with dead := true }], let s := { sMb t0 c with arg := { EvArg.zero with a := 47, v := 0x1001 } }
      s.ctx? (s.arg.v.setWidth 32) = some c ∧ s.arg.a < s.cores.length) ∧ ctxA.dead = false := by
  refine ⟨by decide, by decide, by decide, by decide, by decide, by decide, by decide, by decide, by decide,
    acquiresClear_of rfl, ⟨_, rfl, by decide⟩, by decide, by decide⟩

/-! ## Registers, keys, contexts -/

/-- A group of stack limit 256 and depth 96 that trapped on its way to WP 40. -/
def tStk : Thread :=
  { tC with lim := 256, wpNext := 40, park := .records }
def sStk : State := withHq [tStk] (hqA [{ recH 1 1 none (some 1) with bytes := fieldBytes 64 [(8, 1, vSpill), (9, 1, 0x30)] }])
def sCpAns : State := { withHq [t0] (hqA [recH 7 2 (some 0) (some 3)]) with
  cpys := [{ cpA [] with replay := some 5 }], arg := { EvArg.zero with w := .sup 0, bytes := leBytes 8 9 ++ leBytes 8 1 } }

/-- A store of v by a writer to a register of die 0. -/
def sStore (w : Writer) (v : Nat) : State := { State.reset with arg := { EvArg.zero with w := w, v := BitVec.ofNat 64 v } }
/-- A start whose first stage runs. -/
def startA : Boot := { Boot.reset with startSeq := 1 }
def sFirst (w : Writer) (v : Nat) : State := { sStore w v with boot := startA }
/-- FMODE of die 0 under change to v. -/
def sMode (v : W32) (s : State) : State := s.setDie 0 { Die.reset with fmodeNew := some v }
/-- A store of bytes to an offset of the control block of die 0, or of the management window. -/
def sReg (w : Writer) (off : Nat) (bs : List Byte) (port : Bool) : State :=
  { State.reset with arg := { EvArg.zero with w := w, b := off, bytes := bs, flag2 := port } }
/-- A proctor lane of core 0, and a store to its RUN bit. -/
def sRun (p : Proctor) (v : Nat) : State := { sStore (.sup 0) v with
  cores := { Core.reset with proctor := p } :: List.replicate 47 Core.reset }
def sRaise (started : Bool) (v : Nat) : State := { sStore .host v with
  boot := { Boot.reset with proctorsStarted := started, fusedMin := 4 } }

theorem witness_RegisterStoreResults_mode :
    (∀ w ∈ [Writer.proctor 12, .sup 0, .user], (sFirst w 1).mayFmode w (sFirst w 1).arg.a = false) ∧
    (∀ w ∈ [Writer.proctor 11, .host, .firstStage], (sFirst w 1).mayFmode (sFirst w 1).arg.w (sFirst w 1).arg.a = true ∧
      ((sFirst w 1).die (sFirst w 1).arg.a).fmodeNew = none) ∧
    (sMode 1 (sFirst .host 1)).mayFmode (sMode 1 (sFirst .host 1)).arg.w (sMode 1 (sFirst .host 1)).arg.a = true ∧
    ((sMode 1 (sFirst .host 1)).die (sMode 1 (sFirst .host 1)).arg.a).fmodeNew ≠ none :=
  ⟨by decide, by decide, by decide, by decide⟩

theorem witness_RegisterStoreResults_change :
    (let s := { sMode 1 (sWalk (walkA 0 0)) with arg := EvArg.zero }
     (s.die s.arg.a).fmodeNew = some 1 ∧ (0 : Nat) < 6 ∧ (s.die s.arg.a).fmode.getLsbD 0 ≠ (1 : W32).getLsbD 0 ∧
       s.modeBusy s.arg.a 0 = true) ∧
    (∀ n ∈ [0, 1, 0x3F], let v : W32 := BitVec.ofNat 32 n
      let s := sMode v (sStore .host 0)
      (s.die s.arg.a).fmodeNew = some v ∧ (s.die s.arg.a).fmode = 0 ∧ (∀ fn < 6, s.modeBusy s.arg.a fn = false) ∧
        v.getLsbD 2 = decide (n = 0x3F) ∧ (s.die s.arg.a).fmode.getLsbD 2 = false) :=
  ⟨by decide, by decide⟩

theorem witness_RegisterStoreResults :
    isSupervisor (sStore .user 1).arg.w = false ∧ isSupervisor (sStore .host 1).arg.w = false ∧
    isSupervisor (sStore (.sup 0) 1).arg.w = true ∧ isSupervisor (sStore (.proctor 3) 1).arg.w = true ∧
    (∀ v ∈ [1200, 2600], (sStore (.sup 0) v).arg.v.toNat = v ∧ 1200 ≤ v % 4096 ∧ v % 4096 ≤ 2600) ∧
    (∀ v ∈ [1199, 2601], (sStore (.sup 0) v).arg.v.toNat = v ∧ ¬ (1200 ≤ v % 4096 ∧ v % 4096 ≤ 2600)) ∧
    (∀ v ∈ [50, 1000000], (sStore (.sup 0) v).arg.v.toNat = v ∧
      50 ≤ v % 2 ^ 32 ∧ v % 2 ^ 32 ≤ 1000000) ∧
    (∀ v ∈ [49, 1000001], (sStore (.sup 0) v).arg.v.toNat = v ∧
      ¬ (50 ≤ v % 2 ^ 32 ∧ v % 2 ^ 32 ≤ 1000000)) ∧
    (sStore (.sup 0) 1).arg.v = 1 ∧ (sStore (.sup 0) 1).boot.startok = false ∧ (sStore (.sup 0) 1).boot.minimal = false ∧
    (sStore (.sup 0) 0).arg.v ≠ 1 := by decide

/-- The group's stack control entry, written with v. -/
def sRbase (v : Nat) : State := { sStk with arg := { EvArg.zero with w := .sup 0, v := BitVec.ofNat 64 v } }

theorem witness_RegisterStoreResults_stack :
    (∀ v ∈ [8, 40], isSupervisor (sRbase v).arg.w = true ∧
      (sRbase v).stackEntry (sRbase v).arg.a (sRbase v).arg.b = some tStk ∧ (sRbase v).atStackTrap tStk = true ∧
      (sRbase v).arg.v.toNat = v ∧ v % 8 = 0 ∧ v + tStk.dres ≤ tStk.lim ∧ v ≤ tStk.wpNext ∧
      tStk.wpNext + 64 ≤ v + tStk.dres) ∧
    (∀ v ∈ [0, 48], tStk.wpNext < v ∨ v + tStk.dres < tStk.wpNext + 64) ∧
    (let s := { s0 with arg := { EvArg.zero with w := .sup 0 } }
     isSupervisor s.arg.w = true ∧ s.stackEntry s.arg.a s.arg.b = some t0 ∧ s.atStackTrap t0 = false) :=
  ⟨by decide, by decide, by decide⟩

theorem witness_RegisterStoreResults_lanes :
    (∀ v ∈ [1, 2], let p : Proctor := { Proctor.reset with started := true, epc := 12 }
      let s := sRun p v
      isSupervisor s.arg.w = true ∧ (s.core s.arg.a).proctor = p ∧ p.run = false ∧ p.started = true ∧
        s.arg.v.getLsbD 0 = decide (v = 1)) ∧
    sCpAns.mayAnswer sCpAns.arg.w = true ∧
    sCpAns.request (12 * sCpAns.arg.a) 0x07 (leNat (sCpAns.arg.bytes.take 8)) = some (recH 7 2 (some 0) (some 3)) ∧
    leNat ((sCpAns.arg.bytes.drop 8).take 1) ≤ 1 ∧ leNat ((sCpAns.arg.bytes.drop 9).take 7) = 0 ∧
    (sCpAns.cpys.find? (fun c => (recH 7 2 (some 0) (some 3)).poster == some c.id && c.replay.isSome)).isSome = true :=
  ⟨by decide, by decide, by decide, by decide, by decide, by decide⟩

theorem witness_RegisterStoreResults_fields :
    (∀ x ∈ [(0x1240, 1), (0x1240, 255), (0x240, 1), (0x240, 65535)],
      isSupervisor (sReg (.sup 0) x.1 (leBytes 8 x.2) false).arg.w = true ∧
      (sReg (.sup 0) x.1 (leBytes 8 x.2) false).arg.b = x.1 ∧
      (sReg (.sup 0) x.1 (leBytes 8 x.2) false).arg.bytes.length = 8 ∧
      leNat (sReg (.sup 0) x.1 (leBytes 8 x.2) false).arg.bytes = x.2 ∧ 1 ≤ x.2 % 256 ∧ 1 ≤ x.2 % 65536) ∧
    (∀ port ∈ [false, true], (sReg .host 0x1FFFF0 (List.replicate 16 7) port).arg.w = .host ∧
      (sReg .host 0x1FFFF0 (List.replicate 16 7) port).portRefuses = port ∧
      (sReg .host 0x1FFFF0 (List.replicate 16 7) port).arg.b = 0x1FFFF0) ∧
    0x100000 ≤ 0x1FFFF0 ∧ 0x1FFFF0 + (List.replicate 16 (7 : Byte)).length ≤ 0x200000 ∧
    (sReg .user 0 [] false).arg.w = .user ∧
    (∀ x ∈ [(true, 5), (true, 4), (false, 5)], (sRaise x.1 x.2).boot.proctorsStarted = x.1 ∧
      (sRaise x.1 x.2).boot.fusedMin.ult ((sRaise x.1 x.2).arg.v.setWidth 32) = decide (x.2 = 5)) :=
  ⟨by decide, by decide, by decide, by decide, by decide, by decide⟩

/-- A context create for slot 2 with a ring and an inbox page, and one of MEMDEF for 0x1001. -/
def createA : List Byte :=
  fieldBytes 64 [(0, 1, 1), (1, 1, 3), (4, 4, 2), (8, 4, 16), (16, 8, 0x2000000000000), (24, 8, 0x2FFFFFFFFFFF8), (40, 8, 0x2000)
    , (48, 2, 0xFFFF), (50, 2, 0xFFFF)]
def memdefA : List Byte := fieldBytes 64 [(0, 1, 2), (4, 4, 0x1001), (12, 4, 0x20)]
def sCtx (c : Ctx) (b : List Byte) : State := { sMb t0 c with
  keys := [(0, ⟨0, 1, true, 1⟩), (1, ⟨5, 1, true, 1⟩)], arg := { EvArg.zero with w := .sup 0, bytes := b, v := 0x1001 } }
def bootRec (stage : Nat) : List Byte := fieldBytes 64 [(0, 4, 0x42524B44), (4, 2, 1), (6, 1, stage)]
def sBoot (b : Boot) (w : Writer) (v : Nat) (bs : List Byte) : State := { State.reset with
  boot := b, arg := { EvArg.zero with w := w, v := BitVec.ofNat 64 v, bytes := bs } }
def doneBoot : Boot := { startA with startok := true, reported := true }
def minimalA (m : Bool) (st : Nat) : State := { State.reset with
  boot := { Boot.reset with minimal := m, startok := true }
  mw := { MgmtWin.reset with maintOff := 0x100000, maintLen := 0x100000, maintStat := st } }

/-- A quote under way for the device at an address, for a host, or for both. -/
def sQuote (dev host pick : Bool) : State := { State.reset with
  qPending := if dev then some (0x1040, 5) else none, mw := { MgmtWin.reset with quoteNonce := if host then some 5 else none }
  arg := { EvArg.zero with flag := pick } }

theorem witness_SecurityAndContextResults :
    (∀ w ∈ [Writer.sup 0, .proctor 3, .firstStage], ∀ v ∈ [0, 5, 7, 8], let s := sBoot startA w v []
      s.mayMeasure s.arg.w = true ∧ s.boot.startok = false ∧ s.arg.v.toNat = v) ∧
    (∀ v ∈ [5, 6], let s := sBoot doneBoot (.sup 0) v []
      s.mayMeasure s.arg.w = true ∧ s.boot.startok = true ∧ s.arg.v.toNat = v) ∧
    (∀ v ∈ [0x1020, 0x1040], let s := sStore (.sup 0) v
      s.mayMeasure s.arg.w = true ∧ s.qPending = none ∧ decide (s.arg.v.toNat % 64 = 0) = decide (v = 0x1040)) ∧
    (let s := { sStore (.sup 0) 0x1040 with qPending := some (0x1040, 5) }
     s.mayMeasure s.arg.w = true ∧ s.qPending ≠ none) ∧
    (sStore .host 1).arg.v = 1 ∧ (sStore .host 1).mw.quoteNonce = none ∧ (sStore .host 0).arg.v ≠ 1 ∧
    (sQuote false true false).mw.quoteNonce = some 5 ∧ (sQuote false true false).qPending = none ∧
    (sQuote true true true).mw.quoteNonce = some 5 ∧ (sQuote true true true).arg.flag = true ∧
    (sQuote true false false).qPending = some (0x1040, 5) ∧ (sQuote true false false).mw.quoteNonce = none ∧
    (sQuote true true false).qPending = some (0x1040, 5) ∧ (sQuote true true false).arg.flag = false ∧
    inMemory 0x1040 = true ∧
    (∀ w ∈ [Writer.sup 0, .firstStage], ∀ st ∈ [0, 2], let s := sBoot startA w 0 (bootRec st)
      s.mayMeasure s.arg.w = true ∧ s.arg.bytes.length = 64 ∧ leNat ((s.arg.bytes.drop 6).take 1) = st ∧
        leNat (s.arg.bytes.take 4) = 0x42524B44 ∧ leNat ((s.arg.bytes.drop 4).take 2) = 1 ∧ s.boot.startok = false ∧
        s.boot.reported = false) ∧
    (let s := sBoot doneBoot (.sup 0) 0 (bootRec 2)
     s.mayMeasure s.arg.w = true ∧ s.arg.bytes.length = 64 ∧ s.boot.startok = true ∧ s.boot.reported = true) ∧
    State.reset.hostMayClaim = true ∧ (minimalA false 0).hostMayClaim = false ∧ (minimalA true 0).hostMayClaim = true ∧
    (∀ m ∈ [false, true], let s := minimalA m 0
      s.mw.maintStat ≠ 1 ∧ s.boot.minimal = m ∧ s.mw.maintOff.toNat % 4096 = 0 ∧ s.mw.maintLen.toNat % 4096 = 0 ∧
        s.mw.maintLen.toNat ≤ 0x100000 ∧ inSlots s.mw.maintOff.toNat s.mw.maintLen.toNat = true) ∧
    (minimalA true 1).mw.maintStat = 1 := by
  refine ⟨by decide, by decide, by decide, by decide, by decide, by decide, by decide, rfl, by decide, rfl,
    by decide, rfl, rfl, rfl, by decide, by decide, by decide, by decide, by decide, by decide, by decide, by decide, by decide⟩

theorem witness_SecurityAndContextResults_contexts :
    (let s := sCtx ctxA createA
     isSupervisor s.arg.w = true ∧ leNat (s.arg.bytes.take 1) = 1 ∧ leNat ((s.arg.bytes.drop 4).take 4) % 4096 = 2 ∧
     createMalformed s.arg.bytes = false ∧ (∀ c ∈ s.ctxs, slotOfCtx c.ident ≠ 2) ∧ lookup s.keys 2 = none ∧
     (0 : Nat) < 0xFFFFF ∧ leNat ((s.arg.bytes.drop 48).take 2) = 0xFFFF ∧ leNat ((s.arg.bytes.drop 50).take 2) = 0xFFFF ∧
     s.pageTaken 0xFFFF = false ∧ leNat ((s.arg.bytes.drop 40).take 8) = 0x2000 ∧ 0x2000 % 4096 = 0 ∧
     regionOf 0x2000 = .hbm 0 ∧ leNat ((s.arg.bytes.drop 56).take 8) = 0) ∧
    (∀ c ∈ [ctxA, { ctxA with dead := true }], let s := sCtx c memdefA
      isSupervisor s.arg.w = true ∧ leNat (s.arg.bytes.take 1) = 2 ∧ leNat ((s.arg.bytes.drop 1).take 3) = 0 ∧
        leNat ((s.arg.bytes.drop 8).take 4) = 0 ∧ leNat ((s.arg.bytes.drop 16).take 48) = 0 ∧
        s.ctx? (BitVec.ofNat 32 (leNat ((s.arg.bytes.drop 4).take 4))) = some c) ∧
    (let s := sCtx ctxA (fieldBytes 16 [(0, 4, 0x1001), (4, 1, 1), (8, 8, 0x1040)])
     s.mayMeasure s.arg.w = true ∧ leNat ((s.arg.bytes.drop 4).take 1) = 1 ∧ sealMalformed s.arg.bytes = false ∧
       leNat (s.arg.bytes.take 4) = 0x1001 ∧ s.liveCtx 0x1001 = true ∧ lookup s.keys (slotOfCtx 0x1001) = some ⟨5, 1, true, 1⟩ ∧
       leNat ((s.arg.bytes.drop 8).take 8) = 0x1040 ∧ inMemory 0x1040 = true) ∧
    (∀ started ∈ [false, true], let s := { sCtx ctxA (fieldBytes 16 [(4, 1, 2), (8, 8, 0x1040)]) with
        boot := { Boot.reset with proctorsStarted := started } }
      s.mayMeasure s.arg.w = true ∧ leNat ((s.arg.bytes.drop 4).take 1) = 2 ∧ sealMalformed s.arg.bytes = false ∧
        s.boot.proctorsStarted = started ∧ lookup s.keys 0 = some ⟨0, 1, true, 1⟩) := by decide

theorem witness_SecurityAndContextResults_teardown :
    (∀ st ∈ [0, 1, 6, 7], let s := { sCtx ctxA [] with tdStep := st }
      isSupervisor s.arg.w = true ∧ s.arg.v.toNat < 2 ^ 32 ∧ slotOfCtx (s.arg.v.setWidth 32) ≠ 0 ∧ s.tdStep = st ∧
        s.ctx? (s.arg.v.setWidth 32) = some ctxA ∧ ctxA.dead = false) ∧
    (∀ n ∈ [1, 2, 3, 4], let s := { sCtx { ctxA with dead := true } [] with tdStep := n, tdId := 0x1001 }
     s.tdStep = n ∧ s.ctx? s.tdId = some { ctxA with dead := true } ∧ s.redBuf = [] ∧
       ∀ w ∈ s.flight, w.key ≠ slotOfCtx s.tdId) ∧
    (let s := { sCtx { ctxA with dead := true } [] with tdStep := 5, tdId := 0x1001 }
     s.tdStep = 5 ∧ s.redBuf = [] ∧ (∀ w ∈ s.flight, w.key ≠ slotOfCtx s.tdId) ∧ s.tdWait = []) := by decide

/-! ## The device -/

def stageAt (stage start : Nat) : Boot := { startA with stage := stage, stageStart := start }
def sHot (st : Nat) (v : W64) (ts : List Thread) : State := { with1 t0 with
  threads := ts, dies := { Die.reset with stopping := st, stopTemp := 920 } :: List.replicate 3 Die.reset
  arg := { EvArg.zero with a := 0, v := v } }
def sCool (cool : Bool) : State := { State.reset with
  dies := { Die.reset with stopped := true, stopping := 2, cool := cool } :: List.replicate 3 Die.reset
  arg := { EvArg.zero with a := 0, v := 0x100, w := .sup 12 } }
/-- An input power, or a skew, and what stood before. -/
def sPower (n : Nat) (low : Bool) : State := { State.reset with clockLow := low, arg := { EvArg.zero with a := n } }
def sSkew (skew : W64) (reported : Nat) : State := { State.reset with
  ptpReported := reported, ptpBound := 50, arg := { EvArg.zero with v := skew } }

theorem witness_DeviceStepResults_stages :
    (∀ n ∈ [2, 3], ({ State.reset with boot := { startA with failCount := BitVec.ofNat 16 n } } : State).boot.failCount.toNat = n) ∧
    (∀ x ∈ [(0, 0), (1, 0), (1, 5)], let s := { State.reset with boot := stageAt x.1 x.2, time := x.2 + stageLimit x.1 }
      s.boot.failed = false ∧ s.boot.minimal = false ∧ s.boot.startok = false ∧ s.boot.startSeq ≠ 0 ∧
        s.time ≤ s.boot.stageStart + stageLimit s.boot.stage ∧ s.boot.stageStart + stageLimit s.boot.stage < s.time + 1) ∧
    (stageAt 1 0).firstStageRuns = true ∧ (stageAt 1 0).stage = 1 ∧ (stageAt 0 0).stage ≠ 1 ∧
    ({ stageAt 1 0 with failed := true } : Boot).firstStageRuns = false ∧
    State.reset.powerLost = none ∧
    (∀ x ∈ [(2600, false), (2600, true), (2601, false)], let s := sPower x.1 x.2
      decide (s.arg.a ≤ s.pwrCap) = decide (x.1 = 2600) ∧ s.clockLow = x.2 ∧ 3 < s.dies.length ∧ (s.die 3).stopping = 0) ∧
    (∀ x ∈ [(50, 0), (51, 51), (51, 0)], let s := sSkew (BitVec.ofNat 64 x.1) x.2
      s.arg.v.toNat % 2 ^ 32 = x.1 ∧ decide (s.ptpBound < x.1) = decide (x.1 = 51) ∧
        decide (s.ptpReported < x.1) = decide (x.2 = 0)) := by decide

theorem witness_DeviceStepResults_dies :
    (∀ x ∈ [(919, false), (920, true), (2048, false)], let s := sHot 0 (BitVec.ofNat 64 x.1) []
      (decide (920 ≤ (s.arg.v.setWidth 12 : BitVec 12).toInt) = x.2) ∧ (s.die s.arg.a).stopped = false ∧
        (s.die s.arg.a).stopping = 0 ∧ s.gangs = []) ∧
    ((sHot 1 0 [tSus 0]).die 0).stopping = 1 ∧ (∃ t ∈ (sHot 1 0 [tSus 0]).threads, dieOf t.core = 0 ∧ t.susp ≠ none) ∧
    (let s := sHot 1 0 [t0]
     (s.die s.arg.a).stopping = 1 ∧ s.arg.a < s.dies.length ∧ (∀ t ∈ s.threads, dieOf t.core = s.arg.a → t.susp = none) ∧
       (1 : Nat) ≠ s.arg.a ∧ (s.die 1).stopped = false ∧ (∀ e' < 1, e' = s.arg.a ∨ (s.die e').stopped = true) ∧ s.pressOps = []) ∧
    (∀ cool ∈ [false, true], let s := sCool cool
      isSupervisor s.arg.w = true ∧ s.arg.v = 0x100 ∧ (s.die s.arg.a).stopped = true ∧ (s.die s.arg.a).cool = cool ∧
        s.arg.a < s.dies.length ∧ s.threads = []) := by decide

def sTick (time : Nat) (p : Proctor) : State := { State.reset with
  time := time, cores := List.replicate 48 { Core.reset with proctor := p }, arg := { EvArg.zero with a := 47 } }
def pTick (b pien : BitVec 6) (ie : Bool) : Proctor :=
  { Proctor.reset with pipend := b, pien := pien, ie := ie, started := true, run := true }

theorem witness_DeviceStepResults_proctor :
    (∀ b ∈ [(0 : BitVec 6), 1], let s := sTick 1000 (pTick b 0x20 false)
      (s.core s.arg.a).proctor = pTick b 0x20 false ∧ (pTick b 0x20 false).tickT0 + (pTick b 0x20 false).ptick ≤ s.time ∧
        (pTick b 0x20 false).pipend.getLsbD 0 = decide (b = 1)) ∧
    (∀ x ∈ ([(1, 0x21, true, some 0), (0x21, 0x20, false, some 5), (0x10, 0x30, false, none), (0x10, 0x30, true, some 4)] :
        List (BitVec 6 × BitVec 6 × Bool × Option Nat)), let s := sTick 0 (pTick x.1 x.2.1 x.2.2.1)
      let k := s.core s.arg.a
      k.proctor = pTick x.1 x.2.1 x.2.2.1 ∧ k.proctor.run = true ∧ k.proctor.started = true ∧ k.proctor.park = .run ∧
        takenInput (k.pipend &&& k.proctor.pien &&& (if k.proctor.ie then 0x3F else 0x20)) = x.2.2.2 ∧
        decide (k.pipend &&& k.proctor.pien &&& (if k.proctor.ie then 0x3F else 0x20) = 0) = x.2.2.2.isNone) := by decide

def tSleep (k : Option Nat) (tok : Tok) : Thread := { t0 with park := .sleep 100 k, toks := [(0, tok)] }
def sSleep (k : Option Nat) (tok : Tok) (n : Nat) : State :=
  { with1 (tSleep k tok) with time := n, arg := { EvArg.zero with a := 1 } }
/-- An update of the status of die 3, with readings of its first core. -/
def sStatus (n : Nat) (temp : BitVec 12) (droop : Nat) (calm : Option Nat) : State := { State.reset with
  time := n, arg := { EvArg.zero with a := 3, readings := [(temp, droop)] }
  cores := List.replicate 48 { Core.reset with calmSince := calm } }
/-- A soft error. -/
def sError (e : SoftError) : State := { s0 with arg := { EvArg.zero with err := e }, boot := startA }

theorem witness_DeviceStepResults_sleep :
    (∀ k ∈ [none, some (0 : Nat)], ∀ tok ∈ [Tok.idle, .busy 4], ∀ n ∈ [99, 100],
      (sSleep k tok n).thread? (sSleep k tok n).arg.a = some (tSleep k tok) ∧ (tSleep k tok).park = .sleep 100 k ∧
        (tSleep k tok).tok 0 = tok) ∧
    (let s := sStatus 9999 0 0 none
     s.time < (s.die s.arg.a).plcAt + 10000) ∧
    (∀ p ∈ ([(761, 0, none), (703, 0, some 0), (703, 0, none), (703, 256, none)] : List (BitVec 12 × Nat × Option Nat)),
      let s := sStatus 200000 p.1 p.2.1 p.2.2
      (s.die s.arg.a).plcAt + 10000 ≤ s.time ∧ 36 = 12 * s.arg.a + 0 ∧ 36 < s.cores.length ∧
        s.arg.readings[0]? = some (p.1, p.2.1) ∧ (s.core 36).calmSince = p.2.2 ∧
        decide (760 < p.1.toInt ∨ (s.die s.arg.a).droopBnd < min 255 p.2.1) = decide (p.1 = 761 ∨ p.2.1 = 256) ∧
        decide (p.1.toInt < 704) = decide (p.1 = 703) ∧ (∀ t ∈ p.2.2, t + 200000 ≤ s.time)) ∧
    (∀ e ∈ [SoftError.store 1 5, .galley 0 128, .l2 0x1000, .mem 0x1800000000, .forme 47 2, .clean 0 0x1000, .directory 0x1000,
        .horizon 0x1000, .corrected 3], let s := sError e
      s.arg.err = e ∧ s.thread? 1 = some t0 ∧ 47 < s.cores.length ∧ homeDie 0x1800000000 < s.dies.length ∧ s.flight = [] ∧
        (s.core (12 * homeDie 0x1000)).hq.base = 0) ∧
    (∀ e ∈ [SoftError.store 1 5, .galley 0 128, .l2 0x1000, .forme 47 2], let s := sError e
      (s.errorCore s.arg.err).isSome = true ∧ s.boot.stage = 0 ∧ s.boot.firstStageRuns = true) := by
  refine ⟨by decide, by decide, by decide, by decide, by decide⟩

/-- A migration of the region at 0x10000 to frame 0x70000 in some step, on die 0. -/
def migA (step seq : Nat) : Mig :=
  { ctx := 0x1001, region := 0x10000, core := 0, step := step, oldPa := 0x60000, newPa := 0x70000
    leaves := (List.range 16).map (fun i => (0x58080 + 8 * i, leafA i)), seq := seq, status := 0 }
def sMig (m : Option Mig) (region count : Nat) : State := { sTab.setDie 0
  { Die.reset with migCur := m, migWait := [(0x1001, region, 0)], migCount := count, migAddr := 0x90000 } with arg := EvArg.zero }

theorem witness_MigrationResults :
    (∀ n ∈ [0, 1], ∀ region ∈ [0x10000, 0x20000], let s := sMig none region n
      let x := s.die s.arg.a
      s.arg.a < s.dies.length ∧ x.migCur = none ∧ x.migWait = [(0x1001, region, 0)] ∧ x.shootQ.length < 16 ∧ x.migCount = n) ∧
    (sMig none 0x20000 1).regionLeaves 0x1001 0x20000 = none ∧
    (∀ n ∈ [0, 1], (sMig none 0x10000 n).regionLeaves 0x1001 0x10000 = some (migA 0 0).leaves) ∧
    (∀ i < 16, (sMig none 0x10000 1).isPinned (oldPage (migA 0 0).leaves i) = false) ∧
    (let s := { sMig none 0x10000 1 with exports := [(0, 0x6F000)] }
     s.regionLeaves 0x1001 0x10000 = some (migA 0 0).leaves ∧ s.isPinned (oldPage (migA 0 0).leaves 15) = true) ∧
    (∀ q ∈ [0, 1], let s := sMig (some (migA 3 q)) 0 0
     s.arg.a < s.dies.length ∧ s.migAt s.arg.a 3 = some (migA 3 q) ∧ s.migShot s.arg.a (migA 3 q) = (q == 0)) ∧
    (sMig none 0 0).redBuf = [] ∧ (migA 3 0).newPa % 65536 = 0 ∧
    (let s := sMig (some (migA 4 0)) 0 0
     s.migAt s.arg.a 4 = some (migA 4 0) ∧ (s.die s.arg.a).shootQ.length < 16 ∧
       ∀ e ∈ (migA 4 0).leaves, s.loadNat e.1 0 8 = e.2) ∧
    (let m : Mig := { migA 4 0 with leaves := [(0x58080, 1)] }
     let s := sMig (some m) 0 0
     s.migAt s.arg.a 4 = some m ∧ (s.die s.arg.a).shootQ.length < 16 ∧ ∃ e ∈ m.leaves, s.loadNat e.1 0 8 ≠ e.2) ∧
    (∀ x ∈ [(7, 0), (6, 0), (6, 1), (4, 0)], let m := migA x.1 x.2
     let s := sMig (some m) 0 0
     (s.die s.arg.a).migCur = some m ∧ m.step = x.1 ∧ s.migShot s.arg.a m = (x.2 == 0)) := by
  refine ⟨by decide, by decide, by decide, by decide, by decide, by decide, by decide, by decide, by decide, by decide,
    by decide⟩

/-! ## Encodings and steps -/

/-- Instructions with every sort of prefix and extension are well formed. -/
theorem witness_DecodeOfEncodeIsTheInstruction : ∀ i ∈ ([.nop, .uadd (hx 95 0 0 false) 95 95 0, .fma (hx 6 0 2 false) 62 2 4 3,
    .ld (hm 1 2 .none) 8 4 0 2, .ld (hm 0 0 (.memx false true false true 0x80000)) 8 4 4 3, .iaddi { h0 with x := .immx 0xFFFFFF } 63 1 255] :
    List Instr), wellFormed i = true := by decide

theorem witness_EncodeOfDecodeIsTheWords : decodeWords [0x0F830000#32, 0x7E02010A#32, 5] =
    .ok (.ld (hm 1 0 .none) 8 1 2 2, 2) := rfl

theorem witness_WordsThatBeginNoInstructionAreRejected :
    (assigned 0xB0 = false ∧ opOf 0x7B000000 = 0xB0) ∧ opOf 0x0FA00000 = 0xFA ∧ opOf 0x0FB00000 = 0xFB ∧
    opOf 0x0FC00000 = 0xFC ∧ opOf 0x0FE00000 = 0xFE ∧
    mmodReserved ⟨1, 4, 0, 0, false⟩ = false ∧ lmodReserved ⟨false, 64⟩ = false := by decide

/-- The machine right after reset with UADD s5, s1, s2 placed, and a proctor lane at a mapped packet. -/
def sStep : State := State.reset.withFetchWord 32 0x7200A042
def hFE : Nat := 0xFE00000000000000
def sLane : State := { State.reset with
  turns := [.proctor 0], tags := [(0x60000, (0, 1))], mem := listed 0x60004 (leBytes 4 0x7200A042)
  tlb := [{ page hFE 0x60000 with ctx := 0x1000, u := false }]
  cores := { Core.reset with proctor := { Proctor.reset with pc := BitVec.ofNat 64 (hFE + 4), run := true, started := true } } ::
    List.replicate 47 Core.reset }

theorem witness_StepExecutesTheDecodedInstruction :
    sStep.tick.poweredOff = false ∧ sStep.agenda = [] ∧ sStep.turns = [.part 0 0] ∧
    (∃ t, { sStep.tick with turns := [] }.threads.filter (fun u => u.core == 0 && u.part == 0 &&
        { sStep.tick with turns := [] }.awake u) = [t] ∧
      { sStep.tick with turns := [] }.fetched t = .words [0x7200A042, 0, 0] [] ∧ t.core = 0 ∧ t.part = 0) ∧
    decodeWords [0x7200A042, 0, 0] = .ok (.uadd h0 5 1 2, 1) ∧ h0.c = false :=
  ⟨by decide, by decide, by decide, ⟨_, rfl, by decide⟩, rfl, rfl⟩

def sLane1 : State := { sLane.tick with
  turns := []
  cur := .proctor 0 }

theorem witness_StepExecutesTheDecodedInstruction_lane :
    sLane.tick.poweredOff = false ∧ sLane.agenda = [] ∧ sLane.turns = [.proctor 0] ∧
    sLane1.powerLost = none ∧ (sLane1.die (dieOf 0)).stopped = false ∧ (sLane1.core 0).interrupted = false ∧
    (sLane1.core 0).laneReady = true ∧
    (sLane1.fetchPacket 0 0x1000 true (packetOf (sLane1.core 0).proctor.pc.toNat)).2.2 = some [0x7200A042, 0, 0] := by decide

/-- A pair across packets: the next packet missing, of no instruction, of another pipe and of the same one; a pair in
one packet: legal, its second no instruction, and of the same pipe. -/
theorem witness_PairsIssueTogetherOrTrap :
    (∃ i, s0.decodeFor [0xF200A042] = .ok (i, 1) ∧ (hdrOf i).c = true ∧
      (∃ c, s0.decodeFor [0xFFFFFFFF] = .error c) ∧
      (∃ j m, s0.decodeFor [0x7401020E, 0, 0] = .ok (j, m) ∧ chainCheck i j ≠ some 0x10) ∧
      (∃ j m, s0.decodeFor [0x7200A042, 0, 0] = .ok (j, m) ∧ chainCheck i j = some 0x10)) ∧
    (∃ i, s0.decodeFor [0xF200A042, 0x7401020E, 0] = .ok (i, 1) ∧ (hdrOf i).c = true ∧
      (∃ j m, s0.decodeFor [0x7401020E, 0] = .ok (j, m) ∧ chainCheck i j = none) ∧
      (∃ c, s0.decodeFor [0xFFFFFFFF, 0] = .error c) ∧
      (∃ j m, s0.decodeFor [0x7200A042, 0] = .ok (j, m) ∧ chainCheck i j = some 0x10)) :=
  ⟨⟨_, rfl, rfl, ⟨_, rfl⟩, ⟨_, _, rfl, by decide⟩, ⟨_, _, rfl, by decide⟩⟩,
   ⟨_, rfl, rfl, ⟨_, _, rfl, by decide⟩, ⟨_, rfl⟩, ⟨_, _, rfl, by decide⟩⟩⟩

/-- The first of a pair goes on, and the second answers; the first takes a trap. -/
theorem witness_PairsIssueTogetherOrTrap_issue :
    (let i : Instr := .uadd { h0 with c := true } 5 1 2
     ∃ s₁, exec i s0 = .next s₁ ∧ s₁.pairGoesOn s0 i = true ∧ ∃ s₂, exec .nop (s₁.withFx s0 i) = .next s₂) ∧
    (let i : Instr := .uadd { h0 with c := true } 5 1 2
     let s := with1 { t0 with lateNow := true }
     ∃ s₁, exec i s = .next s₁ ∧ s₁.pairGoesOn s i = false) :=
  ⟨⟨_, rfl, by decide, _, rfl⟩, ⟨_, rfl, by decide⟩⟩

theorem witness_PartitionTakesTheGreatestRank : s0.best [t0, { t0 with id := 2, prio := 3 }] = some { t0 with id := 2, prio := 3 } ∧
    t0.prio < 100 ∧ s0.rank t0 ≠ 1000 ∧ sS.rank tS = 100 := by decide

theorem witness_StepStopsOnlyWithoutPower :
    { State.reset with powerLost := some 0, time := 1000000000 }.tick.poweredOff = true ∧
    { State.reset with powerLost := some 0, time := 999999999 }.tick.poweredOff = false := by decide

/-- The invariant of memory holds where a step starts, and the step answers. -/
theorem witness_EveryStepKeepsMemoryCanonical : Memory.wf sTab.mem = true ∧ Sparse.wf (0, 0) sTab.tags = true ∧
    Sparse.wf 0 sTab.memPoison = true ∧ Sparse.wf false sTab.dirty = true := by decide

/-! ## Words that the spec works out (R145, R149, R163 and the sections' examples)

Each theorem's words stand in the spec beside the instruction that its name or comment gives. -/

/-- launch s10,s12 -/
theorem test_decode_launch : decodeWords [0x71814300] = .ok (.launch h0 0xA 0xC, 1) := rfl
/-- place s20,s2,s8 -/
theorem test_decode_place : decodeWords [0x71C28088] = .ok (.place h0 0x14 2 8, 1) := rfl
/-- nop -/
theorem test_decode_nop : decodeWords [0x70000000] = .ok (.nop, 1) := rfl
/-- bra -2.0 -/
theorem test_decode_bra : decodeWords [0x7011FFF8] = .ok (.bra h0 0x7FFE 0, 1) := rfl
/-- iadd.n32, chained v4,v5,v6 -/
theorem test_decode_iadd : decodeWords [0xF401051A] = .ok (.iadd ⟨true, 7, none, none, .none⟩ 4 5 6 2, 1) := rfl
/-- fmul.f32 -/
theorem test_decode_fmul : decodeWords [0x7822092A] = .ok (.fmul h0 8 9 0xA 2, 1) := rfl
/-- ld.b32 v12,[s4+v7*4] -/
theorem test_decode_ld : decodeWords [0x7E03041E] = .ok (.ld h0 0xC 4 7 2, 1) := rfl
/-- wait 0,*,*,* -/
theorem test_decode_wait : decodeWords [0x7DD07FFF] = .ok (.wait h0 0 0x1F 0x1F 0x1F, 1) := rfl
/-- wait *,*,2,* -/
theorem test_decode_wait_2 : decodeWords [0x7DDFFC5F] = .ok (.wait h0 0x1F 0x1F 2 0x1F, 1) := rfl
/-- split s40,4 -/
theorem test_decode_split : decodeWords [0x7DB50004] = .ok (.split h0 0x28 4, 1) := rfl
/-- fuse.wait s41,s42 -/
theorem test_decode_fuseWait : decodeWords [0x7DC52A81] = .ok (.fuseWait h0 0x29 0x2A, 1) := rfl
/-- join -/
theorem test_decode_join : decodeWords [0x70300000] = .ok (.join h0, 1) := rfl
/-- ret -/
theorem test_decode_ret : decodeWords [0x70500000] = .ok (.ret h0, 1) := rfl
/-- yield -/
theorem test_decode_yield : decodeWords [0x70700000] = .ok (.yield h0, 1) := rfl
/-- brx.nz s20,s10 -/
theorem test_decode_brx : decodeWords [0x70A0250A] = .ok (.brx h0 1 0x14 0xA, 1) := rfl
/-- sleep.until s12,k3 -/
theorem test_decode_sleepUntil : decodeWords [0x7090030B] = .ok (.sleepUntil h0 0xC 0xB, 1) := rfl
/-- getsr s20,dtime -/
theorem test_decode_getsr : decodeWords [0x71428000] = .ok (.getsr h0 0x14 0, 1) := rfl
/-- umovi s21,0x1234 -/
theorem test_decode_umovi : decodeWords [0x73C54034, 0x0FC00012] = .ok (.umovi ⟨false, 7, none, none, .immx 0x12⟩ 0x15 0x34, 2) := rfl
/-- uadd s10,s11,s12 -/
theorem test_decode_uadd : decodeWords [0x720142CC] = .ok (.uadd h0 0xA 0xB 0xC, 1) := rfl
/-- iaddsn.n8 v4,v2,v3 -/
theorem test_decode_iaddsn : decodeWords [0x7471020C] = .ok (.iaddsn h0 4 2 3 0, 1) := rfl
/-- iaddss.s8 v4,v2,v3 -/
theorem test_decode_iaddss : decodeWords [0x7461020C] = .ok (.iaddss h0 4 2 3 0, 1) := rfl
/-- fmovi v3,0x3E99999A -/
theorem test_decode_fmovi : decodeWords [0x7AE0C09A, 0x3FCE9999] = .ok (.fmovi ⟨false, 7, none, none, .immx 0x3E9999⟩ 3 0x9A, 2) := rfl
/-- fma.f32.rup v4,v5,v6,v7 -/
theorem test_decode_fma : decodeWords [0x7831051A, 0x0FE0E010] = .ok (.fma ⟨false, 7, none, none, .regx 7 0 2 false⟩ 4 5 6 2, 2) := rfl
/-- cvtsort.se2m1.bf16 v8,v16 -/
theorem test_decode_cvtsort : decodeWords [0x7C7210B1] = .ok (.cvtsort h0 8 0x10 0xB 1, 1) := rfl
/-- iminn.n32 v16,v0,v8 -/
theorem test_decode_iminn : decodeWords [0xF4B40022] = .ok (.iminn ⟨true, 7, none, none, .none⟩ 0x10 0 8 2, 1) := rfl
/-- fmax.f32 v24,v0,v8 -/
theorem test_decode_fmax : decodeWords [0x78B60022] = .ok (.fmax h0 0x18 0 8 2, 1) := rfl
/-- xlf.b64 v36,v0,s11,s8 -/
theorem test_decode_xlf : decodeWords [0x7D290001, 0x0FE16200] = .ok (.xlf ⟨false, 7, none, none, .regx 0xB 8 0 false⟩ 0x24 0 1, 2) := rfl
/-- ?!p1 imaxn.n32 v0,v0,v36 -/
theorem test_decode_imaxn : decodeWords [0x0F980000, 0x14D00092] = .ok (.imaxn ⟨false, 1, some ⟨true, 0⟩, none, .none⟩ 0 0 0x24 2, 2) := rfl
/-- pcnt p6,p4,s8,0 -/
theorem test_decode_pcnt : decodeWords [0x7D418400, 0x0FEFE200] = .ok (.pcnt ⟨false, 7, none, none, .regx 0x7F 8 0 false⟩ 6 4 0, 2) := rfl
/-- mma a4,s16,zc,cja -/
theorem test_decode_mma : decodeWords [0x7F008418] = .ok (.mma h0 4 0x10 0 1 1 0, 1) := rfl
/-- mma.gang a8,s24,zc -/
theorem test_decode_mmaGang : decodeWords [0x7F110610] = .ok (.mmaGang h0 8 0x18 0 1 0 0, 1) := rfl
/-- mstat.clr s12 -/
theorem test_decode_mstatClr : decodeWords [0x7F318001] = .ok (.mstatClr h0 0xC, 1) := rfl
/-- mtile.st.bf16 a4,s30 -/
theorem test_decode_mtileSt : decodeWords [0x7F208789] = .ok (.mtileSt h0 4 0x1E 0 1, 1) := rfl
/-- atom.add.b32 v10,[s4+v7*4],v12,s5 -/
theorem test_decode_atom : decodeWords [0x7E43041E, 0x0FE14140] = .ok (.atom ⟨false, 7, none, none, .regx 0xA 5 0 false⟩ 0xC 4 7 2, 2) := rfl
/-- red.det.b32 -/
theorem test_decode_red : decodeWords [0x0F810100, 0x7E53041E, 0x0FE00140] = .ok (.red ⟨false, 7, none, some ⟨0, 4, 0, 0, true⟩, .regx 0 5 0 false⟩ 0xC 4 7 2, 3) := rfl
/-- cas.b64 v8,[s4+v7*8+0x100] -/
theorem test_decode_cas : decodeWords [0x7E62041F, 0x0FD00100] = .ok (.cas ⟨false, 7, none, none, .memx false false false false 0x100⟩ 8 4 7 1, 2) := rfl
/-- ldu.b64 s10,[s3+0x10] -/
theorem test_decode_ldu : decodeWords [0x7E228303, 0x0FD00010] = .ok (.ldu ⟨false, 7, none, none, .memx false false false false 0x10⟩ 0xA 3 3, 2) := rfl
/-- st.b32 [s4+v7*4],v12 -/
theorem test_decode_st : decodeWords [0x7E13041E] = .ok (.st h0 0xC 4 7 2, 1) := rfl
/-- cpy k2,s24 -/
theorem test_decode_cpy : decodeWords [0x7F400602] = .ok (.cpy h0 0x18 2, 1) := rfl
/-- cpy.promise s30,k3,s16 -/
theorem test_decode_cpyPromise : decodeWords [0x7F43C423] = .ok (.cpyPromise h0 0x1E 0x10 3, 1) := rfl
/-- waitk 0x09 -/
theorem test_decode_waitk : decodeWords [0x7F500009] = .ok (.waitk h0 9, 1) := rfl
/-- barx.rst s40,s9 -/
theorem test_decode_barx : decodeWords [0x7F612A02] = .ok (.barx h0 9 0x28 1, 1) := rfl
/-- barw s10,s40 -/
theorem test_decode_barw : decodeWords [0x7F614A01] = .ok (.barw h0 0xA 0x28, 1) := rfl
/-- preg s12,s13 -/
theorem test_decode_preg : decodeWords [0x7F718340] = .ok (.preg h0 0xC 0xD, 1) := rfl
/-- pdrop s12,s12 -/
theorem test_decode_pdrop : decodeWords [0x7F718301] = .ok (.pdrop h0 0xC 0xC, 1) := rfl
/-- pstamp s14,s15 -/
theorem test_decode_pstamp : decodeWords [0x7F71C3C2] = .ok (.pstamp h0 0xE 0xF, 1) := rfl
/-- fence.rel.dev -/
theorem test_decode_fenceRel : decodeWords [0x0F850000, 0x7E800000] = .ok (.fenceRel ⟨false, 7, none, some ⟨2, 4, 0, 0, false⟩, .none⟩, 2) := rfl
/-- tbar s10,3 -/
theorem test_decode_tbar : decodeWords [0x7DE00283] = .ok (.tbar h0 0xA 3, 1) := rfl
/-- hqtake.w v32,s8,s9 -/
theorem test_decode_hqtakeW : decodeWords [0x71D82209] = .ok (.hqtakeW h0 0x20 8 9, 1) := rfl
/-- sysc -/
theorem test_decode_sysc : decodeWords [0x70D00000] = .ok (.sysc h0, 1) := rfl
/-- ?p2 sysc -/
theorem test_decode_sysc_2 : decodeWords [0x20D00000] = .ok (.sysc ⟨false, 2, none, none, .none⟩, 1) := rfl
/-- hqdone s10,v48 -/
theorem test_decode_hqdone : decodeWords [0x71E14C00] = .ok (.hqdone h0 0xA 0x30, 1) := rfl
/-- tret -/
theorem test_decode_tret : decodeWords [0x70E00000] = .ok (.tret h0, 1) := rfl
/-- svcstart s20,s24 -/
theorem test_decode_svcstart : decodeWords [0x71628600] = .ok (.svcstart h0 0x14 0x18, 1) := rfl
/-- svcpark s21,s10,s11 -/
theorem test_decode_svcpark : decodeWords [0x7172A28B] = .ok (.svcpark h0 0x15 0xA 0xB, 1) := rfl
/-- suspend s40,s12 -/
theorem test_decode_suspend : decodeWords [0x71050300] = .ok (.suspend h0 0x28 0xC, 1) := rfl
/-- fcopy s20,s12,s14 -/
theorem test_decode_fcopy : decodeWords [0x7122830E] = .ok (.fcopy h0 0x14 0xC 0xE, 1) := rfl
/-- fdrop s20,s12 -/
theorem test_decode_fdrop : decodeWords [0x71328300] = .ok (.fdrop h0 0x14 0xC, 1) := rfl
/-- resume s30,s32 -/
theorem test_decode_resume : decodeWords [0x7113C800] = .ok (.resume h0 0x1E 0x20, 1) := rfl
/-- resume.try s30,s32 -/
theorem test_decode_resumeTry : decodeWords [0x7113C801] = .ok (.resumeTry h0 0x1E 0x20, 1) := rfl
/-- ubfx s14,s1,s15 -/
theorem test_decode_ubfx : decodeWords [0x73B1C04F] = .ok (.ubfx h0 0xE 1 0xF, 1) := rfl
/-- faddu v26,v26,s20 -/
theorem test_decode_faddu : decodeWords [0x79E69A14] = .ok (.faddu h0 0x1A 0x1A 0x14, 1) := rfl
/-- fmau v25,v29,s25 -/
theorem test_decode_fmau : decodeWords [0x7AD65D19] = .ok (.fmau h0 0x19 0x1D 0x19, 1) := rfl
/-- frsq.f32 v26,v25 -/
theorem test_decode_frsq : decodeWords [0x78869902] = .ok (.frsq h0 0x1A 0x19 2, 1) := rfl
/-- ?p1 st.gal.b32 [s31+4],v25 -/
theorem test_decode_st_2 : decodeWords [0x0F801000, 0x1E165F02, 0x8FD00004] = .ok (.st ⟨false, 1, none, some ⟨0, 0, 1, 0, false⟩, .memx true false false false 4⟩ 0x19 0x1F 0 2, 3) := rfl
/-- mov.b32 v1,v0 -/
theorem test_decode_movV : decodeWords [0x76704000] = .ok (.movV h0 1 0 0, 1) := rfl
/-- iseteqi p1,v0,0 -/
theorem test_decode_iseteqi : decodeWords [0x77D04000] = .ok (.iseteqi h0 1 0 0, 1) := rfl
/-- cvt.f32.f16 v21,v20 -/
theorem test_decode_cvt : decodeWords [0x7C055430] = .ok (.cvt h0 0x15 0x14 3 0, 1) := rfl
/-- ?p1 imovi v0,0x40 -/
theorem test_decode_imovi : decodeWords [0x17600040] = .ok (.imovi ⟨false, 1, none, none, .none⟩ 0 0x40, 1) := rfl
/-- stu.b32 [s8+20],s11 -/
theorem test_decode_stu : decodeWords [0x7E32C802, 0x0FD00014] = .ok (.stu ⟨false, 7, none, none, .memx false false false false 0x14⟩ 0xB 8 2, 2) := rfl
/-- ldu.acq.sys.b32 s27,[s26] -/
theorem test_decode_ldu_2 : decodeWords [0x0F834000, 0x7E26DA02] = .ok (.ldu ⟨false, 7, none, some ⟨1, 5, 0, 0, false⟩, .none⟩ 0x1B 0x1A 2, 2) := rfl
/-- ?p3 bra fill -/
theorem test_decode_bra_2 : decodeWords [0x3011FFFA] = .ok (.bra ⟨false, 3, none, none, .none⟩ 0x7FFE 2, 1) := rfl
/-- exit -/
theorem test_decode_exit : decodeWords [0x70600000] = .ok (.exit h0, 1) := rfl
/-- ldu.b128 s18,[s8+0x180] -/
theorem test_decode_ldu_3 : decodeWords [0x7E248803, 0x1FD00180] = .ok (.ldu ⟨false, 7, none, none, .memx false false false true 0x180⟩ 0x12 8 3, 2) := rfl

/-! ## Ill-formed terms, each refused by its check (R137, R138) -/

theorem smoke_guarded : decodeWords [0x00000000] = .error .guarded := rfl
theorem smoke_unassigned : decodeWords [0x7B000000] = .error .unassigned := rfl
theorem smoke_reserved : wellFormed (.notV h0 1 2 2) = false := by decide
theorem smoke_register : wellFormed (.iadd h0 61 2 4 3) = false := by decide
theorem smoke_register_uniform : wellFormed (.uadd h0 96 0 0) = false := by decide
theorem smoke_combination : wellFormed (.call h0 0 0 0) = false := by decide
theorem smoke_prefix_refused : wellFormed (.uadd (hm 0 0 .none) 5 1 2) = false := by decide
theorem smoke_extension_refused : wellFormed (.uaddi { h0 with x := .regx 0 0 0 false } 5 1 2) = false := by decide
theorem smoke_prefix_alone : decodeWords [0x0F830000] = .error .prefixed := rfl

/-! ## Single steps; the results are the spec's worked examples -/

/-- The thread after one instruction of a group whose lane 0 holds these vector registers. -/
def after (i : Instr) (vs : List (Nat × W32)) (ss : List (Nat × W64)) : Option Thread :=
  let t := ss.foldl (fun (t : Thread) e => t.setSreg e.1 e.2) (vs.foldl (fun (t : Thread) e => t.setVreg e.1 0 e.2) t0)
  match exec i (with1 t) with
  | .next s => s.thread? 1
  | _ => none
def vAfter (i : Instr) (vs : List (Nat × W32)) (d : Nat) : Option W32 := (after i vs []).map (fun t => t.vreg d 0)
def sAfter (i : Instr) (ss : List (Nat × W64)) (d : Nat) : Option W64 := (after i [] ss).map (fun t => t.sreg d)

/-- The saturating byte sums of the section on vector integers. -/
theorem test_iaddsn_n8 : vAfter (.iaddsn h0 4 2 3 0) [(2, 0xF07F0180), (3, 0x2001FF80)] 4 = some 0xFF80FFFF := by decide
theorem test_iaddss_s8 : vAfter (.iaddss h0 4 2 3 0) [(2, 0xF07F0180), (3, 0x2001FF80)] 4 = some 0x107F0080 := by decide
/-- R205: addition wraps; MOV is for uniform registers too. -/
theorem test_uadd_wraps : sAfter (.uadd h0 5 1 2) [(1, 0xFFFFFFFFFFFFFFFF), (2, 2)] 5 = some 1 := by decide
theorem test_umovi_immx : sAfter (.umovi ⟨false, 7, none, none, .immx 0x3F8000⟩ 20 0) [] 20 = some 0x3F800000 := by decide
/-- 0xE8 gives the majority (R222). -/
theorem test_bfn_majority : (after (.bfn ⟨false, 7, none, none, .regx 7 8 0 false⟩ 4 2 3 2)
    [(2, 0b0101), (3, 0b0011), (7, 0b1001)] [(8, 0xE8)]).map (fun t => t.vreg 4 0) = some 0b0001 := by decide
/-- The sorted E2M1 block of R68's example, and its flag NX. -/
theorem test_cvtsort : (after (.cvtsort h0 8 16 0xB 1)
    [(16, 0xC0103FC0), (17, 0x40403E9A), (18, 0x42200000), (19, 0xBF400000)] []).map
      (fun t => (t.vreg 8 0, t.vreg 9 0, t.vreg 11 0, t.flags 0)) = some (0xB08071E5, 0, 0x6A7E, 1) := by decide
/-- 1.5, −2.25, 3.0 and 40.0 in one MXFP4 block: scale 0x82 and codes 0, −0.5, 0.5 and 4 (R65). -/
theorem test_mxQuantise : (fun (q : Nat × List (Nat × Flags)) => (q.1, (q.2.take 4).map Prod.fst))
    (mxQuantise 9 (fun _ => .rne) ([0x3FC00000, 0xC0100000, 0x40400000, 0x42200000].map (decodeFp 3) ++
      List.replicate 28 (Val.fin false 0 0))) = (0x82, [0, 9, 1, 6]) := by decide
/-- Worked decodes of the section on number formats, as .f32 patterns. -/
theorem test_decodeFp : [(1, 0xC0A0), (0, 0x0001), (6, 0x7C), (5, 0x6A), (5, 0x01), (7, 0x1F), (8, 0x09), (9, 0xD)].map
      (fun (e : Nat × Nat) => (fpConvert ⟨3, .rne, false, .plain⟩ (decodeFp e.1 e.2)).1)
    = [0xC0A00000, 0x33800000, 0x7F800000, 0x42A00000, 0x3B000000, 0x41E00000, 0x3F900000, 0xC0400000] := by decide
/-- FMUL of 1.5 and −2.25, and the sum of 24.0 and 1.0. -/
theorem test_fmul : vAfter (.fmul h0 4 2 3 2) [(2, 0x3FC00000), (3, 0xC0100000)] 4 = some 0xC0580000 := by decide
theorem test_fadd : vAfter (.fadd h0 4 2 3 2) [(2, 0x41C00000), (3, 0x3F800000)] 4 = some 0x41C80000 := by decide
/-- CVT of .f16 1.0 to .f32. -/
theorem test_cvt : vAfter (.cvt h0 21 20 3 0) [(20, 0x3C00)] 21 = some 0x3F800000 := by decide
/-- ISETEQI against 0 (R226). -/
theorem test_iseteqi : (after (.iseteqi h0 1 0 0) [] []).map (fun t => t.pred 1 0) = some true := by decide
/-- A load's address is 0x100000000 − 8 + 0x40 (the worked packet sequence). -/
theorem test_load_address : (((t0.setSreg 4 0x100000000).setVreg 7 0 0xFFFFFFFE).laneAddr
    ⟨false, 7, none, none, .memx false false false false 0x40⟩ 4 7 4 0) = 0x100000038 := by decide
/-- BRA −2.0 in the packet at 0x18 goes to the packet at 0 (R149). -/
theorem test_bra_back : (match exec (.bra h0 0x7FFE 0) (with1 { t0 with pc := 0x6000018 }) with
    | .next s => (s.thread? 1).map (fun t => t.pc)
    | _ => none) = some 0x6000000 := by decide
/-- The step after reset fetches, decodes and runs UADD s5, s1, s2: the slot's next instruction is the next word. -/
theorem test_step_runs : (match step (State.reset.withFetchWord 32 0x7200A042) with
    | .next s => s.threads.map (fun t => t.pc.toNat % 12)
    | _ => []) = [4] := by decide

end Sys2Proof.Machine
end

section
/-! What GETSR reads in a group (R214, R215). -/

namespace Sys2Proof.Machine

/-- A trap of the present group is raised at its pc, with its execution mask. -/
theorem trap_thread {s : State} {t : Thread} (hc : s.cur = .thread t.id) (ht : s.thread? t.id = some t) (h : Hdr)
    (vector cause : Nat) :
    s.trap h vector cause = s.trapThread t (plainTrap vector cause t.exec) t.pc (nextPc t.pc h) := by
  unfold State.trap State.trapAt
  simp only [hc, ht]

/-- The two outcomes of GETSR in a group (R214): a register of the proctor lane traps, another is read. -/
theorem exec_getsr_ready {h : Hdr} {d : BitVec 7} {b : BitVec 6} {s : State} {t : Thread}
    (hr : Ready (.getsr h d b) s t) :
    exec (.getsr h d b) s = .next (if 0x20 ≤ b.toNat then
        s.trapThread t (plainTrap vPrivilege 0x0C t.exec) t.pc (nextPc t.pc h)
      else s.setThread ((t.setSreg d.toNat (BitVec.ofNat 64 (s.srThread h t b.toNat))).wentOn (nextPc t.pc h))) := by
  change execGetsr h d b s = _
  unfold execGetsr
  rw [run_ready (gate_ready hr)]
  simp only [hr.cur, hr.here, trap_thread hr.cur hr.here, setSreg_thread hr.cur hr.here]
  rw [advance_setThread hr.cur hr.here (t.setSreg _ _) rfl]
  rfl

theorem getsr_reads {h : Hdr} {d : BitVec 7} {b : BitVec 6} {s : State} {t : Thread} (hr : Ready (.getsr h d b) s t)
    {n v : Nat} (hn : n < 0x20) (hv : s.srThread h t n = v) (hb : b.toNat = n) :
    completes (.getsr h d b) s ((t.setSreg d.toNat (BitVec.ofNat 64 v)).wentOn (nextPc t.pc h)) := by
  refine ⟨?_, sameMemory_setThread s _⟩
  rw [exec_getsr_ready hr, if_neg (by omega), hb, hv]

/-- Settles O36: each number of the list is an arm of srThread, and a number from 0x20 traps. -/
theorem getsrReadsSpecialRegisters : Obligations.GetsrReadsSpecialRegisters := by
  unfold Obligations.GetsrReadsSpecialRegisters
  intro h d b s t hr
  refine ⟨?_, fun hb => ?_⟩
  · simp only [List.forall_mem_cons]
    refine ⟨?_, ?_, ?_, ?_, ?_, ?_, ?_, ?_, ?_, ?_, ?_, ?_, ?_, ?_, ?_, ?_, ?_, ?_, ?_, List.forall_mem_nil _⟩ <;>
      exact getsr_reads hr (by decide) rfl
  · rw [exec_getsr_ready hr, if_pos hb]

end Sys2Proof.Machine
end

section
/-! What stores to the registers of a die, of the device and of a lane do (R13, R24, R28, R31, R33, R181, R373,
R375). -/

namespace Sys2Proof.Machine

/-! ## Function modes (R24) -/

@[simp] theorem stageOne_die (s : State) (d : Nat) : s.stageOne.die d = s.die d := by
  unfold State.stageOne
  split <;> rfl

@[simp] theorem stageOne_arg (s : State) : s.stageOne.arg = s.arg := by
  unfold State.stageOne
  split <;> rfl

/-- A store to FMODE while a change is open has no effect. -/
theorem fmodeStore_open {s : State} {d : Nat} (h : (s.die d).fmodeNew ≠ none) (v : W32) : s.fmodeStore d v = none := by
  unfold State.fmodeStore
  exact if_pos (Option.isSome_iff_ne_none.2 h)

theorem fmodeStore_idle {s : State} {d : Nat} (h : (s.die d).fmodeNew = none) (v : W32) :
    s.fmodeStore d v = some (s.setDie d { s.die d with fmodeNew := some (v &&& 0x3F) }) := by
  simp [State.fmodeStore, h]

theorem fmodeWrite_results (s s₁ : State) (d : Nat) (hd : d = s.arg.a)
    (h₁ : s₁ = (if s.arg.w = .firstStage then s.stageOne else s)) :
    (s.mayFmode s.arg.w d = false → exec .fmodeWrite s = .next s) ∧
    (s.mayFmode s.arg.w d = true → (s.die d).fmodeNew ≠ none → exec .fmodeWrite s = .next s₁) ∧
    (s.mayFmode s.arg.w d = true → (s.die d).fmodeNew = none → exec .fmodeWrite s = .next (s₁.setDie d { s.die d with
      fmodeNew := some (s.arg.v.setWidth 32 &&& 0x3F) })) := by
  have hdie : s₁.die d = s.die d := by rw [h₁]; split <;> simp only [stageOne_die]
  have harg : s₁.arg = s.arg := by rw [h₁]; split <;> simp only [stageOne_arg]
  have hexec : exec .fmodeWrite s = .next (if s.mayFmode s.arg.w d then
      (s₁.fmodeStore d (s.arg.v.setWidth 32)).getD s₁ else s) := by
    change execFmodeWrite s = _
    simp only [execFmodeWrite, beq_iff_eq, ← h₁, harg, ← hd]
  rw [hexec]
  refine ⟨fun hm => ?_, fun hm hn => ?_, fun hm hn => ?_⟩
  · simp [hm]
  · rw [if_pos hm, fmodeStore_open (hdie ▸ hn)]
    rfl
  · rw [if_pos hm, fmodeStore_idle (hdie ▸ hn), hdie]
    rfl

/-- Some function whose mode changes still has a request accepted under its present mode. -/
theorem modeChangeBusy_iff (s : State) (d : Nat) (old new : W32) :
    (List.range 6).any (fun fn => (old ^^^ new).getLsbD fn && s.modeBusy d fn) = true ↔
      ∃ fn < 6, old.getLsbD fn ≠ new.getLsbD fn ∧ s.modeBusy d fn = true := by
  simp only [List.any_eq_true, List.mem_range, Bool.and_eq_true, BitVec.getLsbD_xor, bne_iff_ne]

theorem fmodeWriteComplete_results (s : State) (d : Nat) (v : W32) (hd : d = s.arg.a)
    (hv : (s.die d).fmodeNew = some v) :
    ((∃ fn < 6, (s.die d).fmode.getLsbD fn ≠ v.getLsbD fn ∧ s.modeBusy d fn = true) →
      exec .fmodeWriteComplete s = .next s) ∧
    ((∀ fn < 6, (s.die d).fmode.getLsbD fn ≠ v.getLsbD fn → s.modeBusy d fn = false) →
      (v.getLsbD 2 = false ∨ (s.die d).fmode.getLsbD 2 = true → exec .fmodeWriteComplete s = .next
        (s.setDie d { s.die d with fmode := v, fmodeNew := none })) ∧
      (v.getLsbD 2 = true → (s.die d).fmode.getLsbD 2 = false → exec .fmodeWriteComplete s = .next
        ((s.setDie d { s.die d with fmode := v, fmodeNew := none }).placeRequests d))) := by
  rw [show exec .fmodeWriteComplete s = execFmodeWriteComplete s from rfl]
  unfold execFmodeWriteComplete
  simp only [← hd, hv]
  refine ⟨fun hb => ?_, fun hidle => ?_⟩
  · rw [if_pos ((modeChangeBusy_iff s d _ v).2 hb)]
  · have hnot : ¬ (List.range 6).any (fun fn => ((s.die d).fmode ^^^ v).getLsbD fn && s.modeBusy d fn) = true := by
      rw [modeChangeBusy_iff]
      rintro ⟨fn, hlt, hne, hbusy⟩
      simp [hidle fn hlt hne] at hbusy
    rw [if_neg hnot]
    refine ⟨fun hplace => ?_, fun hnew hold => ?_⟩
    · rw [if_neg (by rcases hplace with h | h <;> rw [h] <;> simp)]
    · rw [hnew, hold]
      rfl

/-! ## Registers of supervisor code -/

/-- Of a writer that is no supervisor code these registers take nothing (R23). -/
theorem supervisorStores_ignored (s : State) (hw : isSupervisor s.arg.w = false) :
    ∀ i ∈ ([.pwrcapWrite, .ptpboundWrite, .miglistWrite, .startokWrite, .rbaseWrite, .proctorRunWrite] : List Instr),
      exec i s = .next s := by
  simp only [List.forall_mem_cons]
  refine ⟨?_, ?_, ?_, ?_, ?_, ?_, List.forall_mem_nil _⟩ <;>
    exact congrArg _ (if_neg (Bool.not_eq_true _ ▸ hw))

theorem pwrcapStore_eq (s : State) (v : Nat) :
    s.pwrcapStore v = if 1200 ≤ v % 4096 ∧ v % 4096 ≤ 2600 then { s with pwrCap := v % 4096 } else s := by
  simp only [State.pwrcapStore, Bool.and_eq_true, decide_eq_true_eq]

theorem ptpStore_eq (s : State) (v : Nat) :
    s.ptpStore v = if 50 ≤ v % 2 ^ 32 ∧ v % 2 ^ 32 ≤ 1000000 then { s with ptpBound := v % 2 ^ 32 } else s := by
  simp only [State.ptpStore, Bool.and_eq_true, decide_eq_true_eq]

theorem startokStore_eq (s : State) (v : W64) :
    s.startokStore v.toNat = if v ≠ 1 ∨ s.boot.startok = true ∨ s.boot.minimal = true then s else { s with
      boot := { s.boot with startok := true, failCount := 0 }, mw := { s.mw with standIn := false } } := by
  have h1 : v.toNat = 1 ↔ v = 1 := (BitVec.toNat_inj (x := v) (y := 1))
  simp only [State.startokStore, Bool.or_eq_true, bne_iff_ne, ne_eq, h1, or_assoc]

theorem supervisorStores_results (s : State) (hw : isSupervisor s.arg.w = true) :
    (1200 ≤ s.arg.v.toNat % 4096 → s.arg.v.toNat % 4096 ≤ 2600 →
      exec .pwrcapWrite s = .next { s with pwrCap := s.arg.v.toNat % 4096 }) ∧
    (¬ (1200 ≤ s.arg.v.toNat % 4096 ∧ s.arg.v.toNat % 4096 ≤ 2600) → exec .pwrcapWrite s = .next s) ∧
    (50 ≤ s.arg.v.toNat % 2 ^ 32 → s.arg.v.toNat % 2 ^ 32 ≤ 1000000 →
      exec .ptpboundWrite s = .next { s with ptpBound := s.arg.v.toNat % 2 ^ 32 }) ∧
    (¬ (50 ≤ s.arg.v.toNat % 2 ^ 32 ∧ s.arg.v.toNat % 2 ^ 32 ≤ 1000000) → exec .ptpboundWrite s = .next s) ∧
    exec .miglistWrite s = .next (s.setDie s.arg.a { s.die s.arg.a with
      migAddr := leNat (s.arg.bytes.take 8), migCount := leNat ((s.arg.bytes.drop 8).take 8) }) ∧
    (s.arg.v = 1 → s.boot.startok = false → s.boot.minimal = false → exec .startokWrite s = .next { s with
      boot := { s.boot with startok := true, failCount := 0 }, mw := { s.mw with standIn := false } }) ∧
    (s.arg.v ≠ 1 ∨ s.boot.startok = true ∨ s.boot.minimal = true → exec .startokWrite s = .next s) := by
  have hpwr : exec .pwrcapWrite s = .next (s.pwrcapStore s.arg.v.toNat) := congrArg _ (if_pos hw)
  have hptp : exec .ptpboundWrite s = .next (s.ptpStore s.arg.v.toNat) := congrArg _ (if_pos hw)
  have hmig : exec .miglistWrite s = .next (s.migList s.arg.a s.arg.bytes) := congrArg _ (if_pos hw)
  have hstart : exec .startokWrite s = .next (s.startokStore s.arg.v.toNat) := congrArg _ (if_pos hw)
  rw [hpwr, hptp, hmig, hstart, pwrcapStore_eq, ptpStore_eq, startokStore_eq]
  refine ⟨fun h1 h2 => ?_, fun h => ?_, fun h1 h2 => ?_, fun h => ?_, rfl, fun h1 h2 h3 => ?_, fun h => ?_⟩
  · rw [if_pos ⟨h1, h2⟩]
  · rw [if_neg h]
  · rw [if_pos ⟨h1, h2⟩]
  · rw [if_neg h]
  · rw [if_neg (by simp [h1, h2, h3])]
  · rw [if_pos h]

/-- R181: when a store to RBASE moves a child's resident range. -/
theorem rbaseStore_eq {s : State} {die entry : Nat} {t : Thread} (ht : s.stackEntry die entry = some t) (v : Nat) :
    s.rbaseStore die entry v =
      if s.atStackTrap t = true ∧ v % 8 = 0 ∧ v + t.dres ≤ t.lim ∧ v ≤ t.wpNext ∧ t.wpNext + 64 ≤ v + t.dres then
        s.setThread { t with rbase := v }
      else s := by
  simp only [State.rbaseStore, ht, Bool.and_eq_true, beq_iff_eq, decide_eq_true_eq, and_assoc]

theorem rbaseWrite_results (s : State) (t : Thread) (v : Nat) (hw : isSupervisor s.arg.w = true)
    (ht : s.stackEntry s.arg.a s.arg.b = some t) (hv : v = s.arg.v.toNat) :
    (s.atStackTrap t = true → v % 8 = 0 → v + t.dres ≤ t.lim → v ≤ t.wpNext → t.wpNext + 64 ≤ v + t.dres →
      exec .rbaseWrite s = .next (s.setThread { t with rbase := v })) ∧
    (s.atStackTrap t = false ∨ v % 8 ≠ 0 ∨ t.lim < v + t.dres ∨ t.wpNext < v ∨ v + t.dres < t.wpNext + 64 →
      exec .rbaseWrite s = .next s) := by
  have hexec : exec .rbaseWrite s = .next (s.rbaseStore s.arg.a s.arg.b s.arg.v.toNat) := congrArg _ (if_pos hw)
  rw [hexec, ← hv, rbaseStore_eq ht]
  refine ⟨fun h1 h2 h3 h4 h5 => ?_, fun h => ?_⟩
  · rw [if_pos ⟨h1, h2, h3, h4, h5⟩]
  · rw [if_neg]
    rintro ⟨h1, h2, h3, h4, h5⟩
    rw [h1] at h
    simp only [Bool.true_eq_false, false_or] at h
    omega

theorem runWrite_results (s : State) (p : Proctor) (hw : isSupervisor s.arg.w = true)
    (hp : p = (s.core s.arg.a).proctor) :
    (s.arg.v.getLsbD 0 = true → p.run = false → p.started = true → exec .proctorRunWrite s = .next
      (s.setProctor s.arg.a { p with run := true, dbl := false, pc := p.epc, park := .run })) ∧
    (s.arg.v.getLsbD 0 = false ∨ p.run = true → exec .proctorRunWrite s = .next s) := by
  have hexec : exec .proctorRunWrite s = .next (s.runLane s.arg.a (s.arg.v.setWidth 8)) := congrArg _ (if_pos hw)
  have hbit : (s.arg.v.setWidth 8).getLsbD 0 = s.arg.v.getLsbD 0 := by
    rw [BitVec.getLsbD_setWidth]
    rfl
  rw [hexec]
  unfold State.runLane
  simp only [← hp, hbit]
  refine ⟨fun h1 h2 h3 => ?_, fun h => ?_⟩
  · rw [if_pos (by rw [h1, h2, h3]; rfl)]
  · rw [if_neg (by rcases h with h | h <;> rw [h] <;> simp)]

/-- R13: the fused minimum takes a greater value, once a proctor lane has started and the request is signed. -/
theorem fusedMinimumRaise_results (s : State) (v : W32) (hv : v = s.arg.v.setWidth 32) :
    (s.boot.proctorsStarted = true → s.boot.fusedMin.ult v = true → exec .fusedMinimumRaise s = .next
      (if Config.raiseSigned v s.arg.bytes then { s with boot := { s.boot with fusedMin := v } } else s)) ∧
    (s.boot.proctorsStarted = false ∨ s.boot.fusedMin.ult v = false → exec .fusedMinimumRaise s = .next s) := by
  rw [show exec .fusedMinimumRaise s = execFusedMinimumRaise s from rfl]
  unfold execFusedMinimumRaise
  simp only [← hv]
  refine ⟨fun h1 h2 => ?_, fun h => ?_⟩
  · rw [h1, h2, Bool.true_and, Bool.true_and]
  · rw [if_neg (by rcases h with h | h <;> simp [h])]

end Sys2Proof.Machine
end

section
/-! REGISTER_WRITE: a store of a whole register of a control block, and a host's store to the staging bytes of its
window (R10, R30, R117). -/

namespace Sys2Proof.Machine

theorem leBytes_length (k n : Nat) : (leBytes k n).length = k := by
  induction k generalizing n with
  | zero => rfl
  | succ k ih => rw [leBytes, List.length_cons, ih]

/-- A register's bytes all replaced are the new ones. -/
theorem merged_whole (r : Reg) (old : Nat) {bs : List Byte} (hlen : bs.length = r.len) :
    r.merged old r.start bs = bs := by
  simp [Reg.merged, leBytes_length, hlen]

/-- A store of all bytes of a register, from its first, is one store of the register. -/
theorem ctlStore_whole {s : State} {d : Nat} {r : Reg} {bs : List Byte} (w : Writer)
    (hwin : inWindow r.start = false) (hstk : inStack r.start = false) (hreg : s.regAt d r.start = some r)
    (hlen : bs.length = r.len) (hpos : 0 < r.len) :
    s.ctlStore w d r.start bs = s.regStore w d r.start (leNat bs) bs := by
  cases bs with
  | nil => simp at hlen; omega
  | cons b bs =>
    have hall : min (bs.length + 1) (r.start + r.len - r.start) = (b :: bs).length := by
      simp only [List.length_cons] at hlen ⊢
      omega
    have hpart : s.partStore w d r (r.start - r.start) (b :: bs)
        = s.regStore w d r.start (leNat (b :: bs)) (b :: bs) := by
      simp only [State.partStore, hlen, bne_self_eq_false, Bool.false_and, Bool.false_eq_true, if_false, Nat.sub_self,
        Nat.add_zero, merged_whole r _ hlen]
    simp only [State.ctlStore, State.ctlStoreFrom, hwin, hstk, hreg, hall, List.take_length, List.drop_length, hpart,
      Bool.false_eq_true, if_false]
    cases s.regStore w d r.start (leNat (b :: bs)) (b :: bs) <;> rfl

theorem supervisor_ne {w u : Writer} (hw : isSupervisor w = true) (hu : isSupervisor u = false) : w ≠ u := by
  rintro rfl
  rw [hw] at hu
  cases hu

/-- Supervisor code's whole store to a register that each die has. -/
theorem regStore_die {s : State} {w : Writer} {d off : Nat} (hw : isSupervisor w = true) (v : Nat) (bs : List Byte)
    (hmode : off ≠ 0x40) (hcore : off < 0xC00 ∨ 0x1080 ≤ off)
    (hdev : s.deviceRegs.any (fun r => r.start == off) = false) : s.regStore w d off v bs = s.dieStore d off v bs := by
  have hrange : ¬ (0xC00 ≤ off ∧ off < 0x1080) := by omega
  simp [State.regStore, hmode, supervisor_ne hw (u := .firstStage) rfl, hw, hrange, hdev]

theorem regAt_droopBnd (s : State) (d : Nat) : s.regAt d 0x1240 = some ⟨0x1240, 8, (s.die d).droopBnd⟩ := by
  simp [State.regAt, State.dieRegs, Reg.holds]

theorem regAt_acThresh (s : State) (d : Nat) : s.regAt d 0x240 = some ⟨0x240, 8, (s.die d).acThresh⟩ := by
  simp [State.regAt, State.dieRegs, Reg.holds]

/-- REGISTER_WRITE by supervisor code of the 8 bytes of a register that each die has. -/
theorem registerWrite_die {s : State} {off value : Nat} (hw : isSupervisor s.arg.w = true) (hb : s.arg.b = off)
    (hlen : s.arg.bytes.length = 8) (hreg : s.regAt s.arg.a off = some ⟨off, 8, value⟩)
    (hwin : inWindow off = false) (hstk : inStack off = false) (hmode : off ≠ 0x40)
    (hcore : off < 0xC00 ∨ 0x1080 ≤ off) (hdev : s.deviceRegs.any (fun r => r.start == off) = false) :
    exec .registerWrite s = .next ((s.dieStore s.arg.a off (leNat s.arg.bytes) s.arg.bytes).getD s) := by
  have hstore : s.ctlStore s.arg.w s.arg.a off s.arg.bytes = s.dieStore s.arg.a off (leNat s.arg.bytes) s.arg.bytes :=
    (ctlStore_whole (r := ⟨off, 8, value⟩) s.arg.w hwin hstk hreg hlen (by simp)).trans
      (regStore_die hw _ _ hmode hcore hdev)
  change execRegisterWrite s = _
  rw [execRegisterWrite, if_neg (by simp [supervisor_ne hw (u := .host) rfl]),
    if_neg (by simp [supervisor_ne hw (u := .user) rfl]), hb, hstore]

theorem exec_registerWrite_host {s : State} (hw : s.arg.w = .host) :
    exec .registerWrite s = .next (if s.portRefuses then s else s.mgmtStore s.arg.b s.arg.bytes) := by
  change execRegisterWrite s = _
  simp only [execRegisterWrite, hw, beq_self_eq_true, if_true]

theorem registerWrite_droopBnd {s : State} (hw : isSupervisor s.arg.w = true) (hb : s.arg.b = 0x1240)
    (hlen : s.arg.bytes.length = 8) (hv : 1 ≤ leNat s.arg.bytes % 256) :
    exec .registerWrite s = .next (s.setDie s.arg.a { s.die s.arg.a with droopBnd := leNat s.arg.bytes % 256 }) := by
  rw [registerWrite_die hw hb hlen (regAt_droopBnd s _) (by decide) (by decide) (by decide) (.inr (by decide)) rfl]
  simp only [State.dieStore, if_pos hv, Option.getD_some]

theorem registerWrite_acThresh {s : State} (hw : isSupervisor s.arg.w = true) (hb : s.arg.b = 0x240)
    (hlen : s.arg.bytes.length = 8) (hv : 1 ≤ leNat s.arg.bytes % 65536) :
    exec .registerWrite s = .next (s.setDie s.arg.a { s.die s.arg.a with acThresh := leNat s.arg.bytes % 65536 }) := by
  have hne : ¬ (leNat s.arg.bytes % 65536 == 0) = true := by
    rw [beq_iff_eq]
    omega
  rw [registerWrite_die hw hb hlen (regAt_acThresh s _) (by decide) (by decide) (by decide) (.inl (by decide)) rfl]
  simp only [State.dieStore, if_neg hne, Option.getD_some]

/-- A host's store to the staging bytes of the management window (R30). -/
theorem mgmtStore_staging {s : State} {off : Nat} {bs : List Byte} (hlo : 0x100000 ≤ off)
    (hhi : off + bs.length ≤ 0x200000) : s.mgmtStore off bs = { s with mw := { s.mw with
      staging := Sparse.write s.mw.staging (off - 0x100000) bs } } := by
  rw [State.mgmtStore, if_pos hlo, if_pos hhi]

theorem registerWrite_results (s : State) :
    (isSupervisor s.arg.w = true → s.arg.b = 0x1240 → s.arg.bytes.length = 8 →
      1 ≤ leNat s.arg.bytes % 256 → exec .registerWrite s = .next (s.setDie s.arg.a { s.die s.arg.a with
        droopBnd := leNat s.arg.bytes % 256 })) ∧
    (isSupervisor s.arg.w = true → s.arg.b = 0x240 → s.arg.bytes.length = 8 → 1 ≤ leNat s.arg.bytes % 65536 →
      exec .registerWrite s = .next (s.setDie s.arg.a { s.die s.arg.a with
        acThresh := leNat s.arg.bytes % 65536 })) ∧
    (s.arg.w = .host → s.portRefuses = true → exec .registerWrite s = .next s) ∧
    (s.arg.w = .host → s.portRefuses = false → 0x100000 ≤ s.arg.b → s.arg.b + s.arg.bytes.length ≤ 0x200000 →
      exec .registerWrite s = .next { s with mw := { s.mw with
        staging := Sparse.write s.mw.staging (s.arg.b - 0x100000) s.arg.bytes } }) ∧
    (s.arg.w = .user → exec .registerWrite s = .next s) := by
  refine ⟨registerWrite_droopBnd, registerWrite_acThresh, fun hw hp => ?_, fun hw hp hlo hhi => ?_, fun hw => ?_⟩
  · rw [exec_registerWrite_host hw, if_pos hp]
  · rw [exec_registerWrite_host hw, if_neg (by simp [hp]), mgmtStore_staging hlo hhi]
  · change execRegisterWrite s = _
    rw [execRegisterWrite, hw]
    rfl

end Sys2Proof.Machine
end

section
/-! Which copies the compositor has after posts and frees of records, writes of barriers, and the end of a copy
(R312, R313, R316, R322). -/

namespace Sys2Proof.Machine

/-- Steps that leave the compositor's copies alone do so one after another. -/
theorem foldl_cpys {β : Type} {f : State → β → State} (hf : ∀ s x, (f s x).cpys = s.cpys) (l : List β) (s : State) :
    (l.foldl f s).cpys = s.cpys := by
  induction l generalizing s with
  | nil => rfl
  | cons x l ih => rw [List.foldl_cons, ih, hf]

/-! ## Records -/

@[simp] theorem retag_cpys (s : State) (line slot : Nat) : (s.retag line slot).cpys = s.cpys := by
  unfold State.retag
  split
  · rfl
  · split <;> rfl

@[simp] theorem setByte_cpys (s : State) (pa slot : Nat) (b : Byte) : (s.setByte pa slot b).cpys = s.cpys := by
  simp only [State.setByte, retag_cpys]

@[simp] theorem storeByte_cpys (s : State) (pa slot : Nat) (b : Byte) : (s.storeByte pa slot b).cpys = s.cpys := by
  unfold State.storeByte
  dsimp only
  split
  · split
    · rfl
    · exact setByte_cpys s pa slot b
  · exact setByte_cpys s pa slot b

@[simp] theorem store_cpys (s : State) (pa slot : Nat) (bs : List Byte) : (s.store pa slot bs).cpys = s.cpys := by
  induction bs generalizing s pa with
  | nil => rfl
  | cons b bs ih => rw [State.store, ih, storeByte_cpys]

@[simp] theorem mirror_cpys (s : State) (c : Nat) (r : HqRec) : (s.mirror c r).cpys = s.cpys := by
  unfold State.mirror
  dsimp only
  split
  · rfl
  · exact store_cpys s _ _ _

@[simp] theorem post1_cpys (s : State) (c : Nat) (p : Post) : (s.post1 c p).cpys = s.cpys := by
  simp only [State.post1, mirror_cpys, setHq_cpys]

@[simp] theorem postDevice_cpys (s : State) (c : Nat) (p : Post) : (s.postDevice c p).cpys = s.cpys := by
  unfold State.postDevice
  dsimp only
  split
  · exact post1_cpys s c p
  · rfl

@[simp] theorem drainOverflow_cpys (s : State) (c n : Nat) : (s.drainOverflow c n).cpys = s.cpys := by
  induction n generalizing s with
  | zero => rfl
  | succ n ih =>
    unfold State.drainOverflow
    dsimp only
    split
    · rfl
    · split
      · rw [ih, post1_cpys, setHq_cpys]
      · rfl

@[simp] theorem freeRecs_cpys (s : State) (c : Nat) (gone : HqRec → Bool) : (s.freeRecs c gone).cpys = s.cpys := by
  simp only [State.freeRecs, drainOverflow_cpys, setHq_cpys]
  exact foldl_cpys (fun s r => mirror_cpys s c _) _ s

@[simp] theorem endRequest_cpys (s : State) (c : Nat) (r : HqRec) : (s.endRequest c r).cpys = s.cpys := by
  unfold State.endRequest
  dsimp only
  split
  · exact freeRecs_cpys s c _
  · rfl

/-! ## Barriers -/

@[simp] theorem galPut_cpys (s : State) (c off : Nat) (b : Byte) : (s.galPut c off b).cpys = s.cpys := rfl

@[simp] theorem galClear_cpys (s : State) (c : Nat) (offs : List Nat) : (s.galClear c offs).cpys = s.cpys := by
  unfold State.galClear
  dsimp only
  split <;> rfl

@[simp] theorem galWrite_cpys (s : State) (tm : Team) (bs : List (Nat × Byte)) : (s.galWrite tm bs).cpys = s.cpys := by
  unfold State.galWrite
  dsimp only
  rw [foldl_cpys (fun s c => galClear_cpys s c _), foldl_cpys (fun s w => galPut_cpys s _ _ _)]

@[simp] theorem copyBarrier_cpys (s : State) (c : Cpy) (f : Nat → Nat) : (s.copyBarrier c f).cpys = s.cpys := by
  unfold State.copyBarrier
  dsimp only
  split
  · rfl
  · split
    · exact galWrite_cpys s _ _
    · rfl

/-! ## Ends of copies -/

theorem dropCpy_cpys (s : State) (id : Nat) : (s.dropCpy id).cpys = s.cpys.filter (fun c => c.id != id) := rfl

/-- A copy that has completed leaves the compositor; the others stay. -/
theorem copyEnd_cpys (s : State) (c : Cpy) : (s.copyEnd c).cpys = s.cpys.filter (fun x => x.id != c.id) := rfl

/-- A copy that fails leaves the compositor; the others stay. -/
theorem copyFail_cpys (s : State) (c : Cpy) (vector cause addr : Nat) :
    (s.copyFail c vector cause addr).cpys = s.cpys.filter (fun x => x.id != c.id) := by
  have hdrop (v : Tok) : (((s.copyBarrier c barAbort).setToks c v).dropCpy c.id).cpys
      = s.cpys.filter (fun x => x.id != c.id) := by
    rw [dropCpy_cpys]
    exact congrArg _ (copyBarrier_cpys s c barAbort)
  unfold State.copyFail
  dsimp only
  split
  · exact hdrop _
  · rw [postDevice_cpys, hdrop]

/-- R322: an answer to a replay request ends the copy that the request is for, and no other. -/
theorem cpyAnswerStore_cpys {s : State} {die : Nat} {bytes : List Byte} {r : HqRec} {c : Cpy}
    (hr : s.request (12 * die) 0x07 (leNat (bytes.take 8)) = some r) (hop : leNat ((bytes.drop 8).take 1) ≤ 1)
    (hzero : leNat ((bytes.drop 9).take 7) = 0)
    (hc : s.cpys.find? (fun c => r.poster == some c.id && c.replay.isSome) = some c) :
    (s.cpyAnswerStore die bytes).cpys = s.cpys.filter (fun x => x.id != c.id) := by
  have hok : ¬ (1 < leNat ((bytes.drop 8).take 1) || leNat ((bytes.drop 9).take 7) != 0) = true := by
    simp [hzero, hop]
  unfold State.cpyAnswerStore
  simp only [List.drop_zero, hr, if_neg hok, hc]
  split
  · rw [copyEnd_cpys, copyBarrier_cpys, endRequest_cpys]
  · rw [copyFail_cpys, endRequest_cpys]

theorem cpyansWrite_results (s : State) (r : HqRec) (c : Cpy) (hw : s.mayAnswer s.arg.w = true)
    (hr : s.request (12 * s.arg.a) 0x07 (leNat (s.arg.bytes.take 8)) = some r)
    (hop : leNat ((s.arg.bytes.drop 8).take 1) ≤ 1) (hzero : leNat ((s.arg.bytes.drop 9).take 7) = 0)
    (hc : s.cpys.find? (fun c => r.poster == some c.id && c.replay.isSome) = some c) :
    ∃ (s' : State), exec .cpyansWrite s = .next s' ∧ (∀ x ∈ s'.cpys, x.id ≠ c.id) ∧
      ∀ x ∈ s.cpys, x.id ≠ c.id → x ∈ s'.cpys := by
  refine ⟨s.cpyAnswerStore s.arg.a s.arg.bytes, congrArg _ (if_pos hw), ?_⟩
  rw [cpyAnswerStore_cpys hr hop hzero hc]
  refine ⟨fun x hx => ?_, fun x hx hne => ?_⟩
  · exact bne_iff_ne.1 (List.mem_filter.1 hx).2
  · exact List.mem_filter.2 ⟨hx, bne_iff_ne.2 hne⟩

end Sys2Proof.Machine
end

section
/-! The clauses of the registers together. -/

namespace Sys2Proof.Machine

/-- Settles O57: each clause is the lemma on its register. -/
theorem registerStoreResults : Obligations.RegisterStoreResults := by
  unfold Obligations.RegisterStoreResults
  exact ⟨fmodeWrite_results, fmodeWriteComplete_results, supervisorStores_ignored, supervisorStores_results,
    rbaseWrite_results, runWrite_results, cpyansWrite_results, registerWrite_results, fusedMinimumRaise_results⟩

end Sys2Proof.Machine
end

section
/-! What SETSR writes in a group and on a proctor lane (R55, R195, R198, R214, R215). -/

namespace Sys2Proof.Machine

/-! ## In a group -/

theorem exec_setsr_ready {h : Hdr} {a : BitVec 7} {b : BitVec 6} {s : State} {t : Thread}
    (hr : Ready (.setsr h a b) s t) :
    exec (.setsr h a b) s = .next (
      if 0x20 ≤ b.toNat then s.trapThread t (plainTrap vPrivilege 0x0C t.exec) t.pc (nextPc t.pc h)
      else if b == 0x05 then s.setThread { t.wentOn (nextPc t.pc h) with
        mathctl := mathctlWrite t.mathctl ((t.sreg a.toNat).setWidth 32) }
      else s.setThread { t.wentOn (nextPc t.pc h) with
        wlimit := if wlimitLegal t (t.sreg a.toNat).toNat then (t.sreg a.toNat).toNat else t.wlimit }) := by
  change execSetsr h a b s = _
  unfold execSetsr
  rw [run_ready (gate_ready hr)]
  simp only [hr.cur, hr.here, trap_thread hr.cur hr.here, sreg_thread hr.cur hr.here,
    advance_setThread hr.cur hr.here]
  rfl

/-- R55, bit by bit: a write of MATHCTL takes the flush bits, and the rounding mode where it is no reserved one. -/
theorem getLsbD_mathctlWrite (old v : W32) {k : Nat} (hk : k < 32) :
    (mathctlWrite old v).getLsbD k = (decide (4 ≤ k ∧ k < 8) && v.getLsbD k ||
      decide (k < 3) && (if (v.extractLsb' 0 3).toNat < 4 then v else old).getLsbD k) := by
  have hflush : ∀ k < 32, (0xF0 : W32).getLsbD k = decide (4 ≤ k ∧ k < 8) := by decide
  have hrm : ∀ k < 32, (7 : W32).getLsbD k = decide (k < 3) := by decide
  have hlegal : (v.extractLsb' 0 3).ult 4 = decide ((v.extractLsb' 0 3).toNat < 4) := rfl
  simp only [mathctlWrite, hlegal, decide_eq_true_eq, BitVec.getLsbD_or, BitVec.getLsbD_and, hflush k hk]
  split <;> simp only [BitVec.getLsbD_and, hrm k hk, Bool.and_comm]

theorem mathctlWrite_rm (old v : W32) :
    (mathctlWrite old v).extractLsb' 0 3 =
      if (v.extractLsb' 0 3).toNat < 4 then v.extractLsb' 0 3 else old.extractLsb' 0 3 := by
  rw [← apply_ite (BitVec.extractLsb' 0 3)]
  ext k hk
  simp [getLsbD_mathctlWrite old v (show k < 32 by omega), hk, show ¬ 4 ≤ k by omega]

theorem mathctlWrite_flush (old v : W32) : (mathctlWrite old v).extractLsb' 4 4 = v.extractLsb' 4 4 := by
  ext k hk
  simp [getLsbD_mathctlWrite old v (show 4 + k < 32 by omega), show 4 + k < 8 by omega, show ¬ 4 + k < 3 by omega]

/-- R55: the reserved bits of MATHCTL stay 0. -/
theorem mathctlWrite_reserved (old v : W32) :
    (mathctlWrite old v).extractLsb' 8 24 = 0 ∧ (mathctlWrite old v).getLsbD 3 = false := by
  refine ⟨?_, ?_⟩
  · ext k hk
    simp [getLsbD_mathctlWrite old v (show 8 + k < 32 by omega), show ¬ 8 + k < 8 by omega,
      show ¬ 8 + k < 3 by omega]
  · rw [getLsbD_mathctlWrite old v (by decide)]
    rfl

/-- R195: the legal values of WLIMIT are the powers of two up to the kernel's width. -/
theorem wlimitLegal_iff (t : Thread) (v : Nat) :
    wlimitLegal t v = true ↔ (∃ k, k < 7 ∧ v = 2 ^ k) ∧ v ≤ t.maxWidth := by
  simp only [wlimitLegal, Bool.and_eq_true, List.any_eq_true, List.mem_range, beq_iff_eq, decide_eq_true_eq]

/-! ## On a proctor lane -/

theorem modifyAt_modifyAt_const {α : Type} (l : List α) (i : Nat) (x y : α) :
    modifyAt (modifyAt l i (fun _ => x)) i (fun _ => y) = modifyAt l i (fun _ => y) := by
  induction l generalizing i with
  | nil => rfl
  | cons z l ih => cases i with
    | zero => rfl
    | succ i => exact congrArg (z :: ·) (ih i)

theorem getD_modifyAt_const {α : Type} {l : List α} {i : Nat} (hi : i < l.length) (x d : α) :
    (modifyAt l i (fun _ => x)).getD i d = x := by
  induction l generalizing i with
  | nil => exact absurd hi (Nat.not_lt_zero i)
  | cons z l ih => cases i with
    | zero => rfl
    | succ i => exact ih (Nat.lt_of_succ_lt_succ hi)

/-- A core of the device that is replaced reads as its replacement. -/
theorem core_setCore {s : State} {c : Nat} (hc : c < s.cores.length) (k : Core) : (s.setCore c k).core c = k :=
  getD_modifyAt_const hc k _

/-- Of two replacements of a core the later one counts. -/
theorem setCore_setCore (s : State) (c : Nat) (k k' : Core) : (s.setCore c k).setCore c k' = s.setCore c k' := by
  unfold State.setCore
  rw [modifyAt_modifyAt_const]

theorem core_setProctor {s : State} {c : Nat} (hc : c < s.cores.length) (p : Proctor) :
    (s.setProctor c p).core c = { s.core c with proctor := p } := core_setCore hc _

/-- Of two replacements of a proctor lane the later one counts. -/
theorem setProctor_setProctor {s : State} {c : Nat} (hc : c < s.cores.length) (p p' : Proctor) :
    (s.setProctor c p).setProctor c p' = s.setProctor c p' := by
  rw [State.setProctor, core_setProctor hc, State.setProctor, setCore_setCore]
  rfl

theorem sreg_proctor {s : State} {c : Nat} (hcur : s.cur = .proctor c) (n : Nat) :
    s.sreg n = Sparse.get (s.core c).proctor.sregs 0 n := by
  unfold State.sreg
  rw [hcur]

/-- A proctor lane replaced, going on to the next instruction. -/
theorem advance_setProctor {s : State} {c : Nat} (hcur : s.cur = .proctor c) (hc : c < s.cores.length) (p : Proctor)
    (h : Hdr) : (s.setProctor c p).advance h = s.setProctor c (p.wentOn (nextPc p.pc h)) := by
  unfold State.advance State.goto State.pc
  simp only [setProctor_cur, hcur, core_setProctor hc, setProctor_setProctor hc]
  rfl

/-- R198: a write of a special register leaves the lane's program counter. -/
theorem setsrProctor_pc (s : State) (c n : Nat) (v : W64) : (s.setsrProctor c n v).pc = (s.core c).proctor.pc := by
  unfold State.setsrProctor
  dsimp only
  split
  case h_4 | h_5 => split <;> rfl
  all_goals rfl

theorem exec_setsr_readyProctor {h : Hdr} {a : BitVec 7} {b : BitVec 6} {s : State} {c : Nat}
    (hr : ReadyProctor (.setsr h a b) s c) (hb : b.toNat ≠ 0x09) :
    exec (.setsr h a b) s = .next (s.setProctor c
      ((s.setsrProctor c b.toNat (Sparse.get (s.core c).proctor.sregs 0 a.toNat)).wentOn
        (nextPc (s.core c).proctor.pc h))) := by
  have hne : ¬ (b == 0x09) = true := fun he => hb (by rw [beq_iff_eq.1 he]; rfl)
  change execSetsr h a b s = _
  unfold execSetsr
  rw [run_ready (gate_readyProctor hr)]
  simp only [hr.cur, if_neg hne, sreg_proctor hr.cur]
  rw [advance_setProctor hr.cur hr.here, setsrProctor_pc]

/-- Settles O37: in a group by the two write rules; on a proctor lane each number of the list is an arm of
setsrProctor. -/
theorem setsrWritesSpecialRegisters : Obligations.SetsrWritesSpecialRegisters := by
  unfold Obligations.SetsrWritesSpecialRegisters
  refine ⟨?_, ?_⟩
  · rintro h a b s t v rfl hr
    refine ⟨?_, ?_, fun hb => ?_⟩
    · rintro rfl
      have hrm := mathctlWrite_rm t.mathctl ((t.sreg a.toNat).setWidth 32)
      have hflush := mathctlWrite_flush t.mathctl ((t.sreg a.toNat).setWidth 32)
      obtain ⟨hhigh, hbit⟩ := mathctlWrite_reserved t.mathctl ((t.sreg a.toNat).setWidth 32)
      rw [BitVec.extractLsb'_setWidth_of_le (by decide)] at hrm hflush
      exact ⟨_, ⟨exec_setsr_ready hr, sameMemory_setThread s _⟩, hhigh, hbit, hflush, hrm⟩
    · rintro rfl
      refine ⟨?_, sameMemory_setThread s _⟩
      rw [exec_setsr_ready hr]
      simp only [← wlimitLegal_iff]
      rfl
    · rw [exec_setsr_ready hr, if_pos hb]
  · rintro h a b s c q v rfl rfl hr
    simp only [List.forall_mem_cons]
    refine ⟨?_, ?_, ?_, ?_, ?_, List.forall_mem_nil _⟩ <;> intro hb <;>
      rw [exec_setsr_readyProctor hr (by rw [hb]; decide), hb]
    · rfl
    · rfl
    · simp only [State.setsrProctor, Bool.and_eq_true, decide_eq_true_eq]
    · simp only [State.setsrProctor, beq_iff_eq]
    · rfl

end Sys2Proof.Machine
end

section
/-! What an effect on the active lanes leaves: each lane's registers are words of its own (R175, R177), so that a
lane's effect reads what the lane held before the instruction, and the other lanes keep what they hold (R139). -/

namespace Sys2Proof.Machine

/-! ## Lanes of a mask -/

theorem mem_lanesOf {m : Mask} {l : Nat} : l ∈ lanesOf m ↔ l < 64 ∧ m.getLsbD l = true := by
  unfold lanesOf
  rw [List.mem_filter, List.mem_range]

theorem nodup_lanesOf (m : Mask) : (lanesOf m).Nodup := List.nodup_range.filter _

/-! ## Words of a lane -/

/-- R177: lanes of a group have words of their own. -/
theorem vkey_ne_of_lane (t : Thread) {l l' : Nat} (hl : l < 64) (hl' : l' < 64) (hne : l ≠ l') (r r' : Nat) :
    t.vkey r l ≠ t.vkey r' l' := by
  unfold Thread.vkey
  omega

/-- R48, R175: in a window of more than one slot the halves of a pair are two words. -/
theorem vkey_succ_ne (t : Thread) (hd : t.dres ≠ 1) (r l : Nat) : t.vkey (r + 1) l ≠ t.vkey r l := by
  have hslot : (t.wp + (r + 1)) % t.dres ≠ (t.wp + r) % t.dres := by
    intro he
    have hone : (t.wp + (r + 1) - (t.wp + r)) % t.dres = 0 := Nat.sub_mod_eq_zero_of_mod_eq he
    rw [show t.wp + (r + 1) - (t.wp + r) = 1 by omega] at hone
    exact hd (Nat.dvd_one.1 (Nat.dvd_of_mod_eq_zero hone))
  unfold Thread.vkey
  omega

@[simp] theorem vreg_setVreg_self (t : Thread) (r l : Nat) (v : W32) : (t.setVreg r l v).vreg r l = v :=
  Sparse.get_set_self ..

theorem vreg_setVreg_other (t : Thread) {r r' l : Nat} (v : W32) (hne : t.vkey r' l ≠ t.vkey r l) :
    (t.setVreg r l v).vreg r' l = t.vreg r' l := Sparse.get_set_other _ _ _ _ _ hne

/-- R48: a pair written reads as what was written. -/
theorem vpair_setVpair_self (t : Thread) (hd : t.dres ≠ 1) (r l : Nat) (v : W64) :
    (t.setVpair r l v).vpair r l = v := by
  have hlow : (t.setVpair r l v).vreg r l = v.extractLsb' 0 32 := by
    unfold Thread.setVpair
    rw [vreg_setVreg_other _ _ (vkey_succ_ne (t.setVreg r l _) hd r l).symm, vreg_setVreg_self]
  have hhigh : (t.setVpair r l v).vreg (r + 1) l = v.extractLsb' 32 32 := vreg_setVreg_self ..
  calc (t.setVpair r l v).vreg (r + 1) l ++ (t.setVpair r l v).vreg r l
      = v.extractLsb' 32 32 ++ v.extractLsb' 0 32 := by rw [hlow, hhigh]
    _ = v.extractLsb' 0 64 := BitVec.extractLsb'_append_extractLsb'_eq_extractLsb' (Nat.zero_add 32).symm
    _ = v := BitVec.extractLsb'_eq_self

/-! ## What an effect on some lanes leaves -/

/-- Thread u is t but for registers rs of lanes ls, and those lanes' sticky flags. -/
structure LanesFrame (rs ls : List Nat) (t u : Thread) : Prop where
  rest : u = { t with store := u.store, storePoison := u.storePoison, fx := u.fx }
  kept : ∀ k, (∀ l r, l ∈ ls → r ∈ rs → k ≠ t.vkey r l) →
    Sparse.get u.store 0 k = Sparse.get t.store 0 k ∧
    Sparse.get u.storePoison false k = Sparse.get t.storePoison false k
  flags : ∀ l, l ∉ ls → u.flags l = t.flags l

namespace LanesFrame

variable {rs ls ls' : List Nat} {t u v : Thread}

theorem refl (rs ls : List Nat) (t : Thread) : LanesFrame rs ls t t := ⟨rfl, fun _ _ => ⟨rfl, rfl⟩, fun _ _ => rfl⟩

theorem vkey_eq (h : LanesFrame rs ls t u) (r l : Nat) : u.vkey r l = t.vkey r l := by rw [h.rest]; rfl

theorem dres_eq (h : LanesFrame rs ls t u) : u.dres = t.dres := by rw [h.rest]

/-- An effect on fewer registers and lanes is one on more. -/
theorem mono {rs' : List Nat} (h : LanesFrame rs ls t u) (hr : rs ⊆ rs') (hl : ls ⊆ ls') : LanesFrame rs' ls' t u where
  rest := h.rest
  kept k hk := h.kept k (fun l r hl' hr' => hk l r (hl hl') (hr hr'))
  flags l hnot := h.flags l (fun hmem => hnot (hl hmem))

/-- One effect after another. -/
theorem trans (h : LanesFrame rs ls t u) (h' : LanesFrame rs ls' u v) : LanesFrame rs (ls ++ ls') t v where
  rest := by rw [h'.rest, h.rest]
  kept k hk := by
    obtain ⟨hstore, hpoison⟩ := h.kept k (fun l r hl => hk l r (List.mem_append_left _ hl))
    obtain ⟨hstore', hpoison'⟩ := h'.kept k (fun l r hl hr => h.vkey_eq r l ▸ hk l r (List.mem_append_right _ hl) hr)
    exact ⟨hstore'.trans hstore, hpoison'.trans hpoison⟩
  flags l hl := by
    rw [List.mem_append, not_or] at hl
    exact (h'.flags l hl.2).trans (h.flags l hl.1)

/-- An effect on each of some lanes in turn. -/
theorem foldl {f : Thread → Nat → Thread} (hf : ∀ u l, LanesFrame rs [l] u (f u l)) (ls : List Nat) (t : Thread) :
    LanesFrame rs ls t (ls.foldl f t) := by
  induction ls generalizing t with
  | nil => exact refl rs [] t
  | cons l ls ih => exact (hf t l).trans (ih (f t l))

/-- A lane that is none of them keeps its registers. -/
theorem vreg_eq (h : LanesFrame rs ls t u) (hls : ∀ l ∈ ls, l < 64) {l : Nat} (hl : l < 64) (hnot : l ∉ ls) (r : Nat) :
    u.vreg r l = t.vreg r l := by
  unfold Thread.vreg
  rw [h.vkey_eq]
  refine (h.kept _ (fun l' r' hl' _ => vkey_ne_of_lane t hl (hls l' hl') ?_ r r')).1
  rintro rfl
  exact hnot hl'

end LanesFrame

/-- Lane l holds the same registers and sticky flags in two threads. -/
structure LaneAgrees (l : Nat) (t u : Thread) : Prop where
  vreg : ∀ r, u.vreg r l = t.vreg r l
  flags : u.flags l = t.flags l

/-- R228: what stands in a lane's register or pair. -/
theorem holds_congr {t u : Thread} {l : Nat} (h : LaneAgrees l t u) {c r pat : Nat} :
    u.holds c r l pat ↔ t.holds c r l pat := by
  simp only [Thread.holds, Thread.vpair, h.vreg]

/-- Of an effect on each of some lanes in turn, a lane shows its own alone, on a thread in which the lane is still as it
was. -/
theorem foldl_laneAgrees {rs ls : List Nat} {f : Thread → Nat → Thread} (hf : ∀ u l, LanesFrame rs [l] u (f u l))
    (hnd : ls.Nodup) (hls : ∀ l ∈ ls, l < 64) (t : Thread) {l : Nat} (hl : l ∈ ls) :
    ∃ u before, LanesFrame rs before t u ∧ LaneAgrees l t u ∧ LaneAgrees l (f u l) (ls.foldl f t) := by
  obtain ⟨as, bs, rfl⟩ := List.append_of_mem hl
  obtain ⟨-, hmid, hdisjoint⟩ := List.nodup_append.1 hnd
  have hbefore : l ∉ as := fun hmem => hdisjoint l hmem l (List.mem_cons_self ..) rfl
  have hafter : l ∉ bs := (List.nodup_cons.1 hmid).1
  have h₁ := LanesFrame.foldl hf as t
  have h₂ := LanesFrame.foldl hf bs (f (as.foldl f t) l)
  refine ⟨as.foldl f t, as, h₁, ⟨fun r => ?_, h₁.flags l hbefore⟩, ?_⟩
  · exact h₁.vreg_eq (fun x hx => hls x (List.mem_append_left _ hx)) (hls l hl) hbefore r
  · rw [List.foldl_append, List.foldl_cons]
    exact ⟨fun r => h₂.vreg_eq (fun x hx => hls x (by simp [hx])) (hls l hl) hafter r, h₂.flags l hafter⟩

end Sys2Proof.Machine
end

section
/-! What a floating-point instruction does to the active lanes (R59, R62, R228). -/

namespace Sys2Proof.Machine

/-! ## Writing a lane's result -/

theorem setVreg_lanesFrame (t : Thread) (r l : Nat) (v : W32) : LanesFrame [r] [l] t (t.setVreg r l v) where
  rest := rfl
  kept k hk := by
    have hne : k ≠ t.vkey r l := hk l r (List.mem_singleton_self l) (List.mem_singleton_self r)
    exact ⟨Sparse.get_set_other t.store 0 _ k v hne, Sparse.get_set_other t.storePoison false _ k false hne⟩
  flags _ _ := rfl

theorem setVpair_lanesFrame (t : Thread) (r l : Nat) (v : W64) : LanesFrame [r, r + 1] [l] t (t.setVpair r l v) :=
  (((setVreg_lanesFrame t r l _).mono (by simp) (List.Subset.refl _)).trans
    ((setVreg_lanesFrame _ (r + 1) l _).mono (by simp) (List.Subset.refl _))).mono (List.Subset.refl _) (by simp)

/-- R228: a scalar result goes to its register, or to its pair. -/
theorem setFpat_lanesFrame (t : Thread) (c r l pat : Nat) :
    LanesFrame (opRegs (c == 4) r) [l] t (t.setFpat c r l pat) := by
  unfold Thread.setFpat opRegs
  split
  · exact setVpair_lanesFrame t r l _
  · exact setVreg_lanesFrame t r l _

@[simp] theorem flags_setFpat (t : Thread) (c r l l' pat : Nat) : (t.setFpat c r l pat).flags l' = t.flags l' := by
  unfold Thread.setFpat
  split <;> rfl

theorem holds_setFpat (t : Thread) (hd : t.dres ≠ 1) (c r l pat : Nat) : (t.setFpat c r l pat).holds c r l pat := by
  unfold Thread.setFpat Thread.holds
  by_cases hc : c = 4
  · simp [hc, vpair_setVpair_self t hd]
  · simp [hc]

/-- R59: flags of a lane added. -/
theorem flags_addFlags (t : Thread) (l l' : Nat) (x : Flags) :
    (t.addFlags l x).flags l' = if l' = l then t.flags l ||| x else t.flags l' := by
  unfold Thread.addFlags
  split
  · rename_i hx
    by_cases hl : l' = l <;> simp [beq_iff_eq.1 hx, hl]
  · unfold Thread.setFlags Thread.flags
    simp [Sparse.get_set]

theorem addFlags_rest (t : Thread) (l : Nat) (x : Flags) : t.addFlags l x = { t with fx := (t.addFlags l x).fx } := by
  unfold Thread.addFlags
  split <;> rfl

theorem addFlags_lanesFrame (rs : List Nat) (t : Thread) (l : Nat) (x : Flags) :
    LanesFrame rs [l] t (t.addFlags l x) where
  rest := by rw [addFlags_rest]
  kept k _ := by rw [addFlags_rest]; exact ⟨rfl, rfl⟩
  flags l' hne := by rw [flags_addFlags, if_neg (by simpa using hne)]

theorem setResult_lanesFrame (t : Thread) (c r l : Nat) (x : Nat × Flags) :
    LanesFrame (opRegs (c == 4) r) [l] t (t.setResult c r l x) :=
  ((setFpat_lanesFrame t c r l x.1).trans (addFlags_lanesFrame _ _ l x.2)).mono (List.Subset.refl _) (by simp)

theorem flags_setResult (t : Thread) (c r l : Nat) (x : Nat × Flags) :
    (t.setResult c r l x).flags l = t.flags l ||| x.2 := by
  rw [Thread.setResult, flags_addFlags, if_pos rfl, flags_setFpat]

theorem vreg_addFlags (t : Thread) (l r l' : Nat) (x : Flags) : (t.addFlags l x).vreg r l' = t.vreg r l' := by
  rw [addFlags_rest]
  rfl

theorem holds_setResult (t : Thread) (hd : t.dres ≠ 1) (c r l : Nat) (x : Nat × Flags) :
    (t.setResult c r l x).holds c r l x.1 := by
  have h := holds_setFpat t hd c r l x.1
  unfold Thread.setResult
  simpa only [Thread.holds, Thread.vpair, vreg_addFlags] using h

/-! ## The operands of a lane -/

theorem LanesFrame.destOf_eq {rs ls : List Nat} {t u : Thread} (h : LanesFrame rs ls t u) (hd : Hdr) (c l e : Nat) :
    destOf u hd c l e = destOf t hd c l e := by rw [h.rest]; rfl

/-- R56, R228: a lane that is as it was supplies the operand that it did. -/
theorem LanesFrame.fval_eq {rs ls : List Nat} {t u : Thread} (h : LanesFrame rs ls t u) {l : Nat}
    (ha : LaneAgrees l t u) (c r : Nat) : u.fval c r l = t.fval c r l := by
  have hctl : u.mathctl = t.mathctl := by rw [h.rest]
  simp only [Thread.fval, srcOf, Thread.fpat, Thread.vpair, ha.vreg, hctl]

/-! ## The instruction -/

theorem countSr_eq (t : Thread) (h : Hdr) :
    t.countSr h = { t with srcnt := if regxRnd h = 5 then t.srcnt + 1 else t.srcnt } := by
  unfold Thread.countSr
  by_cases hr : regxRnd h = 5 <;> simp [hr]

/-- R59, R62, R139, R228: an instruction that has an effect on registers rs of each active lane completes; a lane shows
its own effect alone, on a thread in which the lane is still as it was. -/
theorem floatLanes_results {i : Instr} {h : Hdr} {s : State} {t : Thread} {rs : List Nat} {f : Thread → Nat → Thread}
    (hexec : exec i s = floatLanes i h s f) (hf : ∀ u l, LanesFrame rs [l] u (f u l)) (hr : Ready i s t) :
    ∃ t', completes i s t' ∧ FloatFrame h rs t t' ∧ ∀ l, l < 64 → (active t h).getLsbD l = true →
      ∃ u before, LanesFrame rs before t u ∧ LaneAgrees l t u ∧ LaneAgrees l (f u l) t' := by
  have hframe : LanesFrame rs (lanesOf (active t h)) t (overLanes (active t h) t f) := LanesFrame.foldl hf _ t
  have hrest := hframe.rest
  refine ⟨((overLanes (active t h) t f).countSr h).wentOn (nextPc t.pc h), ⟨?_, sameMemory_setThread s _⟩, ?_, ?_⟩
  · rw [hexec, floatLanes, run_ready (gate_ready hr), withThread_thread hr.cur hr.here,
      advance_setThread hr.cur hr.here _ (by rw [countSr_eq, hrest]), countSr_eq, hrest]
  · rw [countSr_eq]
    refine ⟨by rw [hrest]; rfl, fun k hk => hframe.kept k (fun l r hl => hk l r (mem_lanesOf.1 hl).2), fun l _ hl => ?_⟩
    refine hframe.flags l (fun hmem => ?_)
    rw [(mem_lanesOf.1 hmem).2] at hl
    exact Bool.noConfusion hl
  · intro l hl hact
    obtain ⟨u, before, hu, hbefore, hafter⟩ := foldl_laneAgrees hf (nodup_lanesOf (active t h))
      (fun x hx => (mem_lanesOf.1 hx).1) t (mem_lanesOf.2 ⟨hl, hact⟩)
    rw [countSr_eq]
    exact ⟨u, before, hu, hbefore, hafter.vreg, hafter.flags⟩

/-- R228, R232, R233: an operation on the operands of each active lane completes with its result in v[d] and its flags
added. -/
theorem floatOperation_results {i : Instr} {h : Hdr} {s : State} {t : Thread} {c d ra rb rc : Nat}
    {op : Dest → Val → Val → Val → Nat × Flags}
    (hexec : exec i s = floatLanes i h s (fun t l =>
      t.setResult c d l (op (destOf t h c l 0) (t.fval c ra l) (t.fval c rb l) (t.fval c rc l))))
    (hr : Ready i s t) (hd : t.dres ≠ 1) :
    ∃ t', completes i s t' ∧ FloatFrame h (opRegs (c == 4) d) t t' ∧ ∀ l, l < 64 → (active t h).getLsbD l = true →
      t'.holds c d l (op (destOf t h c l 0) (t.fval c ra l) (t.fval c rb l) (t.fval c rc l)).1 ∧
      t'.flags l = t.flags l ||| (op (destOf t h c l 0) (t.fval c ra l) (t.fval c rb l) (t.fval c rc l)).2 := by
  obtain ⟨t', hdone, hframe, hlane⟩ := floatLanes_results hexec (fun u l => setResult_lanesFrame u c d l _) hr
  refine ⟨t', hdone, hframe, fun l hl hact => ?_⟩
  obtain ⟨u, before, hu, hbefore, hafter⟩ := hlane l hl hact
  simp only [hu.destOf_eq, hu.fval_eq hbefore] at hafter
  refine ⟨(holds_congr hafter).2 (holds_setResult u (hu.dres_eq ▸ hd) c d l _), ?_⟩
  rw [hafter.flags, flags_setResult, hbefore.flags]

/-- Settles O19: each instruction of the list is an operation on the operands of each lane. -/
theorem floatArithmeticResults : Obligations.FloatArithmeticResults := by
  unfold Obligations.FloatArithmeticResults
  rintro h d a b ty s t c rfl p hp hr hd
  refine floatOperation_results ?_ hr hd
  clear hr
  revert p
  simp only [List.forall_mem_cons]
  exact ⟨rfl, rfl, rfl, rfl, rfl, rfl, rfl, rfl, rfl, rfl, rfl, rfl, rfl, rfl, rfl, List.forall_mem_nil _⟩

end Sys2Proof.Machine
end

section
/-! Which group of a partition issues (R105, R106). -/

namespace Sys2Proof.Machine

/-- A starved group has the rank 1000, another supervisor-mode group 100, and another group its priority. -/
theorem rank_of_ne_starved {s : State} {t : Thread} (h : s.rank t ≠ 1000) :
    s.rank t = if t.sup then 100 else t.prio := by
  unfold State.rank at h ⊢
  dsimp only at h ⊢
  split at h
  · exact absurd rfl h
  · rename_i hs
    rw [if_neg hs]

theorem le_rank_of_sup (s : State) {t : Thread} (ht : t.sup = true) : 100 ≤ s.rank t := by
  by_cases h : s.rank t = 1000
  · omega
  · have hrank : s.rank t = 100 := by rw [rank_of_ne_starved h, if_pos ht]
    omega

/-- Issue order goes by rank first: only groups of one rank are told apart by anything else. -/
theorem ahead_of_rank_ne {s : State} {a b : Thread} (h : s.rank a ≠ s.rank b) :
    s.ahead a b = decide (s.rank b < s.rank a) := by
  unfold State.ahead
  exact if_pos (bne_iff_ne.2 h)

theorem rank_le_of_ahead {s : State} {a b : Thread} (h : s.ahead a b = true) : s.rank b ≤ s.rank a := by
  by_cases hr : s.rank a = s.rank b
  · exact Nat.le_of_eq hr.symm
  · rw [ahead_of_rank_ne hr, decide_eq_true_eq] at h
    exact Nat.le_of_lt h

theorem rank_le_of_not_ahead {s : State} {a b : Thread} (h : ¬ s.ahead a b = true) : s.rank a ≤ s.rank b := by
  by_cases hr : s.rank a = s.rank b
  · exact Nat.le_of_eq hr
  · rw [ahead_of_rank_ne hr, decide_eq_true_eq] at h
    exact Nat.le_of_not_lt h

theorem best_cons_ne_none (s : State) (t : Thread) (ts : List Thread) : s.best (t :: ts) ≠ none := by
  unfold State.best
  split
  · split <;> exact Option.some_ne_none _
  · exact Option.some_ne_none _

/-- The group chosen is one of those it was chosen from, and none of them has a greater rank. -/
theorem best_greatest {s : State} {ts : List Thread} {t : Thread} (h : s.best ts = some t) :
    t ∈ ts ∧ ∀ u ∈ ts, s.rank u ≤ s.rank t := by
  induction ts generalizing t with
  | nil => exact absurd h (Option.some_ne_none t).symm
  | cons a ts ih =>
    rw [State.best] at h
    rcases hb : s.best ts with _ | b
    · cases ts with
      | nil =>
        obtain rfl : a = t := Option.some.inj h
        simp
      | cons c ts => exact absurd hb (best_cons_ne_none s c ts)
    · obtain ⟨hmem, hmax⟩ := ih hb
      rw [hb] at h
      dsimp only at h
      split at h <;> obtain rfl := Option.some.inj h
      · rename_i hahead
        have hba := rank_le_of_ahead hahead
        exact ⟨List.mem_cons_self, List.forall_mem_cons.2 ⟨Nat.le_refl _, fun u hu => Nat.le_trans (hmax u hu) hba⟩⟩
      · rename_i hbehind
        exact ⟨List.mem_cons_of_mem a hmem, List.forall_mem_cons.2 ⟨rank_le_of_not_ahead hbehind, hmax⟩⟩

/-- Settles O7: the order in which `best` compares goes by rank first, and a supervisor-mode group's is at least 100. -/
theorem partitionTakesTheGreatestRank : Obligations.PartitionTakesTheGreatestRank := by
  unfold Obligations.PartitionTakesTheGreatestRank
  refine ⟨fun s ts t h => best_greatest h, fun s ts hts => ?_, fun s t u ht hu hprio hstarved => ?_⟩
  · obtain ⟨t, ts, rfl⟩ := List.exists_cons_of_ne_nil hts
    exact best_cons_ne_none s t ts
  · have hlow : s.rank u = u.prio := by rw [rank_of_ne_starved hstarved, hu, if_neg Bool.false_ne_true]
    have hhigh := le_rank_of_sup s ht
    omega

end Sys2Proof.Machine
end

section
/-! A fetch leaves the present agent as it was: it recalls the lines' buffered reductions (R296), and what a merge
changes is memory, the caches, operations that retire, and threads that go on. -/

namespace Sys2Proof.Machine

theorem State.foldl_cur {β : Type} {f : State → β → State} (hf : ∀ s b, (f s b).cur = s.cur) (l : List β)
    (s : State) : (l.foldl f s).cur = s.cur := by
  induction l generalizing s with
  | nil => rfl
  | cons b l ih => rw [List.foldl_cons, ih, hf]

/-! ## Memory at its home -/

@[simp] theorem State.retag_cur (s : State) (line slot : Nat) : (s.retag line slot).cur = s.cur := by
  unfold State.retag
  split
  · rfl
  · split <;> rfl

@[simp] theorem State.setByte_cur (s : State) (pa slot : Nat) (b : Byte) : (s.setByte pa slot b).cur = s.cur :=
  s.retag_cur (lineOf pa) slot

@[simp] theorem State.setLine_cur (s : State) (line slot : Nat) (bs : List (Nat × Byte)) :
    (s.setLine line slot bs).cur = s.cur := by
  have hbytes := State.foldl_cur (fun s (e : Nat × Byte) => s.setByte_cur (line + e.1) slot e.2) bs s
  unfold State.setLine
  dsimp only
  split <;> exact hbytes

@[simp] theorem State.storeByte_cur (s : State) (pa slot : Nat) (b : Byte) : (s.storeByte pa slot b).cur = s.cur := by
  unfold State.storeByte
  dsimp only
  split
  · split
    · rfl
    · exact s.setByte_cur pa slot b
  · exact s.setByte_cur pa slot b

@[simp] theorem State.store_cur (s : State) (pa slot : Nat) (bs : List Byte) : (s.store pa slot bs).cur = s.cur := by
  induction bs generalizing s pa with
  | nil => rfl
  | cons b bs ih => rw [State.store, ih, State.storeByte_cur]

/-! ## A write enters the coherence order of its line -/

theorem State.cachesOnly_cur {s s' : State} (h : s.cachesOnly s') : s'.cur = s.cur := by
  obtain ⟨_, _, _, _, rfl⟩ := h
  rfl

@[simp] theorem State.settleLine_cur (s : State) (line key n : Nat) : (s.settleLine line key n).cur = s.cur := by
  induction n generalizing s with
  | zero => rfl
  | succ n ih =>
    unfold State.settleLine
    split
    · split
      · split
        · rw [ih, State.setLine_cur]
        · rfl
      · rfl
    · rfl

@[simp] theorem State.markLine_cur (s : State) (hists : List Nat) (line : Nat) :
    (s.markLine hists line).cur = s.cur := by
  unfold State.markLine
  split <;> rfl

@[simp] theorem State.reportPend_cur (s : State) (line : Nat) (p : Pend) : (s.reportPend line p).cur = s.cur := by
  unfold State.reportPend
  split <;> rfl

@[simp] theorem State.land_cur (s : State) (w : WriteBy) (line : Nat) (bs : List (Nat × Byte)) :
    (s.land w line bs).cur = s.cur := by
  have hfill : (if w.mt == 0 then (s.retag line w.key).useL2 line w.cache else s.retag line w.key).cur = s.cur := by
    split
    · rw [State.cachesOnly_cur (State.useL2_caches _ _ _), State.retag_cur]
    · exact s.retag_cur _ _
  unfold State.land
  dsimp only
  generalize (if w.mt == 0 then _ else _ : State) = s₁ at hfill ⊢
  have hprobe := State.cachesOnly_cur (s₁.invalidate_caches
    ((s₁.dirClusters line).filter (· != clusterOf w.core)) line)
  rw [State.settleLine_cur, State.reportPend_cur, State.markLine_cur, ← hfill, ← hprobe]
  split <;> rfl

@[simp] theorem State.rmw_cur (s : State) (w : WriteBy) (line off size : Nat) (ext : Option Nat)
    (f : Nat → Option Nat) : (s.rmw w line off size ext f).1.cur = s.cur := by
  unfold State.rmw
  dsimp only
  split
  · exact s.land_cur _ _ _
  · rfl

/-! ## Records freed -/

@[simp] theorem State.mirror_cur (s : State) (core : Nat) (r : HqRec) : (s.mirror core r).cur = s.cur := by
  unfold State.mirror
  dsimp only
  split
  · rfl
  · exact s.store_cur _ _ _

@[simp] theorem State.post1_cur (s : State) (core : Nat) (p : Post) : (s.post1 core p).cur = s.cur := by
  unfold State.post1
  dsimp only
  rw [State.mirror_cur, setHq_cur]

@[simp] theorem State.drainOverflow_cur (s : State) (core n : Nat) : (s.drainOverflow core n).cur = s.cur := by
  induction n generalizing s with
  | zero => rfl
  | succ n ih =>
    unfold State.drainOverflow
    dsimp only
    split
    · rfl
    · split
      · rw [ih, State.post1_cur, setHq_cur]
      · rfl

@[simp] theorem State.freeRecs_cur (s : State) (core : Nat) (gone : HqRec → Bool) :
    (s.freeRecs core gone).cur = s.cur := by
  unfold State.freeRecs
  dsimp only
  rw [State.drainOverflow_cur, setHq_cur]
  exact State.foldl_cur (fun s _ => s.mirror_cur core _) _ s

@[simp] theorem State.freeOf_cur (s : State) (id : Nat) (p : HqRec → Bool) : (s.freeOf id p).cur = s.cur :=
  State.foldl_cur (fun s c => s.freeRecs_cur c _) _ s

/-! ## Operations that retire -/

@[simp] theorem State.acquireBy_cur (s : State) (id : Nat) : (s.acquireBy id).cur = s.cur := by
  unfold State.acquireBy
  split
  · split
    · rw [State.freeOf_cur, setThread_cur]
    · rfl
  · rfl

@[simp] theorem State.dequeue_cur (s : State) : s.dequeue.cur = s.cur := by
  unfold State.dequeue
  dsimp only
  split <;> rfl

@[simp] theorem State.unparkAcquire_cur (s : State) (op : Nat) : (s.unparkAcquire op).cur = s.cur :=
  State.foldl_cur (fun s (t : Thread) => s.acquireBy_cur t.id) _ _

@[simp] theorem State.retire_cur (s : State) (id : Nat) : (s.retire id).cur = s.cur := by
  unfold State.retire
  rw [State.unparkAcquire_cur, State.dequeue_cur]

@[simp] theorem State.ackStore_cur (s : State) (id : Nat) : (s.ackStore id).cur = s.cur := by
  unfold State.ackStore
  split
  · split
    · exact State.retire_cur _ id
    · rfl
  · rfl

/-! ## Buffered reductions merged, and the fetch -/

@[simp] theorem State.mergeLine_cur (s : State) (r : RedLine) : (s.mergeLine r).cur = s.cur := by
  unfold State.mergeLine
  dsimp only
  rw [State.foldl_cur State.ackStore_cur]
  exact State.foldl_cur (fun s _ => s.rmw_cur _ _ _ _ _ _) _ s

@[simp] theorem State.mergeWhere_cur (s : State) (p : RedLine → Bool) : (s.mergeWhere p).cur = s.cur := by
  refine State.foldl_cur (fun s r => ?_) _ s
  split
  · exact s.mergeLine_cur r
  · rfl

@[simp] theorem State.recall_cur (s : State) (line : Nat) : (s.recall line).cur = s.cur := s.mergeWhere_cur _

@[simp] theorem State.fetchWord_cur (s : State) (core : Nat) (ctx : W32) (sup : Bool) (va : Nat) :
    (s.fetchWord core ctx sup va).1.cur = s.cur := by
  unfold State.fetchWord
  split
  · dsimp only
    split <;> exact s.recall_cur _
  · rfl

@[simp] theorem State.fetchPacket_cur (s : State) (core : Nat) (ctx : W32) (sup : Bool) (va : Nat) :
    (s.fetchPacket core ctx sup va).1.cur = s.cur := by
  unfold State.fetchPacket
  dsimp only
  split <;> simp only [State.fetchWord_cur]

end Sys2Proof.Machine
end

section
/-! A step that the schedule gives to one unit (R105, R197). -/

namespace Sys2Proof.Machine

/-! ## The words at a program counter -/

/-- An instruction without the chain bit issues alone (R142). -/
theorem decodeHere_alone {s : State} {ws next : List W32} {i : Instr} {n : Nat} (hd : s.decodeFor ws = .ok (i, n))
    (hc : (hdrOf i).c = false) : s.decodeHere ws next = (.issue i none, s) := by
  simp only [State.decodeHere, hd, hc, Bool.not_false, if_true]

theorem endsChained_alone {ws : List W32} {i : Instr} {n : Nat} (hc : (hdrOf i).c = false) :
    endsChained (.ok (i, n)) ws = false := by
  simp only [endsChained, hc, Bool.false_and]

theorem decodeFor_thread {s : State} {id : Nat} (h : s.cur = .thread id) (ws : List W32) :
    s.decodeFor ws = decodeWords ws := by
  simp only [State.decodeFor, h]

theorem decodeFor_proctor {s : State} {c : Nat} (h : s.cur = .proctor c) {ws : List W32}
    (hok : proctorRefuses ws = false) : s.decodeFor ws = decodeWords ws := by
  simp only [State.decodeFor, h, hok, Bool.false_eq_true, if_false]

/-- R110: words stand before a group where its partition's buffer holds their packet, and nowhere else. -/
theorem fetchedAt_words {s : State} {t : Thread} {pc : Nat} {ws next : List W32}
    (h : s.fetchedAt t pc = .words ws next) :
    ∃ b packet, s.blockFind t.core t.part t.ctx t.sup (blockOf pc) = some b ∧
      lookup b.packets (pc % 192 / 12) = some packet ∧ ws = packet.drop (pc % 12 / 4) := by
  unfold State.fetchedAt at h
  dsimp only at h
  split at h
  · rename_i packet hbuffer
    split at hbuffer
    · rename_i b hb
      cases h
      exact ⟨b, packet, hb, hbuffer, rfl⟩
    · cases hbuffer
  · repeat' split at h
    all_goals cases h

theorem fetchedAt_of_block {s : State} {t : Thread} {pc : Nat} {b : Block} {packet : List W32}
    (hb : s.blockFind t.core t.part t.ctx t.sup (blockOf pc) = some b)
    (hp : lookup b.packets (pc % 192 / 12) = some packet) :
    s.fetchedAt t pc = .words (packet.drop (pc % 12 / 4)) [] := by
  simp only [State.fetchedAt, hb, hp]

theorem fetched_words {s : State} {t : Thread} {ws next : List W32} (h : s.fetched t = .words ws next) :
    ∃ x, s.fetchedAt t t.pc.toNat = .words ws x := by
  unfold State.fetched at h
  split at h
  · rename_i _ x hat
    refine ⟨x, ?_⟩
    split at h
    · split at h
      · cases h
        exact hat
      · cases h
        exact hat
      · rename_i hno _
        exact absurd h (hno ws next)
    · cases h
      exact hat
  · rename_i hno
    exact absurd h (hno ws next)

/-- Whose turn it is does not change the words before a group. -/
theorem fetched_alone_withCur {s : State} {t : Thread} {ws next : List W32} (h : s.fetched t = .words ws next)
    (halone : endsChained (decodeWords ws) ws = false) (a : Agent) :
    ({ s with cur := a } : State).fetched t = .words ws [] := by
  obtain ⟨x, hat⟩ := fetched_words h
  obtain ⟨b, packet, hb, hp, rfl⟩ := fetchedAt_words hat
  have hat' : ({ s with cur := a } : State).fetchedAt t t.pc.toNat = .words (packet.drop (t.pc.toNat % 12 / 4)) [] :=
    fetchedAt_of_block hb hp
  unfold State.fetched
  rw [hat']
  simp only [halone, Bool.false_eq_true, if_false]

/-! ## The unit that the schedule names -/

theorem pick_of_turn {s s' : State} {u : Unit_} {rest : List Unit_} {i : Instr} {second : Option Instr}
    (hagenda : s.agenda = []) (hturns : s.turns = u :: rest)
    (hunit : ({ s with turns := rest } : State).pickUnit u = (.issue i second, s')) :
    s.pick = (.issue i second, s') := by
  unfold State.pick
  split
  · rename_i heq
    exact absurd (heq.symm.trans hagenda) (List.cons_ne_nil _ _)
  · unfold State.pickTurn
    split
    · rename_i v rest' heq
      obtain ⟨rfl, rfl⟩ := List.cons.inj (hturns.symm.trans heq)
      dsimp only
      rw [hunit]
    · rename_i heq
      exact absurd (hturns.symm.trans heq) (List.cons_ne_nil _ _)

/-- R105: the unit that the schedule names issues, where it has an instruction. -/
theorem step_of_turn {s s' : State} {u : Unit_} {rest : List Unit_} {i : Instr} {second : Option Instr}
    (hpower : s.tick.poweredOff = false) (hagenda : s.tick.agenda = []) (hturns : s.tick.turns = u :: rest)
    (hunit : ({ s.tick with turns := rest } : State).pickUnit u = (.issue i second, s')) :
    step s = issue i second s' := by
  have hturn : s.tick.deviceTurn = false := by simp [State.deviceTurn, hturns]
  simp only [step, hpower, hturn, pick_of_turn hagenda hturns hunit, follow, Bool.false_and, Bool.false_eq_true,
    if_false]

/-! ## A group of a partition -/

theorem best_singleton (s : State) (t : Thread) : s.best [t] = some t := rfl

/-- A group's block at the young end of its partition's buffer, where the buffer holds it (R111). -/
def State.blockUsed (s : State) (t : Thread) : State :=
  match s.blockFind t.core t.part t.ctx t.sup (blockOf t.pc.toNat) with
  | some b => s.blockPut b
  | none => s

theorem blockUsed_cur (s : State) (t : Thread) : (s.blockUsed t).cur = s.cur := by
  unfold State.blockUsed
  split <;> rfl

theorem blockUsed_time (s : State) (t : Thread) : (s.blockUsed t).time = s.time := by
  unfold State.blockUsed
  split <;> rfl

/-- The state in which a group's instruction executes (R105): it is the one that issues, and it has issued now. -/
def State.issuing (s : State) (t : Thread) : State :=
  (({ s with cur := .thread t.id } : State).blockUsed t).setThread { t with lastIssue := s.time }

theorem issuing_cur (s : State) (t : Thread) : (s.issuing t).cur = .thread t.id := by
  unfold State.issuing
  rw [setThread_cur, blockUsed_cur]

/-- No time passes between a use of the block buffer and the issue. -/
theorem issuing_time (s : State) (t : Thread) :
    s.issuing t = (({ s with cur := .thread t.id } : State).blockUsed t).setThread
      { t with lastIssue := (({ s with cur := .thread t.id } : State).blockUsed t).time } := by
  rw [blockUsed_time]
  rfl

/-- R105: a group that alone could issue, with an instruction that issues alone, is the one that its partition picks. -/
theorem pickPart_alone {s : State} {t : Thread} {ws next : List W32} {i : Instr} {n : Nat}
    (honly : s.threads.filter (fun u => u.core == t.core && u.part == t.part && s.awake u) = [t])
    (hwords : s.fetched t = .words ws next) (hd : decodeWords ws = .ok (i, n)) (hc : (hdrOf i).c = false) :
    s.pickPart t.core t.part = (.issue i none, s.issuing t) := by
  have halone : endsChained (decodeWords ws) ws = false := by rw [hd, endsChained_alone hc]
  have hwords' := fetched_alone_withCur hwords halone (.thread t.id)
  have hissue : s.pickPart t.core t.part = (s.issuing t).decodeHere ws [] := by
    rw [issuing_time]
    unfold State.pickPart
    simp only [honly, hwords, List.map_cons, List.map_nil, List.filter_cons, List.filter_nil, if_true,
      List.isEmpty_cons, Bool.false_eq_true, if_false, best_singleton, hwords']
    rfl
  rw [hissue]
  exact decodeHere_alone ((decodeFor_thread (issuing_cur s t) ws).trans hd) hc

/-! ## A proctor lane -/

/-- R197: a proctor lane that runs, with no interrupt to take and an instruction that issues alone, issues it. -/
theorem pickProctor_alone {s s₂ s₃ : State} {c : Nat} {ws : List W32} {i : Instr} {n : Nat}
    {f : Option (Nat × Trans)} (hs : s₂ = { s with cur := .proctor c })
    (hlost : s₂.powerLost = none) (hrun : (s₂.die (dieOf c)).stopped = false)
    (hint : (s₂.core c).interrupted = false) (hready : (s₂.core c).laneReady = true)
    (hfetch : s₂.fetchPacket c 0x1000 true (packetOf (s₂.core c).proctor.pc.toNat) = (s₃, f, some ws))
    (hok : proctorRefuses (ws.drop ((s₂.core c).proctor.pc.toNat % 12 / 4)) = false)
    (hd : decodeWords (ws.drop ((s₂.core c).proctor.pc.toNat % 12 / 4)) = .ok (i, n)) (hc : (hdrOf i).c = false) :
    s.pickProctor c = (.issue i none, s₃) := by
  have hcur : s₃.cur = .proctor c := by
    have h := s₂.fetchPacket_cur c 0x1000 true (packetOf (s₂.core c).proctor.pc.toNat)
    rw [hfetch, hs] at h
    exact h
  have hdec := (decodeFor_proctor hcur hok).trans hd
  have hcore : s.core c = s₂.core c := by
    rw [hs]
    rfl
  have hgoes : (s.powerLost.isSome || (s₂.die (dieOf c)).stopped) = false := by
    rw [show s.powerLost = s₂.powerLost by rw [hs], hlost, hrun]
    rfl
  unfold State.pickProctor
  simp only [hcore, ← hs, hgoes, hint, hready, hfetch, hdec, endsChained_alone hc, decodeHere_alone hdec hc,
    Bool.not_true, Bool.false_eq_true, if_false]

/-- Settles O5: the schedule's unit picks the instruction decoded from its words, and it is issued alone. -/
theorem stepExecutesTheDecodedInstruction : Obligations.StepExecutesTheDecodedInstruction := by
  unfold Obligations.StepExecutesTheDecodedInstruction
  refine ⟨fun s s₂ s₃ rest t ws i n hpower hagenda hturns hs₂ honly hwords hd hc hs₃ => ?_,
    fun s s₂ s₃ rest c ws i n f hpower hagenda hturns hs₂ hlost hrun hint hready hfetch hok hd hc => ?_⟩
  · have hs₃ : s₃ = s₂.issuing t := hs₃
    have hunit : ({ s.tick with turns := rest } : State).pickUnit (.part t.core t.part) = (.issue i none, s₃) := by
      rw [hs₃, ← hs₂]
      exact pickPart_alone honly hwords hd hc
    exact step_of_turn hpower hagenda hturns hunit
  · exact step_of_turn hpower hagenda hturns (pickProctor_alone hs₂ hlost hrun hint hready hfetch hok hd hc)

end Sys2Proof.Machine
end
